-- ==== Sys2Proof/Word.lean ====
section
/-! DEFINITION. The word types of the Ilumond Damkor (R14) and their plainest arithmetic. -/

namespace Sys2Proof

/-- A byte. -/
abbrev Byte := BitVec 8
/-- A half-word (R14). -/
abbrev Half := BitVec 16
/-- A word of 32 bits (R14). -/
abbrev Word := BitVec 32
/-- A double-word of 64 bits (R14). -/
abbrev DWord := BitVec 64

/-- A double-word from its two words, bits 31:0 first (R14, R48). -/
def dword (lo hi : Word) : DWord := hi ++ lo
/-- Bits 31:0 of a double-word. -/
def loWord (x : DWord) : Word := x.extractLsb' 0 32
/-- Bits 63:32 of a double-word. -/
def hiWord (x : DWord) : Word := x.extractLsb' 32 32

end Sys2Proof
end

