-- ==== Sys2Proof/Machine/Crypto.lean ====
section
/-! DEFINITION. SHA-384 and the check of an ECDSA signature on brainpoolP384r1, which R440 and R444 name and take from the published
standards (log entry 60). -/

namespace Sys2Proof.Machine
open Sys2Proof

/-! ### SHA-384 -/

/-- The largest `x` below 2^(n+1) over `acc` whose power `e` is at most `v`. -/
def rootBits (e v : Nat) : Nat → Nat → Nat
  | 0, acc => if (acc + 1) ^ e ≤ v then acc + 1 else acc
  | n + 1, acc => rootBits e v n (if (acc + 2 ^ (n + 1)) ^ e ≤ v then acc + 2 ^ (n + 1) else acc)
/-- The first 64 fraction bits of the root of order `e` of `p`. -/
def rootFraction (e p : Nat) : DWord := BitVec.ofNat 64 (rootBits e (p * 2 ^ (64 * e)) 70 0)
/-- The first 80 primes. -/
def shaPrimes : List Nat := (List.range 410).filter fun n => decide (2 ≤ n) && (List.range n).all fun d => decide (d < 2) || n % d != 0
/-- The round constants. -/
def shaK : List DWord := (shaPrimes.take 80).map (rootFraction 3)
/-- The initial hash. -/
def shaInit : List DWord := ((shaPrimes.drop 8).take 8).map (rootFraction 2)
/-- Rotate right. -/
def rotr (x : DWord) (n : Nat) : DWord := x.rotateRight n
/-- The message schedule: the last 16 words, latest first, extended `n` times. -/
def shaSchedule : Nat → List DWord → List DWord
  | 0, ws => ws
  | n + 1, ws =>
    let w2 := ws.getD 1 0
    let w15 := ws.getD 14 0
    let s0 := rotr w15 1 ^^^ rotr w15 8 ^^^ (w15 >>> 7)
    let s1 := rotr w2 19 ^^^ rotr w2 61 ^^^ (w2 >>> 6)
    shaSchedule n ((ws.getD 15 0 + s0 + ws.getD 6 0 + s1) :: ws)
/-- One round. -/
def shaRound (st : List DWord) (kw : DWord × DWord) : List DWord :=
  match st with
  | [a, b, c, d, e, f, g, h] =>
    let s1 := rotr e 14 ^^^ rotr e 18 ^^^ rotr e 41
    let t1 := h + s1 + ((e &&& f) ^^^ (~~~e &&& g)) + kw.1 + kw.2
    let s0 := rotr a 28 ^^^ rotr a 34 ^^^ rotr a 39
    let t2 := s0 + ((a &&& b) ^^^ (a &&& c) ^^^ (b &&& c))
    [t1 + t2, a, b, c, d + t1, e, f, g]
  | st => st
/-- One block of 16 words. -/
def shaBlock (ks st ws : List DWord) : List DWord :=
  let r := (ks.zip (shaSchedule 64 ws.reverse).reverse).foldl shaRound st
  List.zipWith (· + ·) st r
/-- Big-endian value of bytes. -/
def beNat (bs : List Byte) : Nat := bs.foldl (fun n b => 256 * n + b.toNat) 0
/-- The `n` big-endian bytes of a value. -/
def beBytes : Nat → Nat → List Byte
  | 0, _ => []
  | n + 1, x => BitVec.ofNat 8 (x / 256 ^ n) :: beBytes n x
/-- The blocks of a padded message. -/
def shaBlocks (ks : List DWord) : Nat → List DWord → List Byte → List DWord
  | 0, st, _ => st
  | n + 1, st, bs =>
    let ws := (List.range 16).map fun i => BitVec.ofNat 64 (beNat ((bs.drop (8 * i)).take 8))
    shaBlocks ks n (shaBlock ks st ws) (bs.drop 128)
/-- SHA-384. (PRESUMED, log entry 60.) -/
def sha384 (m : List Byte) : List Byte :=
  let n := m.length
  let zeros := (239 - n % 128) % 128
  let p := m ++ [0x80] ++ List.replicate zeros 0 ++ beBytes 16 (8 * n)
  ((shaBlocks shaK (p.length / 128) shaInit p).take 6).flatMap fun w => beBytes 8 w.toNat

/-! ### brainpoolP384r1 -/

/-- The field's prime. -/
def curveP : Nat := 0x8CB91E82A3386D280F5D6F7E50E641DF152F7109ED5456B412B1DA197FB71123ACD3A729901D1A71874700133107EC53
/-- Coefficient A. -/
def curveA : Nat := 0x7BC382C63D8C150C3C72080ACE05AFA0C2BEA28E4FB22787139165EFBA91F90F8AA5814A503AD4EB04A8C7DD22CE2826
/-- Coefficient B. -/
def curveB : Nat := 0x04A8C7DD22CE28268B39B55416F0447C2FB77DE107DCD2A62E880EA53EEB62D57CB4390295DBC9943AB78696FA504C11
/-- The base point. -/
def curveG : Nat × Nat :=
  (0x1D1C64F068CF45FFA2A63A81B7C13F6B8847A3E77EF14FE3DB7FCAFE0CBD10E8E826E03436D646AAEF87B2E247D4AF1E,
    0x8ABE1D7520F9C2A45CB1EB8E95CFD55262B70B29FEEC5864E19C054FF99129280E4646217791811142820341263C5315)
/-- The order of the base point. -/
def curveN : Nat := 0x8CB91E82A3386D280F5D6F7E50E641DF152F7109ED5456B31F166E6CAC0425A7CF3AB6AF6B7FC3103B883202E9046565
/-- A power modulo `m`: `n` bits of the exponent. -/
def powMod (b m : Nat) : Nat → Nat → Nat
  | 0, _ => 1 % m
  | n + 1, e =>
    let r := powMod (b * b % m) m n (e / 2)
    if e % 2 = 1 then b * r % m else r
/-- The inverse modulo a prime of at most 384 bits. -/
def invMod (x m : Nat) : Nat := powMod (x % m) m 384 (m - 2)
/-- Is a point on the curve? -/
def onCurve (q : Nat × Nat) : Bool :=
  decide (q.1 < curveP) && decide (q.2 < curveP) && q.2 * q.2 % curveP == (q.1 * q.1 * q.1 + curveA * q.1 + curveB) % curveP
/-- The difference modulo the field's prime of two numbers below it. -/
def subP (x y : Nat) : Nat := (x + curveP - y) % curveP
/-- A point as (X, Y, Z): x = X / Z², y = Y / Z³, and Z = 0 for the neutral element. -/
abbrev Point := Nat × Nat × Nat
/-- Twice a point. -/
def pointDouble (p : Point) : Point :=
  let (x, y, z) := p
  let yy := y * y % curveP
  let s := 4 * x * yy % curveP
  let zz := z * z % curveP
  let m := (3 * x * x + curveA * (zz * zz % curveP)) % curveP
  let x3 := subP (m * m % curveP) (2 * s % curveP)
  (x3, subP (m * subP s x3 % curveP) (8 * yy * yy % curveP), 2 * y * z % curveP)
/-- The sum of two points. -/
def pointAdd (p q : Point) : Point :=
  let (x1, y1, z1) := p
  let (x2, y2, z2) := q
  if z1 = 0 then q
  else if z2 = 0 then p
  else
    let u1 := x1 * (z2 * z2) % curveP
    let u2 := x2 * (z1 * z1) % curveP
    let s1 := y1 * (z2 * z2 * z2) % curveP
    let s2 := y2 * (z1 * z1 * z1) % curveP
    if u1 = u2 then (if s1 = s2 then pointDouble p else (1, 1, 0))
    else
      let h := subP u2 u1
      let r := subP s2 s1
      let hh := h * h % curveP
      let hhh := h * hh % curveP
      let v := u1 * hh % curveP
      let x3 := subP (subP (r * r % curveP) hhh) (2 * v % curveP)
      (x3, subP (r * subP v x3 % curveP) (s1 * hhh % curveP), h * z1 * z2 % curveP)
/-- A multiple of a point: `n` bits of the factor. -/
def pointMul (p : Point) : Nat → Nat → Point
  | 0, _ => (1, 1, 0)
  | n + 1, e =>
    let r := pointMul (pointDouble p) n (e / 2)
    if e % 2 = 1 then pointAdd p r else r
/-- The coordinates of a point that is not the neutral element. -/
def Point.affine (p : Point) : Nat × Nat :=
  let w := invMod p.2.2 curveP
  (p.1 * (w * w) % curveP, p.2.1 * (w * w * w) % curveP)
/-- The base point as a point. -/
def pointG : Point := (curveG.1, curveG.2, 1)
/-- A private key within its range, from a number. -/
def keyScalar (d : Nat) : Nat := d % (curveN - 1) + 1
/-- The uncompressed public point of a private key. -/
def publicKey (d : Nat) : List Byte :=
  let q := (pointMul pointG 384 (keyScalar d)).affine
  4 :: (beBytes 48 q.1 ++ beBytes 48 q.2)
/-- The signature of a message by a private key with a nonce; none where the nonce gives none. (PRESUMED, log entry 60.) -/
def ecdsaSign (d : Nat) (m : List Byte) (nonce : Nat) : Option (Nat × Nat) :=
  let k := keyScalar nonce
  let r := (pointMul pointG 384 k).affine.1 % curveN
  let s := invMod k curveN * ((beNat (sha384 m) + r * keyScalar d) % curveN) % curveN
  if r = 0 ∨ s = 0 then none else some (r, s)
/-- Is (r, s) a valid signature of a message under an uncompressed public point? (PRESUMED, log entry 60.) -/
def ecdsaValid (key : List Byte) (m : List Byte) (r s : Nat) : Bool :=
  let q := (beNat ((key.drop 1).take 48), beNat ((key.drop 49).take 48))
  key.length == 97 && key.head? == some 4 && onCurve q && decide (0 < r) && decide (r < curveN) && decide (0 < s) && decide (s < curveN) &&
    (let w := invMod s curveN
     let e := beNat (sha384 m)
     let (x, _, z) := pointAdd (pointMul pointG 384 (e * w % curveN)) (pointMul (q.1, q.2, 1) 384 (r * w % curveN))
    z != 0 && x * invMod (z * z) curveP % curveP % curveN == r)

end Sys2Proof.Machine
end

