-- ==== Sys2Proof/Syntax.lean ====
section
/-! DEFINITION. The abstract syntax: one constructor of `Instr` for each row of spec/opcode_table.json.
Words of the two instruction streams come first, in the order of the majors (Table 9.1); the device's events, which the
table lists as steps without a word, follow. Register numbers and codes are decoded here, so that no meaning sees a raw
encoding. -/

namespace Sys2Proof

/-- A vector register field, v0 to v127 (R173). -/
abbrev VReg := BitVec 7
/-- A scalar register, s0 to s63 (R173). -/
abbrev SReg := BitVec 6
/-- A predicate register, p0 to p7 (R47, R49). -/
abbrev PReg := BitVec 3
/-- A tile field, t0 to t63 (R173). -/
abbrev TReg := BitVec 6

/-- The guard of a word: p(GP XOR 7), negated when `neg` (R176). `⟨false, 7⟩` is "unguarded". -/
structure Guard where
  neg : Bool
  p : PReg
  deriving DecidableEq, Repr

/-- The guard of a word without a lent byte (R176). -/
def Guard.none : Guard := ⟨false, 7⟩

/-- A vector source that SA or SB may turn into a scalar register (R177). -/
inductive Src where
  | v (r : VReg)
  | s (r : SReg)
  deriving DecidableEq, Repr

/-- A tile source that SA or SB may turn into a scalar register (R177, Table 14.1). -/
inductive TSrc where
  | t (r : TReg)
  | s (r : SReg)
  deriving DecidableEq, Repr

/-- A tile or a descriptor handle of the sequencer (R174, R305). -/
inductive MSrc where
  | t (r : TReg)
  | h (r : BitVec 4)
  deriving DecidableEq, Repr

/-- W2: the width of an integer operation (R201). -/
inductive Width where
  | w32 | w64
  deriving DecidableEq, Repr

/-- T2: the type of a floating operation (Table 9.1). -/
inductive FTy where
  | f32 | f64 | f16x2 | bf16x2
  deriving DecidableEq, Repr

/-- Conditions of SETP (R206). -/
inductive ICond where
  | eq | ne | lt | le | gt | ge
  deriving DecidableEq, Repr

/-- Conditions of FSETP (R225). -/
inductive FCond where
  | eq | ne | lt | le | gt | ge | ord | unord
  deriving DecidableEq, Repr

/-- Conditions of SSETP (R217). -/
inductive SCond where
  | eq | ne | lt | le | gt | ge | ltu | geu
  deriving DecidableEq, Repr

/-- Selectors of IDX (Table 10.2). -/
inductive IdxSel where
  | lane | slice | warp | team | nteams | nwarps | width
  deriving DecidableEq, Repr

/-- FN 4:3 of FRND (R227). -/
inductive FrndMode where
  | mode | rtz | rup | rdn
  deriving DecidableEq, Repr

/-- Conversion types (Table 9.3). -/
inductive CvtTy where
  | i8 | n8 | i16 | n16 | i32 | n32 | i64 | n64 | i4 | n4 | f64 | f32 | f16 | bf16 | f8e4 | f8e5 | f4e2 | f16x2 | bf16x2
  deriving DecidableEq, Repr

/-- Types of PACK (R230). -/
inductive PackTy where
  | f16x2 | bf16x2 | i8 | n8 | f8e4 | f8e5 | i4 | n4 | f4e2
  deriving DecidableEq, Repr

/-- SZ 000 to 110 of the loads (Table 9.2). -/
inductive LdSize where
  | w32 | n8 | i8 | n16 | i16 | w64 | w128
  deriving DecidableEq, Repr

/-- SZ of the stores, without the codes unassigned for them (Table 9.2). -/
inductive StSize where
  | w32 | n8 | n16 | w64 | w128
  deriving DecidableEq, Repr

/-- Scopes (Table 4.2, Table 9.2). -/
inductive Scope where
  | warp | core | clus | dev | sys
  deriving DecidableEq, Repr

/-- Operations of ATOM and RED (Table 12.2). -/
inductive AtomOp where
  | addI32 | addI64 | minI32 | maxI32 | minN32 | maxN32 | andN32 | orN32 | xorN32 | exchN32 | exchN64 | casN32 | casN64
  | addF32 | addF64 | addF16x2
  deriving DecidableEq, Repr

/-- Orderings of ATOM (Table 9.4). -/
inductive AtomOrd where
  | rlx | acq | rel | ar
  deriving DecidableEq, Repr

/-- Modes of SHFL (R266). -/
inductive ShMode where
  | idx | up | down | xor
  deriving DecidableEq, Repr

/-- Special registers by number (Table 16.2). -/
inductive SpecReg where
  | mode | fmt | shape | cir | rsb | rsp | bx (k : BitVec 2) | gang | semap | mgnCtl
  deriving DecidableEq, Repr

/-- Types of the tile element-wise words (R293, R294). -/
inductive TTy where
  | f32 | f16 | bf16 | f64
  deriving DecidableEq, Repr

/-- Destination types of TCVT (R294). -/
inductive TCvtTy where
  | f32 | f16 | bf16 | f8e4 | f8e5 | f64
  deriving DecidableEq, Repr

/-- Types of MMA (Table 9.5). -/
inductive MmaTy where
  | f64 | f16 | bf16 | f8e4 | f8e5 | i8 | i4 | n4 | f4e2
  deriving DecidableEq, Repr

/-- The M and N modifiers of MMA (Table 9.5). -/
inductive MmaDim where
  | full | d8 | d16 | d32
  deriving DecidableEq, Repr

/-- Result of a targeted self-test (R431, Table 26.10). -/
structure TestResult where
  pass : Bool
  engine : Option (BitVec 4)
  mpath : Bool
  deriving DecidableEq, Repr

/-- One step of the device: an instruction word of either stream, or one of its events.
The last argument of a long-latency word is its LA field (R186). `acc` is the A bit (R250, R276). -/
inductive Instr where
  -- 0x00
  | nop (g : Guard)
  | yield (g : Guard)
  | sleep (g : Guard) (n : BitVec 17)
  -- 0x01 to 0x0F
  | add (g : Guard) (w : Width) (d : VReg) (a b : Src)
  | sub (g : Guard) (w : Width) (d : VReg) (a b : Src)
  | neg (g : Guard) (w : Width) (d : VReg) (a : Src)
  | abs (g : Guard) (w : Width) (d : VReg) (a : Src)
  | mul (g : Guard) (w : Width) (d : VReg) (a b : Src)
  | mulhI (g : Guard) (w : Width) (d : VReg) (a b : Src)
  | mulhN (g : Guard) (w : Width) (d : VReg) (a b : Src)
  | mad (g : Guard) (w : Width) (d : VReg) (a b : Src)
  | minI (g : Guard) (w : Width) (d : VReg) (a b : Src)
  | maxI (g : Guard) (w : Width) (d : VReg) (a b : Src)
  | minN (g : Guard) (w : Width) (d : VReg) (a b : Src)
  | maxN (g : Guard) (w : Width) (d : VReg) (a b : Src)
  | and (g : Guard) (w : Width) (d : VReg) (a b : Src)
  | or (g : Guard) (w : Width) (d : VReg) (a b : Src)
  | xor (g : Guard) (w : Width) (d : VReg) (a b : Src)
  | andn (g : Guard) (w : Width) (d : VReg) (a b : Src)
  | not (g : Guard) (w : Width) (d : VReg) (a : Src)
  | shl (g : Guard) (w : Width) (d : VReg) (a b : Src)
  | shr (g : Guard) (w : Width) (d : VReg) (a b : Src)
  | sha (g : Guard) (w : Width) (d : VReg) (a b : Src)
  | rot (g : Guard) (w : Width) (d : VReg) (a b : Src)
  | clz (g : Guard) (w : Width) (d : VReg) (a : Src)
  | popc (g : Guard) (w : Width) (d : VReg) (a : Src)
  | brev (g : Guard) (w : Width) (d : VReg) (a : Src)
  | bfeN (g : Guard) (w : Width) (d : VReg) (a b : Src)
  | bfeI (g : Guard) (w : Width) (d : VReg) (a b : Src)
  | bfi (g : Guard) (w : Width) (d : VReg) (a b : Src)
  | setp (g : Guard) (c : ICond) (un : Bool) (w : Width) (p : PReg) (a b : Src)
  | sel (g : Guard) (w : Width) (d : VReg) (a b : Src) (p : PReg)
  | mov (g : Guard) (w : Width) (d : VReg) (a : Src)
  | addi (g : Guard) (d : VReg) (a : Src) (imm : BitVec 12)
  | andi (g : Guard) (d : VReg) (a : Src) (imm : BitVec 8)
  | ori (g : Guard) (d : VReg) (a : Src) (imm : BitVec 8)
  | xori (g : Guard) (d : VReg) (a : Src) (imm : BitVec 8)
  | shli (g : Guard) (w : Width) (d : VReg) (a : Src) (n : BitVec 6)
  | shri (g : Guard) (w : Width) (d : VReg) (a : Src) (n : BitVec 6)
  | shai (g : Guard) (w : Width) (d : VReg) (a : Src) (n : BitVec 6)
  | movi (g : Guard) (d : VReg) (imm : BitVec 19)
  | movhi (g : Guard) (d : VReg) (imm : BitVec 17)
  | lea (g : Guard) (w : Width) (d : VReg) (a b : Src) (sh : BitVec 3)
  | idx (g : Guard) (d : VReg) (e : IdxSel)
  -- 0x10 to 0x19
  | fadd (g : Guard) (t : FTy) (d : VReg) (a b : Src)
  | fsub (g : Guard) (t : FTy) (d : VReg) (a b : Src)
  | fmul (g : Guard) (t : FTy) (d : VReg) (a b : Src)
  | ffma (g : Guard) (t : FTy) (d : VReg) (a b : Src)
  | fma3 (t : FTy) (d : VReg) (a b : Src) (c : BitVec 6)
  | fmin (g : Guard) (t : FTy) (d : VReg) (a b : Src)
  | fmax (g : Guard) (t : FTy) (d : VReg) (a b : Src)
  | fabs (g : Guard) (t : FTy) (d : VReg) (a : Src)
  | fneg (g : Guard) (t : FTy) (d : VReg) (a : Src)
  | fsetp (g : Guard) (c : FCond) (w : Width) (p : PReg) (a b : Src)
  | fclass (g : Guard) (t : FTy) (d : VReg) (a : Src)
  | frnd (g : Guard) (rm : FrndMode) (t : FTy) (d : VReg) (a : Src)
  | cvt (g : Guard) (td ts : CvtTy) (d : VReg) (a : Src)
  | pack (g : Guard) (t : PackTy) (d : VReg) (a b : Src)
  | exp2 (g : Guard) (h : Bool) (d : VReg) (a : Src)
  | log2 (g : Guard) (h : Bool) (d : VReg) (a : Src)
  | rcp (g : Guard) (h : Bool) (d : VReg) (a : Src)
  | rsqrt (g : Guard) (h : Bool) (d : VReg) (a : Src)
  | tanh (g : Guard) (h : Bool) (d : VReg) (a : Src)
  | logis (g : Guard) (h : Bool) (d : VReg) (a : Src)
  | dot4 (g : Guard) (d : VReg) (a b : Src)
  | dot8 (g : Guard) (d : VReg) (a b : Src)
  -- 0x1A, 0x1B
  | rmax (g : Guard) (bf : Bool) (d a : VReg) (la : BitVec 4)
  | rsum (g : Guard) (bf : Bool) (d a : VReg) (la : BitVec 4)
  | rsumexp (g : Guard) (bf : Bool) (d a : VReg) (la : BitVec 4)
  | rmeanvar (g : Guard) (bf : Bool) (d a : VReg) (la : BitVec 4)
  | rnorm (g : Guard) (d a : VReg) (la : BitVec 4)
  | topk (g : Guard) (bf : Bool) (d a : SReg) (la : BitVec 4)
  -- 0x1C to 0x1E
  | sadd (g : Guard) (d a b : SReg)
  | ssub (g : Guard) (d a b : SReg)
  | smul (g : Guard) (d a b : SReg)
  | sand (g : Guard) (d a b : SReg)
  | sor (g : Guard) (d a b : SReg)
  | sxor (g : Guard) (d a b : SReg)
  | sshl (g : Guard) (d a b : SReg)
  | sshr (g : Guard) (arith : Bool) (d a b : SReg)
  | saddi (g : Guard) (d a : SReg) (imm : BitVec 8)
  | smovi (g : Guard) (d : SReg) (imm : BitVec 15)
  | slea (g : Guard) (d a : SReg) (sh : BitVec 3)
  | ssetp (g : Guard) (c : SCond) (p : PReg) (a : SReg) (imm : BitVec 5)
  | readlane (g : Guard) (d : SReg) (a : VReg) (b : SReg)
  | writelane (g : Guard) (d : VReg) (a b : SReg)
  | bcast (g : Guard) (d a : VReg) (b : SReg)
  -- 0x20 to 0x2A
  | ld (acc : Bool) (gp : PReg) (sz : LdSize) (d : VReg) (base : SReg) (off : BitVec 6) (la : BitVec 4)
  | ldStrong (gp : PReg) (acq : Bool) (w : Width) (sc : Scope) (d : VReg) (base : SReg) (la : BitVec 4)
  | ldBx (acc : Bool) (gp : PReg) (w : Width) (d : VReg) (base : SReg) (la : BitVec 4)
  | ldBfx (acc : Bool) (gp : PReg) (k : BitVec 2) (d : VReg) (base : SReg) (la : BitVec 4)
  | st (gp : PReg) (sz : StSize) (d : VReg) (base : SReg) (off : BitVec 6)
  | stStrong (gp : PReg) (rel : Bool) (w : Width) (sc : Scope) (d : VReg) (base : SReg)
  | lds (acc : Bool) (gp : PReg) (sz : LdSize) (d : VReg) (base : SReg) (off : BitVec 6) (la : BitVec 4)
  | sts (gp : PReg) (sz : StSize) (d : VReg) (base : SReg) (off : BitVec 6)
  | prefL1 (acc : Bool) (gp : PReg) (base : SReg) (off : BitVec 6)
  | prefL2 (acc : Bool) (gp : PReg) (base : SReg) (off : BitVec 6)
  | qpop (gp : PReg) (w : Width) (d : VReg) (k : BitVec 4) (la : BitVec 4)
  | fenceAcq (g : Guard) (sc : Scope)
  | fenceRel (g : Guard) (sc : Scope)
  | fenceAr (g : Guard) (sc : Scope)
  | spfence (g : Guard)
  | atom (gp : PReg) (op : AtomOp) (ord : AtomOrd) (sc : Scope) (d : VReg) (base : SReg) (la : BitVec 4)
  | red (gp : PReg) (op : AtomOp) (rel : Bool) (sc : Scope) (d : VReg) (base : SReg)
  | copy (g : Guard) (d : VReg) (a b : Src)
  | copy2d (g : Guard) (d : VReg) (a b : Src)
  | seal (g : Guard) (d : SReg)
  | waitb (g : Guard) (a : SReg)
  | testb (g : Guard) (d a : SReg)
  | bitld (acc : Bool) (g : Guard) (t : BitVec 2) (a b : Src)
  | bitldPitch (acc : Bool) (g : Guard) (t : BitVec 2) (b : Src)
  | bitsw (acc : Bool) (g : Guard) (t : BitVec 2)
  -- 0x2B
  | trap (g : Guard) (n : BitVec 15)
  | brk (g : Guard) (n : BitVec 15)
  | chkerr (clr : Bool) (d : SReg)
  -- 0x2C to 0x2E
  | shfl (g : Guard) (m : ShMode) (w : Width) (d a : VReg) (b : Src)
  | compress (g : Guard) (d a : VReg) (p : PReg)
  | expand (g : Guard) (d a : VReg) (p : PReg)
  | slideup (g : Guard) (d a : VReg) (b : SReg)
  | slidedn (g : Guard) (d a : VReg) (b : SReg)
  | voteAny (g : Guard) (p q : PReg)
  | voteAll (g : Guard) (p q : PReg)
  | voteBallot (g : Guard) (d : SReg) (q : PReg)
  | reduxAdd (g : Guard) (d : SReg) (a : VReg)
  | reduxMin (g : Guard) (un : Bool) (d : SReg) (a : VReg)
  | reduxMax (g : Guard) (un : Bool) (d : SReg) (a : VReg)
  | reduxAnd (g : Guard) (d : SReg) (a : VReg)
  | reduxOr (g : Guard) (d : SReg) (a : VReg)
  -- 0x2F
  | rdsr (d : SReg) (n : SpecReg)
  | wrsr (d : SReg) (a : SReg) (n : SpecReg)
  | csave (d a : SReg)
  | crestore (d a : SReg)
  | corectlStatus (d a : SReg)
  | corectlDrain (d a : SReg)
  | corectlAdmit (d a : SReg)
  | corectlStop (d a : SReg)
  | corectlResume (d a : SReg)
  | scan (d a : SReg)
  | scanrd (d a : SReg)
  | scanab (a : SReg)
  | cmapw (d a : SReg)
  | mgnrd (d a : SReg) (w : BitVec 6)
  -- 0x30 to 0x35
  | bra (acc : Bool) (p : PReg) (neg : Bool) (off : BitVec 20)
  | jmp (acc : Bool) (a : SReg)
  | call (acc : Bool) (d a : SReg)
  | ret (acc : Bool) (a : SReg)
  | brx (acc : Bool) (a : VReg)
  | exit (acc : Bool)
  | regang (m : BitVec 16)
  | cont (g : Guard) (np : BitVec 3) (a : SReg) (b : VReg)
  | contf (g : Guard)
  | barInit (b : BitVec 7) (a : SReg)
  | barArrive (b : BitVec 7)
  | barWait (b : BitVec 7)
  | barSync (b : BitVec 7)
  | locq (g : Guard) (d : SReg)
  | locqAddr (g : Guard) (d a : VReg)
  -- 0x36 to 0x39
  | give (t : TReg) (byReg : Bool) (n : BitVec 6)
  | giveSeq (t : TReg)
  | take (t : TReg)
  | seqgo (a : SReg)
  | setshape (g : Guard) (a : SReg)
  | tcfg (g : Guard) (t : TReg)
  | tfree (g : Guard) (t : TReg)
  | tzero (g : Guard) (t : TReg)
  | tadd (g : Guard) (t : TTy) (d : TReg) (a b : TSrc)
  | tmul (g : Guard) (t : TTy) (d : TReg) (a b : TSrc)
  | tfma (g : Guard) (t : TTy) (d : TReg) (a b : TSrc)
  | tmax (g : Guard) (t : TTy) (d : TReg) (a b : TSrc)
  | tmin (g : Guard) (t : TTy) (d : TReg) (a b : TSrc)
  | tcvt (g : Guard) (dst : TCvtTy) (src : TTy) (d : TReg) (a : TSrc)
  | tact (g : Guard) (logis : Bool) (d a : TReg)
  -- 0x3A, 0x3B
  | rvmul (g : Guard) (d : VReg) (a : Src) (b : SReg)
  | unmul (g : Guard) (d : VReg) (a : Src) (b : SReg)
  | rvshr (g : Guard) (d : VReg) (a : Src) (b : SReg)
  | unshr (g : Guard) (d : VReg) (a : Src) (b : SReg)
  | rvnarBf16 (g : Guard) (d : VReg) (a : Src)
  | unnarBf16 (g : Guard) (d : VReg) (a : Src)
  | rvnarI16 (g : Guard) (d : VReg) (a : Src)
  | unnarI16 (g : Guard) (d : VReg) (a : Src)
  | rvadd (g : Guard) (d : VReg) (a b : Src)
  | unadd (g : Guard) (d : VReg) (a b : Src)
  | rvmark (m : BitVec 16)
  | unmark (m : BitVec 16)
  | rsdepth (d : SReg)
  -- 0x3C to 0x3E, the sequencer stream
  | tld (td : TReg) (h : BitVec 4) (n : BitVec 2)
  | tldTr (td : TReg) (h : BitVec 4) (e32 : Bool) (n : BitVec 2)
  | tst (h : BitVec 4) (ta : TReg) (n : BitVec 2)
  | sgather (td : TReg) (h : BitVec 3)
  | mma (ty : MmaTy) (acc co : Bool) (m n : MmaDim) (td : TReg) (a b : MSrc)
  | segh (cyc : BitVec 24) (sig : BitVec 32)
  | sloop (n : BitVec 12)
  | sloopReg (k : BitVec 5)
  | saddr (x2048 : Bool) (d a : BitVec 5) (imm : BitVec 6)
  | swaitb (n : BitVec 6) (k : BitVec 5)
  | sbarArrive (b : BitVec 7)
  | sbarSync (b : BitVec 7)
  | seqGive (t : TReg) (n : BitVec 6)
  | seqTake (t : TReg)
  -- events of one core: `core` is the core's key, `slot` a warp slot, `slice` a slice of the gang concerned
  | topkStart (core : Nat)
  | qpopComplete (core slot slice : Nat)
  | piccoloLoadIssue (core slot : Nat)
  | piccoloBranchEval (core slot : Nat)
  | fenceWaitComplete (core slot slice : Nat)
  | copyBatchComplete (core slot copy : Nat) (err : Option (BitVec 2))
  | csaveComplete (core slot : Nat)
  | crestoreComplete (core slot : Nat)
  | scanabTakeEffect (core : Nat)
  | scanClearComplete (core : Nat)
  | contRecordAccept (core slot slice : Nat)
  | giveTransit (core slot slice : Nat)
  | takeComplete (core slot slice : Nat)
  | seqgoStart (core slot slice : Nat)
  | mmaCoRendezvous (cluster : Nat)
  | swaitbComplete (core : Nat)
  | seqIdle (core : Nat)
  | longLatencyLanding (core slot id : Nat)
  | sleepExpiry (core slot slice : Nat)
  | activeSetHoldExpiry (core slot : Nat)
  | blockedWarpRemoval (core slot : Nat)
  | siblingSkidEnd (core slot : Nat)
  | seqHaltDrainEnd (core : Nat)
  | trapRecordWrite (team : Nat)
  | quarantineCarryOut (core : Nat)
  | replayWindowStart (core : Nat)
  | pipePatternTestStart (core : Nat)
  | warpRollback (core slot : Nat)
  -- events of the dispatcher
  | launchRecordParse (w : Nat)
  | nodeStart (w : Nat)
  | hostTransferComplete (w k : Nat) (err : Option (BitVec 2))
  | teamPlace (grid core : Nat)
  | boundaryMoveComplete (core : Nat)
  | spadZeroComplete (core : Nat)
  | lightPreemptMark (w : Nat)
  | preemptDeadlineExpiry (w : Nat)
  | streamResume (w : Nat)
  -- events of the management registers
  | towerFenced (t : Nat)
  | towerUp (t : Nat)
  | bridgeWakeStart (t b : Nat)
  | bridgeAwake (t b : Nat)
  | towerDead (t : Nat)
  -- events between devices, host and memory
  | pageGrant (page : Nat)
  | storePerformed (id : Nat) (late : List Nat)
  | registerWrite (off : Nat) (v : DWord)
  -- the rest, in the same order: words without fields, inputs and events without fields; a compiled program can build a term
  -- with fields only from the first 244 constructors
  | hostCxlAccess (pa : Nat) (wr : Option (List Byte)) (n : Nat)
  | region
  | rspill
  | rsfill
  | sege
  | slend
  | shalt
  | scanPatternsEnd (core : Nat) (sig : DWord)
  | gatherOverflowReadback
  | seqReadDone (core : Nat)
  | seqWriteLanding (core : Nat)
  | shawmReplay (core slot : Nat) (slice : Option Nat) (second : Bool)
  | escalationSettled (core : Nat)
  | selfTestComplete (core : Nat) (r : TestResult)
  | bankRebuilt (core : Nat) (ua : Bool) (bank : Nat) (pass : Bool)
  | stopWalk (grid : Nat)
  | lwinWrite (w : Nat) (v : DWord)
  | tlbinvStart (v : DWord)
  | tlbinvComplete
  | tcmdResume (v : DWord)
  | tcmdKill (v : DWord)
  | errorRecordWrite
  | towerQuiesce (t : Nat)
  | towerRelease (t : Nat)
  | towerReset (t : Nat)
  | linkWakeFail (t b : Nat)
  | powerOnBoot
  | attestRequest (v : DWord)
  | attestReport
  | mgncWrite (core : Nat) (v : DWord)
  | qcmdSpare (core : Nat)
  | qcmdWithdraw (core : Nat)
  | qcmdRebind (core : Nat)
  | qladdAdd (sel : BitVec 10)
  | qladdRemove (sel : BitVec 10)
  | qladdStored
  | ckptSave (dest : DWord)
  | ckptConsistencyPoint
  | ckptCopyComplete (err : Option (BitVec 3))
  | ckptRestore (dest : DWord)
  | linkTrain (k : Nat)
  | linkDown (k : Nat)
  | pageHandoverRequest (port page : Nat)
  | cntfrzWrite (v : DWord)
  | hostSnoop (pa : Nat) (inv : Bool)
  | peerRequest (port page : Nat) (excl : Bool)
  | bridgeSleep (t b : Nat)
  | linkUp (k : Nat) (lanes : BitVec 3)
  | powerManagerClockChange (mhz : Nat)
  | checkpointRestoreDone (err : Option (BitVec 3))
  deriving DecidableEq, Repr

end Sys2Proof
end

