-- ==== Sys2Proof/WellFormed.lean ====
section
/-! DEFINITION. Which terms of `Instr` a word of the two streams can hold (chapters 08 to 16). A term that is not well
formed has no encoding; every event is well formed. -/

namespace Sys2Proof

/-- R176: GN = 1 with GP = 000 would never execute and is no guard. -/
def Guard.wf (g : Guard) : Bool := !(g.neg && g.p == 7)

/-- Is this a floating type of Table 11.4? -/
def CvtTy.isFloat : CvtTy → Bool
  | .f64 | .f32 | .f16 | .bf16 | .f8e4 | .f8e5 | .f4e2 => true
  | _ => false

/-- Is this one of the two packed types? -/
def CvtTy.isPacked : CvtTy → Bool
  | .f16x2 | .bf16x2 => true
  | _ => false

/-- Table 11.4: the pairs that convert (R195, R228). -/
def cvtPair (td ts : CvtTy) : Bool := td != ts && (td.isPacked == ts.isPacked)

/-- R294: a destination type equal to the source type is unassigned. -/
def tcvtPair : TCvtTy → TTy → Bool
  | .f32, .f32 => false
  | .f16, .f16 => false
  | .bf16, .bf16 => false
  | .f64, .f64 => false
  | _, _ => true

/-- R197: the operations RED has. -/
def AtomOp.redOk : AtomOp → Bool
  | .exchN32 | .exchN64 | .casN32 | .casN64 => false
  | _ => true

/-- R206: an unsigned compare exists for lt, le, gt and ge only. -/
def ICond.ordered : ICond → Bool
  | .eq | .ne => false
  | _ => true

/-- R250: what an A-marked load may carry. -/
def accLoadOk (acc : Bool) (gp : PReg) (d : VReg) (la : BitVec 4) : Bool :=
  !acc || (gp == 7 && la == 0 && decide (d.toNat < 16))

/-- Well-formed instructions. -/
def Instr.wf : Instr → Bool
  | .nop g | .yield g | .sleep g _ => g.wf
  | .add g .. | .sub g .. | .neg g .. | .abs g .. | .mul g .. | .mulhI g .. | .mulhN g .. | .mad g .. => g.wf
  | .minI g .. | .maxI g .. | .minN g .. | .maxN g .. => g.wf
  | .and g .. | .or g .. | .xor g .. | .andn g .. | .not g .. | .shl g .. | .shr g .. | .sha g .. | .rot g .. => g.wf
  | .clz g .. | .popc g .. | .brev g .. | .bfeN g .. | .bfeI g .. | .bfi g .. => g.wf
  | .setp g c un _ _ _ _ => g.wf && (!un || c.ordered)
  | .sel g _ _ _ _ p => g.wf && p != 7
  | .mov g .. | .addi g .. | .andi g .. | .ori g .. | .xori g .. | .shli g .. | .shri g .. | .shai g .. => g.wf
  | .movi g .. | .movhi g .. | .lea g .. | .idx g .. => g.wf
  | .fadd g .. | .fsub g .. | .fmul g .. | .ffma g .. | .fmin g .. | .fmax g .. | .fabs g .. | .fneg g .. => g.wf
  | .fma3 .. => true
  | .fsetp g .. | .fclass g .. | .frnd g .. => g.wf
  | .cvt g td ts _ _ => g.wf && cvtPair td ts
  | .pack g .. | .exp2 g .. | .log2 g .. | .rcp g .. | .rsqrt g .. | .tanh g .. | .logis g .. => g.wf
  | .dot4 g .. | .dot8 g .. | .rmax g .. | .rsum g .. | .rsumexp g .. | .rmeanvar g .. | .rnorm g .. | .topk g .. => g.wf
  | .sadd g .. | .ssub g .. | .smul g .. | .sand g .. | .sor g .. | .sxor g .. | .sshl g .. | .sshr g .. => g.wf
  | .saddi g .. | .smovi g .. | .slea g .. | .ssetp g .. | .readlane g .. | .writelane g .. | .bcast g .. => g.wf
  | .ld acc gp _ d _ _ la | .ldBx acc gp _ d _ la | .ldBfx acc gp _ d _ la | .lds acc gp _ d _ _ la =>
    accLoadOk acc gp d la
  | .ldStrong .. | .st .. | .stStrong .. | .sts .. | .prefL1 .. | .prefL2 .. | .qpop .. | .atom .. => true
  | .red _ op .. => op.redOk
  | .fenceAcq g _ | .fenceRel g _ | .fenceAr g _ | .spfence g => g.wf
  | .copy g .. | .copy2d g .. | .seal g _ | .waitb g _ | .testb g .. | .bitld _ g .. | .bitldPitch _ g .. | .bitsw _ g _ => g.wf
  | .trap g _ | .brk g _ => g.wf
  | .chkerr .. | .region => true
  | .shfl g .. | .compress g .. | .expand g .. | .slideup g .. | .slidedn g .. => g.wf
  | .voteAny g .. | .voteAll g .. | .voteBallot g .. | .reduxAdd g .. | .reduxMin g .. | .reduxMax g .. | .reduxAnd g ..
  | .reduxOr g .. => g.wf
  | .rdsr .. | .wrsr _ _ (.semap) | .wrsr _ _ (.mgnCtl) => true
  | .wrsr d _ _ => d == 0
  | .csave .. | .crestore .. | .corectlStatus .. | .corectlDrain .. | .corectlAdmit .. | .corectlStop .. | .corectlResume ..
  | .scan .. | .scanrd .. | .scanab .. | .cmapw .. | .mgnrd .. => true
  | .bra _ p ng _ => !(ng && p == 7)
  | .jmp .. | .call .. | .ret .. | .brx .. | .exit _ | .regang _ => true
  | .cont g np _ b => g.wf && (np != 0 || b == 0)
  | .contf g => g.wf
  | .barInit .. | .barArrive _ | .barWait _ | .barSync _ => true
  | .locq g _ | .locqAddr g .. => g.wf
  | .give .. | .giveSeq _ | .take _ | .seqgo _ => true
  | .setshape g _ | .tcfg g _ | .tfree g _ | .tzero g _ => g.wf
  | .tadd g .. | .tmul g .. | .tfma g .. | .tmax g .. | .tmin g .. => g.wf
  | .tcvt g dst src _ _ => g.wf && tcvtPair dst src
  | .tact g .. => g.wf
  | .rvmul g .. | .unmul g .. | .rvshr g .. | .unshr g .. | .rvnarBf16 g .. | .unnarBf16 g .. | .rvnarI16 g ..
  | .unnarI16 g .. | .rvadd g .. | .unadd g .. => g.wf
  | .rvmark _ | .unmark _ | .rspill | .rsfill | .rsdepth _ => true
  | .tld .. | .tldTr .. | .tst .. | .sgather .. | .mma .. | .segh .. | .sege | .sloop _ | .sloopReg _ | .slend | .saddr ..
  | .swaitb .. | .sbarArrive _ | .sbarSync _ | .shalt | .seqGive .. | .seqTake _ => true
  | .topkStart .. | .qpopComplete .. | .piccoloLoadIssue .. | .piccoloBranchEval .. | .fenceWaitComplete ..
  | .copyBatchComplete .. | .csaveComplete .. | .crestoreComplete .. | .scanabTakeEffect .. | .scanPatternsEnd ..
  | .scanClearComplete .. | .contRecordAccept .. | .gatherOverflowReadback | .giveTransit .. | .takeComplete ..
  | .seqgoStart .. | .mmaCoRendezvous .. | .seqReadDone .. | .seqWriteLanding .. | .swaitbComplete .. | .seqIdle ..
  | .longLatencyLanding .. | .sleepExpiry .. | .activeSetHoldExpiry .. | .blockedWarpRemoval .. | .siblingSkidEnd ..
  | .seqHaltDrainEnd .. | .trapRecordWrite .. | .shawmReplay .. | .escalationSettled .. | .quarantineCarryOut ..
  | .replayWindowStart .. | .pipePatternTestStart .. | .selfTestComplete .. | .warpRollback .. | .bankRebuilt .. => true
  | .launchRecordParse .. | .nodeStart .. | .hostTransferComplete .. | .teamPlace .. | .boundaryMoveComplete ..
  | .spadZeroComplete .. | .lightPreemptMark .. | .preemptDeadlineExpiry .. | .streamResume .. | .stopWalk .. => true
  | .lwinWrite .. | .tlbinvStart .. | .tlbinvComplete | .tcmdResume .. | .tcmdKill .. | .errorRecordWrite
  | .towerQuiesce .. | .towerFenced .. | .towerRelease .. | .towerReset .. | .towerUp .. | .bridgeWakeStart ..
  | .bridgeAwake .. | .linkWakeFail .. | .towerDead .. | .powerOnBoot | .attestRequest .. | .attestReport | .mgncWrite ..
  | .qcmdSpare .. | .qcmdWithdraw .. | .qcmdRebind .. | .qladdAdd .. | .qladdRemove .. | .qladdStored | .ckptSave ..
  | .ckptConsistencyPoint | .ckptCopyComplete .. | .ckptRestore .. | .linkTrain .. | .linkDown .. => true
  | .pageHandoverRequest .. | .pageGrant .. | .hostCxlAccess .. | .cntfrzWrite .. | .registerWrite .. | .storePerformed ..
  | .hostSnoop .. | .peerRequest .. | .bridgeSleep .. | .linkUp .. | .powerManagerClockChange .. | .checkpointRestoreDone .. =>
    true

end Sys2Proof
end

