-- ==== Sys2Proof/Decode.lean ====
section
/-! DEFINITION. Decoding (chapters 08 and 09): the fields of a word, the lent byte, every major of Table 9.1, the
structure of a bundle, and after it the encoder, written from the same tables. Every refusal has the name of R199. -/

namespace Sys2Proof

/-- Why a word is not an instruction (R199, in the order of R192). -/
inductive DecErr where
  | stream | instr | encoding
  deriving DecidableEq, Repr

/-- What a word decodes to. -/
inductive Decoded where
  | ok (i : Instr)
  | bad (e : DecErr)
  deriving DecidableEq, Repr

/-- The instruction a word decodes to, if any. -/
def Decoded.toOption : Decoded → Option Instr
  | .ok i => some i
  | .bad _ => none

/-! ### Words and fields (R171 to R174) -/

/-- The S bit (R171). -/
def wordS (w : Word) : Bool := w.getLsbD 31
/-- The A bit (R171). -/
def wordA (w : Word) : Bool := w.getLsbD 30
/-- The major opcode (R171). -/
def wordOp (w : Word) : BitVec 6 := w.extractLsb' 24 6
/-- The body (R171). -/
def wordBody (w : Word) : BitVec 24 := w.extractLsb' 0 24
/-- A word from its fields (R171). -/
def packWord (s a : Bool) (op : BitVec 6) (body : BitVec 24) : Word := BitVec.ofBool s ++ BitVec.ofBool a ++ op ++ body

/-- The fields of format RR (Table 8.2). -/
structure FieldsRR where
  d : BitVec 7
  a : BitVec 7
  b : BitVec 7
  fn : BitVec 3
/-- Format RR of a body. -/
def bodyRR (x : BitVec 24) : FieldsRR := ⟨x.extractLsb' 17 7, x.extractLsb' 10 7, x.extractLsb' 3 7, x.extractLsb' 0 3⟩
/-- A body of format RR. -/
def packRR (f : FieldsRR) : BitVec 24 := f.d ++ f.a ++ f.b ++ f.fn

/-- The fields of formats RL and M (Table 8.2): D or DATA, A or BASE, FN6 or OFF6, LA. -/
structure FieldsRL where
  d : BitVec 7
  a : BitVec 7
  fn6 : BitVec 6
  la : BitVec 4
/-- Format RL or M of a body. -/
def bodyRL (x : BitVec 24) : FieldsRL := ⟨x.extractLsb' 17 7, x.extractLsb' 10 7, x.extractLsb' 4 6, x.extractLsb' 0 4⟩
/-- A body of format RL or M. -/
def packRL (f : FieldsRL) : BitVec 24 := f.d ++ f.a ++ f.fn6 ++ f.la

/-- The fields of format RI (Table 8.2). -/
structure FieldsRI where
  d : BitVec 7
  a : BitVec 7
  imm : BitVec 10
/-- Format RI of a body. -/
def bodyRI (x : BitVec 24) : FieldsRI := ⟨x.extractLsb' 17 7, x.extractLsb' 10 7, x.extractLsb' 0 10⟩
/-- A body of format RI. -/
def packRI (f : FieldsRI) : BitVec 24 := f.d ++ f.a ++ f.imm

/-- The fields of format RU (Table 8.2). -/
structure FieldsRU where
  d : BitVec 7
  imm : BitVec 17
/-- Format RU of a body. -/
def bodyRU (x : BitVec 24) : FieldsRU := ⟨x.extractLsb' 17 7, x.extractLsb' 0 17⟩
/-- A body of format RU. -/
def packRU (f : FieldsRU) : BitVec 24 := f.d ++ f.imm

/-- The fields of format B (Table 8.2). -/
structure FieldsB where
  pred : BitVec 3
  neg : BitVec 1
  off : BitVec 20
/-- Format B of a body. -/
def bodyB (x : BitVec 24) : FieldsB := ⟨x.extractLsb' 21 3, x.extractLsb' 20 1, x.extractLsb' 0 20⟩
/-- A body of format B. -/
def packB (f : FieldsB) : BitVec 24 := f.pred ++ f.neg ++ f.off

/-- The fields of formats T and Q (Table 8.2); in format Q the last six bits are FN4 and V. -/
structure FieldsT where
  td : BitVec 6
  ta : BitVec 6
  tb : BitVec 6
  fn6 : BitVec 6
/-- Format T or Q of a body. -/
def bodyT (x : BitVec 24) : FieldsT := ⟨x.extractLsb' 18 6, x.extractLsb' 12 6, x.extractLsb' 6 6, x.extractLsb' 0 6⟩
/-- A body of format T or Q. -/
def packT (f : FieldsT) : BitVec 24 := f.td ++ f.ta ++ f.tb ++ f.fn6
/-- FN4 of format Q. -/
def FieldsT.fn4 (f : FieldsT) : BitVec 4 := f.fn6.extractLsb' 2 4
/-- V of format Q. -/
def FieldsT.v (f : FieldsT) : BitVec 2 := f.fn6.extractLsb' 0 2

/-- The G layout of a lent byte (Table 8.3). -/
structure Lent where
  sa : Bool
  sb : Bool
  xh : BitVec 2
  gn : Bool
  gp : BitVec 3
/-- The G layout of a byte. -/
def lentG (h : Byte) : Lent := ⟨h.getLsbD 7, h.getLsbD 6, h.extractLsb' 4 2, h.getLsbD 3, h.extractLsb' 0 3⟩
/-- A byte of the G layout. -/
def packLent (l : Lent) : Byte := BitVec.ofBool l.sa ++ BitVec.ofBool l.sb ++ l.xh ++ BitVec.ofBool l.gn ++ l.gp
/-- EXT of the X layout (Table 8.3). -/
def lentExt (h : Byte) : BitVec 6 := h.extractLsb' 0 6
/-- The guard of a G layout byte (R176). -/
def Lent.guard (l : Lent) : Guard := ⟨l.gn, l.gp ^^^ 7⟩
/-- R176: GN = 1 with GP = 000 is illegal-encoding. -/
def Lent.guardOk (l : Lent) : Bool := !(l.gn && l.gp == 0)

/-! ### The checks of one word -/

/-- Step 3.2 of R192: the code is assigned. -/
def assigned (c : Bool) (k : Decoded) : Decoded := if c then k else .bad .instr
/-- Step 3.3 of R192: the fields keep R173, R176, R177, R179, R186 and the must-be-zero rules. -/
def encodes (c : Bool) (i : Instr) : Decoded := if c then .ok i else .bad .encoding
/-- R173: a scalar field's bit 6 must be 0. -/
def isScalar (f : BitVec 7) : Bool := !f.getLsbD 6
/-- The scalar register of a scalar field (R173). -/
def toScalar (f : BitVec 7) : SReg := f.extractLsb' 0 6
/-- The predicate register of a field (R206). -/
def toPred (f : BitVec 7) : PReg := f.extractLsb' 0 3
/-- R206: the bits of a predicate field above its number are zero. -/
def isPred (f : BitVec 7) : Bool := f.extractLsb' 3 4 == 0
/-- A vector source under SA or SB (R177). -/
def toSrc (s : Bool) (f : BitVec 7) : Src := if s then .s (toScalar f) else .v f
/-- R173, R177: the field of a vector source. -/
def srcOk (s : Bool) (f : BitVec 7) : Bool := !s || isScalar f
/-- A tile source under SA or SB (R177). -/
def toTSrc (s : Bool) (f : BitVec 6) : TSrc := if s then .s f else .t f

/-- W2 (R193, R201). -/
def toWidth : BitVec 2 → Option Width
  | 0 => some .w32
  | 1 => some .w64
  | _ => none
/-- W2 of a width. -/
def Width.code : Width → BitVec 2
  | .w32 => 0
  | .w64 => 1
/-- One bit that selects 64-bit. -/
def Width.ofBit (b : Bool) : Width := if b then .w64 else .w32
/-- The bit that selects 64-bit. -/
def Width.bit : Width → Bool
  | .w32 => false
  | .w64 => true

/-- T2 (Table 9.1). -/
def toFTy : BitVec 2 → FTy
  | 0 => .f32
  | 1 => .f64
  | 2 => .f16x2
  | _ => .bf16x2
/-- T2 of a type. -/
def FTy.code : FTy → BitVec 2
  | .f32 => 0
  | .f64 => 1
  | .f16x2 => 2
  | .bf16x2 => 3

/-- Condition codes of SETP (R206). -/
def toICond : BitVec 3 → Option ICond
  | 0 => some .eq
  | 1 => some .ne
  | 2 => some .lt
  | 3 => some .le
  | 4 => some .gt
  | 5 => some .ge
  | _ => none
/-- The code of a SETP condition. -/
def ICond.code : ICond → BitVec 3
  | .eq => 0
  | .ne => 1
  | .lt => 2
  | .le => 3
  | .gt => 4
  | .ge => 5

/-- Condition codes of FSETP (R225). -/
def toFCond : BitVec 3 → FCond
  | 0 => .eq
  | 1 => .ne
  | 2 => .lt
  | 3 => .le
  | 4 => .gt
  | 5 => .ge
  | 6 => .ord
  | _ => .unord
/-- The code of an FSETP condition. -/
def FCond.code : FCond → BitVec 3
  | .eq => 0
  | .ne => 1
  | .lt => 2
  | .le => 3
  | .gt => 4
  | .ge => 5
  | .ord => 6
  | .unord => 7

/-- Condition codes of SSETP (R217). -/
def toSCond : BitVec 3 → SCond
  | 0 => .eq
  | 1 => .ne
  | 2 => .lt
  | 3 => .le
  | 4 => .gt
  | 5 => .ge
  | 6 => .ltu
  | _ => .geu
/-- The code of an SSETP condition. -/
def SCond.code : SCond → BitVec 3
  | .eq => 0
  | .ne => 1
  | .lt => 2
  | .le => 3
  | .gt => 4
  | .ge => 5
  | .ltu => 6
  | .geu => 7

/-- Selectors of IDX (Table 10.2). -/
def toIdxSel : BitVec 4 → Option IdxSel
  | 0 => some .lane
  | 1 => some .slice
  | 2 => some .warp
  | 3 => some .team
  | 4 => some .nteams
  | 5 => some .nwarps
  | 6 => some .width
  | _ => none
/-- The code of an IDX selector. -/
def IdxSel.code : IdxSel → BitVec 4
  | .lane => 0
  | .slice => 1
  | .warp => 2
  | .team => 3
  | .nteams => 4
  | .nwarps => 5
  | .width => 6

/-- Rounding of FRND (R227). -/
def toFrnd : BitVec 2 → FrndMode
  | 0 => .mode
  | 1 => .rtz
  | 2 => .rup
  | _ => .rdn
/-- The code of an FRND rounding. -/
def FrndMode.code : FrndMode → BitVec 2
  | .mode => 0
  | .rtz => 1
  | .rup => 2
  | .rdn => 3

/-- Conversion type codes (Table 9.3). -/
def toCvtTy (c : BitVec 5) : Option CvtTy :=
  match c.toNat with
  | 0 => some .i8
  | 1 => some .n8
  | 2 => some .i16
  | 3 => some .n16
  | 4 => some .i32
  | 5 => some .n32
  | 6 => some .i64
  | 7 => some .n64
  | 8 => some .i4
  | 9 => some .n4
  | 10 => some .f64
  | 11 => some .f32
  | 12 => some .f16
  | 13 => some .bf16
  | 14 => some .f8e4
  | 15 => some .f8e5
  | 16 => some .f4e2
  | 17 => some .f16x2
  | 18 => some .bf16x2
  | _ => none
/-- The code of a conversion type. -/
def CvtTy.code : CvtTy → BitVec 5
  | .i8 => 0
  | .n8 => 1
  | .i16 => 2
  | .n16 => 3
  | .i32 => 4
  | .n32 => 5
  | .i64 => 6
  | .n64 => 7
  | .i4 => 8
  | .n4 => 9
  | .f64 => 10
  | .f32 => 11
  | .f16 => 12
  | .bf16 => 13
  | .f8e4 => 14
  | .f8e5 => 15
  | .f4e2 => 16
  | .f16x2 => 17
  | .bf16x2 => 18

/-- Types of PACK (R230). -/
def toPackTy (c : BitVec 5) : Option PackTy :=
  match c.toNat with
  | 0 => some .f16x2
  | 1 => some .bf16x2
  | 2 => some .i8
  | 3 => some .n8
  | 4 => some .f8e4
  | 5 => some .f8e5
  | 6 => some .i4
  | 7 => some .n4
  | 8 => some .f4e2
  | _ => none
/-- The code of a PACK type. -/
def PackTy.code : PackTy → BitVec 5
  | .f16x2 => 0
  | .bf16x2 => 1
  | .i8 => 2
  | .n8 => 3
  | .f8e4 => 4
  | .f8e5 => 5
  | .i4 => 6
  | .n4 => 7
  | .f4e2 => 8

/-- Size codes of the loads but 111 (Table 9.2). -/
def toLdSize : BitVec 3 → Option LdSize
  | 0 => some .w32
  | 1 => some .n8
  | 2 => some .i8
  | 3 => some .n16
  | 4 => some .i16
  | 5 => some .w64
  | 6 => some .w128
  | _ => none
/-- The code of a load size. -/
def LdSize.code : LdSize → BitVec 3
  | .w32 => 0
  | .n8 => 1
  | .i8 => 2
  | .n16 => 3
  | .i16 => 4
  | .w64 => 5
  | .w128 => 6
/-- Size codes of the stores but 111 (Table 9.2). -/
def toStSize : BitVec 3 → Option StSize
  | 0 => some .w32
  | 1 => some .n8
  | 3 => some .n16
  | 5 => some .w64
  | 6 => some .w128
  | _ => none
/-- The code of a store size. -/
def StSize.code : StSize → BitVec 3
  | .w32 => 0
  | .n8 => 1
  | .n16 => 3
  | .w64 => 5
  | .w128 => 6
/-- Scope codes (Table 9.2). -/
def toScope : BitVec 3 → Option Scope
  | 0 => some .warp
  | 1 => some .core
  | 2 => some .clus
  | 3 => some .dev
  | 4 => some .sys
  | _ => none
/-- The code of a scope. -/
def Scope.code : Scope → BitVec 3
  | .warp => 0
  | .core => 1
  | .clus => 2
  | .dev => 3
  | .sys => 4

/-- Operation codes of ATOM and RED (Table 9.4). -/
def toAtomOp : BitVec 4 → AtomOp
  | 0 => .addI32
  | 1 => .addI64
  | 2 => .minI32
  | 3 => .maxI32
  | 4 => .minN32
  | 5 => .maxN32
  | 6 => .andN32
  | 7 => .orN32
  | 8 => .xorN32
  | 9 => .exchN32
  | 10 => .exchN64
  | 11 => .casN32
  | 12 => .casN64
  | 13 => .addF32
  | 14 => .addF64
  | _ => .addF16x2
/-- The code of an atomic operation. -/
def AtomOp.code : AtomOp → BitVec 4
  | .addI32 => 0
  | .addI64 => 1
  | .minI32 => 2
  | .maxI32 => 3
  | .minN32 => 4
  | .maxN32 => 5
  | .andN32 => 6
  | .orN32 => 7
  | .xorN32 => 8
  | .exchN32 => 9
  | .exchN64 => 10
  | .casN32 => 11
  | .casN64 => 12
  | .addF32 => 13
  | .addF64 => 14
  | .addF16x2 => 15
/-- Ordering codes of ATOM (Table 9.4). -/
def toAtomOrd : BitVec 2 → AtomOrd
  | 0 => .rlx
  | 1 => .acq
  | 2 => .rel
  | _ => .ar
/-- The code of an ATOM ordering. -/
def AtomOrd.code : AtomOrd → BitVec 2
  | .rlx => 0
  | .acq => 1
  | .rel => 2
  | .ar => 3

/-- Modes of SHFL (R266). -/
def toShMode : BitVec 3 → Option ShMode
  | 0 => some .idx
  | 1 => some .up
  | 2 => some .down
  | 3 => some .xor
  | _ => none
/-- The code of a SHFL mode. -/
def ShMode.code : ShMode → BitVec 3
  | .idx => 0
  | .up => 1
  | .down => 2
  | .xor => 3

/-- Special-register numbers (Table 16.2). -/
def toSpecReg (c : BitVec 6) : Option SpecReg :=
  match c.toNat with
  | 0 => some .mode
  | 1 => some .fmt
  | 2 => some .shape
  | 3 => some .cir
  | 4 => some .rsb
  | 5 => some .rsp
  | 6 => some (.bx 0)
  | 7 => some (.bx 1)
  | 8 => some (.bx 2)
  | 9 => some (.bx 3)
  | 10 => some .gang
  | 16 => some .semap
  | 17 => some .mgnCtl
  | _ => none
/-- The number of a special register. -/
def SpecReg.code : SpecReg → BitVec 6
  | .mode => 0
  | .fmt => 1
  | .shape => 2
  | .cir => 3
  | .rsb => 4
  | .rsp => 5
  | .bx k => 6 + k.setWidth 6
  | .gang => 10
  | .semap => 16
  | .mgnCtl => 17
/-- Is this register per core (Table 16.2)? -/
def SpecReg.perCore : SpecReg → Bool
  | .semap | .mgnCtl => true
  | _ => false

/-- Types of the tile element-wise words (R293). -/
def toTTy : BitVec 2 → TTy
  | 0 => .f32
  | 1 => .f16
  | 2 => .bf16
  | _ => .f64
/-- The code of a tile type. -/
def TTy.code : TTy → BitVec 2
  | .f32 => 0
  | .f16 => 1
  | .bf16 => 2
  | .f64 => 3
/-- Destination sub-codes of TCVT (R294). -/
def toTCvtTy : BitVec 3 → Option TCvtTy
  | 0 => some .f32
  | 1 => some .f16
  | 2 => some .bf16
  | 3 => some .f8e4
  | 4 => some .f8e5
  | 5 => some .f64
  | _ => none
/-- The sub-code of a TCVT destination. -/
def TCvtTy.code : TCvtTy → BitVec 3
  | .f32 => 0
  | .f16 => 1
  | .bf16 => 2
  | .f8e4 => 3
  | .f8e5 => 4
  | .f64 => 5
/-- Types of MMA (Table 9.5). -/
def toMmaTy : BitVec 4 → Option MmaTy
  | 0 => some .f64
  | 1 => some .f16
  | 2 => some .bf16
  | 3 => some .f8e4
  | 4 => some .f8e5
  | 5 => some .i8
  | 6 => some .i4
  | 7 => some .n4
  | 8 => some .f4e2
  | _ => none
/-- The code of an MMA type. -/
def MmaTy.code : MmaTy → BitVec 4
  | .f64 => 0
  | .f16 => 1
  | .bf16 => 2
  | .f8e4 => 3
  | .f8e5 => 4
  | .i8 => 5
  | .i4 => 6
  | .n4 => 7
  | .f4e2 => 8
/-- M and N codes of MMA (Table 9.5). -/
def toMmaDim : BitVec 2 → MmaDim
  | 0 => .full
  | 1 => .d8
  | 2 => .d16
  | _ => .d32
/-- The code of an MMA dimension. -/
def MmaDim.code : MmaDim → BitVec 2
  | .full => 0
  | .d8 => 1
  | .d16 => 2
  | .d32 => 3
/-- An MMA source under its V bit (R174, R305). -/
def toMSrc (v : Bool) (f : BitVec 6) : MSrc := if v then .h (f.extractLsb' 0 4) else .t f
/-- R305: bits 5:4 of a handle are zero. -/
def mSrcOk (v : Bool) (f : BitVec 6) : Bool := !v || f.extractLsb' 4 2 == 0

/-- The 12-bit immediate of ADDI under XH (R178, R211). -/
def imm12 (xh : BitVec 2) (imm : BitVec 10) : BitVec 12 := (xh ^^^ (if imm.getLsbD 9 then 3 else 0)) ++ imm
/-- The 19-bit immediate of MOVI under XH (R178, R213). -/
def imm19 (xh : BitVec 2) (imm : BitVec 17) : BitVec 19 := (xh ^^^ (if imm.getLsbD 16 then 3 else 0)) ++ imm

/-! ### The majors of Table 9.1, as words of the warp stream -/

/-- Major 0x00 (R284). -/
def dec00 (h : Lent) (f : FieldsRU) : Decoded :=
  let ok := h.guardOk && !h.sa && !h.sb && h.xh == 0
  if f.d == 0 then encodes (ok && f.imm == 0) (.nop h.guard)
  else if f.d == 1 then encodes (ok && f.imm == 0) (.yield h.guard)
  else if f.d == 2 then encodes ok (.sleep h.guard f.imm)
  else .bad .instr

/-- A two-source IA word with W2 (R201, R202). -/
def decIA2 (h : Lent) (f : FieldsRR) (k : Guard → Width → VReg → Src → Src → Instr) : Decoded :=
  match toWidth h.xh with
  | some w => encodes (h.guardOk && srcOk h.sa f.a && srcOk h.sb f.b) (k h.guard w f.d (toSrc h.sa f.a) (toSrc h.sb f.b))
  | none => .bad .instr
/-- A one-source IA word with W2, whose B is zero (R201, R202). -/
def decIA1 (h : Lent) (f : FieldsRR) (k : Guard → Width → VReg → Src → Instr) : Decoded :=
  match toWidth h.xh with
  | some w => encodes (h.guardOk && srcOk h.sa f.a && !h.sb && f.b == 0) (k h.guard w f.d (toSrc h.sa f.a))
  | none => .bad .instr

/-- Major 0x01 (R205). -/
def dec01 (h : Lent) (f : FieldsRR) : Decoded :=
  match f.fn with
  | 0 => decIA2 h f .add
  | 1 => decIA2 h f .sub
  | 2 => decIA1 h f .neg
  | 3 => decIA1 h f .abs
  | _ => .bad .instr
/-- Major 0x02 (R205). -/
def dec02 (h : Lent) (f : FieldsRR) : Decoded :=
  match f.fn with
  | 0 => decIA2 h f .mul
  | 1 => decIA2 h f .mulhI
  | 2 => decIA2 h f .mulhN
  | 3 => decIA2 h f .mad
  | _ => .bad .instr
/-- Major 0x03 (R205). -/
def dec03 (h : Lent) (f : FieldsRR) : Decoded :=
  match f.fn with
  | 0 => decIA2 h f .minI
  | 1 => decIA2 h f .maxI
  | 2 => decIA2 h f .minN
  | 3 => decIA2 h f .maxN
  | _ => .bad .instr
/-- Major 0x04 (R208). -/
def dec04 (h : Lent) (f : FieldsRR) : Decoded :=
  match f.fn with
  | 0 => decIA2 h f .and
  | 1 => decIA2 h f .or
  | 2 => decIA2 h f .xor
  | 3 => decIA2 h f .andn
  | 4 => decIA1 h f .not
  | _ => .bad .instr
/-- Major 0x05 (R209). -/
def dec05 (h : Lent) (f : FieldsRR) : Decoded :=
  match f.fn with
  | 0 => decIA2 h f .shl
  | 1 => decIA2 h f .shr
  | 2 => decIA2 h f .sha
  | 3 => decIA2 h f .rot
  | _ => .bad .instr
/-- Major 0x06 (R210). -/
def dec06 (h : Lent) (f : FieldsRR) : Decoded :=
  match f.fn with
  | 0 => decIA1 h f .clz
  | 1 => decIA1 h f .popc
  | 2 => decIA1 h f .brev
  | 3 => decIA2 h f .bfeN
  | 4 => decIA2 h f .bfeI
  | 5 => decIA2 h f .bfi
  | _ => .bad .instr
/-- Major 0x07 (R206): XH bit 0 is FN 3, XH bit 1 is FN 4. -/
def dec07 (h : Lent) (f : FieldsRR) : Decoded :=
  let un := h.xh.getLsbD 0
  match toICond f.fn with
  | some c =>
    assigned (!un || c.ordered)
      (encodes (h.guardOk && srcOk h.sa f.a && srcOk h.sb f.b && isPred f.d)
        (.setp h.guard c un (Width.ofBit (h.xh.getLsbD 1)) (toPred f.d) (toSrc h.sa f.a) (toSrc h.sb f.b)))
  | none => .bad .instr
/-- Major 0x08 (R207). -/
def dec08 (h : Lent) (f : FieldsRR) : Decoded :=
  if f.fn == 7 then decIA1 h f .mov else decIA2 h f (fun g w d a b => .sel g w d a b f.fn)
/-- Major 0x09 (R211). -/
def dec09 (h : Lent) (f : FieldsRI) : Decoded :=
  encodes (h.guardOk && srcOk h.sa f.a && !h.sb) (.addi h.guard f.d (toSrc h.sa f.a) (imm12 h.xh f.imm))
/-- Major 0x0A (R212). -/
def dec0A (h : Lent) (f : FieldsRI) : Decoded :=
  let ok := h.guardOk && srcOk h.sa f.a && !h.sb && h.xh == 0
  let imm := f.imm.extractLsb' 0 8
  match f.imm.extractLsb' 8 2 with
  | 0 => encodes ok (.andi h.guard f.d (toSrc h.sa f.a) imm)
  | 1 => encodes ok (.ori h.guard f.d (toSrc h.sa f.a) imm)
  | 2 => encodes ok (.xori h.guard f.d (toSrc h.sa f.a) imm)
  | _ => .bad .instr
/-- Major 0x0B (R212). -/
def dec0B (h : Lent) (f : FieldsRI) : Decoded :=
  let ok := h.guardOk && srcOk h.sa f.a && !h.sb && h.xh == 0 && !f.imm.getLsbD 6
  let n := f.imm.extractLsb' 0 6
  let w := Width.ofBit (f.imm.getLsbD 7)
  match f.imm.extractLsb' 8 2 with
  | 0 => encodes ok (.shli h.guard w f.d (toSrc h.sa f.a) n)
  | 1 => encodes ok (.shri h.guard w f.d (toSrc h.sa f.a) n)
  | 2 => encodes ok (.shai h.guard w f.d (toSrc h.sa f.a) n)
  | _ => .bad .instr
/-- Major 0x0C (R213). -/
def dec0C (h : Lent) (f : FieldsRU) : Decoded :=
  encodes (h.guardOk && !h.sa && !h.sb) (.movi h.guard f.d (imm19 h.xh f.imm))
/-- Major 0x0D (R213). -/
def dec0D (h : Lent) (f : FieldsRU) : Decoded :=
  encodes (h.guardOk && !h.sa && !h.sb && h.xh == 0) (.movhi h.guard f.d f.imm)
/-- Major 0x0E (R214). -/
def dec0E (h : Lent) (f : FieldsRR) : Decoded := decIA2 h f (fun g w d a b => .lea g w d a b f.fn)
/-- Major 0x0F (R215). -/
def dec0F (h : Lent) (f : FieldsRU) : Decoded :=
  match toIdxSel (f.imm.extractLsb' 0 4) with
  | some e => encodes (h.guardOk && !h.sa && !h.sb && h.xh == 0 && f.imm.extractLsb' 4 13 == 0) (.idx h.guard f.d e)
  | none => .bad .instr

/-- A two-source floating word whose T2 is `t` (R220). -/
def decFA2 (h : Lent) (f : FieldsRR) (t : BitVec 2) (k : Guard → FTy → VReg → Src → Src → Instr) : Decoded :=
  encodes (h.guardOk && srcOk h.sa f.a && srcOk h.sb f.b) (k h.guard (toFTy t) f.d (toSrc h.sa f.a) (toSrc h.sb f.b))
/-- A one-source floating word whose T2 is `t` and whose B is zero (R220). -/
def decFA1 (h : Lent) (f : FieldsRR) (t : BitVec 2) (k : Guard → FTy → VReg → Src → Instr) : Decoded :=
  encodes (h.guardOk && srcOk h.sa f.a && !h.sb && f.b == 0) (k h.guard (toFTy t) f.d (toSrc h.sa f.a))

/-- Major 0x10 (R223). -/
def dec10 (h : Lent) (f : FieldsRR) : Decoded :=
  assigned (h.xh == 0)
    (if f.fn.getLsbD 0 then decFA2 h f (f.fn.extractLsb' 1 2) .fsub else decFA2 h f (f.fn.extractLsb' 1 2) .fadd)
/-- Major 0x11 (R223). -/
def dec11 (h : Lent) (f : FieldsRR) : Decoded :=
  assigned (h.xh == 0 && !f.fn.getLsbD 0) (decFA2 h f (f.fn.extractLsb' 1 2) .fmul)
/-- Major 0x12 (R223): FFMA has the G layout, FMA3 the X layout. -/
def dec12 (h : Byte) (f : FieldsRR) : Decoded :=
  let l := lentG h
  if f.fn.getLsbD 0 then
    encodes (srcOk l.sa f.a && srcOk l.sb f.b)
      (.fma3 (toFTy (f.fn.extractLsb' 1 2)) f.d (toSrc l.sa f.a) (toSrc l.sb f.b) (lentExt h))
  else assigned (l.xh == 0) (decFA2 l f (f.fn.extractLsb' 1 2) .ffma)
/-- Major 0x13 (R224): T2 is FN 3:2, of which bit 3 is XH bit 0; FN 4 is zero. -/
def dec13 (h : Lent) (f : FieldsRR) : Decoded :=
  let t : BitVec 2 := h.xh.extractLsb' 0 1 ++ f.fn.extractLsb' 2 1
  assigned (!h.xh.getLsbD 1)
    (match f.fn.extractLsb' 0 2 with
      | 0 => decFA2 h f t .fmin
      | 1 => decFA2 h f t .fmax
      | 2 => decFA1 h f t .fabs
      | _ => decFA1 h f t .fneg)
/-- Major 0x14 (R225). -/
def dec14 (h : Lent) (f : FieldsRR) : Decoded :=
  match toWidth h.xh with
  | some w =>
    encodes (h.guardOk && srcOk h.sa f.a && srcOk h.sb f.b && isPred f.d)
      (.fsetp h.guard (toFCond f.fn) w (toPred f.d) (toSrc h.sa f.a) (toSrc h.sb f.b))
  | none => .bad .instr
/-- Major 0x15 (R226, R227). -/
def dec15 (h : Lent) (f : FieldsRR) : Decoded :=
  if f.fn.getLsbD 0 then decFA1 h f (f.fn.extractLsb' 1 2) (fun g t d a => .frnd g (toFrnd h.xh) t d a)
  else assigned (h.xh == 0) (decFA1 h f (f.fn.extractLsb' 1 2) .fclass)
/-- Major 0x16 (R195, R228): TD in body 9:5, TS in body 4:0. -/
def dec16 (h : Lent) (f : FieldsRI) : Decoded :=
  match toCvtTy (f.imm.extractLsb' 5 5), toCvtTy (f.imm.extractLsb' 0 5) with
  | some td, some ts =>
    assigned (h.xh == 0 && cvtPair td ts)
      (encodes (h.guardOk && srcOk h.sa f.a && !h.sb) (.cvt h.guard td ts f.d (toSrc h.sa f.a)))
  | _, _ => .bad .instr
/-- Major 0x17 (R230). -/
def dec17 (h : Lent) (f : FieldsRR) : Decoded :=
  match toPackTy (h.xh ++ f.fn) with
  | some t =>
    encodes (h.guardOk && srcOk h.sa f.a && srcOk h.sb f.b) (.pack h.guard t f.d (toSrc h.sa f.a) (toSrc h.sb f.b))
  | none => .bad .instr
/-- Major 0x18 (R231). -/
def dec18 (h : Lent) (f : FieldsRR) : Decoded :=
  let k (c : Guard → Bool → VReg → Src → Instr) : Decoded :=
    assigned (!h.xh.getLsbD 1)
      (encodes (h.guardOk && srcOk h.sa f.a && !h.sb && f.b == 0) (c h.guard (h.xh.getLsbD 0) f.d (toSrc h.sa f.a)))
  match f.fn with
  | 0 => k .exp2
  | 1 => k .log2
  | 2 => k .rcp
  | 3 => k .rsqrt
  | 4 => k .tanh
  | 5 => k .logis
  | _ => .bad .instr
/-- Major 0x19 (R232). -/
def dec19 (h : Lent) (f : FieldsRR) : Decoded :=
  let ok := h.guardOk && srcOk h.sa f.a && srcOk h.sb f.b
  assigned (h.xh == 0)
    (match f.fn with
      | 0 => encodes ok (.dot4 h.guard f.d (toSrc h.sa f.a) (toSrc h.sb f.b))
      | 1 => encodes ok (.dot8 h.guard f.d (toSrc h.sa f.a) (toSrc h.sb f.b))
      | _ => .bad .instr)
/-- Major 0x1A (R235). -/
def dec1A (h : Lent) (f : FieldsRL) : Decoded :=
  let ok := h.guardOk && !h.sa && !h.sb
  let bf := f.fn6.getLsbD 3
  assigned (h.xh == 0 && f.fn6.extractLsb' 4 2 == 0)
    (match f.fn6.extractLsb' 0 3 with
      | 0 => encodes ok (.rmax h.guard bf f.d f.a f.la)
      | 1 => encodes ok (.rsum h.guard bf f.d f.a f.la)
      | 2 => encodes ok (.rsumexp h.guard bf f.d f.a f.la)
      | 3 => encodes ok (.rmeanvar h.guard bf f.d f.a f.la)
      | 4 => assigned (!bf) (encodes ok (.rnorm h.guard f.d f.a f.la))
      | _ => .bad .instr)
/-- Major 0x1B (R237). -/
def dec1B (h : Lent) (f : FieldsRL) : Decoded :=
  assigned (h.xh == 0 && f.fn6.extractLsb' 4 2 == 0 && f.fn6.extractLsb' 0 3 == 0)
    (encodes (h.guardOk && !h.sa && !h.sb && isScalar f.d && isScalar f.a)
      (.topk h.guard (f.fn6.getLsbD 3) (toScalar f.d) (toScalar f.a) f.la))
/-- Major 0x1C (R216). -/
def dec1C (h : Lent) (f : FieldsRR) : Decoded :=
  let ok := h.guardOk && !h.sa && !h.sb && isScalar f.d && isScalar f.a && isScalar f.b
  let d := toScalar f.d
  let a := toScalar f.a
  let b := toScalar f.b
  assigned (!h.xh.getLsbD 1 && (!h.xh.getLsbD 0 || f.fn == 7))
    (match f.fn with
      | 0 => encodes ok (.sadd h.guard d a b)
      | 1 => encodes ok (.ssub h.guard d a b)
      | 2 => encodes ok (.smul h.guard d a b)
      | 3 => encodes ok (.sand h.guard d a b)
      | 4 => encodes ok (.sor h.guard d a b)
      | 5 => encodes ok (.sxor h.guard d a b)
      | 6 => encodes ok (.sshl h.guard d a b)
      | _ => encodes ok (.sshr h.guard (h.xh.getLsbD 0) d a b))
/-- Major 0x1D (R217). -/
def dec1D (h : Lent) (f : FieldsRI) : Decoded :=
  let ok := h.guardOk && !h.sa && !h.sb && h.xh == 0
  let imm := f.imm.extractLsb' 0 8
  match f.imm.extractLsb' 8 2 with
  | 0 => encodes (ok && isScalar f.d && isScalar f.a) (.saddi h.guard (toScalar f.d) (toScalar f.a) imm)
  | 1 => encodes (ok && isScalar f.d) (.smovi h.guard (toScalar f.d) (f.a ++ imm))
  | 2 =>
    encodes (ok && isScalar f.d && isScalar f.a && imm.extractLsb' 3 5 == 0)
      (.slea h.guard (toScalar f.d) (toScalar f.a) (imm.extractLsb' 0 3))
  | _ =>
    encodes (ok && isPred f.d && isScalar f.a)
      (.ssetp h.guard (toSCond (imm.extractLsb' 5 3)) (toPred f.d) (toScalar f.a) (imm.extractLsb' 0 5))
/-- Major 0x1E (R218). -/
def dec1E (h : Lent) (f : FieldsRR) : Decoded :=
  let ok := h.guardOk && !h.sa && !h.sb && isScalar f.b
  assigned (h.xh == 0)
    (match f.fn with
      | 0 => encodes (ok && isScalar f.d) (.readlane h.guard (toScalar f.d) f.a (toScalar f.b))
      | 1 => encodes (ok && isScalar f.a) (.writelane h.guard f.d (toScalar f.a) (toScalar f.b))
      | 2 => encodes ok (.bcast h.guard f.d f.a (toScalar f.b))
      | _ => .bad .instr)

/-- The guard register of EXT 5:3 (R196). -/
def extGuard (h : Byte) : PReg := h.extractLsb' 3 3 ^^^ 7
/-- EXT 2:0. -/
def extLow (h : Byte) : BitVec 3 := h.extractLsb' 0 3
/-- R196: SA and SB are 0. -/
def extPlain (h : Byte) : Bool := h.extractLsb' 6 2 == 0

/-- Major 0x20 (R196, R245 to R248, R250). -/
def dec20 (acc : Bool) (h : Byte) (f : FieldsRL) : Decoded :=
  let gp := extGuard h
  let ok := extPlain h && isScalar f.a && accLoadOk acc gp f.d f.la
  let base := toScalar f.a
  match toLdSize (extLow h) with
  | some sz => encodes ok (.ld acc gp sz f.d base f.fn6 f.la)
  | none =>
    let low := f.fn6.extractLsb' 0 3
    let w := Width.ofBit (f.fn6.getLsbD 3)
    match f.fn6.extractLsb' 4 2 with
    | 2 => assigned (low == 0) (encodes ok (.ldBx acc gp w f.d base f.la))
    | 3 => assigned (!low.getLsbD 2) (encodes (ok && !f.fn6.getLsbD 3) (.ldBfx acc gp (low.extractLsb' 0 2) f.d base f.la))
    | form =>
      match toScope low with
      | some sc => assigned (!acc) (encodes (extPlain h && isScalar f.a) (.ldStrong gp (form == 1) w sc f.d base f.la))
      | none => .bad .instr
/-- Major 0x21 (R196, R245, R246). -/
def dec21 (h : Byte) (f : FieldsRL) : Decoded :=
  let ok := extPlain h && isScalar f.a && f.la == 0
  match toStSize (extLow h) with
  | some sz => encodes ok (.st (extGuard h) sz f.d (toScalar f.a) f.fn6)
  | none =>
    match toScope (f.fn6.extractLsb' 0 3) with
    | some sc =>
      assigned (extLow h == 7 && !f.fn6.getLsbD 5)
        (encodes ok (.stStrong (extGuard h) (f.fn6.getLsbD 4) (Width.ofBit (f.fn6.getLsbD 3)) sc f.d (toScalar f.a)))
    | none => .bad .instr
/-- Major 0x22 (R249, R250). -/
def dec22 (acc : Bool) (h : Byte) (f : FieldsRL) : Decoded :=
  match toLdSize (extLow h) with
  | some sz =>
    encodes (extPlain h && isScalar f.a && accLoadOk acc (extGuard h) f.d f.la)
      (.lds acc (extGuard h) sz f.d (toScalar f.a) f.fn6 f.la)
  | none => .bad .instr
/-- Major 0x23 (R249). -/
def dec23 (h : Byte) (f : FieldsRL) : Decoded :=
  match toStSize (extLow h) with
  | some sz => encodes (extPlain h && isScalar f.a && f.la == 0) (.sts (extGuard h) sz f.d (toScalar f.a) f.fn6)
  | none => .bad .instr
/-- Major 0x24 (R252, R253). -/
def dec24 (acc : Bool) (h : Byte) (f : FieldsRL) : Decoded :=
  let pref := extPlain h && isScalar f.a && f.d == 0 && f.la == 0
  match extLow h with
  | 0 => encodes pref (.prefL1 acc (extGuard h) (toScalar f.a) f.fn6)
  | 1 => encodes pref (.prefL2 acc (extGuard h) (toScalar f.a) f.fn6)
  | 2 =>
    assigned (!acc)
      (encodes (extPlain h && f.a == 0 && !f.fn6.getLsbD 5)
        (.qpop (extGuard h) (Width.ofBit (f.fn6.getLsbD 4)) f.d (f.fn6.extractLsb' 0 4) f.la))
  | _ => .bad .instr
/-- Major 0x25 (R254). -/
def dec25 (h : Lent) (f : FieldsRU) : Decoded :=
  let ok := h.guardOk && !h.sa && !h.sb && h.xh == 0 && f.d.extractLsb' 2 5 == 0 && f.imm.extractLsb' 3 14 == 0
  match f.d.extractLsb' 0 2 with
  | 3 => encodes (ok && f.imm.extractLsb' 0 3 == 0) (.spfence h.guard)
  | k =>
    match toScope (f.imm.extractLsb' 0 3) with
    | some sc => encodes ok (if k == 0 then .fenceAcq h.guard sc else if k == 1 then .fenceRel h.guard sc else .fenceAr h.guard sc)
    | none => .bad .instr
/-- Major 0x26 (R197, R255). -/
def dec26 (h : Byte) (f : FieldsRL) : Decoded :=
  match toScope (extLow h) with
  | some sc =>
    encodes (extPlain h && isScalar f.a)
      (.atom (extGuard h) (toAtomOp (f.fn6.extractLsb' 2 4)) (toAtomOrd (f.fn6.extractLsb' 0 2)) sc f.d (toScalar f.a) f.la)
  | none => .bad .instr
/-- Major 0x27 (R197, R255). -/
def dec27 (h : Byte) (f : FieldsRL) : Decoded :=
  let op := toAtomOp (f.fn6.extractLsb' 2 4)
  match toScope (extLow h) with
  | some sc =>
    assigned (op.redOk && !f.fn6.getLsbD 0)
      (encodes (extPlain h && isScalar f.a && f.la == 0) (.red (extGuard h) op (f.fn6.getLsbD 1) sc f.d (toScalar f.a)))
  | none => .bad .instr
/-- Major 0x28 (R259). -/
def dec28 (h : Lent) (f : FieldsRR) : Decoded :=
  let ok := h.guardOk && srcOk h.sa f.a && srcOk h.sb f.b
  assigned (h.xh == 0)
    (match f.fn with
      | 0 => encodes ok (.copy h.guard f.d (toSrc h.sa f.a) (toSrc h.sb f.b))
      | 1 => encodes ok (.copy2d h.guard f.d (toSrc h.sa f.a) (toSrc h.sb f.b))
      | _ => .bad .instr)
/-- Major 0x29 (R261). -/
def dec29 (h : Lent) (f : FieldsRR) : Decoded :=
  let ok := h.guardOk && !h.sa && !h.sb && f.b == 0
  assigned (h.xh == 0)
    (match f.fn with
      | 0 => encodes (ok && isScalar f.d && f.a == 0) (.seal h.guard (toScalar f.d))
      | 1 => encodes (ok && isScalar f.a && f.d == 0) (.waitb h.guard (toScalar f.a))
      | 2 => encodes (ok && isScalar f.d && isScalar f.a) (.testb h.guard (toScalar f.d) (toScalar f.a))
      | _ => .bad .instr)
/-- Major 0x2A (R262). -/
def dec2A (acc : Bool) (h : Lent) (f : FieldsRR) : Decoded :=
  let t := f.d.extractLsb' 0 2
  let ok := h.guardOk && f.d.extractLsb' 3 4 == 0
  assigned (h.xh == 0)
    (match f.fn with
      | 0 =>
        if f.d.getLsbD 2 then
          encodes (ok && !h.sa && f.a == 0 && srcOk h.sb f.b) (.bitldPitch acc h.guard t (toSrc h.sb f.b))
        else
          encodes (ok && srcOk h.sa f.a && srcOk h.sb f.b) (.bitld acc h.guard t (toSrc h.sa f.a) (toSrc h.sb f.b))
      | 1 => encodes (ok && !h.sa && !h.sb && !f.d.getLsbD 2 && f.a == 0 && f.b == 0) (.bitsw acc h.guard t)
      | _ => .bad .instr)
/-- Major 0x2B (R332 to R335). -/
def dec2B (h : Byte) (f : FieldsRU) : Decoded :=
  let l := lentG h
  let g := l.guardOk && !l.sa && !l.sb && l.xh == 0 && f.d == 0
  match f.imm.extractLsb' 15 2 with
  | 0 => encodes g (.trap l.guard (f.imm.extractLsb' 0 15))
  | 1 => encodes g (.brk l.guard (f.imm.extractLsb' 0 15))
  | 2 => encodes (h == 0 && isScalar f.d && f.imm.extractLsb' 1 14 == 0) (.chkerr (f.imm.getLsbD 0) (toScalar f.d))
  | _ => encodes (h == 0 && f.d == 0 && f.imm.extractLsb' 0 15 == 0) .region
/-- Major 0x2C (R266). -/
def dec2C (h : Lent) (f : FieldsRR) : Decoded :=
  match toShMode f.fn, toWidth h.xh with
  | some m, some w => encodes (h.guardOk && !h.sa && srcOk h.sb f.b) (.shfl h.guard m w f.d f.a (toSrc h.sb f.b))
  | _, _ => .bad .instr
/-- Major 0x2D (R267, R268). -/
def dec2D (h : Lent) (f : FieldsRR) : Decoded :=
  let ok := h.guardOk && !h.sa && !h.sb
  assigned (h.xh == 0)
    (match f.fn with
      | 0 => encodes (ok && isPred f.b) (.compress h.guard f.d f.a (toPred f.b))
      | 1 => encodes (ok && isPred f.b) (.expand h.guard f.d f.a (toPred f.b))
      | 2 => encodes (ok && isScalar f.b) (.slideup h.guard f.d f.a (toScalar f.b))
      | 3 => encodes (ok && isScalar f.b) (.slidedn h.guard f.d f.a (toScalar f.b))
      | _ => .bad .instr)
/-- Major 0x2E (R269, R270). -/
def dec2E (h : Lent) (f : FieldsRR) : Decoded :=
  let ok := h.guardOk && !h.sa && !h.sb && f.b == 0
  let un := h.xh.getLsbD 0
  assigned (!h.xh.getLsbD 1 && (!un || f.fn == 4 || f.fn == 5))
    (match f.fn with
      | 0 => encodes (ok && isPred f.d && isPred f.a) (.voteAny h.guard (toPred f.d) (toPred f.a))
      | 1 => encodes (ok && isPred f.d && isPred f.a) (.voteAll h.guard (toPred f.d) (toPred f.a))
      | 2 => encodes (ok && isScalar f.d && isPred f.a) (.voteBallot h.guard (toScalar f.d) (toPred f.a))
      | 3 => encodes (ok && isScalar f.d) (.reduxAdd h.guard (toScalar f.d) f.a)
      | 4 => encodes (ok && isScalar f.d) (.reduxMin h.guard un (toScalar f.d) f.a)
      | 5 => encodes (ok && isScalar f.d) (.reduxMax h.guard un (toScalar f.d) f.a)
      | 6 => encodes (ok && isScalar f.d) (.reduxAnd h.guard (toScalar f.d) f.a)
      | _ => encodes (ok && isScalar f.d) (.reduxOr h.guard (toScalar f.d) f.a))
/-- Major 0x2F (R336). -/
def dec2F (h : Byte) (f : FieldsRI) : Decoded :=
  let n := f.imm.extractLsb' 0 6
  let ok := h == 0 && isScalar f.d && isScalar f.a
  let d := toScalar f.d
  let a := toScalar f.a
  match (f.imm.extractLsb' 6 4).toNat with
  | 0 =>
    match toSpecReg n with
    | some r => encodes (ok && f.a == 0) (.rdsr d r)
    | none => .bad .instr
  | 1 =>
    match toSpecReg n with
    | some r => encodes (ok && (r.perCore || f.d == 0)) (.wrsr d a r)
    | none => .bad .instr
  | 2 => encodes (ok && n == 0) (.csave d a)
  | 3 => encodes (ok && n == 0) (.crestore d a)
  | 4 =>
    match n.toNat with
    | 0 => encodes ok (.corectlStatus d a)
    | 1 => encodes ok (.corectlDrain d a)
    | 2 => encodes ok (.corectlAdmit d a)
    | 3 => encodes ok (.corectlStop d a)
    | 4 => encodes ok (.corectlResume d a)
    | _ => .bad .instr
  | 5 => encodes (ok && n == 0) (.scan d a)
  | 6 => encodes (ok && n == 0) (.scanrd d a)
  | 7 => encodes (ok && n == 0 && f.d == 0) (.scanab a)
  | 8 => encodes (ok && n == 0) (.cmapw d a)
  | 9 => encodes ok (.mgnrd d a n)
  | _ => .bad .instr
/-- Major 0x30 (R272). -/
def dec30 (acc : Bool) (h : Byte) (f : FieldsB) : Decoded :=
  encodes (h == 0 && !(f.neg == 1 && f.pred == 7)) (.bra acc f.pred (f.neg == 1) f.off)
/-- Major 0x31 (R273 to R275). -/
def dec31 (acc : Bool) (h : Byte) (f : FieldsRR) : Decoded :=
  let ok := h == 0 && f.b == 0
  match f.fn with
  | 0 => encodes (ok && f.d == 0 && isScalar f.a) (.jmp acc (toScalar f.a))
  | 1 => encodes (ok && isScalar f.d && isScalar f.a) (.call acc (toScalar f.d) (toScalar f.a))
  | 2 => encodes (ok && f.d == 0 && isScalar f.a) (.ret acc (toScalar f.a))
  | 3 => encodes (ok && f.d == 0) (.brx acc f.a)
  | 4 => encodes (ok && f.d == 0 && f.a == 0) (.exit acc)
  | _ => .bad .instr
/-- Major 0x32 (R277). -/
def dec32 (h : Byte) (f : FieldsRU) : Decoded :=
  encodes (h == 0 && f.d == 0 && !f.imm.getLsbD 16) (.regang (f.imm.extractLsb' 0 16))
/-- Major 0x33 (R281, R282). -/
def dec33 (h : Lent) (f : FieldsRR) : Decoded :=
  let ok := h.guardOk && !h.sa && !h.sb
  assigned (h.xh == 0)
    (match f.fn with
      | 0 =>
        encodes (ok && isPred f.d && isScalar f.a && (toPred f.d != 0 || f.b == 0))
          (.cont h.guard (toPred f.d) (toScalar f.a) f.b)
      | 1 => encodes (ok && f.d == 0 && f.a == 0 && f.b == 0) (.contf h.guard)
      | _ => .bad .instr)
/-- Major 0x34 (R279). -/
def dec34 (h : Byte) (f : FieldsRI) : Decoded :=
  let b := f.imm.extractLsb' 0 7
  let ok := h == 0 && f.d == 0 && !f.imm.getLsbD 7
  match f.imm.extractLsb' 8 2 with
  | 0 => encodes (ok && isScalar f.a) (.barInit b (toScalar f.a))
  | 1 => encodes (ok && f.a == 0) (.barArrive b)
  | 2 => encodes (ok && f.a == 0) (.barWait b)
  | _ => encodes (ok && f.a == 0) (.barSync b)
/-- Major 0x35 (R283). -/
def dec35 (h : Lent) (f : FieldsRR) : Decoded :=
  let ok := h.guardOk && !h.sa && !h.sb && f.b == 0
  assigned (h.xh == 0)
    (match f.fn with
      | 0 => encodes (ok && isScalar f.d && f.a == 0) (.locq h.guard (toScalar f.d))
      | 1 => encodes ok (.locqAddr h.guard f.d f.a)
      | _ => .bad .instr)
/-- Major 0x36 (R286 to R289). -/
def dec36 (h : Lent) (f : FieldsT) : Decoded :=
  let bare := !h.gn && h.gp == 0 && !h.sb
  assigned (h.xh == 0)
    (match f.fn6 with
      | 0 =>
        if f.tb == 0 then encodes bare (.give f.td h.sa f.ta)
        else encodes (bare && !h.sa && f.tb == 1 && f.ta == 0) (.giveSeq f.td)
      | 1 => encodes (bare && !h.sa && f.ta == 0 && f.tb == 0) (.take f.td)
      | 2 => encodes (bare && !h.sa && f.td == 0 && f.tb == 0) (.seqgo f.ta)
      | _ => .bad .instr)
/-- Major 0x37 (R290, R291). -/
def dec37 (h : Lent) (f : FieldsT) : Decoded :=
  let ok := h.guardOk && !h.sa && !h.sb && f.tb == 0
  assigned (h.xh == 0)
    (match f.fn6 with
      | 0 => encodes (ok && f.td == 0) (.setshape h.guard f.ta)
      | 1 => encodes (ok && f.ta == 0) (.tcfg h.guard f.td)
      | 2 => encodes (ok && f.ta == 0) (.tfree h.guard f.td)
      | 3 => encodes (ok && f.ta == 0) (.tzero h.guard f.td)
      | _ => .bad .instr)
/-- Major 0x38 (R293). -/
def dec38 (h : Lent) (f : FieldsT) : Decoded :=
  let t := toTTy (f.fn6.extractLsb' 3 2)
  let a := toTSrc h.sa f.ta
  let b := toTSrc h.sb f.tb
  assigned (h.xh == 0 && !f.fn6.getLsbD 5)
    (match f.fn6.extractLsb' 0 3 with
      | 0 => encodes h.guardOk (.tadd h.guard t f.td a b)
      | 1 => encodes h.guardOk (.tmul h.guard t f.td a b)
      | 2 => encodes h.guardOk (.tfma h.guard t f.td a b)
      | 3 => encodes h.guardOk (.tmax h.guard t f.td a b)
      | 4 => encodes h.guardOk (.tmin h.guard t f.td a b)
      | _ => .bad .instr)
/-- Major 0x39 (R294, R295). -/
def dec39 (h : Lent) (f : FieldsT) : Decoded :=
  let sub := f.fn6.extractLsb' 1 3
  assigned (h.xh == 0 && f.fn6.extractLsb' 4 2 == 0)
    (if f.fn6.getLsbD 0 then
      assigned (sub.extractLsb' 1 2 == 0)
        (encodes (h.guardOk && !h.sa && !h.sb && f.tb == 0) (.tact h.guard (sub.getLsbD 0) f.td f.ta))
    else
      match toTCvtTy sub with
      | some dst =>
        let src := toTTy (f.tb.extractLsb' 0 2)
        assigned (f.tb.extractLsb' 2 4 == 0 && tcvtPair dst src)
          (encodes (h.guardOk && !h.sb) (.tcvt h.guard dst src f.td (toTSrc h.sa f.ta)))
      | none => .bad .instr)
/-- Major 0x3A (R296). -/
def dec3A (h : Lent) (f : FieldsRR) : Decoded :=
  let ok := h.guardOk && srcOk h.sa f.a
  let a := toSrc h.sa f.a
  let par := ok && !h.sb && isScalar f.b
  let one := ok && !h.sb && f.b == 0
  let b := toScalar f.b
  match (h.xh ++ f.fn : BitVec 5).toNat with
  | 0 => encodes par (.rvmul h.guard f.d a b)
  | 1 => encodes par (.unmul h.guard f.d a b)
  | 2 => encodes par (.rvshr h.guard f.d a b)
  | 3 => encodes par (.unshr h.guard f.d a b)
  | 4 => encodes one (.rvnarBf16 h.guard f.d a)
  | 5 => encodes one (.unnarBf16 h.guard f.d a)
  | 6 => encodes one (.rvnarI16 h.guard f.d a)
  | 7 => encodes one (.unnarI16 h.guard f.d a)
  | 8 => encodes (ok && srcOk h.sb f.b) (.rvadd h.guard f.d a (toSrc h.sb f.b))
  | 9 => encodes (ok && srcOk h.sb f.b) (.unadd h.guard f.d a (toSrc h.sb f.b))
  | _ => .bad .instr
/-- Major 0x3B (R302). -/
def dec3B (h : Byte) (f : FieldsRU) : Decoded :=
  let ok := h == 0 && f.d.extractLsb' 3 4 == 0
  match f.d.extractLsb' 0 3 with
  | 0 => encodes (ok && !f.imm.getLsbD 16) (.rvmark (f.imm.extractLsb' 0 16))
  | 1 => encodes (ok && !f.imm.getLsbD 16) (.unmark (f.imm.extractLsb' 0 16))
  | 2 => encodes (ok && f.imm == 0) .rspill
  | 3 => encodes (ok && f.imm == 0) .rsfill
  | 4 => encodes (ok && f.imm.extractLsb' 6 11 == 0) (.rsdepth (f.imm.extractLsb' 0 6))
  | _ => .bad .instr

/-! ### The sequencer's majors -/

/-- Major 0x3C (R312 to R315). -/
def dec3C (h : Byte) (f : FieldsT) : Decoded :=
  let hd := f.ta.extractLsb' 4 2 == 0
  match f.fn4 with
  | 0 =>
    encodes (h == 0 && f.v == 1 && hd && f.tb.extractLsb' 2 4 == 0)
      (.tld f.td (f.ta.extractLsb' 0 4) (f.tb.extractLsb' 0 2))
  | 1 =>
    encodes (h == 0 && f.v == 1 && hd && f.tb.extractLsb' 3 3 == 0)
      (.tldTr f.td (f.ta.extractLsb' 0 4) (f.tb.getLsbD 2) (f.tb.extractLsb' 0 2))
  | 2 =>
    encodes (h == 0 && f.v == 2 && f.tb.extractLsb' 4 2 == 0 && f.td.extractLsb' 2 4 == 0)
      (.tst (f.tb.extractLsb' 0 4) f.ta (f.td.extractLsb' 0 2))
  | 3 => encodes (h == 0 && f.v == 1 && f.ta.extractLsb' 3 3 == 0 && f.tb == 0) (.sgather f.td (f.ta.extractLsb' 0 3))
  | _ => .bad .instr
/-- Major 0x3D (R198, R316). -/
def dec3D (h : Byte) (f : FieldsT) : Decoded :=
  let e := lentExt h
  match toMmaTy f.fn4 with
  | some ty =>
    encodes (extPlain h && mSrcOk (f.v.getLsbD 0) f.ta && mSrcOk (f.v.getLsbD 1) f.tb)
      (.mma ty (e.getLsbD 0) (e.getLsbD 1) (toMmaDim (e.extractLsb' 2 2)) (toMmaDim (e.extractLsb' 4 2)) f.td
        (toMSrc (f.v.getLsbD 0) f.ta) (toMSrc (f.v.getLsbD 1) f.tb))
  | none => .bad .instr
/-- Major 0x3E without SEGH, which is a bundle of three words (R322 to R328). -/
def dec3E (h : Byte) (f : FieldsT) : Decoded :=
  let ok := h == 0 && f.v == 0
  match f.fn4.toNat with
  | 1 => encodes (ok && f.td == 0 && f.ta == 0 && f.tb == 0) .sege
  | 2 =>
    if f.td.getLsbD 5 then encodes (ok && f.ta == 0 && f.tb == 0) (.sloopReg (f.td.extractLsb' 0 5))
    else encodes (ok && f.td == 0) (.sloop (f.ta ++ f.tb))
  | 3 => encodes (ok && f.td == 0 && f.ta == 0 && f.tb == 0) .slend
  | 4 => encodes (ok && !f.ta.getLsbD 5) (.saddr (f.td.getLsbD 5) (f.td.extractLsb' 0 5) (f.ta.extractLsb' 0 5) f.tb)
  | 5 => encodes (ok && !f.ta.getLsbD 5 && f.tb == 0) (.swaitb f.td (f.ta.extractLsb' 0 5))
  | 6 =>
    let b := f.td.extractLsb' 0 1 ++ f.ta
    if f.tb == 0 then encodes (ok && f.td.extractLsb' 1 5 == 0) (.sbarArrive b)
    else encodes (ok && f.td.extractLsb' 1 5 == 0 && f.tb == 1) (.sbarSync b)
  | 7 => encodes (ok && f.td == 0 && f.ta == 0 && f.tb == 0) .shalt
  | 8 => encodes (ok && f.tb == 0) (.seqGive f.td f.ta)
  | 9 => encodes (ok && f.ta == 0 && f.tb == 0) (.seqTake f.td)
  | 0 => .bad .encoding
  | _ => .bad .instr
/-- SEGH's bundle of three words (R320), given its second and third word. -/
def decSegh (f : FieldsT) (e1 e2 : Word) : Decoded :=
  encodes (packT f == 0 && e1.extractLsb' 28 4 == 0 && e2.extractLsb' 28 4 == 0)
    (.segh (e2.extractLsb' 16 12 ++ e1.extractLsb' 16 12) (e2.extractLsb' 0 16 ++ e1.extractLsb' 0 16))

/-! ### One word -/

/-- R250, R276: the majors whose words may be A-marked. -/
def accMajor (op : BitVec 6) : Bool := op == 0x20 || op == 0x22 || op == 0x24 || op == 0x2A || op == 0x30 || op == 0x31

/-- A word of the warp stream, by its major (Table 9.1). `h` is the lent byte. (DEDUCED, log entry 11.) -/
def decodeWarp (op : BitVec 6) (acc : Bool) (h : Byte) (x : BitVec 24) : Decoded :=
  let g := lentG h
  assigned (!acc || accMajor op)
    (match op.toNat with
      | 0x00 => dec00 g (bodyRU x)
      | 0x01 => dec01 g (bodyRR x)
      | 0x02 => dec02 g (bodyRR x)
      | 0x03 => dec03 g (bodyRR x)
      | 0x04 => dec04 g (bodyRR x)
      | 0x05 => dec05 g (bodyRR x)
      | 0x06 => dec06 g (bodyRR x)
      | 0x07 => dec07 g (bodyRR x)
      | 0x08 => dec08 g (bodyRR x)
      | 0x09 => dec09 g (bodyRI x)
      | 0x0A => dec0A g (bodyRI x)
      | 0x0B => dec0B g (bodyRI x)
      | 0x0C => dec0C g (bodyRU x)
      | 0x0D => dec0D g (bodyRU x)
      | 0x0E => dec0E g (bodyRR x)
      | 0x0F => dec0F g (bodyRU x)
      | 0x10 => dec10 g (bodyRR x)
      | 0x11 => dec11 g (bodyRR x)
      | 0x12 => dec12 h (bodyRR x)
      | 0x13 => dec13 g (bodyRR x)
      | 0x14 => dec14 g (bodyRR x)
      | 0x15 => dec15 g (bodyRR x)
      | 0x16 => dec16 g (bodyRI x)
      | 0x17 => dec17 g (bodyRR x)
      | 0x18 => dec18 g (bodyRR x)
      | 0x19 => dec19 g (bodyRR x)
      | 0x1A => dec1A g (bodyRL x)
      | 0x1B => dec1B g (bodyRL x)
      | 0x1C => dec1C g (bodyRR x)
      | 0x1D => dec1D g (bodyRI x)
      | 0x1E => dec1E g (bodyRR x)
      | 0x20 => dec20 acc h (bodyRL x)
      | 0x21 => dec21 h (bodyRL x)
      | 0x22 => dec22 acc h (bodyRL x)
      | 0x23 => dec23 h (bodyRL x)
      | 0x24 => dec24 acc h (bodyRL x)
      | 0x25 => dec25 g (bodyRU x)
      | 0x26 => dec26 h (bodyRL x)
      | 0x27 => dec27 h (bodyRL x)
      | 0x28 => dec28 g (bodyRR x)
      | 0x29 => dec29 g (bodyRR x)
      | 0x2A => dec2A acc g (bodyRR x)
      | 0x2B => dec2B h (bodyRU x)
      | 0x2C => dec2C g (bodyRR x)
      | 0x2D => dec2D g (bodyRR x)
      | 0x2E => dec2E g (bodyRR x)
      | 0x2F => dec2F h (bodyRI x)
      | 0x30 => dec30 acc h (bodyB x)
      | 0x31 => dec31 acc h (bodyRR x)
      | 0x32 => dec32 h (bodyRU x)
      | 0x33 => dec33 g (bodyRR x)
      | 0x34 => dec34 h (bodyRI x)
      | 0x35 => dec35 g (bodyRR x)
      | 0x36 => dec36 g (bodyT x)
      | 0x37 => dec37 g (bodyT x)
      | 0x38 => dec38 g (bodyT x)
      | 0x39 => dec39 g (bodyT x)
      | 0x3A => dec3A g (bodyRR x)
      | 0x3B => dec3B h (bodyRU x)
      | _ => .bad .instr)

/-- A word of the sequencer stream, by its major (Table 9.1). -/
def decodeSeq (op : BitVec 6) (h : Byte) (x : BitVec 24) : Decoded :=
  match op.toNat with
  | 0x3C => dec3C h (bodyT x)
  | 0x3D => dec3D h (bodyT x)
  | 0x3E => dec3E h (bodyT x)
  | 0x00 =>
    if (bodyRU x).d == 0 then encodes (h == 0 && (bodyRU x).imm == 0) (.nop .none)
    else .bad .stream
  | _ => .bad .stream

/-- R194: the sequencer-only majors. -/
def seqMajor (op : BitVec 6) : Bool := decide (0x3C ≤ op.toNat) && decide (op.toNat ≤ 0x3E)

/-- One word of a stream, without its S bit (R192, step 3). (DEDUCED, log entry 11.) -/
def decodeWord (sq : Bool) (h : Byte) (w : Word) : Decoded :=
  if sq then decodeSeq (wordOp w) h (wordBody w)
  else if seqMajor (wordOp w) then .bad .stream
  else decodeWarp (wordOp w) (wordA w) h (wordBody w)

/-! ### The structure of a bundle (R175, R180, R184, R306, R320, R322) -/

/-- A bundle cut from its fetch packet. -/
inductive Bundle where
  /-- The words with their lent bytes, and how many words the bundle takes with its header. -/
  | words (ws : List (Byte × Word)) (len : Nat)
  /-- SEGH with its two data words. -/
  | segh (w e1 e2 : Word)
  /-- The structure is broken: illegal-encoding. -/
  | broken
  deriving DecidableEq, Repr

/-- OP = 0x3F (R175). -/
def isHeader (w : Word) : Bool := wordOp w == 0x3F
/-- A SEGH word by its major and FN4 (R320). -/
def isSegh (w : Word) : Bool := wordOp w == 0x3E && (bodyT (wordBody w)).fn4 == 0
/-- A SEGE word by its major and FN4 (R322). -/
def isSege (w : Word) : Bool := wordOp w == 0x3E && (bodyT (wordBody w)).fn4 == 1

/-- Pair each word after a header with its lent byte (R175). -/
def lend (hdr : Word) : List Word → List (Byte × Word)
  | [] => []
  | w :: ws => (hdr.extractLsb' 16 8, w) :: lend (hdr <<< 8) ws

/-- The bytes a header lends to words that are not there (R175). -/
def headerTail (hdr : Word) (n : Nat) : Bool := ((hdr.extractLsb' 0 24) <<< (8 * n)) == 0

/-- R179, R306: in sequencer code a nonzero byte may fall on an MMA word alone. -/
def seqLentOk (ws : List (Byte × Word)) : Bool := ws.all fun p => p.1 == 0 || wordOp p.2 == 0x3D

/-- The bundle that starts at the first of the packet's remaining words (R180). -/
def cutBundle (sq : Bool) (ws : List Word) : Bundle :=
  match ws with
  | [] => .broken
  | w0 :: rest =>
    let tl := rest.takeWhile fun w => !wordS w
    let len := 1 + tl.length
    if !wordS w0 || decide (4 < len) then .broken
    else if (w0 :: tl).any fun w => wordA w != (!sq && wordA w0) then .broken
    else if sq && isSegh w0 then
      match tl with
      | [e1, e2] => .segh w0 e1 e2
      | _ => .broken
    else if tl.any isHeader then .broken
    else if sq && ((tl.any isSegh) || ((w0 :: tl).any isSege && decide (1 < len))) then .broken
    else if isHeader w0 then
      if decide (tl.length < 1) || !headerTail w0 tl.length then .broken
      else if sq && !seqLentOk (lend w0 tl) then .broken
      else .words (lend w0 tl) len
    else .words ((0, w0) :: tl.map fun w => (0, w)) len

/-! ### Pipe classes (Table 8.4) -/

/-- The pipe classes of both streams. -/
inductive PipeClass where
  | ia | sc | fa | sf | rc | xl | ls | tl | ct | ql | qm | qs | qc
  deriving DecidableEq, Repr

/-- The class of a word (R181). -/
def pipeClass (sq : Bool) (w : Word) : PipeClass :=
  let n := (wordOp w).toNat
  if n == 0x3C then (if (bodyT (wordBody w)).fn4 == 2 then .qs else .ql)
  else if n == 0x3D then .qm
  else if n == 0x3E then .qc
  else if n == 0 then (if sq then .qc else .ct)
  else if n ≤ 0x0F then .ia
  else if n == 0x18 then .sf
  else if n ≤ 0x19 then .fa
  else if n ≤ 0x1B then .rc
  else if n ≤ 0x1D then .sc
  else if n == 0x1E then .xl
  else if n ≤ 0x2A then .ls
  else if n == 0x2B then .ct
  else if n ≤ 0x2E then .xl
  else if n == 0x35 then .ls
  else if n ≤ 0x34 then .ct
  else .tl

/-- R181: at most one word of each class. -/
def classesOk (sq : Bool) (ws : List (Byte × Word)) : Bool :=
  decide ((ws.map fun p => pipeClass sq p.2).Nodup)

/-! ### The host's table word -/

/-- The instruction of a table word: bits of the first word first, a header's byte lent to the word after it, SEGH's two
data words after SEGH. Words above `nbits` are zero. -/
def decodeTableWord (nbits w : Nat) : Option Instr :=
  let x := w % 2 ^ nbits
  let w0 : Word := BitVec.ofNat 32 x
  let w1 : Word := BitVec.ofNat 32 (x / 2 ^ 32)
  let w2 : Word := BitVec.ofNat 32 (x / 2 ^ 64)
  if isHeader w0 then (decodeWord (seqMajor (wordOp w1)) (w0.extractLsb' 16 8) w1).toOption
  else if isSegh w0 then (decSegh (bodyT (wordBody w0)) w1 w2).toOption
  else (decodeWord (seqMajor (wordOp w0)) 0 w0).toOption

/-! ### The encoder, from the same tables -/

/-- An encoded instruction: its major, A bit, lent byte, body, and SEGH's two data words. -/
structure Enc where
  op : BitVec 6
  acc : Bool
  lent : Byte
  body : BitVec 24
  tail : List Word
  deriving DecidableEq, Repr

/-- The word of an encoded instruction. -/
def Enc.word (e : Enc) (s : Bool) : Word := packWord s e.acc e.op e.body

/-- A G layout byte (R176). -/
def lentOf (g : Guard) (sa sb : Bool) (xh : BitVec 2) : Byte := packLent ⟨sa, sb, xh, g.neg, g.p ^^^ 7⟩
/-- An X layout byte of a memory word (R196). -/
def lentMem (gp : PReg) (low : BitVec 3) : Byte := (0 : BitVec 2) ++ (gp ^^^ 7) ++ low

/-- Is a source scalar? -/
def Src.isScalar : Src → Bool
  | .v _ => false
  | .s _ => true
/-- The field of a source (R177). -/
def Src.field : Src → BitVec 7
  | .v r => r
  | .s r => (0 : BitVec 1) ++ r
/-- Is a tile source scalar? -/
def TSrc.isScalar : TSrc → Bool
  | .t _ => false
  | .s _ => true
/-- The field of a tile source (R177). -/
def TSrc.field : TSrc → BitVec 6
  | .t r => r
  | .s r => r
/-- The V bit of an MMA source. -/
def MSrc.v : MSrc → Bool
  | .t _ => false
  | .h _ => true
/-- The field of an MMA source (R305). -/
def MSrc.field : MSrc → BitVec 6
  | .t r => r
  | .h r => (0 : BitVec 2) ++ r
/-- The field of a scalar register (R173). -/
def sField (r : SReg) : BitVec 7 := (0 : BitVec 1) ++ r
/-- The field of a predicate (R206). -/
def pField (p : PReg) : BitVec 7 := (0 : BitVec 4) ++ p

/-- A word of format RR in the G layout. -/
def encRR (op : BitVec 6) (l : Byte) (d a b : BitVec 7) (fn : BitVec 3) : Option Enc :=
  some ⟨op, false, l, packRR ⟨d, a, b, fn⟩, []⟩
/-- A word of format RI. -/
def encRI (op : BitVec 6) (l : Byte) (d a : BitVec 7) (imm : BitVec 10) : Option Enc :=
  some ⟨op, false, l, packRI ⟨d, a, imm⟩, []⟩
/-- A word of format RU. -/
def encRU (op : BitVec 6) (l : Byte) (d : BitVec 7) (imm : BitVec 17) : Option Enc :=
  some ⟨op, false, l, packRU ⟨d, imm⟩, []⟩
/-- A word of format RL or M. -/
def encRL (op : BitVec 6) (acc : Bool) (l : Byte) (d a : BitVec 7) (fn6 : BitVec 6) (la : BitVec 4) : Option Enc :=
  some ⟨op, acc, l, packRL ⟨d, a, fn6, la⟩, []⟩
/-- A word of format T. -/
def encT (op : BitVec 6) (l : Byte) (td ta tb fn6 : BitVec 6) : Option Enc := some ⟨op, false, l, packT ⟨td, ta, tb, fn6⟩, []⟩
/-- A word of format Q. -/
def encQ (op : BitVec 6) (l : Byte) (td ta tb : BitVec 6) (fn4 : BitVec 4) (v : BitVec 2) : Option Enc :=
  encT op l td ta tb (fn4 ++ v)
/-- A two-source word whose XH is `xh`. -/
def encS2 (op : BitVec 6) (g : Guard) (xh : BitVec 2) (d : BitVec 7) (a b : Src) (fn : BitVec 3) : Option Enc :=
  encRR op (lentOf g a.isScalar b.isScalar xh) d a.field b.field fn
/-- A one-source word whose XH is `xh`. -/
def encS1 (op : BitVec 6) (g : Guard) (xh : BitVec 2) (d : BitVec 7) (a : Src) (fn : BitVec 3) : Option Enc :=
  encRR op (lentOf g a.isScalar false xh) d a.field 0 fn
/-- A word without sources that SA or SB could change. -/
def encG (op : BitVec 6) (g : Guard) (xh : BitVec 2) (d a b : BitVec 7) (fn : BitVec 3) : Option Enc :=
  encRR op (lentOf g false false xh) d a b fn
/-- A control word of major 0x31 (R273). -/
def encCtl (acc : Bool) (d a : BitVec 7) (fn : BitVec 3) : Option Enc := some ⟨0x31, acc, 0, packRR ⟨d, a, 0, fn⟩, []⟩
/-- A tile word in format T (R286). -/
def encTile (op : BitVec 6) (g : Guard) (sa sb : Bool) (td ta tb fn6 : BitVec 6) : Option Enc :=
  encT op (lentOf g sa sb 0) td ta tb fn6
/-- Bits of Bool fields. -/
abbrev b1 (b : Bool) : BitVec 1 := BitVec.ofBool b

/-- The encoding of an instruction; none for an event. -/
def encode : Instr → Option Enc
  | .nop g => encRU 0x00 (lentOf g false false 0) 0 0
  | .yield g => encRU 0x00 (lentOf g false false 0) 1 0
  | .sleep g n => encRU 0x00 (lentOf g false false 0) 2 n
  | .add g w d a b => encS2 0x01 g w.code d a b 0
  | .sub g w d a b => encS2 0x01 g w.code d a b 1
  | .neg g w d a => encS1 0x01 g w.code d a 2
  | .abs g w d a => encS1 0x01 g w.code d a 3
  | .mul g w d a b => encS2 0x02 g w.code d a b 0
  | .mulhI g w d a b => encS2 0x02 g w.code d a b 1
  | .mulhN g w d a b => encS2 0x02 g w.code d a b 2
  | .mad g w d a b => encS2 0x02 g w.code d a b 3
  | .minI g w d a b => encS2 0x03 g w.code d a b 0
  | .maxI g w d a b => encS2 0x03 g w.code d a b 1
  | .minN g w d a b => encS2 0x03 g w.code d a b 2
  | .maxN g w d a b => encS2 0x03 g w.code d a b 3
  | .and g w d a b => encS2 0x04 g w.code d a b 0
  | .or g w d a b => encS2 0x04 g w.code d a b 1
  | .xor g w d a b => encS2 0x04 g w.code d a b 2
  | .andn g w d a b => encS2 0x04 g w.code d a b 3
  | .not g w d a => encS1 0x04 g w.code d a 4
  | .shl g w d a b => encS2 0x05 g w.code d a b 0
  | .shr g w d a b => encS2 0x05 g w.code d a b 1
  | .sha g w d a b => encS2 0x05 g w.code d a b 2
  | .rot g w d a b => encS2 0x05 g w.code d a b 3
  | .clz g w d a => encS1 0x06 g w.code d a 0
  | .popc g w d a => encS1 0x06 g w.code d a 1
  | .brev g w d a => encS1 0x06 g w.code d a 2
  | .bfeN g w d a b => encS2 0x06 g w.code d a b 3
  | .bfeI g w d a b => encS2 0x06 g w.code d a b 4
  | .bfi g w d a b => encS2 0x06 g w.code d a b 5
  | .setp g c un w p a b => encS2 0x07 g (b1 w.bit ++ b1 un) (pField p) a b c.code
  | .sel g w d a b p => encS2 0x08 g w.code d a b p
  | .mov g w d a => encS1 0x08 g w.code d a 7
  | .addi g d a imm =>
    encRI 0x09 (lentOf g a.isScalar false (imm.extractLsb' 10 2 ^^^ (if imm.getLsbD 9 then 3 else 0))) d a.field
      (imm.extractLsb' 0 10)
  | .andi g d a imm => encRI 0x0A (lentOf g a.isScalar false 0) d a.field ((0 : BitVec 2) ++ imm)
  | .ori g d a imm => encRI 0x0A (lentOf g a.isScalar false 0) d a.field ((1 : BitVec 2) ++ imm)
  | .xori g d a imm => encRI 0x0A (lentOf g a.isScalar false 0) d a.field ((2 : BitVec 2) ++ imm)
  | .shli g w d a n => encRI 0x0B (lentOf g a.isScalar false 0) d a.field ((0 : BitVec 2) ++ b1 w.bit ++ (0 : BitVec 1) ++ n)
  | .shri g w d a n => encRI 0x0B (lentOf g a.isScalar false 0) d a.field ((1 : BitVec 2) ++ b1 w.bit ++ (0 : BitVec 1) ++ n)
  | .shai g w d a n => encRI 0x0B (lentOf g a.isScalar false 0) d a.field ((2 : BitVec 2) ++ b1 w.bit ++ (0 : BitVec 1) ++ n)
  | .movi g d imm =>
    encRU 0x0C (lentOf g false false (imm.extractLsb' 17 2 ^^^ (if imm.getLsbD 16 then 3 else 0))) d (imm.extractLsb' 0 17)
  | .movhi g d imm => encRU 0x0D (lentOf g false false 0) d imm
  | .lea g w d a b sh => encS2 0x0E g w.code d a b sh
  | .idx g d e => encRU 0x0F (lentOf g false false 0) d ((0 : BitVec 13) ++ e.code)
  | .fadd g t d a b => encS2 0x10 g 0 d a b (t.code ++ (0 : BitVec 1))
  | .fsub g t d a b => encS2 0x10 g 0 d a b (t.code ++ (1 : BitVec 1))
  | .fmul g t d a b => encS2 0x11 g 0 d a b (t.code ++ (0 : BitVec 1))
  | .ffma g t d a b => encS2 0x12 g 0 d a b (t.code ++ (0 : BitVec 1))
  | .fma3 t d a b c =>
    encRR 0x12 (b1 a.isScalar ++ b1 b.isScalar ++ c) d a.field b.field (t.code ++ (1 : BitVec 1))
  | .fmin g t d a b => encS2 0x13 g ((0 : BitVec 1) ++ t.code.extractLsb' 1 1) d a b (t.code.extractLsb' 0 1 ++ (0 : BitVec 2))
  | .fmax g t d a b => encS2 0x13 g ((0 : BitVec 1) ++ t.code.extractLsb' 1 1) d a b (t.code.extractLsb' 0 1 ++ (1 : BitVec 2))
  | .fabs g t d a => encS1 0x13 g ((0 : BitVec 1) ++ t.code.extractLsb' 1 1) d a (t.code.extractLsb' 0 1 ++ (2 : BitVec 2))
  | .fneg g t d a => encS1 0x13 g ((0 : BitVec 1) ++ t.code.extractLsb' 1 1) d a (t.code.extractLsb' 0 1 ++ (3 : BitVec 2))
  | .fsetp g c w p a b => encS2 0x14 g w.code (pField p) a b c.code
  | .fclass g t d a => encS1 0x15 g 0 d a (t.code ++ (0 : BitVec 1))
  | .frnd g rm t d a => encS1 0x15 g rm.code d a (t.code ++ (1 : BitVec 1))
  | .cvt g td ts d a => encRI 0x16 (lentOf g a.isScalar false 0) d a.field (td.code ++ ts.code)
  | .pack g t d a b => encS2 0x17 g (t.code.extractLsb' 3 2) d a b (t.code.extractLsb' 0 3)
  | .exp2 g h d a => encS1 0x18 g ((0 : BitVec 1) ++ b1 h) d a 0
  | .log2 g h d a => encS1 0x18 g ((0 : BitVec 1) ++ b1 h) d a 1
  | .rcp g h d a => encS1 0x18 g ((0 : BitVec 1) ++ b1 h) d a 2
  | .rsqrt g h d a => encS1 0x18 g ((0 : BitVec 1) ++ b1 h) d a 3
  | .tanh g h d a => encS1 0x18 g ((0 : BitVec 1) ++ b1 h) d a 4
  | .logis g h d a => encS1 0x18 g ((0 : BitVec 1) ++ b1 h) d a 5
  | .dot4 g d a b => encS2 0x19 g 0 d a b 0
  | .dot8 g d a b => encS2 0x19 g 0 d a b 1
  | .rmax g bf d a la => encRL 0x1A false (lentOf g false false 0) d a ((0 : BitVec 2) ++ b1 bf ++ (0 : BitVec 3)) la
  | .rsum g bf d a la => encRL 0x1A false (lentOf g false false 0) d a ((0 : BitVec 2) ++ b1 bf ++ (1 : BitVec 3)) la
  | .rsumexp g bf d a la => encRL 0x1A false (lentOf g false false 0) d a ((0 : BitVec 2) ++ b1 bf ++ (2 : BitVec 3)) la
  | .rmeanvar g bf d a la => encRL 0x1A false (lentOf g false false 0) d a ((0 : BitVec 2) ++ b1 bf ++ (3 : BitVec 3)) la
  | .rnorm g d a la => encRL 0x1A false (lentOf g false false 0) d a 4 la
  | .topk g bf d a la => encRL 0x1B false (lentOf g false false 0) (sField d) (sField a) ((0 : BitVec 2) ++ b1 bf ++ (0 : BitVec 3)) la
  | .sadd g d a b => encG 0x1C g 0 (sField d) (sField a) (sField b) 0
  | .ssub g d a b => encG 0x1C g 0 (sField d) (sField a) (sField b) 1
  | .smul g d a b => encG 0x1C g 0 (sField d) (sField a) (sField b) 2
  | .sand g d a b => encG 0x1C g 0 (sField d) (sField a) (sField b) 3
  | .sor g d a b => encG 0x1C g 0 (sField d) (sField a) (sField b) 4
  | .sxor g d a b => encG 0x1C g 0 (sField d) (sField a) (sField b) 5
  | .sshl g d a b => encG 0x1C g 0 (sField d) (sField a) (sField b) 6
  | .sshr g ar d a b => encG 0x1C g ((0 : BitVec 1) ++ b1 ar) (sField d) (sField a) (sField b) 7
  | .saddi g d a imm => encRI 0x1D (lentOf g false false 0) (sField d) (sField a) ((0 : BitVec 2) ++ imm)
  | .smovi g d imm =>
    encRI 0x1D (lentOf g false false 0) (sField d) (imm.extractLsb' 8 7) ((1 : BitVec 2) ++ imm.extractLsb' 0 8)
  | .slea g d a sh => encRI 0x1D (lentOf g false false 0) (sField d) (sField a) ((2 : BitVec 2) ++ (0 : BitVec 5) ++ sh)
  | .ssetp g c p a imm => encRI 0x1D (lentOf g false false 0) (pField p) (sField a) ((3 : BitVec 2) ++ c.code ++ imm)
  | .readlane g d a b => encG 0x1E g 0 (sField d) a (sField b) 0
  | .writelane g d a b => encG 0x1E g 0 d (sField a) (sField b) 1
  | .bcast g d a b => encG 0x1E g 0 d a (sField b) 2
  | .ld acc gp sz d base off la => encRL 0x20 acc (lentMem gp sz.code) d (sField base) off la
  | .ldStrong gp acq w sc d base la =>
    encRL 0x20 false (lentMem gp 7) d (sField base) ((0 : BitVec 1) ++ b1 acq ++ b1 w.bit ++ sc.code) la
  | .ldBx acc gp w d base la => encRL 0x20 acc (lentMem gp 7) d (sField base) ((2 : BitVec 2) ++ b1 w.bit ++ (0 : BitVec 3)) la
  | .ldBfx acc gp k d base la => encRL 0x20 acc (lentMem gp 7) d (sField base) ((3 : BitVec 2) ++ (0 : BitVec 2) ++ k) la
  | .st gp sz d base off => encRL 0x21 false (lentMem gp sz.code) d (sField base) off 0
  | .stStrong gp rel w sc d base =>
    encRL 0x21 false (lentMem gp 7) d (sField base) ((0 : BitVec 1) ++ b1 rel ++ b1 w.bit ++ sc.code) 0
  | .lds acc gp sz d base off la => encRL 0x22 acc (lentMem gp sz.code) d (sField base) off la
  | .sts gp sz d base off => encRL 0x23 false (lentMem gp sz.code) d (sField base) off 0
  | .prefL1 acc gp base off => encRL 0x24 acc (lentMem gp 0) 0 (sField base) off 0
  | .prefL2 acc gp base off => encRL 0x24 acc (lentMem gp 1) 0 (sField base) off 0
  | .qpop gp w d k la => encRL 0x24 false (lentMem gp 2) d 0 ((0 : BitVec 1) ++ b1 w.bit ++ k) la
  | .fenceAcq g sc => encRU 0x25 (lentOf g false false 0) 0 ((0 : BitVec 14) ++ sc.code)
  | .fenceRel g sc => encRU 0x25 (lentOf g false false 0) 1 ((0 : BitVec 14) ++ sc.code)
  | .fenceAr g sc => encRU 0x25 (lentOf g false false 0) 2 ((0 : BitVec 14) ++ sc.code)
  | .spfence g => encRU 0x25 (lentOf g false false 0) 3 0
  | .atom gp op ord sc d base la => encRL 0x26 false (lentMem gp sc.code) d (sField base) (op.code ++ ord.code) la
  | .red gp op rel sc d base =>
    encRL 0x27 false (lentMem gp sc.code) d (sField base) (op.code ++ b1 rel ++ (0 : BitVec 1)) 0
  | .copy g d a b => encS2 0x28 g 0 d a b 0
  | .copy2d g d a b => encS2 0x28 g 0 d a b 1
  | .seal g d => encG 0x29 g 0 (sField d) 0 0 0
  | .waitb g a => encG 0x29 g 0 0 (sField a) 0 1
  | .testb g d a => encG 0x29 g 0 (sField d) (sField a) 0 2
  | .bitld acc g t a b =>
    some ⟨0x2A, acc, lentOf g a.isScalar b.isScalar 0, packRR ⟨(0 : BitVec 5) ++ t, a.field, b.field, 0⟩, []⟩
  | .bitldPitch acc g t b =>
    some ⟨0x2A, acc, lentOf g false b.isScalar 0, packRR ⟨(1 : BitVec 5) ++ t, 0, b.field, 0⟩, []⟩
  | .bitsw acc g t => some ⟨0x2A, acc, lentOf g false false 0, packRR ⟨(0 : BitVec 5) ++ t, 0, 0, 1⟩, []⟩
  | .trap g n => encRU 0x2B (lentOf g false false 0) 0 ((0 : BitVec 2) ++ n)
  | .brk g n => encRU 0x2B (lentOf g false false 0) 0 ((1 : BitVec 2) ++ n)
  | .chkerr clr d => encRU 0x2B 0 (sField d) ((2 : BitVec 2) ++ (0 : BitVec 14) ++ b1 clr)
  | .region => encRU 0x2B 0 0 ((3 : BitVec 2) ++ (0 : BitVec 15))
  | .shfl g m w d a b => encRR 0x2C (lentOf g false b.isScalar w.code) d a b.field m.code
  | .compress g d a p => encG 0x2D g 0 d a (pField p) 0
  | .expand g d a p => encG 0x2D g 0 d a (pField p) 1
  | .slideup g d a b => encG 0x2D g 0 d a (sField b) 2
  | .slidedn g d a b => encG 0x2D g 0 d a (sField b) 3
  | .voteAny g p q => encG 0x2E g 0 (pField p) (pField q) 0 0
  | .voteAll g p q => encG 0x2E g 0 (pField p) (pField q) 0 1
  | .voteBallot g d q => encG 0x2E g 0 (sField d) (pField q) 0 2
  | .reduxAdd g d a => encG 0x2E g 0 (sField d) a 0 3
  | .reduxMin g un d a => encG 0x2E g ((0 : BitVec 1) ++ b1 un) (sField d) a 0 4
  | .reduxMax g un d a => encG 0x2E g ((0 : BitVec 1) ++ b1 un) (sField d) a 0 5
  | .reduxAnd g d a => encG 0x2E g 0 (sField d) a 0 6
  | .reduxOr g d a => encG 0x2E g 0 (sField d) a 0 7
  | .rdsr d n => encRI 0x2F 0 (sField d) 0 ((0 : BitVec 4) ++ n.code)
  | .wrsr d a n => encRI 0x2F 0 (sField d) (sField a) ((1 : BitVec 4) ++ n.code)
  | .csave d a => encRI 0x2F 0 (sField d) (sField a) ((2 : BitVec 4) ++ (0 : BitVec 6))
  | .crestore d a => encRI 0x2F 0 (sField d) (sField a) ((3 : BitVec 4) ++ (0 : BitVec 6))
  | .corectlStatus d a => encRI 0x2F 0 (sField d) (sField a) ((4 : BitVec 4) ++ (0 : BitVec 6))
  | .corectlDrain d a => encRI 0x2F 0 (sField d) (sField a) ((4 : BitVec 4) ++ (1 : BitVec 6))
  | .corectlAdmit d a => encRI 0x2F 0 (sField d) (sField a) ((4 : BitVec 4) ++ (2 : BitVec 6))
  | .corectlStop d a => encRI 0x2F 0 (sField d) (sField a) ((4 : BitVec 4) ++ (3 : BitVec 6))
  | .corectlResume d a => encRI 0x2F 0 (sField d) (sField a) ((4 : BitVec 4) ++ (4 : BitVec 6))
  | .scan d a => encRI 0x2F 0 (sField d) (sField a) ((5 : BitVec 4) ++ (0 : BitVec 6))
  | .scanrd d a => encRI 0x2F 0 (sField d) (sField a) ((6 : BitVec 4) ++ (0 : BitVec 6))
  | .scanab a => encRI 0x2F 0 0 (sField a) ((7 : BitVec 4) ++ (0 : BitVec 6))
  | .cmapw d a => encRI 0x2F 0 (sField d) (sField a) ((8 : BitVec 4) ++ (0 : BitVec 6))
  | .mgnrd d a w => encRI 0x2F 0 (sField d) (sField a) ((9 : BitVec 4) ++ w)
  | .bra acc p ng off => some ⟨0x30, acc, 0, packB ⟨p, b1 ng, off⟩, []⟩
  | .jmp acc a => encCtl acc 0 (sField a) 0
  | .call acc d a => encCtl acc (sField d) (sField a) 1
  | .ret acc a => encCtl acc 0 (sField a) 2
  | .brx acc a => encCtl acc 0 a 3
  | .exit acc => encCtl acc 0 0 4
  | .regang m => encRU 0x32 0 0 ((0 : BitVec 1) ++ m)
  | .cont g np a b => encG 0x33 g 0 (pField np) (sField a) b 0
  | .contf g => encG 0x33 g 0 0 0 0 1
  | .barInit b a => encRI 0x34 0 0 (sField a) ((0 : BitVec 3) ++ b)
  | .barArrive b => encRI 0x34 0 0 0 ((2 : BitVec 3) ++ b)
  | .barWait b => encRI 0x34 0 0 0 ((4 : BitVec 3) ++ b)
  | .barSync b => encRI 0x34 0 0 0 ((6 : BitVec 3) ++ b)
  | .locq g d => encG 0x35 g 0 (sField d) 0 0 0
  | .locqAddr g d a => encG 0x35 g 0 d a 0 1
  | .give t byReg n => encTile 0x36 .none byReg false t n 0 0
  | .giveSeq t => encTile 0x36 .none false false t 0 1 0
  | .take t => encTile 0x36 .none false false t 0 0 1
  | .seqgo a => encTile 0x36 .none false false 0 a 0 2
  | .setshape g a => encTile 0x37 g false false 0 a 0 0
  | .tcfg g t => encTile 0x37 g false false t 0 0 1
  | .tfree g t => encTile 0x37 g false false t 0 0 2
  | .tzero g t => encTile 0x37 g false false t 0 0 3
  | .tadd g t d a b => encTile 0x38 g a.isScalar b.isScalar d a.field b.field ((0 : BitVec 1) ++ t.code ++ (0 : BitVec 3))
  | .tmul g t d a b => encTile 0x38 g a.isScalar b.isScalar d a.field b.field ((0 : BitVec 1) ++ t.code ++ (1 : BitVec 3))
  | .tfma g t d a b => encTile 0x38 g a.isScalar b.isScalar d a.field b.field ((0 : BitVec 1) ++ t.code ++ (2 : BitVec 3))
  | .tmax g t d a b => encTile 0x38 g a.isScalar b.isScalar d a.field b.field ((0 : BitVec 1) ++ t.code ++ (3 : BitVec 3))
  | .tmin g t d a b => encTile 0x38 g a.isScalar b.isScalar d a.field b.field ((0 : BitVec 1) ++ t.code ++ (4 : BitVec 3))
  | .tcvt g dst src d a =>
    encTile 0x39 g a.isScalar false d a.field ((0 : BitVec 4) ++ src.code) ((0 : BitVec 2) ++ dst.code ++ (0 : BitVec 1))
  | .tact g lg d a => encTile 0x39 g false false d a 0 ((0 : BitVec 4) ++ b1 lg ++ (1 : BitVec 1))
  | .rvmul g d a b => encRR 0x3A (lentOf g a.isScalar false 0) d a.field (sField b) 0
  | .unmul g d a b => encRR 0x3A (lentOf g a.isScalar false 0) d a.field (sField b) 1
  | .rvshr g d a b => encRR 0x3A (lentOf g a.isScalar false 0) d a.field (sField b) 2
  | .unshr g d a b => encRR 0x3A (lentOf g a.isScalar false 0) d a.field (sField b) 3
  | .rvnarBf16 g d a => encS1 0x3A g 0 d a 4
  | .unnarBf16 g d a => encS1 0x3A g 0 d a 5
  | .rvnarI16 g d a => encS1 0x3A g 0 d a 6
  | .unnarI16 g d a => encS1 0x3A g 0 d a 7
  | .rvadd g d a b => encS2 0x3A g 1 d a b 0
  | .unadd g d a b => encS2 0x3A g 1 d a b 1
  | .rvmark m => encRU 0x3B 0 0 ((0 : BitVec 1) ++ m)
  | .unmark m => encRU 0x3B 0 1 ((0 : BitVec 1) ++ m)
  | .rspill => encRU 0x3B 0 2 0
  | .rsfill => encRU 0x3B 0 3 0
  | .rsdepth d => encRU 0x3B 0 4 ((0 : BitVec 11) ++ d)
  | .tld td h n => encQ 0x3C 0 td ((0 : BitVec 2) ++ h) ((0 : BitVec 4) ++ n) 0 1
  | .tldTr td h e n => encQ 0x3C 0 td ((0 : BitVec 2) ++ h) ((0 : BitVec 3) ++ b1 e ++ n) 1 1
  | .tst h ta n => encQ 0x3C 0 ((0 : BitVec 4) ++ n) ta ((0 : BitVec 2) ++ h) 2 2
  | .sgather td h => encQ 0x3C 0 td ((0 : BitVec 3) ++ h) 0 3 1
  | .mma ty acc co m n td a b =>
    encQ 0x3D ((0 : BitVec 2) ++ n.code ++ m.code ++ b1 co ++ b1 acc) td a.field b.field ty.code (b1 b.v ++ b1 a.v)
  | .segh cyc sig =>
    some ⟨0x3E, false, 0, 0, [(0 : BitVec 4) ++ cyc.extractLsb' 0 12 ++ sig.extractLsb' 0 16,
      (0 : BitVec 4) ++ cyc.extractLsb' 12 12 ++ sig.extractLsb' 16 16]⟩
  | .sege => encQ 0x3E 0 0 0 0 1 0
  | .sloop n => encQ 0x3E 0 0 (n.extractLsb' 6 6) (n.extractLsb' 0 6) 2 0
  | .sloopReg k => encQ 0x3E 0 ((1 : BitVec 1) ++ k) 0 0 2 0
  | .slend => encQ 0x3E 0 0 0 0 3 0
  | .saddr x d a imm => encQ 0x3E 0 (b1 x ++ d) ((0 : BitVec 1) ++ a) imm 4 0
  | .swaitb n k => encQ 0x3E 0 n ((0 : BitVec 1) ++ k) 0 5 0
  | .sbarArrive b => encQ 0x3E 0 ((0 : BitVec 5) ++ b.extractLsb' 6 1) (b.extractLsb' 0 6) 0 6 0
  | .sbarSync b => encQ 0x3E 0 ((0 : BitVec 5) ++ b.extractLsb' 6 1) (b.extractLsb' 0 6) 1 6 0
  | .shalt => encQ 0x3E 0 0 0 0 7 0
  | .seqGive t n => encQ 0x3E 0 t n 0 8 0
  | .seqTake t => encQ 0x3E 0 t 0 0 9 0
  | .topkStart .. | .qpopComplete .. | .piccoloLoadIssue .. | .piccoloBranchEval .. | .fenceWaitComplete ..
  | .copyBatchComplete .. | .csaveComplete .. | .crestoreComplete .. | .scanabTakeEffect .. | .scanPatternsEnd ..
  | .scanClearComplete .. | .contRecordAccept .. | .gatherOverflowReadback | .giveTransit .. | .takeComplete ..
  | .seqgoStart .. | .mmaCoRendezvous .. | .seqReadDone .. | .seqWriteLanding .. | .swaitbComplete .. | .seqIdle ..
  | .longLatencyLanding .. | .sleepExpiry .. | .activeSetHoldExpiry .. | .blockedWarpRemoval .. | .siblingSkidEnd ..
  | .seqHaltDrainEnd .. | .trapRecordWrite .. | .shawmReplay .. | .escalationSettled .. | .quarantineCarryOut ..
  | .replayWindowStart .. | .pipePatternTestStart .. | .selfTestComplete .. | .warpRollback .. | .bankRebuilt .. => none
  | .launchRecordParse .. | .nodeStart .. | .hostTransferComplete .. | .teamPlace .. | .boundaryMoveComplete ..
  | .spadZeroComplete .. | .lightPreemptMark .. | .preemptDeadlineExpiry .. | .streamResume .. | .stopWalk .. => none
  | .lwinWrite .. | .tlbinvStart .. | .tlbinvComplete | .tcmdResume .. | .tcmdKill .. | .errorRecordWrite
  | .towerQuiesce .. | .towerFenced .. | .towerRelease .. | .towerReset .. | .towerUp .. | .bridgeWakeStart ..
  | .bridgeAwake .. | .linkWakeFail .. | .towerDead .. | .powerOnBoot | .attestRequest .. | .attestReport | .mgncWrite ..
  | .qcmdSpare .. | .qcmdWithdraw .. | .qcmdRebind .. | .qladdAdd .. | .qladdRemove .. | .qladdStored | .ckptSave ..
  | .ckptConsistencyPoint | .ckptCopyComplete .. | .ckptRestore .. | .linkTrain .. | .linkDown .. => none
  | .pageHandoverRequest .. | .pageGrant .. | .hostCxlAccess .. | .cntfrzWrite .. | .registerWrite .. | .storePerformed ..
  | .hostSnoop .. | .peerRequest .. | .bridgeSleep .. | .linkUp .. | .powerManagerClockChange .. | .checkpointRestoreDone .. =>
    none

/-- What the decoder reads from an encoded instruction. -/
def decodeEnc (e : Enc) : Decoded :=
  match e.tail with
  | [e1, e2] => decSegh (bodyT e.body) e1 e2
  | _ => decodeWord (seqMajor e.op) e.lent (e.word true)

end Sys2Proof
end

