-- ==== Sys2Proof/Config.lean ====
section
/-! DEFINITION. What one implementation fixes, and the free values: constants without a body, applied to a counter of State
or to their operands, so that no proof can see what they are. -/

namespace Sys2Proof.Config

/-- A choice of the device that the spec leaves open between two values (R115, R259, R238). -/
opaque freeBit : Nat → Bool
/-- A byte the spec states no value for: data of a load that received an error completion (R438), an entry that gives way in a full
operand cache (R319). -/
opaque freeByte : Nat → BitVec 8
/-- A free-running tower counter at a hub cycle (R470): counter 16·tower + k, hub cycle. -/
opaque freeCounter : Nat → Nat → BitVec 64
/-- What the security engine derives from its secret for the identity's private key (R443). -/
opaque identityScalar : List (BitVec 8) → Nat
/-- What the security engine draws for attempt `i` at a signature (R444): secret, message, attempt. -/
opaque signNonce : List (BitVec 8) → List (BitVec 8) → Nat → Nat
/-- The scan signature that an image's body holds (R341, R439). -/
opaque scanSignature : List (BitVec 8) → BitVec 64
/-- Where the boot sequence loads an image: the virtual address of its body's first byte in the hub control core's space, and the
root of that space's page tables (R439). -/
opaque hubBase : BitVec 64
opaque hubRoot : Nat
/-- Code of the lanes of the hub control core's warp at its release (R439): 16, 32 or 64. -/
opaque hubWidth : BitVec 2

end Sys2Proof.Config
end

