-- ==== Sys2Proof/Machine/Sparse.lean ====
section
/-! DEFINITION. Sparse maps as plain data: lists of (key, value) in ONE canonical form, keys strictly rising and no entry
equal to what an unlisted key reads as, so that equal maps are equal lists. Memory, registers and tiles are held so. -/

namespace Sys2Proof.Machine

/-- What key `k` holds: its entry, or `d` when no entry is listed. -/
def sget {α : Type} (d : α) : List (Nat × α) → Nat → α
  | [], _ => d
  | (a, v) :: r, k => if a = k then v else sget d r k

/-- Drop key `k`. -/
def sdrop {α : Type} : List (Nat × α) → Nat → List (Nat × α)
  | [], _ => []
  | (a, v) :: r, k => if a = k then sdrop r k else (a, v) :: sdrop r k

/-- Key `k` gets value `v`; the canonical form is kept. -/
def sput {α : Type} [DecidableEq α] (d : α) : List (Nat × α) → Nat → α → List (Nat × α)
  | [], k, v => if v = d then [] else [(k, v)]
  | (a, w) :: r, k, v =>
    if k < a then (if v = d then (a, w) :: sdrop r k else (k, v) :: (a, w) :: r)
    else if a = k then (if v = d then sdrop r k else (k, v) :: r)
    else (a, w) :: sput d r k v

/-- Keys strictly rising from `lo`, no entry equal to the default. -/
def swfFrom {α : Type} [DecidableEq α] (d : α) : Nat → List (Nat × α) → Bool
  | _, [] => true
  | lo, (a, v) :: r => decide (lo ≤ a) && decide (v ≠ d) && swfFrom d (a + 1) r

/-- The canonical form. -/
def swf {α : Type} [DecidableEq α] (d : α) (m : List (Nat × α)) : Bool := swfFrom d 0 m

/-- Drop the keys from `lo` below `hi`. -/
def sdropRange {α : Type} (m : List (Nat × α)) (lo hi : Nat) : List (Nat × α) :=
  m.filter fun p => decide (p.1 < lo) || decide (hi ≤ p.1)

/-- The entry of key `k`, in a map whose absent keys hold nothing. -/
def sfind {α : Type} : List (Nat × α) → Nat → Option α
  | [], _ => none
  | (a, v) :: r, k => if a = k then some v else sfind r k

/-- Key `k` gets entry `v`, keys rising. -/
def sinsert {α : Type} : List (Nat × α) → Nat → α → List (Nat × α)
  | [], k, v => [(k, v)]
  | (a, w) :: r, k, v => if k < a then (k, v) :: (a, w) :: r else if a = k then (k, v) :: r else (a, w) :: sinsert r k v

/-- Change the entry of key `k`, if there is one. -/
def smodify {α : Type} (m : List (Nat × α)) (k : Nat) (f : α → α) : List (Nat × α) :=
  match m with
  | [] => []
  | (a, v) :: r => if a = k then (a, f v) :: r else (a, v) :: smodify r k f

end Sys2Proof.Machine
end

