-- ==== Sys2Proof/Machine/State.lean ====
section
/-! DEFINITION. The state of the device as plain data: everything the spec gives the machine, and the model's own
fields (agenda, cursor, view, fresh, nextId). Sparse maps have the canonical form of Machine/Sparse.lean.

Keys. A core is named by its selector of R331, 256·tower + physical core; 1024 is the hub control core. A memory location
is a Nat: the physical address of R404 below 2^52 (device memory from 0, host memory from 2^39, peer memory from 2^51), and
2^60 + 2^20·core + offset for a scratchpad byte. -/

namespace Sys2Proof.Machine
open Sys2Proof

/-- Why a step can stop with a fault. -/
inductive Fault where
  /-- `exec` was asked for a word of a warp or sequencer that does not exist; `step` never asks so. Safe. -/
  | noActor
  deriving DecidableEq, Repr

/-- Why a step can be refused. -/
inductive Refusal where
  /-- An instruction without a meaning yet, raised by its arm of `exec`. Safe. -/
  | notModelled (mnemonic : String)
  deriving DecidableEq, Repr

/-! ### Traps (R345, R408) -/

/-- Trap causes (Table 16.5). -/
inductive Cause where
  | illStream | illInstr | illEncoding | illOperand | illOverlap | illConvergence | illTarget | privileged
  | regRange | tileRange | tileOwn | tileBusy | laHazard
  | align | pageFault | protection | spadRange | spadEarly | bxRange
  | serpentLifo | serpentOvf | revLoss | seqSlot | seqOrder | trap | brk | cstop
  deriving DecidableEq, Repr

/-- A trap with the fields its record carries (Table 25.4). -/
structure Trap where
  cause : Cause
  faddr : DWord := 0
  lane : Nat := 0
  wr : Bool := false
  kind : Nat := 15
  level : Nat := 0
  tagx : Byte := 0
  tagf : Byte := 0
  deriving DecidableEq, Repr

/-! ### Memory in flight (chapter 04) -/

/-- What a store that has issued and is not yet performed does (R99, R95, R110). -/
inductive StoreOp where
  | bytes (loc : Nat) (bs : List Byte)
  | red (loc : Nat) (op : AtomOp) (b : DWord)
  /-- Every entry that a BITLD writes for its lanes, in order: one single-copy atomic group (R98). -/
  | bitld (ctx t : Nat) (lanes : BitVec 64) (es : List (Nat × Half))
  | bitpitch (ctx t : Nat) (v : Word)
  | bitsw (ctx t : Nat)
  /-- No store: the place of a FENCE.rel among them (R108). -/
  | mark
  deriving DecidableEq, Repr

/-- A store issued and not yet performed with respect to every thread (R101, R103). `agent` issued it, for the thread `thr` (R106).
`level` says who sees it: 0 its agent alone, 1 the agent's core, 2 its cluster, 3 every agent of the device, but not yet the home
agent of host or peer memory (R118). `after` are the stores that bind it: it may reach a level up to the one given only after that
store has (R106 to R108). `si` says its page is self-invalidating (R89), and `late` which L1 domains still hold an older copy (R103).
`word` is the number of the first store of its instruction (R423). (DEDUCED, log entry 15.) -/
structure PendStore where
  id : Nat
  agent : Nat
  thr : Nat
  level : Nat
  strong : Option Scope
  after : List (Nat × Nat)
  si : Bool
  late : List Nat
  word : Nat
  op : StoreOp
  deriving DecidableEq, Repr

/-- A domain that still reads the old byte of a performed store (R103): from a copy of an SI line, which an acquire drops, or of a line
of a page mapped RO, which only an invalidation drops (R90). -/
structure Stale where
  id : Nat
  dom : Nat
  loc : Nat
  old : Byte
  ro : Bool
  deriving DecidableEq, Repr

/-- A cached entry (R406) of context `ctx`: a leaf, which serves any address of its page, numbered `page`; or, with `level` below 3,
the pointer entry that a walk found at that level for the addresses whose higher bits are `page`. -/
structure TlbEntry where
  ctx : Nat
  level : Nat
  page : Nat
  leaf : DWord
  deriving DecidableEq, Repr

/-- The state of one beam indirection table (R92): entries hold their difference from the entry's number. -/
structure BeamTable where
  bank0 : List (Nat × Half)
  pitch0 : Word
  bank1 : List (Nat × Half)
  pitch1 : Word
  act : Bool
  deriving DecidableEq, Repr

/-! ### Warps (chapters 01, 02, 06, 12, 13) -/

/-- A register a long-latency result lands in (R187). -/
inductive Dest where
  | v (r : Nat)
  | s (r : Nat)
  deriving DecidableEq, Repr

/-- What lands for a long-latency word (R187, R238). -/
inductive LandOp where
  /-- A load of `size` bytes for each lane (log entry 18); `sx` sign-extends; `acq` its acquire scope. -/
  | load (size : Nat) (sx : Bool) (acq : Option Scope) (lanes : List (Nat × Nat))
  /-- A bit-field load (R97): each lane's window of 32 bytes by location. -/
  | bfx (pat : DWord) (lanes : List (Nat × List Nat))
  /-- An atomic (R257): lane, location, the level of the site where it executes (Table 4.4), whether the page may hold stale copies, b
  or the expected value, new value. -/
  | atom (op : AtomOp) (ord : AtomOrd) (sc : Scope) (lanes : List (Nat × Nat × Nat × Bool × DWord × DWord))
  /-- A result computed already: register, lane, value. -/
  | values (vs : List (Nat × Nat × Word))
  /-- A scalar result computed already. -/
  | scalar (x : DWord)
  /-- TOPK (R238): the runs of its row and of its two areas, translated at issue; an area's run says whether its page may hold
  stale copies. -/
  | topk (bf : Bool) (n k : Nat) (started : Bool) (row : List (Nat × Nat)) (val idx : List (Nat × Nat × Bool))
  deriving DecidableEq, Repr

/-- A long-latency word in flight (R187, R188). `base` is the count of its gang's counted words at the issue. `got` holds the values
that some of its lanes have read already, which its landing writes, and `psn` says that poison came with one. -/
structure Pending where
  id : Nat
  slices : BitVec 16
  base : Nat
  la : Nat
  lanes : BitVec 64
  dests : List Dest
  op : LandOp
  got : List (Nat × Nat × Word) := []
  psn : Bool := false
  deriving DecidableEq, Repr

/-- What a slice's gang waits for (R35, Table 25.8). (DEDUCED, log entry 30.) -/
inductive Wait where
  | regang (mask : BitVec 16)
  | bar (b : Nat) (token : Bool) (clearArr : Bool)
  | take (t : Nat)
  | waitb (n : Nat)
  | qpop (w : Width) (d : VReg) (k : Nat) (la : Nat) (lanes : BitVec 64)
  | sleep (till : Nat)
  | seqgo (addr : DWord)
  | fence (acq rel : Bool) (sc : Scope) (lanes : BitVec 64)
  | spfence
  | give (t : Nat) (dst : Option Nat)
  | cont (np : Nat) (entry : DWord) (recs : List (Nat × List DWord))
  | contf
  | csave (d : SReg) (core : Nat) (addr : DWord) (probed : Bool)
  | crestore (d : SReg) (core : Nat) (addr : DWord)
  deriving DecidableEq, Repr

/-- One slice (R21, R23, R25). Slices with equal `gang` form a gang. While a slice has a wait, `pc` stays at the waiting
bundle, `resume` is where it continues, and `leaving` says that it retires there instead. -/
structure Slice where
  pc : DWord
  gang : Nat
  retired : Bool
  mode : DWord
  fmt : DWord
  waits : List Wait
  resume : DWord
  leaving : Bool
  count : Nat
  deriving DecidableEq, Repr

/-- A region entry (R335), with the slices that had not retired at it (R428). -/
structure Region where
  pc : DWord
  d0 : Nat
  nb : Nat
  alive : BitVec 16
  deriving DecidableEq, Repr

/-- A copy issued and not complete (R259, R261): the lane that placed it, its operands as runs in order, where a destination's run
says whether its page may hold stale copies, and its first source and destination address for an error record. -/
structure CopyJob where
  id : Nat
  batch : Nat
  lane : Nat
  src : List (Nat × Nat)
  dst : List (Nat × Nat × Bool)
  src0 : DWord
  dst0 : DWord
  deriving DecidableEq, Repr

/-- Piccolo's side of a sliced warp (R250, R251, R276): for each slice the pc of its access slice, with the instructions by which that is
ahead; the outcomes recorded of control words, oldest first, by slice with whether a branch is taken; the bundles whose loads have been
performed, with the slices that have still to pass them and are not that far ahead; and a fault held for the execute slice. -/
structure Piccolo where
  at_ : List (Nat × DWord × Nat)
  outcomes : List (Nat × Bool)
  passed : List (DWord × BitVec 16)
  held : Option (DWord × Trap)
  deriving DecidableEq, Repr

/-- A warp's own trap (R46), with the bundle's address and its length in words. -/
structure OwnTrap where
  trap : Trap
  pc : DWord
  oseq : Nat
  gang : Nat
  len : Nat
  deriving DecidableEq, Repr

/-- A warp (R19, R47). `v` is keyed 64·register + lane, `serp` 64·word + lane; `started` once it has issued a bundle. -/
structure Warp where
  grid : Nat
  team : Nat
  num : Nat
  width : Nat
  win : Nat
  active : BitVec 64
  slices : List Slice
  v : List (Nat × Word)
  s : List (Nat × DWord)
  p : List (Nat × BitVec 64)
  q : List (Nat × List (List Word))
  shape : DWord
  rsb : DWord
  rsp : DWord
  rlim : Nat
  bx : List (Nat × DWord)
  serp : List (Nat × Word)
  tags : List (Nat × Byte)
  depth : Nat
  spilled : Nat
  nb : Nat
  jobs : List CopyJob
  region : Option Region
  arr : List (Nat × Bool)
  pending : List Pending
  picc : Piccolo
  trap : Option OwnTrap
  skid : Nat
  stopped : Bool
  inSet : Bool
  enteredAt : Nat
  lastIssue : Nat
  readyAt : Nat
  yielded : Bool
  started : Bool
  deriving DecidableEq, Repr

/-! ### Teams (chapters 01, 02, 03) -/

/-- Who owns a pool tile (R61). -/
inductive Owner where
  | free
  | warp (slot : Nat)
  | seq
  | transitWarp (slot : Nat)
  | transitSeq
  deriving DecidableEq, Repr

/-- A pool tile's owner field and, in transit, its giver's slot (R37, R61). -/
structure TileState where
  owner : Owner
  giver : Nat
  deriving DecidableEq, Repr

/-- A named barrier (R278). -/
structure Barrier where
  e : Nat
  count : Nat
  phase : Bool
  deriving DecidableEq, Repr

/-- A team (R28). Half 0 is its even or only core, half 1 the odd core of a pair, whose key is `odd`. `tiles` is keyed 64·half + tile, `words`
1024·(64·half + tile) + 32·row + column, the sequencer's ARR bits and tokens 128·half + barrier. `lastNb` keeps NB of retired warps by
number (R325), `haltAt` the core cycle of the halt (R46), `tcfgAt` the slot and the cycle of the last TCFG of a tile (R66), and `byStop` says that CORECTL STOP or CRESTORE halted it (Table 16.3). -/
structure Team where
  grid : Nat
  num : Nat
  core : Nat
  paired : Bool
  odd : Nat
  halted : Bool
  cause : Option (Trap × DWord × Bool × Nat)
  pair : Nat × Nat
  recWait : Bool
  haltAt : Nat
  byStop : Bool
  cir : DWord
  tiles : List (Nat × TileState)
  tcfgAt : List (Nat × Nat × Nat)
  words : List (Nat × Word)
  bars : List (Nat × Barrier)
  seqArr : List (Nat × Bool)
  lastNb : List (Nat × Nat)
  zeroing : Bool
  deriving DecidableEq, Repr

/-! ### The sequencer (chapter 15) -/

/-- An operand-cache entry (R319): handle, generation, and the scratchpad bytes its reads returned. -/
structure CacheEntry where
  handle : Nat
  gen : Half
  bytes : List (Nat × Byte)
  deriving DecidableEq, Repr

/-- Where a sequencer write lands. -/
inductive LandRow where
  | tile (t row : Nat)
  | spad (da db : Word) (tile row : Nat)
  deriving DecidableEq, Repr

/-- A row of 32 words due to land (R310, R412): the cycle, the issue cycle of its operation, the place, which words it writes and
their values. -/
structure Landing where
  at_ : Nat
  by_ : Nat
  row : LandRow
  mask : Word
  words : List Word
  deriving DecidableEq, Repr

/-- The kind of a sequencer operation in flight. An MMA names its sources by tile or by handle with the descriptor read at issue, and
says for each whether it takes cached values (R319). (DEDUCED, log entry 44.) -/
inductive SeqKind where
  | tld (td : Nat) (da db : Word) (n : Nat)
  | tldTr (td : Nat) (da db : Word) (e32 : Bool) (n : Nat)
  | tst (ta : Nat) (da db : Word) (n : Nat)
  | sgather (td : Nat) (ptr idx val : Word) (ctl : DWord)
  | mma (ty : MmaTy) (acc : Bool) (m n : Nat) (td : Nat) (a b : Option Nat) (da : DWord × DWord) (db : DWord × DWord)
    (ha hb : Nat) (ca cb : Bool)
  deriving DecidableEq, Repr

/-- A sequencer operation in flight: its issue cycle, its bundle, its kind, its extra landing delay (R82), how many sequencer cycles of
its reads are done, the words it has read, keyed by operand, tile, row and column, and the number of the rendezvous of a co-operative
MMA (R318), 0 for any other. -/
structure SeqOp where
  c : Nat
  pc : DWord
  kind : SeqKind
  late : Nat
  done : Nat
  data : List (Nat × Word)
  co : Nat
  deriving DecidableEq, Repr

/-- A code segment (R321, R322). -/
structure Segment where
  pc : DWord
  cyc : BitVec 24
  sig : Word
  count : Nat
  crc : Word
  settled : Bool
  alarmed : Bool
  deriving DecidableEq, Repr

/-- What the sequencer waits for (R307). The bundle of an MMA.co, of `len` words, waits as a whole until it meets its partners. -/
inductive SeqWait where
  | none
  | take (t : Nat)
  | swaitb (n : Nat) (upto : DWord)
  | bar (b : Nat) (token : Bool)
  | mmaCo (i : Instr) (len : Nat)
  | replay (till : Nat)
  | stopped
  deriving DecidableEq, Repr

/-- A tensor sequencer (Table 15.1, R328, R427). `issued` once the bundle of sequencer cycle `cycle` has issued; `slots` holds the
cycle from which each of QL, QM, QS is free. `queue` holds the waiting SEQGOs: slot, slice, address, and the registers read at their issue
(R304). `coGo` is the number of the rendezvous under which the waiting bundle of an MMA.co issues next, or 0. -/
structure Seq where
  running : Bool
  team : Nat
  half : Nat
  pc : DWord
  c : List (Nat × DWord)
  gen : List (Nat × Half)
  loops : List (Nat × DWord)
  seg : Option Segment
  copy : List (Nat × DWord) × List (Nat × Half)
  cache : List CacheEntry
  ops : List SeqOp
  landings : List Landing
  cycle : Nat
  issued : Bool
  settling : Bool
  armed : Bool
  ended : Bool
  wait : SeqWait
  queue : List (Nat × Nat × DWord × List (Nat × DWord))
  captured : List Landing
  slots : List (Nat × Nat)
  coGo : Nat
  deriving DecidableEq, Repr

/-! ### Cores (chapters 16, 26, 28) -/

/-- Where a scan stands (R341). -/
inductive ScanPhase where
  | idle | running | clearing (aborted : Bool) | done | aborted
  deriving DecidableEq, Repr

/-- A core's scan (R341, R459). `auto` marks the scan of a core that a spare has replaced (R453). -/
structure Scan where
  phase : ScanPhase
  start : Nat
  elapsed : Nat
  sig : DWord
  abortAt : Option Nat
  clearFrom : Nat
  auto : Bool
  deriving DecidableEq, Repr

/-- An issue that may be repeated (R448, R449): the bundle's address, whether the sequencer issues it, the slot and the slices of the gang,
and whether it is the bundle's second issue group (R191). -/
structure IssueKey where
  pc : DWord
  sq : Bool
  slot : Nat
  slices : Nat
  second : Bool
  deriving DecidableEq, Repr

/-- A core's margin system (R445 to R452). `inForce` is MGN_CTL as the window under way applies it, and `wrote` the core cycle of its last write with
MGN_CTL and ESCN as they were before that cycle, and whether CLR was written (R338, R446). `repeatOf` is the issue whose replay escalated last, and `reqHost` and `trigHost` hold FNMODE.MESC as it was when the request and
the pending test were raised (R432). -/
structure Margin where
  ctl : DWord
  inForce : DWord
  wrote : Option (Nat × DWord × Nat × Bool)
  vnow : Nat
  vold : Nat
  newV : Bool
  endHold : Bool
  held : Bool
  qreq : Bool
  qpair : Nat × Nat
  tpend : Bool
  total : Nat
  win : Nat
  run : Nat
  runOf : Option IssueKey
  repeatOf : Option IssueKey
  escn : Nat
  esct : Nat
  lpc : DWord
  lsq : Bool
  lslot : Nat
  settling : Bool
  window : Nat
  origin : Nat
  trigger : Nat × Nat
  seqTest : Option (Nat × Nat)
  testing : Option Nat
  reqEngine : Option Nat
  reqReady : Bool
  reqHost : Bool
  trigHost : Bool
  deriving DecidableEq, Repr

/-- A failed bank under rebuild (R70): its store, its number, the spare it is copied to, and the record that named it. -/
structure BankFail where
  ua : Bool
  bank : Nat
  spare : Nat
  pair : Nat × Nat
  deriving DecidableEq, Repr

/-- An uncorrectable error latent in core state, consumed by the next read of its place (R425): the unit of CORE_UE, the slot of the
warp whose state it is, or 32 for none, and the place in it. For unit 0 a window register as 64·register + lane; for 1 a scalar
register, 64 + a predicate, 72 + a queue, or 88 + the number of a special register; for 2 the offset of a scratchpad word; for 3 a tile word as
1024·(64·half + tile) + 32·row + column, with the team in `slot`; for 5 tile owners 0, barriers 1, SEMAP 2 or the halt logic 3.
(DEDUCED, log entry 69.) -/
structure Latent where
  unit : Nat
  slot : Nat
  place : Nat
  deriving DecidableEq, Repr

/-- An issue of a gang that is to be repeated: the core cycle from which it may be, and the vector, scalar and predicate registers and CIR as the
first attempt read them (R448). -/
structure Replay where
  slot : Nat
  slices : BitVec 16
  till : Nat
  v : List (Nat × Word)
  s : List (Nat × DWord)
  p : List (Nat × BitVec 64)
  cir : DWord
  deriving DecidableEq, Repr

/-- A core (R33, R75, R87, R189, R340). `warps` is keyed by slot. `moving` holds the boundary and the fusion that a move under way leads to,
and the core cycle of its start (R397). `spares` are its spare banks by store; `corrected` the corrected
rows with their times; `secded` counts corrected single-bit errors of the warps' other files (R71); `rollback` the slots that roll back, each with the record that is its cause
and FNMODE.ERR as it was then (R432); `replays` the gangs that repeat an issue (R448). -/
structure Core where
  warps : List (Nat × Warp)
  seq : Seq
  segs : Nat
  fused : Bool
  moving : Option (Nat × Bool × Nat)
  semap : DWord
  hasSemap : Bool
  drain : Bool
  scan : Scan
  mgn : Margin
  banks : List BankFail
  spares : List (Bool × Nat)
  corrected : List (Bool × Nat × Nat × Nat)
  secded : Nat
  latent : List Latent
  rollback : List (Nat × (Nat × Nat) × Bool)
  replays : List Replay
  topkQ : List (Nat × Nat)
  deriving DecidableEq, Repr

/-! ### The dispatcher (chapter 23) -/

/-- A launch record (Table 23.2). -/
structure LaunchRec where
  entry : DWord
  ctx : Nat
  prio : Nat
  paired : Bool
  l1fuse : Bool
  slice : Bool
  debug : Bool
  spdbg : Bool
  xearly : Bool
  width : Nat
  win : Nat
  warps : Nat
  pool : Nat
  spad : Nat
  teams : Nat
  threads : Nat
  cogrp : Nat
  pinbase : Nat
  pinstr : Nat
  pin : Bool
  spill : Nat
  spillsz : Nat
  smask : DWord
  sinit : Nat
  ssw : Nat
  tag : Nat
  depv : Nat
  deps : DWord
  ivs : List DWord
  xfers : List (DWord × DWord × Nat)
  compl : DWord
  ovf : Nat
  ovfsz : Nat
  pdl : Nat
  seq : Nat
  deriving DecidableEq, Repr

/-- A launch window (Table 23.1). `susp` holds the class of the node whose mark suspended the stream, `lastDone` the hub cycle and the class
of the last node that completed (R395). -/
structure Window where
  en : Bool
  pre : Bool
  base : Nat
  nseq : Nat
  stop : Bool
  susp : Option Nat
  lastDone : Option (Nat × Nat)
  ss : List (Nat × DWord)
  deriving DecidableEq, Repr

/-- A node of the scoreboard (R388, R389): its window, record, table values, transfers by state (0 waiting, 1 running, 2
done), when it became ready, its grid once started, its mark with the time, and whether it failed a transfer. -/
structure Node where
  win : Nat
  lr : LaunchRec
  scal : List (Nat × DWord)
  xst : List (Nat × Nat)
  readyAt : Option Nat
  grid : Option Nat
  mark : Option Nat
  fullSwitch : Bool
  failed : Bool
  placedAt : Nat
  deriving DecidableEq, Repr

/-- The part of a team that CSAVE took from one core and no CRESTORE has loaded since (R415): its grid is not over. What it held is in the save
area alone. (DEDUCED, log entry 37.) -/
structure SavedPart where
  num : Nat
  odd : Bool
  deriving DecidableEq, Repr

/-- A grid (R27, R31, R43): `parent` for a child grid, the teams still to place (those from `nextTeam` on and those of `gaps`), the parts of its teams that are saved, the CIR
sums of its ended teams, and the cause pair of its end by a tower's death (R436). -/
structure Grid where
  win : Nat
  lr : LaunchRec
  scal : List (Nat × DWord)
  parent : Option Nat
  nextTeam : Nat
  gaps : List Nat
  childTeams : List (Nat × DWord × List (List DWord))
  saved : List SavedPart
  killed : Bool
  retired : Bool
  psn : Bool
  rbk : Bool
  pcnt : Nat
  endPair : Nat × Nat
  deriving DecidableEq, Repr

/-- An open group of the gatherer (R42): emitting grid, entry PC, payloads in acceptance order. -/
structure Group where
  grid : Nat
  entry : DWord
  recs : List (List DWord)
  deriving DecidableEq, Repr

/-- The continuation gatherer (R42, R44, R394). -/
structure Gatherer where
  seq : Nat
  groups : List Group
  overflow : List (Nat × Nat)
  ovfNext : List (Nat × Nat)
  full : Bool
  deriving DecidableEq, Repr

/-! ### Management (chapters 25 to 30) -/

/-- An error record (Table 26.2). -/
structure ErrRecord where
  src : Nat
  sseq : Nat
  event : Nat
  sev : Nat
  cls : Nat
  pair : Nat × Nat
  launch : Option DWord
  addr : DWord
  d0 : DWord
  d1 : DWord
  d2 : DWord
  deriving DecidableEq, Repr

/-- A context (Table 25.1). -/
structure Context where
  en : Bool
  root : Nat
  tqlog : Nat
  tqbase : Nat
  tqhead : Nat
  tqtail : Nat
  msiv : Nat
  deriving DecidableEq, Repr

/-- States of a tower (Table 26.8). -/
inductive TowerPhase where
  | run | quiescing | fenced | resetting | waking | dead
  deriving DecidableEq, Repr

/-- A tower (R433 to R438): its registers, and per bridge the start of a wake, or the record that says it failed; the requests outstanding to it
by number with the hub cycle from which their dead timers run; whether a reset in progress is an error reset, and the L1 lines it lost; the
record of its death; whether firmware resets it on its own (R432). -/
structure Tower where
  op : Nat
  go : Bool
  phase : TowerPhase
  err : Nat
  awake : Nat
  wakes : List (Nat × Nat)
  failed : List (Nat × Nat × Nat)
  timers : List (Nat × Nat)
  errorReset : Bool
  lost : Nat
  deadRec : Nat × Nat
  fwReset : Bool
  deriving DecidableEq, Repr

/-- Per-page states between devices (Table 4.7). -/
inductive PageState where
  | i | s | m
  deriving DecidableEq, Repr

/-- A request of a device for a page (R120). -/
structure PageReq where
  port : Nat
  page : Nat
  excl : Bool
  asked : Bool
  deriving DecidableEq, Repr

/-- A Balan Link port (Table 30.3). -/
structure Port where
  en : Bool
  up : Bool
  lanes : Nat
  repl : Nat
  drop : Nat
  deriving DecidableEq, Repr

/-- The checkpoint engine (Table 30.1): the fields of CKCTL as written, and the operation that runs or ran last with its destination;
`image` and `imagePsn` are device memory and its poisoned sectors as a save is to copy them (R465). -/
structure Ckpt where
  regOp : Nat
  regDest : Nat
  op : Nat
  go : Bool
  dest : Nat
  phase : Nat
  err : Nat
  prog : Nat
  npsn : Nat
  msi : Nat
  image : List Host.Cell
  imagePsn : List Nat
  deriving DecidableEq, Repr

/-- Boot, fuses, flash and the management controller's store (R439 to R443): `scanSig` is the expected scan signature of the image, and `cert` the vendor's
certificate. -/
structure Boot where
  phase : Nat
  slot : Nat
  err : Nat
  err1 : Nat
  svn : Nat
  flash : List (List Byte)
  rootHash : List Byte
  minSvn : Nat
  fails : List (Nat × List Nat)
  secret : List Byte
  imgHash : List Byte
  scanSig : DWord
  cert : List Byte
  quarantined : List Nat
  map : List (Nat × Nat)
  mapgen : Nat
  deriving DecidableEq, Repr

/-- The error log's registers and records not yet written, and the sources that a full buffer holds (R422). -/
structure ErrLog where
  log2 : Nat
  base : Nat
  head : Nat
  tail : Nat
  drop : Nat
  msi : Nat
  queue : List ErrRecord
  held : List Nat
  deriving DecidableEq, Repr

/-- Command registers with a GO bit: TLBINV, TCMD, QCMD, QLADD, ATTCTL as last written, and the commands that run, by the values written with GO; GO reads 1 while
one runs. `attRun` is the buffer of the attestation request that runs. -/
structure Commands where
  tlbinv : DWord
  tlbRun : List DWord
  tcmd : DWord
  tcmdRun : List DWord
  qcmd : DWord
  qcmdRun : List DWord
  qladd : DWord
  qladdGo : Bool
  attBuf : Nat
  attRun : Option Nat
  attErr : Nat
  deriving DecidableEq, Repr

/-- A place of the register file or the unified array: a register of a warp's window, a word of a team's pool, a word of a core's
scratchpad (R69). -/
inductive Symbol where
  | window (core slot r lane : Nat)
  | pool (team half tile row col : Nat)
  | spad (core off : Nat)
  deriving DecidableEq, Repr

/-- What an agent of the device, or an event outside it, does next. What the cores hold in L1 is no state of its own (R86).
(DESIGN CHOICE, log entry 1.) -/
inductive Move where
  /-- A gang issues its next bundle. -/
  | issue (core slot slice : Nat)
  /-- One sequencer cycle of a core. -/
  | seqCycle (core : Nat)
  /-- An event of the opcode table. -/
  | event (i : Instr)
  /-- Hub cycles and core cycles pass. -/
  | tick (hub core : Nat)
  /-- The device caches the translation of an address, or the pointer entry of a level of its walk, or drops one (R406). -/
  | cache (ctx : Nat) (va : DWord) (level : Nat)
  | uncache (k : Nat)
  /-- An L1 domain evicts its copy of a line (R103). -/
  | evict (dom loc : Nat)
  /-- An uncorrectable error strikes a core's state (R69, R71); a corrected one a bank's row, `again` when it persists on a re-read
  (R70); an uncorrectable one a memory sector, in L2 when `l2`, or a dirty L1 line of a core (R423). -/
  | upset (core : Nat) (u : Latent)
  | corrected (core : Nat) (ua : Bool) (bank row : Nat) (again : Bool)
  | sector (pa : Nat) (l2 : Bool)
  | line (core pa : Nat)
  /-- A datapath checker flags a warp's bundle or the matrix path (Table 26.5). -/
  | checker (core slot : Nat) (sq : Bool)
  /-- Two bad symbols of a row decode as one bad symbol in a third place: a word reads otherwise from now on, unreported (R69). -/
  | miscorrect (at_ : Symbol) (w : Word)
  /-- A single-bit error of a warp's scalar or other SECDED file is corrected (R71). -/
  | singleBit (core : Nat)
  /-- The host writes bytes of its own memory, by host address (R117, R118, R380). -/
  | hostWrite (hpa : Nat) (bs : List Byte)
  /-- A peer reads, or writes with bytes, device memory of this device under a UC mapping (R119). -/
  | peerAccess (port pa : Nat) (wr : Option (List Byte)) (n : Nat)
  /-- A peer that holds a page of this device M writes bytes of it back (R120). -/
  | peerWrite (port pa : Nat) (bs : List Byte)
  /-- The attestation request that runs receives an error completion, with the first `n` bytes of its report written (R444). -/
  | attestError (n : Nat)
  /-- A port sends flits again (LNKSTAT.REPL, R467). -/
  | flits (port n : Nat)
  /-- Some lanes of a word in flight perform their accesses: before the others, or before its result lands (R98, R187). -/
  | landLanes (core slot id : Nat) (lanes : BitVec 64)
  /-- A copy performs `n` bytes from byte `a` of what it has still to move (R98, R115). -/
  | copyPart (core slot copy a n : Nat)
  /-- The checkpoint engine's copy has come to a number of GiB (CKSTAT.PROG, R463), with any part of its bytes moved. -/
  | ckptCopied (gib : Nat)
  /-- The copy that the checkpoint engine runs ends without an error (R464, R466). -/
  | ckptDone
  /-- Hub firmware walks one step further in the stop of a grid of which a full context switch is requested (R395, R413). -/
  | fullSwitch (grid : Nat)
  deriving DecidableEq, Repr

/-- Whose word `exec` runs: the gang's slices, the bundle's address and length in words; `moved` once a word has set the
next pc itself, `checked` once the bundle's checks have passed (R192). (DESIGN CHOICE, log entry 9.) -/
structure Cursor where
  core : Nat
  slot : Nat
  slices : BitVec 16
  pc : DWord
  len : Nat
  sq : Bool
  moved : Bool
  checked : Bool
  deriving DecidableEq, Repr

/-- The device. `clock` is the arithmetic clock in MHz (R469), and `hubPhase` the time that has passed of the hub's next cycle, in parts of
which a hub cycle has `clock` and a core cycle 1,600 (R6). -/
structure State where
  hubNow : Nat
  coreNow : Nat
  mem : List Host.Cell
  poison : List Nat
  pend : List PendStore
  stale : List Stale
  fills : List (Nat × Nat)
  tlb : List TlbEntry
  beams : List (Nat × BeamTable)
  ctxs : List (Nat × Context)
  cores : List (Nat × Core)
  teams : List (Nat × Team)
  grids : List (Nat × Grid)
  wins : List (Nat × Window)
  nodes : List Node
  reserved : List (Nat × Nat × Nat)
  gather : Gatherer
  seqs : List (Nat × Nat)
  log : ErrLog
  msi : List Nat
  cmd : Commands
  fnmode : Nat
  towers : List (Nat × Tower)
  boot : Boot
  ckpt : Ckpt
  ports : List (Nat × Port)
  homePages : List (Nat × PageState)
  peerPages : List (Nat × PageState)
  pageReqs : List PageReq
  ucPages : List Nat
  counters : List (Nat × DWord)
  latched : Option (List (Nat × DWord))
  clock : Nat
  hubPhase : Nat
  hostData : List Byte × Bool
  nextId : Nat
  stopGrids : List Nat
  agenda : List Move
  cur : Cursor
  view : Option Warp
  fresh : Nat
  deriving DecidableEq, Repr

/-! ### Reset (R439) -/

/-- SHAPE at warp creation (Table 2.5): ROWS 32, COLS 32, ESZ 01. -/
def shapeReset : DWord := 0x12020

/-- A beam table at context creation (R92). -/
def BeamTable.init : BeamTable := ⟨[], 0, [], 0, false⟩

/-- A sequencer that nothing has started. (DESIGN CHOICE, log entry 6.) -/
def Seq.idle : Seq where
  running := false
  team := 0
  half := 0
  pc := 0
  c := []
  gen := []
  loops := []
  seg := none
  copy := ([], [])
  cache := []
  ops := []
  landings := []
  cycle := 0
  issued := false
  settling := false
  armed := false
  ended := false
  wait := .none
  queue := []
  captured := []
  slots := []
  coGo := 0

/-- A core without a scan. -/
def Scan.none : Scan := ⟨.idle, 0, 0, 0, Option.none, 0, false⟩

/-- A margin system as reset leaves it. -/
def Margin.init : Margin where
  ctl := 0
  inForce := 0
  wrote := none
  vnow := 0
  vold := 0
  newV := false
  endHold := false
  held := false
  qreq := false
  qpair := (0, 0)
  tpend := false
  total := 0
  win := 0
  run := 0
  runOf := none
  repeatOf := none
  escn := 0
  esct := 0
  lpc := 0
  lsq := false
  lslot := 0
  settling := false
  window := 0
  origin := 0
  trigger := (0, 0)
  seqTest := none
  testing := none
  reqEngine := none
  reqReady := false
  reqHost := false
  trigHost := false

/-- A core as reset leaves it. (DESIGN CHOICE, log entry 6; PRESUMED, log entry 14.) -/
def Core.init : Core where
  warps := []
  seq := Seq.idle
  segs := 0
  fused := false
  moving := none
  semap := 0
  hasSemap := false
  drain := false
  scan := Scan.none
  mgn := Margin.init
  banks := []
  spares := [(false, 34), (true, 34)]
  corrected := []
  secded := 0
  latent := []
  rollback := []
  replays := []
  topkQ := []

/-- A launch window as reset leaves it (Table 23.1). -/
def Window.init : Window := ⟨false, false, 0, 0, false, none, none, []⟩

/-- A context as reset leaves it (Table 25.1). -/
def Context.init : Context := ⟨false, 0, 0, 0, 0, 0, 0⟩

/-- A tower as reset leaves it (Table 26.8): RUN, every bridge awake. -/
def Tower.init : Tower where
  op := 0
  go := false
  phase := .run
  err := 0
  awake := 7
  wakes := []
  failed := []
  timers := []
  errorReset := false
  lost := 0
  deadRec := (0, 0)
  fwReset := false

/-- A port as reset leaves it (Table 30.3). -/
def Port.init : Port := ⟨false, false, 0, 0, 0⟩

/-- A pool tile at team creation. -/
def TileState.init : TileState := ⟨.free, 0⟩

/-- The boot controller as reset leaves it: BOOTSTAT 0 (Table 27.3), no flash image, fuses zero. (DESIGN CHOICE, log entry 7.) -/
def Boot.init : Boot where
  phase := 0
  slot := 0
  err := 0
  err1 := 0
  svn := 0
  flash := []
  rootHash := []
  minSvn := 0
  fails := []
  secret := []
  imgHash := []
  scanSig := 0
  cert := []
  quarantined := []
  map := []
  mapgen := 0

/-- No cursor: no warp's word runs. -/
def Cursor.init : Cursor := ⟨0, 0, 0, 0, 1, false, false, false⟩

/-- The machine right after reset. (DESIGN CHOICE, log entries 3, 4, 7.) -/
def State.reset : State where
  hubNow := 0
  coreNow := 0
  mem := []
  poison := []
  pend := []
  stale := []
  fills := []
  tlb := []
  beams := []
  ctxs := []
  cores := []
  teams := []
  grids := []
  wins := []
  nodes := []
  reserved := []
  gather := ⟨0, [], [], [], false⟩
  seqs := []
  log := ⟨0, 0, 0, 0, 0, 0, [], []⟩
  msi := []
  cmd := ⟨0, [], 0, [], 0, [], 0, false, 0, none, 0⟩
  fnmode := 0
  towers := []
  boot := Boot.init
  ckpt := ⟨0, 0, 0, false, 0, 0, 0, 0, 0, 0, [], []⟩
  ports := []
  homePages := []
  peerPages := []
  pageReqs := []
  ucPages := []
  counters := []
  latched := none
  clock := 2400
  hubPhase := 0
  hostData := ([], false)
  nextId := 1
  stopGrids := []
  agenda := []
  cur := Cursor.init
  view := none
  fresh := 0

/-- Memory in canonical form: addresses strictly rising, no byte equal to what an unlisted address reads as.
(DESIGN CHOICE, log entry 2.) -/
def Memory.wf (m : List Host.Cell) : Bool := swf (0 : Byte) m

end Sys2Proof.Machine
end

