-- ==== Sys2Proof/Machine/Ops.lean ====
section
/-! DEFINITION. The named operations over the device's state: cores, warps, gangs and lanes, registers, source numbers and
records, teams, and TAKING A TRAP (R45, R46) with the restart of a halted team (R409) beside it. -/

namespace Sys2Proof.Machine
open Sys2Proof

/-! ### Cores, warps, teams, grids -/

/-- Key of the hub control core (R456). (DEDUCED, log entry 35.) -/
def hubCore : Nat := 1024

/-- A core; one that nothing has touched reads as reset left it. -/
def State.core (s : State) (k : Nat) : Core := (sfind s.cores k).getD Core.init
/-- Put a core back. -/
def State.setCore (s : State) (k : Nat) (c : Core) : State := { s with cores := sinsert s.cores k c }
/-- Change a core. -/
def State.modCore (s : State) (k : Nat) (f : Core → Core) : State := s.setCore k (f (s.core k))
/-- The warp in a slot of a core (R33). -/
def State.warp? (s : State) (k slot : Nat) : Option Warp := sfind (s.core k).warps slot
/-- Put a warp into its slot. -/
def State.setWarp (s : State) (k slot : Nat) (w : Warp) : State :=
  s.modCore k fun c => { c with warps := sinsert c.warps slot w }
/-- Change the warp in a slot, if there is one. -/
def State.modWarp (s : State) (k slot : Nat) (f : Warp → Warp) : State :=
  match s.warp? k slot with
  | some w => s.setWarp k slot (f w)
  | none => s
/-- A team. -/
def State.team? (s : State) (t : Nat) : Option Team := sfind s.teams t
/-- Change a team. -/
def State.modTeam (s : State) (t : Nat) (f : Team → Team) : State := { s with teams := smodify s.teams t f }
/-- A grid. -/
def State.grid? (s : State) (g : Nat) : Option Grid := sfind s.grids g
/-- Change a grid. -/
def State.modGrid (s : State) (g : Nat) (f : Grid → Grid) : State := { s with grids := smodify s.grids g f }
/-- Change the sequencer of a core. -/
def State.modSeq (s : State) (k : Nat) (f : Seq → Seq) : State := s.modCore k fun c => { c with seq := f c.seq }
/-- Change the margin system of a core. -/
def State.modMgn (s : State) (k : Nat) (f : Margin → Margin) : State := s.modCore k fun c => { c with mgn := f c.mgn }
/-- A launch window. -/
def State.window (s : State) (w : Nat) : Window := (sfind s.wins w).getD Window.init
/-- Change a launch window. -/
def State.modWindow (s : State) (w : Nat) (f : Window → Window) : State :=
  { s with wins := sinsert s.wins w (f (s.window w)) }
/-- A context. -/
def State.ctx (s : State) (c : Nat) : Context := (sfind s.ctxs c).getD Context.init
/-- Change a context. -/
def State.modCtx (s : State) (c : Nat) (f : Context → Context) : State := { s with ctxs := sinsert s.ctxs c (f (s.ctx c)) }
/-- A tower. -/
def State.tower (s : State) (t : Nat) : Tower := (sfind s.towers t).getD Tower.init
/-- Change a tower. -/
def State.modTower (s : State) (t : Nat) (f : Tower → Tower) : State := { s with towers := sinsert s.towers t (f (s.tower t)) }
/-- A Balan Link port. -/
def State.port (s : State) (k : Nat) : Port := (sfind s.ports k).getD Port.init
/-- Change a port. -/
def State.modPort (s : State) (k : Nat) (f : Port → Port) : State := { s with ports := sinsert s.ports k (f (s.port k)) }

/-- The tower of a core's key (R331). -/
def coreTower (k : Nat) : Nat := k / 256
/-- The physical core of a key (R331). -/
def corePhys (k : Nat) : Nat := k % 256
/-- The logical number of a core, if it is mapped (R3, R342). -/
def State.logical? (s : State) (k : Nat) : Option Nat := (s.boot.map.find? fun p => p.2 == k).map (·.1)
/-- The core that serves a logical number (R3). -/
def State.physical? (s : State) (l : Nat) : Option Nat := sfind s.boot.map l
/-- The device-wide cluster of a core: its logical number without bits 1:0 (R3). -/
def State.cluster? (s : State) (k : Nat) : Option Nat := (s.logical? k).map (· / 4)
/-- The cores of a core's cluster (R3); an unmapped core stands alone. -/
def State.clusterCores (s : State) (k : Nat) : List Nat :=
  match s.cluster? k with
  | some c => [4 * c, 4 * c + 1, 4 * c + 2, 4 * c + 3].filterMap s.physical?
  | none => [k]
/-- Is this a core selector within R331's limits? -/
def selectorOk (x : DWord) : Bool :=
  decide (x.toNat < 1024) && !x.getLsbD 7 && decide (x.toNat % 128 < 72)

/-! ### Gangs and lanes (R19 to R23, R183) -/

/-- The warp whose word runs, as it stands now. -/
def State.live? (s : State) : Option Warp := s.warp? s.cur.core s.cur.slot
/-- The warp as the bundle found it: what every word of the bundle reads (R182). -/
def State.view? (s : State) : Option Warp :=
  match s.view with
  | some w => some w
  | none => s.live?
/-- Change the warp whose word runs. -/
def State.modLive (s : State) (f : Warp → Warp) : State := s.modWarp s.cur.core s.cur.slot f
/-- The number of slices of a warp (R19). -/
def Warp.nslices (w : Warp) : Nat := w.width / 4
/-- The slices of the warp that are in the gang with number `g` and not retired (R23). -/
def Warp.gangMask (w : Warp) (g : Nat) : BitVec 16 :=
  go w.slices 0
where
  /-- The mask of the slices from number `j` on. -/
  go : List Slice → Nat → BitVec 16
    | [], _ => 0
    | x :: r, j => (if !x.retired && x.gang == g then BitVec.ofNat 16 (2 ^ j) else 0) ||| go r (j + 1)
/-- The slices that are not retired (R27). -/
def Warp.alive (w : Warp) : BitVec 16 :=
  go w.slices 0
where
  /-- The mask of the slices from number `j` on. -/
  go : List Slice → Nat → BitVec 16
    | [], _ => 0
    | x :: r, j => (if !x.retired then BitVec.ofNat 16 (2 ^ j) else 0) ||| go r (j + 1)
/-- A slice by number. -/
def Warp.slice? (w : Warp) (j : Nat) : Option Slice := w.slices[j]?
/-- Change every slice of a mask. -/
def mapSlices (f : Slice → Slice) (m : BitVec 16) : List Slice → Nat → List Slice
  | [], _ => []
  | x :: r, j => (if m.getLsbD j then f x else x) :: mapSlices f m r (j + 1)
/-- Change every slice of a mask. -/
def Warp.modSlices (w : Warp) (m : BitVec 16) (f : Slice → Slice) : Warp := { w with slices := mapSlices f m w.slices 0 }
/-- The lowest slice of a mask. -/
def lowSlice (m : BitVec 16) : Nat := ((List.range 16).find? fun j => m.getLsbD j).getD 0
/-- The slice whose copies a gang reads: its lowest (R51). -/
def Warp.lead? (w : Warp) (m : BitVec 16) : Option Slice := w.slice? (lowSlice m)
/-- Bit `i` of a predicate (R49). -/
def Warp.pred (w : Warp) (p : PReg) (i : Nat) : Bool := p == 7 || (sget 0 w.p p.toNat).getLsbD i
/-- A guard in lane `i` (R176). -/
def Warp.guard (w : Warp) (g : Guard) (i : Nat) : Bool := w.pred g.p i != g.neg
/-- Is lane `i` an active lane of the slices `m` (R20, R23)? -/
def Warp.inGang (w : Warp) (m : BitVec 16) (i : Nat) : Bool :=
  decide (i < w.width) && w.active.getLsbD i && m.getLsbD (i / 4)
/-- Does the word act in lane `i` (R183)? -/
def Warp.acts (w : Warp) (m : BitVec 16) (g : Guard) (i : Nat) : Bool := w.inGang m i && w.guard g i
/-- The lanes in which the word acts, ascending. -/
def Warp.actLanes (w : Warp) (m : BitVec 16) (g : Guard) : List Nat := (List.range w.width).filter (w.acts m g)
/-- R183: a word that executes once executes when its guard is true in at least one active lane of the gang. -/
def Warp.actsOnce (w : Warp) (m : BitVec 16) (g : Guard) : Bool := (List.range w.width).any (w.acts m g)
/-- The lanes of a list as a mask. -/
def laneMask (ls : List Nat) : BitVec 64 := ls.foldl (fun m i => m ||| BitVec.ofNat 64 (2 ^ i)) 0

/-! ### Registers (R47 to R50) -/

/-- v(r) of lane `i`. -/
def Warp.vget (w : Warp) (r i : Nat) : Word := sget 0 w.v (64 * r + i)
/-- The pair v(r), v(r+1) of lane `i` (R48). -/
def Warp.vpair (w : Warp) (r i : Nat) : DWord := dword (w.vget r i) (w.vget (r + 1) i)
/-- s(r). -/
def Warp.sget (w : Warp) (r : SReg) : DWord := Machine.sget 0 w.s r.toNat
/-- Write s(r). -/
def Warp.sset (w : Warp) (r : SReg) (x : DWord) : Warp := { w with s := sput 0 w.s r.toNat x }
/-- Write v(r) of the lanes below `n` that `on` selects. -/
def putLanes (m : List (Nat × Word)) (r : Nat) (f : Nat → Word) (on : Nat → Bool) : Nat → List (Nat × Word)
  | 0 => m
  | n + 1 =>
    let m' := putLanes m r f on n
    if on n then sput 0 m' (64 * r + n) (f n) else m'
/-- Write v(r) in the lanes that `on` selects; a warp has at most 64 (R19). -/
def Warp.vset (w : Warp) (r : Nat) (f : Nat → Word) (on : Nat → Bool) : Warp :=
  { w with v := putLanes w.v r f on 64 }
/-- Write v(r), or the pair from v(r), in the lanes that `on` selects (R48). -/
def Warp.vsetW (w : Warp) (wd : Width) (r : Nat) (f : Nat → DWord) (on : Nat → Bool) : Warp :=
  match wd with
  | .w32 => w.vset r (fun i => loWord (f i)) on
  | .w64 => (w.vset r (fun i => loWord (f i)) on).vset (r + 1) (fun i => hiWord (f i)) on
/-- The bits of `x` below `n` that `on` selects, taken from `f`; the others stay. -/
def putBits (x : BitVec 64) (f on : Nat → Bool) : Nat → BitVec 64
  | 0 => x
  | n + 1 =>
    let y := putBits x f on n
    if on n then (if f n then y ||| BitVec.ofNat 64 (2 ^ n) else y &&& ~~~ BitVec.ofNat 64 (2 ^ n)) else y
/-- Write bits of a predicate; a write to p7 is discarded (R49). -/
def Warp.pset (w : Warp) (p : PReg) (f on : Nat → Bool) : Warp :=
  if p = 7 then w else { w with p := sput 0 w.p p.toNat (putBits (Machine.sget 0 w.p p.toNat) f on 64) }
/-- Registers of the window: n · 1,024 / W (R59). -/
def Warp.windowRegs (w : Warp) : Nat := w.win * 1024 / w.width

/-! ### Source numbers, records, interrupts (R419 to R422) -/

/-- A source identifier (R419). -/
def sourceId (kind tower inst : Nat) : Nat := kind * 4096 + tower * 1024 + inst
/-- The halt-logic source of a core (R408, R419). -/
def haltSource (k : Nat) : Nat := if k = hubCore then sourceId 15 0 0 else sourceId 1 (coreTower k) (corePhys k)
/-- The margin source of a core. -/
def marginSource (k : Nat) : Nat := sourceId 2 (coreTower k) (corePhys k)
/-- The checker source of a core. -/
def checkerSource (k : Nat) : Nat := sourceId 3 (coreTower k) (corePhys k)
/-- The sequencer source of a core. -/
def seqSource (k : Nat) : Nat := sourceId 4 (coreTower k) (corePhys k)
/-- The number a source takes next: 1 upwards, 1 again after 2^32 − 1 (R420). -/
def nextSeq (n : Nat) : Nat := if n = 0xFFFFFFFF then 1 else n + 1
/-- A source takes its next sequence number (R420). -/
def State.takeSeq (s : State) (src : Nat) : Nat × State :=
  let n := nextSeq (sget 0 s.seqs src)
  (n, { s with seqs := sput 0 s.seqs src n })
/-- Records the hub buffer holds (R422). -/
def hubBuffer : Nat := 1024
/-- Does a record fit into the log's hub buffer, or hold its source (R422)? -/
def recordKept (lg : ErrLog) (sev : Nat) : Bool := decide (lg.queue.length < hubBuffer) || decide (2 ≤ sev)
/-- Does a record wait at its source for room: a grave one, or one of a source that is held already (R422)? -/
def ErrLog.waits (lg : ErrLog) (r : ErrRecord) : Bool := decide (2 ≤ r.sev) || lg.held.contains r.src
/-- A source writes an error record (R421, R422): it takes the next number and waits for the log; a full buffer discards
records of SEV 00 and 01 and counts them. The pair returned names the record. -/
def State.report (s : State) (r : ErrRecord) : (Nat × Nat) × State :=
  let (n, s) := s.takeSeq r.src
  let r := { r with sseq := n }
  if recordKept s.log r.sev || s.log.waits r then ((r.src, n), { s with log := { s.log with queue := s.log.queue ++ [r] } })
  else ((r.src, n), { s with log := { s.log with drop := min (s.log.drop + 1) 0xFFFFFFFF } })
/-- What a full buffer makes of a step from `s` to `t`: where it holds the source of a record, nothing of the step happens yet, and
the source is held (R422). (DEDUCED, log entry 62.) -/
def State.holdSource (s t : State) : State :=
  match t.log.queue.drop (max hubBuffer s.log.queue.length) with
  | [] => t
  | r :: _ => { s with log := { s.log with held := if s.log.held.contains r.src then s.log.held else s.log.held ++ [r.src] } }
/-- A record with no launch named. -/
def mkRecord (src event sev : Nat) (pair : Nat × Nat) (addr d0 d1 d2 : DWord) : ErrRecord :=
  { src := src, sseq := 0, event := event, sev := sev, cls := 0, pair := pair, launch := none, addr := addr, d0 := d0, d1 := d1, d2 := d2 }
/-- Raise an MSI-X vector. -/
def State.raise (s : State) (vec : Nat) : State := { s with msi := s.msi ++ [vec] }
/-- Bits 63:0 of offset 16 of a record: context, window, SEQ and team number (Table 26.2). -/
def launchField (ctx win lseq team : Nat) : DWord :=
  BitVec.ofNat 64 (ctx % 256 + win % 64 * 2 ^ 8 + lseq % 128 * 2 ^ 14 + team % 2 ^ 32 * 2 ^ 32)
/-- A fresh number for a store, a pending result or a copy. -/
def State.newId (s : State) : Nat × State := (s.nextId, { s with nextId := s.nextId + 1 })
/-- The next index of the free values. (DESIGN CHOICE, log entry 10.) -/
def State.newFree (s : State) : Nat × State := (s.fresh, { s with fresh := s.fresh + 1 })

/-- A launch boundary (R453): a record is parsed or a grid completes. Quarantine requests may now be carried out. -/
def State.boundary (s : State) : State :=
  { s with cores := s.cores.map fun p => (p.1, if p.2.mgn.qreq then { p.2 with mgn := { p.2.mgn with reqReady := true } } else p.2) }

/-! ### The team and grid of a warp -/

/-- The launch record that a warp runs under. -/
def State.recOf (s : State) (w : Warp) : Option LaunchRec := (s.grid? w.grid).map (·.lr)
/-- The half of its team a core is (R30). -/
def Team.halfOf (t : Team) (k : Nat) : Nat := if k = t.core then 0 else 1
/-- Stands for the core of a team's half that is saved and not restored (R418). -/
def noCore : Nat := 9999
/-- The cores of a team (R28). -/
def Team.cores (t : Team) : List Nat := (if t.paired then [t.core, t.odd] else [t.core]).filter (· != noCore)
/-- Warps on one core of a team (R29). -/
def perCore (t : Team) (n : Nat) : Nat := if t.paired then n / 2 else n
/-- Every warp of a team, by core and slot. -/
def State.teamWarps (s : State) (tid : Nat) : List (Nat × Nat × Warp) :=
  match s.team? tid with
  | none => []
  | some t =>
    t.cores.flatMap fun k => ((s.core k).warps.filter fun p => p.2.team == tid).map fun p => (k, p.1, p.2)
/-- The slot of a team's warp by number, on a core (R287). -/
def State.slotOf (s : State) (k tid n : Nat) : Option Nat :=
  ((s.core k).warps.find? fun p => p.2.team == tid && p.2.num == n).map (·.1)
/-- Teams resident on a core. -/
def State.resident (s : State) (k : Nat) : List (Nat × Team) := s.teams.filter fun p => p.2.cores.contains k
/-- Does a warp's context hold privilege (R331)? -/
def privileged (k : Nat) : Bool := k == hubCore
/-- Every slice of the warp is retired (R27). -/
def Warp.retired (w : Warp) : Bool := w.slices.all (·.retired)

/-! ### Waits -/

/-- Does a slice wait? (DEDUCED, log entry 30.) -/
def Slice.waiting (x : Slice) : Bool := !x.waits.isEmpty
/-- A gang begins a wait: its pc stays at the bundle, and it will continue after the bundle (R35, R45). -/
def Warp.beginWait (w : Warp) (m : BitVec 16) (wt : Wait) (next : DWord) : Warp :=
  w.modSlices m fun x => { x with waits := x.waits ++ [wt], resume := next }
/-- A slice's wait ends; with none left it continues, or retires when it is leaving. -/
def Slice.endWait (wt : Wait) (x : Slice) : Slice :=
  if x.waits.contains wt then
    let rest := x.waits.erase wt
    if rest.isEmpty then { x with waits := [], pc := x.resume, retired := x.retired || x.leaving } else { x with waits := rest }
  else x
/-- Can a gang go on: it has a slice, none retired, and none waits? -/
def Warp.gangGoes (w : Warp) (g : Nat) : Bool :=
  (w.slices.any fun x => x.gang == g && !x.retired) && w.slices.all fun x => x.gang != g || x.retired || !x.waiting
/-- A warp outside the active set, none of whose gangs could go on before, becomes ready now (R36). -/
def Warp.readyFrom (w old : Warp) (now : Nat) : Warp :=
  if old.inSet || old.slices.any fun x => old.gangGoes x.gang then w else { w with readyAt := now }
/-- A wait of the gang of slice `j` ends in every slice of the gang that has it (R35). -/
def Warp.endWait (w : Warp) (j : Nat) (wt : Wait) (now : Nat) : Warp :=
  match w.slice? j with
  | some y => Warp.readyFrom { w with slices := w.slices.map fun x => if x.gang = y.gang then x.endWait wt else x } w now
  | none => w
/-- The gang of a slice, as a mask. -/
def Warp.gangOf (w : Warp) (j : Nat) : BitVec 16 :=
  match w.slice? j with
  | some x => w.gangMask x.gang
  | none => 0
/-- Address of the word after the bundle whose word runs (R273). -/
def State.nextPc (s : State) : DWord := s.cur.pc + BitVec.ofNat 64 (4 * s.cur.len)
/-- The gang whose word runs begins a wait. -/
def State.wait (s : State) (wt : Wait) : State :=
  { s.modLive (fun w => w.beginWait s.cur.slices wt s.nextPc) with cur := { s.cur with moved := true } }
/-- A slice continues at `pc`, after its waits if it has any. -/
def Slice.goTo (pc : DWord) (x : Slice) : Slice := if x.waiting then { x with resume := pc } else { x with pc := pc }
/-- The gang whose word runs continues at `pc`. -/
def State.jump (s : State) (pc : DWord) : State :=
  { s.modLive (fun w => w.modSlices s.cur.slices (Slice.goTo pc)) with cur := { s.cur with moved := true } }

/-! ### Taking a trap (R45, R46), and leaving it (R409) -/

/-- The rank of a trap among those of one core cycle: a sequencer's first, the even core's before the odd core's, then by warp number
(R46). -/
def trapRank (seqr : Bool) (half num : Nat) : Nat := if seqr then half else 2 + num
/-- The rank of a halted team's cause. A sequencer's cause keeps its half in the place of the warp number. -/
def Team.causeRank (tm : Team) : Nat :=
  match tm.cause with
  | some (_, _, seqr, num) => trapRank seqr num num
  | none => 0
/-- Does a trap become the cause of its team's halt: the first to reach the halt logic, or in the same cycle one of a lower rank than
another trap (R46)? -/
def Team.newCause (tm : Team) (now rank : Nat) : Bool :=
  !tm.halted || (tm.recWait && tm.haltAt == now && decide (rank < tm.causeRank) && match tm.cause with
    | some (t, _) => t.cause != .cstop
    | none => false)
/-- The team's halt: its first trap is its cause, and its record waits to be written (R45, R46, R407). The fields are the
trap, the bundle's address, whether the sequencer raised it, the number of the warp that did or the half of the sequencer, and the
cycle. -/
def haltTeam (t : Trap) (pc : DWord) (seqr : Bool) (num : Nat) (pair : Nat × Nat) (now : Nat) (tm : Team) : Team :=
  if tm.newCause now (trapRank seqr num num) then
    { tm with halted := true, cause := some (t, pc, seqr, num), pair := pair, recWait := true, haltAt := now }
  else tm

/-- Every sibling starts its skid at 0 (R45): the warps of the team that have not stopped. -/
def startSkid (s : State) (tid : Nat) : State :=
  (s.teamWarps tid).foldl (fun s x => s.modWarp x.1 x.2.1 fun w => if w.stopped then w else { w with skid := 0 }) s

/-- A warp takes a trap: it stops precisely at the bundle, keeps its own trap with the next number of its core's halt
logic, and its team halts (R45, R46). -/
def State.warpTrap (s : State) (k slot : Nat) (m : BitVec 16) (pc : DWord) (t : Trap) : State :=
  match s.warp? k slot with
  | none => s
  | some w =>
    let (n, s) := s.takeSeq (haltSource k)
    let first := match s.team? w.team with
      | some tm => !tm.halted
      | none => false
    let s := s.modWarp k slot fun w =>
      { w with trap := some ⟨t, pc, n, m.toNat, s.cur.len⟩, stopped := true }
    let s := s.modTeam w.team (haltTeam t pc false w.num (0, 0) s.coreNow)
    if first then startSkid s w.team else s

/-- The kind that stands for a walk which waits for an entry (R434); no record carries it. -/
def walkWaits : Nat := 16
/-- Is a trap none, but an access that waits: for an entry of its walk, or for the code it fetches (R434, R437)? -/
def Trap.waits (t : Trap) : Bool := t.cause == .pageFault && t.kind == walkWaits
/-- The word of the cursor takes a trap: no word of its bundle has taken effect (R192). Where its probe waits, nothing happens yet. -/
def takeTrap (t : Trap) (s : State) : State :=
  { (if t.waits then s else s.warpTrap s.cur.core s.cur.slot s.cur.slices s.cur.pc t) with cur := { s.cur with moved := true } }

/-- The sequencer of a core takes a trap of the bundle at `pc`: it stops and its team halts (R45, R46, R330). -/
def seqTrap (k : Nat) (pc : DWord) (t : Trap) (s : State) : State :=
  let q := (s.core k).seq
  let first := match s.team? q.team with
    | some tm => !tm.halted
    | none => false
  let s := s.modSeq k fun q => { q with wait := .stopped }
  let s := s.modTeam q.team (haltTeam t pc true q.half (0, 0) s.coreNow)
  let s := if first then startSkid s q.team else s
  { s with cur := { s.cur with moved := true } }

/-- A team halts from outside, with cause CSTOP and a cause pair (R339, R340, R414, R428). -/
def State.cstop (s : State) (tid : Nat) (seqr : Bool) (pair : Nat × Nat) : State :=
  match s.team? tid with
  | none => s
  | some tm =>
    if tm.halted then s
    else
      let s := s.modTeam tid (haltTeam { cause := .cstop } 0 seqr 0 pair s.coreNow)
      startSkid s tid

/-- A trapping gang resumes at the bundle after a TRAP or BRK, and at the faulting bundle otherwise (R333, R409). -/
def Warp.resumeTrap (w : Warp) : Warp :=
  match w.trap with
  | none => { w with stopped := false, skid := 0 }
  | some o =>
    let after := o.trap.cause == .trap || o.trap.cause == .brk
    let w := if after then
        w.modSlices (BitVec.ofNat 16 o.gang) fun x => { x with pc := o.pc + BitVec.ofNat 64 (4 * o.len) }
      else w
    { w with trap := none, stopped := false, skid := 0 }

/-- The numeric code of a cause (Table 16.5). -/
def Cause.code : Cause → Nat
  | .illStream => 0x01
  | .illInstr => 0x02
  | .illEncoding => 0x03
  | .illOperand => 0x04
  | .illOverlap => 0x05
  | .illConvergence => 0x06
  | .illTarget => 0x07
  | .privileged => 0x08
  | .regRange => 0x09
  | .tileRange => 0x0A
  | .tileOwn => 0x0B
  | .tileBusy => 0x0C
  | .laHazard => 0x0D
  | .align => 0x11
  | .pageFault => 0x12
  | .protection => 0x13
  | .spadRange => 0x14
  | .spadEarly => 0x15
  | .bxRange => 0x16
  | .serpentLifo => 0x18
  | .serpentOvf => 0x19
  | .revLoss => 0x1A
  | .seqSlot => 0x1C
  | .seqOrder => 0x1D
  | .trap => 0x20
  | .brk => 0x21
  | .cstop => 0x22

end Sys2Proof.Machine
end

