-- ==== Sys2Proof/Machine/Operands.lean ====
section
/-! DEFINITION. Operand forms of the warp's words: the value of a source (R48, R177), and which registers a word reads and
writes, from which the decode checks of R192 step 3.4, R182 and R187 follow. -/

namespace Sys2Proof

/-! ### Sizes of types -/

/-- Registers of a width. -/
def Width.regs : Width → Nat
  | .w32 => 1
  | .w64 => 2
/-- Registers of a floating type (R220). -/
def FTy.regs : FTy → Nat
  | .f64 => 2
  | _ => 1
/-- The integer types' width and sign, and none for a floating type (Table 9.3). -/
def CvtTy.int? : CvtTy → Option (Nat × Bool)
  | .i4 => some (4, true)
  | .n4 => some (4, false)
  | .i8 => some (8, true)
  | .n8 => some (8, false)
  | .i16 => some (16, true)
  | .n16 => some (16, false)
  | .i32 => some (32, true)
  | .n32 => some (32, false)
  | .i64 => some (64, true)
  | .n64 => some (64, false)
  | _ => none
/-- Registers of a conversion type (R229). -/
def CvtTy.regs : CvtTy → Nat
  | .i64 | .n64 | .f64 => 2
  | _ => 1
/-- Registers and bytes of a load size (Table 12.1). -/
def LdSize.regs : LdSize → Nat
  | .w64 => 2
  | .w128 => 4
  | _ => 1
/-- Bytes of a load. -/
def LdSize.bytes : LdSize → Nat
  | .n8 | .i8 => 1
  | .n16 | .i16 => 2
  | .w32 => 4
  | .w64 => 8
  | .w128 => 16
/-- Does the load sign-extend? -/
def LdSize.signed : LdSize → Bool
  | .i8 | .i16 => true
  | _ => false
/-- Registers of a store size. -/
def StSize.regs : StSize → Nat
  | .w64 => 2
  | .w128 => 4
  | _ => 1
/-- Bytes of a store. -/
def StSize.bytes : StSize → Nat
  | .n8 => 1
  | .n16 => 2
  | .w32 => 4
  | .w64 => 8
  | .w128 => 16
/-- Number of a special register (Table 16.2). -/
def SpecReg.num : SpecReg → Nat
  | .mode => 0
  | .fmt => 1
  | .shape => 2
  | .cir => 3
  | .rsb => 4
  | .rsp => 5
  | .bx k => 6 + k.toNat
  | .gang => 10
  | .semap => 16
  | .mgnCtl => 17
end Sys2Proof

namespace Sys2Proof.Machine
open Sys2Proof

/-! ### Values of sources -/

/-- A 32-bit source in lane `i` (R177). -/
def Warp.src32 (w : Warp) (a : Src) (i : Nat) : Word :=
  match a with
  | .v r => w.vget r.toNat i
  | .s r => loWord (w.sget r)
/-- A 64-bit source in lane `i` (R48, R177). -/
def Warp.src64 (w : Warp) (a : Src) (i : Nat) : DWord :=
  match a with
  | .v r => w.vpair r.toNat i
  | .s r => w.sget r
/-- A source of a width, in a double-word. -/
def Warp.srcW (w : Warp) (wd : Width) (a : Src) (i : Nat) : DWord :=
  match wd with
  | .w32 => (w.src32 a i).zeroExtend 64
  | .w64 => w.src64 a i
/-- The old value of a destination read as a source. -/
def Warp.dstW (w : Warp) (wd : Width) (d : VReg) (i : Nat) : DWord := w.srcW wd (.v d) i

/-! ### Registers a word uses -/

/-- What a word reads and writes: vector registers, scalar registers, predicates, queues and special registers by number;
whether a 32-bit source names the second register of its 64-bit destination (R204), and whether a register that must start a
pair or a group of four does not (R48, R244). -/
structure Uses where
  vr : List Nat := []
  vw : List Nat := []
  sr : List Nat := []
  sw : List Nat := []
  pw : List Nat := []
  qw : List Nat := []
  xw : List Nat := []
  overlap : Bool := false
  operand : Bool := false
  deriving DecidableEq, Repr

/-- `n` registers from `r`. -/
def regsFrom (r n : Nat) : List Nat := (List.range n).map (r + ·)
/-- Is `r` not a multiple of `n`? -/
def misaligned (r n : Nat) : Bool := r % n != 0
/-- The vector registers of a source of `n` registers. -/
def srcV (n : Nat) : Src → List Nat
  | .v r => regsFrom r.toNat n
  | .s _ => []
/-- The scalar register of a source. -/
def srcS : Src → List Nat
  | .v _ => []
  | .s r => [r.toNat]
/-- Is a source an odd pair (R48)? -/
def srcOdd (n : Nat) : Src → Bool
  | .v r => misaligned r.toNat n
  | .s _ => false
/-- Does a one-register source name the second register of a pair from `d` (R204)? -/
def srcCuts (d : Nat) : Nat × Src → Bool
  | (1, .v r) => r.toNat == d + 1
  | _ => false
/-- A word with a vector destination of `n` registers and sources of given sizes. -/
def usesV (n : Nat) (d : VReg) (srcs : List (Nat × Src)) (readsD : Bool := false) : Uses :=
  { vr := (srcs.flatMap fun x => srcV x.1 x.2) ++ (if readsD then regsFrom d.toNat n else [])
    vw := regsFrom d.toNat n
    sr := srcs.flatMap fun x => srcS x.2
    overlap := n == 2 && srcs.any (srcCuts d.toNat)
    operand := misaligned d.toNat n || srcs.any fun x => srcOdd x.1 x.2 }
/-- A word that reads vector sources only. -/
def usesR (srcs : List (Nat × Src)) : Uses :=
  { vr := srcs.flatMap fun x => srcV x.1 x.2
    sr := srcs.flatMap fun x => srcS x.2
    operand := srcs.any fun x => srcOdd x.1 x.2 }
/-- A predicate that a write changes: p7 discards it (R49), so two writes of p7 meet nowhere. (DESIGN CHOICE, log entry 78.) -/
def predW (p : PReg) : List Nat := if p = 7 then [] else [p.toNat]
/-- A word on scalar registers. -/
def usesS (d : List SReg) (srcs : List SReg) : Uses := { sw := d.map (·.toNat), sr := srcs.map (·.toNat) }
/-- Integer word with two sources of its width. -/
def usesInt2 (w : Width) (d : VReg) (a b : Src) (readsD : Bool := false) : Uses :=
  usesV w.regs d [(w.regs, a), (w.regs, b)] readsD
/-- Integer word with one source of its width. -/
def usesInt1 (w : Width) (d : VReg) (a : Src) : Uses := usesV w.regs d [(w.regs, a)]
/-- Floating word with two sources of its type. -/
def usesFp2 (t : FTy) (d : VReg) (a b : Src) (readsD : Bool := false) : Uses :=
  usesV t.regs d [(t.regs, a), (t.regs, b)] readsD
/-- The group of an atomic (R256): registers read, and those the old value goes to. -/
def atomGroup (op : AtomOp) (n : Nat) : List Nat × List Nat :=
  match op with
  | .addI64 | .exchN64 | .addF64 => ([n, n + 2, n + 3], [n + 2, n + 3])
  | .casN64 => ([n, n + 2, n + 3, n + 4, n + 5], [n + 2, n + 3])
  | .casN32 => ([n, n + 1, n + 2], [n + 1])
  | _ => ([n, n + 1], [n + 1])
/-- Must the group of an atomic start on an even register (R256)? -/
def atomOdd (op : AtomOp) (n : Nat) : Bool :=
  match op with
  | .addI64 | .exchN64 | .addF64 | .casN64 => misaligned n 2
  | _ => false
/-- A load into a group of `n` registers. -/
def usesLoad (acc : Bool) (n : Nat) (d : VReg) (base : SReg) : Uses :=
  if acc then { sr := [base.toNat], qw := [d.toNat] }
  else { vw := regsFrom d.toNat n, sr := [base.toNat], operand := misaligned d.toNat n }

/-- The registers a word of the warp stream uses. -/
def usesOf : Instr → Uses
  | .add _ w d a b | .sub _ w d a b | .mul _ w d a b | .mulhI _ w d a b | .mulhN _ w d a b => usesInt2 w d a b
  | .minI _ w d a b | .maxI _ w d a b | .minN _ w d a b | .maxN _ w d a b => usesInt2 w d a b
  | .and _ w d a b | .or _ w d a b | .xor _ w d a b | .andn _ w d a b => usesInt2 w d a b
  | .shl _ w d a b | .shr _ w d a b | .sha _ w d a b | .rot _ w d a b => usesInt2 w d a b
  | .bfeN _ w d a b | .bfeI _ w d a b => usesInt2 w d a b
  | .mad _ w d a b | .bfi _ w d a b => usesInt2 w d a b true
  | .sel _ w d a b _ => usesInt2 w d a b
  | .neg _ w d a | .abs _ w d a | .not _ w d a | .clz _ w d a | .popc _ w d a | .brev _ w d a | .mov _ w d a => usesInt1 w d a
  | .setp _ _ _ w p a b => { usesR [(w.regs, a), (w.regs, b)] with pw := predW p }
  | .addi _ d a _ | .andi _ d a _ | .ori _ d a _ | .xori _ d a _ => usesV 1 d [(1, a)]
  | .shli _ w d a _ | .shri _ w d a _ | .shai _ w d a _ => usesInt1 w d a
  | .movi _ d _ | .idx _ d _ => usesV 1 d []
  | .movhi _ d _ => usesV 1 d [] true
  | .lea _ w d a b _ => usesV w.regs d [(w.regs, a), (1, b)]
  | .fadd _ t d a b | .fsub _ t d a b | .fmul _ t d a b | .fmin _ t d a b | .fmax _ t d a b => usesFp2 t d a b
  | .ffma _ t d a b => usesFp2 t d a b true
  | .fma3 t d a b c => usesV t.regs d [(t.regs, a), (t.regs, b), (t.regs, .v (c.zeroExtend 7))]
  | .fabs _ t d a | .fneg _ t d a | .frnd _ _ t d a => usesV t.regs d [(t.regs, a)]
  | .fsetp _ _ w p a b => { usesR [(w.regs, a), (w.regs, b)] with pw := predW p }
  | .fclass _ t d a => usesV 1 d [(t.regs, a)]
  | .cvt _ td ts d a => usesV td.regs d [(ts.regs, a)]
  | .pack _ t d a b => usesV 1 d [(1, a), (1, b)] (t != .f16x2 && t != .bf16x2)
  | .exp2 _ _ d a | .log2 _ _ d a | .rcp _ _ d a | .rsqrt _ _ d a | .tanh _ _ d a | .logis _ _ d a => usesV 1 d [(1, a)]
  | .dot4 _ d a b | .dot8 _ d a b => usesV 1 d [(1, a), (1, b)] true
  | .rmax _ _ d a _ | .rsum _ _ d a _ => usesV 1 d [(1, .v a)]
  | .rsumexp _ _ d a _ => usesV 2 d [(1, .v a)] true
  | .rmeanvar _ _ d a _ => usesV 2 d [(1, .v a)]
  | .rnorm _ d a _ =>
    { usesV 1 d [(1, .v a)] with
      vr := a.toNat :: regsFrom d.toNat 3, overlap := a.toNat == d.toNat + 1 || a.toNat == d.toNat + 2 }
  | .topk _ _ d a _ => { sw := [d.toNat], sr := regsFrom a.toNat 4 }
  | .sadd _ d a b | .ssub _ d a b | .smul _ d a b | .sand _ d a b | .sor _ d a b | .sxor _ d a b | .sshl _ d a b
  | .sshr _ _ d a b => usesS [d] [a, b]
  | .saddi _ d a _ => usesS [d] [a]
  | .smovi _ d _ => usesS [d] []
  | .slea _ d a _ => usesS [d] [d, a]
  | .ssetp _ _ p a _ => { sr := [a.toNat], pw := predW p }
  | .readlane _ d a b => { vr := [a.toNat], sr := [b.toNat], sw := [d.toNat] }
  | .writelane _ d a b => { vw := [d.toNat], sr := [a.toNat, b.toNat] }
  | .bcast _ d a b => { vr := [a.toNat], vw := [d.toNat], sr := [b.toNat] }
  | .ld acc _ sz d base _ _ | .lds acc _ sz d base _ _ => usesLoad acc sz.regs d base
  | .ldStrong _ _ w _ d base _ => usesLoad false w.regs d base
  | .ldBx acc _ w d base _ => usesLoad acc w.regs d base
  | .ldBfx acc _ _ d base _ => usesLoad acc 1 d base
  | .st _ sz d base _ | .sts _ sz d base _ =>
    { vr := regsFrom d.toNat sz.regs, sr := [base.toNat], operand := misaligned d.toNat sz.regs }
  | .stStrong _ _ w _ d base => { vr := regsFrom d.toNat w.regs, sr := [base.toNat], operand := misaligned d.toNat w.regs }
  | .prefL1 _ _ base _ | .prefL2 _ _ base _ => { sr := [base.toNat] }
  | .qpop _ w d k _ => { usesV w.regs d [] with qw := [k.toNat] }
  | .atom _ op _ _ d base _ =>
    { vr := (atomGroup op d.toNat).1, vw := (atomGroup op d.toNat).2, sr := [base.toNat], operand := atomOdd op d.toNat }
  | .red _ op _ _ d base => { vr := (atomGroup op d.toNat).1, sr := [base.toNat], operand := atomOdd op d.toNat }
  | .copy _ d a b => usesR [(2, .v d), (2, a), (1, b)]
  | .copy2d _ d a b => usesR [(2, .v d), (2, a), (2, b)]
  | .seal _ d => usesS [d] []
  | .waitb _ a => usesS [] [a]
  | .testb _ d a => usesS [d] [a]
  | .bitld _ _ _ a b => usesR [(1, a), (1, b)]
  | .bitldPitch _ _ _ b => usesR [(1, b)]
  | .chkerr clr d => { sw := [d.toNat], xw := if clr then [3] else [] }
  | .shfl _ _ w d a b => usesV w.regs d [(w.regs, .v a), (1, b)]
  | .compress _ d a _ | .expand _ d a _ => usesV 1 d [(1, .v a)]
  | .slideup _ d a b | .slidedn _ d a b => { usesV 1 d [(1, .v a)] with sr := [b.toNat] }
  | .voteAny _ p _ | .voteAll _ p _ => { pw := predW p }
  | .voteBallot _ d _ => usesS [d] []
  | .reduxAdd _ d a | .reduxMin _ _ d a | .reduxMax _ _ d a | .reduxAnd _ d a | .reduxOr _ d a =>
    { vr := [a.toNat], sw := [d.toNat] }
  | .rdsr d n => { sw := [d.toNat], sr := if n.perCore then [d.toNat] else [] }
  | .wrsr d a n => { sr := if n.perCore then [d.toNat, a.toNat] else [a.toNat], xw := [n.num] }
  | .csave d a | .crestore d a | .cmapw d a => { sw := [d.toNat], sr := regsFrom a.toNat 2, operand := misaligned a.toNat 2 }
  | .corectlStatus d a | .corectlDrain d a | .corectlAdmit d a | .corectlStop d a | .corectlResume d a => usesS [d] [a]
  | .scan d a | .mgnrd d a _ => usesS [d] [a]
  | .scanrd d a => { sw := regsFrom d.toNat 2, sr := [a.toNat], operand := misaligned d.toNat 2 }
  | .scanab a => usesS [] [a]
  | .jmp _ a | .ret _ a => usesS [] [a]
  | .call _ d a => usesS [d] [a]
  | .brx _ a => usesR [(2, .v a)]
  | .cont _ np a b => { vr := regsFrom b.toNat (2 * np.toNat), sr := [a.toNat], operand := misaligned b.toNat 2 }
  | .barInit _ a => usesS [] [a]
  | .locq _ d => usesS [d] []
  | .locqAddr _ d a => usesV 2 d [(2, .v a)]
  | .give _ byReg n => { sr := if byReg then [n.toNat] else [] }
  | .seqgo a => { sr := a.toNat :: regsFrom 32 32 }
  | .setshape _ a => { sr := [a.toNat], xw := [2] }
  | .tadd _ _ _ a b | .tmul _ _ _ a b | .tfma _ _ _ a b | .tmax _ _ _ a b | .tmin _ _ _ a b => { sr := tileS a ++ tileS b }
  | .tcvt _ _ _ _ a => { sr := tileS a }
  | .rvmul _ d a b | .unmul _ d a b | .rvshr _ d a b | .unshr _ d a b =>
    { usesV 1 d [(1, a)] with sr := b.toNat :: srcS a }
  | .rvnarBf16 _ d a | .unnarBf16 _ d a | .rvnarI16 _ d a | .unnarI16 _ d a => usesV 1 d [(1, a)]
  | .rvadd _ d a b | .unadd _ d a b => usesV 1 d [(1, a), (1, b)]
  | .rsdepth d => usesS [d] []
  | _ => {}
where
  /-- The scalar register of a tile source. -/
  tileS : TSrc → List Nat
    | .t _ => []
    | .s r => [r.toNat]

/-- R59, R204, R48 for one word: REG_RANGE, then illegal-overlap, then illegal-operand. TILE_RANGE stands between the first
two (R192), and is checked with the tile words. A pair from the last register of the window names one beyond it. (DESIGN CHOICE, log entry 80.) -/
def Uses.beyond (u : Uses) (n : Nat) : Bool := u.vr.any (fun r => decide (n ≤ r)) || u.vw.any fun r => decide (n ≤ r)
/-- Do two lists share a number? -/
def meets (a b : List Nat) : Bool := a.any b.contains
/-- R182: do two words of a bundle write one register? -/
def Uses.clash (u v : Uses) : Bool :=
  meets u.vw v.vw || meets u.sw v.sw || meets u.pw v.pw || meets u.qw v.qw || meets u.xw v.xw
/-- R187: does a word read or write one of a long-latency word's destinations? -/
def Uses.touches (u : Uses) : Dest → Bool
  | .v r => u.vr.contains r || u.vw.contains r
  | .s r => u.sr.contains r || u.sw.contains r
/-- R182 over a bundle: some two words clash. -/
def anyClash : List Uses → Bool
  | [] => false
  | u :: r => r.any u.clash || anyClash r

end Sys2Proof.Machine
end

