-- ==== Sys2Proof/Machine/Float.lean ====
section
/-! DEFINITION. Number formats and exact arithmetic (chapter 05): values are taken exact, sums and products are exact, and
one function rounds. Bit patterns are Nats below 2^(width of the format). -/

namespace Sys2Proof.Machine

/-- How a format uses the exponent of all ones (R124). -/
inductive FKind where
  | ieee | e4m3 | finite
  deriving DecidableEq, Repr

/-- A floating format (Table 5.1). -/
structure Fmt where
  ebits : Nat
  mbits : Nat
  bias : Nat
  kind : FKind
  deriving DecidableEq, Repr

/-- FP64. -/
def f64 : Fmt := ⟨11, 52, 1023, .ieee⟩
/-- FP32. -/
def f32 : Fmt := ⟨8, 23, 127, .ieee⟩
/-- FP16. -/
def f16 : Fmt := ⟨5, 10, 15, .ieee⟩
/-- BF16. -/
def bf16 : Fmt := ⟨8, 7, 127, .ieee⟩
/-- F8E5 (E5M2). -/
def f8e5 : Fmt := ⟨5, 2, 15, .ieee⟩
/-- F8E4 (E4M3). -/
def f8e4 : Fmt := ⟨4, 3, 7, .e4m3⟩
/-- F4E2 (E2M1). -/
def f4e2 : Fmt := ⟨2, 1, 1, .finite⟩

/-- Rounding modes (Table 5.2). -/
inductive Rm where
  | rne | rtz | rup | rdn
  deriving DecidableEq, Repr

/-- The mode of MODE.RM's code. -/
def Rm.ofCode (n : Nat) : Rm :=
  match n % 4 with
  | 0 => .rne
  | 1 => .rtz
  | 2 => .rup
  | _ => .rdn

/-- A value: NaN, an infinity, or ±m · 2^e exactly. -/
inductive FV where
  | nan
  | inf (neg : Bool)
  | fin (neg : Bool) (m : Nat) (e : Int)
  deriving DecidableEq, Repr

/-- Width of a format. -/
def Fmt.width (f : Fmt) : Nat := 1 + f.ebits + f.mbits
/-- The exponent field of all ones. -/
def Fmt.emax (f : Fmt) : Nat := 2 ^ f.ebits - 1
/-- The fraction field. -/
def Fmt.frac (f : Fmt) (x : Nat) : Nat := x % 2 ^ f.mbits
/-- The exponent field. -/
def Fmt.expo (f : Fmt) (x : Nat) : Nat := x / 2 ^ f.mbits % 2 ^ f.ebits
/-- The sign bit. -/
def Fmt.sign (f : Fmt) (x : Nat) : Bool := x / 2 ^ (f.ebits + f.mbits) % 2 == 1
/-- The sign bit's weight, when set. -/
def Fmt.signBit (f : Fmt) (neg : Bool) : Nat := if neg then 2 ^ (f.ebits + f.mbits) else 0
/-- The canonical NaN (R124). -/
def Fmt.nan (f : Fmt) : Nat :=
  match f.kind with
  | .ieee => f.emax * 2 ^ f.mbits + 2 ^ (f.mbits - 1)
  | .e4m3 => f.emax * 2 ^ f.mbits + 2 ^ f.mbits - 1
  | .finite => 0
/-- The largest finite magnitude's bits (Table 5.1). -/
def Fmt.maxBits (f : Fmt) : Nat :=
  match f.kind with
  | .ieee => f.emax * 2 ^ f.mbits - 1
  | .e4m3 => f.emax * 2 ^ f.mbits + 2 ^ f.mbits - 2
  | .finite => 2 ^ (f.ebits + f.mbits) - 1
/-- Infinity's bits, or the largest finite value where the format has none (R128). -/
def Fmt.infBits (f : Fmt) : Nat :=
  match f.kind with
  | .ieee => f.emax * 2 ^ f.mbits
  | _ => f.maxBits

/-- Is an encoding a NaN (R124)? -/
def Fmt.isNan (f : Fmt) (x : Nat) : Bool :=
  match f.kind with
  | .ieee => f.expo x == f.emax && f.frac x != 0
  | .e4m3 => f.expo x == f.emax && f.frac x == 2 ^ f.mbits - 1
  | .finite => false
/-- Is an encoding an infinity (R124)? -/
def Fmt.isInf (f : Fmt) (x : Nat) : Bool := f.kind == .ieee && f.expo x == f.emax && f.frac x == 0
/-- Is an encoding a nonzero subnormal? -/
def Fmt.isSub (f : Fmt) (x : Nat) : Bool := f.expo x == 0 && f.frac x != 0

/-- The value of an encoding (R122, R124). -/
def Fmt.value (f : Fmt) (x : Nat) : FV :=
  if f.isNan x then .nan
  else if f.isInf x then .inf (f.sign x)
  else if f.expo x = 0 then .fin (f.sign x) (f.frac x) (1 - (f.bias : Int) - f.mbits)
  else .fin (f.sign x) (2 ^ f.mbits + f.frac x) ((f.expo x : Int) - f.bias - f.mbits)

/-- Flush a subnormal encoding to the zero of its sign (R129). -/
def Fmt.flush (f : Fmt) (on : Bool) (x : Nat) : Nat := if on && f.isSub x then f.signBit (f.sign x) else x

/-- Does a magnitude round up? `n` is its integer part, `r` of `den` the rest, `sticky` a further rest below. -/
def roundsUp (rm : Rm) (neg : Bool) (n r den : Nat) (sticky : Bool) : Bool :=
  match rm with
  | .rne => decide (den < 2 * r) || (2 * r == den && (sticky || n % 2 == 1))
  | .rtz => false
  | .rup => !neg && (r != 0 || sticky)
  | .rdn => neg && (r != 0 || sticky)

/-- The integer nearest m · 2^sh (sh may be negative) in the mode (R127). -/
def roundInt (rm : Rm) (neg : Bool) (m : Nat) (sh : Int) (sticky : Bool) : Nat :=
  if 0 ≤ sh then m * 2 ^ sh.toNat + (if roundsUp rm neg (m * 2 ^ sh.toNat) 0 1 sticky then 1 else 0)
  else
    let den := 2 ^ (-sh).toNat
    m / den + (if roundsUp rm neg (m / den) (m % den) den sticky then 1 else 0)

/-- The result of an overflow (R127, R128). -/
def Fmt.overflow (f : Fmt) (rm : Rm) (neg : Bool) : Nat :=
  match f.kind, rm, neg with
  | .ieee, .rtz, _ => f.maxBits
  | .ieee, .rup, true => f.maxBits
  | .ieee, .rdn, false => f.maxBits
  | _, _, _ => f.infBits

/-- Round ±m · 2^e, plus a rest below when `sticky`, to the format (R126 to R128). -/
def Fmt.roundMag (f : Fmt) (rm : Rm) (neg : Bool) (m : Nat) (e : Int) (sticky : Bool) : Nat :=
  if m = 0 && !sticky then f.signBit neg
  else
    let top : Int := e + (Nat.log2 m : Int)
    let q : Int := max (top - f.mbits) (1 - (f.bias : Int) - f.mbits)
    let n := roundInt rm neg m (e - q) sticky
    let field : Nat := (q + f.mbits + f.bias - 1).toNat
    let mag := field * 2 ^ f.mbits + n
    f.signBit neg + (if mag ≤ f.maxBits then mag else f.overflow rm neg)

/-- Round a value to the format (R126, R128). -/
def Fmt.round (f : Fmt) (rm : Rm) : FV → Nat
  | .nan => f.nan
  | .inf neg => f.signBit neg + f.infBits
  | .fin neg m e => f.roundMag rm neg m e false

/-! ### Exact values -/

/-- The exact product; an invalid one is NaN (R132). -/
def FV.mul : FV → FV → FV
  | .nan, _ => .nan
  | _, .nan => .nan
  | .inf a, .inf b => .inf (a != b)
  | .inf a, .fin b m _ => if m = 0 then .nan else .inf (a != b)
  | .fin a m _, .inf b => if m = 0 then .nan else .inf (a != b)
  | .fin a m e, .fin b n g => .fin (a != b) (m * n) (e + g)
/-- The value with its sign changed. -/
def FV.neg : FV → FV
  | .nan => .nan
  | .inf a => .inf !a
  | .fin a m e => .fin (!a) m e
/-- Is it NaN? -/
def FV.isNan : FV → Bool
  | .nan => true
  | _ => false
/-- Is it the infinity of a sign? -/
def FV.isInf (neg : Bool) : FV → Bool
  | .inf a => a == neg
  | _ => false
/-- Is it a zero of a sign? -/
def FV.isZero (neg : Bool) : FV → Bool
  | .fin a m _ => m == 0 && a == neg
  | _ => false
/-- The least exponent of the finite terms. -/
def minExp : List FV → Int → Int
  | [], e => e
  | .fin _ _ g :: r, e => minExp r (min g e)
  | _ :: r, e => minExp r e
/-- ±m · 2^(e − lo) as an integer. -/
def FV.scaled (lo : Int) : FV → Int
  | .fin neg m e => let x : Int := m * 2 ^ (e - lo).toNat; if neg then -x else x
  | _ => 0
/-- The sum of the terms in units of 2^lo. -/
def sumScaled (lo : Int) : List FV → Int
  | [] => 0
  | t :: r => t.scaled lo + sumScaled lo r
/-- An integer times 2^e. -/
def FV.ofInt (x : Int) (e : Int) : FV := .fin (decide (x < 0)) x.natAbs e

/-- The exact sum of the terms (R126, R132, R135, R139): NaN for a NaN or opposed infinities; an exact zero sum keeps the
sign all its zero terms share, and is otherwise −0 in RDN and +0 in the other modes. -/
def sumExact (rm : Rm) (ts : List FV) : FV :=
  if ts.any FV.isNan || (ts.any (FV.isInf true) && ts.any (FV.isInf false)) then .nan
  else if ts.any (FV.isInf true) then .inf true
  else if ts.any (FV.isInf false) then .inf false
  else
    let lo := minExp ts 0
    let x := sumScaled lo ts
    if x = 0 then
      if ts.all (FV.isZero true) then .fin true 0 0
      else if ts.all (FV.isZero false) then .fin false 0 0
      else .fin (rm == .rdn) 0 0
    else FV.ofInt x lo

/-- x < y for values that are no NaN, with −0 equal to +0. -/
def FV.lt : FV → FV → Bool
  | .nan, _ => false
  | _, .nan => false
  | .inf a, .inf b => a && !b
  | .inf a, .fin .. => a
  | .fin .., .inf b => !b
  | .fin a m e, .fin b n g =>
    let lo := min e g
    decide ((FV.fin a m e).scaled lo < (FV.fin b n g).scaled lo)
/-- x = y for values that are no NaN, with −0 equal to +0. -/
def FV.eq (x y : FV) : Bool := !x.isNan && !y.isNan && !x.lt y && !y.lt x
/-- Does x come before y where −0 < +0 (R139, R224)? -/
def FV.below (x y : FV) : Bool := x.lt y || (x.isZero true && y.isZero false)

/-! ### Two-operand arithmetic on encodings, with R129 -/

/-- MODE as a meaning reads it (R52). -/
structure FpMode where
  rm : Rm
  fin : Bool
  fout : Bool
  deriving DecidableEq, Repr

/-- The fields of MODE (Table 2.2). -/
def FpMode.ofBits (m : Nat) : FpMode := ⟨Rm.ofCode (m % 4), m / 4 % 2 == 1, m / 8 % 2 == 1⟩
/-- Round to nearest even, subnormals preserved (R131, R138). -/
def FpMode.plain : FpMode := ⟨.rne, false, false⟩

/-- An input after flush-in. -/
def Fmt.read (f : Fmt) (md : FpMode) (x : Nat) : FV := f.value (f.flush md.fin x)
/-- A result rounded in the mode and flushed out. -/
def Fmt.write (f : Fmt) (md : FpMode) (v : FV) : Nat := f.flush md.fout (f.round md.rm v)
/-- x + y (R222). -/
def Fmt.add (f : Fmt) (md : FpMode) (x y : Nat) : Nat := f.write md (sumExact md.rm [f.read md x, f.read md y])
/-- x − y (R222). -/
def Fmt.sub (f : Fmt) (md : FpMode) (x y : Nat) : Nat := f.write md (sumExact md.rm [f.read md x, (f.read md y).neg])
/-- x · y (R222). -/
def Fmt.mul (f : Fmt) (md : FpMode) (x y : Nat) : Nat := f.write md ((f.read md x).mul (f.read md y))
/-- x · y + z with one rounding (R222). -/
def Fmt.fma (f : Fmt) (md : FpMode) (x y z : Nat) : Nat :=
  f.write md (sumExact md.rm [(f.read md x).mul (f.read md y), f.read md z])
/-- The lesser of x and y (R224). -/
def Fmt.min (f : Fmt) (md : FpMode) (x y : Nat) : Nat :=
  let a := f.flush md.fin x
  let b := f.flush md.fin y
  f.flush md.fout (if f.isNan a || f.isNan b then f.nan else if (f.value b).below (f.value a) then b else a)
/-- The greater of x and y (R224). -/
def Fmt.max (f : Fmt) (md : FpMode) (x y : Nat) : Nat :=
  let a := f.flush md.fin x
  let b := f.flush md.fin y
  f.flush md.fout (if f.isNan a || f.isNan b then f.nan else if (f.value a).below (f.value b) then b else a)
/-- Clear the sign bit (R224). -/
def Fmt.abs (f : Fmt) (x : Nat) : Nat := x % 2 ^ (f.ebits + f.mbits)
/-- Invert the sign bit (R224). -/
def Fmt.negate (f : Fmt) (x : Nat) : Nat := x % 2 ^ (f.ebits + f.mbits) + f.signBit (!f.sign x)
/-- The integral value of R227, in a mode of its own. -/
def FV.integral (rm : Rm) : FV → FV
  | .fin neg m e => if 0 ≤ e then .fin neg m e else .fin neg (roundInt rm neg m e false) 0
  | v => v
/-- FRND (R227). -/
def Fmt.frnd (f : Fmt) (md : FpMode) (rm : Rm) (x : Nat) : Nat :=
  f.flush md.fout (f.round rm ((f.read md x).integral rm))
/-- The class bit of an element (R226). -/
def Fmt.fclass (f : Fmt) (x : Nat) : Nat :=
  if f.isNan x then 2 ^ 8
  else
    let neg := f.sign x
    if f.isInf x then (if neg then 2 ^ 0 else 2 ^ 7)
    else if f.expo x ≠ 0 then (if neg then 2 ^ 1 else 2 ^ 6)
    else if f.frac x ≠ 0 then (if neg then 2 ^ 2 else 2 ^ 5)
    else if neg then 2 ^ 3 else 2 ^ 4

/-- A value to an integer between lo and hi (R128): rounded, saturating, NaN gives 0. -/
def FV.toInt (rm : Rm) (lo hi : Int) : FV → Int
  | .nan => 0
  | .inf neg => if neg then lo else hi
  | .fin neg m e =>
    let n : Int := roundInt rm neg m e false
    let x := if neg then -n else n
    if x < lo then lo else if hi < x then hi else x

/-! ### Special functions (R136, R137), by integer approximation with 320 bits after the point -/

/-- Bits after the point. (DEDUCED, log entry 13.) -/
def spBits : Nat := 320
/-- The value 1. -/
def spOne : Nat := 2 ^ spBits

/-- Σ z^(2j+1)/(2j+1) from the power `t` = z^(2j+1): the terms of artanh. -/
def atanhTerms (z2 : Nat) : Nat → Nat → Nat → Nat
  | 0, _, _ => 0
  | fuel + 1, j, t => t / (2 * j + 1) + atanhTerms z2 fuel (j + 1) (t * z2 / spOne)
/-- ln((1 + z)/(1 − z)) for a fraction z ≤ 1/3. -/
def lnRatio (z : Nat) : Nat := 2 * atanhTerms (z * z / spOne) 110 0 z
/-- ln 2. -/
def ln2 : Nat := lnRatio (spOne / 3)
/-- Σ r^j / j! from the term `t`. -/
def expTerms (r : Nat) : Nat → Nat → Nat → Nat
  | 0, _, _ => 0
  | fuel + 1, j, t => t + expTerms r fuel (j + 1) (t * r / spOne / (j + 1))
/-- e^r for a fraction 0 ≤ r < 1. -/
def expFrac (r : Nat) : Nat := expTerms r 80 0 spOne
/-- ±m · 2^e in units of 2^−320, rounded down. -/
def fixedOf (neg : Bool) (m : Nat) (e : Int) : Int :=
  let s := e + spBits
  let x : Int := if 0 ≤ s then m * 2 ^ s.toNat else m / 2 ^ (-s).toNat
  if neg then -x else x
/-- e^x, for x in units of 2^−320: a significand and its binary exponent. -/
def expFixed (x : Int) : Nat × Int :=
  let n := x / (ln2 : Int)
  (expFrac (x % (ln2 : Int)).toNat, n - spBits)
/-- 2^x likewise. -/
def exp2Fixed (x : Int) : Nat × Int :=
  let n := x / (spOne : Int)
  (expFrac ((x % (spOne : Int)).toNat * ln2 / spOne), n - spBits)

/-- Is ±m · 2^e an integer, or of a magnitude of at least 2^k? -/
def magAtLeast (m : Nat) (e : Int) (k : Int) : Bool := m != 0 && decide (k ≤ e + (Nat.log2 m : Int))

/-- EXP2 before flush-out (Table 5.4). (DEDUCED, log entry 13.) -/
def exp2V : FV → Nat
  | .nan => f32.nan
  | .inf neg => if neg then 0 else f32.infBits
  | .fin neg m e =>
    if magAtLeast m e 8 then (if neg then 0 else f32.infBits)
    else
      let x := fixedOf neg m e
      if m = 0 then f32.round .rne (.fin false 1 0)
      else if 0 ≤ e ∨ x % (spOne : Int) = 0 ∧ -spBits ≤ e then f32.round .rne (.fin false 1 (x / (spOne : Int)))
      else
        let (y, g) := exp2Fixed x
        f32.roundMag .rne false y g true
/-- EXPE: e^x, used by RSUMEXP (R140). -/
def expeV : FV → Nat
  | .nan => f32.nan
  | .inf neg => if neg then 0 else f32.infBits
  | .fin neg m e =>
    if m = 0 then f32.round .rne (.fin false 1 0)
    else if magAtLeast m e 8 then (if neg then 0 else f32.infBits)
    else
      let (y, g) := expFixed (fixedOf neg m e)
      f32.roundMag .rne false y g true
/-- LOG2 (Table 5.4). -/
def log2V : FV → Nat
  | .nan => f32.nan
  | .inf neg => if neg then f32.nan else f32.infBits
  | .fin neg m e =>
    if m = 0 then f32.signBit true + f32.infBits
    else if neg then f32.nan
    else
      let k := Nat.log2 m
      let n : Int := e + k
      if m = 2 ^ k then f32.round .rne (FV.ofInt n 0)
      else
        let z := (m - 2 ^ k) * spOne / (m + 2 ^ k)
        let y : Int := n * spOne + (lnRatio z * spOne / ln2 : Nat)
        f32.roundMag .rne (decide (y < 0)) y.natAbs (-spBits) true
/-- RCP (Table 5.4). -/
def rcpV : FV → Nat
  | .nan => f32.nan
  | .inf neg => f32.signBit neg
  | .fin neg m e =>
    if m = 0 then f32.signBit neg + f32.infBits
    else f32.roundMag .rne neg (2 ^ 80 / m) (-80 - e) (2 ^ 80 % m != 0)
/-- RSQRT (Table 5.4): with e made even, the square root of 2^160 / m. -/
def rsqrtV : FV → Nat
  | .nan => f32.nan
  | .inf neg => if neg then f32.nan else 0
  | .fin neg m e =>
    if m = 0 then f32.signBit neg + f32.infBits
    else if neg then f32.nan
    else
      let m' := if e % 2 = 0 then m else 2 * m
      let e' := if e % 2 = 0 then e else e - 1
      let y := Nat.sqrt (2 ^ 160 / m')
      f32.roundMag .rne false y (-80 - e' / 2) (y * y * m' != 2 ^ 160)
/-- TANH (R137). -/
def tanhV : FV → Nat
  | .nan => f32.nan
  | .inf neg => f32.round .rne (.fin neg 1 0)
  | .fin neg m e =>
    if (FV.fin false m e).lt (.fin false 1 (-12)) then f32.round .rne (.fin neg m e)
    else if !(FV.fin false m e).lt (.fin false 19 (-1)) then f32.round .rne (.fin neg 1 0)
    else
      let (y, g) := expFixed (2 * fixedOf false m e)
      let t := y * 2 ^ (g + spBits).toNat
      f32.roundMag .rne neg ((t - spOne) * spOne / (t + spOne)) (-spBits) true
/-- LOGIS (R137). -/
def logisV : FV → Nat
  | .nan => f32.nan
  | .inf neg => if neg then 0 else f32.round .rne (.fin false 1 0)
  | .fin neg m e =>
    if !neg && !(FV.fin false m e).lt (.fin false 18 0) then f32.round .rne (.fin false 1 0)
    else if neg && !(FV.fin false m e).lt (.fin false 105 0) then 0
    else if m = 0 then f32.round .rne (.fin false 1 (-1))
    else
      let (y, g) := expFixed (fixedOf false m e)
      let t := y * 2 ^ (g + spBits).toNat
      let num := if neg then spOne else t
      f32.roundMag .rne false (num * spOne / (t + spOne)) (-spBits) true

/-- A special function with MODE.SUB on its input and result (R136). -/
def special (g : FV → Nat) (md : FpMode) (x : Nat) : Nat := f32.flush md.fout (g (f32.read md x))
/-- The FP16 result form (R136, R231): the FP32 result rounded once more. -/
def toF16 (x : Nat) : Nat := f16.round .rne (f32.value x)

/-! ### Sums of products -/

/-- One group of eight products of the matrix array, as FP32 (R132). -/
def groupSum (ps : List (FV × FV)) : Nat := f32.round .rne (sumExact .rne (ps.map fun p => p.1.mul p.2))
/-- An FP32 element of the matrix array: groups of eight in ascending k (R132). -/
def mmaF32 (acc : Nat) : List (List (FV × FV)) → Nat
  | [] => acc
  | g :: r => mmaF32 (f32.add .plain acc (groupSum g)) r
/-- An FP64 element of the matrix array (R133). -/
def mmaF64 (acc : Nat) : List (Nat × Nat) → Nat
  | [] => acc
  | (a, b) :: r => mmaF64 (f64.fma .plain a b acc) r
/-- −0 in FP32, where .zero starts (R132). -/
def f32MinusZero : Nat := 2 ^ 31
/-- −0 in FP64 (R133). -/
def f64MinusZero : Nat := 2 ^ 63
/-- The floating DOT (R135): one rounding of c plus the products in the MODE rounding mode. -/
def dotF (md : FpMode) (c : Nat) (ps : List FV) : Nat := f32.write md (sumExact md.rm (f32.read md c :: ps))

/-! ### The Recorder (R138 to R143), on FP32 encodings -/

/-- The largest element, −0 < +0; NaN if any element is (R139). -/
def recMax : List Nat → Nat
  | [] => 0
  | x :: r => r.foldl (f32.max .plain) (if f32.isNan x then f32.nan else x)
/-- RNE of the exact sum (R139). -/
def recSum (xs : List Nat) : Nat := f32.round .rne (sumExact .rne (xs.map f32.value))
/-- term(x, mn) of R140. -/
def expTerm (mn x : Nat) : Nat :=
  if x = f32.signBit true + f32.infBits then 0
  else if (f32.value x).eq (f32.value mn) then f32.round .rne (.fin false 1 0)
  else expeV (f32.value (f32.sub .plain x mn))
/-- One block of RSUMEXP (R140). -/
def expBlock (m s : Nat) (xs : List Nat) : Nat × Nat :=
  let mn := f32.max .plain m (recMax xs)
  let negInf := f32.signBit true + f32.infBits
  let f := if m = negInf then 0
    else if (f32.value m).eq (f32.value mn) then f32.round .rne (.fin false 1 0)
    else expeV (f32.value (f32.sub .plain m mn))
  let t := recSum (xs.map (expTerm mn))
  (mn, f32.fma .plain s f t)
/-- The blocks of RSUMEXP in ascending index; `fuel` bounds them. -/
def expBlocks : Nat → Nat → Nat → List Nat → Nat × Nat
  | 0, m, s, _ => (m, s)
  | _, m, s, [] => (m, s)
  | fuel + 1, m, s, xs => let (m', s') := expBlock m s (xs.take 32); expBlocks fuel m' s' (xs.drop 32)
/-- RSUMEXP (R140). -/
def recSumExp (m0 s0 : Nat) (xs : List Nat) : Nat × Nat :=
  if f32.isNan m0 || f32.isNan s0 || xs.any f32.isNan then (f32.nan, f32.nan)
  else expBlocks xs.length m0 s0 xs
/-- RNE of an exact value divided by n ≥ 1 (R141). -/
def divRound (v : FV) (n : Nat) : Nat :=
  match v with
  | .fin neg m e => f32.roundMag .rne neg (m * 2 ^ 64 / n) (e - 64) (m * 2 ^ 64 % n != 0)
  | w => f32.round .rne w
/-- RMEANVAR (R141). -/
def recMeanVar (xs : List Nat) : Nat × Nat :=
  let vs := xs.map f32.value
  let mu := divRound (sumExact .rne vs) xs.length
  if vs.any (fun v => v.isNan || v.isInf true || v.isInf false) then (mu, f32.nan)
  else
    let ds := vs.map fun v => sumExact .rne [v, (f32.value mu).neg]
    (mu, divRound (sumExact .rne (ds.map fun d => d.mul d)) xs.length)
/-- RNORM of one element (R142). -/
def recNorm (mu v e x : Nat) : Nat :=
  let r := rsqrtV (f32.value (f32.add .plain v e))
  f32.round .rne ((sumExact .rne [f32.value x, (f32.value mu).neg]).mul (f32.value r))

/-- Does an element with its index rank before another (R143)? -/
def ranksBefore (f : Fmt) (a b : Nat × Nat) : Bool :=
  match f.isNan a.1, f.isNan b.1 with
  | true, true => decide (a.2 < b.2)
  | true, false => false
  | false, true => true
  | false, false =>
    (f.value b.1).lt (f.value a.1) || (!(f.value a.1).lt (f.value b.1) && decide (a.2 < b.2))
/-- Put an element into a list in ranking order. -/
def rankInsert (f : Fmt) (x : Nat × Nat) : List (Nat × Nat) → List (Nat × Nat)
  | [] => [x]
  | y :: r => if ranksBefore f x y then x :: y :: r else y :: rankInsert f x r
/-- The k first elements with their indices in ranking order (R143). -/
def rankRow (f : Fmt) (xs : List Nat) (k : Nat) : List (Nat × Nat) :=
  xs.zipIdx.foldl (fun acc x => (rankInsert f x acc).take k) []

end Sys2Proof.Machine
end

