-- ==== Sys2Proof/Machine/Flags.lean ====
section
/-! DEFINITION. Conditions and control fields: the device has no flag register (chapter 10), so these are the comparisons
that write predicates, and the fields of MODE, FMT, SHAPE, CIR and the bit-field patterns (chapters 02 and 03). -/

namespace Sys2Proof.Machine
open Sys2Proof

/-! ### Comparisons -/

/-- SETP's comparison at a width (R206). -/
def icond (c : ICond) (un : Bool) (w : Width) (a b : DWord) : Bool :=
  let lt (x y : DWord) : Bool :=
    match w, un with
    | .w32, true => (loWord x).ult (loWord y)
    | .w32, false => (loWord x).slt (loWord y)
    | .w64, true => x.ult y
    | .w64, false => x.slt y
  let eq : Bool := match w with
    | .w32 => loWord a == loWord b
    | .w64 => a == b
  match c with
  | .eq => eq
  | .ne => !eq
  | .lt => lt a b
  | .le => !lt b a
  | .gt => lt b a
  | .ge => !lt a b
/-- SSETP's comparison (R217). -/
def scond (c : SCond) (a b : DWord) : Bool :=
  match c with
  | .eq => a == b
  | .ne => a != b
  | .lt => a.slt b
  | .le => a.sle b
  | .gt => b.slt a
  | .ge => b.sle a
  | .ltu => a.ult b
  | .geu => b.ule a
/-- FSETP's comparison (R225). -/
def fcond (c : FCond) (x y : FV) : Bool :=
  let un := x.isNan || y.isNan
  match c with
  | .eq => !un && x.eq y
  | .ne => un || !x.eq y
  | .lt => !un && x.lt y
  | .le => !un && !y.lt x
  | .gt => !un && y.lt x
  | .ge => !un && !x.lt y
  | .ord => !un
  | .unord => un

/-! ### MODE and FMT (R52, R53) -/

/-- MODE as stored: its defined fields. -/
def modeBits (x : DWord) : DWord := x &&& 0xF
/-- FMT as stored: its defined fields. -/
def fmtBits (x : DWord) : DWord := x &&& 0xFF
/-- A reserved code in FMT (Table 2.4). -/
def fmtLegal (x : DWord) : Bool := decide (x.toNat % 16 < 7) && decide (x.toNat / 16 % 16 < 7)
/-- FMT.FA. -/
def fmtA (x : DWord) : Nat := x.toNat % 16
/-- FMT.FB. -/
def fmtB (x : DWord) : Nat := x.toNat / 16 % 16
/-- Does DOT4 accept an element code (R233)? -/
def dot4Ok (c : Nat) : Bool := decide (c < 4)
/-- Does DOT8 accept an element code (R233)? -/
def dot8Ok (c : Nat) : Bool := decide (4 ≤ c) && decide (c < 7)
/-- A two's complement reading of the low `n` bits. -/
def sext (n x : Nat) : Int := if x % 2 ^ n < 2 ^ (n - 1) then x % 2 ^ n else (x % 2 ^ n : Int) - 2 ^ n
/-- The exact value of a DOT element by its code; none for a floating one (Table 2.4, R135). -/
def dotInt (c x : Nat) : Option Int :=
  match c with
  | 0 => some (sext 8 x)
  | 1 => some (x % 256 : Nat)
  | 4 => some (sext 4 x)
  | 5 => some (x % 16 : Nat)
  | _ => none
/-- The value of a DOT element. -/
def dotValue (c x : Nat) : FV :=
  match dotInt c x with
  | some v => FV.ofInt v 0
  | none =>
    match c with
    | 2 => f8e4.value (x % 256)
    | 3 => f8e5.value (x % 256)
    | _ => f4e2.value (x % 16)

/-! ### SHAPE (R54) -/

/-- SHAPE.ROWS. -/
def shapeRows (x : DWord) : Nat := x.toNat % 128
/-- SHAPE.COLS. -/
def shapeCols (x : DWord) : Nat := x.toNat / 2 ^ 8 % 128
/-- SHAPE.ESZ. -/
def shapeEsz (x : DWord) : Nat := x.toNat / 2 ^ 16 % 4
/-- Elements in one tile row for ESZ (R54). -/
def eszElems (esz : Nat) : Nat :=
  match esz with
  | 0 => 64
  | 1 => 32
  | _ => 16
/-- a / b rounded up. -/
def ceilDiv (a b : Nat) : Nat := (a + b - 1) / b
/-- Tiles of a group of rows × cols elements, `e` elements to a tile row (R57, R292). -/
def groupTiles (rows cols e : Nat) : Nat := ceilDiv rows 32 * ceilDiv cols e
/-- Is a SHAPE value legal (R54)? -/
def shapeLegal (x : DWord) : Bool :=
  decide (1 ≤ shapeRows x) && decide (shapeRows x ≤ 64) && decide (1 ≤ shapeCols x) && decide (shapeCols x ≤ 64) &&
    shapeEsz x != 3 && decide (groupTiles (shapeRows x) (shapeCols x) (eszElems (shapeEsz x)) ≤ 4)
/-- SHAPE as stored: its defined fields. -/
def shapeBits (x : DWord) : DWord := x &&& 0x37F7F

/-! ### CIR (R55) -/

/-- CIR after a write of ones to its W1C fields; PCNT goes with PSN (R55, R334). -/
def cirClear (cir : DWord) (psn rbk : Bool) : DWord :=
  let x := if psn then cir &&& ~~~(0xFF01 : DWord) else cir
  if rbk then x &&& ~~~(2 : DWord) else x

/-! ### Bit-field patterns (R96, R97) -/

/-- The fields of BX0 to BX3 (Table 3.7). -/
structure BxPat where
  wid : Nat
  outw : Nat
  sx : Bool
  off : Nat
  nper : Nat
  stride : Nat
  period : Nat
  first : Nat
  deriving DecidableEq, Repr
/-- Read a pattern; `outw` is the OUT width. -/
def bxPat (x : DWord) : BxPat where
  wid := x.toNat % 16 + 1
  outw := 4 * 2 ^ (x.toNat / 16 % 4)
  sx := x.getLsbD 6
  off := x.toNat / 2 ^ 8 % 128
  nper := x.toNat / 2 ^ 16 % 32
  stride := x.toNat / 2 ^ 24 % 256
  period := x.toNat / 2 ^ 32 % 256
  first := x.toNat / 2 ^ 40 % 256
/-- BX as stored: its defined fields. -/
def bxBits (x : DWord) : DWord := x &&& 0xFFFFFF1F7F7F
/-- Is a pattern legal (R96)? OUT 11 is a reserved code (R51). Its conditions let STRIDE
be 129 to 255 where NPER is 0. (DESIGN CHOICE, log entry 75.) -/
def bxLegal (x : DWord) : Bool :=
  let p := bxPat x
  x.toNat / 16 % 4 != 3 &&
    (p.period == 0 ||
      (decide (p.wid ≤ p.outw) && decide (p.wid ≤ p.stride) && decide (p.off + p.nper * p.stride + p.wid ≤ p.period) &&
        decide (p.period ≤ 128)))
/-- First bit of output element `k`, counted from bit 0 of the byte at ea (R97). -/
def BxPat.pos (p : BxPat) (k : Nat) : Nat :=
  let e := k + p.first
  e / (p.nper + 1) * p.period + p.off + e % (p.nper + 1) * p.stride
/-- Do all extracted bits lie in the 32 bytes from ea, and is the pattern set (R97)? -/
def BxPat.fits (p : BxPat) : Bool :=
  p.period != 0 && (List.range (32 / p.outw)).all fun k => decide (p.pos k + p.wid ≤ 256)
/-- Output element `k` from the 256 bits at ea (R97). -/
def BxPat.elem (p : BxPat) (bits : Nat) (k : Nat) : Nat :=
  let x := bits / 2 ^ p.pos k % 2 ^ p.wid
  if p.sx then ((sext p.wid x) % (2 : Int) ^ p.outw).toNat else x
/-- The register a .bfx load writes (R97). -/
def BxPat.extract (p : BxPat) (bits : Nat) : Nat :=
  (List.range (32 / p.outw)).foldl (fun acc k => acc + p.elem bits k * 2 ^ (p.outw * k)) 0

end Sys2Proof.Machine
end

