-- ==== Sys2Proof/Machine/Memory.lean ====
section
/-! DEFINITION. Memory: bytes and locations, translation (R402 to R405), the stores in flight and what each agent sees of
them (R101 to R108), and the atomic operations (Table 12.2). -/

namespace Sys2Proof.Machine
open Sys2Proof

/-! ### Bytes -/

/-- The low `n` bytes of a double-word, bits 7:0 first (R14). -/
def bytesOf : Nat → DWord → List Byte
  | 0, _ => []
  | n + 1, x => x.extractLsb' 0 8 :: bytesOf n (x >>> 8)
/-- A double-word from its bytes, lowest first. -/
def ofBytes : List Byte → DWord
  | [] => 0
  | b :: r => b.zeroExtend 64 ||| (ofBytes r <<< 8)
/-- The byte at a location, as performed with respect to every thread. (DESIGN CHOICE, log entry 2.) -/
def State.byte (s : State) (loc : Nat) : Byte := sget 0 s.mem loc
/-- The `n` bytes from a location. -/
def State.bytes (s : State) (loc : Nat) : Nat → List Byte
  | 0 => []
  | n + 1 => s.byte loc :: s.bytes (loc + 1) n
/-- Write bytes from a location. -/
def putBytes (m : List Host.Cell) (loc : Nat) : List Byte → List Host.Cell
  | [] => m
  | b :: r => putBytes (sput 0 m loc b) (loc + 1) r
/-- The double-word at a location. -/
def State.dwordAt (s : State) (loc : Nat) : DWord := ofBytes (s.bytes loc 8)

/-! ### Locations -/

/-- First location of a scratchpad byte. -/
def spadBase : Nat := 2 ^ 60
/-- Location of a byte of a core's scratchpad (R78). -/
def spadLoc (k off : Nat) : Nat := spadBase + 2 ^ 20 * k + off
/-- First location of hub memory, which holds the image (R439). (DEDUCED, log entry 35.) -/
def hubMemory : Nat := 2 ^ 59
/-- First physical address outside device memory (R73). -/
def devLimit : Nat := 2 ^ 39
/-- First physical address of peer memory (R404). -/
def peerBase : Nat := 2 ^ 51
/-- Location of a byte of host memory (R404). (DEDUCED, log entry 47.) -/
def hostLoc (hpa : Nat) : Nat := devLimit + hpa
/-- Host addresses the device can reach (R404). -/
def hostLimit : Nat := peerBase - devLimit
/-- Little-endian value of `n` bytes at an offset. -/
def leAt (bs : List Byte) (o n : Nat) : Nat := ((bs.drop o).take n).foldr (fun b x => b.toNat + 256 * x) 0
/-- HBM stack of a device address (R73). -/
def stackOf (pa : Nat) : Nat := (pa / 2 ^ 12 % 8) ^^^ (pa / 2 ^ 24 % 8)
/-- Home tower of a device address (R73). -/
def towerOf (pa : Nat) : Nat := stackOf pa / 2
/-- Home L2 slice of a device address (R73). -/
def sliceOf (pa : Nat) : Nat := (pa / 2 ^ 15 % 64) ^^^ (pa / 2 ^ 7 % 64)
/-- The 32-byte sector of a location (R423). -/
def sectorOf (loc : Nat) : Nat := loc / 32
/-- Is any of `n` bytes from a location poisoned (R423)? -/
def State.poisoned (s : State) (loc n : Nat) : Bool :=
  decide (loc < spadBase) && s.poison.any fun x => decide (loc < 32 * x + 32) && decide (32 * x < loc + n)
/-- The port of a peer address (R404). -/
def portOf (pa : Nat) : Nat := pa / 2 ^ 47 % 16
/-- R404: is a physical address one that exists? -/
def paOk (pa : Nat) : Bool :=
  decide (pa < peerBase) || (decide (portOf pa < 12) && decide (pa / 2 ^ 39 % 256 = 0))
/-- The 64 KiB page of a physical address between devices (R119). -/
def devPage (pa : Nat) : Nat := pa / 2 ^ 16

/-- What becomes of a request (R434, R437, R438, R119, R467). -/
inductive Reach where
  | served | waits | dead
  deriving DecidableEq, Repr

/-- The state a peer holds of a page homed here. -/
def State.heldBy (s : State) (page port : Nat) : PageState := (sfind s.homePages (16 * page + port)).getD .i
/-- The state this device holds of a peer's page. -/
def State.peerPage (s : State) (page : Nat) : PageState := (sfind s.peerPages page).getD .i
/-- The bridges of a tower over which a request from another tower, or from the hub, can come (R4): instance numbers of R419.
(DEDUCED, log entry 46.) -/
def bridgesFrom (from_ t : Nat) : List Nat :=
  if 4 ≤ from_ then [0] else if (t + 1) % 4 = from_ then [1] else if (from_ + 1) % 4 = t then [2] else [1, 2]
/-- Is a bridge of a tower awake? -/
def Tower.bridgeUp (t : Tower) (b : Nat) : Bool := t.awake / 2 ^ b % 2 == 1
/-- Does a request of core `k` to a location proceed? `wr` a write, `uc` one that no state of a peer's page holds up (R119). -/
def State.reach (s : State) (k loc : Nat) (wr uc : Bool) : Reach :=
  if loc < devLimit then
    let t := s.tower (towerOf loc)
    match t.phase with
    | .dead => .dead
    | .run | .quiescing =>
      if coreTower k ≠ towerOf loc ∧ (bridgesFrom (coreTower k) (towerOf loc)).any t.bridgeUp = false then .waits
      else if (List.range 12).any fun p =>
          s.heldBy (devPage loc) p == .m || (wr && s.heldBy (devPage loc) p == .s) then .waits
      else .served
    | _ => .waits
  else if loc < peerBase then .served
  else if loc < hubMemory then
    if !(s.port (portOf loc)).up then .dead
    else if uc then .served
    else
      match s.peerPage (devPage loc), wr with
      | .m, _ => .served
      | .s, false => .served
      | _, _ => .waits
  else .served

/-! ### Translation (R402 to R406) -/

/-- A page as a translation finds it (Table 25.2): its virtual and physical base, 2^lg bytes, and its attributes. -/
structure Page where
  vbase : Nat
  base : Nat
  lg : Nat
  treat : Nat
  ro : Bool
  beam : Bool
  bt : Nat
  deriving DecidableEq, Repr

/-- The outcome of a translation: a page, or the kind and level of the failure (Table 25.3). -/
inductive Trans where
  | ok (p : Page)
  | bad (kind level : Nat)
  deriving DecidableEq, Repr

/-- log2 of the page size of SZ (Table 25.2). -/
def pageLg (sz : Nat) : Nat :=
  match sz with
  | 0 => 16
  | 1 => 21
  | 2 => 26
  | _ => 29
/-- The page a leaf describes for a virtual address. -/
def leafPage (e : DWord) (va : Nat) : Page :=
  let lg := pageLg (e.toNat / 4 % 4)
  { vbase := va / 2 ^ lg * 2 ^ lg, base := e.toNat / 2 ^ 12 % 2 ^ 40 * 2 ^ 12, lg := lg, treat := e.toNat / 16 % 4,
    ro := e.getLsbD 6, beam := e.getLsbD 7, bt := e.toNat / 2 ^ 8 % 4 }
/-- May a leaf stand at a level, with every field legal (R402, R404)? -/
def leafOk (level : Nat) (e : DWord) : Bool :=
  let sz := e.toNat / 4 % 4
  let pa := e.toNat / 2 ^ 12 % 2 ^ 40 * 2 ^ 12
  (if level = 2 then sz == 3 else level == 3 && sz != 3) && e.toNat / 16 % 4 != 3 && e.toNat / 2 ^ 10 % 4 == 0 &&
    decide (e.toNat / 2 ^ 52 = 0) && decide (pa % 2 ^ pageLg sz = 0) && paOk pa
/-- May a pointer stand at a level (R402)? -/
def pointerOk (level : Nat) (e : DWord) : Bool :=
  decide (level < 3) && decide (e.toNat / 4 % 2 ^ 14 = 0) && decide (e.toNat / 2 ^ 52 = 0) &&
    paOk (e.toNat / 2 ^ 16 % 2 ^ 36 * 2 ^ 16)
/-- The index into the table of a level (R402). -/
def walkIndex (level va : Nat) : Nat :=
  match level with
  | 0 => va / 2 ^ 55 % 4
  | 1 => va / 2 ^ 42 % 2 ^ 13
  | 2 => va / 2 ^ 29 % 2 ^ 13
  | _ => va / 2 ^ 16 % 2 ^ 13
/-- Does the read of an entry fail (R405)? -/
def State.entryBad (s : State) (loc : Nat) : Bool :=
  s.poisoned loc 8 || (decide (loc < devLimit) && (s.tower (towerOf loc)).phase == .dead) ||
    (decide (peerBase ≤ loc) && decide (loc < hubMemory) && !(s.port (portOf loc)).up)
/-- Does the read of an entry wait: its home is a tower that answers no request now (R434, R435)? -/
def State.entryWaits (s : State) (loc : Nat) : Bool :=
  decide (loc < devLimit) && (match (s.tower (towerOf loc)).phase with
    | .fenced | .resetting | .waking => true
    | _ => false)
/-- log2 of the range of addresses that an entry of a level serves. -/
def walkLg (level : Nat) : Nat :=
  match level with
  | 0 => 55
  | 1 => 42
  | 2 => 29
  | _ => 16
/-- The leaf that the levels of a walk that remain find (R402, R405), or the kind and level of the failure; `fuel` is 4 at level 0. A
pointer entry that the device has cached serves in place of the one in memory (R406). -/
def State.walkLeaf (s : State) (c va : Nat) : Nat → Nat → (Nat × Nat) ⊕ DWord
  | 0, _ => .inl (1, 3)
  | fuel + 1, table =>
    let level := 3 - fuel
    match s.tlb.find? fun t => t.ctx == c && t.level == level && decide (level < 3) && t.page == va / 2 ^ walkLg level with
    | some t => s.walkLeaf c va fuel (t.leaf.toNat / 2 ^ 16 % 2 ^ 36 * 2 ^ 16)
    | none =>
      let loc := table + 8 * walkIndex level va
      let e := s.dwordAt loc
      if s.entryBad loc then .inl (3, level)
      else if s.entryWaits loc then .inl (walkWaits, level)
      else if !e.getLsbD 0 then .inl (0, level)
      else if e.getLsbD 1 then (if leafOk level e then .inr e else .inl (1, level))
      else if pointerOk level e then s.walkLeaf c va fuel (e.toNat / 2 ^ 16 % 2 ^ 36 * 2 ^ 16)
      else .inl (1, level)
/-- The walk of a context's tables (R402, R405). (DEDUCED, log entry 20.) -/
def State.walk (s : State) (c va : Nat) : (Nat × Nat) ⊕ DWord := s.walkLeaf c va 4 ((s.ctx c).root * 2 ^ 16)
/-- The context of the hub control core's own space. (DEDUCED, log entry 35.) -/
def hubCtx : Nat := 256
/-- Bytes of hub memory: the longest image body (R440). -/
def hubMemoryLg : Nat := 24
/-- The page of hub memory in the hub control core's space, from the address where boot loads the image (R439).
(DEDUCED, log entry 35.) -/
def hubPage (va : Nat) : Option Page :=
  if Config.hubBase.toNat ≤ va ∧ va < Config.hubBase.toNat + 2 ^ hubMemoryLg then
    some ⟨Config.hubBase.toNat, hubMemory, hubMemoryLg, 2, false, false, 0⟩
  else none
/-- Translate a virtual address of a context (R405, R406): any cached leaf serves, or else a walk; the hub control core reaches hub memory
where its tables map nothing. (DEDUCED, log entries 21 and 35.) -/
def State.translate (s : State) (c : Nat) (va : DWord) : Trans :=
  if va.toNat / 2 ^ 57 ≠ 0 then .bad 2 0
  else
    match s.tlb.find? fun t => t.ctx == c && decide (3 ≤ t.level) && t.page == va.toNat / 2 ^ pageLg (t.leaf.toNat / 4 % 4) with
    | some t => .ok (leafPage t.leaf va.toNat)
    | none =>
      match s.walk c va.toNat with
      | .inr e => .ok (leafPage e va.toNat)
      | .inl (kind, level) =>
        match if c = hubCtx then hubPage va.toNat else none with
        | some p => .ok p
        | none => .bad kind level
/-- The physical address of a virtual one in a page. -/
def Page.pa (p : Page) (va : Nat) : Nat := p.base + (va - p.vbase)
/-- A page fault of a failed translation (Table 25.3). -/
def pageTrap (kind level : Nat) (va : DWord) (lane : Nat) (wr : Bool) : Trap :=
  { cause := .pageFault, faddr := va, lane := lane, wr := wr, kind := kind, level := level }
/-- Translate and check protection (R90, R242 steps 2 to 4). -/
def State.probe (s : State) (c : Nat) (va : DWord) (lane : Nat) (wr : Bool) : Trap ⊕ Page :=
  match s.translate c va with
  | .bad kind level => .inl (pageTrap kind level va lane wr)
  | .ok p =>
    if wr && p.ro then .inl { cause := .protection, faddr := va, lane := lane, wr := true, kind := 4 } else .inr p
/-- First address of the BAR0 registers in the hub control core's space (R456). (DEDUCED, log entry 23.) -/
def hbar : Nat := 0xF000000000
/-- Is an access one to the BAR0 registers (R456)? (DEDUCED, log entry 23.) -/
def hubRegister (k : Nat) (va : DWord) : Bool := k == hubCore && decide (hbar ≤ va.toNat) && decide (va.toNat < hbar + 2 ^ 24)
/-- A span of virtual memory that is probed: address, bytes, and whether it is written. -/
abbrev Span := DWord × Nat × Bool
/-- The first address of a span in each of its 64 KiB pages, with whether it is written. -/
def spanPages (x : Span) : List (DWord × Bool) :=
  if x.2.1 = 0 then []
  else
    let p0 := x.1.toNat / 2 ^ 16
    (List.range ((x.1.toNat + x.2.1 - 1) / 2 ^ 16 - p0 + 1)).map fun j =>
      (if j = 0 then x.1 else BitVec.ofNat 64 ((p0 + j) * 2 ^ 16), x.2.2)
/-- Probe every page of a lane's spans for core `k`: every address range first, then every translation, then every protection (R242,
R260); the trap is at the first address of a span in the failing page. (DEDUCED, log entry 63.) -/
def State.probeSpans (s : State) (k c lane : Nat) (xs : List Span) : Option Trap :=
  let ps := (xs.flatMap spanPages).map fun x => (x, if hubRegister k x.1 then none else some (s.translate c x.1))
  let find (f : DWord × Bool → Option Trans → Option Trap) : Option Trap := ps.findSome? fun x => f x.1 x.2
  (find fun x t => match t with
    | some (.bad kind level) => if kind = 2 then some (pageTrap kind level x.1 lane x.2) else none
    | _ => none).or <|
  (find fun x t => match t with
    | some (.bad kind level) => some (pageTrap kind level x.1 lane x.2)
    | _ => none).or <|
  find fun x t => match t with
    | none => some { cause := .protection, faddr := x.1, lane := lane, wr := x.2 }
    | some (.ok p) => if x.2 && p.ro then some { cause := .protection, faddr := x.1, lane := lane, wr := true, kind := 4 } else none
    | _ => none
/-- Probe every page of one span. -/
def State.probeSpan (s : State) (k c : Nat) (va : DWord) (n lane : Nat) (wr : Bool) : Option Trap :=
  s.probeSpans k c lane [(va, n, wr)]
/-- The pieces of a span of virtual memory: location, length and page, each within 4 KiB, so that it has one home (R73); a piece without
a translation is left out. -/
def State.pieces (s : State) (c : Nat) (va n : Nat) : List (Nat × Nat × Page) :=
  go ((n + 2 ^ 12 - 1) / 2 ^ 12 + 1) va
where
  /-- The pieces from address `a` on. -/
  go : Nat → Nat → List (Nat × Nat × Page)
    | 0, _ => []
    | fuel + 1, a =>
      if va + n ≤ a then []
      else
        let e := min (va + n) ((a / 2 ^ 12 + 1) * 2 ^ 12)
        match s.translate c (BitVec.ofNat 64 a) with
        | .ok p => (p.pa a, e - a, p) :: go fuel e
        | .bad .. => go fuel e
/-- The runs of locations of a span, in order. -/
def State.runs (s : State) (c : Nat) (va n : Nat) : List (Nat × Nat) := (s.pieces c va n).map fun x => (x.1, x.2.1)
/-- The locations of a list of runs, in order. -/
def runLocs (rs : List (Nat × Nat)) : List Nat := rs.flatMap fun r => (List.range r.2).map (r.1 + ·)

/-! ### Atomic operations (Table 12.2) -/

/-- Width in bytes. -/
def atomSize : AtomOp → Nat
  | .addI64 | .exchN64 | .casN64 | .addF64 => 8
  | _ => 4
/-- Is it a compare and swap? -/
def atomIsCas : AtomOp → Bool
  | .casN32 | .casN64 => true
  | _ => false
/-- Each half of a packed sum. -/
def addF16x2 (a b : Word) : Word :=
  BitVec.ofNat 32 (f16.add .plain (a.toNat % 2 ^ 16) (b.toNat % 2 ^ 16) +
    2 ^ 16 * f16.add .plain (a.toNat / 2 ^ 16) (b.toNat / 2 ^ 16))
/-- The stored value: `b` the operand or the expected value, `nw` the new value of a cas; none when nothing is stored. -/
def atomStored (op : AtomOp) (old b nw : DWord) : Option DWord :=
  let o := loWord old
  let x := loWord b
  match op with
  | .addI32 => some ((o + x).zeroExtend 64)
  | .addI64 => some (old + b)
  | .minI32 => some ((if o.slt x then o else x).zeroExtend 64)
  | .maxI32 => some ((if o.slt x then x else o).zeroExtend 64)
  | .minN32 => some ((if o.ult x then o else x).zeroExtend 64)
  | .maxN32 => some ((if o.ult x then x else o).zeroExtend 64)
  | .andN32 => some ((o &&& x).zeroExtend 64)
  | .orN32 => some ((o ||| x).zeroExtend 64)
  | .xorN32 => some ((o ^^^ x).zeroExtend 64)
  | .exchN32 => some (x.zeroExtend 64)
  | .exchN64 => some b
  | .casN32 => if o = x then some ((loWord nw).zeroExtend 64) else none
  | .casN64 => if old = b then some nw else none
  | .addF32 => some (BitVec.ofNat 64 (f32.add .plain o.toNat x.toNat))
  | .addF64 => some (BitVec.ofNat 64 (f64.add .plain old.toNat b.toNat))
  | .addF16x2 => some ((addF16x2 o x).zeroExtend 64)

/-! ### Scopes and agents (R100, R103) -/

/-- The L1 domain of a core: the core, or its cluster when L1 is fused. -/
def State.domOf (s : State) (k : Nat) : Nat :=
  if (s.core k).fused then 100000 + (s.cluster? k).getD 0 else k
/-- The warp in a slot of a core, as an agent that issues stores and reads. -/
def agentOf (k slot : Nat) : Nat := 64 * k + slot
/-- The engines of a core (R115). -/
def engineOf (k : Nat) : Nat := agentOf k 32
/-- Stands for the warps of a core that have retired. -/
def goneOf (k : Nat) : Nat := agentOf k 33
/-- The core of an agent. -/
def agentCore (a : Nat) : Nat := a / 64
/-- The number of a lane as a thread. -/
def threadOf (k slot lane : Nat) : Nat := 64 * agentOf k slot + lane
/-- Is a scope wider than a core's L1 domain? -/
def State.wider (s : State) (k : Nat) : Scope → Bool
  | .warp | .core => false
  | .clus => !(s.core k).fused
  | .dev | .sys => true
/-- The level up to which a scope reaches (R100, R118): 0 the warp, 1 its core, 2 its cluster, 3 the device, 4 every agent. -/
def scopeLevel : Scope → Nat
  | .warp => 0
  | .core => 1
  | .clus => 2
  | .dev => 3
  | .sys => 4
/-- Are two cores one, or of one cluster? -/
def State.oneCluster (s : State) (k k' : Nat) : Bool :=
  k == k' ||
    match s.cluster? k with
    | some c => s.cluster? k' == some c
    | none => false
/-- Does agent `b` see what agent `a` has made seen up to a level? -/
def State.shares (s : State) (level a b : Nat) : Bool :=
  match level with
  | 0 => a == b
  | 1 => agentCore a == agentCore b
  | 2 => s.oneCluster (agentCore a) (agentCore b)
  | _ => true

/-! ### What an agent sees (R101) -/

/-- Locations a store writes: start and length; none for a table's state. -/
def StoreOp.range : StoreOp → Nat × Nat
  | .bytes loc bs => (loc, bs.length)
  | .red loc op _ => (loc, atomSize op)
  | _ => (0, 0)
/-- Is it a reduction that has not executed yet? -/
def StoreOp.isRed : StoreOp → Bool
  | .red .. => true
  | _ => false
/-- Is it a store to beam table `t` of a context? -/
def StoreOp.table : StoreOp → Option (Nat × Nat)
  | .bitld c t .. => some (c, t)
  | .bitpitch c t _ => some (c, t)
  | .bitsw c t => some (c, t)
  | _ => none
/-- Do two stores write one location (R98, R102)? -/
def StoreOp.overlaps (a b : StoreOp) : Bool :=
  (a.table.isSome && a.table == b.table) ||
    (decide (a.range.1 < b.range.1 + b.range.2) && decide (b.range.1 < a.range.1 + a.range.2))
/-- Replace the bytes of a window that begins at `lo`. -/
def overlayBytes (lo : Nat) (bs : List Byte) (loc : Nat) (xs : List Byte) : List Byte :=
  bs.zipIdx.map fun p => if loc ≤ lo + p.2 ∧ lo + p.2 < loc + xs.length then xs.getD (lo + p.2 - loc) p.1 else p.1
/-- What a store makes of a window of bytes. A reduction has no value before it executes at its site (R110), so nobody sees it. -/
def overlay (lo : Nat) (bs : List Byte) : StoreOp → List Byte
  | .bytes loc xs => overlayBytes lo bs loc xs
  | _ => bs
/-- A byte as a domain last received it: a stale copy (R103), or the byte of memory. -/
def State.held (s : State) (dom loc : Nat) : Byte :=
  match s.stale.find? fun x => x.dom == dom && x.loc == loc with
  | some x => x.old
  | none => s.byte loc
/-- Does an agent see a store in flight: its level reaches the agent, and the agent's domain holds no older copy (R101, R103)? A
reduction that has not executed is performed with respect to no other agent. -/
def State.sees (s : State) (a : Nat) (p : PendStore) : Bool :=
  s.shares p.level p.agent a && (a == p.agent || (!p.op.isRed && !p.late.contains (s.domOf (agentCore a))))
/-- The stores in flight of a level that an agent sees, oldest first. -/
def State.levelView (s : State) (a level : Nat) : List PendStore := s.pend.filter fun p => p.level == level && s.sees a p
/-- The stores in flight that an agent sees, in coherence order: what more agents see comes first, and its own last (R101, R102). -/
def State.viewOf (s : State) (a : Nat) : List PendStore :=
  s.levelView a 3 ++ s.levelView a 2 ++ s.levelView a 1 ++ s.levelView a 0
/-- The `n` bytes from a location as an agent sees them (R101). -/
def State.seen (s : State) (a loc n : Nat) : List Byte :=
  let bs := (List.range n).map fun k => s.held (s.domOf (agentCore a)) (loc + k)
  (s.viewOf a).foldl (fun bs p => overlay loc bs p.op) bs
/-- The `n` bytes from a location in L2, or at their home (R111): memory, with what the whole device sees. -/
def State.atHome (s : State) (loc n : Nat) : List Byte :=
  (s.pend.filter fun p => p.level == 3).foldl (fun bs p => overlay loc bs p.op) (s.bytes loc n)

/-! ### Beam tables (R92 to R95) -/

/-- A table of a context. -/
def State.beam (s : State) (c t : Nat) : BeamTable := (sfind s.beams (4 * c + t)).getD BeamTable.init
/-- An entry of a bank: it holds its own number plus the stored difference. -/
def beamEntry (es : List (Nat × Half)) (i : Nat) : Half := sget 0 es i + BitVec.ofNat 16 i
/-- Write an entry of a bank. -/
def putBeamEntry (es : List (Nat × Half)) (i : Nat) (v : Half) : List (Nat × Half) := sput 0 es i (v - BitVec.ofNat 16 i)
/-- A BITLD's entries go to the shadow bank, in order. -/
def BeamTable.putEntries (b : BeamTable) (es : List (Nat × Half)) : BeamTable :=
  es.foldl (fun b x =>
    if b.act then { b with bank0 := putBeamEntry b.bank0 x.1 x.2 } else { b with bank1 := putBeamEntry b.bank1 x.1 x.2 }) b
/-- A store to a table (R94): entries and pitch go to the shadow bank. -/
def BeamTable.store (b : BeamTable) : StoreOp → BeamTable
  | .bitld _ _ _ es => b.putEntries es
  | .bitpitch _ _ v => if b.act then { b with pitch0 := v } else { b with pitch1 := v }
  | .bitsw .. => { b with act := !b.act }
  | _ => b
/-- A table as an agent sees it. -/
def State.beamSeen (s : State) (a c t : Nat) : BeamTable :=
  ((s.viewOf a).filter fun p => p.op.table == some (c, t)).foldl (fun b p => b.store p.op) (s.beam c t)

/-! ### Stores in flight (R99, R101 to R108) -/

/-- Memory after bytes were written by one store: a sector written whole loses its poison (R423). -/
def State.write (s : State) (loc : Nat) (bs : List Byte) : State :=
  { s with
    mem := putBytes s.mem loc bs
    poison := s.poison.filter fun x => !(decide (loc ≤ 32 * x) && decide (32 * x + 32 ≤ loc + bs.length)) }
/-- What the lanes of one store word have written of poisoned sectors; a sector that they have written whole loses its mark (R423). -/
def State.fill (s : State) (word loc n : Nat) : State :=
  let hit := s.poison.filter fun x => decide (loc < 32 * x + 32) && decide (32 * x < loc + n)
  if hit.isEmpty then s
  else
    let new := ((List.range n).map fun k => (word, loc + k)).filter fun x => hit.contains (sectorOf x.2) && !s.fills.contains x
    let fills := s.fills ++ new
    let full := hit.filter fun x => decide ((fills.filter fun y => y.1 == word && sectorOf y.2 == x).length = 32)
    { s with poison := s.poison.filter fun x => !full.contains x, fills := fills.filter fun y => !full.contains (sectorOf y.2) }
/-- The effect of a store at its coherence point. -/
def State.applyStore (s : State) : StoreOp → State
  | .bytes loc bs => s.write loc bs
  | .red loc op b =>
    match atomStored op (ofBytes (s.atHome loc (atomSize op))) b 0 with
    | some v => s.write loc (bytesOf (atomSize op) v)
    | none => s
  | .bitld c t _ es => { s with beams := sinsert s.beams (4 * c + t) ((s.beam c t).putEntries es) }
  | .bitpitch c t v => { s with beams := sinsert s.beams (4 * c + t) ((s.beam c t).store (.bitpitch c t v)) }
  | .bitsw c t => { s with beams := sinsert s.beams (4 * c + t) ((s.beam c t).store (.bitsw c t)) }
  | .mark => s
/-- The L1 domains of the device: those of the cores that the state lists. -/
def State.doms (s : State) : List Nat := (s.cores.map fun p => s.domOf p.1).eraseDups
/-- Is a domain in the cluster of an agent, or the agent's own? -/
def State.nearDom (s : State) (a d : Nat) : Bool :=
  d == s.domOf (agentCore a) ||
    match if 100000 ≤ d then some (d - 100000) else s.cluster? d with
    | some c => s.cluster? (agentCore a) == some c
    | none => false
/-- Is the line of a location held by L1 copies of a page mapped RO (R90): does a cached leaf of a RO page cover it? -/
def State.roMapped (s : State) (loc : Nat) : Bool :=
  s.tlb.any fun t =>
    let lg := pageLg (t.leaf.toNat / 4 % 4)
    decide (3 ≤ t.level) && t.leaf.getLsbD 6 && t.leaf.toNat / 2 ^ 12 % 2 ^ 40 * 2 ^ 12 / 2 ^ lg == loc / 2 ^ lg
/-- May L1 domains go on holding older copies of what a store writes (R89, R90, R103)? -/
def State.lax (s : State) (p : PendStore) : Bool :=
  p.op.table.isNone && decide (p.op.range.1 < spadBase) && p.op != .mark && (p.si || s.roMapped p.op.range.1)
/-- The domains, other than the writer's own, that a free choice leaves with an older copy (R103). -/
def State.freeDoms (s : State) (p : PendStore) : List Nat × State :=
  if s.lax p then
    let ds := s.doms.filter fun d => d != s.domOf (agentCore p.agent)
    ((ds.zipIdx.filter fun x => Config.freeBit (s.fresh + x.2)).map (·.1), { s with fresh := s.fresh + ds.length })
  else ([], s)
/-- The stale copies that a performed store leaves with the domains of `late` (R103). -/
def lateCopies (s : State) (p : PendStore) (late : List Nat) : List Stale :=
  if s.lax p then
    (late.filter fun d => d != s.domOf (agentCore p.agent)).eraseDups.flatMap fun d =>
      ((List.range p.op.range.2).map fun k => (⟨p.id, d, p.op.range.1 + k, s.held d (p.op.range.1 + k), !p.si⟩ : Stale)).filter
        fun x => !(s.stale.any fun y => y.dom == x.dom && y.loc == x.loc)
  else []
/-- Older copies of a range in the domains that `sel` selects are gone. -/
def State.dropStale (s : State) (sel : Nat → Bool) (loc n : Nat) : State :=
  { s with
    stale := s.stale.filter fun x => !(sel x.dom && decide (loc ≤ x.loc) && decide (x.loc < loc + n))
    pend := s.pend.map fun p =>
      if p.op.range.1 < loc + n ∧ loc < p.op.range.1 + p.op.range.2 then { p with late := p.late.filter fun d => !sel d } else p }
/-- A store becomes performed with respect to every thread outside the domains that hold an older copy: `late` and those that the store
has already passed by (R101, R103). What has seen it before holds it. A store whose home answers with an error completion has no effect
(R438). -/
def State.performStore (s : State) (p : PendStore) (late : List Nat) : State :=
  let s' := { s with pend := s.pend.filter fun q => q.id != p.id }
  if p.op.table.isNone && s.reach 0 p.op.range.1 true true == .dead then s'
  else
    let late := (late.filter fun d => !s.nearDom p.agent d) ++ p.late
    let s' := ((s'.applyStore p.op).fill p.word p.op.range.1 p.op.range.2).dropStale
      (fun d => s.nearDom p.agent d && !late.contains d) p.op.range.1 p.op.range.2
    { s' with stale := s'.stale ++ lateCopies s p late }
/-- The stores in flight before number `id`. -/
def before (ps : List PendStore) (id : Nat) : List PendStore := ps.takeWhile fun q => q.id != id
/-- The level a store in flight has reached, 0 for a reduction that has not executed; 4 once it is performed.
(DEDUCED, log entry 15.) -/
def State.levelNow (s : State) (id : Nat) : Nat :=
  match s.pend.find? fun q => q.id == id with
  | some q => if q.op.isRed then 0 else q.level
  | none => 4
/-- What a store's next rise waits for: stores and the levels they must reach. Stores to one location rise in order (R102); `after`
binds it at the levels that the scopes reach (R106, R107). -/
def State.holding (s : State) (p : PendStore) : List (Nat × Nat) :=
  (((before s.pend p.id).filter fun q => q.level == p.level && s.shares p.level q.agent p.agent && q.op.overlaps p.op).map
    fun q => (q.id, p.level + 1)) ++ p.after.filter fun c => decide (p.level < c.2)
/-- May a store rise now, as far as other stores go? -/
def State.canRise (s : State) (p : PendStore) : Bool := (s.holding p).all fun c => decide (c.2 ≤ s.levelNow c.1)
/-- Does the next rise perform a store: beyond its cluster, or for host and peer memory beyond the device; in a scratchpad, which no L1
holds, at once? -/
def PendStore.lastRise (p : PendStore) : Bool :=
  decide (3 ≤ p.level) || decide (spadBase ≤ p.op.range.1) || (decide (2 ≤ p.level) && decide (p.op.range.1 < devLimit))
/-- Does an access by core `k` to a location wait (R434, R437, R119)? A peer's page waits for its grant, but for one that UC mappings
access. (DESIGN CHOICE, log entry 64.) -/
def State.blocked (s : State) (k loc : Nat) (wr : Bool) : Bool :=
  s.reach k loc wr (s.ucPages.contains (devPage loc)) == .waits
/-- Do a store in flight and a range of locations meet? -/
def PendStore.meets (p : PendStore) (loc n : Nat) : Bool := p.op.overlaps (.bytes loc (List.replicate n 0))
/-- Does the memory of a store hold back its next rise (R434, R437, R119)? -/
def State.riseBlocked (s : State) (p : PendStore) : Bool :=
  decide (2 ≤ p.level) && p.op.table.isNone && p.op != .mark && s.blocked (agentCore p.agent) p.op.range.1 true
/-- The level at which a store has its effect: a reduction executes at its home, or for host memory below .sys in L2 (Table 4.4). -/
def PendStore.site (p : PendStore) : Nat :=
  if p.op.isRed then
    (if (devLimit ≤ p.op.range.1 ∧ p.strong = some .sys) ∨ peerBase ≤ p.op.range.1 then 4 else 3)
  else 0
/-- What a store is once it has risen to a level: a reduction that executes in L2 is the store of its result. -/
def State.risen (s : State) (p : PendStore) (level : Nat) : StoreOp :=
  match p.op with
  | .red loc op b =>
    if p.site = level then
      match atomStored op (ofBytes (s.atHome loc (atomSize op))) b 0 with
      | some v => .bytes loc (bytesOf (atomSize op) v)
      | none => p.op
    else p.op
  | op => op
/-- A store rises: one level more sees it, after what that level has seen, but for domains of `late` that hold an older copy; or it is
performed. -/
def State.rise (s : State) (p : PendStore) (late : List Nat) : State :=
  if p.lastRise then s.performStore p late
  else
    let new := if s.lax p then late.filter fun d => d != s.domOf (agentCore p.agent) else []
    { s with pend := s.pend.filter (fun q => q.id != p.id) ++
      [{ p with level := p.level + 1, late := (p.late ++ new).eraseDups, op := s.risen p (p.level + 1) }] }
/-- A store in flight rises to a level, and before it what holds it, as far as memory lets it. Which domains keep an older copy is free
(R103). -/
def State.lift : Nat → State → Nat → Nat → State
  | 0, s, _, _ => s
  | fuel + 1, s, id, level =>
    match s.pend.find? fun p => p.id == id with
    | none => s
    | some p =>
      let level := max level p.site
      if level ≤ p.level then s
      else
        let s := (s.holding p).foldl (fun s c => State.lift fuel s c.1 c.2) s
        match s.pend.find? fun p => p.id == id with
        | none => s
        | some p =>
          if level ≤ p.level || !s.canRise p || s.riseBlocked p then s
          else
            let (late, s) := s.freeDoms p
            State.lift fuel (s.rise p late) id level
/-- Steps that suffice for a rise: each store rises four times at most. -/
def State.riseFuel (s : State) : Nat := 5 * (s.pend.length + 1)
/-- A store rises to a level. -/
def State.raiseTo (s : State) (id level : Nat) : State := State.lift s.riseFuel s id level
/-- Every store in flight that `sel` selects rises to a level, as far as memory lets it. -/
def State.flushTo (s : State) (level : Nat) (sel : PendStore → Bool) : State :=
  (s.pend.filter sel).foldl (fun s p => s.raiseTo p.id level) s
/-- Every store in flight that `sel` selects is performed, as far as memory lets it. (DEDUCED, log entry 52.) -/
def State.flush (s : State) (sel : PendStore → Bool) : State := s.flushTo 4 sel
/-- Every store in flight that `sel` selects rises to a level; none while memory holds one of them back (R434, R437). -/
def State.flushed (s : State) (level : Nat) (sel : PendStore → Bool) : Option State :=
  let ids := (s.pend.filter sel).map (·.id)
  let s := s.flushTo level sel
  if ids.all fun id => decide (level ≤ s.levelNow id) then some s else none
/-- The release of a warp at a scope (R107, R114): its stores, and those it has seen, rise to the level of the scope; none while memory
holds one back. -/
def State.released (s : State) (k slot : Nat) (sc : Scope) : Option State :=
  match sc with
  | .warp => some s
  | _ => s.flushed (scopeLevel sc) (s.sees (agentOf k slot))
/-- The release of a warp at a scope, as far as memory lets it. -/
def State.releaseAt (s : State) (k slot : Nat) (sc : Scope) : State :=
  match sc with
  | .warp => s
  | _ => s.flushTo (scopeLevel sc) (s.sees (agentOf k slot))
/-- Does a store of a warp come before a COPY of some of its lanes: a store of those lanes (R115), or one to scratchpad, where a warp's own
accesses keep its program order (R83)? -/
def PendStore.beforeCopy (k slot : Nat) (lanes : BitVec 64) (p : PendStore) : Bool :=
  p.agent == agentOf k slot && (lanes.getLsbD (p.thr % 64) || decide (spadBase ≤ p.op.range.1))
/-- The stores that come before a COPY are seen on its core, and those to scratchpad are performed. -/
def State.toCore (s : State) (k slot : Nat) (lanes : BitVec 64) : State := s.flushTo 1 (PendStore.beforeCopy k slot lanes)
/-- The reductions of an agent at some locations execute (R102). -/
def State.settleReds (s : State) (a : Nat) (rs : List (Nat × Nat)) : State :=
  s.flushTo 1 fun p => p.agent == a && p.op.isRed && rs.any fun r => p.meets r.1 r.2
/-- The acquire of a core at a scope (R89, R118): a scope wider than the domain drops its older copies of SI lines, those of host memory
at .sys alone. (DEDUCED, log entry 53.) -/
def State.acquireAt (s : State) (k : Nat) (sc : Scope) : State :=
  if s.wider k sc then
    let hit (loc : Nat) : Bool := decide (loc < devLimit) || sc == .sys
    { s with
      stale := s.stale.filter fun x => !(x.dom == s.domOf k && !x.ro && hit x.loc)
      pend := s.pend.map fun p => if p.si && hit p.op.range.1 then { p with late := p.late.filter (· != s.domOf k) } else p }
  else s
/-- An L1 domain evicts its copy of a line: it reads what is performed from now on (R103). -/
def State.evict (s : State) (dom loc : Nat) : State := s.dropStale (· == dom) (loc / 128 * 128) 128
/-- Bytes the spec states no value for (R438). -/
def freeBytes (from_ n : Nat) : List Byte := (List.range n).map fun k => Config.freeByte (from_ + k)
/-- Bytes read by a core, or their error completion, which delivers poison (R423, R438). -/
def State.answer (s : State) (k loc n : Nat) (bs : List Byte) : List Byte × Bool × State :=
  if s.reach k loc false true == .dead then (freeBytes s.fresh n, true, { s with fresh := s.fresh + n })
  else (bs, s.poisoned loc n, s)
/-- The `n` bytes from a location, which have one home, as an agent reads them, and whether they came with poison. -/
def State.readLoc (s : State) (a loc n : Nat) : List Byte × Bool × State := s.answer (agentCore a) loc n (s.seen a loc n)
/-- Read a list of runs. -/
def State.readRuns (s : State) (a : Nat) : List (Nat × Nat) → List Byte × Bool × State
  | [] => ([], false, s)
  | (loc, n) :: r =>
    let (bs, p, s) := s.readLoc a loc n
    let (cs, q, s) := s.readRuns a r
    (bs ++ cs, p || q, s)
/-- Is a store in flight one of a thread of an agent: the thread's own, or a BITLD's for its lane? -/
def PendStore.ofThread (p : PendStore) (agent thr : Nat) : Bool :=
  p.thr == thr || match p.op with
    | .bitld _ _ lanes _ => p.agent == agent && lanes.getLsbD (thr % 64)
    | _ => false
/-- The level to which a store in flight binds a new one of a thread: a FENCE.rel of the thread (R108), its earlier strong store
(R106), or for a release whatever its agent has seen (R107). -/
def State.binds (s : State) (agent thr : Nat) (strong : Option Scope) (rel : Bool) (q : PendStore) : Nat :=
  let lv : Nat := match strong with
    | some sc => scopeLevel sc
    | none => 0
  let old : Nat := match q.strong with
    | some sc => scopeLevel sc
    | none => 0
  max (if !q.ofThread agent thr then 0 else if q.op = .mark then old else min old lv) (if rel && s.sees agent q then lv else 0)
/-- What a new store of a thread is bound to. -/
def State.orders (s : State) (agent thr : Nat) (strong : Option Scope) (rel : Bool) : List (Nat × Nat) :=
  (s.pend.map fun q => (q.id, s.binds agent thr strong rel q)).filter fun c => c.2 != 0
/-- Issue a store of an agent, as part of the store word whose first store is number `word`. -/
def State.storePart (s : State) (word agent thr level : Nat) (strong : Option Scope) (rel si : Bool) (op : StoreOp) : State :=
  { s with
    pend := s.pend ++ [⟨s.nextId, agent, thr, level, strong, s.orders agent thr strong rel, si, [], word, op⟩]
    nextId := s.nextId + 1 }
/-- Issue a store of an agent. -/
def State.store (s : State) (agent thr level : Nat) (strong : Option Scope) (rel si : Bool) (op : StoreOp) : State :=
  s.storePart s.nextId agent thr level strong rel si op
/-- Bytes that a unit of the hub or an agent outside the device writes at their home (R117, R391), `si` where their page is SI: an L1 that
holds a line of a DT page gives it up first; copies of lines of SI and RO pages may stay (R89, R90). -/
def State.homeWrite (s : State) (loc : Nat) (si : Bool) (bs : List Byte) : State :=
  let s := s.flush fun p => !p.si && p.meets loc bs.length
  let p : PendStore := ⟨s.nextId, agentOf hubCore 34, 64 * agentOf hubCore 34, 3, none, [], si, [], s.nextId, .bytes loc bs⟩
  let (late, s) := { s with nextId := s.nextId + 1 }.freeDoms p
  s.performStore p late
/-- The stores in flight of a warp that retires stay in flight. -/
def State.orphan (s : State) (k slot : Nat) : State :=
  { s with pend := s.pend.map fun p =>
      if p.agent = agentOf k slot then { p with agent := goneOf k, thr := 64 * goneOf k + p.thr % 64 } else p }

/-- Is a page one whose stores may stay unseen and whose copies may be stale: SI (R89, R103)? A peer's SI page is treated as DT
(R119). -/
def Page.lax (p : Page) : Bool := p.treat == 1 && decide (p.base < peerBase)
/-- The runs of a span with whether each page may hold stale copies. -/
def State.laxRuns (s : State) (c va n : Nat) : List (Nat × Nat × Bool) := (s.pieces c va n).map fun x => (x.1, x.2.1, x.2.2.lax)
/-- Issue plain stores of a list of runs, with their bytes in order, as parts of one word. -/
def State.storeRuns (s : State) (word agent thr level : Nat) : List (Nat × Nat × Bool) → List Byte → State
  | [], _ => s
  | (loc, n, si) :: r, bs =>
    (s.storePart word agent thr level none false si (.bytes loc (bs.take n))).storeRuns word agent thr level r (bs.drop n)
/-- Read a span of virtual memory for a warp, and whether it came with poison. -/
def State.readVirt (s : State) (k slot c va n : Nat) : List Byte × Bool × State :=
  let s := s.settleReds (agentOf k slot) (s.runs c va n)
  s.readRuns (agentOf k slot) (s.runs c va n)
/-- The bytes of a span of virtual memory as a warp reads them. -/
def State.seenVirt (s : State) (k slot c va n : Nat) : List Byte := (s.readVirt k slot c va n).1
/-- Issue a plain store of bytes to virtual memory for a warp, as its lane 0. (DESIGN CHOICE, log entry 61.) -/
def State.storeVirt (s : State) (k slot c va : Nat) (bs : List Byte) : State :=
  s.storeRuns s.nextId (agentOf k slot) (threadOf k slot 0) 0 (s.laxRuns c va bs.length) bs

/-! ### Asking for pages (R119, R120) -/

/-- The number that stands for this device among the requesters of its own pages. -/
def selfPort : Nat := 12
/-- This device asks for the pages of an access that its state does not allow (R119, R120). `uc` maps are served at the home, and a
peer's page that they access needs no grant until a cached mapping asks for it. (DESIGN CHOICE, log entry 64.) -/
def State.askPage (s : State) (loc : Nat) (wr uc : Bool) : State :=
  let page := devPage loc
  let peer := decide (peerBase ≤ loc) && decide (loc < hubMemory)
  let need :=
    if loc < devLimit then
      (List.range 12).any fun p => s.heldBy page p == .m || (wr && s.heldBy page p == .s)
    else peer && !uc && (s.port (portOf loc)).up && (s.peerPage page != .m) && (wr || s.peerPage page == .i)
  let port := if loc < devLimit then selfPort else portOf loc
  let s := if !peer then s
    else if !uc then { s with ucPages := s.ucPages.filter (· != page) }
    else if s.ucPages.contains page then s
    else { s with ucPages := s.ucPages ++ [page] }
  if need && !(s.pageReqs.any fun r => r.page == page && r.port == port && (r.excl || !wr)) then
    { s with pageReqs := s.pageReqs ++ [⟨port, page, wr, true⟩] }
  else s
/-- This device asks for the pages of a span of virtual memory. -/
def State.askSpan (s : State) (c va n : Nat) (wr : Bool) : State :=
  (s.pieces c va n).foldl (fun s x => s.askPage x.1 wr (x.2.2.treat == 2)) s

/-! ### Poison consumed (R55, R424) -/

/-- A team's instruction consumed poison: CIR.PSN and PCNT; the grid's report counts it too (R387). -/
def consume (tm : Team) : Team :=
  { tm with
    cir := BitVec.ofNat 64 (tm.cir.toNat / 2 ^ 16 * 2 ^ 16 + min (tm.cir.toNat / 2 ^ 8 % 2 ^ 8 + 1) 255 * 2 ^ 8 +
      tm.cir.toNat % 2 ^ 8 / 2 * 2 + 1) }

end Sys2Proof.Machine
end

