-- ==== Sys2Proof/Machine/Plan.lean ====
section
/-! DEFINITION. Tiles, scratchpad addresses and the schedule of the sequencer's operations (R57, R60, R61, R78 to R82, R310 to
R316): where each operation reads and writes, and from it the RD, WR and pending bits. -/

namespace Sys2Proof.Machine
open Sys2Proof

/-! ### Pool tiles (R57, R60, R61) -/

/-- Word (row, col) of pool tile `t` on a half of the team. -/
def Team.tget (tm : Team) (h t row col : Nat) : Word := sget 0 tm.words (1024 * (64 * h + t) + 32 * row + col)
/-- Write a word of a pool tile. -/
def Team.tput (tm : Team) (h t row col : Nat) (x : Word) : Team :=
  { tm with words := sput 0 tm.words (1024 * (64 * h + t) + 32 * row + col) x }
/-- A pool tile's owner state. -/
def Team.tile (tm : Team) (h t : Nat) : TileState := (sfind tm.tiles (64 * h + t)).getD TileState.init
/-- Change a pool tile's owner state. -/
def Team.setTile (tm : Team) (h t : Nat) (x : TileState) : Team := { tm with tiles := sinsert tm.tiles (64 * h + t) x }
/-- A named barrier; at creation it expects every warp of the team (R278). -/
def Team.bar (tm : Team) (n b : Nat) : Barrier := (sfind tm.bars b).getD ⟨n, 0, false⟩
/-- Change a named barrier. -/
def Team.setBar (tm : Team) (b : Nat) (x : Barrier) : Team := { tm with bars := sinsert tm.bars b x }

/-! ### Scratchpad addresses (R78, R82) -/

/-- The bytes of a core's scratchpad (R75). -/
def State.spadSize (s : State) (k : Nat) : Nat := 16384 * (s.core k).segs
/-- The location of a scratchpad address of a core's agent working for grid `g`, or none where SPAD_RANGE applies: the field
rules of R78, the window rule of R82, and the size. A team whose scratchpad is still being zeroed does not count as held (R76).
(DEDUCED, log entry 65.) -/
def State.spadAddr (s : State) (k g a : Nat) : Option Nat :=
  let off := a % 2 ^ 19
  let cw := a / 2 ^ 21 % 4
  if a / 2 ^ 24 ≠ 0 ∨ a / 2 ^ 19 % 4 ≠ 0 then none
  else if a / 2 ^ 23 = 0 then (if cw = 0 ∧ off < s.spadSize k then some (spadLoc k off) else none)
  else
    match (s.cluster? k).bind fun c => s.physical? (4 * c + cw) with
    | none => none
    | some k' =>
      if (s.resident k').any (fun p => p.2.grid == g && !p.2.zeroing) && decide (off < s.spadSize k') then some (spadLoc k' off) else none
/-- Does an address use the cluster window (R78)? -/
def windowed (a : Nat) : Bool := a / 2 ^ 23 % 2 == 1

/-! ### Descriptors (R80, R81) -/

/-- A scratchpad descriptor (Table 3.2). -/
structure Desc where
  base : Nat
  rpitch : Nat
  tpitch : Nat
  rot : Nat
  deriving DecidableEq, Repr
/-- Shift and mask of a rotation code (Table 3.3). -/
def rotation (code : Nat) : Nat × Nat :=
  match code with
  | 0 => (0, 0)
  | 1 => (0, 1)
  | 2 => (0, 3)
  | 3 => (0, 7)
  | 4 => (0, 15)
  | 5 => (0, 31)
  | 6 => (1, 3)
  | 7 => (1, 7)
  | 8 => (1, 15)
  | 9 => (1, 31)
  | 10 => (2, 7)
  | 11 => (2, 15)
  | 12 => (2, 31)
  | 13 => (3, 15)
  | _ => (3, 31)
/-- The descriptor in a register pair. -/
def descOf (da db : Word) : Desc :=
  ⟨da.toNat, db.toNat % 2 ^ 16, db.toNat / 2 ^ 16 % 2 ^ 12, db.toNat / 2 ^ 28⟩
/-- R80: is the descriptor in a register pair legal? -/
def descLegal (da db : DWord) : Bool :=
  let d := descOf (loWord da) (loWord db)
  hiWord da == 0 && hiWord db == 0 && d.rpitch != 0 && d.rpitch % 4 == 0 && d.rot != 15 && (d.rot == 0 || d.base % 128 == 0)
/-- R81: the scratchpad address of byte `b` of row `r` of tile `k`. -/
def Desc.phys (d : Desc) (k r b : Nat) : Nat :=
  let a := (d.base + k * d.tpitch * 128 + r * d.rpitch + b) % 2 ^ 32
  let (sh, mask) := rotation d.rot
  a ^^^ ((r / 2 ^ sh % (mask + 1)) * 4)

/-! ### Element types of the array (Table 15.6) -/

/-- K of a type. -/
def mmaK : MmaTy → Nat
  | .f64 => 8
  | .f16 | .bf16 => 16
  | .f8e4 | .f8e5 | .i8 => 32
  | .i4 | .n4 | .f4e2 => 64
/-- Bits of an element. -/
def mmaBits : MmaTy → Nat
  | .f64 => 64
  | .f16 | .bf16 => 16
  | .f8e4 | .f8e5 | .i8 => 8
  | .i4 | .n4 | .f4e2 => 4
/-- Bits of an accumulator element. -/
def mmaAccBits : MmaTy → Nat
  | .f64 => 64
  | _ => 32
/-- Full M and N. -/
def mmaFull : MmaTy → Nat
  | .f64 => 32
  | _ => 64
/-- Products per cycle. -/
def mmaRate : MmaTy → Nat
  | .f64 => 512
  | .f16 | .bf16 => 4096
  | .f8e4 | .f8e5 | .i8 => 8192
  | .i4 | .n4 | .f4e2 => 16384
/-- M or N of a modifier. -/
def mmaDim (ty : MmaTy) : MmaDim → Nat
  | .full => mmaFull ty
  | .d8 => 8
  | .d16 => 16
  | .d32 => 32
/-- Issue time I (R316). -/
def mmaI (ty : MmaTy) (m n : Nat) : Nat := max 1 (m * n * mmaK ty / mmaRate ty)
/-- Landing L without the 8 cycles of .co or a window operand (R316). -/
def mmaL (ty : MmaTy) (m n : Nat) : Nat := mmaI ty m n + (if ty = .f64 then 12 else 8)
/-- Elements of `bits` bits in one tile row (R57, R292, R311). -/
def rowElems (bits : Nat) : Nat := 1024 / bits
/-- Tiles of a group of rows × cols elements of `bits` bits. -/
def groupOf (rows cols bits : Nat) : Nat := groupTiles rows cols (rowElems bits)
/-- Tile within its group, row and first word of element (row, col) of a group of `cols` columns (R57). -/
def elemPlace (bits cols row col : Nat) : Nat × Nat × Nat :=
  let e := rowElems bits
  (row / 32 * ceilDiv cols e + col / e, row % 32, col % e * bits / 32)
/-- The element at a position of a group, from a reader of its words. -/
def elemBits (bits cols row col : Nat) (rd : Nat → Nat → Nat → Word) : Nat :=
  let (t, r, w) := elemPlace bits cols row col
  if bits = 64 then (dword (rd t r w) (rd t r (w + 1))).toNat
  else (rd t r w).toNat / 2 ^ (col % rowElems bits * bits % 32) % 2 ^ bits

/-! ### Operations in flight (R310) -/

/-- Tiles of a group starting at `t`. -/
def tileRange (t n : Nat) : List Nat := (List.range n).map (t + ·)
/-- Tiles of an MMA's A, B and D groups (Table 15.6). -/
def mmaTiles (ty : MmaTy) (m n : Nat) : Nat × Nat × Nat :=
  (groupOf m (mmaK ty) (mmaBits ty), groupOf (mmaK ty) n (mmaBits ty), groupOf m n (mmaAccBits ty))
/-- Sequencer cycles over which a kind performs reads. -/
def readSpan : SeqKind → Nat
  | .tld _ _ _ n | .tldTr _ _ _ _ n | .tst _ _ _ n => 32 * n
  | .sgather .. => 64
  | .mma ty _ m n .. => (m - 1) * mmaI ty m n / m + 1
/-- Sequencer cycles for which a kind holds its slot (Table 15.2). -/
def slotSpan : SeqKind → Nat
  | .tld _ _ _ n | .tldTr _ _ _ _ n | .tst _ _ _ n => 32 * n
  | .sgather .. => 64
  | .mma ty _ m n .. => mmaI ty m n
/-- The slot of a kind: QL 0, QM 1, QS 2. -/
def slotOfKind : SeqKind → Nat
  | .tld .. | .tldTr .. | .sgather .. => 0
  | .mma .. => 1
  | .tst .. => 2
/-- The last read of tile `t` by an operation, as cycles after issue; none if it does not read it. -/
def lastRead (op : SeqKind) (t : Nat) : Option Nat :=
  match op with
  | .tst ta _ _ n => if ta ≤ t ∧ t < ta + n then some (32 * (t - ta) + 31) else none
  | .mma ty acc m n td a b _ _ _ _ _ _ =>
    let (na, nb, nd) := mmaTiles ty m n
    let inB := match b with
      | some tb => decide (tb ≤ t) && decide (t < tb + nb)
      | none => false
    let rows (base cnt cols bits : Nat) : Option Nat :=
      if base ≤ t ∧ t < base + cnt then
        let i := min (m - 1) ((t - base) / ceilDiv cols (rowElems bits) * 32 + 31)
        some (i * mmaI ty m n / m)
      else none
    let ra := match a with
      | some ta => rows ta na (mmaK ty) (mmaBits ty)
      | none => none
    let rc := if acc then rows td nd n (mmaAccBits ty) else none
    match ra, rc with
    | some x, some y => some (max x y)
    | some x, none => some x
    | none, some y => some y
    | none, none => if inB then some 0 else none
  | _ => none
/-- The tiles an operation writes. -/
def writeTiles : SeqKind → List Nat
  | .tld td _ _ n => tileRange td n
  | .tldTr td _ _ _ n => tileRange td n
  | .sgather td .. => [td]
  | .mma ty _ m n td .. => tileRange td (mmaTiles ty m n).2.2
  | .tst .. => []
/-- The last read that a landing in tile `t` waits for, as cycles after issue. -/
def lastSource (op : SeqKind) (t : Nat) : Nat :=
  match op with
  | .tld td _ _ _ => 32 * (t - td) + 31
  | .tldTr td _ _ e32 n => if e32 && n == 1 then 31 else if e32 then 2 * (32 * ((t - td) / 2) + 31) + 1 else 32 * (t - td) + 31
  | op => readSpan op - 1
/-- Tile `t` of the team half an operation works for is due to be read (RD, R61). -/
def SeqOp.reads (op : SeqOp) (t : Nat) : Bool :=
  match lastRead op.kind t with
  | some q => decide (op.done ≤ q)
  | none => false
/-- A landing in tile `t` is still to be made by an operation. -/
def SeqOp.writes (op : SeqOp) (t : Nat) : Bool :=
  (writeTiles op.kind).contains t && decide (op.done ≤ lastSource op.kind t)
/-- Is a landing in tile `t`? -/
def Landing.inTile (l : Landing) (t : Nat) : Bool :=
  match l.row with
  | .tile t' _ => t' == t
  | .spad .. => false
/-- RD of a pool tile (R61): the core's sequencer works for the team and is due to read it. -/
def State.rd (s : State) (k tid t : Nat) : Bool :=
  let q := (s.core k).seq
  q.running && q.team == tid && q.ops.any fun op => op.reads t
/-- WR of a pool tile (R61, R410). -/
def State.wr (s : State) (k tid t : Nat) : Bool :=
  let q := (s.core k).seq
  q.running && q.team == tid &&
    (q.ops.any (fun op => op.writes t) || q.landings.any (fun l => l.inTile t) || q.captured.any fun l => l.inTile t)

/-! ### Pending scratchpad words (R85) -/

/-- The first and the last byte of a word at a scratchpad address. An unrotated descriptor may have any BASE (R80), so its words need not
be aligned, and the bytes of a word follow each other (R81). -/
def wordEnds (a : Nat) : List Nat := [a, a + 3]
/-- Scratchpad addresses of a row of a descriptor that a landing writes. -/
def rowAddrs (da db : Word) (tile row : Nat) (mask : Word) : List Nat :=
  ((List.range 32).filter fun c => mask.getLsbD c).flatMap fun c => wordEnds ((descOf da db).phys tile row (4 * c))
/-- Scratchpad addresses that an operation has still to write: the rows of a TST whose read has not made a landing. -/
def SeqOp.spadLeft (op : SeqOp) : List Nat :=
  match op.kind with
  | .tst _ da db n =>
    ((List.range (32 * n)).filter fun q => decide (op.done ≤ q)).flatMap fun q => rowAddrs da db (q / 32) (q % 32) (~~~0)
  | _ => []
/-- Scratchpad addresses of a landing. -/
def Landing.spadAddrs (l : Landing) : List Nat :=
  match l.row with
  | .tile .. => []
  | .spad da db tile row => rowAddrs da db tile row l.mask
/-- Locations of the scratchpad words with a pending write by a core's sequencer. -/
def State.pendingWords (s : State) (k : Nat) : List Nat :=
  let q := (s.core k).seq
  match s.team? q.team with
  | none => []
  | some tm =>
    (q.ops.flatMap SeqOp.spadLeft ++ (q.landings ++ q.captured).flatMap Landing.spadAddrs).filterMap (s.spadAddr k tm.grid)
/-- R85: is the pending bit of the word at a scratchpad location set, in a team whose launch asks for pending bits? -/
def State.spadPending (s : State) (loc : Nat) : Bool :=
  let k := (loc - spadBase) / 2 ^ 20
  (s.resident k).any (fun p => match s.grid? p.2.grid with
    | some g => g.lr.spdbg
    | none => false) &&
    (s.clusterCores k ++ [k]).any fun k' => (s.pendingWords k').any fun l => l / 4 == loc / 4

end Sys2Proof.Machine
end

