-- ==== Sys2Proof/Machine/Serpent.lean ====
section
/-! DEFINITION. The Serpent stack (R144 to R156): entries and tags in the window, chunks in the spill area, and the moves
between them. -/

namespace Sys2Proof.Machine
open Sys2Proof

/-- Bytes of a chunk (R149). -/
def chunkSize (w : Warp) : Nat := 64 * w.width + 128
/-- Address of chunk `c` (R149). -/
def chunkAddr (w : Warp) (c : Nat) : Nat := w.rsb.toNat + c * chunkSize w
/-- RSP for a number of spilled entries (R149). -/
def rspAt (w : Warp) (h : Nat) : DWord := BitVec.ofNat 64 (chunkAddr w (h / 32))
/-- The entry of a lane at position `p` (R148). -/
def Warp.entry (w : Warp) (p lane : Nat) : Half :=
  (Machine.sget 0 w.serp (64 * (p / 2 % 64) + lane)).extractLsb' (16 * (p % 2)) 16
/-- The tag at position `p`. -/
def Warp.tag (w : Warp) (p : Nat) : Byte := Machine.sget 0 w.tags (p % 128)
/-- Put an entry. -/
def Warp.putEntry (w : Warp) (p lane : Nat) (x : Half) : Warp :=
  let key := 64 * (p / 2 % 64) + lane
  let old := Machine.sget 0 w.serp key
  { w with serp := sput 0 w.serp key (if p % 2 = 0 then old.extractLsb' 16 16 ++ x else x ++ old.extractLsb' 0 16) }
/-- Push one entry in every lane with a tag (R144, R146). -/
def Warp.push (w : Warp) (tag : Byte) (f : Nat → Half) : Warp :=
  let w' := (List.range w.width).foldl (fun w' i => w'.putEntry w.depth i (f i)) w
  { w' with tags := sput 0 w'.tags (w.depth % 128) tag, depth := w.depth + 1 }
/-- Pop one entry of every lane; a pop below a region's entry depth clears its entry (R155). -/
def Warp.pop (w : Warp) : Warp :=
  { w with
    depth := w.depth - 1
    region := match w.region with
      | some r => if w.depth - 1 < r.d0 then none else some r
      | none => none }
/-- The bytes of chunk `c` as the window holds it (Table 6.2). -/
def Warp.chunkBytes (w : Warp) (c : Nat) : List Byte :=
  ((List.range 32).map fun b => w.tag (32 * c + b)) ++ List.replicate 96 0 ++
    (List.range (16 * w.width)).flatMap fun x =>
      bytesOf 4 ((Machine.sget 0 w.serp (64 * ((16 * c + x / w.width) % 64) + x % w.width)).zeroExtend 64)
/-- The window after chunk `c` was read into it (R150). -/
def Warp.loadChunk (w : Warp) (c : Nat) (bs : List Byte) : Warp :=
  { w with
    tags := (List.range 32).foldl (fun m b => sput 0 m ((32 * c + b) % 128) (bs.getD b 0)) w.tags
    serp := (List.range (16 * w.width)).foldl
      (fun m x => sput 0 m (64 * ((16 * c + x / w.width) % 64) + x % w.width)
        (loWord (ofBytes ((bs.drop (128 + 4 * x)).take 4)))) w.serp }

/-- Must a push spill first (R150)? -/
def Warp.mustSpill (w : Warp) : Bool := decide (128 ≤ w.depth - w.spilled)
/-- Must a pop fill first (R150)? -/
def Warp.mustFill (w : Warp) : Bool := decide (w.depth ≤ w.spilled) && decide (0 < w.spilled)
/-- The fault of the next spill of a warp of core `k`: the area's limit (R151), then the translation of the chunk. The record names the
chunk's first byte and lane 0. (DESIGN CHOICE, log entry 68.) -/
def State.spillTrap (s : State) (k c : Nat) (w : Warp) : Option Trap :=
  let a := chunkAddr w (w.spilled / 32)
  if w.rsb.toNat + w.rlim < a + chunkSize w then some { cause := .serpentOvf, faddr := BitVec.ofNat 64 a, wr := true }
  else s.probeSpan k c (BitVec.ofNat 64 a) (chunkSize w) 0 true
/-- The fault of the next fill. (DESIGN CHOICE, log entry 68.) -/
def State.fillTrap (s : State) (k c : Nat) (w : Warp) : Option Trap :=
  s.probeSpan k c (BitVec.ofNat 64 (chunkAddr w (w.spilled / 32 - 1))) (chunkSize w) 0 false
/-- The warp with a chunk read in as its lowest. -/
def Warp.fillFrom (w : Warp) (ch : Nat) (bs : List Byte) : Warp :=
  { w.loadChunk ch bs with spilled := 32 * ch, rsp := rspAt w (32 * ch) }
/-- The warp with the chunk below its window read in, before H moves: what a pop's checks look at (R297 step 3). -/
def State.filled (s : State) (k slot c : Nat) (w : Warp) : Warp :=
  let ch := w.spilled / 32 - 1
  w.fillFrom ch (s.seenVirt k slot c (chunkAddr w ch) (chunkSize w))
/-- One spill of the warp in a slot (R150): the chunk's store is a plain access of the warp (R152). -/
def State.spill (s : State) (k slot c : Nat) (w : Warp) : State :=
  let ch := w.spilled / 32
  let s := s.storeVirt k slot c (chunkAddr w ch) (w.chunkBytes ch)
  s.modWarp k slot fun w => { w with spilled := 32 * (ch + 1), rsp := rspAt w (32 * (ch + 1)) }
/-- The chunk that a truncation to depth `d0` reads (R156). -/
def truncateChunk (w : Warp) (d0 : Nat) : Option Nat := if d0 < w.spilled ∧ d0 % 32 ≠ 0 then some (d0 / 32) else none
/-- The fault of the chunk read of a truncation (R156). -/
def State.truncateTrap (s : State) (k c : Nat) (w : Warp) (d0 : Nat) : Option Trap :=
  match truncateChunk w d0 with
  | some ch => s.probeSpan k c (BitVec.ofNat 64 (chunkAddr w ch)) (chunkSize w) 0 false
  | none => none
/-- Truncate the stack to a region's entry depth (R156); the bytes are those of the chunk that it reads. -/
def Warp.truncate (w : Warp) (d0 : Nat) (bs : List Byte) : Warp :=
  if d0 < w.spilled then
    let w' := if d0 % 32 = 0 then w else w.loadChunk (d0 / 32) bs
    { w' with spilled := 32 * (d0 / 32), rsp := rspAt w (32 * (d0 / 32)), depth := d0 }
  else { w with depth := d0 }
/-- Does a chunk of the spill area wait for its memory (R434, R437, R119)? -/
def State.chunkBlocked (s : State) (k c : Nat) (w : Warp) (ch : Nat) (wr : Bool) : Bool :=
  (s.runs c (chunkAddr w ch) (chunkSize w)).any fun r => s.blocked k r.1 wr

end Sys2Proof.Machine
end

