-- ==== Sys2Proof/Machine/Checks.lean ====
section
/-! DEFINITION. What a word of a warp is checked for before any word of its bundle takes effect: the decode checks that
depend on the launch (R192 step 3.4, R250, R276, R60, R292), privilege (R200), and the checks at issue (R26, R90, R242, R271
and the instruction chapters). -/

namespace Sys2Proof.Machine
open Sys2Proof

/-! ### Who issues -/

/-- The context of a warp's launch. -/
def State.ctxNo (s : State) (w : Warp) : Nat :=
  match s.recOf w with
  | some r => r.ctx
  | none => 0
/-- Is the warp's kernel launched with access slicing? -/
def State.sliced (s : State) (w : Warp) : Bool :=
  match s.recOf w with
  | some r => r.slice
  | none => false
/-- Warps of each team of the warp's launch: 1 in a child grid (R43). -/
def State.teamSize (s : State) (w : Warp) : Nat :=
  match s.grid? w.grid with
  | some g => if g.parent.isSome then 1 else g.lr.warps
  | none => 1
/-- Pool tiles of the warp's team (R58). -/
def State.pool (s : State) (w : Warp) : Nat :=
  match s.recOf w with
  | some r => r.pool
  | none => 0
/-- R26: every slice of the warp in the gang and every lane active. -/
def Warp.collective (w : Warp) (m : BitVec 16) : Bool :=
  (List.range w.width).all fun i => m.getLsbD (i / 4) && w.active.getLsbD i && w.alive.getLsbD (i / 4)
/-- R146, R252, R279: every slice that is not retired in the gang. -/
def Warp.wholeGang (w : Warp) (m : BitVec 16) : Bool := m == w.alive
/-- A trap with nothing beside its cause, when a condition holds. -/
def trapIf (b : Bool) (c : Cause) : Option Trap := if b then some { cause := c } else none
/-- The first trap of a list. -/
def firstTrap (ts : List (Option Trap)) : Option Trap := ts.findSome? id

/-! ### Memory probes (R241, R242) -/

/-- R241: lane `i` of a unit-stride access. -/
def laneAddr (base : DWord) (off : Int) (stride i : Nat) : DWord := base + BitVec.ofInt 64 off + BitVec.ofNat 64 (i * stride)
/-- R242 steps 1 to 4 for one lane of an aligned access; `plain64` for a plain LD.n64 or ST.n64 (R456). -/
def laneTrap (s : State) (k c : Nat) (va : DWord) (size lane : Nat) (wr plain64 : Bool) : Option Trap :=
  if va.toNat % size ≠ 0 then some { cause := .align, faddr := va, lane := lane, wr := wr }
  else if hubRegister k va then
    (if plain64 then none else some { cause := .protection, faddr := va, lane := lane, wr := wr })
  else
    match s.probe c va lane wr with
    | .inl t => some t
    | .inr _ => none
/-- R242 over the acting lanes: the lowest that fails. -/
def lanesTrap (s : State) (k c : Nat) (addr : Nat → DWord) (size : Nat) (wr plain64 : Bool) (lanes : List Nat) : Option Trap :=
  lanes.findSome? fun i => laneTrap s k c (addr i) size i wr plain64
/-- R78, R242, R249, R85 for one lane of a scratchpad access: bits 63:32 of the base, and of the lane's address, must be zero. -/
def spadTrap (s : State) (k g : Nat) (base va : DWord) (size lane : Nat) (wr : Bool) : Option Trap :=
  if va.toNat % size ≠ 0 then some { cause := .align, faddr := va, lane := lane, wr := wr }
  else
    match if base.toNat < 2 ^ 32 ∧ va.toNat < 2 ^ 32 then s.spadAddr k g va.toNat else none with
    | none => some { cause := .spadRange, faddr := va, lane := lane, wr := wr }
    | some loc =>
      if !wr && (List.range ((size + 3) / 4)).any (fun j => s.spadPending (loc + 4 * j)) then
        some { cause := .spadEarly, faddr := va, lane := lane }
      else none
/-- R93: the address a .bx access of agent `a` resolves to, or none where BX_RANGE applies. -/
def bxResolve (s : State) (a c : Nat) (p : Page) (ea : DWord) (size : Nat) : Option DWord :=
  let b := s.beamSeen a c p.bt
  let pitch := (if b.act then b.pitch1 else b.pitch0).toNat
  let es := if b.act then b.bank1 else b.bank0
  let off := ea.toNat - p.vbase
  if !p.beam || pitch == 0 then none
  else if 256 ≤ off / pitch then none
  else
    let a := p.vbase + (beamEntry es (off / pitch)).toNat * pitch + off % pitch
    if p.vbase + 2 ^ p.lg < a + size then none else some (BitVec.ofNat 64 a)
/-- R242 steps 1 to 5 for one lane of a .bx load (R248). -/
def bxTrap (s : State) (k slot c : Nat) (va : DWord) (size lane : Nat) : Option Trap :=
  if va.toNat % size ≠ 0 then some { cause := .align, faddr := va, lane := lane }
  else if hubRegister k va then some { cause := .protection, faddr := va, lane := lane }
  else
    match s.probe c va lane false with
    | .inl t => some t
    | .inr p =>
      match bxResolve s (agentOf k slot) c p va size with
      | none => some { cause := .bxRange, faddr := va, lane := lane }
      | some _ => none
/-- R97, R242 for a .bfx load's lane: the 32 bytes from ea are translated where an element lies. -/
def bfxTrap (s : State) (k c : Nat) (p : BxPat) (va : DWord) (lane : Nat) : Option Trap :=
  if hubRegister k va then some { cause := .protection, faddr := va, lane := lane }
  else
    ((List.range (32 / p.outw)).findSome? fun e =>
      s.probeSpan k c (va + BitVec.ofNat 64 (p.pos e / 8)) ((p.pos e + p.wid - 1) / 8 - p.pos e / 8 + 1) lane false)

/-! ### Copies (R259, R260) -/

/-- The rows of a copy: bytes per row, rows, source pitch and destination pitch in bytes. -/
structure CopyGeom where
  len : Nat
  rows : Nat
  spitch : Nat
  dpitch : Nat
  deriving DecidableEq, Repr
/-- A COPY's geometry: one row. -/
def copyGeom1 (len : Word) : CopyGeom := ⟨len.toNat, 1, 0, 0⟩
/-- Table 12.3. -/
def copyGeom2 (x : DWord) : CopyGeom :=
  ⟨x.toNat % 2 ^ 16, x.toNat / 2 ^ 16 % 2 ^ 16, 16 * (x.toNat / 2 ^ 32 % 2 ^ 16), 16 * (x.toNat / 2 ^ 48)⟩
/-- Is a COPY.2d geometry within Table 12.3? -/
def geomLegal (g : CopyGeom) : Bool :=
  decide (1 ≤ g.len) && decide (1 ≤ g.rows) && decide (g.len * g.rows ≤ 2 ^ 24) && decide (g.len ≤ g.dpitch) &&
    decide ((g.rows - 1) * g.spitch + g.len ≤ 2 ^ 30) && decide ((g.rows - 1) * g.dpitch + g.len ≤ 2 ^ 30)
/-- Does a copy's address operand name scratchpad (R259)? -/
def copySpad (a : DWord) : Bool := a.getLsbD 63
/-- R260: nonzero bits 62:32 of a scratchpad operand. -/
def copyOperandBad (a : DWord) : Bool := copySpad a && a.toNat / 2 ^ 32 % 2 ^ 31 != 0
/-- Bytes of the span of one side of a copy, from its first byte to its last (Table 12.3). -/
def CopyGeom.span (g : CopyGeom) (pitch : Nat) : Nat := if g.len = 0 ∨ g.rows = 0 then 0 else (g.rows - 1) * pitch + g.len
/-- The row of a copy whose scratchpad addresses fail R78 or R82, by its first address. -/
def copySpadBad (s : State) (k g : Nat) (a : DWord) (geo : CopyGeom) (pitch : Nat) : Option Nat :=
  if geo.len = 0 || !copySpad a then none
  else
    ((List.range geo.rows).map fun r => a.toNat % 2 ^ 32 + r * pitch).find? fun b =>
      match s.spadAddr k g b, s.spadAddr k g (b + geo.len - 1) with
      | some x, some y => y - x != geo.len - 1
      | _, _ => true
/-- The row of a copy's source in scratchpad that holds a word with its pending bit set (R85), by its first address. -/
def copyEarly (s : State) (k g : Nat) (a : DWord) (geo : CopyGeom) (pitch : Nat) : Option Nat :=
  if geo.len = 0 || !copySpad a then none
  else
    ((List.range geo.rows).map fun r => a.toNat % 2 ^ 32 + r * pitch).find? fun b =>
      match s.spadAddr k g b with
      | some x => (List.range ((x + geo.len - 1) / 4 - x / 4 + 1)).any fun j => s.spadPending (x / 4 * 4 + 4 * j)
      | none => false
/-- The side of a copy in virtual memory as a span. -/
def copySpan (a : DWord) (geo : CopyGeom) (pitch : Nat) (wr : Bool) : List Span := if copySpad a then [] else [(a, geo.span pitch, wr)]
/-- R260 for one lane, in R242's order: the range of each side, every page of both spans, and the pending bits (R85). Of the two sides the
source comes first. (DESIGN CHOICE, log entry 87.) -/
def copyLaneTrap (s : State) (k c g : Nat) (dst src : DWord) (geo : CopyGeom) (lane : Nat) : Option Trap :=
  let range (a : DWord) (pitch : Nat) (wr : Bool) : Option Trap :=
    ((copySpan a geo pitch wr).flatMap spanPages).findSome? fun x =>
      if x.1.toNat / 2 ^ 57 ≠ 0 then some (pageTrap 2 0 x.1 lane wr) else none
  let spad (a : DWord) (pitch : Nat) (wr : Bool) : Option Trap :=
    (copySpadBad s k g a geo pitch).map fun b => { cause := .spadRange, faddr := BitVec.ofNat 64 b, lane := lane, wr := wr }
  if copyOperandBad dst || copyOperandBad src then some { cause := .illOperand, lane := lane }
  else
    firstTrap [range src geo.spitch false, spad src geo.spitch false, range dst geo.dpitch true, spad dst geo.dpitch true,
      s.probeSpans k c lane (copySpan src geo geo.spitch false ++ copySpan dst geo geo.dpitch true),
      (copyEarly s k g src geo geo.spitch).map fun b => { cause := .spadEarly, faddr := BitVec.ofNat 64 b, lane := lane }]

/-! ### TOPK (R237, R239) -/

/-- The descriptor of Table 11.9. -/
structure TopkDesc where
  row : DWord
  val : DWord
  idx : DWord
  n : Nat
  k : Nat
  deriving DecidableEq, Repr
/-- The descriptor in s(a) to s(a+3). -/
def topkDesc (w : Warp) (a : SReg) : TopkDesc :=
  let x := w.sget (a + 3)
  ⟨w.sget a, w.sget (a + 1), w.sget (a + 2), x.toNat % 2 ^ 21, x.toNat / 2 ^ 32 % 2 ^ 9⟩
/-- R239. (DEDUCED, log entry 56.) -/
def topkTrap (s : State) (k c : Nat) (w : Warp) (bf : Bool) (a : SReg) : Option Trap :=
  let d := topkDesc w a
  let e := if bf then 2 else 4
  let x := (w.sget (a + 3)).toNat
  let cnt := min d.k d.n
  if 60 < a.toNat then some { cause := .illOperand }
  else if d.row.toNat / 2 ^ 57 ≠ 0 ∨ d.val.toNat / 2 ^ 57 ≠ 0 ∨ d.idx.toNat / 2 ^ 57 ≠ 0 ∨ x / 2 ^ 21 % 2 ^ 11 ≠ 0 ∨
      x / 2 ^ 41 ≠ 0 ∨ d.n = 0 ∨ 2 ^ 20 < d.n ∨ d.k = 0 ∨ 256 < d.k then some { cause := .illOperand }
  else if d.row.toNat % e ≠ 0 then some { cause := .align, faddr := d.row }
  else if d.val.toNat % e ≠ 0 then some { cause := .align, faddr := d.val, wr := true }
  else if d.idx.toNat % 4 ≠ 0 then some { cause := .align, faddr := d.idx, wr := true }
  else
    s.probeSpans k c 0 [(d.row, d.n * e, false), (d.val, cnt * e, true), (d.idx, 4 * cnt, true)]

/-! ### Code addresses (R271) -/

/-- R271: bits 63:48 and 1:0 zero. -/
def codeAddr (a : DWord) : Bool := a.toNat / 2 ^ 48 == 0 && a.toNat % 4 == 0
/-- The word at a code address, as fetch reads it; none where the translation fails. (DEDUCED, log entry 20.) -/
def State.codeWord (s : State) (c : Nat) (a : DWord) : Option Word :=
  match s.translate c a with
  | .ok p => some (loWord (ofBytes (s.bytes (p.pa a.toNat) 4)))
  | .bad .. => none
/-- R185, R271: the trap of a control transfer of core `k` to a target. -/
def targetTrap (s : State) (k c : Nat) (a : DWord) : Option Trap :=
  if !codeAddr a then some { cause := .illTarget, faddr := a }
  else if hubRegister k a then some { cause := .protection, faddr := a }
  else
    match s.translate c a with
    | .bad kind level => some (pageTrap kind level a 0 false)
    | .ok p =>
      if wordS (loWord (ofBytes (s.bytes (p.pa a.toNat) 4))) then none else some { cause := .illTarget, faddr := a }
/-- R22: does slice `j` take a branch on `p` with its negation? -/
def takesBranch (w : Warp) (p : PReg) (neg : Bool) (j : Nat) : Bool :=
  (List.range 4).any fun l => w.active.getLsbD (4 * j + l) && decide (4 * j + l < w.width) && (w.pred p (4 * j + l) != neg)
/-- The slices of a gang that take a branch. -/
def takenMask (w : Warp) (m : BitVec 16) (p : PReg) (neg : Bool) : BitVec 16 :=
  ((List.range w.nslices).filter fun j => m.getLsbD j && takesBranch w p neg j).foldl
    (fun x j => x ||| BitVec.ofNat 16 (2 ^ j)) 0
/-- Target of a BRA (R272). -/
def braTarget (pc : DWord) (off : BitVec 20) : DWord := pc + (off.signExtend 64 <<< 2)
/-- The lowest active lane of a slice. -/
def sliceLane (w : Warp) (j : Nat) : Nat :=
  4 * j + ((List.range 4).find? fun l => w.active.getLsbD (4 * j + l)).getD 0
/-- Target of a BRX in a slice (R274). -/
def brxTarget (w : Warp) (a : VReg) (j : Nat) : DWord := w.vpair a.toNat (sliceLane w j)
/-- The slices of a mask, ascending. -/
def maskSlices (m : BitVec 16) : List Nat := (List.range 16).filter fun j => m.getLsbD j

/-! ### Rejoining (R24, R277) -/

/-- The mask of the REGANG a slice waits at. -/
def Slice.regang? (x : Slice) : Option (BitVec 16) :=
  x.waits.findSome? fun wt => match wt with
    | .regang mask => some mask
    | _ => none
/-- Does a slice wait at a REGANG whose mask names a slice of the arriving gang, with another mask or at another address (R24)? -/
def regangConflict (w : Warp) (m mask : BitVec 16) (pc : DWord) : Bool :=
  (List.range w.nslices).any fun j =>
    match w.slice? j with
    | some x =>
      match x.regang? with
      | some mask' => !m.getLsbD j && (mask' &&& m) != 0 && (mask' != mask || x.pc != pc)
      | none => false
    | none => false
/-- Would the rejoin be complete: every named slice in the gang, or waiting at the same REGANG? -/
def regangComplete (w : Warp) (m mask : BitVec 16) (pc : DWord) : Bool :=
  (maskSlices mask).all fun j =>
    m.getLsbD j ||
      match w.slice? j with
      | some x => x.regang? == some mask && x.pc == pc
      | none => false
/-- Are the MODE and FMT copies of the named slices equal (R24)? -/
def copiesAgree (w : Warp) (mask : BitVec 16) : Bool :=
  let xs := (maskSlices mask).filterMap w.slice?
  match xs with
  | [] => true
  | x :: r => r.all fun y => y.mode == x.mode && y.fmt == x.fmt
/-- The traps of a REGANG's mask alone, which disturb no waiting slice (R277). -/
def regangMaskTrap (w : Warp) (m mask : BitVec 16) : Option Trap :=
  if mask.toNat / 2 ^ w.nslices ≠ 0 then some { cause := .illOperand }
  else if (m &&& ~~~mask) ≠ 0 ∨ (mask &&& ~~~w.alive) ≠ 0 then some { cause := .illConvergence }
  else none
/-- R24, R277. -/
def regangTrap (w : Warp) (m mask : BitVec 16) (pc : DWord) : Option Trap :=
  if (regangMaskTrap w m mask).isSome then regangMaskTrap w m mask
  else if regangConflict w m mask pc then some { cause := .illConvergence }
  else if regangComplete w m mask pc && !copiesAgree w mask then some { cause := .illConvergence }
  else none

/-! ### Tiles (R63, R66, R287, R292) -/

/-- R63, Table 2.10, for a warp. -/
def tileTrap (s : State) (k slot : Nat) (w : Warp) (t : Nat) (wr : Bool) : Option Trap :=
  match s.team? w.team with
  | none => some { cause := .tileOwn }
  | some tm =>
    if (tm.tile (tm.halfOf k) t).owner ≠ .warp slot ∨ s.wr k w.team t then some { cause := .tileOwn, wr := wr }
    else if wr && s.rd k w.team t then some { cause := .tileBusy, wr := wr }
    else none
/-- R66: TCFG, or TFREE. -/
def cfgTrap (s : State) (k slot : Nat) (w : Warp) (t : Nat) (free : Bool) : Option Trap :=
  match s.team? w.team with
  | none => some { cause := .tileBusy }
  | some tm =>
    match (tm.tile (tm.halfOf k) t).owner with
    | .free => none
    | .warp x =>
      if x = slot then trapIf (free && (s.rd k w.team t || s.wr k w.team t)) .tileBusy else some { cause := .tileBusy }
    | _ => some { cause := .tileBusy }
/-- R287: does a warp number name a destination on this core? -/
def giveTo (s : State) (k : Nat) (w : Warp) (n : Nat) : Option Nat :=
  match s.slotOf k w.team n with
  | none => none
  | some d =>
    match s.warp? k d with
    | some x => if n < s.teamSize w && !x.retired then some d else none
    | none => none
/-- Element bits of a tile word's type (R293). -/
def TTy_bits : TTy → Nat
  | .f32 => 32
  | .f16 | .bf16 => 16
  | .f64 => 64
/-- SHAPE.ESZ that a type needs (R293). -/
def TTy_esz : TTy → Nat
  | .f32 => 1
  | .f16 | .bf16 => 0
  | .f64 => 2
/-- Element bits of a TCVT destination (R294). -/
def TCvtTy_bits : TCvtTy → Nat
  | .f32 => 32
  | .f16 | .bf16 => 16
  | .f8e4 | .f8e5 => 8
  | .f64 => 64
/-- Bits of an element of SHAPE's ESZ. -/
def eszBits (esz : Nat) : Nat :=
  match esz with
  | 0 => 16
  | 1 => 32
  | _ => 64
/-- A tile group of a word: its first tile and its number of tiles. -/
abbrev TGroup := Nat × Nat
/-- The tiles of a group. -/
def TGroup.tiles (g : TGroup) : List Nat := tileRange g.1 g.2
/-- The group a tile source names, if it names one. -/
def srcGroup (n : Nat) : TSrc → List TGroup
  | .t r => [(r.toNat, n)]
  | .s _ => []
/-- What a tile element-wise word uses under a SHAPE: source groups, destination group, and the ESZ it needs. -/
structure TileUse where
  srcs : List TGroup
  dst : TGroup
  esz : Option Nat
  deriving DecidableEq, Repr
/-- The groups of a tile element-wise word (R290, R292 to R295). -/
def tileUse (shape : DWord) : Instr → Option TileUse
  | .tzero _ t => some ⟨[], (t.toNat, n (eszBits (shapeEsz shape))), none⟩
  | .tadd _ ty d a b | .tmul _ ty d a b | .tmax _ ty d a b | .tmin _ ty d a b =>
    some ⟨srcGroup (n (TTy_bits ty)) a ++ srcGroup (n (TTy_bits ty)) b, (d.toNat, n (TTy_bits ty)), some (TTy_esz ty)⟩
  | .tfma _ ty d a b =>
    some ⟨srcGroup (n (TTy_bits ty)) a ++ srcGroup (n (TTy_bits ty)) b ++ [(d.toNat, n (TTy_bits ty))],
      (d.toNat, n (TTy_bits ty)), some (TTy_esz ty)⟩
  | .tcvt _ td ts d a => some ⟨srcGroup (n (TTy_bits ts)) a, (d.toNat, n (TCvtTy_bits td)), some (TTy_esz ts)⟩
  | .tact _ _ d a => some ⟨[(a.toNat, n 32)], (d.toNat, n 32), some 1⟩
  | _ => none
where
  /-- Tiles of a group of the SHAPE region. -/
  n (bits : Nat) : Nat := groupOf (shapeRows shape) (shapeCols shape) bits
/-- Do two groups share some tiles but not all (R292)? -/
def cutsGroup (a b : TGroup) : Bool := meets a.tiles b.tiles && a != b
/-- TILE_RANGE of a word: the tile words and the element-wise groups (R60, R292). -/
def tileBeyond (n : Nat) (shape : DWord) (i : Instr) : Bool :=
  match i with
  | .give t .. | .giveSeq t | .take t | .tcfg _ t | .tfree _ t => decide (n ≤ t.toNat)
  | i =>
    match tileUse shape i with
    | some u => (u.dst :: u.srcs).any fun g => decide (n < g.1 + g.2)
    | none => false

/-! ### Reversible words (R147, R296, R297) -/

/-- What a stack word needs of its parameter: the width of its remainder and its KIND, or none when it is illegal (R296). -/
def revParam (w : Warp) : Instr → Option (Nat × Nat)
  | .rvmul _ _ _ b | .unmul _ _ _ b =>
    let x := w.sget b
    let sh := (hiWord x).toNat
    if loWord x = 0 ∨ sh = 0 ∨ 16 < sh then none else some (sh, 1)
  | .rvshr _ _ _ b | .unshr _ _ _ b =>
    let x := (w.sget b).toNat
    if x = 0 ∨ 16 < x then none else some (x, 2)
  | .rvnarBf16 .. | .unnarBf16 .. => some (16, 3)
  | .rvmark _ | .unmark _ => some (16, 4)
  | _ => some (16, 0)
/-- The tag of a remainder width and KIND (R145). -/
def revTag (p : Nat × Nat) : Byte := BitVec.ofNat 8 ((p.1 - 1) * 16 + p.2)
/-- Does a word push? -/
def pushes : Instr → Bool
  | .rvmul .. | .rvshr .. | .rvnarBf16 .. | .rvmark _ => true
  | _ => false
/-- Does a word pop? -/
def pops : Instr → Bool
  | .unmul .. | .unshr .. | .unnarBf16 .. | .unmark _ => true
  | _ => false
/-- Is it a stack word, with the gang rule of R146? -/
def stackWord (i : Instr) : Bool :=
  pushes i || pops i ||
    match i with
    | .rspill | .rsfill => true
    | _ => false
/-- y of RVMUL (R298): the exact product shifted. -/
def rvmulShift (x : Word) (p : DWord) : Int := x.toInt * (loWord p).toInt / 2 ^ (hiWord p).toNat
/-- REV_LOSS in a lane (R298, R300). -/
def lossy (w : Warp) (lane : Nat) : Instr → Bool
  | .rvmul _ _ a b =>
    let y := rvmulShift (w.src32 a lane) (w.sget b)
    decide (y < -2 ^ 31) || decide (2 ^ 31 ≤ y)
  | .rvnarI16 _ _ a =>
    let x := (w.src32 a lane).toInt
    decide (x < -32768) || decide (32767 < x)
  | _ => false
/-- The guard of a reversible word. -/
def revGuard : Instr → Guard
  | .rvmul g .. | .unmul g .. | .rvshr g .. | .unshr g .. | .rvnarBf16 g .. | .unnarBf16 g .. | .rvnarI16 g .. | .unnarI16 g ..
  | .rvadd g .. | .unadd g .. => g
  | _ => .none
/-- R147 for a pop, on a window that holds the top entry. -/
def lifoTrap (w : Warp) (i : Instr) (p : Nat × Nat) : Option Trap :=
  let bad : Trap := { cause := .serpentLifo, tagx := revTag p, tagf := if w.depth = 0 then 0 else w.tag (w.depth - 1) }
  if w.depth = 0 then some bad
  else if w.tag (w.depth - 1) ≠ revTag p then some bad
  else
    match i with
    | .unmark mk => if (List.range w.width).all fun l => w.entry (w.depth - 1) l == mk then none else some bad
    | _ => none
/-- R297 for a reversible word. -/
def revTrap (s : State) (k slot c : Nat) (w : Warp) (m : BitVec 16) (i : Instr) : Option Trap :=
  if stackWord i && !w.wholeGang m then some { cause := .illConvergence }
  else
    match revParam w i with
    | none => some { cause := .illOperand }
    | some p =>
      let fill := pops i && w.mustFill
      firstTrap [
        if fill then s.fillTrap k c w else none,
        if pops i then lifoTrap (if fill then s.filled k slot c w else w) i p else none,
        ((w.actLanes m (revGuard i)).find? fun l => lossy w l i).map fun l => { cause := .revLoss, lane := l },
        if pushes i && w.mustSpill then s.spillTrap k c w else none,
        match i with
        | .rspill => if 32 ≤ w.depth - w.spilled then s.spillTrap k c w else none
        | .rsfill => if 0 < w.spilled ∧ w.depth - w.spilled ≤ 96 then s.fillTrap k c w else none
        | _ => none]

/-! ### Special registers and core words (R337 to R343) -/

/-- R190: Table 8.6's allowed engines, and not both members of a pair rebound. -/
def semapLegal (x : DWord) : Bool :=
  let f (i : Nat) : Nat := x.toNat / 2 ^ (4 * i) % 16
  (f 0 == 0 || f 0 == 5) && f 1 == 1 && (f 2 == 2 || f 2 == 3) && (f 3 == 3 || f 3 == 2) && f 4 == 4 &&
    (f 5 == 5 || f 5 == 0) && f 6 == 6 && f 7 == 7 && f 8 == 8 && !(f 0 == 5 && f 5 == 0) && !(f 2 == 3 && f 3 == 2)
/-- Table 28.1: no reserved code and no value out of range. -/
def mgnLegal (x : DWord) : Bool :=
  decide (x.toNat % 32 ≤ 24) && x.toNat / 2 ^ 8 % 256 != 0 && decide (x.toNat / 2 ^ 16 % 4 < 2)
/-- Is a scan running or clearing on a core (R340)? -/
def Core.scanning (c : Core) : Bool :=
  match c.scan.phase with
  | .running | .clearing _ => true
  | _ => false
/-- May SEMAP of a core be written (R337)? -/
def State.semapOpen (s : State) (k : Nat) : Bool := (s.core k).drain && (s.resident k).isEmpty && !(s.core k).scanning
/-- A selector's illegal-operand (R331). -/
def selTrap (x : DWord) : Option Trap := trapIf (!selectorOk x) .illOperand
/-- R337, R51: the value a WRSR writes. -/
def wrsrTrap (s : State) (w : Warp) (d a : SReg) (n : SpecReg) : Option Trap :=
  let x := w.sget a
  match n with
  | .fmt => trapIf (!fmtLegal x) .illOperand
  | .shape => trapIf (!shapeLegal x) .illOperand
  | .bx _ => trapIf (!bxLegal x) .illOperand
  | .semap =>
    firstTrap [selTrap (w.sget d), trapIf (!s.semapOpen (w.sget d).toNat || !semapLegal x) .illOperand]
  | .mgnCtl => firstTrap [selTrap (w.sget d), trapIf (!mgnLegal x) .illOperand]
  | _ => none

/-! ### The checks together -/

/-- R250, R252, R276, R94: A-marks against the launch. -/
def sliceTrap (sliced : Bool) (i : Instr) : Option Trap :=
  let control (acc : Bool) : Option Trap := trapIf (acc != sliced) .illInstr
  let marked (acc : Bool) : Option Trap := trapIf (acc && !sliced) .illInstr
  match i with
  | .bra acc .. | .jmp acc _ | .call acc .. | .ret acc _ | .brx acc _ | .exit acc => control acc
  | .bitld acc .. | .bitldPitch acc .. | .bitsw acc .. => control acc
  | .ld acc .. | .lds acc .. | .ldBx acc .. | .ldBfx acc .. | .prefL1 acc .. | .prefL2 acc .. => marked acc
  | .qpop .. => marked true
  | _ => none
/-- The checks of R192 step 3 that a decoded word of a warp still has to pass, in its order. The illegal-instruction of an A bit, which
depends on the launch, comes after the word's own encoding checks. (DESIGN CHOICE, log entry 70.) -/
def decodeTrap (s : State) (w : Warp) (i : Instr) : Option Trap :=
  let u := usesOf i
  let tu := tileUse w.shape i
  firstTrap [
    sliceTrap (s.sliced w) i,
    trapIf (u.beyond w.windowRegs) .regRange,
    trapIf (tileBeyond (s.pool w) w.shape i) .tileRange,
    trapIf (u.overlap || (match tu with
      | some t => t.srcs.any (cutsGroup t.dst)
      | none => false)) .illOverlap,
    trapIf (u.operand || (match i with
      | .mgnrd _ _ n => decide (3 < n.toNat)
      | _ => false) || (match tu with
      | some t => (match t.esz with
        | some e => e != shapeEsz w.shape
        | none => false)
      | none => false)) .illOperand]
/-- Is a word privileged (R200, R331)? -/
def privilegedWord : Instr → Bool
  | .rdsr _ n | .wrsr _ _ n => n.perCore
  | .csave .. | .crestore .. | .corectlStatus .. | .corectlDrain .. | .corectlAdmit .. | .corectlStop .. | .corectlResume ..
  | .scan .. | .scanrd .. | .scanab .. | .cmapw .. | .mgnrd .. => true
  | _ => false
/-- R187: a pending destination inside its window. `n` counted words precede this one in its bundle. (DEDUCED, log entry 19.) -/
def hazard (w : Warp) (m : BitVec 16) (n : Nat) (u : Uses) : Bool :=
  w.pending.any fun p =>
    (maskSlices (p.slices &&& m)).any fun j =>
      match w.slice? j with
      | some x => decide (x.count + n + 1 ≤ p.base + p.la) && p.dests.any u.touches
      | none => false

/-- Is a load A-marked? -/
def loadMarked : Instr → Bool
  | .ld acc .. | .lds acc .. | .ldBx acc .. | .ldBfx acc .. => acc
  | _ => false
/-- The instructions by which a slice's access slice is ahead. -/
def Piccolo.lead (x : Piccolo) (j : Nat) : Nat := ((x.at_.find? fun p => p.1 == j).map (·.2.2)).getD 0
/-- Has the A-marked load of the bundle at an address been performed for a gang that reaches it: Piccolo is past it, or another gang's
load was for every lane of the warp (R250)? A bundle has one load at most (R181), and it comes first. -/
def Warp.passes (w : Warp) (m : BitVec 16) (pc : DWord) : Bool :=
  ((maskSlices m).any fun j => decide (0 < w.picc.lead j)) || w.picc.passed.any fun e => e.1 == pc && (e.2 &&& m) != 0
/-- R251 for an A-marked load: performed ahead it has passed its probe, and a fault that Piccolo's probe found is taken at the load's
place; none when the load is to be probed here. -/
def aheadTrap (w : Warp) (m : BitVec 16) (pc : DWord) (i : Instr) : Option (Option Trap) :=
  if !loadMarked i then none
  else if w.passes m pc then some none
  else
    match w.picc.held with
    | some (p, t) => if p = pc then some (some t) else none
    | none => none

/-- The word's checks at issue, when every word of the bundle has passed R192 and R200. `k`, `slot`, `m` and `pc` say whose
bundle it is. -/
def probeTrap (s : State) (k slot : Nat) (m : BitVec 16) (pc : DWord) (w : Warp) (i : Instr) : Option Trap :=
  let c := s.ctxNo w
  let lanes (gp : PReg) : List Nat := w.actLanes m ⟨false, gp⟩
  let accLanes (acc : Bool) (gp : PReg) : List Nat := if acc then w.actLanes w.alive .none else lanes gp
  let coll : Option Trap := trapIf (!w.collective m) .illConvergence
  let whole : Option Trap := trapIf (!w.wholeGang m) .illConvergence
  let fmt : DWord := match w.lead? m with
    | some x => x.fmt
    | none => 0
  match i with
  | .dot4 g .. => trapIf (w.actsOnce m g && !(dot4Ok (fmtA fmt) && dot4Ok (fmtB fmt))) .illOperand
  | .dot8 g .. => trapIf (w.actsOnce m g && !(dot8Ok (fmtA fmt) && dot8Ok (fmtB fmt))) .illOperand
  | .topk g bf _ a _ => if w.actsOnce m g then topkTrap s k c w bf a else none
  | .readlane .. | .writelane .. | .bcast .. => coll
  | .shfl .. | .compress .. | .expand .. | .slideup .. | .slidedn .. => coll
  | .voteAny .. | .voteAll .. | .voteBallot .. => coll
  | .reduxAdd .. | .reduxMin .. | .reduxMax .. | .reduxAnd .. | .reduxOr .. => coll
  | .ld acc gp sz _ base off _ =>
    lanesTrap s k c (laneAddr (w.sget base) (off.toInt * sz.bytes) sz.bytes) sz.bytes false (sz == .w64 && !acc) (accLanes acc gp)
  | .ldStrong gp _ wd _ _ base _ =>
    lanesTrap s k c (laneAddr (w.sget base) 0 (4 * wd.regs)) (4 * wd.regs) false false (lanes gp)
  | .ldBx acc gp wd _ base _ =>
    (accLanes acc gp).findSome? fun l => bxTrap s k slot c (laneAddr (w.sget base) 0 (4 * wd.regs) l) (4 * wd.regs) l
  | .ldBfx acc gp b _ base _ =>
    let p := bxPat (sget 0 w.bx b.toNat)
    match accLanes acc gp with
    | [] => none
    | l :: ls =>
      if !p.fits then some { cause := .illOperand, lane := l }
      else (l :: ls).findSome? fun l => bfxTrap s k c p (laneAddr (w.sget base) 0 4 l) l
  | .st gp sz _ base off =>
    lanesTrap s k c (laneAddr (w.sget base) (off.toInt * sz.bytes) sz.bytes) sz.bytes true (sz == .w64) (lanes gp)
  | .stStrong gp _ wd _ _ base =>
    lanesTrap s k c (laneAddr (w.sget base) 0 (4 * wd.regs)) (4 * wd.regs) true false (lanes gp)
  | .lds acc gp sz _ base off _ =>
    (accLanes acc gp).findSome? fun l =>
      spadTrap s k w.grid (w.sget base) (laneAddr (w.sget base) (off.toInt * sz.bytes) sz.bytes l) sz.bytes l false
  | .sts gp sz _ base off =>
    (lanes gp).findSome? fun l => spadTrap s k w.grid (w.sget base) (laneAddr (w.sget base) (off.toInt * sz.bytes) sz.bytes l) sz.bytes l true
  | .qpop .. => whole
  | .atom gp op _ _ d base _ | .red gp op _ _ d base =>
    lanesTrap s k c (fun l => w.sget base + (w.vget d.toNat l).zeroExtend 64) (atomSize op) true false (lanes gp)
  | .copy g d a b =>
    (w.actLanes m g).findSome? fun l =>
      if 2 ^ 24 < (w.src32 b l).toNat then some { cause := .illOperand, lane := l }
      else copyLaneTrap s k c w.grid (w.vpair d.toNat l) (w.src64 a l) (copyGeom1 (w.src32 b l)) l
  | .copy2d g d a b =>
    (w.actLanes m g).findSome? fun l =>
      if !geomLegal (copyGeom2 (w.src64 b l)) then some { cause := .illOperand, lane := l }
      else copyLaneTrap s k c w.grid (w.vpair d.toNat l) (w.src64 a l) (copyGeom2 (w.src64 b l)) l
  | .waitb g a | .testb g _ a => trapIf (w.actsOnce m g && decide (w.nb < (w.sget a).toNat)) .illOperand
  | .bitld _ g _ a _ => ((w.actLanes m g).find? fun l => decide (255 < (w.src32 a l).toNat)).map fun l => { cause := .illOperand, lane := l }
  | .trap g n => if w.actsOnce m g then some { cause := .trap, faddr := n.zeroExtend 64 } else none
  | .brk g n =>
    if w.actsOnce m g && (match s.recOf w with
      | some r => r.debug
      | none => false) then some { cause := .brk, faddr := n.zeroExtend 64 } else none
  | .region => whole
  | .wrsr d a n => wrsrTrap s w d a n
  | .rdsr d n => if n.perCore then selTrap (w.sget d) else none
  | .csave _ a | .crestore _ a =>
    firstTrap [selTrap (w.sget a), trapIf ((w.sget (a + 1)).toNat % 4096 != 0) .illOperand]
  | .corectlStatus _ a | .corectlDrain _ a | .corectlAdmit _ a | .corectlStop _ a | .corectlResume _ a => selTrap (w.sget a)
  | .scan _ a | .scanrd _ a | .scanab a | .mgnrd _ a _ => selTrap (w.sget a)
  | .cmapw _ a => firstTrap [trapIf (decide (255 < (w.sget a).toNat)) .illOperand, selTrap (w.sget (a + 1))]
  | .bra _ p ng off => if takenMask w m p ng = 0 then none else targetTrap s k c (braTarget pc off)
  | .jmp _ a | .call _ _ a | .ret _ a => targetTrap s k c (w.sget a)
  | .brx _ a => (maskSlices m).findSome? fun j => targetTrap s k c (brxTarget w a j)
  | .regang mask => regangTrap w m mask pc
  | .cont g _ a _ => trapIf (w.actsOnce m g && !codeAddr (w.sget a)) .illOperand
  | .barInit b a =>
    let n := (w.sget a).toNat
    let cnt := match s.team? w.team with
      | some tm => (tm.bar (s.teamSize w) b.toNat).count
      | none => 0
    trapIf (n == 0 || decide (65 < n) || cnt != 0) .illOperand
  | .barArrive _ | .barWait _ | .barSync _ => whole
  | .give t byReg n =>
    let x := if byReg then (w.sget n).toNat else n.toNat
    firstTrap [coll, trapIf ((giveTo s k w x).isNone) .illOperand,
      match s.team? w.team with
      | some tm => trapIf ((tm.tile (tm.halfOf k) t.toNat).owner != .warp slot) .tileOwn
      | none => some { cause := .tileOwn }]
  | .giveSeq t =>
    firstTrap [coll, match s.team? w.team with
      | some tm => trapIf ((tm.tile (tm.halfOf k) t.toNat).owner != .warp slot) .tileOwn
      | none => some { cause := .tileOwn }]
  | .take _ => coll
  | .seqgo a =>
    let x := w.sget a
    firstTrap [coll, trapIf (x.toNat / 2 ^ 48 != 0 || x.toNat % 32 != 0) .illOperand,
      match s.translate c x with
      | .bad kind level => some (pageTrap kind level x 0 false)
      | .ok _ => none]
  | .setshape g a => trapIf (w.actsOnce m g && !shapeLegal (w.sget a)) .illOperand
  | .tcfg g t => if w.actsOnce m g then cfgTrap s k slot w t.toNat false else none
  | .tfree g t => if w.actsOnce m g then cfgTrap s k slot w t.toNat true else none
  | .tzero g _ | .tadd g .. | .tmul g .. | .tfma g .. | .tmax g .. | .tmin g .. | .tcvt g .. | .tact g .. =>
    if w.actsOnce m g then
      match tileUse w.shape i with
      | some u =>
        firstTrap [(u.srcs.flatMap TGroup.tiles).findSome? fun t => tileTrap s k slot w t false,
          u.dst.tiles.findSome? fun t => tileTrap s k slot w t true]
      | none => none
    else none
  | .rvmul .. | .unmul .. | .rvshr .. | .unshr .. | .rvnarBf16 .. | .unnarBf16 .. | .rvnarI16 .. | .unnarI16 .. | .rvadd ..
  | .unadd .. | .rvmark _ | .unmark _ | .rspill | .rsfill => revTrap s k slot c w m i
  | _ => none

/-- The word's checks at issue, an A-marked load's as Piccolo left them. (DEDUCED, log entry 56.) -/
def issueTrap (s : State) (k slot : Nat) (m : BitVec 16) (pc : DWord) (w : Warp) (i : Instr) : Option Trap :=
  match aheadTrap w m pc i with
  | some r => r
  | none => probeTrap s k slot m pc w i

/-- The trap of one word alone: R192, R200, then issue. -/
def wordTrap (s : State) (w : Warp) (i : Instr) : Option Trap :=
  let m := s.cur.slices
  firstTrap [decodeTrap s w i, trapIf (hazard w m 0 (usesOf i)) .laHazard,
    trapIf (privilegedWord i && !privileged s.cur.core) .privileged,
    issueTrap s s.cur.core s.cur.slot m s.cur.pc w i]

/-- R24: slices waiting at a REGANG whose mask names an arriving slice stop waiting when that slice's own REGANG differs; on restart
they issue its bundle again. (DEDUCED, log entry 31.) -/
def regangRelease (i : Instr) (m : BitVec 16) (pc : DWord) (w : Warp) : Warp :=
  match i with
  | .regang mask =>
    if (regangMaskTrap w m mask).isNone && regangConflict w m mask pc then
      { w with slices := w.slices.map fun x =>
          match x.regang? with
          | some mask' => if (mask' &&& m) != 0 then { x with waits := [] } else x
          | none => x }
    else w
  | _ => w
/-- What else happens when a word's trap is taken. -/
def trapSide (i : Instr) (s : State) : State :=
  s.modLive fun w =>
    let w := regangRelease i s.cur.slices s.cur.pc w
    if loadMarked i then { w with picc := { w.picc with held := none } } else w

/-- The outcome type of a meaning. -/
abbrev Out := Host.Outcome State Fault Refusal

/-- A word of the warp stream: without its warp there is no actor; a word that fails a check takes its trap (R45), and one
that passes has its effect, read from the warp as the bundle found it (R182). (DEDUCED, log entry 33.) -/
def word (i : Instr) (s : State) (eff : Warp → State → State) : Out :=
  match s.view? with
  | none => .fault .noActor
  | some w =>
    match if s.cur.checked then none else wordTrap s w i with
    | some t => .next (takeTrap t (trapSide i s))
    | none => .next (eff w s)
/-- A word whose effect is on its own warp's registers alone. -/
def onWarp (i : Instr) (s : State) (f : Warp → BitVec 16 → Warp → Warp) : Out :=
  word i s fun w s => s.modLive (f w s.cur.slices)

end Sys2Proof.Machine
end

