-- ==== Sys2Proof/Machine/Landing.lean ====
section
/-! DEFINITION. Long-latency words: what a word in flight becomes when its result lands (R187, R188, R238, R257). -/

namespace Sys2Proof.Machine
open Sys2Proof

/-! ### In flight -/

/-- The gang whose word runs issues a long-latency word (R187): its destinations pend in the lanes given. -/
def State.addPending (s : State) (dests : List Dest) (la : Nat) (lanes : List Nat) (op : LandOp) : State :=
  let (id, s) := s.newId
  s.modLive fun w =>
    { w with
      pending := w.pending ++
        [{ id := id, slices := s.cur.slices, base := (match w.lead? s.cur.slices with
            | some x => x.count
            | none => 0), la := la, lanes := laneMask lanes, dests := dests, op := op }] }
/-- The `n` vector registers from `r` as destinations. -/
def destsV (r n : Nat) : List Dest := (regsFrom r n).map .v

/-! ### Reading -/

/-- The words a load of `size` bytes puts into its group (Table 12.1). -/
def loadWords (size : Nat) (sx : Bool) (bs : List Byte) : List Word :=
  if size < 4 then [if sx then BitVec.ofInt 32 (sext (8 * size) (ofBytes bs).toNat) else loWord (ofBytes bs)]
  else (List.range (size / 4)).map fun k => loWord (ofBytes ((bs.drop (4 * k)).take 4))

/-! ### Landing values -/

/-- Values for registers: destination register, lane, word. -/
abbrev Landed := List (Nat × Nat × Word)
/-- The words of one lane's group. -/
def groupValues (dests : List Dest) (lane : Nat) (ws : List Word) : Landed :=
  (dests.zip ws).filterMap fun p => match p.1 with
    | .v r => some (r, lane, p.2)
    | .s _ => none
/-- Write landed values; a retired slice's are discarded (R188). -/
def Warp.putLanded (w : Warp) (vs : Landed) : Warp :=
  vs.foldl (fun w x => if w.alive.getLsbD (x.2.1 / 4) then { w with v := sput 0 w.v (64 * x.1 + x.2.1) x.2.2 } else w) w
/-- Read memory for each lane, in ascending lane order; poison anywhere is remembered. -/
def State.readLanes (s : State) (k slot size : Nat) (sx : Bool) (dests : List Dest) : List (Nat × Nat) → Landed × Bool × State
  | [] => ([], false, s)
  | (lane, loc) :: r =>
    let (bs, p, s) := s.readLoc (agentOf k slot) loc size
    let (vs, q, s) := s.readLanes k slot size sx dests r
    (groupValues dests lane (loadWords size sx bs) ++ vs, p || q, s)
/-- Read scattered bytes. -/
def State.readBytes (s : State) (a : Nat) : List Nat → List Byte × Bool × State
  | [] => ([], false, s)
  | loc :: r =>
    let (bs, p, s) := s.readLoc a loc 1
    let (cs, q, s) := s.readBytes a r
    (bs ++ cs, p || q, s)
/-- Read the windows of a bit-field load (R97). -/
def State.readFields (s : State) (a : Nat) (pat : DWord) (dests : List Dest) : List (Nat × List Nat) → Landed × Bool × State
  | [] => ([], false, s)
  | (lane, locs) :: r =>
    let (bs, p, s) := s.readBytes a locs
    let x := (bxPat pat).extract (bs.foldr (fun b acc => b.toNat + 256 * acc) 0)
    let (vs, q, s) := s.readFields a pat dests r
    (groupValues dests lane [BitVec.ofNat 32 x] ++ vs, p || q, s)

/-! ### Atomics (R110 to R112, R257, R258) -/

/-- Before an atomic of a warp: what binds its store rises (R106, R107), and the stores its warp sees at its location rise to the level of
the site where it executes (R102, Table 4.4). -/
def State.settleFor (s : State) (a thr loc n : Nat) (sc : Scope) (rel : Bool) (site : Nat) : State :=
  let s := ((s.orders a thr (some sc) rel).foldl (fun s c => s.raiseTo c.1 c.2) s).settleReds a [(loc, n)]
  s.flushTo site fun p => s.sees a p && p.meets loc n
/-- Does memory let an atomic execute now: nothing that it waits for is held back (R434, R437, R119)? -/
def State.atomReady (s : State) (a thr loc n : Nat) (sc : Scope) (rel : Bool) (site : Nat) : Bool :=
  let t := s.settleFor a thr loc n sc rel site
  !s.blocked (agentCore a) loc (decide (3 ≤ site)) && ((s.orders a thr (some sc) rel).all fun c => decide (c.2 ≤ t.levelNow c.1)) &&
    t.pend.all fun p => !(t.sees a p && p.meets loc n) || (decide (site ≤ p.level) && !p.op.isRed)
/-- The bytes an atomic reads: in L1 as its warp sees them, in L2 or at its home as they stand there. (DESIGN CHOICE, log entry 16.) -/
def State.atomRead (s : State) (a loc n site : Nat) : List Byte × Bool × State :=
  s.answer (agentCore a) loc n (if site ≤ 2 then s.seen a loc n else if site = 3 then s.atHome loc n else s.bytes loc n)
/-- One lane's atomic access: its old value, whether it came with poison, and the state. A domain that has read a location at its home
holds no older copy of it (R102). -/
def State.atomLane (s : State) (k slot lane : Nat) (op : AtomOp) (sc : Scope) (rel : Bool) (loc site : Nat) (lax : Bool)
    (b nw : DWord) : DWord × Bool × State :=
  let n := atomSize op
  let a := agentOf k slot
  let thr := threadOf k slot lane
  let (bs, p, s) := (s.settleFor a thr loc n sc rel site).atomRead a loc n site
  let s := if site ≤ 2 then s else s.dropStale (· == s.domOf k) loc n
  let old := ofBytes bs
  match atomStored op old b nw with
  | none => (old, p, s)
  | some v => (old, p, (s.store a thr 0 (some sc) rel lax (.bytes loc (bytesOf n v))).raiseTo s.nextId site)
/-- The lanes of an atomic, ascending (R257). -/
def State.atomLanes (s : State) (k slot : Nat) (op : AtomOp) (sc : Scope) (rel : Bool) (dests : List Dest) :
    List (Nat × Nat × Nat × Bool × DWord × DWord) → Landed × Bool × State
  | [] => ([], false, s)
  | (lane, loc, site, lax, b, nw) :: r =>
    let (old, p, s) := s.atomLane k slot lane op sc rel loc site lax b nw
    let (vs, q, s) := s.atomLanes k slot op sc rel dests r
    (groupValues dests lane [loWord old, hiWord old] ++ vs, p || q, s)

/-! ### TOPK (R238) -/

/-- Elements of `e` bytes. -/
def elementsOf (e : Nat) (bs : List Byte) : Nat → List Nat
  | 0 => []
  | n + 1 => (ofBytes (bs.take e)).toNat :: elementsOf e (bs.drop e) n
/-- TOPK's reads, ranking and stores: the row is read, then the values and the indices are stored (R238). -/
def State.runTopk (s : State) (k slot : Nat) (bf : Bool) (n c : Nat) (row : List (Nat × Nat)) (val idx : List (Nat × Nat × Bool)) :
    Bool × State :=
  let e := if bf then 2 else 4
  let (bs, p, s) := (s.settleReds (agentOf k slot) row).readRuns (agentOf k slot) row
  let places := rankRow (if bf then bf16 else f32) (elementsOf e bs n) c
  let thr := threadOf k slot 0
  let w := s.nextId
  let s := s.storeRuns w (agentOf k slot) thr 0 val (places.flatMap fun x => bytesOf e (BitVec.ofNat 64 x.1))
  (p, s.storeRuns w (agentOf k slot) thr 0 idx (places.flatMap fun x => bytesOf 4 (BitVec.ofNat 64 x.2)))

/-! ### What a word in flight accesses -/

/-- What a word, or some lanes of one, accesses: ranges, the lanes as threads, its scope as a strong store, whether it is a release of
its lanes, and whether it only reads. -/
structure Access where
  ranges : List (Nat × Nat) := []
  lanes : BitVec 64 := 0
  strong : Option Scope := none
  rel : Bool := false
  load : Bool := false
  deriving DecidableEq, Repr
/-- Runs without the mark of their pages. -/
def bareRuns (rs : List (Nat × Nat × Bool)) : List (Nat × Nat) := rs.map fun x => (x.1, x.2.1)
/-- Locations an operation in flight will access: start and length. -/
def LandOp.ranges : LandOp → List (Nat × Nat)
  | .load size _ _ lanes => lanes.map fun x => (x.2, size)
  | .bfx _ lanes => lanes.flatMap fun x => x.2.map fun l => (l, 1)
  | .atom op _ _ lanes => lanes.map fun x => (x.2.1, atomSize op)
  | .values _ | .scalar _ => []
  | .topk _ _ _ _ row val idx => row ++ bareRuns (val ++ idx)
/-- Does it hold back its thread until it is performed: an acquire (R107)? -/
def LandOp.acquires : LandOp → Bool
  | .load _ _ acq _ => acq.isSome
  | .atom _ ord _ _ => ord == .acq || ord == .ar
  | _ => false
/-- Do two lists of ranges meet? -/
def rangesMeet (a b : List (Nat × Nat)) : Bool :=
  a.any fun x => b.any fun y => decide (x.1 < y.1 + y.2) && decide (y.1 < x.1 + x.2)
/-- The lanes of a word in flight, or all but them. -/
def LandOp.restrict (lanes : BitVec 64) (on : Bool) : LandOp → LandOp
  | .load size sx acq xs => .load size sx acq (xs.filter fun x => lanes.getLsbD x.1 == on)
  | .bfx pat xs => .bfx pat (xs.filter fun x => lanes.getLsbD x.1 == on)
  | .atom op ord sc xs => .atom op ord sc (xs.filter fun x => lanes.getLsbD x.1 == on)
  | op => op
/-- The lanes of a word in flight that have still to access memory, ascending. -/
def LandOp.lanes : LandOp → List Nat
  | .load _ _ _ xs => xs.map (·.1)
  | .bfx _ xs => xs.map (·.1)
  | .atom _ _ _ xs => xs.map (·.1)
  | _ => []
/-- One lane of a mask. -/
def oneLane (l : Nat) : BitVec 64 := BitVec.ofNat 64 (2 ^ l)
/-- A mask of lanes with the lower lanes that meet one of them, which go first (R98, R102). -/
def LandOp.closure (op : LandOp) (m : BitVec 64) : BitVec 64 :=
  op.lanes.reverse.foldl (fun m l =>
    let above := m &&& ~~~(BitVec.ofNat 64 (2 ^ (l + 1) - 1))
    if rangesMeet (op.restrict (oneLane l) true).ranges (op.restrict above true).ranges then m ||| oneLane l else m) m
/-- What some lanes of a word in flight access. A TOPK follows every access of its warp before it (R238). -/
def LandOp.access (op : LandOp) (m : BitVec 64) : Access :=
  match op with
  | .load .. | .bfx .. => { ranges := (op.restrict m true).ranges, lanes := m, load := true }
  | .atom _ ord sc _ => { ranges := (op.restrict m true).ranges, lanes := m, strong := some sc, rel := ord == .rel || ord == .ar }
  | .values _ | .scalar _ => {}
  | .topk .. => { ranges := op.ranges, lanes := BitVec.allOnes 64, rel := true }
/-- Are the strong stores of an atomic in flight and of a later access kept in order towards some other thread (R106)? -/
def strongOrder (strong : Option Scope) : LandOp → Bool
  | .atom _ _ sc _ => sc != .warp && (match strong with
    | some x => x != .warp
    | none => false)
  | _ => false
/-- The lanes of a word in flight that must be performed before an access: one of a common location (R102), and of the same thread an
acquire (R107), any before a release (R107), and an atomic before a strong store (R106). A TOPK's areas do not hold back loads (R238). -/
def forcedLanes (a : Access) (op : LandOp) : BitVec 64 :=
  match op with
  | .values _ | .scalar _ => 0
  | .topk _ _ _ _ row .. =>
    if (a.rel && a.lanes != 0) || rangesMeet (if a.load then row else op.ranges) a.ranges then BitVec.allOnes 64 else 0
  | op =>
    op.closure (laneMask (op.lanes.filter fun l =>
      rangesMeet (op.restrict (oneLane l) true).ranges a.ranges ||
        (a.lanes.getLsbD l && (a.rel || op.acquires || strongOrder a.strong op))))
/-- A part of a word in flight. -/
abbrev Part := Pending × BitVec 64
/-- The parts of words in flight, given latest first, that must be performed before some accesses, and before each other: oldest first.
(DEDUCED, log entry 18.) -/
def forcedParts (as_ : List Access) : List Pending → List Part
  | [] => []
  | p :: r =>
    let m := as_.foldl (fun m a => m ||| forcedLanes a p.op) 0
    if m = 0 then forcedParts as_ r else forcedParts (p.op.access m :: as_) r ++ [(p, m)]

/-! ### Performing (R101) -/

/-- May an operation perform its accesses now: memory serves each, and a TOPK has started? -/
def State.opReady (s : State) (k slot : Nat) (op : LandOp) : Bool :=
  let a := agentOf k slot
  let reds (rs : List (Nat × Nat)) : Bool :=
    !(s.pend.any fun p => p.agent == a && p.op.isRed && rs.any fun r => p.meets r.1 r.2) ||
      (s.settleReds a rs).pend.all fun p => !(p.agent == a && p.op.isRed && rs.any fun r => p.meets r.1 r.2)
  match op with
  | .load size _ _ lanes => (lanes.all fun x => !s.blocked k x.2 false) && reds (lanes.map fun x => (x.2, size))
  | .bfx _ lanes => (lanes.all fun x => x.2.all fun l => !s.blocked k l false) && reds op.ranges
  | .atom aop ord sc lanes =>
    lanes.all fun x => s.atomReady a (threadOf k slot x.1) x.2.1 (atomSize aop) sc (ord == .rel || ord == .ar) x.2.2.1
  | .values _ | .scalar _ => true
  | .topk _ _ _ st row val idx =>
    st && (row.all fun x => !s.blocked k x.1 false) && ((val ++ idx).all fun x => !s.blocked k x.1 true) && reds row
/-- May parts of words in flight be performed now? -/
def State.partsReady (s : State) (k slot : Nat) (ps : List Part) : Bool := ps.all fun x => s.opReady k slot (x.1.op.restrict x.2 true)
/-- The words in flight before the one with number `id`, latest first. -/
def earlier (ps : List Pending) (id : Nat) : List Pending := (ps.takeWhile fun p => p.id != id).reverse
/-- What must be performed before some lanes of a word in flight, and they. -/
def Warp.partsOf (w : Warp) (p : Pending) (m : BitVec 64) : List Part := forcedParts [p.op.access m] (earlier w.pending p.id) ++ [(p, m)]
/-- May a word in flight land now: can it and what precedes it be performed? -/
def State.landReady (s : State) (k slot : Nat) (w : Warp) (p : Pending) : Bool :=
  s.partsReady k slot (w.partsOf p (BitVec.allOnes 64))
/-- What must be performed before an access of a warp. -/
def Warp.partsFor (w : Warp) (a : Access) : List Part := forcedParts [a] w.pending.reverse
/-- Everything that some lanes of a warp have in flight. -/
def Warp.partsAll (w : Warp) (lanes : BitVec 64) : List Part := w.partsFor { lanes := lanes, rel := true }

/-- The instruction consumed poison (R243, R424). -/
def State.consumed (s : State) (tid : Nat) (p : Bool) : State := if p then s.modTeam tid consume else s
/-- An operation performs its accesses: the values it has read, whether poison came with them, and the state. -/
def State.performOp (s : State) (k slot : Nat) (dests : List Dest) (op : LandOp) : Landed × Bool × State :=
  let acquire (sc : Option Scope) (r : Landed × Bool × State) : Landed × Bool × State :=
    match sc with
    | some sc => (r.1, r.2.1, r.2.2.acquireAt k sc)
    | none => r
  match op with
  | .values _ | .scalar _ => ([], false, s)
  | .load size sx acq lanes =>
    acquire acq ((s.settleReds (agentOf k slot) op.ranges).readLanes k slot size sx dests lanes)
  | .bfx pat lanes => (s.settleReds (agentOf k slot) op.ranges).readFields (agentOf k slot) pat dests lanes
  | .atom aop ord sc lanes =>
    acquire (if op.acquires then some sc else none) (s.atomLanes k slot aop sc (ord == .rel || ord == .ar) dests lanes)
  | .topk bf n c _ row val idx =>
    let (q, s) := s.runTopk k slot bf n c row val idx
    ([], q, s)
/-- An operation without the lanes that have performed their accesses. -/
def LandOp.performed (op : LandOp) (m : BitVec 64) : LandOp :=
  match op with
  | .topk _ _ c .. => .scalar (BitVec.ofNat 64 c)
  | op => op.restrict m false
/-- A part of a word in flight performs its accesses; what it has read is kept until the word lands. The word consumes poison once
(R424). -/
def State.performPart (s : State) (k slot : Nat) (x : Part) : State :=
  match s.warp? k slot with
  | none => s
  | some w =>
    match w.pending.find? fun p => p.id == x.1.id with
    | none => s
    | some p =>
      let (vs, q, s) := s.performOp k slot p.dests (p.op.restrict x.2 true)
      let s := match p.op with
        | .topk .. => s.modCore k fun c => { c with topkQ := c.topkQ.filter fun y => y.2 != p.id }
        | _ => s
      (s.modWarp k slot fun w =>
        { w with pending := w.pending.map fun r =>
            if r.id = p.id then { r with op := r.op.performed x.2, got := r.got ++ vs, psn := r.psn || q } else r }).consumed w.team (q && !p.psn)
/-- Parts of words in flight are performed. -/
def State.performParts (s : State) (k slot : Nat) (ps : List Part) : State := ps.foldl (fun s x => s.performPart k slot x) s
/-- What must precede an access of a warp is performed. -/
def State.settleAt (s : State) (k slot : Nat) (a : Access) : State :=
  match s.warp? k slot with
  | none => s
  | some w => s.performParts k slot (w.partsFor a)
/-- What must precede an access of the gang whose word runs is performed. (DEDUCED, log entry 18.) -/
def State.settleAccess (s : State) (a : Access) : State := s.settleAt s.cur.core s.cur.slot a
/-- Everything that some lanes of a warp have in flight is performed. -/
def State.performAll (s : State) (k slot : Nat) (lanes : BitVec 64) : State := s.settleAt k slot { lanes := lanes, rel := true }

/-! ### The landing -/

/-- A word in flight, performed, writes its results: vector registers of slices that are not retired, and a scalar register while a
slice that issued the word is not (R188). -/
def Warp.landResult (w : Warp) (p : Pending) : Warp :=
  let w := { w with pending := w.pending.filter fun q => q.id != p.id }
  let w := w.putLanded (p.got ++ match p.op with
    | .values vs => vs
    | _ => [])
  match p.op with
  | .scalar x => if (p.slices &&& w.alive) = 0 then w else p.dests.foldl (fun w d => match d with
    | .s r => w.sset (BitVec.ofNat 6 r) x
    | .v _ => w) w
  | _ => w
/-- The word in flight with a number lands: what is left of it is performed, with what must precede it, and its results are written. -/
def State.land (s : State) (k slot id : Nat) : State :=
  match s.warp? k slot with
  | none => s
  | some w =>
    match w.pending.find? fun p => p.id == id with
    | none => s
    | some p =>
      (s.performParts k slot (w.partsOf p (BitVec.allOnes 64))).modWarp k slot fun w =>
        match w.pending.find? fun q => q.id == id with
        | some q => w.landResult q
        | none => w
/-- The words in flight of a warp that `sel` selects land, in issue order. -/
def State.landSome (s : State) (k slot : Nat) (sel : Pending → Bool) : State :=
  match s.warp? k slot with
  | none => s
  | some w => (w.pending.filter sel).foldl (fun s p => s.land k slot p.id) s
/-- Some lanes of a word in flight perform their accesses, with what must precede them, if memory serves all of it (R98).
(DEDUCED, log entry 59.) -/
def State.landLanes (s : State) (k slot id : Nat) (lanes : BitVec 64) : State :=
  match s.warp? k slot with
  | none => s
  | some w =>
    match w.pending.find? fun p => p.id == id with
    | none => s
    | some p =>
      let ps := w.partsOf p (p.op.closure lanes)
      if s.partsReady k slot ps then s.performParts k slot ps else s
/-- Could every word in flight of a warp land now? -/
def State.allReady (s : State) (k slot : Nat) (w : Warp) : Bool := w.pending.all (s.landReady k slot w)

/-- Does a team halt keep the warp's waits from ending (R45)? They resume on restart. -/
def State.frozen (s : State) (w : Warp) : Bool :=
  w.stopped || match s.team? w.team with
    | some tm => tm.halted
    | none => false
/-- Is a wait one of those of R35, which a halt of the team holds? The others belong to a bundle that completes in full (R45). -/
def Wait.held : Wait → Bool
  | .regang _ | .bar .. | .take _ | .waitb _ | .qpop .. | .sleep _ | .seqgo _ | .csave .. | .crestore .. => true
  | .fence .. | .spfence | .give .. | .cont .. | .contf => false
/-- Has a warp a wait that its bundle still completes in a halt (R45)? -/
def Warp.completing (w : Warp) : Bool := w.slices.any fun x => x.waits.any fun wt => !wt.held
/-- The waits of a slice that may end now. -/
def State.waitsOf (s : State) (k slot slice : Nat) : List Wait :=
  match s.warp? k slot with
  | none => []
  | some w =>
    match w.slice? slice with
    | some x => x.waits.filter fun wt => !(s.frozen w && wt.held)
    | none => []
/-- A wait of the gang of a slice ends. -/
def State.endWait (s : State) (k slot slice : Nat) (wt : Wait) : State := s.modWarp k slot fun w => w.endWait slice wt s.coreNow
/-- The first wait of a slice that `f` completes ends; `f` gives what happens before the warp goes on. -/
def State.onWait (s : State) (k slot slice : Nat) (f : Warp → Wait → Option State) : State :=
  match s.warp? k slot with
  | none => s
  | some w =>
    match (s.waitsOf k slot slice).findSome? fun wt => (f w wt).map fun s' => s'.endWait k slot slice wt with
    | some s' => s'
    | none => s

/-! ### Events -/

/-- R187: a long-latency result lands, clearing its pending destinations. -/
def execLongLatencyLanding (core slot id : Nat) (s : State) : Out :=
  .next (match s.warp? core slot with
    | none => s
    | some w =>
      match w.pending.find? fun p => p.id == id with
      | some p => if s.landReady core slot w p then s.land core slot id else s
      | none => s)
/-- R238: the first TOPK of the core's queue begins its reads. -/
def execTopkStart (core : Nat) (s : State) : Out :=
  .next (match (s.core core).topkQ with
    | [] => s
    | (slot, id) :: _ =>
      s.modWarp core slot fun w =>
        { w with pending := w.pending.map fun p =>
            if p.id = id then
              match p.op with
              | .topk bf n c _ row val idx => { p with op := .topk bf n c true row val idx }
              | _ => p
            else p })

end Sys2Proof.Machine
end

