-- ==== Sys2Proof/Machine/Fetch.lean ====
section
/-! DEFINITION. Fetch and the checks of a bundle (R184, R192, R200), and whether a gang's next bundle stalls for a result in flight
(R35, R187). -/

namespace Sys2Proof.Machine
open Sys2Proof

/-! ### Fetch (R184, R405) -/

/-- The words of a fetch packet from an address on, as core `k` fetches them, or the fault of the bundle that would be fetched; a fetch
from the BAR0 registers is another access to them (R456). -/
def State.fetchWords (s : State) (k c : Nat) (pc : DWord) : Trap ⊕ List Word :=
  if hubRegister k pc then .inl { cause := .protection, faddr := pc }
  else
    match s.translate c pc with
    | .bad kind level => .inl (pageTrap kind level pc 0 false)
    | .ok p =>
      let loc := p.pa pc.toNat
      if s.blocked k loc false then .inl (pageTrap walkWaits 3 pc 0 false)
      else .inr ((List.range (8 - pc.toNat / 4 % 8)).map fun j => loWord (ofBytes (s.bytes (loc + 4 * j) 4)))

/-- R250, R276 on a word's raw fields: an unmarked control or table word of a sliced kernel, or a marked word or a QPOP of one
launched without slicing. -/
def rawSliceBad (sliced : Bool) (h : Byte) (x : Word) : Bool :=
  let op := (wordOp x).toNat
  let control := op == 0x30 || op == 0x31 || op == 0x2A
  (control && wordA x != sliced) || (wordA x && !sliced) || (op == 0x24 && extLow h == 2 && !sliced)
/-- The decode checks of one word of a warp in the order of R192, step 3. -/
def checkWord (s : State) (w : Warp) (x : Byte × Word) : Trap ⊕ Instr :=
  match decodeWord false x.1 x.2 with
  | .bad .stream => .inl { cause := .illStream }
  | .bad .instr => .inl { cause := .illInstr }
  | .bad .encoding => .inl { cause := if rawSliceBad (s.sliced w) x.1 x.2 then .illInstr else .illEncoding }
  | .ok i =>
    match decodeTrap s w i with
    | some t => .inl t
    | none => .inr i
/-- The instructions of a bundle, or the trap of the first word that fails. -/
def checkWords (s : State) (w : Warp) : List (Byte × Word) → Trap ⊕ List Instr
  | [] => .inr []
  | x :: r =>
    match checkWord s w x with
    | .inl t => .inl t
    | .inr i =>
      match checkWords s w r with
      | .inl t => .inl t
      | .inr is_ => .inr (i :: is_)
/-- Is a word counted for lookahead (R187)? -/
def counted : Instr → Bool
  | .nop _ => false
  | _ => true
/-- Does the tile group that a word writes meet another's (R182)? -/
def tilesWritten (shape : DWord) (i : Instr) : List Nat :=
  match i with
  | .give t .. | .giveSeq t | .take t | .tcfg _ t | .tfree _ t => [t.toNat]
  | i =>
    match tileUse shape i with
    | some u => u.dst.tiles
    | none => []
/-- R182: do two words of a bundle write one register or one tile? -/
def doubleWrite (shape : DWord) : List Instr → Bool
  | [] => false
  | i :: r => (r.any fun j => (usesOf i).clash (usesOf j) || meets (tilesWritten shape i) (tilesWritten shape j)) || doubleWrite shape r
/-- LA_HAZARD in a bundle, `n` counted words into it. (DEDUCED, log entry 19.) -/
def bundleHazard (w : Warp) (m : BitVec 16) : Nat → List Instr → Bool
  | _, [] => false
  | n, i :: r => hazard w m n (usesOf i) || bundleHazard w m (if counted i then n + 1 else n) r
/-- The trap of a bundle whose words have been decoded, with the word that takes it: R192 steps 4 and 5, R200, then the issue checks
in word order. -/
def bundleTrap (s : State) (k slot : Nat) (m : BitVec 16) (pc : DWord) (w : Warp) (ws : List (Byte × Word)) (is_ : List Instr) :
    Option (Trap × Option Instr) :=
  if !classesOk false ws || doubleWrite w.shape is_ then some ({ cause := .illEncoding }, none)
  else if bundleHazard w m 0 is_ then some ({ cause := .laHazard }, none)
  else if !privileged k && is_.any privilegedWord then some ({ cause := .privileged }, none)
  else is_.findSome? fun i => (issueTrap s k slot m pc w i).map fun t => (t, some i)

/-- Has the warp of a child grid issued no bundle yet (R43, R281)? -/
def State.atChildEntry (s : State) (w : Warp) : Bool :=
  !w.started && match s.grid? w.grid with
    | some g => g.parent.isSome
    | none => false
/-- The trap of a first word without S: at the entry of a child warp (R281), or within a packet, where only a transfer leads (R185), it is
illegal-target; at a packet's position 0 illegal-encoding (R184). (DEDUCED, log entry 12.) -/
def noStartTrap (entry : Bool) (pc : DWord) : Trap :=
  if pc.toNat % 32 ≠ 0 ∨ entry = true then { cause := .illTarget, faddr := pc } else { cause := .illEncoding }
/-- A gang's bundle as fetch and the decode checks leave it: its words with their lent bytes, its instructions and its length, or its
trap with its length. (DEDUCED, log entry 12.) -/
def State.fetchBundle (s : State) (k : Nat) (w : Warp) (pc : DWord) : (Trap × Nat) ⊕ (List (Byte × Word) × List Instr × Nat) :=
  match s.fetchWords k (s.ctxNo w) pc with
  | .inl t => .inl (t, 1)
  | .inr ws =>
    if (ws.headD 0).getLsbD 31 = false then .inl (noStartTrap (s.atChildEntry w) pc, 1)
    else
      match cutBundle false ws with
      | .words ws len =>
        match checkWords s w ws with
        | .inl t => .inl (t, len)
        | .inr is_ => .inr (ws, is_, len)
      | _ => .inl ({ cause := .illEncoding }, 1)
/-- Words of a bundle that count for lookahead. -/
def countedIn (is_ : List Instr) : Nat := (is_.filter counted).length
/-- Must a result land before a bundle of `n` counted words issues: does the bundle hold its counted word LA + 1 (R187)? -/
def landsFirst (w : Warp) (m : BitVec 16) (n : Nat) (p : Pending) : Bool :=
  (maskSlices (p.slices &&& m)).any fun j =>
    match w.slice? j with
    | some x => decide (p.base + p.la < x.count + n)
    | none => false
/-- Does a gang's next bundle stall at lookahead, for a result that cannot land yet (R35, R187)? -/
def State.gangStalls (s : State) (k slot : Nat) (w : Warp) (g : Nat) : Bool :=
  let m := w.gangMask g
  !w.pending.isEmpty && match w.lead? m with
    | none => false
    | some x =>
      match s.fetchBundle k w x.pc with
      | .inl _ => false
      | .inr (_, is_, _) => w.pending.any fun p => landsFirst w m (countedIn is_) p && !s.landReady k slot w p

end Sys2Proof.Machine
end

