-- ==== Sys2Proof/Machine/Integer.lean ====
section
/-! DEFINITION. The integer and address words of majors 0x01 to 0x0F (R201 to R215). -/

namespace Sys2Proof.Machine
open Sys2Proof

/-! ### Arithmetic at a width (R201, R205, R209, R210) -/

/-- Bits of a width. -/
def Width_bits : Width → Nat
  | .w32 => 32
  | .w64 => 64
/-- An operation of two operands at a width; 32-bit values stand in the low half. -/
def atWidth2 (wd : Width) (f : (n : Nat) → BitVec n → BitVec n → BitVec n) (a b : DWord) : DWord :=
  match wd with
  | .w32 => (f 32 (loWord a) (loWord b)).zeroExtend 64
  | .w64 => f 64 a b
/-- An operation of one operand at a width. -/
def atWidth1 (wd : Width) (f : (n : Nat) → BitVec n → BitVec n) (a : DWord) : DWord := atWidth2 wd (fun n x _ => f n x) a 0
/-- An operation of three operands at a width. -/
def atWidth3 (wd : Width) (f : (n : Nat) → BitVec n → BitVec n → BitVec n → BitVec n) (d a b : DWord) : DWord :=
  match wd with
  | .w32 => (f 32 (loWord d) (loWord a) (loWord b)).zeroExtend 64
  | .w64 => f 64 d a b
/-- MULH.i (Table 10.1). -/
def mulHighI (n : Nat) (a b : BitVec n) : BitVec n := BitVec.ofInt n (a.toInt * b.toInt / 2 ^ n)
/-- MULH.n (Table 10.1). -/
def mulHighN (n : Nat) (a b : BitVec n) : BitVec n := BitVec.ofNat n (a.toNat * b.toNat / 2 ^ n)
/-- ABS (Table 10.1). -/
def absW (n : Nat) (a : BitVec n) : BitVec n := if a.slt 0 then 0 - a else a
/-- SHL: the count clamps at the width (R209). -/
def shiftL {n : Nat} (a : BitVec n) (c : Nat) : BitVec n := a <<< min c n
/-- SHR (R209). -/
def shiftR {n : Nat} (a : BitVec n) (c : Nat) : BitVec n := a >>> min c n
/-- SHA (R209). -/
def shiftA {n : Nat} (a : BitVec n) (c : Nat) : BitVec n := a.sshiftRight (min c n)
/-- ROT: the count is taken modulo the width (R209). -/
def rotL {n : Nat} (a : BitVec n) (c : Nat) : BitVec n := a.rotateLeft (c % n)
/-- The number of one bits among the low `k`. -/
def countOnes {n : Nat} (a : BitVec n) : Nat → Nat
  | 0 => 0
  | k + 1 => countOnes a k + (if a.getLsbD k then 1 else 0)
/-- POPC (R210). -/
def onesOf {n : Nat} (a : BitVec n) : BitVec n := BitVec.ofNat n (countOnes a n)
/-- The number of zero bits from bit `k` − 1 down to the first one bit. -/
def countLead {n : Nat} (a : BitVec n) : Nat → Nat
  | 0 => 0
  | k + 1 => if a.getLsbD k then 0 else 1 + countLead a k
/-- CLZ (R210). -/
def leadZeros {n : Nat} (a : BitVec n) : BitVec n := BitVec.ofNat n (countLead a n)
/-- pos of BFE and BFI (R210). -/
def fieldPos {n : Nat} (b : BitVec n) : Nat := b.toNat % 256
/-- The length l of a field after clipping at the width (R210). -/
def fieldLen {n : Nat} (b : BitVec n) : Nat :=
  if fieldPos b < n then min (fieldPos b + b.toNat / 256 % 256) n - fieldPos b else 0
/-- BFE.n (R210). -/
def bitFieldN (n : Nat) (a b : BitVec n) : BitVec n := BitVec.ofNat n (a.toNat / 2 ^ fieldPos b % 2 ^ fieldLen b)
/-- BFE.i (R210). -/
def bitFieldI (n : Nat) (a b : BitVec n) : BitVec n := BitVec.ofInt n (sext (fieldLen b) (a.toNat / 2 ^ fieldPos b))
/-- BFI (R210). -/
def bitFieldInsert (n : Nat) (d a b : BitVec n) : BitVec n :=
  let mask : BitVec n := BitVec.ofNat n ((2 ^ fieldLen b - 1) * 2 ^ fieldPos b)
  (d &&& ~~~mask) ||| (BitVec.ofNat n (a.toNat * 2 ^ fieldPos b) &&& mask)

/-! ### The words -/

/-- A word that writes d, at a width, in each lane in which it acts (R183, R201). -/
def laneWord (i : Instr) (g : Guard) (wd : Width) (d : VReg) (s : State) (f : Warp → Nat → DWord) : Out :=
  onWarp i s fun w m v => v.vsetW wd d.toNat (f w) (w.acts m g)
/-- A word that writes bits of a predicate in each lane in which it acts. -/
def predWord (i : Instr) (g : Guard) (p : PReg) (s : State) (f : Warp → Nat → Bool) : Out :=
  onWarp i s fun w m v => v.pset p (f w) (w.acts m g)
/-- A word of two sources of its width. -/
def int2 (i : Instr) (g : Guard) (wd : Width) (d : VReg) (a b : Src) (f : (n : Nat) → BitVec n → BitVec n → BitVec n)
    (s : State) : Out :=
  laneWord i g wd d s fun w l => atWidth2 wd f (w.srcW wd a l) (w.srcW wd b l)
/-- A word of one source of its width. -/
def int1 (i : Instr) (g : Guard) (wd : Width) (d : VReg) (a : Src) (f : (n : Nat) → BitVec n → BitVec n) (s : State) : Out :=
  laneWord i g wd d s fun w l => atWidth1 wd f (w.srcW wd a l)
/-- A word that reads D as a third source. -/
def int3 (i : Instr) (g : Guard) (wd : Width) (d : VReg) (a b : Src)
    (f : (n : Nat) → BitVec n → BitVec n → BitVec n → BitVec n) (s : State) : Out :=
  laneWord i g wd d s fun w l => atWidth3 wd f (w.dstW wd d l) (w.srcW wd a l) (w.srcW wd b l)

/-- R205: a + b. -/
def execAdd (g : Guard) (w : Width) (d : VReg) (a b : Src) (s : State) : Out :=
  int2 (.add g w d a b) g w d a b (fun _ a b => a + b) s
/-- R205: a − b. -/
def execSub (g : Guard) (w : Width) (d : VReg) (a b : Src) (s : State) : Out :=
  int2 (.sub g w d a b) g w d a b (fun _ a b => a - b) s
/-- R205: the low w bits of a · b. -/
def execMul (g : Guard) (w : Width) (d : VReg) (a b : Src) (s : State) : Out :=
  int2 (.mul g w d a b) g w d a b (fun _ a b => a * b) s
/-- R205: the high half of the signed product. -/
def execMulhI (g : Guard) (w : Width) (d : VReg) (a b : Src) (s : State) : Out :=
  int2 (.mulhI g w d a b) g w d a b mulHighI s
/-- R205: the high half of the unsigned product. -/
def execMulhN (g : Guard) (w : Width) (d : VReg) (a b : Src) (s : State) : Out :=
  int2 (.mulhN g w d a b) g w d a b mulHighN s
/-- R205. -/
def execMinI (g : Guard) (w : Width) (d : VReg) (a b : Src) (s : State) : Out :=
  int2 (.minI g w d a b) g w d a b (fun _ a b => if a.slt b then a else b) s
/-- R205. -/
def execMaxI (g : Guard) (w : Width) (d : VReg) (a b : Src) (s : State) : Out :=
  int2 (.maxI g w d a b) g w d a b (fun _ a b => if a.slt b then b else a) s
/-- R205. -/
def execMinN (g : Guard) (w : Width) (d : VReg) (a b : Src) (s : State) : Out :=
  int2 (.minN g w d a b) g w d a b (fun _ a b => if a.ult b then a else b) s
/-- R205. -/
def execMaxN (g : Guard) (w : Width) (d : VReg) (a b : Src) (s : State) : Out :=
  int2 (.maxN g w d a b) g w d a b (fun _ a b => if a.ult b then b else a) s
/-- R208. -/
def execAnd (g : Guard) (w : Width) (d : VReg) (a b : Src) (s : State) : Out :=
  int2 (.and g w d a b) g w d a b (fun _ a b => a &&& b) s
/-- R208. -/
def execOr (g : Guard) (w : Width) (d : VReg) (a b : Src) (s : State) : Out :=
  int2 (.or g w d a b) g w d a b (fun _ a b => a ||| b) s
/-- R208. -/
def execXor (g : Guard) (w : Width) (d : VReg) (a b : Src) (s : State) : Out :=
  int2 (.xor g w d a b) g w d a b (fun _ a b => a ^^^ b) s
/-- R208: a AND NOT b. -/
def execAndn (g : Guard) (w : Width) (d : VReg) (a b : Src) (s : State) : Out :=
  int2 (.andn g w d a b) g w d a b (fun _ a b => a &&& ~~~b) s
/-- R209. -/
def execShl (g : Guard) (w : Width) (d : VReg) (a b : Src) (s : State) : Out :=
  int2 (.shl g w d a b) g w d a b (fun _ a b => shiftL a b.toNat) s
/-- R209. -/
def execShr (g : Guard) (w : Width) (d : VReg) (a b : Src) (s : State) : Out :=
  int2 (.shr g w d a b) g w d a b (fun _ a b => shiftR a b.toNat) s
/-- R209. -/
def execSha (g : Guard) (w : Width) (d : VReg) (a b : Src) (s : State) : Out :=
  int2 (.sha g w d a b) g w d a b (fun _ a b => shiftA a b.toNat) s
/-- R209. -/
def execRot (g : Guard) (w : Width) (d : VReg) (a b : Src) (s : State) : Out :=
  int2 (.rot g w d a b) g w d a b (fun _ a b => rotL a b.toNat) s
/-- R210. -/
def execBfeN (g : Guard) (w : Width) (d : VReg) (a b : Src) (s : State) : Out :=
  int2 (.bfeN g w d a b) g w d a b bitFieldN s
/-- R210. -/
def execBfeI (g : Guard) (w : Width) (d : VReg) (a b : Src) (s : State) : Out :=
  int2 (.bfeI g w d a b) g w d a b bitFieldI s
/-- R205: 0 − a. -/
def execNeg (g : Guard) (w : Width) (d : VReg) (a : Src) (s : State) : Out :=
  int1 (.neg g w d a) g w d a (fun _ a => 0 - a) s
/-- R205. -/
def execAbs (g : Guard) (w : Width) (d : VReg) (a : Src) (s : State) : Out :=
  int1 (.abs g w d a) g w d a absW s
/-- R208. -/
def execNot (g : Guard) (w : Width) (d : VReg) (a : Src) (s : State) : Out :=
  int1 (.not g w d a) g w d a (fun _ a => ~~~a) s
/-- R210. -/
def execClz (g : Guard) (w : Width) (d : VReg) (a : Src) (s : State) : Out :=
  int1 (.clz g w d a) g w d a (fun _ a => leadZeros a) s
/-- R210. -/
def execPopc (g : Guard) (w : Width) (d : VReg) (a : Src) (s : State) : Out :=
  int1 (.popc g w d a) g w d a (fun _ a => onesOf a) s
/-- R210. -/
def execBrev (g : Guard) (w : Width) (d : VReg) (a : Src) (s : State) : Out :=
  int1 (.brev g w d a) g w d a (fun _ a => a.reverse) s
/-- R207: d := a. -/
def execMov (g : Guard) (w : Width) (d : VReg) (a : Src) (s : State) : Out :=
  int1 (.mov g w d a) g w d a (fun _ a => a) s
/-- R205: d + a · b. -/
def execMad (g : Guard) (w : Width) (d : VReg) (a b : Src) (s : State) : Out :=
  int3 (.mad g w d a b) g w d a b (fun _ d a b => d + a * b) s
/-- R210. -/
def execBfi (g : Guard) (w : Width) (d : VReg) (a b : Src) (s : State) : Out :=
  int3 (.bfi g w d a b) g w d a b bitFieldInsert s
/-- R206. -/
def execSetp (g : Guard) (c : ICond) (un : Bool) (w : Width) (p : PReg) (a b : Src) (s : State) : Out :=
  predWord (.setp g c un w p a b) g p s fun v l => icond c un w (v.srcW w a l) (v.srcW w b l)
/-- R207: d := pN[i] ? a : b. -/
def execSel (g : Guard) (w : Width) (d : VReg) (a b : Src) (p : PReg) (s : State) : Out :=
  laneWord (.sel g w d a b p) g w d s fun v l => if v.pred p l then v.srcW w a l else v.srcW w b l
/-- R211. -/
def execAddi (g : Guard) (d : VReg) (a : Src) (imm : BitVec 12) (s : State) : Out :=
  int1 (.addi g d a imm) g .w32 d a (fun n x => x + imm.signExtend n) s
/-- R212. -/
def execAndi (g : Guard) (d : VReg) (a : Src) (imm : BitVec 8) (s : State) : Out :=
  int1 (.andi g d a imm) g .w32 d a (fun n x => x &&& imm.signExtend n) s
/-- R212. -/
def execOri (g : Guard) (d : VReg) (a : Src) (imm : BitVec 8) (s : State) : Out :=
  int1 (.ori g d a imm) g .w32 d a (fun n x => x ||| imm.signExtend n) s
/-- R212. -/
def execXori (g : Guard) (d : VReg) (a : Src) (imm : BitVec 8) (s : State) : Out :=
  int1 (.xori g d a imm) g .w32 d a (fun n x => x ^^^ imm.signExtend n) s
/-- R212: SHL with c := n. -/
def execShli (g : Guard) (w : Width) (d : VReg) (a : Src) (n : BitVec 6) (s : State) : Out :=
  int1 (.shli g w d a n) g w d a (fun _ x => shiftL x n.toNat) s
/-- R212: SHR with c := n. -/
def execShri (g : Guard) (w : Width) (d : VReg) (a : Src) (n : BitVec 6) (s : State) : Out :=
  int1 (.shri g w d a n) g w d a (fun _ x => shiftR x n.toNat) s
/-- R212: SHA with c := n. -/
def execShai (g : Guard) (w : Width) (d : VReg) (a : Src) (n : BitVec 6) (s : State) : Out :=
  int1 (.shai g w d a n) g w d a (fun _ x => shiftA x n.toNat) s
/-- R213: d := signext(imm). -/
def execMovi (g : Guard) (d : VReg) (imm : BitVec 19) (s : State) : Out :=
  laneWord (.movi g d imm) g .w32 d s fun _ _ => (imm.signExtend 32).zeroExtend 64
/-- R213: imm above the low 15 bits of d. -/
def execMovhi (g : Guard) (d : VReg) (imm : BitVec 17) (s : State) : Out :=
  laneWord (.movhi g d imm) g .w32 d s fun v l =>
    (((imm.zeroExtend 32) <<< 15) ||| (v.vget d.toNat l &&& 0x7FFF)).zeroExtend 64
/-- R214: a + (signext(b) << sh); b is one 32-bit register. -/
def execLea (g : Guard) (w : Width) (d : VReg) (a b : Src) (sh : BitVec 3) (s : State) : Out :=
  laneWord (.lea g w d a b sh) g w d s fun v l =>
    atWidth1 w (fun n x => x + ((v.src32 b l).signExtend n <<< sh.toNat)) (v.srcW w a l)
/-- The value of an IDX selector in lane `l` (Table 10.2). -/
def idxValue (s : State) (w : Warp) (e : IdxSel) (l : Nat) : Nat :=
  match e with
  | .lane => l
  | .slice => l / 4
  | .warp => w.num
  | .team => match s.team? w.team with
    | some t => t.num
    | none => 0
  | .nteams => match s.grid? w.grid with
    | some g => if g.parent.isSome then 0xFFFFFFFF else g.lr.teams
    | none => 0
  | .nwarps => s.teamSize w
  | .width => w.width
/-- R215. -/
def execIdx (g : Guard) (d : VReg) (e : IdxSel) (s : State) : Out :=
  laneWord (.idx g d e) g .w32 d s fun w l => BitVec.ofNat 64 (idxValue s w e l % 2 ^ 32)

end Sys2Proof.Machine
end

