-- ==== Sys2Proof/Machine/Scalar.lean ====
section
/-! DEFINITION. The uniform scalar words (R216, R217) and the lane transfers (R218). -/

namespace Sys2Proof.Machine
open Sys2Proof

/-- A word that executes once and writes a scalar register (R183). -/
def scalarWord (i : Instr) (g : Guard) (d : SReg) (s : State) (f : Warp → DWord) : Out :=
  onWarp i s fun w m v => if w.actsOnce m g then v.sset d (f w) else v
/-- The lane of R218. -/
def laneOf (w : Warp) (b : SReg) : Nat := (w.sget b).toNat % w.width

/-- R216: the sum modulo 2^64. -/
def execSadd (g : Guard) (d a b : SReg) (s : State) : Out :=
  scalarWord (.sadd g d a b) g d s fun w => (fun x y : DWord => x + y) (w.sget a) (w.sget b)
/-- R216. -/
def execSsub (g : Guard) (d a b : SReg) (s : State) : Out :=
  scalarWord (.ssub g d a b) g d s fun w => (fun x y : DWord => x - y) (w.sget a) (w.sget b)
/-- R216: the low 64 bits of the product. -/
def execSmul (g : Guard) (d a b : SReg) (s : State) : Out :=
  scalarWord (.smul g d a b) g d s fun w => (fun x y : DWord => x * y) (w.sget a) (w.sget b)
/-- R216. -/
def execSand (g : Guard) (d a b : SReg) (s : State) : Out :=
  scalarWord (.sand g d a b) g d s fun w => (fun x y : DWord => x &&& y) (w.sget a) (w.sget b)
/-- R216. -/
def execSor (g : Guard) (d a b : SReg) (s : State) : Out :=
  scalarWord (.sor g d a b) g d s fun w => (fun x y : DWord => x ||| y) (w.sget a) (w.sget b)
/-- R216. -/
def execSxor (g : Guard) (d a b : SReg) (s : State) : Out :=
  scalarWord (.sxor g d a b) g d s fun w => (fun x y : DWord => x ^^^ y) (w.sget a) (w.sget b)
/-- R216, R209. -/
def execSshl (g : Guard) (d a b : SReg) (s : State) : Out :=
  scalarWord (.sshl g d a b) g d s fun w => (fun x y : DWord => shiftL x y.toNat) (w.sget a) (w.sget b)
/-- R216: the logical or the arithmetic shift. -/
def execSshr (g : Guard) (arith : Bool) (d a b : SReg) (s : State) : Out :=
  scalarWord (.sshr g arith d a b) g d s fun w =>
    if arith then shiftA (w.sget a) (w.sget b).toNat else shiftR (w.sget a) (w.sget b).toNat
/-- R217. -/
def execSaddi (g : Guard) (d a : SReg) (imm : BitVec 8) (s : State) : Out :=
  scalarWord (.saddi g d a imm) g d s fun w => w.sget a + imm.signExtend 64
/-- R217. -/
def execSmovi (g : Guard) (d : SReg) (imm : BitVec 15) (s : State) : Out :=
  scalarWord (.smovi g d imm) g d s fun _ => imm.signExtend 64
/-- R217: sd + (sa << sh). -/
def execSlea (g : Guard) (d a : SReg) (sh : BitVec 3) (s : State) : Out :=
  scalarWord (.slea g d a sh) g d s fun w => w.sget d + (w.sget a <<< sh.toNat)
/-- R217: the result goes to the bit of each active lane of the gang. -/
def execSsetp (g : Guard) (c : SCond) (p : PReg) (a : SReg) (imm : BitVec 5) (s : State) : Out :=
  onWarp (.ssetp g c p a imm) s fun w m v =>
    if w.actsOnce m g then v.pset p (fun _ => scond c (w.sget a) (imm.signExtend 64)) (w.inGang m) else v
/-- R218: the raw contents of lane L. -/
def execReadlane (g : Guard) (d : SReg) (a : VReg) (b : SReg) (s : State) : Out :=
  scalarWord (.readlane g d a b) g d s fun w => (w.vget a.toNat (laneOf w b)).zeroExtend 64
/-- R218: lane L alone, when the guard is true in it. -/
def execWritelane (g : Guard) (d : VReg) (a b : SReg) (s : State) : Out :=
  onWarp (.writelane g d a b) s fun w m v =>
    v.vset d.toNat (fun _ => loWord (w.sget a)) fun i => i == laneOf w b && w.acts m g i
/-- R218. -/
def execBcast (g : Guard) (d a : VReg) (b : SReg) (s : State) : Out :=
  laneWord (.bcast g d a b) g .w32 d s fun w _ => (w.vget a.toNat (laneOf w b)).zeroExtend 64

end Sys2Proof.Machine
end

