-- ==== Sys2Proof/Machine/Floating.lean ====
section
/-! DEFINITION. The floating words of majors 0x10 to 0x19 (R220 to R233). The results are those of Machine/Float.lean. -/

namespace Sys2Proof.Machine
open Sys2Proof

/-! ### Elements of an operand (R123, R220) -/

/-- The format of an element. -/
def FTy_fmt : FTy → Fmt
  | .f32 => f32
  | .f64 => f64
  | .f16x2 => f16
  | .bf16x2 => bf16
/-- The width of an operand. -/
def FTy_width : FTy → Width
  | .f64 => .w64
  | _ => .w32
/-- Is the type packed? -/
def FTy_packed : FTy → Bool
  | .f16x2 | .bf16x2 => true
  | _ => false
/-- A function of three operands applied to each element. -/
def perElem (t : FTy) (f : Fmt → Nat → Nat → Nat → Nat) (a b c : DWord) : DWord :=
  let h := 2 ^ 16
  if FTy_packed t then
    BitVec.ofNat 64 (f (FTy_fmt t) (a.toNat % h) (b.toNat % h) (c.toNat % h) +
      h * f (FTy_fmt t) (a.toNat / h % h) (b.toNat / h % h) (c.toNat / h % h))
  else BitVec.ofNat 64 (f (FTy_fmt t) a.toNat b.toNat c.toNat)
/-- The gang's MODE (R25, R52). -/
def modeOf (w : Warp) (m : BitVec 16) : FpMode :=
  match w.lead? m with
  | some x => FpMode.ofBits x.mode.toNat
  | none => FpMode.plain
/-- The gang's FMT (R25, R53). -/
def fmtOf (w : Warp) (m : BitVec 16) : DWord :=
  match w.lead? m with
  | some x => x.fmt
  | none => 0
/-- A word that writes d at a floating type. -/
def fpWord (i : Instr) (g : Guard) (t : FTy) (d : VReg) (s : State) (f : Warp → FpMode → Nat → DWord) : Out :=
  onWarp i s fun w m v => v.vsetW (FTy_width t) d.toNat (f w (modeOf w m)) (w.acts m g)
/-- A word of two sources. -/
def fp2 (i : Instr) (g : Guard) (t : FTy) (d : VReg) (a b : Src) (f : FpMode → Fmt → Nat → Nat → Nat) (s : State) : Out :=
  fpWord i g t d s fun w md l =>
    perElem t (fun fm x y _ => f md fm x y) (w.srcW (FTy_width t) a l) (w.srcW (FTy_width t) b l) 0
/-- A word of one source. -/
def fp1 (i : Instr) (g : Guard) (t : FTy) (d : VReg) (a : Src) (f : FpMode → Fmt → Nat → Nat) (s : State) : Out :=
  fpWord i g t d s fun w md l => perElem t (fun fm x _ _ => f md fm x) (w.srcW (FTy_width t) a l) 0 0
/-- A word of three sources, the third given by a reader. -/
def fp3 (i : Instr) (g : Guard) (t : FTy) (d : VReg) (a b : Src) (c : Src) (f : FpMode → Fmt → Nat → Nat → Nat → Nat)
    (s : State) : Out :=
  fpWord i g t d s fun w md l =>
    perElem t (f md) (w.srcW (FTy_width t) a l) (w.srcW (FTy_width t) b l) (w.srcW (FTy_width t) c l)

/-! ### The words -/

/-- R222. -/
def execFadd (g : Guard) (t : FTy) (d : VReg) (a b : Src) (s : State) : Out :=
  fp2 (.fadd g t d a b) g t d a b (fun md fm => fm.add md) s
/-- R222. -/
def execFsub (g : Guard) (t : FTy) (d : VReg) (a b : Src) (s : State) : Out :=
  fp2 (.fsub g t d a b) g t d a b (fun md fm => fm.sub md) s
/-- R222. -/
def execFmul (g : Guard) (t : FTy) (d : VReg) (a b : Src) (s : State) : Out :=
  fp2 (.fmul g t d a b) g t d a b (fun md fm => fm.mul md) s
/-- R224: the lesser, with −0 < +0. -/
def execFmin (g : Guard) (t : FTy) (d : VReg) (a b : Src) (s : State) : Out :=
  fp2 (.fmin g t d a b) g t d a b (fun md fm => fm.min md) s
/-- R224: the greater, with −0 < +0. -/
def execFmax (g : Guard) (t : FTy) (d : VReg) (a b : Src) (s : State) : Out :=
  fp2 (.fmax g t d a b) g t d a b (fun md fm => fm.max md) s
/-- R222: the addend is d. -/
def execFfma (g : Guard) (t : FTy) (d : VReg) (a b : Src) (s : State) : Out :=
  fp3 (.ffma g t d a b) g t d a b (.v d) (fun md fm => fm.fma md) s
/-- R222, R223: the addend is v0 to v63; the word is unguarded. -/
def execFma3 (t : FTy) (d : VReg) (a b : Src) (c : BitVec 6) (s : State) : Out :=
  fp3 (.fma3 t d a b c) .none t d a b (.v (c.zeroExtend 7)) (fun md fm => fm.fma md) s
/-- R224: the sign bit is cleared. -/
def execFabs (g : Guard) (t : FTy) (d : VReg) (a : Src) (s : State) : Out :=
  fp1 (.fabs g t d a) g t d a (fun _ fm => fm.abs) s
/-- R224: the sign bit is inverted. -/
def execFneg (g : Guard) (t : FTy) (d : VReg) (a : Src) (s : State) : Out :=
  fp1 (.fneg g t d a) g t d a (fun _ fm => fm.negate) s
/-- The rounding mode of an FRND form (R227). -/
def frndMode (rm : FrndMode) (md : FpMode) : Rm :=
  match rm with
  | .mode => md.rm
  | .rtz => .rtz
  | .rup => .rup
  | .rdn => .rdn
/-- R227. -/
def execFrnd (g : Guard) (rm : FrndMode) (t : FTy) (d : VReg) (a : Src) (s : State) : Out :=
  fp1 (.frnd g rm t d a) g t d a (fun md fm => fm.frnd md (frndMode rm md)) s
/-- The format FSETP compares in (R225). -/
def fsetpFmt : Width → Fmt
  | .w32 => f32
  | .w64 => f64
/-- R225. -/
def execFsetp (g : Guard) (c : FCond) (w : Width) (p : PReg) (a b : Src) (s : State) : Out :=
  onWarp (.fsetp g c w p a b) s fun v m live =>
    live.pset p (fun l => fcond c ((fsetpFmt w).read (modeOf v m) (v.srcW w a l).toNat) ((fsetpFmt w).read (modeOf v m) (v.srcW w b l).toNat))
      (v.acts m g)
/-- R226: one class bit per element, from its raw bits. -/
def execFclass (g : Guard) (t : FTy) (d : VReg) (a : Src) (s : State) : Out :=
  laneWord (.fclass g t d a) g .w32 d s fun w l => perElem t (fun fm x _ _ => fm.fclass x) (w.srcW (FTy_width t) a l) 0 0

/-! ### Conversions (R228 to R230) -/

/-- The format of a floating conversion type; the packed ones give their element's. -/
def CvtTy_fmt : CvtTy → Fmt
  | .f64 => f64
  | .f16 | .f16x2 => f16
  | .bf16 | .bf16x2 => bf16
  | .f8e4 => f8e4
  | .f8e5 => f8e5
  | .f4e2 => f4e2
  | _ => f32
/-- Is a conversion type packed? -/
def CvtTy_packed : CvtTy → Bool
  | .f16x2 | .bf16x2 => true
  | _ => false
/-- The width that holds a conversion type. -/
def CvtTy_width (t : CvtTy) : Width := if t.regs = 2 then .w64 else .w32
/-- The least and the greatest value of an integer type. -/
def intRange : Nat × Bool → Int × Int
  | (n, true) => (-2 ^ (n - 1), 2 ^ (n - 1) - 1)
  | (n, false) => (0, 2 ^ n - 1)
/-- An integer source read from the low bits (R229). -/
def intRead (t : Nat × Bool) (x : Nat) : Int := if t.2 then sext t.1 x else (x % 2 ^ t.1 : Nat)
/-- Saturation (Table 11.4). -/
def clampInt (lo hi x : Int) : Int := if x < lo then lo else if hi < x then hi else x
/-- One value converted: an integer result as an integer, sign- or zero-extended by its type (R228, R229). -/
def cvtValue (md : FpMode) (td ts : CvtTy) (x : Nat) : Int :=
  match td.int?, ts.int? with
  | some d, some t => clampInt (intRange d).1 (intRange d).2 (intRead t x)
  | some d, none => FV.toInt md.rm (intRange d).1 (intRange d).2 ((CvtTy_fmt ts).read md (x % 2 ^ (CvtTy_fmt ts).width))
  | none, some t => ((CvtTy_fmt td).write md (FV.ofInt (intRead t x) 0) : Nat)
  | none, none => ((CvtTy_fmt td).write md ((CvtTy_fmt ts).read md (x % 2 ^ (CvtTy_fmt ts).width)) : Nat)
/-- The operand converted. -/
def cvtBits (md : FpMode) (td ts : CvtTy) (x : DWord) : DWord :=
  if CvtTy_packed td then
    BitVec.ofInt 64 (cvtValue md td ts (x.toNat % 2 ^ 16) + 2 ^ 16 * cvtValue md td ts (x.toNat / 2 ^ 16 % 2 ^ 16))
  else BitVec.ofInt 64 (cvtValue md td ts x.toNat)
/-- R228, R229. -/
def execCvt (g : Guard) (td ts : CvtTy) (d : VReg) (a : Src) (s : State) : Out :=
  onWarp (.cvt g td ts d a) s fun w m v =>
    v.vsetW (CvtTy_width td) d.toNat (fun l => cvtBits (modeOf w m) td ts (w.srcW (CvtTy_width ts) a l)) (w.acts m g)
/-- PACK of one lane (R230). -/
def packBits (t : PackTy) (d a b : Word) : Word :=
  match t with
  | .f16x2 | .bf16x2 => (b <<< 16) ||| (a &&& 0xFFFF)
  | .i8 | .n8 | .f8e4 | .f8e5 => (d >>> 16) ||| ((a &&& 0xFF) <<< 16) ||| ((b &&& 0xFF) <<< 24)
  | .i4 | .n4 | .f4e2 => (d >>> 8) ||| ((a &&& 0xF) <<< 24) ||| ((b &&& 0xF) <<< 28)
/-- R230. -/
def execPack (g : Guard) (t : PackTy) (d : VReg) (a b : Src) (s : State) : Out :=
  laneWord (.pack g t d a b) g .w32 d s fun w l =>
    (packBits t (w.vget d.toNat l) (w.src32 a l) (w.src32 b l)).zeroExtend 64

/-! ### Special functions (R231) -/

/-- A special function word; `h` asks for the FP16 result. -/
def specialWord (i : Instr) (g : Guard) (h : Bool) (d : VReg) (a : Src) (f : FV → Nat) (s : State) : Out :=
  fpWord i g .f32 d s fun w md l =>
    let r := special f md (w.src32 a l).toNat
    BitVec.ofNat 64 (if h then toF16 r else r)
/-- R231, R136. -/
def execExp2 (g : Guard) (h : Bool) (d : VReg) (a : Src) (s : State) : Out :=
  specialWord (.exp2 g h d a) g h d a exp2V s
/-- R231, R136. -/
def execLog2 (g : Guard) (h : Bool) (d : VReg) (a : Src) (s : State) : Out :=
  specialWord (.log2 g h d a) g h d a log2V s
/-- R231, R136. -/
def execRcp (g : Guard) (h : Bool) (d : VReg) (a : Src) (s : State) : Out :=
  specialWord (.rcp g h d a) g h d a rcpV s
/-- R231, R136. -/
def execRsqrt (g : Guard) (h : Bool) (d : VReg) (a : Src) (s : State) : Out :=
  specialWord (.rsqrt g h d a) g h d a rsqrtV s
/-- R231, R136. -/
def execTanh (g : Guard) (h : Bool) (d : VReg) (a : Src) (s : State) : Out :=
  specialWord (.tanh g h d a) g h d a tanhV s
/-- R231, R136. -/
def execLogis (g : Guard) (h : Bool) (d : VReg) (a : Src) (s : State) : Out :=
  specialWord (.logis g h d a) g h d a logisV s

/-! ### Dot products (R232, R233, R135) -/

/-- An integer element counts as positive in the sign of a zero product (R135). -/
def unsignedZero (int : Bool) : FV → FV
  | .fin neg m e => .fin (neg && !int) m e
  | x => x
/-- The product of two elements (R135). -/
def dotProduct (fa fb x y : Nat) : FV :=
  match (dotValue fa x).mul (dotValue fb y) with
  | .fin _ 0 _ => (unsignedZero (dotInt fa 0).isSome (dotValue fa x)).mul (unsignedZero (dotInt fb 0).isSome (dotValue fb y))
  | p => p
/-- A dot product of `n` elements of `bits` bits. -/
def dotBits (md : FpMode) (fa fb n bits : Nat) (a b c : Word) : Word :=
  let el (x : Word) (k : Nat) : Nat := x.toNat / 2 ^ (bits * k) % 2 ^ bits
  match dotInt fa 0, dotInt fb 0 with
  | some _, some _ =>
    BitVec.ofInt 32 ((List.range n).foldl
      (fun acc k => acc + (dotInt fa (el a k)).getD 0 * (dotInt fb (el b k)).getD 0) c.toInt)
  | _, _ => BitVec.ofNat 32 (dotF md c.toNat ((List.range n).map fun k => dotProduct fa fb (el a k) (el b k)))
/-- A dot product word. -/
def dotWord (i : Instr) (g : Guard) (n bits : Nat) (d : VReg) (a b : Src) (s : State) : Out :=
  onWarp i s fun w m v =>
    v.vset d.toNat (fun l => dotBits (modeOf w m) (fmtA (fmtOf w m)) (fmtB (fmtOf w m)) n bits (w.src32 a l) (w.src32 b l)
      (w.vget d.toNat l)) (w.acts m g)
/-- R232: four 8-bit elements. -/
def execDot4 (g : Guard) (d : VReg) (a b : Src) (s : State) : Out := dotWord (.dot4 g d a b) g 4 8 d a b s
/-- R232: eight 4-bit elements. -/
def execDot8 (g : Guard) (d : VReg) (a b : Src) (s : State) : Out := dotWord (.dot8 g d a b) g 8 4 d a b s

end Sys2Proof.Machine
end

