-- ==== Sys2Proof/Machine/Tile.lean ====
section
/-! DEFINITION. The tile words (R286 to R295): handoff, ownership, shape and element-wise operation. -/

namespace Sys2Proof.Machine
open Sys2Proof

/-! ### Shared -/

/-- The warp's region entry is cleared (R365). -/
def Warp.endRegion (w : Warp) : Warp := { w with region := none }
/-- The release of a gang's warp at .core scope: what it has issued is performed with respect to its core (R64, R113). -/
def State.releaseCore (s : State) (k slot : Nat) : State := (s.performAll k slot (BitVec.allOnes 64)).releaseAt k slot .core
/-- Can a warp's release at a scope be completed now: everything it has in flight can be performed, and no memory holds a store back? -/
def State.canRelease (s : State) (k slot : Nat) (sc : Scope) : Bool :=
  match s.warp? k slot with
  | none => false
  | some w =>
    s.partsReady k slot (w.partsAll (BitVec.allOnes 64)) &&
      ((s.performAll k slot (BitVec.allOnes 64)).released k slot sc).isSome

/-! ### Handoff -/

/-- R287, R64: the gang waits until its warp's accesses are performed; the tile then enters IN-TRANSIT. -/
def execGive (t : TReg) (byReg : Bool) (n : BitVec 6) (s : State) : Out :=
  word (.give t byReg n) s fun w s =>
    let x := if byReg then (w.sget n).toNat else n.toNat
    (s.modLive Warp.endRegion).wait (.give t.toNat (giveTo s s.cur.core w x))
/-- R287, R64: to the core's sequencer. -/
def execGiveSeq (t : TReg) (s : State) : Out :=
  word (.giveSeq t) s fun _ s => (s.modLive Warp.endRegion).wait (.give t.toNat none)
/-- The tile of a team on a core enters IN-TRANSIT to a warp's slot or the sequencer (Table 2.9). -/
def State.transit (s : State) (k tid t giver : Nat) (dst : Option Nat) : State :=
  s.modTeam tid fun tm =>
    tm.setTile (tm.halfOf k) t ⟨match dst with
      | some x => .transitWarp x
      | none => .transitSeq, giver⟩
/-- R64: the giver's accesses are performed at .core scope, the tile enters IN-TRANSIT, and the gang continues. -/
def execGiveTransit (core slot slice : Nat) (s : State) : Out :=
  .next (s.onWait core slot slice fun w wt => match wt with
    | .give t dst =>
      if s.canRelease core slot .core then some ((s.releaseCore core slot).transit core w.team t slot dst) else none
    | _ => none)
/-- Does a TAKE of tile `t` complete now: owned already, or in transit to the caller with WR clear (R65)? -/
def State.takeReady (s : State) (k slot tid t : Nat) : Bool :=
  match s.team? tid with
  | none => false
  | some tm =>
    match (tm.tile (tm.halfOf k) t).owner with
    | .warp x => x == slot
    | .transitWarp x => x == slot && !s.wr k tid t
    | _ => false
/-- The caller owns the tile. -/
def State.takeTile (s : State) (k slot tid t : Nat) : State :=
  s.modTeam tid fun tm => tm.setTile (tm.halfOf k) t ⟨.warp slot, (tm.tile (tm.halfOf k) t).giver⟩
/-- R288, R65: completes at once, or waits for the tile. It is an acquire at .core scope. -/
def execTake (t : TReg) (s : State) : Out :=
  word (.take t) s fun w s =>
    let s := s.modLive Warp.endRegion
    if s.takeReady s.cur.core s.cur.slot w.team t.toNat then
      s.takeTile s.cur.core s.cur.slot w.team t.toNat
    else s.wait (.take t.toNat)
/-- R65: a waiting TAKE completes. -/
def execTakeComplete (core slot slice : Nat) (s : State) : Out :=
  .next (s.onWait core slot slice fun w wt => match wt with
    | .take t => if s.takeReady core slot w.team t then some (s.takeTile core slot w.team t) else none
    | _ => none)
/-- The sequencer's registers from the scalar registers of the warp (R304). -/
def seqRegs (w : Warp) : List (Nat × DWord) :=
  (List.range 32).foldl (fun m i => sput 0 m i (Machine.sget 0 w.s (32 + i))) []
/-- R289, R38: the gang waits for its accesses and for its turn to start the sequencer, whose registers are read now (R304). -/
def execSeqgo (a : SReg) (s : State) : Out :=
  word (.seqgo a) s fun w s =>
    let addr := w.sget a
    let s := s.modSeq s.cur.core fun q => { q with queue := q.queue ++ [(s.cur.slot, lowSlice s.cur.slices, addr, seqRegs w)] }
    (s.modLive Warp.endRegion).wait (.seqgo addr)

/-! ### Ownership and shape (R290, R291) -/

/-- A change of the owner of a tile of the warp's team. -/
def ownTile (w : Warp) (t : Nat) (o : Owner) (s : State) : State :=
  s.modTeam w.team fun tm => tm.setTile (tm.halfOf s.cur.core) t ⟨o, (tm.tile (tm.halfOf s.cur.core) t).giver⟩
/-- R290, R66: a FREE tile is the caller's from now on, as its team notes with the cycle. -/
def execTcfg (g : Guard) (t : TReg) (s : State) : Out :=
  word (.tcfg g t) s fun w s =>
    if w.actsOnce s.cur.slices g then
      (ownTile w t.toNat (.warp s.cur.slot) s).modTeam w.team fun tm =>
        { tm with tcfgAt := sinsert tm.tcfgAt (64 * tm.halfOf s.cur.core + t.toNat) (s.cur.slot, s.coreNow) }
    else s
/-- R66: has a higher slot configured the tile in this very cycle? Then a TCFG of it by this slot, which would have won the tile, comes in
a later cycle. (DEDUCED, log entry 45.) -/
def tcfgLate (s : State) (k slot : Nat) (w : Warp) (t : Nat) : Bool :=
  match s.team? w.team with
  | none => false
  | some tm =>
    (match sfind tm.tcfgAt (64 * tm.halfOf k + t) with
      | some (x, at_) => decide (slot < x) && at_ == s.coreNow && (tm.tile (tm.halfOf k) t).owner == .warp x
      | none => false)
/-- R290, R66. -/
def execTfree (g : Guard) (t : TReg) (s : State) : Out :=
  word (.tfree g t) s fun w s => if w.actsOnce s.cur.slices g then ownTile w t.toNat .free s else s
/-- R291. -/
def execSetshape (g : Guard) (a : SReg) (s : State) : Out :=
  onWarp (.setshape g a) s fun w m v => if w.actsOnce m g then { v with shape := shapeBits (w.sget a) } else v

/-! ### Element-wise operation (R67, R292 to R295) -/

/-- Write an element of a group that starts at tile `t0`. -/
def Team.putElem (tm : Team) (h t0 bits cols row col : Nat) (x : Nat) : Team :=
  let (t, r, w) := elemPlace bits cols row col
  if bits = 64 then (tm.tput h (t0 + t) r w (BitVec.ofNat 32 x)).tput h (t0 + t) r (w + 1) (BitVec.ofNat 32 (x / 2 ^ 32))
  else
    let sh := col % rowElems bits * bits % 32
    let old := (tm.tget h (t0 + t) r w).toNat
    tm.tput h (t0 + t) r w (BitVec.ofNat 32 (old - old / 2 ^ sh % 2 ^ bits * 2 ^ sh + x % 2 ^ bits * 2 ^ sh))
/-- The element of a group that starts at tile `t0`. -/
def Team.getElem (tm : Team) (h t0 bits cols row col : Nat) : Nat :=
  elemBits bits cols row col fun t r w => tm.tget h (t0 + t) r w
/-- The element of a tile source: of its group, or the low bits of a scalar (R292). -/
def srcElem (tm : Team) (h : Nat) (w : Warp) (bits cols : Nat) (a : TSrc) (row col : Nat) : Nat :=
  match a with
  | .t r => tm.getElem h r.toNat bits cols row col
  | .s r => (w.sget r).toNat % 2 ^ bits
/-- The rows the gang handles (R67). -/
def handledRows (w : Warp) (m : BitVec 16) (g : Guard) : List Nat :=
  (List.range (shapeRows w.shape)).filter fun r => w.acts m g (r % w.width)
/-- Write an element of every handled row and column; `f` gives it from the team as it was. -/
def Team.mapRegion (tm : Team) (h d bits cols : Nat) (rows : List Nat) (f : Nat → Nat → Nat) : Team :=
  rows.foldl (fun x r => (List.range cols).foldl (fun x c => x.putElem h d bits cols r c (f r c)) x) tm
/-- A tile element-wise word: `f` gives element (row, col) of the destination from the team before it. -/
def tileWord (i : Instr) (g : Guard) (d : TReg) (bits : Nat) (s : State) (f : Warp → FpMode → Team → Nat → Nat → Nat → Nat) :
    Out :=
  word i s fun w s =>
    let m := s.cur.slices
    s.modTeam w.team fun tm =>
      tm.mapRegion (tm.halfOf s.cur.core) d.toNat bits (shapeCols w.shape) (handledRows w m g)
        (f w (modeOf w m) tm (tm.halfOf s.cur.core))
/-- The format of a tile type. -/
def TTy_fmt : TTy → Fmt
  | .f32 => f32
  | .f16 => f16
  | .bf16 => bf16
  | .f64 => f64
/-- The format of a TCVT destination. -/
def TCvtTy_fmt : TCvtTy → Fmt
  | .f32 => f32
  | .f16 => f16
  | .bf16 => bf16
  | .f8e4 => f8e4
  | .f8e5 => f8e5
  | .f64 => f64
/-- A word of two sources and the old destination (R293). -/
def tile3 (i : Instr) (g : Guard) (t : TTy) (d : TReg) (a b : TSrc) (op : Fmt → FpMode → Nat → Nat → Nat → Nat) (s : State) : Out :=
  tileWord i g d (TTy_bits t) s fun w md tm h r c =>
    let n := shapeCols w.shape
    op (TTy_fmt t) md (srcElem tm h w (TTy_bits t) n a r c) (srcElem tm h w (TTy_bits t) n b r c)
      (tm.getElem h d.toNat (TTy_bits t) n r c)
/-- R290: +0 to every element of the region. -/
def execTzero (g : Guard) (t : TReg) (s : State) : Out :=
  word (.tzero g t) s fun w s =>
    s.modTeam w.team fun tm =>
      tm.mapRegion (tm.halfOf s.cur.core) t.toNat (eszBits (shapeEsz w.shape)) (shapeCols w.shape)
        (handledRows w s.cur.slices g) fun _ _ => 0
/-- R293. -/
def execTadd (g : Guard) (t : TTy) (d : TReg) (a b : TSrc) (s : State) : Out :=
  tile3 (.tadd g t d a b) g t d a b (fun fm md x y _ => fm.add md x y) s
/-- R293. -/
def execTmul (g : Guard) (t : TTy) (d : TReg) (a b : TSrc) (s : State) : Out :=
  tile3 (.tmul g t d a b) g t d a b (fun fm md x y _ => fm.mul md x y) s
/-- R293: TD is read as a source. -/
def execTfma (g : Guard) (t : TTy) (d : TReg) (a b : TSrc) (s : State) : Out :=
  tile3 (.tfma g t d a b) g t d a b (fun fm md x y z => fm.fma md x y z) s
/-- R293, R224. -/
def execTmax (g : Guard) (t : TTy) (d : TReg) (a b : TSrc) (s : State) : Out :=
  tile3 (.tmax g t d a b) g t d a b (fun fm md x y _ => fm.max md x y) s
/-- R293, R224. -/
def execTmin (g : Guard) (t : TTy) (d : TReg) (a b : TSrc) (s : State) : Out :=
  tile3 (.tmin g t d a b) g t d a b (fun fm md x y _ => fm.min md x y) s
/-- R294: each element converts as CVT does. -/
def execTcvt (g : Guard) (dst : TCvtTy) (src : TTy) (d : TReg) (a : TSrc) (s : State) : Out :=
  tileWord (.tcvt g dst src d a) g d (TCvtTy_bits dst) s fun w md tm h r c =>
    (TCvtTy_fmt dst).write md ((TTy_fmt src).read md (srcElem tm h w (TTy_bits src) (shapeCols w.shape) a r c))
/-- R295: TANH or LOGIS of each element. -/
def execTact (g : Guard) (logis : Bool) (d a : TReg) (s : State) : Out :=
  tileWord (.tact g logis d a) g d 32 s fun w md tm h r c =>
    special (if logis then logisV else tanhV) md (tm.getElem h a.toNat 32 (shapeCols w.shape) r c)

end Sys2Proof.Machine
end

