-- ==== Sys2Proof/Machine/Copy.lean ====
section
/-! DEFINITION. Copies and their batches (R259 to R261, R115, R116). -/

namespace Sys2Proof.Machine
open Sys2Proof

/-! ### Operands -/

/-- The runs of one side of a copy, row by row: locations, lengths, and whether the page may hold stale copies. -/
def State.copyRuns (s : State) (k c g : Nat) (a : DWord) (len rows pitch : Nat) : List (Nat × Nat × Bool) :=
  if len = 0 then []
  else
    (List.range rows).flatMap fun r =>
      if copySpad a then
        match s.spadAddr k g (a.toNat % 2 ^ 32 + r * pitch) with
        | some loc => [(loc, len, false)]
        | none => []
      else s.laxRuns c (a + BitVec.ofNat 64 (r * pitch)).toNat len
/-- The copy of one lane. -/
def State.copyJob (s : State) (k c g : Nat) (w : Warp) (lane : Nat) (dst src : DWord) (geo : CopyGeom) (id : Nat) : CopyJob where
  id := id
  batch := w.nb + 1
  lane := lane
  src := (s.copyRuns k c g src geo.len geo.rows geo.spitch).map fun x => (x.1, x.2.1)
  dst := s.copyRuns k c g dst geo.len geo.rows geo.dpitch
  src0 := src
  dst0 := dst

/-! ### The engines -/

/-- The byte a copy writes whose source is location `x`, when a destination byte of the copy stands there: the old value or
the copied one (R259). `pairs` are (destination, source) locations with the sources' old bytes. (DEDUCED, log entry 54.) -/
def overlapByte (pairs : List (Nat × Nat × Byte)) (old : Byte) (x free : Nat) : Byte :=
  match pairs.find? fun p => p.1 == x with
  | some p => if Config.freeBit free then old else p.2.2
  | none => old
/-- The bytes a copy writes, in order, from its sources' bytes. -/
def copiedBytes (dst src : List Nat) (bs : List Byte) (free : Nat) : List Byte :=
  let pairs := dst.zip (src.zip bs)
  pairs.zipIdx.map fun p => overlapByte pairs p.1.2.2 p.1.2.1 (free + p.2)
/-- The sectors of a list of runs. -/
def runSectors (rs : List (Nat × Nat)) : List Nat :=
  rs.flatMap fun r => (List.range ((r.1 + r.2 + 31) / 32 - r.1 / 32)).map (r.1 / 32 + ·)
/-- Mark sectors of memory poisoned (R423). (DEDUCED, log entry 17.) -/
def State.markPoison (s : State) (xs : List Nat) : State :=
  { s with poison := xs.foldl (fun ps x => if ps.contains x || decide (spadBase ≤ 32 * x) then ps else ps ++ [x]) s.poison }
/-- Destination bytes whose source came with poison or could not be read, as runs of one byte. (DEDUCED, log entry 17.) -/
def poisonedBytes (s : State) (dst src : List Nat) (lost : List Bool) : List (Nat × Nat) :=
  ((dst.zip (src.zip lost)).filter fun p => p.2.2 || s.poisoned p.2.1 1).map fun p => (p.1, 1)
/-- For each run of a copy's source, whether its read receives an error completion: where memory answers so, and for one given by the
event, which of them is free, at least one (R260, R438). (DEDUCED, log entry 54.) -/
def State.deadRuns (s : State) (k : Nat) (src : List (Nat × Nat)) (err : Bool) : List Bool :=
  let own := src.map fun r => s.reach k r.1 false true == .dead
  let hit := own.zipIdx.map fun x => x.1 || (err && Config.freeBit (s.fresh + x.2))
  if err && !hit.any id then hit.map fun _ => true else hit
/-- May a copy move some runs now: memory serves each (R434, R437, R119)? -/
def State.copyServed (s : State) (k : Nat) (j : CopyJob) : Bool :=
  (j.src.all fun r => !s.blocked k r.1 false) && j.dst.all fun r => !s.blocked k r.1 true
/-- The error record of a copy (R260, Table 26.11). (DEDUCED, log entry 54.) -/
def State.copyRecord (s : State) (k tid : Nat) (code : Nat) (j : CopyJob) : State :=
  let r := mkRecord (checkerSource k) 0x42 3 (0, 0) j.dst0 (BitVec.ofNat 64 code) j.src0 0
  (s.report { r with launch := match s.team? tid with
    | some tm => (s.grid? tm.grid).map fun g => launchField g.lr.ctx g.win g.lr.seq tm.num
    | none => none }).2
/-- One copy is performed: its source is read, its destination written as plain stores that its core sees, poison is carried
on, and a read answered with an error completion writes poison to the bytes it could not fill and raises a record (R259, R260). -/
def State.runCopy (s : State) (k tid : Nat) (j : CopyJob) (err : Option (BitVec 2)) : State :=
  let a := engineOf k
  let dead := s.deadRuns k j.src err.isSome
  let bad := dead.any id
  let lost := (j.src.zip dead).flatMap fun x => List.replicate x.1.2 x.2
  let srcs := runLocs j.src
  let dsts := runLocs (bareRuns j.dst)
  let from_ := s.fresh + j.src.length
  let out := ((copiedBytes dsts srcs (j.src.flatMap fun r => s.seen a r.1 r.2) from_).zip lost).zipIdx.map fun x =>
    if x.1.2 then Config.freeByte (from_ + x.2) else x.1.1
  let ps := poisonedBytes s dsts srcs lost
  let first := s.nextId
  let s := { s with fresh := from_ + srcs.length }
  let s := (s.storeRuns s.nextId a (64 * a) 1 j.dst out).flush fun p => decide (first ≤ p.id) && (!ps.isEmpty || decide (spadBase ≤ p.op.range.1))
  let s := s.markPoison (runSectors ps)
  if bad then
    s.copyRecord k tid (match err with
      | some e => e.toNat
      | none => 2) j
  else s
/-- The bytes `a` to `a + n − 1` of a list of runs, and the others. -/
def cutRuns (a n : Nat) : List (Nat × Nat × Bool) → List (Nat × Nat × Bool) × List (Nat × Nat × Bool)
  | [] => ([], [])
  | (loc, len, si) :: r =>
    let lo := min a len
    let hi := min (a + n) len
    let (xs, ys) := cutRuns (a - len) (a + n - max a len) r
    let keep (x : Nat × Nat × Bool) : List (Nat × Nat × Bool) := if x.2.1 = 0 then [] else [x]
    (keep (loc + lo, hi - lo, si) ++ xs, keep (loc, lo, si) ++ keep (loc + hi, len - hi, si) ++ ys)
/-- A copy moves `n` bytes from byte `a` of what it has still to move, cut at units of four bytes of its destination (R98); it goes on
with the others. Poison and error completions are left to its end. (DEDUCED, log entry 59.) -/
def State.copyPart (s : State) (k slot id a n : Nat) : State :=
  match s.warp? k slot with
  | none => s
  | some w =>
    match w.jobs.find? fun j => j.id == id with
    | none => s
    | some j =>
      let dst := cutRuns a n j.dst
      let src := cutRuns a n (j.src.map fun x => (x.1, x.2, false))
      let part := { j with src := bareRuns src.1, dst := dst.1 }
      let rest := { j with src := bareRuns src.2, dst := dst.2 }
      if part.dst.isEmpty || rest.dst.isEmpty || dst.1.any (fun x => x.1 % 4 != 0 || x.2.1 % 4 != 0) || !s.copyServed k part ||
          (s.deadRuns k part.src false).any (fun b => b) || part.src.any (fun r => s.poisoned r.1 r.2) then s
      else
        (s.modWarp k slot fun w => { w with jobs := w.jobs.map fun x => if x.id = id then rest else x }).runCopy k w.team part none
/-- A copy of a warp completes, once memory serves what it has still to move. -/
def State.endCopy (s : State) (k slot id : Nat) (err : Option (BitVec 2)) : State :=
  match s.warp? k slot with
  | none => s
  | some w =>
    match w.jobs.find? fun j => j.id == id with
    | none => s
    | some j =>
      if s.copyServed k j then (s.modWarp k slot fun w => { w with jobs := w.jobs.filter fun x => x.id != id }).runCopy k w.team j err
      else s
/-- Could every copy of a warp complete now? -/
def State.copiesServed (s : State) (k : Nat) (w : Warp) : Bool := w.jobs.all (s.copyServed k)
/-- Every copy of a warp completes. -/
def State.endCopies (s : State) (k slot : Nat) : State :=
  match s.warp? k slot with
  | none => s
  | some w => w.jobs.foldl (fun s j => s.endCopy k slot j.id none) s

/-! ### Batches (R261) -/

/-- Is every batch numbered at most `n` complete? -/
def Warp.batchDone (w : Warp) (n : Nat) : Bool := w.jobs.all fun j => decide (n < j.batch)
/-- Sealed batches that are not complete. -/
def Warp.openSeals (w : Warp) : Nat := ((w.jobs.map (·.batch)).filter fun b => decide (b ≤ w.nb)).eraseDups.length
/-- Is the open batch empty? -/
def Warp.batchEmpty (w : Warp) : Bool := w.jobs.all fun j => decide (j.batch ≤ w.nb)
/-- Must a word wait before it has any effect: a COPY whose lanes do not fit, or a SEAL that would leave 17 sealed batches? -/
def copyWaits (w : Warp) (m : BitVec 16) : Instr → Bool
  | .copy g _ _ _ | .copy2d g _ _ _ => decide (256 < w.jobs.length + (w.actLanes m g).length)
  | .seal g _ => w.actsOnce m g && !w.batchEmpty && decide (16 ≤ w.openSeals)
  | _ => false

/-! ### The words -/

/-- This device asks for the pages of one side of a copy, row by row (R119, R120). -/
def State.askCopy (s : State) (c : Nat) (a : DWord) (len rows pitch : Nat) (wr : Bool) : State :=
  if len = 0 || copySpad a then s
  else (List.range rows).foldl (fun s r => s.askSpan c (a + BitVec.ofNat 64 (r * pitch)).toNat len wr) s
/-- This device asks for the pages of the copies of some lanes. -/
def State.askCopies (s : State) (c : Nat) (w : Warp) (d : VReg) (a : Src) (geo : Warp → Nat → CopyGeom) (lanes : List Nat) : State :=
  lanes.foldl (fun s l =>
    let g := geo w l
    (s.askCopy c (w.src64 a l) g.len g.rows g.spitch false).askCopy c (w.vpair d.toNat l) g.len g.rows g.dpitch true) s
/-- The stores that come before a COPY of some lanes of a warp are seen on its core, if memory lets all of them (R115). -/
def State.onCore (s : State) (k slot : Nat) (lanes : BitVec 64) : Option State := s.flushed 1 (PendStore.beforeCopy k slot lanes)
/-- The copies of some lanes of a warp in their core's slot. -/
def State.laneCopies (s : State) (w : Warp) (d : VReg) (a : Src) (geo : Warp → Nat → CopyGeom) (lanes : List Nat) : List CopyJob :=
  lanes.zipIdx.map fun x =>
    s.copyJob s.cur.core (s.ctxNo w) w.grid w x.1 (w.vpair d.toNat x.1) (w.src64 a x.1) (geo w x.1) (s.nextId + x.2)
/-- Scratchpad that copies access. -/
def copyWords (js : List CopyJob) : List (Nat × Nat) :=
  (js.flatMap fun j => j.src ++ bareRuns j.dst).filter fun r => decide (spadBase ≤ r.1)
/-- What comes before the copies of some lanes: what their threads issued is performed for the engine (R115), as is what their warp has in
flight at the scratchpad words that they access (R83); the device asks for their pages. -/
def State.beforeCopies (s : State) (w : Warp) (d : VReg) (a : Src) (geo : Warp → Nat → CopyGeom) (lanes : List Nat) : State :=
  let m := laneMask lanes
  ((s.settleAccess { ranges := copyWords (s.laneCopies w d a geo lanes), lanes := m, rel := true }).toCore s.cur.core s.cur.slot m).askCopies
    (s.ctxNo w) w d a geo lanes
/-- Place a copy for each acting lane. -/
def copyWord (i : Instr) (g : Guard) (d : VReg) (a : Src) (geo : Warp → Nat → CopyGeom) (s : State) : Out :=
  word i s fun w s =>
    let lanes := w.actLanes s.cur.slices g
    if copyWaits w s.cur.slices i then { s with cur := { s.cur with moved := true } }
    else if lanes.isEmpty then s
    else
      let s := s.beforeCopies w d a geo lanes
      let jobs := s.laneCopies w d a geo lanes
      { s.modLive (fun v => { v with jobs := v.jobs ++ jobs }) with nextId := s.nextId + jobs.length }
/-- R259. -/
def execCopy (g : Guard) (d : VReg) (a b : Src) (s : State) : Out :=
  copyWord (.copy g d a b) g d a (fun w l => copyGeom1 (w.src32 b l)) s
/-- R259, Table 12.3. -/
def execCopy2d (g : Guard) (d : VReg) (a b : Src) (s : State) : Out :=
  copyWord (.copy2d g d a b) g d a (fun w l => copyGeom2 (w.src64 b l)) s
/-- R261: the open batch becomes batch NB. -/
def execSeal (g : Guard) (d : SReg) (s : State) : Out :=
  word (.seal g d) s fun w s =>
    if copyWaits w s.cur.slices (.seal g d) then { s with cur := { s.cur with moved := true } }
    else
      s.modLive fun v =>
        let v := v.endRegion
        if w.actsOnce s.cur.slices g then { v with nb := w.nb + 1 }.sset d (BitVec.ofNat 64 (w.nb + 1)) else v
/-- R261, R116: completes at once, or waits for the batches. -/
def execWaitb (g : Guard) (a : SReg) (s : State) : Out :=
  word (.waitb g a) s fun w s =>
    if w.actsOnce s.cur.slices g && !w.batchDone (w.sget a).toNat then s.wait (.waitb (w.sget a).toNat) else s
/-- R261. -/
def execTestb (g : Guard) (d a : SReg) (s : State) : Out :=
  scalarWord (.testb g d a) g d s fun w => if w.batchDone (w.sget a).toNat then 1 else 0
/-- Gangs waiting at a WAITB whose batches are complete continue. -/
def State.wakeBatches (s : State) (k slot : Nat) : State :=
  match s.warp? k slot with
  | none => s
  | some w =>
    if s.frozen w then s
    else
      (List.range w.nslices).foldl (fun s j => s.onWait k slot j fun w wt => match wt with
        | .waitb n => if w.batchDone n then some s else none
        | _ => none) s
/-- R261, R260: a copy finishes; `err` is an error completion of its reads. WAITBs it completes continue. -/
def execCopyBatchComplete (core slot copy : Nat) (err : Option (BitVec 2)) (s : State) : Out :=
  .next ((s.endCopy core slot copy err).wakeBatches core slot)

end Sys2Proof.Machine
end

