-- ==== Sys2Proof/Machine/Retire.lean ====
section
/-! DEFINITION. The active set (R33 to R36), the continuation gatherer's store (R42 to R44, R394), and how warps, teams and
grids retire (R27, R62, R387). -/

namespace Sys2Proof.Machine
open Sys2Proof

/-! ### The active set (R33, R35, R36) -/

/-- May a warp of a team issue now: not before its scratchpad is zeroed (R76), and in a halted team only in its skid (R45)? -/
def State.mayIssue (s : State) (w : Warp) : Bool :=
  !w.stopped &&
    match s.team? w.team with
    | some tm => !tm.zeroing && (!tm.halted || decide (w.skid < 16))
    | none => false
/-- R35: is at least one gang of the warp able to issue: it neither waits nor stalls at lookahead? -/
def State.warpReady (s : State) (k slot : Nat) (w : Warp) : Bool :=
  s.mayIssue w && w.slices.any fun x => w.gangGoes x.gang && !s.gangStalls k slot w x.gang
/-- The ready warps of a core that stand outside the active set, by slot. -/
def State.outsideReady (s : State) (k : Nat) : List (Nat × Warp) :=
  (s.core k).warps.filter fun p => !p.2.inSet && s.warpReady k p.1 p.2
/-- The warp that became ready first; equal times go to the lower slot (R36). -/
def earliest : List (Nat × Warp) → Option (Nat × Warp)
  | [] => none
  | p :: r =>
    match earliest r with
    | none => some p
    | some q => if q.2.readyAt < p.2.readyAt then some q else some p
/-- A warp enters the active set. -/
def State.enterSet (s : State) (k slot : Nat) : State :=
  s.modWarp k slot fun w => { w with inSet := true, enteredAt := s.coreNow, lastIssue := s.coreNow, yielded := false }
/-- A warp leaves the active set; a ready one has been ready and outside since now. -/
def State.leaveSet (s : State) (k slot : Nat) : State :=
  s.modWarp k slot fun w => { w with inSet := false, readyAt := s.coreNow, yielded := false }
/-- Has a member of the active set been unable to issue for 64 cycles (R36)? -/
def State.blockedMember (s : State) (k slot : Nat) (w : Warp) : Bool :=
  w.inSet && decide (w.lastIssue + 64 ≤ s.coreNow) && !s.warpReady k slot w
/-- The member that gives way to a ready warp: a blocked one before any ready one, and of these one that has executed YIELD (R36). -/
def State.giveWay (s : State) (k : Nat) (ms : List (Nat × Warp)) : Option Nat :=
  ((ms.find? fun p => s.blockedMember k p.1 p.2).or (ms.find? fun p => p.2.yielded)).map (·.1)
/-- The next ready warp enters a vacancy, or the place of a member that gives way (R36). -/
def State.enterNext (s : State) (k : Nat) : State :=
  match earliest (s.outsideReady k) with
  | none => s
  | some (slot, _) =>
    let ms := (s.core k).warps.filter fun p => p.2.inSet
    if ms.length < 8 then s.enterSet k slot
    else
      match s.giveWay k ms with
      | some y => (s.leaveSet k y).enterSet k slot
      | none => s
/-- A warp outside the active set that is not ready now becomes ready later than now (R36). -/
def State.noteReady (s : State) (k : Nat) : State :=
  s.modCore k fun c => { c with
    warps := c.warps.map fun p => if !p.2.inSet && !s.warpReady k p.1 p.2 then (p.1, { p.2 with readyAt := s.coreNow + 1 }) else p }
/-- Every vacancy of a core's active set that a ready warp can fill is filled. -/
def State.refillSet (s : State) (k : Nat) : State := (List.range 32).foldl (fun s _ => s.enterNext k) (s.noteReady k)
/-- R36: while a ready warp is outside, a member that has been in the set for 4,096 cycles leaves it, once every blocked member has given
way. (DEDUCED, log entry 57.) -/
def execActiveSetHoldExpiry (core slot : Nat) (s : State) : Out :=
  .next (match s.warp? core slot with
    | some w =>
      let s := s.refillSet core
      if w.inSet ∧ w.enteredAt + 4096 ≤ s.coreNow ∧ s.outsideReady core ≠ [] then (s.leaveSet core slot).refillSet core else s
    | none => s)
/-- R36: a member that has not been able to issue for 64 cycles is removed. -/
def execBlockedWarpRemoval (core slot : Nat) (s : State) : Out :=
  .next (match s.warp? core slot with
    | some w =>
      if s.blockedMember core slot w then (s.leaveSet core slot).refillSet core else s
    | none => s)

/-! ### Grids as a tree (R43) -/

/-- The root of a grid, and the grids above it. -/
def State.lineage (s : State) : Nat → Nat → List Nat
  | 0, g => [g]
  | n + 1, g =>
    match s.grid? g with
    | some gr =>
      match gr.parent with
      | some p => g :: s.lineage n p
      | none => [g]
    | none => [g]
/-- The grids above a grid, itself first. -/
def State.ancestors (s : State) (g : Nat) : List Nat := s.lineage s.grids.length g
/-- The root of a grid. -/
def State.rootOf (s : State) (g : Nat) : Nat := (s.ancestors g).getLastD g
/-- A grid and its descendants, in the order of their creation. -/
def State.tree (s : State) (g : Nat) : List Nat := (s.grids.map (·.1)).filter fun x => (s.ancestors x).contains g

/-! ### The gatherer (R42 to R44, R394) -/

/-- Records the gatherer's hub store holds. -/
def storeLimit : Nat := 16384
/-- Marks a CONTF among the records of an overflow area. -/
def closeMark : Nat := 2 ^ 40
/-- Records in the gatherer's hub store: in open groups and in child warps that are not placed. -/
def State.gatherHeld (s : State) : Nat :=
  (s.gather.groups.map fun g => g.recs.length).sum + (s.grids.map fun p => (p.2.childTeams.map fun t => t.2.2.length).sum).sum
/-- The time without a placement of a grid's launch starts now, unless one of its teams waits already (R395). (DEDUCED, log entry 42.) -/
def State.teamWaits (s : State) (g : Nat) : State :=
  let root := s.rootOf g
  if (s.tree root).any fun x => match s.grid? x with
      | some h => if h.parent.isSome then !h.childTeams.isEmpty else decide (h.nextTeam < h.lr.teams) || !h.gaps.isEmpty
      | none => false then s
  else { s with nodes := s.nodes.map fun n => if n.grid == some root then { n with placedAt := s.hubNow } else n }
/-- A group is launched as a child warp of the one child grid of its emitting grid (R42, R43). (DEDUCED, log entry 42.) -/
def State.launchGroup (s : State) (x : Group) : State :=
  let s := s.teamWaits x.grid
  match s.grid? x.grid with
  | none => s
  | some gr =>
    match s.grids.find? fun p => p.2.parent == some x.grid with
    | some (c, ch) =>
      s.modGrid c fun h => { h with nextTeam := ch.nextTeam + 1, childTeams := h.childTeams ++ [(ch.nextTeam, x.entry, x.recs)] }
    | none =>
      let (c, s) := s.newId
      let h : Grid :=
        { gr with
          parent := some x.grid, nextTeam := 1, gaps := [], childTeams := [(0, x.entry, x.recs)], saved := [], retired := false,
          psn := false, rbk := false, pcnt := 0, endPair := (0, 0) }
      { s with grids := sinsert s.grids c h }
/-- Every open group of a grid is launched (R42). -/
def State.closeGroups (s : State) (g : Nat) : State :=
  let xs := s.gather.groups.filter fun x => x.grid == g
  xs.foldl State.launchGroup { s with gather := { s.gather with groups := s.gather.groups.filter fun x => x.grid != g } }
/-- A record goes to the open group of its pair, which is launched when it holds W records (R42). -/
def State.placeRecord (s : State) (g : Nat) (entry : DWord) (r : List DWord) : State :=
  let mine (x : Group) : Bool := x.grid == g && x.entry == entry
  let old := match s.gather.groups.find? mine with
    | some x => x.recs
    | none => []
  let x : Group := ⟨g, entry, old ++ [r]⟩
  let rest := s.gather.groups.filter fun x => !mine x
  let width := match s.grid? g with
    | some gr => gr.lr.width
    | none => 0
  if width ≤ x.recs.length then { s with gather := { s.gather with groups := rest } }.launchGroup x
  else { s with gather := { s.gather with groups := rest ++ [x] } }
/-- The eight double-words of a record (Table 13.4). -/
def recordWords (np : Nat) (entry : DWord) (r : List DWord) : List DWord :=
  (BitVec.ofNat 64 (entry.toNat % 2 ^ 48 + np * 2 ^ 48)) :: (List.range 7).map fun k => r.getD k 0
/-- Records in the overflow area of a launch, which its grids share: the launch of a root grid. -/
def State.spilledRecords (s : State) (root : Nat) : Nat :=
  (s.gather.overflow.filter fun x => s.rootOf x.1 == root && decide (x.2 < closeMark)).length
/-- Does a grid have anything left in its overflow area? -/
def State.overflowing (s : State) (g : Nat) : Bool := s.gather.overflow.any fun x => x.1 == g
/-- The location of record `i` of a grid's overflow area. (DEDUCED, log entry 29.) -/
def State.overflowLoc (s : State) (gr : Grid) (i : Nat) : Option Nat :=
  let a := BitVec.ofNat 64 (gr.lr.ovf + 64 * i)
  match s.translate gr.lr.ctx a with
  | .ok p => some (p.pa a.toNat)
  | .bad .. => none
/-- R394: GATHER_FULL is raised once for a full store. -/
def State.gatherFull (s : State) : State :=
  if s.gather.full then s
  else
    let s := (s.report (mkRecord (sourceId 9 0 0) 0x41 0 (0, 0) 0 (BitVec.ofNat 64 s.gatherHeld) 0 0)).2
    { s with gather := { s.gather with full := true } }
/-- The gatherer is offered a record of a grid: whether it accepts it (R42, R394). (DEDUCED, log entry 29.) -/
def State.offerRecord (s : State) (g np : Nat) (entry : DWord) (r : List DWord) : Bool × State :=
  match s.grid? g with
  | none => (true, s)
  | some gr =>
    let num (s : State) : State := { s with gather := { s.gather with seq := s.gather.seq + 1 } }
    if s.gatherHeld < storeLimit ∧ s.overflowing g = false then
      (true, (num { s with gather := { s.gather with full := false } }).placeRecord g entry r)
    else if s.fnmode / 32 % 2 = 1 then (false, s.gatherFull)
    else
      let cap := gr.lr.ovfsz / 64
      let root := s.rootOf g
      let i := sget 0 s.gather.ovfNext root
      if s.spilledRecords root < cap then
        match s.overflowLoc gr i with
        | some loc =>
          if s.blocked hubCore loc true then (false, s)
          else
          let s := s.write loc ((recordWords np entry r).flatMap (bytesOf 8))
          (true, num { s with gather := { s.gather with
            overflow := s.gather.overflow ++ [(g, i)], ovfNext := sput 0 s.gather.ovfNext root ((i + 1) % cap) } })
        | none => (false, s)
      else (false, s)
/-- A CONTF of a grid takes its number (R282): the groups open at it are launched, once the records accepted before it have
come back from the overflow area. -/
def State.closeAt (s : State) (g : Nat) : State :=
  let s := { s with gather := { s.gather with seq := s.gather.seq + 1 } }
  if s.overflowing g then { s with gather := { s.gather with overflow := s.gather.overflow ++ [(g, closeMark)] } }
  else s.closeGroups g

/-! ### Retirement (R27, R62, R387) -/

/-- The tiles of a warp of a team become FREE (Table 2.9). -/
def freeTiles (h slot : Nat) (tm : Team) : Team :=
  { tm with tiles := tm.tiles.map fun x =>
      if x.1 / 64 = h ∧ x.2.owner = .warp slot then (x.1, { x.2 with owner := .free }) else x }
/-- May a warp whose slices are all retired leave its slot: can all it has issued complete (R434, R437)? -/
def State.canRetire (s : State) (k slot : Nat) (w : Warp) : Bool := s.allReady k slot w && s.copiesServed k w
/-- A warp retires: what it has issued completes, its tiles, slot and window are released (R27, R188, R275). -/
def State.retireWarp (s : State) (k slot : Nat) : State :=
  match s.warp? k slot with
  | none => s
  | some w =>
    let s := ((s.landSome k slot fun _ => true).endCopies k slot).flush fun p => p.agent == agentOf k slot && decide (spadBase ≤ p.op.range.1)
    let s := s.orphan k slot
    let s := s.modTeam w.team fun tm => { freeTiles (tm.halfOf k) slot tm with lastNb := sinsert tm.lastNb w.num w.nb }
    (s.modCore k fun c => { c with warps := sdrop c.warps slot, replays := c.replays.filter fun x => x.slot != slot }).refillSet k
/-- Has a team nothing left that runs: no warp, no sequencer, and no halt that TCMD must end (R27, R409)? -/
def State.teamOver (s : State) (tid : Nat) (tm : Team) : Bool :=
  !tm.halted && (s.teamWarps tid).isEmpty &&
    tm.cores.all fun k => !((s.core k).seq.running && (s.core k).seq.team == tid)
/-- A team's CIR joins its launch's sums (R387), and the team is gone. -/
def State.dropTeam (s : State) (tid : Nat) : State :=
  match s.team? tid with
  | none => s
  | some tm =>
    let s := s.modGrid (s.rootOf tm.grid) fun g =>
      { g with
        psn := g.psn || tm.cir.getLsbD 0, rbk := g.rbk || tm.cir.getLsbD 1, pcnt := min 255 (g.pcnt + tm.cir.toNat / 2 ^ 8 % 2 ^ 8) }
    { s with teams := sdrop s.teams tid }
/-- Has a grid ended: its parent retired, every team placed and gone (R27, R43)? -/
def State.gridOver (s : State) (g : Nat) (gr : Grid) : Bool :=
  !gr.retired && gr.saved.isEmpty && !(s.teams.any fun t => t.2.grid == g) &&
    match gr.parent with
    | none => (decide (gr.lr.teams ≤ gr.nextTeam) && gr.gaps.isEmpty) || gr.killed
    | some p =>
      (gr.childTeams.isEmpty || gr.killed) && !(s.gather.groups.any fun x => x.grid == p) && !s.overflowing p &&
        match s.grid? p with
        | some pg => pg.retired
        | none => true
/-- A grid that has ended retires, and its open groups are launched (R42). -/
def State.settleGrid (s : State) (g : Nat) : State :=
  match s.grid? g with
  | none => s
  | some gr =>
    if s.gridOver g gr then
      let s := s.modGrid g fun h => { h with retired := true }
      if s.overflowing g then s else s.closeGroups g
    else s
/-- Location of a completion report (R387): its host address without bits 3:0. -/
def reportLoc (compl : DWord) : Nat := hostLoc (compl.toNat / 16 * 16 % (peerBase - devLimit))
/-- The completion report of a record (R387). (DEDUCED, log entry 52.) -/
def State.complete (s : State) (lr : LaunchRec) (win status : Nat) (psn rbk : Bool) (pcnt : Nat) : State :=
  let d0 := status % 2 ^ 8 + lr.seq % 2 ^ 7 * 2 ^ 8 + win % 2 ^ 6 * 2 ^ 16 + lr.tag % 2 ^ 16 * 2 ^ 32
  let d1 := psn.toNat + rbk.toNat * 2 + pcnt % 2 ^ 8 * 2 ^ 8
  s.write (reportLoc lr.compl) (bytesOf 8 (BitVec.ofNat 64 d0) ++ bytesOf 8 (BitVec.ofNat 64 d1))
/-- A launch is complete: a root grid and every descendant retired, with no record left (R43, R44). Its report is a release of
everything they did at .sys scope, and waits while memory holds a store back (R103, R113, R434). -/
def State.completeRoot (s : State) (g : Nat) : State :=
  let all := s.tree g
  match s.grid? g with
  | none => s
  | some gr =>
    let done := (all.all fun x => match s.grid? x with
        | some h => h.retired
        | none => true) &&
      !(s.gather.groups.any fun x => all.contains x.grid) && !(s.gather.overflow.any fun x => all.contains x.1)
    if gr.parent.isSome || !done then s
    else
      match s.flushed 4 fun _ => true with
      | none => s
      | some s =>
      let s := { s with stale := [] }
      let s := if gr.win < 64 then s.complete gr.lr gr.win (if gr.killed then 0x11 else 0) gr.psn gr.rbk gr.pcnt else s
      let s := if gr.win < 64 then s.modWindow gr.win fun x => { x with lastDone := some (s.hubNow, gr.lr.prio) } else s
      let s := s.boundary
      { s with
        grids := s.grids.filter fun p => !all.contains p.1
        nodes := s.nodes.filter fun n => n.grid != some g
        stopGrids := s.stopGrids.filter fun x => !all.contains x
        gather := { s.gather with ovfNext := s.gather.ovfNext.filter fun p => !all.contains p.1 }
        reserved := s.reserved.filter fun r => !all.contains r.2.1 }
/-- Grids that have ended retire, parents first, and complete launches are reported. -/
def State.settle (s : State) : State :=
  let s := (s.grids.map (·.1)).foldl State.settleGrid s
  (s.grids.map (·.1)).foldl State.completeRoot s
/-- A team that has nothing left retires, and its grid with it when it was the last (R27). -/
def State.endTeam (s : State) (tid : Nat) : State :=
  match s.team? tid with
  | none => s
  | some tm => if s.teamOver tid tm then (s.dropTeam tid).settle else s
/-- A warp of a team retires, and its team with it when it was the last. -/
def State.endWarp (s : State) (k slot tid : Nat) : State := (s.retireWarp k slot).endTeam tid
/-- The warps of a team whose slices are all retired leave their slots. -/
def State.sweepTeam (s : State) (tid : Nat) : State :=
  ((s.teamWarps tid).filter fun x => x.2.2.retired && s.canRetire x.1 x.2.1 x.2.2).foldl (fun s x => s.retireWarp x.1 x.2.1) s

/-! ### Events of the gatherer -/

/-- Is a record of any gang of the warp waiting to be accepted? -/
def Warp.contPending (w : Warp) : Bool :=
  w.slices.any fun x => x.waits.any fun wt => match wt with
    | .cont _ _ recs => !recs.isEmpty
    | _ => false
/-- Gangs of a warp at a CONT whose records are all accepted, or at a CONTF with none left to accept, continue (R282). -/
def State.wakeConts (s : State) (k slot : Nat) : State :=
  match s.warp? k slot with
  | none => s
  | some w =>
    (List.range w.nslices).foldl (fun s j => s.onWait k slot j fun w wt => match wt with
      | .cont _ _ [] => some s
      | .contf => if w.contPending then none else some (s.closeAt w.grid)
      | _ => none) s
/-- R42, R44: the first waiting record of a gang is accepted, if the store takes it. A halt of the team does not hold it
(R45). -/
def execContRecordAccept (core slot slice : Nat) (s : State) : Out :=
  .next (match s.warp? core slot with
    | none => s
    | some w =>
      match w.slice? slice with
      | none => s
      | some x =>
        match x.waits.find? fun wt => match wt with
          | .cont _ _ (_ :: _) => true
          | _ => false with
        | some (.cont np entry ((l, r) :: rest)) =>
          let (ok, s) := s.offerRecord w.grid np entry r
          if ok then
            (s.modWarp core slot fun w => { w with slices := w.slices.map fun x =>
              { x with waits := x.waits.map fun wt =>
                  if wt = .cont np entry ((l, r) :: rest) then .cont np entry rest else wt } }).wakeConts core slot
          else s
        | _ => s.wakeConts core slot)
/-- R394: the first record of the overflow areas comes back as store space frees. -/
def execGatherOverflowReadback (s : State) : Out :=
  .next (match s.gather.overflow with
    | [] => s
    | (g, i) :: rest =>
      let pop (s : State) : State := { s with gather := { s.gather with overflow := rest } }
      let fin (s : State) : State :=
        let gone := match s.grid? g with
          | some gr => gr.retired
          | none => true
        (if gone && !s.overflowing g then s.closeGroups g else s).settle
      if closeMark ≤ i then fin ((pop s).closeGroups g)
      else if storeLimit ≤ s.gatherHeld then s
      else
        match (s.grid? g).bind fun gr => s.overflowLoc gr i with
        | none => s
        | some loc =>
          if s.blocked hubCore loc false then s
          else
          let ds := (List.range 8).map fun k => s.dwordAt (loc + 8 * k)
          fin ((pop s).placeRecord g (BitVec.ofNat 64 ((ds.headD 0).toNat % 2 ^ 48)) ds.tail))

end Sys2Proof.Machine
end

