-- ==== Sys2Proof/Machine/Launch.lean ====
section
/-! DEFINITION. The dispatcher (chapter 23): launch records, the scoreboard, transfers, placement (R58, R75 to R77, R392,
R393) and light pre-emption (R395). -/

namespace Sys2Proof.Machine
open Sys2Proof

/-! ### The record (R383) -/

/-- Bits `lo + n − 1` to `lo` of a double-word. -/
def bitsAt (x : DWord) (lo n : Nat) : Nat := x.toNat / 2 ^ lo % 2 ^ n
/-- The dispatcher's source. -/
def dispatcher : Nat := sourceId 8 0 0
/-- Location of a slot of a window (R380). (DEDUCED, log entry 47.) -/
def slotLoc (w : Window) (i : Nat) : Nat := hostLoc (w.base * 4096 % (peerBase - devLimit) + 256 * i)
/-- The 32 double-words of a slot. -/
def State.slotWords (s : State) (w : Window) (i : Nat) : List DWord :=
  (List.range 32).map fun k => s.dwordAt (slotLoc w i + 8 * k)
/-- Double-word `k` of a record. -/
def recDword (r : List DWord) (k : Nat) : DWord := r.getD k 0
/-- Reserved bits of each double-word, as (double-word, lowest bit, bits) (Table 23.2). -/
def reservedFields : List (Nat × Nat × Nat) :=
  [(0, 57, 7), (1, 10, 6), (1, 22, 42), (2, 2, 2), (2, 15, 1), (2, 23, 9), (3, 45, 19), (4, 4, 4), (4, 25, 39)] ++
  [(5, 0, 7), (5, 57, 7), (6, 32, 32), (7, 0, 3), (7, 57, 7), (8, 56, 8), (9, 8, 8), (9, 36, 28)] ++
  [(20, 57, 7), (21, 32, 32), (23, 57, 7), (24, 32, 32), (26, 0, 7), (26, 57, 7), (28, 0, 64), (29, 0, 64), (30, 0, 64), (31, 0, 56)]
/-- Lanes of a WIDTH code. -/
def widthLanes (code : Nat) : Nat :=
  match code with
  | 0 => 16
  | 1 => 32
  | _ => 64
/-- The fields of a record (Table 23.2). -/
def parseRec (r : List DWord) : LaunchRec where
  entry := recDword r 0
  ctx := bitsAt (recDword r 1) 0 8
  prio := bitsAt (recDword r 1) 8 2
  paired := (recDword r 1).getLsbD 16
  l1fuse := (recDword r 1).getLsbD 17
  slice := (recDword r 1).getLsbD 18
  debug := (recDword r 1).getLsbD 19
  spdbg := (recDword r 1).getLsbD 20
  xearly := (recDword r 1).getLsbD 21
  width := widthLanes (bitsAt (recDword r 2) 0 2)
  win := bitsAt (recDword r 2) 4 4
  warps := bitsAt (recDword r 2) 8 7
  pool := bitsAt (recDword r 2) 16 7
  spad := bitsAt (recDword r 2) 32 32
  teams := bitsAt (recDword r 3) 0 32
  threads := bitsAt (recDword r 3) 32 13
  cogrp := bitsAt (recDword r 4) 0 4
  pinbase := bitsAt (recDword r 4) 8 8
  pinstr := bitsAt (recDword r 4) 16 8
  pin := (recDword r 4).getLsbD 24
  spill := bitsAt (recDword r 5) 7 50 * 128
  spillsz := bitsAt (recDword r 6) 0 32
  smask := recDword r 8
  sinit := bitsAt (recDword r 7) 3 54 * 8
  ssw := bitsAt (recDword r 9) 0 8
  tag := bitsAt (recDword r 9) 16 16
  depv := bitsAt (recDword r 9) 32 4
  deps := recDword r 10
  ivs := (r.drop 11).take 8
  xfers := [(recDword r 19, recDword r 20, bitsAt (recDword r 21) 0 32), (recDword r 22, recDword r 23, bitsAt (recDword r 24) 0 32)]
  compl := recDword r 25
  ovf := bitsAt (recDword r 26) 7 50 * 128
  ovfsz := bitsAt (recDword r 27) 0 32
  pdl := bitsAt (recDword r 27) 32 32
  seq := bitsAt (recDword r 31) 56 7
/-- R59: may a window of a width have this many tiles? -/
def windowOk (width win : Nat) : Bool :=
  match width with
  | 16 => decide (1 ≤ win ∧ win ≤ 2)
  | 32 => decide (1 ≤ win ∧ win ≤ 4)
  | _ => win == 2 || win == 4 || win == 6 || win == 8
/-- Warps of a record's team on one core. -/
def LaunchRec.coreWarps (l : LaunchRec) : Nat := if l.paired then l.warps / 2 else l.warps
/-- Is the geometry legal (code 0x05)? -/
def geometryOk (r : List DWord) (l : LaunchRec) : Bool :=
  bitsAt (recDword r 2) 0 2 != 3 && windowOk l.width l.win && l.warps != 0 &&
    (if l.paired then l.warps % 2 == 0 && decide (l.warps ≤ 64) else decide (l.warps ≤ 32)) &&
    decide (l.pool ≤ 64) && decide (l.coreWarps * l.win + l.pool ≤ 64) && l.teams != 0 && l.threads != 0 &&
    decide (l.threads ≤ l.warps * l.width)
/-- Is the pinning legal (code 0x08)? -/
def pinOk (l : LaunchRec) : Bool :=
  !l.pin || (decide (l.pinbase + (l.teams - 1) * l.pinstr ≤ 255) && l.cogrp == 0 &&
    (!l.paired || (l.pinbase % 2 == 0 && (l.teams == 1 || l.pinstr % 2 == 0))))
/-- The first code of Table 23.3, from 0x02 to 0x0B, that applies to a record. -/
def recordCode (s : State) (r : List DWord) (l : LaunchRec) : Option Nat :=
  if reservedFields.any fun f => bitsAt (recDword r f.1) f.2.1 f.2.2 != 0 then some 0x02
  else if !(s.ctx l.ctx).en then some 0x03
  else if l.entry.toNat % 32 ≠ 0 ∨ bitsAt l.entry 48 9 ≠ 0 then some 0x04
  else if !geometryOk r l then some 0x05
  else if 294912 < l.spad then some 0x06
  else if l.paired && !l.l1fuse then some 0x07
  else if !pinOk l then some 0x08
  else if 8 < l.cogrp ∨ (l.cogrp ≠ 0 ∧ (l.paired = true ∨ l.teams ≠ 4 * l.cogrp)) then some 0x09
  else if l.spillsz % 128 ≠ 0 ∨ l.ovfsz % 64 ≠ 0 then some 0x0A
  else if l.xfers.any fun x => decide (2 ^ 30 < x.2.2) then some 0x0B
  else none
/-- The scalar registers that a record initialises, ascending (R384). -/
def maskRegs (m : DWord) : List Nat := (List.range 56).filter fun n => m.getLsbD n
/-- One value of the initialisation table: none where its read fails (R384). -/
def State.tableWord (s : State) (c a : Nat) : Option DWord :=
  match s.translate c (BitVec.ofNat 64 a) with
  | .bad .. => none
  | .ok p =>
    let loc := p.pa a
    if s.reach hubCore loc false true == .dead || s.poisoned loc 8 then none else some (s.dwordAt loc)
/-- The scalar registers from the initialisation table (R384): none where a read fails. -/
def State.tableScalars (s : State) (l : LaunchRec) : Option (List (Nat × DWord)) :=
  go (maskRegs l.smask) 0 []
where
  /-- The values from entry `i` on. -/
  go : List Nat → Nat → List (Nat × DWord) → Option (List (Nat × DWord))
    | [], _, acc => some acc
    | n :: ns, i, acc =>
      match s.tableWord l.ctx (l.sinit + 8 * i) with
      | some x => go ns (i + 1) (sput 0 acc n x)
      | none => none
/-- Does a read of the table wait for a tower or a page (R434, R119)? -/
def State.tableWaits (s : State) (l : LaunchRec) : Bool :=
  (List.range (maskRegs l.smask).length).any fun i =>
    match s.translate l.ctx (BitVec.ofNat 64 (l.sinit + 8 * i)) with
    | .ok p => s.blocked hubCore (p.pa (l.sinit + 8 * i)) false
    | .bad kind _ => kind == walkWaits

/-! ### The scoreboard (R388 to R390) -/

/-- Entries a node holds (R389). -/
def Node.entries (n : Node) : Nat := 1 + (n.xst.filter fun x => x.2 != 2).length
/-- DSTAT.FREE (R389). -/
def State.freeEntries (s : State) : Nat := 1024 - (s.nodes.map Node.entries).sum
/-- The transfers of a record: those of nonzero length. -/
def LaunchRec.live (l : LaunchRec) : List Nat := (List.range 2).filter fun k => (l.xfers.getD k (0, 0, 0)).2.2 != 0
/-- LWSTAT.BUSY: a node of the stream has started. -/
def State.windowBusy (s : State) (w : Nat) : Bool := s.nodes.any fun n => n.win == w && n.grid.isSome
/-- The first node of a window: every record before it is complete. -/
def State.firstNode (s : State) (w : Nat) : Option Node := s.nodes.find? fun n => n.win == w
/-- Change the first node of a window that satisfies `p`. -/
def modNodes (p : Node → Bool) (f : Node → Node) : List Node → List Node
  | [] => []
  | n :: r => if p n then f n :: r else n :: modNodes p f r
/-- R390: no earlier-parsed record of the context that carries a dependence's tag is incomplete. -/
def depsMet (earlier : List Node) (l : LaunchRec) : Bool :=
  (List.range 4).all fun k =>
    l.depv / 2 ^ k % 2 == 0 || !(earlier.any fun n => n.lr.ctx == l.ctx && n.lr.tag == bitsAt l.deps (16 * k) 16)
/-- The nodes parsed before the first node of a window. -/
def State.beforeNode (s : State) (w : Nat) : List Node := s.nodes.takeWhile fun n => n.win != w

/-- A record of the window is rejected (R386): the report with its code and an error record. -/
def State.rejectRec (s : State) (w : Nat) (l : LaunchRec) (code : Nat) : State :=
  let s := s.complete l w code false false 0
  (s.report (mkRecord dispatcher 0x40 2 (0, 0) 0 (BitVec.ofNat 64 (code + w * 2 ^ 8 + l.seq * 2 ^ 14)) 0 0)).2
/-- R382: byte 255 of a parsed slot reads 0x00 and NSEQ moves on. -/
def State.consumeSlot (s : State) (w : Nat) : State :=
  let win := s.window w
  ((s.write (slotLoc win (win.nseq % 16) + 255) [0]).modWindow w fun x => { x with nseq := (x.nseq + 1) % 128 }).boundary
/-- Is there a record that a window can parse now: VALID in the expected slot, and room for its entries unless its SEQ is wrong (R380,
R382)? -/
def State.canParse (s : State) (w : Nat) : Bool :=
  let win := s.window w
  let r := s.slotWords win (win.nseq % 16)
  let l := parseRec r
  win.en && !win.stop && (recDword r 31).getLsbD 63 && (l.seq != win.nseq || decide (1 + l.live.length ≤ s.freeEntries))
/-- R382 to R386, R389: the record in the expected slot of a window is parsed; a lower window with a record goes first.
(DESIGN CHOICE, log entry 28.) -/
def execLaunchRecordParse (w : Nat) (s : State) : Out :=
  .next (
    let win := s.window w
    let r := s.slotWords win (win.nseq % 16)
    let l := parseRec r
    if !win.en || win.stop || !(recDword r 31).getLsbD 63 || s.boot.phase != 2 || (List.range w).any s.canParse then s
    else if l.seq ≠ win.nseq then (s.rejectRec w l 0x01).modWindow w fun x => { x with stop := true }
    else if s.freeEntries < 1 + l.live.length then s
    else
      match recordCode s r l with
      | some code => (s.rejectRec w l code).consumeSlot w
      | none =>
        if s.tableWaits l then s
        else
          match s.tableScalars l with
          | none => (s.rejectRec w l 0x0C).consumeSlot w
          | some scal =>
            let n : Node :=
              { win := w, lr := l, scal := scal, xst := l.live.map fun k => (k, if l.xearly then 1 else 0), readyAt := none,
                grid := none, mark := none, fullSwitch := false, failed := false, placedAt := 0 }
            { s with nodes := s.nodes ++ [n] }.consumeSlot w)

/-- R384: the stream scalars after a record's writes. -/
def writeStream (l : LaunchRec) (ss : List (Nat × DWord)) : List (Nat × DWord) :=
  (List.range 8).foldl (fun m k => if l.ssw / 2 ^ k % 2 = 1 then sput 0 m k (l.ivs.getD k 0) else m) ss
/-- The scalar registers of a grid: the table's values, and the stream scalars in s56 to s63 (R384). -/
def gridScalars (scal ss : List (Nat × DWord)) : List (Nat × DWord) :=
  (List.range 8).foldl (fun m k => sput 0 m (56 + k) (sget 0 ss k)) scal
/-- The grid of a node when it starts. -/
def newGrid (n : Node) (ss : List (Nat × DWord)) : Grid where
  win := n.win
  lr := n.lr
  scal := gridScalars n.scal ss
  parent := none
  nextTeam := 0
  gaps := []
  childTeams := []
  saved := []
  killed := false
  retired := false
  psn := false
  rbk := false
  pcnt := 0
  endPair := (0, 0)
/-- A node's waiting transfers start. -/
def Node.startTransfers (n : Node) : Node := { n with xst := n.xst.map fun x => (x.1, if x.2 = 0 then 1 else x.2) }
/-- A node's transfer `k` ends. -/
def Node.endTransfer (k : Nat) (ok : Bool) (n : Node) : Node :=
  { n with xst := n.xst.map (fun y => if y.1 = k then (k, 2) else y), failed := n.failed || !ok }
/-- Does a checkpoint keep nodes from starting (R464)? -/
def State.ckptDrains (s : State) : Bool := s.ckpt.op == 1 && (s.ckpt.phase == 1 || s.ckpt.phase == 2)
/-- The bytes a transfer writes, run by run, each at its home. -/
def putRuns (s : State) : List (Nat × Nat × Bool) → List Byte → State
  | [], _ => s
  | (loc, n, si) :: r, bs => putRuns (s.homeWrite loc si (bs.take n)) r (bs.drop n)
/-- R391: a transfer's data is written, once memory serves every byte; an address of the destination without a translation, or a write
answered with an error completion (R438), makes it fail. (DEDUCED, log entry 24.) -/
def State.runTransfer (s : State) (c : Nat) (x : DWord × DWord × Nat) : Option (Bool × State) :=
  let rs := s.laxRuns c x.2.1.toNat x.2.2
  match s.probeSpan 0 c x.2.1 x.2.2 0 false with
  | some t => if t.waits then none else some (false, s)
  | none =>
    if rs.any fun r => s.blocked hubCore r.1 true then none
    else
      let t := putRuns s rs (s.bytes (hostLoc (x.1.toNat % (peerBase - devLimit))) x.2.2)
      some (rs.all fun r => s.reach hubCore r.1 true true != .dead, t)
/-- R391, R389: transfer `k` of a window's oldest node that runs one ends; `err` is an error completion. A failure's record names the first
of the host copy engines as its source. (DESIGN CHOICE, log entry 85.) -/
def execHostTransferComplete (w k : Nat) (err : Option (BitVec 2)) (s : State) : Out :=
  let mine (n : Node) : Bool := n.win == w && n.xst.contains (k, 1)
  .next (match s.nodes.find? mine with
    | none => s
    | some n =>
      let x := n.lr.xfers.getD k (0, 0, 0)
      match if err.isSome then some (false, s) else s.runTransfer n.lr.ctx x with
      | none => s.askSpan n.lr.ctx x.2.1.toNat x.2.2 true
      | some (ok, s) =>
        let s := { s with nodes := modNodes mine (Node.endTransfer k ok) s.nodes }
        if ok then s
        else
          let code := match err with
            | some e => e.toNat
            | none => if (s.probeSpan 0 n.lr.ctx x.2.1 x.2.2 0 false).isSome then 0 else 2
          (s.report { mkRecord (sourceId 10 0 0) 0x42 3 (0, 0) x.2.1 (BitVec.ofNat 64 (code + 256)) x.1 0 with
            launch := some (launchField n.lr.ctx w n.lr.seq 0) }).2)

/-! ### Placement (R31, R32, R58, R76, R392, R393) -/

/-- S of a scratchpad request (R75). -/
def LaunchRec.segs (l : LaunchRec) : Nat := (l.spad + 16383) / 16384
/-- Warps of each team of a grid. -/
def Grid.teamWarps (g : Grid) : Nat := if g.parent.isSome then 1 else g.lr.warps
/-- Is a grid's team on a pair of cores? A child warp stands on one. -/
def Grid.isPaired (g : Grid) : Bool := g.parent.isNone && g.lr.paired
/-- Warps of a grid's team on one core. -/
def Grid.coreWarps (g : Grid) : Nat := if g.isPaired then g.lr.warps / 2 else g.teamWarps
/-- Is a grid to be placed in co-operative groups? -/
def Grid.grouped (g : Grid) : Bool := g.parent.isNone && g.lr.cogrp != 0
/-- Window and pool tiles in use on a core (R58). -/
def State.tilesUsed (s : State) (k : Nat) : Nat :=
  ((s.core k).warps.map fun p => p.2.win).sum +
    ((s.resident k).map fun t => match s.grid? t.2.grid with
      | some g => g.lr.pool
      | none => 0).sum
/-- Is a targeted self-test of a core pending or running, which holds placement (R429)? -/
def Core.testHold (c : Core) : Bool := c.mgn.tpend || c.mgn.seqTest.isSome || c.mgn.testing.isSome
/-- Does a core take teams at all: mapped, its tower running, neither drained, scanning, under test nor moving its boundary? -/
def State.coreOpen (s : State) (k : Nat) : Bool :=
  let c := s.core k
  (s.logical? k).isSome && !c.drain && !c.scanning && !c.testHold && c.moving.isNone && (s.tower (coreTower k)).phase == .run
/-- Do the cores of a cluster hold no team? -/
def State.clusterEmpty (s : State) (k : Nat) : Bool := (s.clusterCores k).all fun j => (s.resident j).isEmpty && (s.core j).moving.isNone
/-- Can a core take its part of a team of a grid (R31, R32, R58, R76, R77, R393)? -/
def State.coreTakes (s : State) (g : Grid) (k : Nat) : Bool :=
  let c := s.core k
  let want := g.lr.segs
  let alone := (s.resident k).isEmpty
  s.coreOpen k && decide (c.warps.length + g.coreWarps ≤ 32) && decide (s.tilesUsed k + g.coreWarps * g.lr.win + g.lr.pool ≤ 64) &&
    (alone || (want == 0 && c.segs == 0)) && (c.fused == g.lr.l1fuse || s.clusterEmpty k) &&
    (c.segs == want || alone && (!(c.fused && g.lr.l1fuse) || s.clusterEmpty k))
/-- Does the cluster of a core hold a team of the grid? -/
def State.groupHere (s : State) (gid k : Nat) : Bool :=
  (s.clusterCores k).any fun j => (s.resident j).any fun t => t.2.grid == gid
/-- The cores a grid's team takes when it is placed at a core: none where that core is no place for it. -/
def State.placeCores (s : State) (g : Grid) (num k : Nat) : Option (List Nat) :=
  match s.logical? k with
  | none => none
  | some l =>
    if g.parent.isNone && g.lr.pin && l != g.lr.pinbase + num * g.lr.pinstr then none
    else if g.grouped then
      let ks := s.clusterCores k
      if l % 4 = 0 ∧ ks.length = 4 then some ks else none
    else if g.isPaired then
      (if l % 2 = 0 then (s.physical? (l + 1)).map fun o => [k, o] else none)
    else some [k]
/-- Can the next team of a grid, or its four of a cluster, be placed at a core? -/
def State.fitsAt (s : State) (gid : Nat) (g : Grid) (num k : Nat) : Bool :=
  match s.placeCores g num k with
  | none => false
  | some ks => ks.all (s.coreTakes g) && !(g.grouped && s.groupHere gid k)
/-- The unplaced teams of a grid that may be offered cores, in order (R392): teams that may go to the same cores stand for one another, so
only pinned teams of different cores are listed beside the first. A child grid's wait while the gatherer is stopped for it (R414). -/
def State.openTeams (s : State) (gid : Nat) (g : Grid) : List Nat :=
  if g.killed || g.retired then []
  else
    match g.parent with
    | none =>
      g.gaps ++ if g.nextTeam < g.lr.teams then
        (if g.lr.pin ∧ g.lr.pinstr ≠ 0 then (List.range (min 256 (g.lr.teams - g.nextTeam))).map (g.nextTeam + ·) else [g.nextTeam])
      else []
    | some _ =>
      if (s.ancestors gid).any fun x => s.stopGrids.contains x then [] else (g.childTeams.map (·.1)).take 1
/-- The number of a grid's first unplaced team (R392). -/
def State.nextTeamOf (s : State) (gid : Nat) (g : Grid) : Option Nat := (s.openTeams gid g).head?
/-- Team `num`, or the four from it, of a grid is placed: the teams passed over stay to be placed. -/
def Grid.passTeam (num n : Nat) (g : Grid) : Grid :=
  match g.parent with
  | some _ => { g with childTeams := g.childTeams.filter fun t => t.1 != num }
  | none =>
    if num < g.nextTeam then { g with gaps := g.gaps.erase num }
    else { g with gaps := g.gaps ++ (List.range (num - g.nextTeam)).map (g.nextTeam + ·), nextTeam := num + n }
/-- The node of a grid's launch. -/
def State.nodeOf (s : State) (gid : Nat) : Option Node := s.nodes.find? fun n => n.grid == some (s.rootOf gid)
/-- The place of a grid in R392's order: class, time of readiness, window, and deeper grids first. -/
def State.placeKey (s : State) (gid : Nat) (g : Grid) : List Nat :=
  [g.lr.prio, match s.nodeOf gid with
    | some n => n.readyAt.getD 0
    | none => 0, g.win, s.grids.length - (s.ancestors gid).length, gid]
/-- Lexicographic order. -/
def keyBefore : List Nat → List Nat → Bool
  | a :: x, b :: y => decide (a < b) || (a == b && keyBefore x y)
  | _, _ => false
/-- Every core of the map. -/
def State.mappedCores (s : State) : List Nat := s.boot.map.map (·.2)
/-- Is a core reserved for another team (R392)? -/
def State.reservedFor (s : State) (gid num k : Nat) : Bool :=
  s.reserved.any fun r => r.1 == k && !(r.2.1 == gid && r.2.2 == num)
/-- May the next team of a grid go on a core now: it fits, and no core of it is reserved for another? -/
def State.placeable (s : State) (gid : Nat) (g : Grid) (num k : Nat) : Bool :=
  s.fitsAt gid g num k && match s.placeCores g num k with
    | some ks => !(ks.any (s.reservedFor gid num))
    | none => false
/-- The unplaced teams: grid's number, grid, team. -/
def State.waitingGrids (s : State) : List (Nat × Grid × Nat) :=
  s.grids.flatMap fun p => (s.openTeams p.1 p.2).map fun n => (p.1, p.2, n)
/-- The place of a team in R392's order: its grid's, then its number. -/
def State.teamKey (s : State) (x : Nat × Grid × Nat) : List Nat := s.placeKey x.1 x.2.1 ++ [x.2.2]
/-- The first of a list in R392's order. -/
def State.firstInOrder (s : State) : List (Nat × Grid × Nat) → Option (Nat × Grid × Nat)
  | [] => none
  | x :: r =>
    match s.firstInOrder r with
    | none => some x
    | some y => if keyBefore (s.teamKey y) (s.teamKey x) then some y else some x
/-- The cores reserved for a team that no core can take (R392): those it would occupy once they are empty. -/
def State.reserveCores (s : State) (gid : Nat) (g : Grid) (num : Nat) : List Nat :=
  let up (k : Nat) : Bool := !(s.core k).drain
  let ls := (List.range 256).filterMap fun l => (s.physical? l).map fun k => (l, k)
  if g.parent.isNone && g.lr.pin then
    match (s.physical? (g.lr.pinbase + num * g.lr.pinstr)).bind fun k => s.placeCores g num k with
    | some ks => ks
    | none => []
  else
    match ls.find? fun x => (if g.isPaired then x.1 % 2 == 0 else if g.grouped then x.1 % 4 == 0 && !s.groupHere gid x.2 else true) &&
        match s.placeCores g num x.2 with
        | some ks => ks.all up
        | none => false with
    | some x => (s.placeCores g num x.2).getD []
    | none => []
/-- R392: with no reservation standing, the first unplaced team that no core can take reserves its cores. -/
def State.reserve (s : State) : State :=
  if s.reserved ≠ [] then s
  else
    match s.firstInOrder (s.waitingGrids.filter fun x => !(s.mappedCores.any (s.fitsAt x.1 x.2.1 x.2.2))) with
    | none => s
    | some x => { s with reserved := (s.reserveCores x.1 x.2.1 x.2.2).map fun k => (k, x.1, x.2.2) }
/-- The slices of a new warp (R20, R23). -/
def newSlices (entry : DWord) (active : BitVec 64) (n : Nat) : List Slice :=
  (List.range n).map fun j =>
    { pc := entry, gang := 0, retired := active.toNat / 2 ^ (4 * j) % 16 == 0, mode := 0, fmt := 0, waits := [], resume := 0,
      leaving := false, count := 0 }
/-- A warp at its creation (R58, R383 to R385). (DESIGN CHOICE, log entry 5.) -/
def newWarp (gid tid num width win : Nat) (entry : DWord) (active : BitVec 64) (rsb rlim : Nat) (scal : List (Nat × DWord))
    (sliced : Bool) (now : Nat) : Warp :=
  let xs := newSlices entry active (width / 4)
  { grid := gid, team := tid, num := num, width := width, win := win, active := active, slices := xs, v := [], s := scal, p := [],
    q := [], shape := shapeReset, rsb := BitVec.ofNat 64 rsb, rsp := BitVec.ofNat 64 rsb, rlim := rlim, bx := [], serp := [],
    tags := [], depth := 0, spilled := 0, nb := 0, jobs := [], region := none, arr := [], pending := [],
    picc := ⟨if sliced then ((List.range (width / 4)).filter fun j => active.toNat / 2 ^ (4 * j) % 16 != 0).map fun j => (j, entry, 0)
      else [], [], [], none⟩,
    trap := none, skid := 0, stopped := false, inSet := false, enteredAt := 0, lastIssue := 0, readyAt := now, yielded := false, started := false }
/-- A team at its creation. (DESIGN CHOICE, log entry 5.) -/
def newTeam (gid num core : Nat) (paired : Bool) (odd : Nat) : Team where
  grid := gid
  num := num
  core := core
  paired := paired
  odd := odd
  halted := false
  cause := none
  pair := (0, 0)
  recWait := false
  haltAt := 0
  byStop := false
  cir := 0
  tiles := []
  tcfgAt := []
  words := []
  bars := []
  seqArr := []
  lastNb := []
  zeroing := true
/-- The lanes of warp `n` within a thread extent (R20). -/
def extentMask (threads width n : Nat) : BitVec 64 := laneMask ((List.range width).filter fun i => decide (n * width + i < threads))
/-- Put a warp into the lowest free slot of a core. -/
def State.addWarp (s : State) (k : Nat) (w : Warp) : State :=
  match (List.range 32).find? fun x => (s.warp? k x).isNone with
  | some slot => s.setWarp k slot w
  | none => s
/-- The payload of lane `i` of a child warp in its registers (R43). -/
def payloadRegs (recs : List (List DWord)) : List (Nat × Word) :=
  recs.zipIdx.foldl (fun m x => (List.range 7).foldl (fun m k =>
    sput 0 (sput 0 m (64 * (2 * k) + x.2) (loWord (x.1.getD k 0))) (64 * (2 * k + 1) + x.2) (hiWord (x.1.getD k 0))) m) []
/-- R77, R397: the boundary of the cores of a team moves and their fusion changes; the cores of a fused cluster move together.
Lowering takes effect at once. -/
def State.setBoundary (s : State) (want : Nat) (fuse : Bool) (ks : List Nat) : State :=
  let all := ks.flatMap fun k => if fuse || (s.core k).fused then s.clusterCores k else [k]
  all.eraseDups.foldl (fun s k => s.modCore k fun c =>
    if c.fused = fuse ∧ want ≤ c.segs then { c with segs := want } else { c with moving := some (want, fuse, s.coreNow) }) s
/-- The warps of a team with number `num` of a grid are created on its cores. -/
def State.fillTeam (s : State) (gid tid num : Nat) (g : Grid) (ks : List Nat) : State :=
  match g.parent with
  | some _ =>
    match g.childTeams.find? fun t => t.1 == num with
    | none => s
    | some (_, entry, recs) =>
      let w := newWarp gid tid 0 g.lr.width g.lr.win entry (laneMask (List.range recs.length)) g.lr.spill 0 g.scal g.lr.slice s.coreNow
      s.addWarp (ks.headD 0) { w with v := payloadRegs recs }
  | none =>
    (List.range g.lr.warps).foldl (fun s n =>
      let active := extentMask g.lr.threads g.lr.width n
      let i := num * g.lr.warps + n
      if active = 0 then s
      else
        s.addWarp (ks.getD (n / g.coreWarps) 0)
          (newWarp gid tid n g.lr.width g.lr.win g.lr.entry active (g.lr.spill + i * g.lr.spillsz) g.lr.spillsz g.scal g.lr.slice
            s.coreNow)) s
/-- The warps of a team may issue: those outside the active set are ready from now on (R36). -/
def State.openTeam (s : State) (tid : Nat) (tm : Team) : State :=
  let s := s.modTeam tid fun t => { t with zeroing := false }
  let s := (s.teamWarps tid).foldl (fun s x => s.modWarp x.1 x.2.1 fun w => { w with readyAt := s.coreNow }) s
  tm.cores.foldl (fun s k => s.refillSet k) s
/-- A team may issue once no boundary of its cores moves and, with scratchpad, once that is zeroed (R76, R397). -/
def State.teamOpens (s : State) (tid : Nat) : State :=
  match s.team? tid with
  | none => s
  | some tm =>
    if tm.cores.any fun k => (s.core k).moving.isSome || (s.core k).segs != 0 then s
    else s.openTeam tid tm
/-- One team of a grid is placed on its cores. Its first instructions are an acquire (R113). (DEDUCED, log entry 53.) -/
def State.placeOne (s : State) (gid : Nat) (g : Grid) (num : Nat) (ks : List Nat) : State :=
  let (tid, s) := s.newId
  let s := { s with teams := sinsert s.teams tid (newTeam gid num (ks.headD 0) g.isPaired (ks.getD 1 0)) }
  let s := (s.setBoundary g.lr.segs g.lr.l1fuse ks).fillTeam gid tid num g ks
  let s := ks.foldl (fun s k => s.acquireAt k .sys) s
  s.teamOpens tid
/-- R392, R393: a team of a grid, or its four of a cluster, is placed at a core that can take it, when no team before it in the order can
go anywhere. -/
def execTeamPlace (grid core : Nat) (s : State) : Out :=
  .next (
    let s := s.reserve
    match s.grid? grid with
    | none => s
    | some g =>
      match (s.openTeams grid g).find? fun num => s.placeable grid g num core with
      | none => s
      | some num =>
        let blocked := s.waitingGrids.any fun x =>
          keyBefore (s.teamKey x) (s.teamKey (grid, g, num)) && s.mappedCores.any (s.placeable x.1 x.2.1 x.2.2)
        if blocked then s
        else
          let ks := (s.placeCores g num core).getD []
          let s := if g.grouped then
              ks.zipIdx.foldl (fun s x => s.placeOne grid g (num + x.2) [x.1]) s
            else s.placeOne grid g num ks
          let root := s.rootOf grid
          { s.modGrid grid (Grid.passTeam num (if g.grouped then 4 else 1)) with
            nodes := modNodes (fun n => n.grid == some root) (fun n => { n with placedAt := s.hubNow }) s.nodes
            reserved := s.reserved.filter fun r => !(r.2.1 == grid && r.2.2 == num) })
/-- The L1 of a core is written back for a move: for a change of fusion all of it, and it is emptied; for a higher boundary the ways given
up, which hold a free choice of what the stores in flight have dirtied (R77, R87, R397). None while a home holds a writeback back.
(DEDUCED, log entry 71.) -/
def State.writeBack (s : State) (k : Nat) (all : Bool) : Option State :=
  let d := s.domOf k
  let mine := s.pend.filter fun p => s.domOf (agentCore p.agent) == d && (p.op.table.isNone && p.op != .mark)
  let ids := ((mine.zipIdx.filter fun x => all || Config.freeBit (s.fresh + x.2)).map fun x => x.1.id)
  (s.flushed 3 fun p => ids.contains p.id).map fun t =>
    if all then { t with stale := t.stale.filter fun x => x.dom != d, pend := t.pend.map fun p => { p with late := p.late.filter (· != d) } }
    else { t with fresh := t.fresh + mine.length }
/-- The L1s of some cores are written back. -/
def State.writeBacks (s : State) (all : Bool) : List Nat → Option State
  | [] => some s
  | k :: r => (s.writeBack k all).bind fun s => s.writeBacks all r
/-- The cores that move together with a core, and whether all have had the cycles of the scan (R77, R397). -/
def State.moversOf (s : State) (core want : Nat) (fuse : Bool) : List Nat × Bool :=
  let ks := if fuse || (s.core core).fused then (s.clusterCores core).filter fun k => match (s.core k).moving with
      | some (w, f, _) => w == want && f == fuse
      | none => false
    else [core]
  (ks, ks.all fun k => match (s.core k).moving with
    | some (_, _, t) => decide (t + 128 * (want - (s.core k).segs) ≤ s.coreNow)
    | none => true)
/-- R77, R87, R397: a boundary move ends, once what its L1 gives up has reached its homes; a change of fusion empties every L1 of the
cluster. -/
def execBoundaryMoveComplete (core : Nat) (s : State) : Out :=
  .next (match (s.core core).moving with
    | none => s
    | some (want, fuse, _) =>
      let (ks, scanned) := s.moversOf core want fuse
      match if scanned then s.writeBacks ((s.core core).fused != fuse) ks else none with
      | none => s
      | some s =>
      let s := ks.foldl (fun s k => s.modCore k fun c => { c with segs := want, fused := fuse, moving := none }) s
      ((ks.flatMap s.resident).map (·.1)).foldl State.teamOpens s)
/-- R76: the scratchpads of the team on a core have been zeroed, after every write of the time before; its warps may issue. -/
def execSpadZeroComplete (core : Nat) (s : State) : Out :=
  .next (match (s.resident core).find? fun t => t.2.zeroing with
    | none => s
    | some (tid, tm) =>
      if tm.cores.any fun k => (s.core k).moving.isSome then s
      else
        let s := tm.cores.foldl (fun s k =>
          let s := s.flush fun p => decide (spadLoc k 0 ≤ p.op.range.1) && decide (p.op.range.1 < spadLoc (k + 1) 0)
          { s with mem := sdropRange s.mem (spadLoc k 0) (spadLoc (k + 1) 0) }) s
        s.openTeam tid tm)

/-! ### Light pre-emption (R395) -/

/-- The classes of kernels that are ready with teams unplaced. -/
def State.waitingClasses (s : State) : List Nat := s.waitingGrids.map fun x => x.2.1.lr.prio
/-- DSTAT.WAITC (Table 23.1). -/
def State.waitc (s : State) : Nat := ((List.range 4).map fun c => if s.waitingClasses.contains c then 2 ^ c else 0).sum
/-- Has a kernel of a class below `c` been ready with teams unplaced for 4,096 hub cycles without a placement? -/
def State.starving (s : State) (c : Nat) : Bool :=
  s.waitingGrids.any fun x => decide (x.2.1.lr.prio < c) && match s.nodeOf x.1 with
    | some n => decide (n.placedAt + 4096 ≤ s.hubNow)
    | none => false
/-- Is a running node due for a mark: its window may be pre-empted, and a kernel of a class below its own starves? -/
def State.markable (s : State) (n : Node) : Bool := n.grid.isSome && n.mark.isNone && (s.window n.win).pre && s.starving n.lr.prio
/-- Does a mark fall in the hub cycle in which the last node of a window's stream completed? -/
def State.markDue (s : State) (w : Nat) : Bool :=
  let x := s.window w
  x.pre && x.susp.isNone && match x.lastDone with
    | some (t, c) => t == s.hubNow && s.starving c
    | none => false
/-- R395: the running node of a window is marked and its stream suspended, and with it every other node due; a stream whose node has
completed in this cycle is suspended too. -/
def execLightPreemptMark (w : Nat) (s : State) : Out :=
  .next (
    if s.markDue w then
      s.modWindow w fun x => { x with susp := x.lastDone.map (·.2) }
    else if s.nodes.any fun n => n.win == w && s.markable n then
      let ns := s.nodes.filter s.markable
      ns.foldl (fun s n => s.modWindow n.win fun x => { x with susp := some n.lr.prio })
        { s with nodes := s.nodes.map fun n => if s.markable n then { n with mark := some s.hubNow } else n }
    else s)
/-- R395: a marked node is still incomplete at its deadline; a full context switch of its teams is requested. -/
def execPreemptDeadlineExpiry (w : Nat) (s : State) : Out :=
  .next (match s.firstNode w with
    | some n =>
      match n.mark with
      | some t =>
        if n.lr.pdl ≠ 0 ∧ t + n.lr.pdl * 1024 ≤ s.hubNow then
          { s with nodes := modNodes (fun n => n.win == w) (fun n => { n with fullSwitch := true }) s.nodes }
        else s
      | none => s
    | none => s)
/-- R395: a suspended stream resumes when no kernel of a class below its own is ready with teams unplaced; its node's mark goes, with the
deadline and a switch that was requested. (DEDUCED, log entry 84.) -/
def execStreamResume (w : Nat) (s : State) : Out :=
  .next (match (s.window w).susp with
    | some c =>
      if s.waitingClasses.any fun x => decide (x < c) then s
      else
        { s with nodes := modNodes (fun n => n.win == w) (fun n => { n with mark := none, fullSwitch := false }) s.nodes }.modWindow w
          fun x => { x with susp := none }
    | none => s)

/-! ### A node starts (R388) -/

/-- R388, R391: the first node of a window starts its transfers, then, once they are done and the stream is not suspended,
starts; one with a failed transfer ends with XFAIL. -/
def execNodeStart (w : Nat) (s : State) : Out :=
  .next (match s.firstNode w with
    | none => s
    | some n =>
      if n.grid.isSome || s.ckptDrains || !depsMet (s.beforeNode w) n.lr then s
      else if n.xst.any fun x => x.2 == 0 then
        { s with nodes := modNodes (fun n => n.win == w) Node.startTransfers s.nodes }
      else if n.xst.any fun x => x.2 != 2 then s
      else if n.failed then
        let s := s.complete n.lr w 0x10 false false 0
        { s with nodes := (s.nodes.takeWhile fun m => m.win != w) ++ (s.nodes.dropWhile fun m => m.win != w).drop 1 }
      else if (s.window w).susp.isSome || s.markDue w then s
      else
        let s := s.modWindow w fun x => { x with ss := writeStream n.lr x.ss }
        let (g, s) := s.newId
        { s with
          grids := sinsert s.grids g (newGrid n (s.window w).ss)
          nodes := modNodes (fun n => n.win == w)
            (fun n => { n with readyAt := some s.hubNow, placedAt := s.hubNow, grid := some g }) s.nodes })

end Sys2Proof.Machine
end

