-- ==== Sys2Proof/Machine/Control.lean ====
section
/-! DEFINITION. Control flow, rejoining, barriers, work creation, locality and idling (R271 to R285). -/

namespace Sys2Proof.Machine
open Sys2Proof

/-! ### Idling (R284, R36) -/

/-- R284: no effect, in either stream. -/
def execNop (g : Guard) (s : State) : Out := if s.cur.sq then .next s else word (.nop g) s fun _ s => s
/-- R284, R36: the warp is the first to leave the active set when a ready warp can take its place. -/
def execYield (g : Guard) (s : State) : Out :=
  word (.yield g) s fun w s =>
    if w.actsOnce s.cur.slices g then (s.modLive fun v => { v with yielded := true }).refillSet s.cur.core else s
/-- The cycles that a core's SLEEP counts: hub cycles on the hub control core (R456). -/
def State.cyclesAt (s : State) (k : Nat) : Nat := if k = hubCore then s.hubNow else s.coreNow
/-- R284: the gang's next bundle issues no earlier than `n` cycles of its core from now. -/
def execSleep (g : Guard) (n : BitVec 17) (s : State) : Out :=
  word (.sleep g n) s fun w s =>
    if w.actsOnce s.cur.slices g && n != 0 then s.wait (.sleep (s.cyclesAt s.cur.core + n.toNat)) else s
/-- R284: a SLEEP has lasted its cycles. (DEDUCED, log entry 57.) -/
def execSleepExpiry (core slot slice : Nat) (s : State) : Out :=
  .next (s.onWait core slot slice fun _ wt => match wt with
    | .sleep till => if till ≤ s.cyclesAt core then some s else none
    | _ => none)

/-! ### Transfers (R23, R271 to R276) -/

/-- The slices of a mask become a gang with number `g` at `pc`. -/
def Warp.splitTo (w : Warp) (m : BitVec 16) (g : Nat) (pc : DWord) : Warp :=
  w.modSlices m fun x => { x.goTo pc with gang := g }
/-- R272, R22, R23: the slices that take the branch continue at the target, as a gang of their own when others fall through. -/
def execBra (acc : Bool) (p : PReg) (neg : Bool) (off : BitVec 20) (s : State) : Out :=
  word (.bra acc p neg off) s fun w s =>
    let m := s.cur.slices
    let t := takenMask w m p neg
    let target := braTarget s.cur.pc off
    if t = 0 then s
    else if t = m then s.jump target
    else
      let (g, s) := (s.jump s.nextPc).newId
      s.modLive fun v => v.splitTo t g target
/-- R273. -/
def execJmp (acc : Bool) (a : SReg) (s : State) : Out := word (.jmp acc a) s fun w s => s.jump (w.sget a)
/-- R273: the link is the address after the bundle. -/
def execCall (acc : Bool) (d a : SReg) (s : State) : Out :=
  word (.call acc d a) s fun w s => (s.modLive fun v => v.sset d s.nextPc).jump (w.sget a)
/-- R273: acts as JMP. -/
def execRet (acc : Bool) (a : SReg) (s : State) : Out := word (.ret acc a) s fun w s => s.jump (w.sget a)
/-- R274: slices with equal targets form one gang. -/
def execBrx (acc : Bool) (a : VReg) (s : State) : Out :=
  word (.brx acc a) s fun w s =>
    let js := maskSlices s.cur.slices
    let first (j : Nat) : Nat := (js.find? fun i => brxTarget w a i == brxTarget w a j).getD j
    let g := s.nextId
    let s := s.modLive fun v => js.foldl (fun v j => v.splitTo (BitVec.ofNat 16 (2 ^ j)) (g + first j) (brxTarget w a j)) v
    { s with nextId := g + 16, cur := { s.cur with moved := true } }
/-- R275, R27: the slices of the gang retire, once the other words of the bundle have ended their waits. -/
def execExit (acc : Bool) (s : State) : Out :=
  word (.exit acc) s fun w s =>
    let k := s.cur.core
    let slot := s.cur.slot
    let s := s.modLive fun v => v.modSlices s.cur.slices fun x =>
      if x.waiting then { x with leaving := true } else { x with retired := true }
    let s := { s with cur := { s.cur with moved := true } }
    match s.live? with
    | some v => if v.retired && s.canRetire k slot v then s.endWarp k slot w.team else s
    | none => s

/-! ### Rejoining (R24, R188, R277) -/

/-- R24: with every named slice here the slices form one gang, once their pending results have landed (R188); otherwise the gang
waits. -/
def execRegang (mask : BitVec 16) (s : State) : Out :=
  word (.regang mask) s fun _ s =>
    let m := s.cur.slices
    match s.live? with
    | none => s
    | some v =>
      if regangComplete v m mask s.cur.pc then
        let s := s.landSome s.cur.core s.cur.slot fun p => (p.slices &&& mask) != 0
        let (g, s) := s.newId
        let next := s.nextPc
        let s := s.modLive fun v => v.modSlices mask fun x =>
          let x := { x with waits := x.waits.erase (.regang mask), gang := g, count := 0, resume := next }
          if x.waiting then x else { x with pc := next }
        { s with cur := { s.cur with moved := true } }
      else s.wait (.regang mask)

/-! ### Barriers (R278, R279) -/

/-- The scope of a team's barriers (Table 4.5). -/
def Team.barScope (tm : Team) : Scope := if tm.paired then .clus else .core
/-- The warps and the sequencers of a team that wait for barrier `b` to turn continue, with ARR cleared (R279). A halted team's
resume their waits later. -/
def State.wakeBar (s : State) (tid b : Nat) : State :=
  match s.team? tid with
  | none => s
  | some tm =>
    if tm.halted then s
    else
      let phase := (tm.bar 0 b).phase
      let s := (s.teamWarps tid).foldl (fun s x =>
        (List.range x.2.2.nslices).foldl (fun s j => s.onWait x.1 x.2.1 j fun _ wt => match wt with
          | .bar b' token clear =>
            if b' = b ∧ token ≠ phase then
              some ((s.modWarp x.1 x.2.1 fun w => if clear then { w with arr := sdrop w.arr b } else w).acquireAt x.1 tm.barScope)
            else none
          | _ => none) s) s
      tm.cores.foldl (fun s k =>
        let q := (s.core k).seq
        match q.wait with
        | .bar b' token =>
          if q.running ∧ q.team = tid ∧ b' = b ∧ token ≠ phase then
            (s.modSeq k fun q => { q with wait := .none }).modTeam tid fun t =>
              { t with seqArr := sdrop t.seqArr (128 * tm.halfOf k + b) }
          else s
        | _ => s) s
/-- R279: one arrival at barrier `b` of a team of `n` warps; at E arrivals the count returns to 0, the phase turns and waits end. -/
def State.arriveBar (s : State) (tid n b : Nat) : State :=
  match s.team? tid with
  | none => s
  | some tm =>
    let x := tm.bar n b
    if x.e ≤ x.count + 1 then (s.modTeam tid fun t => t.setBar b ⟨x.e, 0, !x.phase⟩).wakeBar tid b
    else s.modTeam tid fun t => t.setBar b ⟨x.e, x.count + 1, x.phase⟩
/-- The phase of a barrier. -/
def State.barPhase (s : State) (tid b : Nat) : Bool :=
  match s.team? tid with
  | some tm => (tm.bar 0 b).phase
  | none => false
/-- The scope of the barriers of a team by number. -/
def State.barScopeOf (s : State) (tid : Nat) : Scope :=
  match s.team? tid with
  | some tm => tm.barScope
  | none => .core
/-- The release of an arrival (Table 4.5). -/
def State.barRelease (s : State) (tid : Nat) : State :=
  (s.performAll s.cur.core s.cur.slot (BitVec.allOnes 64)).releaseAt s.cur.core s.cur.slot (s.barScopeOf tid)
/-- A warp's arrival: ARR is set and its token is the phase before it. -/
def State.warpArrives (s : State) (w : Warp) (b : Nat) : State :=
  let s := (s.modLive Warp.endRegion).barRelease w.team
  let ph := s.barPhase w.team b
  (s.modLive fun v => { v with arr := sinsert v.arr b ph }).arriveBar w.team (s.teamSize w) b
/-- A warp's wait: to the turn after its arrival, or to the next turn (R279). It completes at once when the phase has turned. -/
def State.warpWaits (s : State) (w : Warp) (b : Nat) : State :=
  let arr := match s.live? with
    | some v => sfind v.arr b
    | none => none
  let ph := s.barPhase w.team b
  match arr with
  | some token =>
    if ph = token then s.wait (.bar b token true)
    else (s.modLive fun v => { v with arr := sdrop v.arr b }).acquireAt s.cur.core (s.barScopeOf w.team)
  | none => s.wait (.bar b ph false)
/-- R279: E := s(A). -/
def execBarInit (b : BitVec 7) (a : SReg) (s : State) : Out :=
  word (.barInit b a) s fun w s =>
    (s.modLive Warp.endRegion).modTeam w.team fun tm =>
      tm.setBar b.toNat ⟨(w.sget a).toNat, 0, (tm.bar (s.teamSize w) b.toNat).phase⟩
/-- R279. -/
def execBarArrive (b : BitVec 7) (s : State) : Out := word (.barArrive b) s fun w s => s.warpArrives w b.toNat
/-- R279. -/
def execBarWait (b : BitVec 7) (s : State) : Out :=
  word (.barWait b) s fun w s => (s.modLive Warp.endRegion).warpWaits w b.toNat
/-- R279: arrive, then wait. -/
def execBarSync (b : BitVec 7) (s : State) : Out :=
  word (.barSync b) s fun w s => (s.warpArrives w b.toNat).warpWaits w b.toNat

/-! ### Work creation (R41, R281, R282) -/

/-- The payload words of one lane's record (Table 13.4). -/
def contPayload (w : Warp) (np b lane : Nat) : List DWord :=
  (List.range 7).map fun k => if k < np then w.vpair (b + 2 * k) lane else 0
/-- R281, R41: each acting lane emits a record; the gang waits until the gatherer has accepted them. A release at .dev scope. -/
def execCont (g : Guard) (np : BitVec 3) (a : SReg) (b : VReg) (s : State) : Out :=
  word (.cont g np a b) s fun w s =>
    let lanes := w.actLanes s.cur.slices g
    let s := s.modLive Warp.endRegion
    if lanes.isEmpty then s
    else
      let s := (s.performAll s.cur.core s.cur.slot (laneMask lanes)).releaseAt s.cur.core s.cur.slot .dev
      s.wait (.cont np.toNat (w.sget a) (lanes.map fun l => (l, contPayload w np.toNat b.toNat l)))
/-- R282: once every record of the warp's earlier CONTs is accepted, the grid's open groups are launched. -/
def execContf (g : Guard) (s : State) : Out :=
  word (.contf g) s fun w s =>
    let s := s.modLive Warp.endRegion
    if w.actsOnce s.cur.slices g then (if w.contPending then s.wait .contf else s.closeAt w.grid) else s

/-! ### Locality (R74, R283) -/

/-- Table 3.1, caller form. -/
def locqCaller (s : State) (k : Nat) : DWord :=
  if k = hubCore then 3
  else
    let l := (s.logical? k).getD 0
    BitVec.ofNat 64 (1 + l % 2 ^ 8 * 2 ^ 8 + coreTower k % 4 * 2 ^ 16 + l / 4 % 16 * 2 ^ 18 + l % 4 * 2 ^ 22 + corePhys k % 2 ^ 7 * 2 ^ 24)
/-- Table 3.1, address form. -/
def locqAddress (s : State) (c : Nat) (a : DWord) : DWord :=
  match s.translate c a with
  | .bad .. => 0
  | .ok p =>
    let pa := p.pa a.toNat
    if devLimit ≤ pa then 3
    else BitVec.ofNat 64 (1 + towerOf pa * 2 ^ 16 + stackOf pa * 2 ^ 32 + sliceOf pa * 2 ^ 35)
/-- R283. -/
def execLocq (g : Guard) (d : SReg) (s : State) : Out := scalarWord (.locq g d) g d s fun _ => locqCaller s s.cur.core
/-- R283: never faults. -/
def execLocqAddr (g : Guard) (d a : VReg) (s : State) : Out :=
  onWarp (.locqAddr g d a) s fun w m v =>
    v.vsetW .w64 d.toNat (fun l => locqAddress s (s.ctxNo w) (w.vpair a.toNat l)) (w.acts m g)

end Sys2Proof.Machine
end

