-- ==== Sys2Proof/Machine/Crc.lean ====
section
/-! DEFINITION. The signature function of R167: CRC-32C, fed one byte at a time. -/

namespace Sys2Proof.Machine
open Sys2Proof

/-- One bit of the reflected division. -/
def crcBit (c : Word) : Word := if c.getLsbD 0 then (c >>> 1) ^^^ 0x82F63B78 else c >>> 1
/-- Feed one byte to the running value. -/
def crcByte (c : Word) (b : Byte) : Word :=
  crcBit (crcBit (crcBit (crcBit (crcBit (crcBit (crcBit (crcBit (c ^^^ b.zeroExtend 32))))))))
/-- The running value before any byte. -/
def crcInit : Word := 0xFFFFFFFF
/-- Feed a word, least significant byte first. -/
def crcWord (c w : Word) : Word :=
  crcByte (crcByte (crcByte (crcByte c (w.extractLsb' 0 8)) (w.extractLsb' 8 8)) (w.extractLsb' 16 8)) (w.extractLsb' 24 8)
/-- The value from the running value. -/
def crcFinal (c : Word) : Word := ~~~c
/-- R167 over a list of bytes. -/
def crc32c (bs : List Byte) : Word := crcFinal (bs.foldl crcByte crcInit)

end Sys2Proof.Machine
end

