-- ==== Sys2Proof/Machine/Sequencer.lean ====
section
/-! DEFINITION. The tensor sequencer and the matrix array (chapter 15): the schedule of reads and landings (R309, R310), the
words of majors 0x3C to 0x3E, segments and their recovery (R320 to R322, R427), and the drain at a halt (R410 to R412). -/

namespace Sys2Proof.Machine
open Sys2Proof

/-! ### State -/

/-- c(r). -/
def Seq.reg (q : Seq) (r : Nat) : DWord := sget 0 q.c r
/-- The pair of handle `j` (R305). -/
def Seq.pair (q : Seq) (j : Nat) : DWord × DWord := (q.reg (2 * j), q.reg (2 * j + 1))
/-- The team that a core's sequencer works for, while it runs. -/
def State.seqTeam (s : State) (k : Nat) : Option (Nat × Team) :=
  let q := (s.core k).seq
  if q.running then (s.team? q.team).map fun tm => (q.team, tm) else none
/-- Warps of a team by its number. -/
def State.teamCount (s : State) (tm : Team) : Nat :=
  match s.grid? tm.grid with
  | some g => g.teamWarps
  | none => 1
/-- Pool tiles of a team. -/
def State.teamPool (s : State) (tm : Team) : Nat :=
  match s.grid? tm.grid with
  | some g => g.lr.pool
  | none => 0
/-- The context of a team. -/
def State.teamCtx (s : State) (tm : Team) : Nat :=
  match s.grid? tm.grid with
  | some g => g.lr.ctx
  | none => 0
/-- A warp of a team by number, on any of its cores. -/
def State.teamWarp (s : State) (tid n : Nat) : Option (Nat × Nat × Warp) := (s.teamWarps tid).find? fun x => x.2.2.num == n
/-- The four bytes from a scratchpad address (R81), as performed. -/
def State.spadWord (s : State) (k g a : Nat) : Word :=
  match s.spadAddr k g a with
  | some loc => loWord (ofBytes (s.bytes loc 4))
  | none => 0
/-- The words of a row of a descriptor operand: 32 words of tile `t`, row `r`. -/
def State.spadRow (s : State) (k g : Nat) (da db : Word) (t r : Nat) : List Word :=
  (List.range 32).map fun c => s.spadWord k g ((descOf da db).phys t r (4 * c))

/-! ### Landings (R309, R310, R319) -/

/-- Drop operand-cache entries of a core. -/
def State.dropCache (s : State) (k : Nat) (p : CacheEntry → Bool) : State :=
  s.modSeq k fun q => { q with cache := q.cache.filter fun e => !p e }
/-- Write scratchpad words at locations. -/
def putWords (m : List Host.Cell) : List (Nat × Word) → List Host.Cell
  | [] => m
  | (loc, x) :: r => putWords (putBytes m loc (bytesOf 4 (x.zeroExtend 64))) r
/-- The scratchpad that a location lies in: a number for each core. -/
def spadOf (loc : Nat) : Nat := loc / 2 ^ 20
/-- A row lands: in a tile of the team, or in scratchpad, where every cache of the cluster drops the entries filled from that
scratchpad (R319). -/
def State.landRow (s : State) (k tid h g : Nat) (l : Landing) : State :=
  match l.row with
  | .tile t row =>
    s.modTeam tid fun tm =>
      (l.words.zipIdx).foldl (fun tm x => if l.mask.getLsbD x.2 then tm.tput h t row x.2 x.1 else tm) tm
  | .spad da db tile row =>
    let ws := ((l.words.zipIdx).filter fun x => l.mask.getLsbD x.2).filterMap fun x =>
      (s.spadAddr k g ((descOf da db).phys tile row (4 * x.2))).map fun loc => (loc, x.1)
    let s := { s with mem := putWords s.mem ws }
    let hit (e : CacheEntry) : Bool := ws.any fun x => e.bytes.any fun b => spadOf b.1 == spadOf x.1
    (s.clusterCores k ++ [k]).foldl (fun s j => s.dropCache j hit) s
/-- Landings in the issue order of their operations: a later-issued one of the same cycle comes after (R309). -/
def insertLanding (l : Landing) : List Landing → List Landing
  | [] => [l]
  | x :: r => if l.by_ < x.by_ then l :: x :: r else x :: insertLanding l r
/-- The landings due at the sequencer's cycle are made, before the reads of that cycle. (DESIGN CHOICE, log entry 74.) -/
def State.landDue (s : State) (k : Nat) : State :=
  match s.seqTeam k with
  | none => s
  | some (tid, tm) =>
    let q := (s.core k).seq
    let s := (q.landings.filter fun l => decide (l.at_ ≤ q.cycle)).foldl (fun s l => s.landRow k tid q.half tm.grid l) s
    s.modSeq k fun q => { q with landings := q.landings.filter fun l => !decide (l.at_ ≤ q.cycle) }

/-! ### Reads (Table 15.2, Table 15.3) -/

/-- Key of a word an operation has read: operand, tile, row, word column. -/
def dataKey (x t r c : Nat) : Nat := 65536 * x + 1024 * t + 32 * r + c
/-- A word an operation has read. -/
def readData (d : List (Nat × Word)) (x t r c : Nat) : Word := sget 0 d (dataKey x t r c)
/-- Keep the words of a row. -/
def putRow (d : List (Nat × Word)) (x t r : Nat) (ws : List (Nat × Word)) : List (Nat × Word) :=
  ws.foldl (fun d w => sput 0 d (dataKey x t r w.1) w.2) d
/-- The (tile, word column) places of the words of one row of a group of `cols` elements of `bits` bits. -/
def rowPlaces (bits cols row : Nat) : List (Nat × Nat) :=
  ((List.range cols).flatMap fun j =>
    let p := elemPlace bits cols row j
    if bits = 64 then [(p.1, p.2.2), (p.1, p.2.2 + 1)] else [(p.1, p.2.2)]).eraseDups
/-- A source of the matrix array: a tile, or a descriptor with its handle's tag and whether cached values are taken. -/
structure MmaSource where
  tile : Option Nat
  da : Word
  db : Word
  tag : Nat
  cached : Bool
  deriving DecidableEq, Repr
/-- Handle and generation of a tag (R319). -/
def cacheTag (h : Nat) (g : Half) : Nat := 65536 * h + g.toNat
/-- The cached word at a location under a tag. -/
def cachedWord (q : Seq) (tag loc : Nat) : Option Word :=
  match q.cache.find? fun e => cacheTag e.handle e.gen == tag with
  | none => none
  | some e =>
    match sfind e.bytes loc, sfind e.bytes (loc + 1), sfind e.bytes (loc + 2), sfind e.bytes (loc + 3) with
    | some a, some b, some c, some d => some (loWord (ofBytes [a, b, c, d]))
    | _, _, _, _ => none
/-- The bytes a read returned, in an entry. -/
def CacheEntry.add (e : CacheEntry) (loc : Nat) (x : Word) : CacheEntry :=
  { e with bytes := ((bytesOf 4 (x.zeroExtend 64)).zipIdx).foldl (fun m b => sinsert m (loc + b.2) b.1) e.bytes }
/-- Does an operand cache need a place for an entry of a tag: it is full and holds none? (DESIGN CHOICE, log entry 43.) -/
def cacheFull (q : Seq) (tag : Nat) : Bool :=
  decide (8 ≤ q.cache.length) && !(q.cache.any fun e => cacheTag e.handle e.gen == tag)
/-- Fill the entry of a tag with a word; in a full cache the entry that gives way is free (R319). (DESIGN CHOICE, log entry 43.) -/
def fillCache (q : Seq) (tag loc : Nat) (x : Word) (pick : Nat) : Seq :=
  let mine (e : CacheEntry) : Bool := cacheTag e.handle e.gen == tag
  if q.cache.any mine then { q with cache := q.cache.map fun e => if mine e then e.add loc x else e }
  else
    let e : CacheEntry := (⟨tag / 65536, BitVec.ofNat 16 tag, []⟩ : CacheEntry).add loc x
    { q with cache := (if cacheFull q tag then q.cache.eraseIdx pick else q.cache) ++ [e] }
/-- One word of a source of the array, as a read at this cycle returns it; a descriptor's fills the operand cache (R319). -/
def State.mmaWord (s : State) (k g h : Nat) (tm : Team) (src : MmaSource) (t row col : Nat) : Word × State :=
  match src.tile with
  | some t0 => (tm.tget h (t0 + t) row col, s)
  | none =>
    match s.spadAddr k g ((descOf src.da src.db).phys t row (4 * col)) with
    | none => (0, s)
    | some loc =>
      let x := match if src.cached then cachedWord (s.core k).seq src.tag loc else none with
        | some x => x
        | none => loWord (ofBytes (s.bytes loc 4))
      let pick := s.fresh
      let s := if cacheFull (s.core k).seq src.tag then { s with fresh := s.fresh + 1 } else s
      (x, s.modSeq k fun q => fillCache q src.tag loc x ((Config.freeByte pick).toNat % 8))
/-- The words of one row of a source are read into an operation's data. -/
def State.mmaRow (s : State) (k g h : Nat) (tm : Team) (src : MmaSource) (x bits cols row : Nat) (d : List (Nat × Word)) :
    List (Nat × Word) × State :=
  (rowPlaces bits cols row).foldl (fun (acc : List (Nat × Word) × State) p =>
    let (w, s) := acc.2.mmaWord k g h tm src p.1 (row % 32) p.2
    (sput 0 acc.1 (dataKey x p.1 (row % 32) p.2) w, s)) (d, s)

/-- An element of the array's result (R132 to R134, R317). -/
def mmaElement (ty : MmaTy) (acc : Bool) (n : Nat) (d : List (Nat × Word)) (i j : Nat) : Nat :=
  let kk := mmaK ty
  let a (x : Nat) : Nat := elemBits (mmaBits ty) kk i x (readData d 0)
  let b (x : Nat) : Nat := elemBits (mmaBits ty) n x j (readData d 1)
  let c : Nat := elemBits (mmaAccBits ty) n i j (readData d 2)
  let fl (f : Fmt) : Nat :=
    mmaF32 (if acc then c else f32MinusZero)
      ((List.range (kk / 8)).map fun g => (List.range 8).map fun x => (f.value (a (8 * g + x)), f.value (b (8 * g + x))))
  let int (v : Nat → Int) : Nat :=
    (((List.range kk).foldl (fun t x => t + v (a x) * v (b x)) (if acc then (c : Int) else 0)) % 2 ^ 32).toNat
  match ty with
  | .f64 => mmaF64 (if acc then c else f64MinusZero) ((List.range kk).map fun x => (a x, b x))
  | .f16 => fl f16
  | .bf16 => fl bf16
  | .f8e4 => fl f8e4
  | .f8e5 => fl f8e5
  | .f4e2 => fl f4e2
  | .i8 => int (sext 8)
  | .i4 => int (sext 4)
  | .n4 => int fun x => (x : Nat)
/-- The landing rows of an MMA's D group. -/
def mmaLandings (ty : MmaTy) (acc : Bool) (m n td at_ by_ : Nat) (d : List (Nat × Word)) : List Landing :=
  let e := rowElems (mmaAccBits ty)
  let cb := ceilDiv n e
  (List.range m).flatMap fun i => (List.range cb).map fun b =>
    let cols := min e (n - b * e)
    let ws := if ty = .f64 then
        (List.range cols).flatMap fun j =>
          let x := mmaElement ty acc n d i (b * e + j)
          [BitVec.ofNat 32 x, BitVec.ofNat 32 (x / 2 ^ 32)]
      else (List.range cols).map fun j => BitVec.ofNat 32 (mmaElement ty acc n d i (b * e + j))
    { at_ := at_, by_ := by_, row := .tile (td + i / 32 * cb + b) (i % 32), mask := BitVec.ofNat 32 (2 ^ ws.length - 1), words := ws }
/-- A dense row of SGATHER from its row pointers `p0` and `p1` (R315). (DEDUCED, log entry 44.) -/
def gatherRow (s : State) (k g : Nat) (p0 p1 : Word) (idx val : Nat) (ctl : DWord) : List Word :=
  let col0 := ctl.toNat / 2 ^ 16 % 2 ^ 16
  let nnz := ctl.toNat / 2 ^ 32 % 2 ^ 24
  let wide := ctl.getLsbD 56
  let e := if wide then 32 else 64
  let b := min p0.toNat nnz
  let f := min p1.toNat nnz
  let halfAt (a : Nat) : Nat := (s.spadWord k g (a / 4 * 4)).toNat / 2 ^ (8 * (a % 4)) % 2 ^ 16
  (List.range (min f (b + e) - b)).foldl (fun ws y =>
    let x := b + y
    let ix := halfAt (idx + 2 * x)
    if ix < col0 ∨ col0 + e ≤ ix then ws
    else
      let c := ix - col0
      if wide then ws.set c (s.spadWord k g (val + 4 * x))
      else
        let v := halfAt (val + 2 * x)
        let old := (ws.getD (c / 2) 0).toNat
        let sh := 16 * (c % 2)
        ws.set (c / 2) (BitVec.ofNat 32 (old - old / 2 ^ sh % 2 ^ 16 * 2 ^ sh + v * 2 ^ sh))) (List.replicate 32 0)
/-- A column of words of tile `t` of a descriptor operand, rows 0 to 31. -/
def State.spadColumn (s : State) (k g : Nat) (da db : Word) (t c : Nat) : List Word :=
  (List.range 32).map fun r => s.spadWord k g ((descOf da db).phys t r (4 * c))
/-- A full row that lands in a tile. -/
def tileLanding (at_ by_ t row : Nat) (ws : List Word) : Landing := ⟨at_, by_, .tile t row, ~~~0, ws⟩
/-- Row of a transposed 16-bit matrix: the low or high halves of a word column of the two source tiles (R313). -/
def packHalves (hi : Bool) (col : Nat → Word) : List Word :=
  let el (j : Nat) : Nat := (col j).toNat / (if hi then 2 ^ 16 else 1) % 2 ^ 16
  (List.range 32).map fun w => BitVec.ofNat 32 (el (2 * w) + 2 ^ 16 * el (2 * w + 1))
/-- The key under which an operation keeps how many rows of a shared A it has. -/
def sharedKey : Nat := dataKey 3 0 0 0
/-- Rows of a shared A that a partner's read has delivered (R318). -/
def delivered (d : List (Nat × Word)) : Nat := (sget 0 d sharedKey).toNat
/-- The rows of A that one member has read up to row `n` are delivered to another (R318). -/
def deliverA (d : List (Nat × Word)) (n : Nat) (x : List (Nat × Word)) : List (Nat × Word) :=
  if n ≤ delivered x then x
  else sput 0 (d.foldl (fun m y => if y.1 / 65536 = 0 then sput 0 m y.1 y.2 else m) x) sharedKey (BitVec.ofNat 32 n)
/-- Rows of A that an operation has read once its reads of `done` cycles are performed. -/
def rowsRead (kind : SeqKind) (done : Nat) : Nat :=
  match kind with
  | .mma ty _ m n .. => ((List.range m).filter fun i => decide (i * mmaI ty m n / m < done)).length
  | _ => 0
/-- What an operation of a co-operative group has read of A reaches the other members' arrays (R318). -/
def State.shareA (s : State) (k : Nat) (op : SeqOp) : State :=
  if op.co = 0 then s
  else
    ((s.clusterCores k).filter (· != k)).foldl (fun s j => s.modSeq j fun q =>
      { q with ops := q.ops.map fun o =>
          if o.co = op.co then { o with data := deliverA op.data (rowsRead op.kind op.done) o.data } else o }) s
/-- The reads of an operation that are due at cycle `q` after its issue, and the landings they complete. -/
def State.readStep (s : State) (k g h : Nat) (tm : Team) (op : SeqOp) (q : Nat) : List (Nat × Word) × List Landing × State :=
  let due (n : Nat) : Nat := op.c + n + op.late
  match op.kind with
  | .tld td da db _ =>
    (op.data, [tileLanding (due (q + 16)) op.c (td + q / 32) (q % 32) (s.spadRow k g da db (q / 32) (q % 32))], s)
  | .tst ta da db _ =>
    let ws := (List.range 32).map fun c => tm.tget h (ta + q / 32) (q % 32) c
    (op.data, [⟨due (q + 16), op.c, .spad da db (q / 32) (q % 32), ~~~0, ws⟩], s)
  | .tldTr td da db e32 n =>
    if e32 && n == 1 then
      (op.data, [tileLanding (due (q + 16)) op.c td q (s.spadColumn k g da db 0 q)], s)
    else if e32 then
      let i := q / 2
      let d := putRow op.data (q % 2) 0 0 ((s.spadColumn k g da db (2 * (q % 2) + i / 32) (i % 32)).zipIdx.map fun x => (x.2, x.1))
      if q % 2 = 0 then (d, [], s)
      else
        let half (x : Nat) : List Word := (List.range 32).map fun c => readData d x 0 0 c
        (d, [tileLanding (due (q + 16)) op.c (td + i / 32 * 2) (i % 32) (half 0),
          tileLanding (due (q + 16)) op.c (td + i / 32 * 2 + 1) (i % 32) (half 1)], s)
    else
      let w := q / 2
      let d := putRow op.data (q % 2) 0 0 ((s.spadColumn k g da db (q % 2) w).zipIdx.map fun x => (x.2, x.1))
      if q % 2 = 0 then (d, [], s)
      else
        let col (j : Nat) : Word := readData d (j / 32) 0 0 (j % 32)
        (d, [tileLanding (due (q + 16)) op.c (td + 2 * w / 32) (2 * w % 32) (packHalves false col),
          tileLanding (due (q + 16)) op.c (td + (2 * w + 1) / 32) ((2 * w + 1) % 32) (packHalves true col)], s)
  | .sgather td ptr idx val ctl =>
    let p := ptr.toNat + 4 * (ctl.toNat % 2 ^ 16 + q / 2)
    if q % 2 = 0 then (putRow op.data 0 0 0 [(0, s.spadWord k g p), (1, s.spadWord k g (p + 4))], [], s)
    else
      let ws := gatherRow s k g (readData op.data 0 0 0 0) (readData op.data 0 0 0 1) idx.toNat val.toNat ctl
      (op.data, [tileLanding (due (q + 23)) op.c td (q / 2) ws], s)
  | .mma ty acc m n td a b da db ha hb ca cb =>
    let sa : MmaSource := ⟨a, loWord da.1, loWord da.2, ha, ca⟩
    let sb : MmaSource := ⟨b, loWord db.1, loWord db.2, hb, cb⟩
    let (d, s) := if q = 0 then
        (List.range (mmaK ty)).foldl (fun (x : List (Nat × Word) × State) r =>
          x.2.mmaRow k g h tm sb 1 (mmaBits ty) n r x.1) (op.data, s)
      else (op.data, s)
    let rows := (List.range m).filter fun i => i * mmaI ty m n / m == q
    let (d, s) := (rows.filter fun i => decide (delivered op.data ≤ i)).foldl (fun (x : List (Nat × Word) × State) i =>
      x.2.mmaRow k g h tm sa 0 (mmaBits ty) (mmaK ty) i x.1) (d, s)
    let (d, s) := if acc then
        rows.foldl (fun (x : List (Nat × Word) × State) i =>
          x.2.mmaRow k g h tm ⟨some td, 0, 0, 0, false⟩ 2 (mmaAccBits ty) n i x.1) (d, s)
      else (d, s)
    (d, if q + 1 = readSpan op.kind then mmaLandings ty acc m n td (due (mmaL ty m n)) op.c d else [], s)
/-- Scratchpad locations that an operation reads at cycle `q` after its issue (R85). -/
def State.readLocs (s : State) (k g : Nat) (op : SeqOp) (q : Nat) : List Nat :=
  let col (da db : Word) (t c : Nat) : List Nat := (List.range 32).flatMap fun r => wordEnds ((descOf da db).phys t r (4 * c))
  let rows (da db : Word) (bits cols row : Nat) : List Nat :=
    (rowPlaces bits cols row).flatMap fun p => wordEnds ((descOf da db).phys p.1 (row % 32) (4 * p.2))
  let addrs := match op.kind with
    | .tld _ da db _ => (List.range 32).flatMap fun c => wordEnds ((descOf da db).phys (q / 32) (q % 32) (4 * c))
    | .tst .. => []
    | .tldTr _ da db e32 n =>
      if e32 && n == 1 then col da db 0 q
      else if e32 then col da db (2 * (q % 2) + q / 2 / 32) (q / 2 % 32)
      else col da db (q % 2) (q / 2)
    | .sgather _ ptr idx val ctl =>
      if q % 2 = 0 then
        let p := ptr.toNat + 4 * (ctl.toNat % 2 ^ 16 + q / 2)
        [p, p + 4]
      else
        let nnz := ctl.toNat / 2 ^ 32 % 2 ^ 24
        let b := min (readData op.data 0 0 0 0).toNat nnz
        let e := if ctl.getLsbD 56 then 32 else 64
        let f := min (min (readData op.data 0 0 0 1).toNat nnz) (b + e)
        (List.range (f - b)).flatMap fun x => [idx.toNat + 2 * (b + x), val.toNat + (if ctl.getLsbD 56 then 4 else 2) * (b + x)]
    | .mma ty _ m n _ a b da db .. =>
      (if q = 0 ∧ b = none then
        (List.range (mmaK ty)).flatMap fun r => rows (loWord db.1) (loWord db.2) (mmaBits ty) n r else []) ++
      (if a = none then
        ((List.range m).filter fun i => i * mmaI ty m n / m == q).flatMap fun i =>
          rows (loWord da.1) (loWord da.2) (mmaBits ty) (mmaK ty) i else [])
  addrs.filterMap fun a => s.spadAddr k g a
/-- One operation performs the reads due at the sequencer's cycle. With the debug flag, a read of a word with a pending write
takes SPAD_EARLY instead (R85). -/
def State.stepOp (s : State) (k : Nat) (chk : Bool) (i : Nat) : State :=
  match s.seqTeam k, (s.core k).seq.ops[i]? with
  | some (tid, tm), some op =>
    let q := (s.core k).seq
    if readSpan op.kind ≤ op.done ∨ q.cycle < op.c + op.done then s
    else
      match if chk then (s.readLocs k tm.grid op op.done).find? s.spadPending else none with
      | some loc =>
        if tm.halted then s else seqTrap k op.pc { cause := .spadEarly, faddr := BitVec.ofNat 64 ((loc - spadBase) % 2 ^ 20) } s
      | none =>
        let (d, ls, s) := s.readStep k tm.grid q.half ((s.team? tid).getD tm) op op.done
        let op := { op with done := op.done + 1, data := d }
        (s.modSeq k fun q =>
          { q with
            ops := q.ops.set i op
            landings := ls.foldl (fun xs l => insertLanding l xs) q.landings }).shareA k op
  | _, _ => s
/-- Every operation performs its reads due at the sequencer's cycle; one that has none left is done. -/
def State.readDue (s : State) (k : Nat) (chk : Bool) : State :=
  let s := (List.range (s.core k).seq.ops.length).foldl (fun s i => s.stepOp k chk i) s
  s.modSeq k fun q => { q with ops := q.ops.filter fun op => decide (op.done < readSpan op.kind) }
/-- May the sequencer of a core run a cycle: it works for a team that is not halted? -/
def State.seqLive (s : State) (k : Nat) : Bool :=
  match s.seqTeam k with
  | some (_, tm) => !tm.halted
  | none => false
/-- The rest of a sequencer cycle after its issue: reads, and the next cycle. -/
def State.endCycle (s : State) (k : Nat) : State :=
  let s := s.readDue k true
  if s.seqLive k then s.modSeq k fun q => { q with cycle := q.cycle + 1, issued := false } else s
/-- Does a core's sequencer run its cycles: it is live and not stalled (R307)? -/
def State.seqRuns (s : State) (k : Nat) : Bool :=
  s.seqLive k && (s.core k).seq.wait == .none && !(s.core k).mgn.settling && (s.core k).mgn.testing.isNone
/-- R310: the landings due at the sequencer's cycle. -/
def execSeqWriteLanding (core : Nat) (s : State) : Out := .next (if s.seqRuns core then s.landDue core else s)
/-- R310: the reads due at the sequencer's cycle, once its bundle has issued. Where an error is latent, they come with the end of the cycle,
which sees whether one of them consumes it (R425). -/
def execSeqReadDone (core : Nat) (s : State) : Out :=
  .next (if s.seqRuns core && (s.core core).seq.issued && s.cores.all (fun x => x.2.latent.isEmpty) then s.readDue core true else s)

/-! ### The drain at a halt (R410 to R412) -/

/-- Cycles of a drain on a copy of the state: landings are collected, and later reads see them. (DEDUCED, log entry 26.) -/
def drainRun (k : Nat) : Nat → State → List Landing → List Landing
  | 0, _, acc => acc
  | n + 1, s, acc =>
    let q := (s.core k).seq
    if q.ops.isEmpty && q.landings.isEmpty then acc
    else
      let due := q.landings.filter fun l => decide (l.at_ ≤ q.cycle)
      let s := (s.landDue k).readDue k false
      drainRun k n (s.modSeq k fun q => { q with cycle := q.cycle + 1 }) (acc ++ due)
/-- The sequencer's operations in flight are drained: every due write is captured. (DEDUCED, log entry 26.) -/
def State.drainSeq (s : State) (k : Nat) : State :=
  let ls := drainRun k 160 s []
  s.modSeq k fun q => { q with ops := [], landings := [], captured := q.captured ++ ls }
/-- R410: a halted team's sequencer has drained. -/
def execSeqHaltDrainEnd (core : Nat) (s : State) : Out :=
  .next (match s.seqTeam core with
    | some (_, tm) => if tm.halted then s.drainSeq core else s
    | none => s)
/-- Has a core's sequencer nothing left to drain? -/
def State.drained (s : State) (k : Nat) : Bool := (s.core k).seq.ops.isEmpty && (s.core k).seq.landings.isEmpty
/-- The sequencer resumes: what was captured lands at the cycles it had (R412), and a trap's stop ends. -/
def State.resumeSeq (s : State) (k : Nat) : State :=
  (s.drainSeq k).modSeq k fun q =>
    { q with
      landings := q.captured, captured := []
      wait := match q.wait with
        | .stopped => .none
        | w => w }

/-! ### Checks (R192, R471) -/

/-- Tiles a word of the sequencer names: those it needs owned, and those only within the pool. -/
def seqTiles : Instr → List Nat × List Nat
  | .tld td _ n | .tldTr td _ _ n => (tileRange td.toNat (n.toNat + 1), [])
  | .tst _ ta n => (tileRange ta.toNat (n.toNat + 1), [])
  | .sgather td _ => ([td.toNat], [])
  | .mma ty _ _ m n td a b =>
    let (na, nb, nd) := mmaTiles ty (mmaDim ty m) (mmaDim ty n)
    let grp (c : Nat) : MSrc → List Nat
      | .t r => tileRange r.toNat c
      | .h _ => []
    (grp na a ++ grp nb b ++ tileRange td.toNat nd, [])
  | .seqGive t _ => ([t.toNat], [])
  | .seqTake t => ([], [t.toNat])
  | _ => ([], [])
/-- Does an MMA's D group share a tile with A or B (R316)? -/
def mmaOverlap : Instr → Bool
  | .mma ty _ _ m n td a b =>
    let (na, nb, nd) := mmaTiles ty (mmaDim ty m) (mmaDim ty n)
    let grp (c : Nat) : MSrc → List Nat
      | .t r => tileRange r.toNat c
      | .h _ => []
    meets (tileRange td.toNat nd) (grp na a ++ grp nb b)
  | _ => false
/-- Handles whose descriptor a word reads. -/
def seqHandles : Instr → List Nat
  | .tld _ h _ | .tldTr _ h _ _ | .tst h _ _ => [h.toNat]
  | .mma _ _ _ _ _ _ a b => hs a ++ hs b
  | _ => []
where
  /-- The handle of a source. -/
  hs : MSrc → List Nat
    | .h j => [j.toNat]
    | .t _ => []
/-- Is a TLD.tr geometry one of Table 15.3? -/
def trOk (e32 : Bool) (n : BitVec 2) : Bool := if e32 then n == 0 || n == 3 else n == 1
/-- Reserved bits of an SGATHER descriptor. -/
def gatherReserved (q : Seq) (h : Nat) : Bool :=
  hiWord (q.reg (4 * h)) != 0 || hiWord (q.reg (4 * h + 1)) != 0 || hiWord (q.reg (4 * h + 2)) != 0 ||
    (q.reg (4 * h + 3)).toNat / 2 ^ 57 != 0
/-- The destination of a sequencer GIVE (R287, R327). -/
def State.seqGiveTo (s : State) (k tid : Nat) (tm : Team) (n : Nat) : Option Nat :=
  if s.teamCount tm ≤ n then none
  else
    match s.slotOf k tid n with
    | none => none
    | some d =>
      match s.warp? k d with
      | some x => if x.retired then none else some d
      | none => none
/-- Illegal-operand of a sequencer word (R471). -/
def seqOperandBad (s : State) (k tid : Nat) (tm : Team) (q : Seq) (i : Instr) : Bool :=
  ((seqHandles i).any fun j => !descLegal (q.pair j).1 (q.pair j).2) ||
    match i with
    | .tldTr _ _ e32 n => !trOk e32 n
    | .sgather _ h => gatherReserved q h.toNat
    | .mma _ _ co _ _ _ a _ => co && (match a with
      | .h j => !windowed (loWord (q.pair j.toNat).1).toNat
      | .t _ => true)
    | .sloop n => n == 0
    | .sloopReg c => loWord (q.reg c.toNat) == 0 || decide (2 ^ 24 < (loWord (q.reg c.toNat)).toNat)
    | .swaitb n _ => decide (s.teamCount tm ≤ n.toNat)
    | .seqGive _ n => (s.seqGiveTo k tid tm n.toNat).isNone
    | _ => false
/-- Does the sequencer stand at the SEGH of a segment that restarts (R427)? -/
def Seq.restarts (q : Seq) : Bool :=
  match q.seg with
  | some g => g.alarmed && g.pc == q.pc && g.count == 0
  | none => false
/-- SEQ_ORDER of a word (R322, R323, R328). (DEDUCED, log entry 27.) -/
def seqOrderBad (q : Seq) : Instr → Bool
  | .nop _ => false
  | .segh .. => q.seg.isSome && !q.restarts
  | .sege => q.seg.isNone || !q.loops.isEmpty
  | .sloop _ | .sloopReg _ => q.seg.isNone || decide (4 ≤ q.loops.length)
  | .slend => q.seg.isNone || q.loops.isEmpty
  | .shalt => q.seg.isNone || !q.loops.isEmpty
  | _ => q.seg.isNone
/-- Scratchpad addresses of the words of a descriptor group that a word uses. -/
def seqAddrs (q : Seq) (i : Instr) : List Nat :=
  let full (j n : Nat) : List Nat :=
    let d := descOf (loWord (q.pair j).1) (loWord (q.pair j).2)
    (List.range n).flatMap fun t => (List.range 32).flatMap fun r => (List.range 32).flatMap fun c => wordEnds (d.phys t r (4 * c))
  let group (j bits rows cols : Nat) : List Nat :=
    let d := descOf (loWord (q.pair j).1) (loWord (q.pair j).2)
    (List.range rows).flatMap fun r => (rowPlaces bits cols r).flatMap fun p => wordEnds (d.phys p.1 (r % 32) (4 * p.2))
  match i with
  | .tld _ h n | .tst h _ n => full h.toNat (n.toNat + 1)
  | .tldTr _ h _ n => full h.toNat (n.toNat + 1)
  | .mma ty _ _ m n _ a b =>
    (match a with
      | .h j => group j.toNat (mmaBits ty) (mmaDim ty m) (mmaK ty)
      | .t _ => []) ++
    (match b with
      | .h j => group j.toNat (mmaBits ty) (mmaK ty) (mmaDim ty n)
      | .t _ => [])
  | _ => []
/-- Does an array of `n` bytes with entries of `e` bytes lie within scratchpad, aligned (R315)? -/
def State.arrayOk (s : State) (k g a n e : Nat) : Bool :=
  n == 0 || (a % e == 0 && match s.spadAddr k g a, s.spadAddr k g (a + n - 1) with
    | some x, some y => y - x == n - 1
    | _, _ => false)
/-- SPAD_RANGE of a word: the first address that fails, or an array of SGATHER (R311, R315). -/
def seqSpadBad (s : State) (k g : Nat) (q : Seq) (i : Instr) : Option Nat :=
  match i with
  | .sgather _ h =>
    let r (x : Nat) : DWord := q.reg (4 * h.toNat + x)
    let ctl := (r 3).toNat
    let nnz := ctl / 2 ^ 32 % 2 ^ 24
    if !s.arrayOk k g (r 0).toNat (4 * (ctl % 2 ^ 16 + 33)) 4 then some (r 0).toNat
    else if !s.arrayOk k g (r 1).toNat (2 * nnz) 2 then some (r 1).toNat
    else
      let e := if (r 3).getLsbD 56 then 4 else 2
      if !s.arrayOk k g (r 2).toNat (e * nnz) e then some (r 2).toNat else none
  | i => (seqAddrs q i).find? fun a => (s.spadAddr k g a).isNone
/-- The slot of a word: QL 0, QM 1, QS 2. -/
def seqSlot : Instr → Option Nat
  | .tld .. | .tldTr .. | .sgather .. => some 0
  | .mma .. => some 1
  | .tst .. => some 2
  | _ => none
/-- R192 step 3.4 for a sequencer word, in R471's order. (DEDUCED, log entry 27.) -/
def seqDecodeTrap (s : State) (k tid : Nat) (tm : Team) (q : Seq) (i : Instr) : Option Trap :=
  let n := s.teamPool tm
  firstTrap [
    trapIf (((seqTiles i).1 ++ (seqTiles i).2).any fun t => decide (n ≤ t)) .tileRange,
    trapIf (mmaOverlap i) .illOverlap,
    trapIf (seqOperandBad s k tid tm q i) .illOperand]
/-- R471 step 2. -/
def seqIssueTrap (s : State) (k : Nat) (tm : Team) (q : Seq) (i : Instr) : Option Trap :=
  firstTrap [
    trapIf (seqOrderBad q i) .seqOrder,
    trapIf ((seqTiles i).1.any fun t => (tm.tile q.half t).owner != .seq) .tileOwn,
    (seqSpadBad s k tm.grid q i).map fun a => { cause := .spadRange, faddr := BitVec.ofNat 64 a },
    trapIf (match seqSlot i with
      | some x => decide (q.cycle < sget 0 q.slots x)
      | none => false) .seqSlot]
/-- A word of the sequencer stream: without a running sequencer there is no actor; a word that fails a check takes its trap, and
one that passes has its effect, given the sequencer as the bundle found it. (DEDUCED, log entry 33.) -/
def seqWord (i : Instr) (s : State) (eff : Nat → Team → Seq → State → State) : Out :=
  let k := s.cur.core
  match s.seqTeam k with
  | none => .fault .noActor
  | some (tid, tm) =>
    let q := (s.core k).seq
    match if s.cur.checked then none else firstTrap [seqDecodeTrap s k tid tm q i, seqIssueTrap s k tm q i] with
    | some t => .next (seqTrap k q.pc t s)
    | none => .next (eff tid tm q s)

/-! ### Loads, stores, gather, multiply (R312 to R318) -/

/-- An operation issues: it holds its slot and its reads and landings follow. -/
def State.addOp (s : State) (k : Nat) (kind : SeqKind) (late : Bool) (co : Nat := 0) : State :=
  s.modSeq k fun q =>
    { q with
      ops := q.ops ++ [⟨q.cycle, q.pc, kind, if late then 8 else 0, 0, [], co⟩]
      slots := sput 0 q.slots (slotOfKind kind) (q.cycle + slotSpan kind) }
/-- R312. -/
def execTld (td : TReg) (h : BitVec 4) (n : BitVec 2) (s : State) : Out :=
  seqWord (.tld td h n) s fun _ _ q s =>
    let p := q.pair h.toNat
    s.addOp s.cur.core (.tld td.toNat (loWord p.1) (loWord p.2) (n.toNat + 1)) (windowed (loWord p.1).toNat)
/-- R313. -/
def execTldTr (td : TReg) (h : BitVec 4) (e32 : Bool) (n : BitVec 2) (s : State) : Out :=
  seqWord (.tldTr td h e32 n) s fun _ _ q s =>
    let p := q.pair h.toNat
    s.addOp s.cur.core (.tldTr td.toNat (loWord p.1) (loWord p.2) e32 (n.toNat + 1)) (windowed (loWord p.1).toNat)
/-- R314. -/
def execTst (h : BitVec 4) (ta : TReg) (n : BitVec 2) (s : State) : Out :=
  seqWord (.tst h ta n) s fun _ _ q s =>
    let p := q.pair h.toNat
    s.addOp s.cur.core (.tst ta.toNat (loWord p.1) (loWord p.2) (n.toNat + 1)) (windowed (loWord p.1).toNat)
/-- R315. -/
def execSgather (td : TReg) (h : BitVec 3) (s : State) : Out :=
  seqWord (.sgather td h) s fun _ _ q s =>
    let r (x : Nat) : DWord := q.reg (4 * h.toNat + x)
    s.addOp s.cur.core (.sgather td.toNat (loWord (r 0)) (loWord (r 1)) (loWord (r 2)) (r 3))
      (windowed (r 0).toNat || windowed (r 1).toNat || windowed (r 2).toNat)
/-- The tile of a source, if it is one. -/
def mTile : MSrc → Option Nat
  | .t r => some r.toNat
  | .h _ => none
/-- The descriptor of a source's handle. -/
def mDesc (q : Seq) : MSrc → DWord × DWord
  | .t _ => (0, 0)
  | .h j => q.pair j.toNat
/-- The tag of a source's handle (R319). -/
def mTag (q : Seq) : MSrc → Nat
  | .t _ => 0
  | .h j => cacheTag j.toNat (sget 0 q.gen j.toNat)
/-- An MMA as an operation; free values say whether a source takes cached values (R319). -/
def mmaOp (q : Seq) (fresh : Nat) (ty : MmaTy) (acc : Bool) (m n : MmaDim) (td : TReg) (a b : MSrc) : SeqKind :=
  .mma ty acc (mmaDim ty m) (mmaDim ty n) td.toNat (mTile a) (mTile b) (mDesc q a) (mDesc q b) (mTag q a) (mTag q b)
    (Config.freeBit fresh) (Config.freeBit (fresh + 1))
/-- An MMA issues, under the number `co` of its rendezvous when it is co-operative. -/
def State.startMma (s : State) (k : Nat) (co : Nat) (ty : MmaTy) (acc : Bool) (m n : MmaDim) (td : TReg) (a b : MSrc) : State :=
  let q := (s.core k).seq
  let late := co != 0 || windowed (loWord (mDesc q a).1).toNat || windowed (loWord (mDesc q b).1).toNat
  let s := s.addOp k (mmaOp q s.fresh ty acc m n td a b) late co
  { s with fresh := s.fresh + 2 }
/-- The bundle of an MMA.co arrives at its rendezvous: it waits there as a whole, so that no word of it has an effect where the
rendezvous fails (R318, R330), and the reads of the cycle are performed (R348). (DEDUCED, log entry 66.) -/
def State.coArrive (s : State) (k : Nat) (i : Instr) (len : Nat) : State :=
  (s.modSeq k fun q => { q with wait := .mmaCo i len }).readDue k true
/-- R316 to R318: a co-operative one waits for its cluster, and issues once it has met. -/
def execMma (ty : MmaTy) (acc co : Bool) (m n : MmaDim) (td : TReg) (a b : MSrc) (s : State) : Out :=
  seqWord (.mma ty acc co m n td a b) s fun _ _ _ s =>
    let go := (s.core s.cur.core).seq.coGo
    if co && go == 0 then
      { s.coArrive s.cur.core (.mma ty acc co m n td a b) s.cur.len with cur := { s.cur with moved := true } }
    else s.startMma s.cur.core (if co then go else 0) ty acc m n td a b
/-- What the four words of a rendezvous must agree in (R318). -/
def coKey (q : Seq) : SeqWait → Option (MmaTy × Bool × Nat × Nat × DWord × DWord)
  | .mmaCo (.mma ty acc _ m n _ a _) _ => some (ty, acc, mmaDim ty m, mmaDim ty n, (mDesc q a).1, (mDesc q a).2)
  | _ => none
/-- Has a core's sequencer issued an MMA.co and waits? -/
def coWaiting (s : State) (k : Nat) : Bool := s.seqLive k && (coKey (s.core k).seq (s.core k).seq.wait).isSome
/-- The grid a core's sequencer works for. -/
def State.seqGrid (s : State) (k : Nat) : Option Nat := (s.seqTeam k).map fun x => x.2.grid
/-- R318: the members of a cluster that have issued an MMA.co meet, and their bundles issue in the same step. Where a member is missing
for good, or the words do not agree, each member takes illegal-operand. -/
def execMmaCoRendezvous (cluster : Nat) (s : State) : Out :=
  .next (
    let ks := [4 * cluster, 4 * cluster + 1, 4 * cluster + 2, 4 * cluster + 3].filterMap s.physical?
    let ws := ks.filter (coWaiting s)
    match ws with
    | [] => s
    | k0 :: _ =>
      let grid := s.seqGrid k0
      let bound := match grid.bind s.grid? with
        | some g => g.grouped
        | none => false
      let holds (k : Nat) : Bool := (s.resident k).any fun t => some t.2.grid == grid
      let key (k : Nat) : Option (MmaTy × Bool × Nat × Nat × DWord × DWord) := coKey (s.core k).seq (s.core k).seq.wait
      let bad := !bound || ks.length != 4 || !(ks.all holds)
      if bad || (ws.length == 4 && !(ws.all fun k => key k == key k0 && s.seqGrid k == grid)) then
        ws.foldl (fun s k => seqTrap k (s.core k).seq.pc { cause := .illOperand } s) s
      else if ws.length ≠ 4 then s
      else
        let (id, s) := s.newId
        ws.foldl (fun s k => s.modSeq k fun q => { q with wait := .none, coGo := id }) s)

/-! ### Segments (R320 to R322, R425 to R428) -/

/-- R320: the segment opens, and a copy of c and GEN is kept (R427). -/
def execSegh (cyc : BitVec 24) (sig : Word) (s : State) : Out :=
  seqWord (.segh cyc sig) s fun _ _ _ s =>
    s.modSeq s.cur.core fun q =>
      { q with seg := some ⟨q.pc, cyc, sig, 0, crcInit, false, match q.seg with
          | some g => g.alarmed
          | none => false⟩, copy := (q.c, q.gen) }
/-- The launch a record of a team names. -/
def State.launchOf (s : State) (tm : Team) : Option DWord :=
  (s.grid? tm.grid).map fun g => launchField g.lr.ctx g.win g.lr.seq tm.num
/-- Recovery is refused (R428): NO_RECOVERY is written and the team halts with CSTOP, its cause pair naming that record. -/
def State.refuseRecovery (s : State) (src tid : Nat) (seqr : Bool) (num : Nat) (pc : DWord) (pair : Nat × Nat) : State :=
  match s.team? tid with
  | none => s
  | some tm =>
    let d0 := if seqr then 64 else num
    let (p, s) := s.report { mkRecord src 0x16 3 pair pc (BitVec.ofNat 64 d0) 0 0 with launch := s.launchOf tm }
    s.cstop tid seqr p
/-- Operations in flight complete (R427). -/
def finishOps (k : Nat) : Nat → State → State
  | 0, s => s
  | n + 1, s =>
    if s.drained k then s
    else finishOps k n (((s.landDue k).readDue k false).modSeq k fun q => { q with cycle := q.cycle + 1 })
/-- Is error recovery host-assisted (FNMODE.ERR, R432)? -/
def State.errHost (s : State) : Bool := s.fnmode / 2 % 2 == 1
/-- The sequencer of a core rolls back (R427), or its team halts (R428). `pair` names the record that is the cause.
(DEDUCED, log entry 55.) -/
def State.seqRollback (s : State) (k : Nat) (pair : Nat × Nat) : State :=
  match s.seqTeam k with
  | none => s
  | some (tid, tm) =>
    let q := (s.core k).seq
    match q.seg with
    | none => s.refuseRecovery (seqSource k) tid true 0 q.pc pair
    | some g =>
      if g.settled || g.alarmed then s.refuseRecovery (seqSource k) tid true 0 q.pc pair
      else
        let s := finishOps k 160 s
        let s := s.modSeq k fun q =>
          { q with
            c := q.copy.1, gen := q.copy.2, cache := [], loops := [], pc := g.pc, issued := false, settling := false, armed := false,
            wait := .none, seg := some { g with alarmed := true, count := 0, crc := crcInit } }
        let (p, s) := s.report { mkRecord (seqSource k) 0x15 1 pair g.pc 64 0 0 with launch := s.launchOf tm }
        if s.errHost then s.cstop tid true p else s
/-- A segment alarm: its record, the pending self-test (R429), and recovery. (DEDUCED, log entry 55.) -/
def State.segAlarm (s : State) (k : Nat) (tm : Team) (g : Segment) (count : Nat) (sig : Word) : State :=
  let d0 := sig.toNat + count % 2 ^ 24 * 2 ^ 32
  let d1 := g.sig.toNat + g.cyc.toNat * 2 ^ 32
  let (p, s) := s.report { mkRecord (seqSource k) 0x14 2 (0, 0) g.pc (BitVec.ofNat 64 d0) (BitVec.ofNat 64 d1) 0 with
    launch := s.launchOf tm }
  let s := s.modMgn k fun m => if m.qreq then m else { m with seqTest := some p }
  s.seqRollback k p
/-- R322: the count, this bundle included, and the signature are compared; the segment closes, and an armed halt takes effect
(R328). -/
def execSege (s : State) : Out :=
  seqWord .sege s fun _ tm q s =>
    match q.seg with
    | none => s
    | some g =>
      let count := if s.cur.checked then g.count else g.count + 1
      if count = g.cyc.toNat ∧ crcFinal g.crc = g.sig then
        s.modSeq s.cur.core fun q => { q with seg := none, ended := q.ended || q.armed }
      else { s.segAlarm s.cur.core tm g count (crcFinal g.crc) with cur := { s.cur with moved := true } }

/-! ### Loops, addresses, waits (R323 to R328) -/

/-- A loop opens; its body starts at the next bundle. -/
def openLoop (i : Instr) (n : Seq → Nat) (s : State) : Out :=
  seqWord i s fun _ _ q s => s.modSeq s.cur.core fun v => { v with loops := v.loops ++ [(n q, s.nextPc)] }
/-- R323. -/
def execSloop (n : BitVec 12) (s : State) : Out := openLoop (.sloop n) (fun _ => n.toNat) s
/-- R323. -/
def execSloopReg (k : BitVec 5) (s : State) : Out := openLoop (.sloopReg k) (fun q => (loWord (q.reg k.toNat)).toNat) s
/-- R323: the body runs again while the count is above zero. -/
def execSlend (s : State) : Out :=
  seqWord .slend s fun _ _ q s =>
    match q.loops.getLast? with
    | none => s
    | some (n, body) =>
      if n ≤ 1 then s.modSeq s.cur.core fun v => { v with loops := v.loops.dropLast }
      else
        { s.modSeq s.cur.core (fun v => { v with loops := v.loops.dropLast ++ [(n - 1, body)], pc := body }) with
          cur := { s.cur with moved := true } }
/-- R324, R319. -/
def execSaddr (x2048 : Bool) (d a : BitVec 5) (imm : BitVec 6) (s : State) : Out :=
  seqWord (.saddr x2048 d a imm) s fun _ _ q s =>
    let j := d.toNat / 2
    s.modSeq s.cur.core fun v =>
      { v with
        c := sput 0 v.c d.toNat (q.reg a.toNat + BitVec.ofInt 64 (imm.toInt * (if x2048 then 2048 else 128)))
        gen := sput 0 v.gen j (sget 0 v.gen j + 1)
        cache := v.cache.filter fun e => e.handle != j }
/-- R325: has warp `n` of a team sealed a batch numbered at least `b`, and is every batch up to it complete? -/
def State.batchesDone (s : State) (tid n : Nat) (b : DWord) : Bool :=
  match s.teamWarp tid n with
  | some (_, _, w) => decide (b.toNat ≤ w.nb) && w.batchDone b.toNat
  | none =>
    match s.team? tid with
    | some tm => decide (b.toNat ≤ sget 0 tm.lastNb n)
    | none => false
/-- R325, R319: completes at once, or waits; its completion empties the operand cache. -/
def execSwaitb (n : BitVec 6) (k : BitVec 5) (s : State) : Out :=
  seqWord (.swaitb n k) s fun tid _ q s =>
    if s.batchesDone tid n.toNat (q.reg k.toNat) then s.dropCache s.cur.core fun _ => true
    else s.modSeq s.cur.core fun v => { v with wait := .swaitb n.toNat (q.reg k.toNat) }
/-- R325: a waiting SWAITB completes. -/
def execSwaitbComplete (core : Nat) (s : State) : Out :=
  .next (match (s.core core).seq.wait with
    | .swaitb n b =>
      if s.seqLive core && s.batchesDone (s.core core).seq.team n b then
        (s.dropCache core fun _ => true).modSeq core fun q => { q with wait := .none }
      else s
    | _ => s)
/-- The sequencer's arrival at a barrier (R326). -/
def State.seqArrives (s : State) (_k tid : Nat) (tm : Team) (half b : Nat) : State :=
  let ph := s.barPhase tid b
  (s.modTeam tid fun t => { t with seqArr := sinsert t.seqArr (128 * half + b) ph }).arriveBar tid (s.teamCount tm) b
/-- R326. -/
def execSbarArrive (b : BitVec 7) (s : State) : Out :=
  seqWord (.sbarArrive b) s fun tid tm q s => s.seqArrives s.cur.core tid tm q.half b.toNat
/-- R326: arrives, then waits for the phase to turn. -/
def execSbarSync (b : BitVec 7) (s : State) : Out :=
  seqWord (.sbarSync b) s fun tid tm q s =>
    let ph := s.barPhase tid b.toNat
    let s := s.seqArrives s.cur.core tid tm q.half b.toNat
    if s.barPhase tid b.toNat = ph then s.modSeq s.cur.core fun v => { v with wait := .bar b.toNat ph }
    else s.modTeam tid fun t => { t with seqArr := sdrop t.seqArr (128 * q.half + b.toNat) }
/-- R328: a halt is armed. -/
def execShalt (s : State) : Out := seqWord .shalt s fun _ _ _ s => s.modSeq s.cur.core fun q => { q with armed := true }
/-- R327, R62: the tile enters IN-TRANSIT in the same cycle. -/
def execSeqGive (t : TReg) (n : BitVec 6) (s : State) : Out :=
  seqWord (.seqGive t n) s fun tid tm _ s => s.transit s.cur.core tid t.toNat 32 (s.seqGiveTo s.cur.core tid tm n.toNat)
/-- Does a sequencer TAKE of tile `t` complete now (R65)? -/
def State.seqTakeReady (s : State) (k tid t : Nat) : Bool :=
  match s.team? tid with
  | none => false
  | some tm =>
    match (tm.tile (tm.halfOf k) t).owner with
    | .seq => true
    | .transitSeq => !s.wr k tid t
    | _ => false
/-- The sequencer owns the tile. -/
def State.seqOwns (s : State) (k tid t : Nat) : State :=
  s.modTeam tid fun tm => tm.setTile (tm.halfOf k) t ⟨.seq, (tm.tile (tm.halfOf k) t).giver⟩
/-- A TAKE that had to wait counts as a settled word of the segment (R427). -/
def markSettled (q : Seq) : Seq :=
  { q with seg := q.seg.map fun g => { g with settled := true } }
/-- R327, R65: completes at once, or waits. -/
def execSeqTake (t : TReg) (s : State) : Out :=
  seqWord (.seqTake t) s fun tid _ _ s =>
    if s.seqTakeReady s.cur.core tid t.toNat then s.seqOwns s.cur.core tid t.toNat
    else s.modSeq s.cur.core fun q => { markSettled q with wait := .take t.toNat }

/-! ### Start and end (R38, R304, R328) -/

/-- The sequencer starts at an address for a team (R38, R304). -/
def startSeq (tid half : Nat) (addr : DWord) (c : List (Nat × DWord)) (q : Seq) : Seq :=
  { Seq.idle with running := true, team := tid, half := half, pc := addr, c := c, queue := q.queue.drop 1 }
/-- Waiting SEQGOs whose warp still waits. -/
def State.seqQueue (s : State) (k : Nat) : List (Nat × Nat × DWord × List (Nat × DWord)) :=
  (s.core k).seq.queue.filter fun x => match s.warp? k x.1 with
    | some w => match w.slice? x.2.1 with
      | some y => y.waits.contains (.seqgo x.2.2.1)
      | none => false
    | none => false
/-- R38, R289: the first waiting SEQGO of an idle sequencer starts it, once its warp's accesses are performed. -/
def execSeqgoStart (core slot _slice : Nat) (s : State) : Out :=
  .next (
    let s := s.modSeq core fun q => { q with queue := s.seqQueue core }
    let waiting := (s.core core).seq.queue.find? fun x => match s.warp? core x.1 with
      | some w => !s.frozen w
      | none => false
    match waiting, s.warp? core slot with
    | some (slot', slice, addr, c), some w =>
      if slot' = slot ∧ (s.core core).seq.running = false ∧ s.canRelease core slot .core = true then
        match s.team? w.team with
        | none => s
        | some tm =>
          let s := s.releaseCore core slot
          let s := s.modSeq core fun q =>
            { startSeq w.team (tm.halfOf core) addr c q with queue := q.queue.filter fun x => x.1 != slot || x.2.1 != slice }
          s.endWait core slot slice (.seqgo addr)
      else s
    | _, _ => s)
/-- R328: with nothing left in flight a halted sequencer is idle and belongs to no team; the team may retire (R27). -/
def execSeqIdle (core : Nat) (s : State) : Out :=
  .next (
    let q := (s.core core).seq
    if s.seqLive core && q.ended && s.drained core then
      (s.modSeq core fun q => { q with running := false, ended := false }).endTeam q.team
    else s)

end Sys2Proof.Machine
end

