-- ==== Sys2Proof/Machine/Halt.lean ====
section
/-! DEFINITION. Halted teams: the end of a skid, the team trap record (R407, R408), TCMD (R409) and the stop walk (R414). -/

namespace Sys2Proof.Machine
open Sys2Proof

/-! ### The halt (R45, R410) -/

/-- Has every warp of a halted team stopped, and have its sequencers drained? -/
def State.haltDone (s : State) (tid : Nat) (tm : Team) : Bool :=
  ((s.teamWarps tid).all fun x => x.2.2.stopped) &&
    tm.cores.all fun k => !((s.core k).seq.running && (s.core k).seq.team == tid) || s.drained k
/-- R45: a sibling of a halted team stops, after at most 16 bundles of skid. -/
def execSiblingSkidEnd (core slot : Nat) (s : State) : Out :=
  .next (match s.warp? core slot with
    | none => s
    | some w =>
      match s.team? w.team with
      | some tm => if tm.halted then s.modWarp core slot fun w => { w with stopped := true } else s
      | none => s)
/-- Every warp of a halted team stops now and its sequencers drain. -/
def State.finishHalt (s : State) (tid : Nat) : State :=
  match s.team? tid with
  | none => s
  | some tm =>
    let s := (s.teamWarps tid).foldl (fun s x => s.modWarp x.1 x.2.1 fun w => { w with stopped := true }) s
    tm.cores.foldl (fun s k => if (s.core k).seq.running && (s.core k).seq.team == tid then s.drainSeq k else s) s

/-! ### The trap record (R407, R408) -/

/-- Where a slice of a warp resumes: after a TRAP or BRK, and else at its pc (R409). -/
def Warp.resumePc (w : Warp) (j : Nat) (x : Slice) : DWord :=
  match w.trap with
  | some o =>
    if (o.trap.cause == .trap || o.trap.cause == .brk) && (BitVec.ofNat 16 o.gang).getLsbD j then o.pc + BitVec.ofNat 64 (4 * o.len)
    else x.pc
  | none => x.pc
/-- A warp entry (Table 25.5); a warp that has retired, or that no lane needed, is done. -/
def warpEntry (num : Nat) (w : Option Warp) : List DWord :=
  match w with
  | none => [0, BitVec.ofNat 64 (2 ^ 14 + num % 64 * 2 ^ 16)]
  | some w =>
    let j := lowSlice w.alive
    let (pc, wt) := match w.slice? j with
      | some x => (w.resumePc j x, x.waiting)
      | none => (0, false)
    let (own, oseq) := match w.trap with
      | some o => (o.trap.cause.code, o.oseq)
      | none => (0, 0)
    [BitVec.ofNat 64 (pc.toNat % 2 ^ 57),
      BitVec.ofNat 64 (own + w.skid % 32 * 2 ^ 8 + wt.toNat * 2 ^ 13 + w.retired.toNat * 2 ^ 14 + num % 64 * 2 ^ 16 +
        oseq % 2 ^ 32 * 2 ^ 32)]
/-- The header of a team trap record (Table 25.4). -/
def trapHeader (src sseq nw : Nat) (launch : DWord) (tm : Team) : List DWord :=
  let (t, pc, seqr, num) := tm.cause.getD ({ cause := .cstop }, 0, false, 0)
  [BitVec.ofNat 64 (sseq % 2 ^ 32 + src % 2 ^ 16 * 2 ^ 32 + t.cause.code * 2 ^ 48 + nw % 128 * 2 ^ 56), launch,
    BitVec.ofNat 64 (pc.toNat % 2 ^ 57), t.faddr,
    BitVec.ofNat 64 (t.lane % 64 + t.wr.toNat * 2 ^ 6 + seqr.toNat * 2 ^ 7 + t.kind % 16 * 2 ^ 8 + t.level % 4 * 2 ^ 12 +
      (if seqr then 0 else num % 64) * 2 ^ 16 + t.tagx.toNat * 2 ^ 32 + t.tagf.toNat * 2 ^ 40),
    BitVec.ofNat 64 (tm.pair.2 % 2 ^ 32 + tm.pair.1 % 2 ^ 16 * 2 ^ 32), 0, 0]
/-- The double-words of a team's record. -/
def State.trapRecord (s : State) (tid : Nat) (tm : Team) (sseq : Nat) : List DWord :=
  let n := s.teamCount tm
  trapHeader (haltSource tm.core) sseq n ((s.launchOf tm).getD 0) tm ++
    (List.range n).flatMap fun i => warpEntry i ((s.teamWarp tid i).map fun x => x.2.2)
/-- Is a context's trap queue full (R407)? -/
def Context.queueFull (c : Context) : Bool := (c.tqhead + 1) % 2 ^ c.tqlog == c.tqtail
/-- Location of a slot of a context's trap queue. -/
def Context.queueLoc (c : Context) (i : Nat) : Nat := c.tqbase * 4096 + 2048 * i
/-- The record of a team is written, if trap queues are served (R439), the queue has room and its memory answers: a release at .sys scope,
which waits while memory holds one of the team's stores back (R407, R434). -/
def State.writeTrapRecord (s : State) (tid : Nat) (tm : Team) : State :=
  let cn := s.teamCtx tm
  let c := s.ctx cn
  let loc := c.queueLoc c.tqhead
  if s.boot.phase != 2 || c.queueFull || s.reach tm.core loc true true == .waits then s
  else
    match s.flushed 4 fun p => tm.cores.any fun k => s.domOf (agentCore p.agent) == s.domOf k with
    | none => s
    | some s =>
      let (n, s) := s.takeSeq (haltSource tm.core)
      let s := if s.reach tm.core loc true true == .dead then s else s.homeWrite loc false ((s.trapRecord tid tm n).flatMap (bytesOf 8))
      let s := s.modTeam tid fun t => { t with recWait := false }
      (s.modCtx cn fun c => { c with tqhead := (c.tqhead + 1) % 2 ^ c.tqlog }).raise c.msiv

/-! ### Restarting (R409, R412) -/

/-- A warp of a restarted team goes on: what it waited for may have ended meanwhile. -/
def State.wakeWarp (s : State) (k slot : Nat) : State :=
  ((s.modWarp k slot fun w => { w.resumeTrap with readyAt := if w.inSet then w.readyAt else s.coreNow }).wakeBatches k slot).wakeConts
    k slot
/-- A team restarts: its warps and its sequencers go on. -/
def State.resumeTeam (s : State) (tid : Nat) : State :=
  match s.team? tid with
  | none => s
  | some tm =>
    let s := s.finishHalt tid
    let all := s.tree (s.rootOf tm.grid)
    let s := { s with stopGrids := s.stopGrids.filter fun g => !all.contains g }
    let s := s.modTeam tid fun t => { t with halted := false, cause := none, pair := (0, 0), byStop := false }
    let s := (s.teamWarps tid).foldl (fun s x => s.wakeWarp x.1 x.2.1) s
    let s := tm.cores.foldl (fun s k => if (s.core k).seq.running && (s.core k).seq.team == tid then s.resumeSeq k else s) s
    let s := (List.range 128).foldl (fun s b => s.wakeBar tid b) s
    let s := s.sweepTeam tid
    (tm.cores.foldl (fun s k => s.refillSet k) s).endTeam tid

/-! ### TCMD (R409) -/

/-- The halted team that a TCMD value names (Table 25.1). -/
def State.tcmdTeam (s : State) (v : DWord) : Option (Nat × Team) :=
  s.teams.find? fun p =>
    p.2.halted && p.2.num == bitsAt v 32 32 &&
      match s.grid? p.2.grid with
      | some g => g.lr.ctx == bitsAt v 0 8 && g.win == bitsAt v 16 6 && g.lr.seq == bitsAt v 22 7
      | none => false
/-- TCMD's fields as written. -/
def State.putTcmd (s : State) (v : DWord) : State := { s with cmd := { s.cmd with tcmd := v &&& 0xFFFFFFFF1FFF03FF } }
/-- A sequencer that works for one of the teams stops. -/
def State.stopSeqs (s : State) (tids : List Nat) : State :=
  (s.cores.map (·.1)).foldl (fun s k =>
    if (s.core k).seq.running && tids.contains (s.core k).seq.team then
      s.modSeq k fun q => { Seq.idle with queue := q.queue }
    else s) s
/-- Every team of the grids ends where it stands: its warps retire and its sequencers stop. (DEDUCED, log entry 39.) -/
def State.killTeams (s : State) (gs : List Nat) : State :=
  let tids := (s.teams.filter fun t => gs.contains t.2.grid).map (·.1)
  let s := s.stopSeqs tids
  let s := tids.foldl (fun s t => (s.teamWarps t).foldl (fun s x => s.retireWarp x.1 x.2.1) s) s
  tids.foldl State.dropTeam s
/-- Nothing of the grids is launched any more, and their records are discarded. (DEDUCED, log entry 39.) -/
def State.dropRecords (s : State) (gs : List Nat) : State :=
  let s := gs.foldl (fun s g => s.modGrid g fun h => { h with killed := true, childTeams := [], saved := [] }) s
  { s with gather := { s.gather with
      groups := s.gather.groups.filter fun x => !gs.contains x.grid
      overflow := s.gather.overflow.filter fun x => !gs.contains x.1 } }
/-- A TCMD carried out; none while a record of what it ends or restarts waits, for a team stays halted until then (R407). RESUME restarts the
team; KILL ends the launch's grid and its descendants, and its report says KILLED. A team that is not halted is no command's. -/
def State.carryTcmd (s : State) (v : DWord) : Option State :=
  match s.tcmdTeam v with
  | none => some s
  | some (tid, tm) =>
    if bitsAt v 8 2 = 0 then (if tm.recWait then none else some (s.resumeTeam tid))
    else
      let gs := s.tree (s.rootOf tm.grid)
      if s.teams.any fun t => gs.contains t.2.grid && t.2.recWait then none
      else some ((s.dropRecords gs).killTeams gs).settle
/-- A TCMD with GO: it is carried out, or runs until it can be. -/
def State.startTcmd (s : State) (v : DWord) : State :=
  let s := s.putTcmd v
  match s.carryTcmd v with
  | some s' => s'
  | none => { s with cmd := { s.cmd with tcmdRun := s.cmd.tcmdRun ++ [v] } }
/-- The commands that run are carried out, in the order of their writes, as far as they can be. -/
def State.runTcmds (s : State) : State :=
  s.cmd.tcmdRun.foldl (fun s v => match s.carryTcmd v with
    | some s' => { s' with cmd := { s'.cmd with tcmdRun := s'.cmd.tcmdRun.erase v } }
    | none => s) s
/-- R407: once the halt is done, the record is written when the queue has room; the commands that waited for it follow (R409). -/
def execTrapRecordWrite (team : Nat) (s : State) : Out :=
  .next (match s.team? team with
    | some tm => if tm.halted && tm.recWait && s.haltDone team tm then (s.writeTrapRecord team tm).runTcmds else s
    | none => s)
/-- TCMD RESUME. -/
def execTcmdResume (v : DWord) (s : State) : Out :=
  .next (if s.boot.phase ≠ 2 ∨ v.getLsbD 15 = false ∨ bitsAt v 8 2 ≠ 0 then s else s.startTcmd v)
/-- TCMD KILL. -/
def execTcmdKill (v : DWord) (s : State) : Out :=
  .next (if s.boot.phase ≠ 2 ∨ v.getLsbD 15 = false ∨ bitsAt v 8 2 ≠ 1 then s else s.startTcmd v)

/-! ### The stop walk (R413, R414) -/

/-- The resident teams of a grid. -/
def State.gridTeams (s : State) (g : Nat) : List (Nat × Team) := s.teams.filter fun t => t.2.grid == g
/-- Are the resident teams of a grid halted, with skids and drains done? -/
def State.gridStopped (s : State) (g : Nat) : Bool := (s.gridTeams g).all fun t => t.2.halted && s.haltDone t.1 t.2
/-- The record of the request that a stop of grids answers: a quarantine of a core that holds one of their teams (R413).
(DEDUCED, log entry 38.) -/
def State.stopPair (s : State) (gs : List Nat) : Nat × Nat :=
  match ((gs.flatMap s.gridTeams).flatMap fun t => t.2.cores).find? fun k => (s.core k).mgn.qreq with
  | some k => (s.core k).mgn.qpair
  | none => (0, 0)
/-- One step of the stop walk: with every earlier grid stopped, the teams of the next are halted together (R414). -/
def execStopWalk (grid : Nat) (s : State) : Out :=
  .next (match s.grid? grid with
    | none => s
    | some _ =>
      let gs := s.tree grid
      let s := { s with stopGrids := s.stopGrids ++ gs.filter fun g => !s.stopGrids.contains g }
      match gs.find? fun g => !s.gridStopped g with
      | none => s
      | some g => let p := s.stopPair gs; (s.gridTeams g).foldl (fun s t => s.cstop t.1 false p) s)

end Sys2Proof.Machine
end

