-- ==== Sys2Proof/Machine/Margin.lean ====
section
/-! DEFINITION. A core's margin system (R445 to R455): replays, escalation, quarantine and the targeted self-tests (R429 to
R431). -/

namespace Sys2Proof.Machine
open Sys2Proof

/-! ### MGN_CTL and MGN_STAT (R446, R447) -/

/-- The core selector of a key (R331). -/
def selectorOf (k : Nat) : Nat := coreTower k * 256 + corePhys k
/-- FNMODE.MESC (Table 26.7). -/
def State.mesc (s : State) : Bool := s.fnmode / 16 % 2 == 1
/-- Fields of MGN_CTL. -/
def mgnVoff (x : DWord) : Nat := bitsAt x 0 5
/-- Replays allowed in one window. -/
def mgnRlim (x : DWord) : Nat := bitsAt x 8 8
/-- The escalation action. -/
def mgnEsc (x : DWord) : Nat := bitsAt x 16 2
/-- Escalations that raise a request; 0 never. -/
def mgnQlim (x : DWord) : Nat := bitsAt x 18 4
/-- MGN_CTL as read: HA reads FNMODE.MESC. -/
def State.mgnCtl (s : State) (k : Nat) : DWord :=
  BitVec.ofNat 64 (((s.core k).mgn.ctl &&& 0x3FFF1F).toNat + s.mesc.toNat * 2 ^ 22)
/-- The window a core is in (R445). -/
def Margin.windowAt (m : Margin) (now : Nat) : Nat := (now - m.origin) / 65536
/-- A new replay window (R445, R446): WIN restarts, what has been written applies (R338), and a hold that a write has ended ends, but for one that
a request keeps (R452). -/
def Margin.roll (now : Nat) (m : Margin) : Margin :=
  if m.windowAt now ≤ m.window then m
  else
    let held := m.held && (!m.endHold || m.qreq)
    { m with
      window := m.windowAt now, win := 0, held := held, endHold := false, newV := false, inForce := m.ctl
      vnow := if held then 0 else if m.newV then mgnVoff m.ctl else m.vnow }
/-- The window that a core is in has begun. -/
def State.rollWindow (s : State) (k : Nat) : State := s.modMgn k (Margin.roll s.coreNow)
/-- MGN_CTL and ESCN before the writes of a core cycle, if it has one, and whether CLR was written (R446). -/
def Margin.wroteAt (m : Margin) (now : Nat) : Option (DWord × Nat × Bool) :=
  match m.wrote with
  | some (t, x) => if t = now then some x else none
  | none => none
/-- A write of MGN_CTL (R338, R446): ignored while QREQ is set (R452). -/
def State.writeMgn (s : State) (k : Nat) (v : DWord) : State :=
  (s.rollWindow k).modMgn k fun m =>
    if m.qreq then m
    else
      let clr := v.getLsbD 23
      { m with
        ctl := v &&& 0x3FFF1F, newV := true, endHold := m.endHold || m.held, escn := if clr then 0 else m.escn
        wrote := match m.wroteAt s.coreNow with
          | some (c, n, b) => some (s.coreNow, c, n, b || clr)
          | none => some (s.coreNow, m.ctl, m.escn, clr) }
/-- MGN_STAT word `w` (Table 28.2). -/
def State.mgnStat (s : State) (k w : Nat) : DWord :=
  let m := ((s.rollWindow k).core k).mgn
  BitVec.ofNat 64 (match w with
    | 0 => m.total + m.win * 2 ^ 32 + m.run * 2 ^ 48 + m.escn * 2 ^ 52 + m.held.toNat * 2 ^ 60 + m.qreq.toNat * 2 ^ 61 +
        (m.tpend || m.seqTest.isSome).toNat * 2 ^ 62
    | 1 => m.lpc.toNat % 2 ^ 57 + m.lsq.toNat * 2 ^ 57 + m.lslot % 32 * 2 ^ 58
    | 2 => sget 0 s.seqs (marginSource k) + m.esct * 2 ^ 32
    | _ => m.vnow)
/-- A window of a core begins. -/
def execReplayWindowStart (core : Nat) (s : State) : Out := .next (s.rollWindow core)
/-- Host write of a MGNC mirror (R455, R446). -/
def execMgncWrite (core : Nat) (v : DWord) (s : State) : Out :=
  .next (if s.mesc && mgnLegal v then s.writeMgn core v else s)

/-! ### Requests (R452) -/

/-- A quarantine request: its record names what triggered it; a first one sets QREQ, holds the core and drops its tests. Who carries it out is
decided now (R432). -/
def State.quarantineReq (s : State) (k : Nat) (pair : Nat × Nat) (engine : Option Nat) : State :=
  let (p, s) := s.report (mkRecord (marginSource k) 0x31 2 pair 0 (BitVec.ofNat 64 (selectorOf k)) 0 0)
  s.modMgn k fun m =>
    if m.qreq then m
    else
      { m with
        qreq := true, qpair := p, reqEngine := engine, reqReady := false, reqHost := s.mesc, held := true, endHold := false, vnow := 0
        tpend := false, seqTest := none, testing := none }

/-! ### Replay and escalation (R448 to R451) -/

/-- One more, up to a limit. -/
def bump (lim n : Nat) : Nat := min (n + 1) lim
/-- A replay is counted (R448, R449). -/
def countReplay (x : IssueKey) (m : Margin) : Margin :=
  { m with
    total := bump 0xFFFFFFFF m.total, win := bump 0xFFFF m.win, run := if m.runOf = some x then bump 15 m.run else 1
    runOf := some x, lpc := x.pc, lsq := x.sq, lslot := if x.sq then 0 else x.slot }
/-- Why a replay escalates: bit 0 RUN, bit 1 RLIM (R450); a replay of the repeat after an escalation counts with WIN above RLIM.
(DEDUCED, log entry 51.) -/
def escReason (again : Bool) (m : Margin) : Nat :=
  (if m.run = 3 then 1 else 0) +
    (if m.win = mgnRlim m.inForce + 1 ∨ (again = true ∧ m.held = true ∧ mgnRlim m.inForce < m.win) then 2 else 0)
/-- An escalation of a margin system by itself (R450, R451): a write of MGN_CTL in the same core cycle comes after it (R446). -/
def Margin.escalated (m : Margin) (now : Nat) (x : IssueKey) : Margin :=
  let w := m.wroteAt now
  let escn := match w with
    | some (_, _, true) => 0
    | _ => bump 255 m.escn
  { m with
    escn := escn, esct := bump 0xFFFFFFFF m.esct, run := 0, held := true, vnow := 0, endHold := (m.endHold && m.held) || w.isSome
    vold := if m.held then m.vold else m.vnow, settling := m.settling || !m.held, repeatOf := some x }
/-- Does an escalation raise a quarantine request: while HELD, under QUAR, or at QLIM (R450, R451)? -/
def Margin.asksQuarantine (m : Margin) (now : Nat) : Bool :=
  let n := match m.wroteAt now with
    | some (_, n, _) => n
    | none => m.escn
  m.held || mgnEsc m.inForce == 1 || (mgnQlim m.inForce != 0 && decide (mgnQlim m.inForce ≤ bump 255 n))
/-- A write of MGN_CTL in the core cycle of an escalation that raised a request comes after it, and is ignored (R446, R452). -/
def Margin.undoWrite (m : Margin) (now : Nat) : Margin :=
  match m.wroteAt now with
  | some (c, n, _) => { m with ctl := c, escn := bump 255 n }
  | none => m
/-- An escalation (R450, R451). (DEDUCED, log entry 51.) -/
def State.escalate (s : State) (k : Nat) (x : IssueKey) (reason : Nat) : State :=
  let m := (s.core k).mgn
  let (p, s) := s.report (mkRecord (marginSource k) 0x30 2 (0, 0) x.pc (BitVec.ofNat 64 (reason + mgnEsc m.inForce * 4)) 0 0)
  let s := s.modMgn k fun m => m.escalated s.coreNow x
  if m.asksQuarantine s.coreNow then (s.modMgn k fun m => m.undoWrite s.coreNow).quarantineReq k p none
  else s.modMgn k fun m => { m with tpend := true, trigger := p, trigHost := s.mesc }
/-- Class code of Table 8.4. -/
def classCode : PipeClass → Nat
  | .ia => 0
  | .sc => 1
  | .fa => 2
  | .sf => 3
  | .rc => 4
  | .xl => 5
  | .ls => 6
  | .tl => 7
  | .ct => 8
  | _ => 9
/-- Does a bundle of a core's warps split into two issue groups: do two of its words map to one engine (R191)? A core without a SEMAP
executes each class on its own engine. -/
def Core.splits (c : Core) (ws : List (Byte × Word)) : Bool :=
  !decide ((ws.map fun x =>
    let e := classCode (pipeClass false x.2)
    if c.hasSemap then bitsAt c.semap (4 * e) 4 else e).Nodup)
/-- The issue that a late transition is caught in, if it can be one: the next bundle of a slice's gang, or its second issue group where it has
one, or, without a slice, the next of the sequencer (R448). -/
def State.nextIssue (s : State) (k slot : Nat) (slice : Option Nat) (second : Bool) : Option IssueKey :=
  match slice with
  | none =>
    let q := (s.core k).seq
    if s.seqLive k ∧ q.wait = .none ∧ second = false then some ⟨q.pc, true, 32, 0, false⟩ else none
  | some slice =>
    match s.warp? k slot with
    | none => none
    | some w =>
      match w.slice? slice with
      | none => none
      | some x =>
        if x.retired ∨ w.gangGoes x.gang = false ∨ w.inSet = false ∨ s.mayIssue w = false then none
        else
          match s.fetchBundle k w x.pc with
          | .inl _ => none
          | .inr (ws, _, _) =>
            if second = true ∧ (s.core k).splits ws = false then none
            else some ⟨x.pc, false, slot, (w.gangMask x.gang).toNat, second⟩
/-- The repeat of an issue: 4 core cycles later, for the sequencer as stall cycles, for a gang with the operands of its first attempt
(R448). -/
def State.repeatIssue (s : State) (k : Nat) (x : IssueKey) : State :=
  let till := s.coreNow + 4
  if x.sq then s.modSeq k fun q => { q with wait := .replay till }
  else
    match s.warp? k x.slot with
    | none => s
    | some w =>
      let m := BitVec.ofNat 16 x.slices
      let cir := match s.team? w.team with
        | some tm => tm.cir
        | none => 0
      let mine (r : Replay) : Bool := r.slot == x.slot && r.slices == m
      s.modCore k fun c =>
        { c with replays :=
            if c.replays.any mine then c.replays.map fun r => if mine r then { r with till := till } else r
            else c.replays ++ [⟨x.slot, m, till, w.v, w.s, w.p, cir⟩] }
/-- Core cycles lost to replay stalls are counted in the tower's counter (Table 30.4). (DESIGN CHOICE, log entry 8.) -/
def State.countStall (s : State) (k n : Nat) : State :=
  let key := 16 * coreTower k + 8
  { s with counters := sput 0 s.counters key (sget 0 s.counters key + BitVec.ofNat 64 n) }
/-- A late transition is caught in an issue of a gang's or the sequencer's next bundle (R448): it is repeated. (DEDUCED, log entry 50.) -/
def execShawmReplay (core slot : Nat) (slice : Option Nat) (second : Bool) (s : State) : Out :=
  .next (match s.nextIssue core slot slice second with
    | none => s
    | some x =>
      let m := (s.core core).mgn
      let held := (s.core core).replays.any fun r => r.slot == x.slot && decide (s.coreNow < r.till)
      if m.settling || m.testing.isSome || (!x.sq && held) then s
      else
        let s := s.rollWindow core
        let again := m.repeatOf == some x
        let s := (s.takeSeq (marginSource core)).2.modMgn core (countReplay x)
        let s := (s.countStall core 4).repeatIssue core x
        let r := escReason again (s.core core).mgn
        if r = 0 then s else s.escalate core x r)
/-- Is an issue one of a bundle's issue groups? -/
def IssueKey.of (x : IssueKey) (pc : DWord) (sq : Bool) (slot slices : Nat) : Bool :=
  x.pc == pc && x.sq == sq && x.slot == slot && x.slices == slices
/-- R449: the issue of a bundle has completed; its run of replays ends. -/
def Margin.completeRun (pc : DWord) (sq : Bool) (slot slices : Nat) (m : Margin) : Margin :=
  let done (x : Option IssueKey) : Bool := match x with
    | some x => x.of pc sq slot slices
    | none => false
  let m := if done m.runOf then { m with run := 0, runOf := none } else m
  if done m.repeatOf then { m with repeatOf := none } else m
/-- R450: the regulator reports settled, and the core issues again. -/
def execEscalationSettled (core : Nat) (s : State) : Out := .next (s.modMgn core fun m => { m with settling := false })

/-! ### Targeted self-tests (R429 to R431) -/

/-- A pending test starts on a core with no resident team. -/
def execPipePatternTestStart (core : Nat) (s : State) : Out :=
  .next (
    let c := s.core core
    if (s.resident core).isEmpty && !c.scanning && c.mgn.testing.isNone && !c.mgn.qreq then
      if c.mgn.tpend then s.modMgn core fun m => { m with tpend := false, testing := some 0 }
      else
        match c.mgn.seqTest with
        | some p => s.modMgn core fun m => { m with seqTest := none, trigger := p, testing := some 2 }
        | none => s
    else s)
/-- DETAIL0 of a SELF_TEST record (Table 26.10). -/
def testDetail (kind : Nat) (pass : Bool) (engine : Option Nat) (ua : Bool) (bank : Nat) (mpath : Bool) : DWord :=
  BitVec.ofNat 64 (kind + (!pass).toNat * 4 + (engine.getD 0) % 16 * 16 + engine.isSome.toNat * 2 ^ 8 + ua.toNat * 2 ^ 9 +
    bank % 64 * 2 ^ 10 + mpath.toNat * 2 ^ 16)
/-- A SELF_TEST record of a targeted test (R431). -/
def State.testRecord (s : State) (k : Nat) (pass : Bool) (pair : Nat × Nat) (d0 : DWord) : (Nat × Nat) × State :=
  s.report { mkRecord (checkerSource k) 0x38 (if pass then 0 else 2) pair 0 d0 0 0 with cls := if pass then 1 else 2 }
/-- A targeted test ends. A failed one raises a request; after a passed pipe test, firmware in hardware mode steps VOFF down by two
(R454). (DEDUCED, log entry 50.) -/
def execSelfTestComplete (core : Nat) (r : TestResult) (s : State) : Out :=
  .next (
    let m := (s.core core).mgn
    match m.testing with
    | none => s
    | some kind =>
      let s := s.modMgn core fun m => { m with testing := none }
      let eng := if kind = 0 ∧ r.pass = false then r.engine.map (·.toNat) else none
      let (p, s) := s.testRecord core r.pass m.trigger (testDetail kind r.pass eng false 0 (kind == 2 && !r.pass && r.mpath))
      if !r.pass then s.quarantineReq core p eng
      else if kind = 0 ∧ m.trigHost = false then s.writeMgn core (BitVec.ofNat 64 (m.ctl.toNat / 32 * 32 + (m.vold - 2)))
      else s)

/-! ### Carrying out a request (R453) -/

/-- Is a core a spare (R457)? -/
def State.isSpare (s : State) (k : Nat) : Bool :=
  (s.core k).hasSemap && (s.logical? k).isNone && !s.boot.quarantined.contains k
/-- The cores of a tower. -/
def towerCores (t : Nat) : List Nat := (List.range 72).map (256 * t + ·)
/-- The spare that a request takes (R453 step 3). -/
def State.spareFor (s : State) (k : Nat) : Option Nat :=
  (towerCores (coreTower k)).find? fun q => q != k && s.isSpare q && (s.core q).drain && (s.resident q).isEmpty
/-- The partner of a class of a rebindable pair (Table 8.6). -/
def partnerOf (e : Nat) : Option Nat :=
  match e with
  | 0 => some 5
  | 5 => some 0
  | 2 => some 3
  | 3 => some 2
  | _ => none
/-- SEMAP with class `e` bound to another engine. -/
def rebind (x : DWord) (e to_ : Nat) : DWord :=
  BitVec.ofNat 64 (x.toNat - bitsAt x (4 * e) 4 * 2 ^ (4 * e) + to_ * 2 ^ (4 * e))
/-- The SEMAP value by which a core's request may be carried out in place (R453). -/
def State.rebindTo (s : State) (k : Nat) : Option DWord :=
  match (s.core k).mgn.reqEngine with
  | none => none
  | some e =>
    match partnerOf e with
    | none => none
    | some p =>
      let x := s.core k |>.semap
      if bitsAt x (4 * p) 4 = p ∧ semapLegal (rebind x e p) then some (rebind x e p) else none
/-- R188, R261, R416: what the warps of a halted core have issued completes before their state is saved; none while memory holds some of it
back (R434, R437). -/
def State.settleCore (s : State) (k : Nat) : Option State :=
  if !((s.core k).warps.all fun p => s.canRetire k p.1 p.2) then none
  else
    let s := (s.core k).warps.foldl (fun s p => (s.landSome k p.1 fun _ => true).endCopies k p.1) s
    s.flushed 4 fun p => s.domOf (agentCore p.agent) == s.domOf k
/-- The L1 of a domain holds nothing: no older copy of what has been written (R103). -/
def State.emptyL1 (s : State) (d : Nat) : State :=
  { s with stale := s.stale.filter fun x => x.dom != d, pend := s.pend.map fun p => { p with late := p.late.filter (· != d) } }
/-- What a save and a restore leave of a sequencer: the operand cache restarts empty (R412). -/
def savedSeq (q : Seq) : Seq := { q with cache := [] }
/-- Bytes of a core's scratchpad that are listed, as offsets. -/
def State.spadCells (s : State) (k : Nat) : List Host.Cell :=
  (s.mem.filter fun c => decide (spadLoc k 0 ≤ c.1) && decide (c.1 < spadLoc (k + 1) 0)).map fun c => (c.1 - spadLoc k 0, c.2)
/-- Scratchpad contents put at a core. -/
def putCells (m : List Host.Cell) (k : Nat) : List Host.Cell → List Host.Cell
  | [] => m
  | c :: r => putCells (sput 0 m (spadLoc k c.1) c.2) k r
/-- A team's part on core `p` is on core `q`. -/
def Team.moveTo (p q : Nat) (tm : Team) : Team :=
  { tm with core := if tm.core = p then q else tm.core, odd := if tm.paired ∧ tm.odd = p then q else tm.odd }
/-- A warp in its slot, outside the active set. -/
def Warp.outOfSet (x : Nat × Warp) : Nat × Warp := (x.1, { x.2 with inSet := false })
/-- The halted teams of core `p`, settled, go on at core `q` (R453 steps 2 to 6): what CSAVE takes and CRESTORE puts back. -/
def State.carry (s : State) (p q : Nat) : State :=
  let cells := s.spadCells p
  let c := s.core p
  let s := { s with mem := putCells (sdropRange s.mem (spadLoc p 0) (spadLoc (p + 1) 0)) q cells }
  let s := { s with teams := s.teams.map fun (x : Nat × Team) => (x.1, x.2.moveTo p q) }
  let s := (if c.fused then s else s.emptyL1 p).modCore p fun c =>
    { c with warps := [], seq := Seq.idle, topkQ := [], replays := [], fused := false, latent := c.latent.filter fun l => l.unit == 5 }
  s.modCore q fun d =>
    { d with
      warps := c.warps.map Warp.outOfSet
      seq := savedSeq c.seq, segs := c.segs, fused := c.fused }
/-- The core goes on with its teams in place: operand cache empty, CORECTL ADMIT and RESUME. -/
def State.restartCore (s : State) (k : Nat) : State :=
  let s := s.modCore k fun c => { c with drain := false }
  ((s.resident k).map (·.1)).foldl State.resumeTeam s
/-- Rebinding in place of a settled core (R453): P stays HELD. -/
def State.rebindCore (s : State) (k : Nat) (x : DWord) : State :=
  let s := s.modCore k fun c =>
    { c with semap := x, seq := savedSeq c.seq, mgn := { c.mgn with qreq := false, reqEngine := none } }
  s.restartCore k
/-- A scan of a core starts (R341); `auto` where a spare has replaced the core (R453). -/
def State.startScan (s : State) (k : Nat) (auto : Bool) : State :=
  s.modCore k fun c => { c with scan := { Scan.none with phase := .running, start := s.coreNow, auto := auto } }
/-- A spare takes the place of a core whose teams are settled (R453 steps 1 and 3 to 7). -/
def State.replaceCore (s : State) (p q : Nat) : State :=
  let s := (s.carry p q).modCore p fun c => { c with drain := true }
  let s := { s with boot := { s.boot with
    map := s.boot.map.map fun (x : Nat × Nat) => if x.2 = p then (x.1, q) else x
    mapgen := s.boot.mapgen + 1, quarantined := if s.boot.quarantined.contains p then s.boot.quarantined else s.boot.quarantined ++ [p] } }
  let s := s.modMgn p fun m => { m with qreq := false, reqEngine := none }
  let s := s.restartCore q
  if s.fnmode / 8 % 2 = 0 ∧ (s.core p).scanning = false then s.startScan p true else s
/-- The first steps: DRAIN, and the stop walk of the grids with teams on the core. -/
def State.stopForQuarantine (s : State) (k : Nat) : State :=
  let s := s.modCore k fun c => { c with drain := true }
  match (s.resident k).find? fun t => !t.2.halted with
  | none => s
  | some t => match execStopWalk (s.rootOf t.2.grid) s with
    | .next s' => s'
    | _ => s
/-- Are the teams on a core stopped, with their records written, every bundle done and no rollback to come? -/
def State.coreStopped (s : State) (k : Nat) : Bool :=
  ((s.resident k).all fun t => t.2.halted && s.haltDone t.1 t.2 && !t.2.recWait && !t.2.zeroing) && (s.core k).rollback.isEmpty &&
    (s.core k).warps.all fun p => !p.2.completing && !p.2.retired
/-- One step towards carrying out the request of a core, by rebinding or with a spare. With no spare the request stays pending. -/
def State.carryOut (s : State) (k : Nat) (byRebind bySpare : Bool) : State :=
  let m := (s.core k).mgn
  if !m.qreq || !m.reqReady || (s.logical? k).isNone then s
  else
    let x := if byRebind then s.rebindTo k else none
    let q := if bySpare then s.spareFor k else none
    match x, q with
    | none, none => s.modMgn k fun m => { m with reqReady := false }
    | x, q =>
      if !s.coreStopped k then s.stopForQuarantine k
      else
        match s.settleCore k, x, q with
        | some s, some v, _ => s.rebindCore k v
        | some s, none, some q => s.replaceCore k q
        | _, _, _ => s

/-! ### QCMD (R455) -/

/-- The fields of QCMD as written. -/
def State.putQcmd (s : State) (v : DWord) : State := { s with cmd := { s.cmd with qcmd := v &&& 0x303FF } }
/-- The core that a QCMD names. -/
def qcmdCore (v : DWord) : Nat := bitsAt v 0 10
/-- A QCMD that runs goes on: a step towards carrying out the request of its core, by a spare or by rebinding, until the core has none, or until
rebinding is not allowed. -/
def State.runQcmd (s : State) (v : DWord) : State :=
  let k := qcmdCore v
  let byRebind := bitsAt v 16 2 == 2
  let s := if byRebind && (s.rebindTo k).isNone then s else s.carryOut k byRebind !byRebind
  if (s.core k).mgn.qreq && !(byRebind && (s.rebindTo k).isNone) then s
  else { s with cmd := { s.cmd with qcmdRun := s.cmd.qcmdRun.filter (· != v) } }
/-- A QCMD with GO that carries out a request: it is ignored in hardware mode. -/
def State.startQcmd (s : State) (v : DWord) : State :=
  if !s.mesc then s
  else
    let s := s.putQcmd v
    { s with cmd := { s.cmd with qcmdRun := if s.cmd.qcmdRun.contains v then s.cmd.qcmdRun else s.cmd.qcmdRun ++ [v] } }.runQcmd v
/-- The value of a QCMD with GO. -/
def qcmdValue (k op : Nat) : DWord := BitVec.ofNat 64 (selectorOf k + 2 ^ 15 + op * 2 ^ 16)
/-- OP 00. -/
def execQcmdSpare (core : Nat) (s : State) : Out := .next (s.startQcmd (qcmdValue core 0))
/-- OP 01: the request is withdrawn, and the core stays HELD. -/
def execQcmdWithdraw (core : Nat) (s : State) : Out :=
  .next (if !s.mesc then s
    else
      let s := (s.modMgn core fun m => { m with qreq := false, reqEngine := none }).putQcmd (qcmdValue core 1)
      { s with cmd := { s.cmd with qcmdRun := s.cmd.qcmdRun.filter fun v => qcmdCore v != core } })
/-- OP 10. -/
def execQcmdRebind (core : Nat) (s : State) : Out := .next (s.startQcmd (qcmdValue core 2))
/-- R453, R454, R455: the command that runs for the core's request goes on, or hub firmware where the request was raised in hardware mode, by
rebinding whenever that is allowed. -/
def execQuarantineCarryOut (core : Nat) (s : State) : Out :=
  .next (match s.cmd.qcmdRun.find? fun v => qcmdCore v == core with
    | some v => s.runQcmd v
    | none => if (s.core core).mgn.reqHost then s else s.carryOut core true true)

end Sys2Proof.Machine
end

