-- ==== Sys2Proof/Machine/Recovery.lean ====
section
/-! DEFINITION. Errors in core state and in memory: what consumes them, rollback and its refusal (R425 to R428), failed banks
(R69, R70), and errors that memory finds (R423). -/

namespace Sys2Proof.Machine
open Sys2Proof

/-! ### Rollback of a warp (R426, R428) -/

/-- Can a warp roll back: it has a region entry, and no slice retired after it? -/
def Warp.recoverable (w : Warp) : Bool :=
  match w.region with
  | some r => r.alive == w.alive && !(w.slices.any (·.leaving))
  | none => false
/-- The slices that restart as one gang at a region entry. -/
def Slice.restart (pc : DWord) (x : Slice) : Slice :=
  if x.retired then x else { x with pc := pc, gang := 0, waits := [], resume := pc, count := 0 }
/-- The warp as a rollback leaves it, its stack truncated. -/
def Warp.rolledBack (w : Warp) (r : Region) : Warp :=
  { w with
    slices := w.slices.map (Slice.restart r.pc), q := [], pending := []
    picc := ⟨w.picc.at_.map fun x => (x.1, r.pc, 0), [], [], none⟩ }
/-- The slot rolls back no more, and repeats no issue. -/
def State.endRollback (s : State) (k slot : Nat) : State :=
  s.modCore k fun c =>
    { c with rollback := c.rollback.filter (fun x => x.1 != slot), replays := c.replays.filter fun x => x.slot != slot }
/-- CIR.RBK (R55). -/
def markRbk (tm : Team) : Team := { tm with cir := tm.cir ||| 2 }
/-- The address of the first bundle of a warp's lowest slice that is not retired. -/
def Warp.headPc (w : Warp) : DWord :=
  match w.lead? w.alive with
  | some x => x.pc
  | none => 0
/-- The rollback of a warp to a region that allows it, its results landed (R426). The read of a chunk that the truncation needs waits for its
memory; a translation fault of it is reported against the REGION's bundle, and the rollback is tried again after its service (R156). Where the host
assists, the team halts with the warp at its REGION (R432). -/
def State.rollWarp (s : State) (k slot : Nat) (w : Warp) (r : Region) (pair : Nat × Nat) (host : Bool) : State :=
  let c := s.ctxNo w
  match s.truncateTrap k c w r.d0 with
  | some t => if t.waits then s else s.warpTrap k slot w.alive r.pc t
  | none =>
    let ch := truncateChunk w r.d0
    let addr := (ch.map (chunkAddr w)).getD 0
    let n := if ch.isSome then chunkSize w else 0
    if (s.runs c addr n).any fun x => s.blocked k x.1 false then s.askSpan c addr n false
    else
      let (bs, q, s) := s.readVirt k slot c addr n
      let s := ((s.setWarp k slot ((w.truncate r.d0 bs).rolledBack r)).endRollback k slot).consumed w.team q
      let s := s.modTeam w.team markRbk
      let launch := (s.team? w.team).bind s.launchOf
      let (p, s) := s.report { mkRecord (checkerSource k) 0x15 1 pair r.pc (BitVec.ofNat 64 w.num)
        (BitVec.ofNat 64 r.d0) (BitVec.ofNat 64 r.nb) with launch := launch }
      if host then (s.modWarp k slot fun w => { w with stopped := true, skid := 0 }).cstop w.team false p else s
/-- R426: with its issued results landed, the warp truncates its stack and restarts at its REGION, or its team halts (R428). -/
def execWarpRollback (core slot : Nat) (s : State) : Out :=
  .next (match s.warp? core slot, (s.core core).rollback.find? fun x => x.1 == slot with
    | some w, some (_, pair, host) =>
      if !s.allReady core slot w || w.trap.isSome then s
      else
        let s := s.landSome core slot fun _ => true
        match s.warp? core slot with
        | none => s
        | some w =>
          match if w.recoverable then w.region else none with
          | some r => s.rollWarp core slot w r pair host
          | none => (s.endRollback core slot).refuseRecovery (checkerSource core) w.team false w.num w.headPc pair
    | none, some _ => s.endRollback core slot
    | _, none => s)

/-! ### Consumption (R425) -/

/-- A CORE_UE record: its unit, the consumer's address and the warp that consumed it. -/
def State.coreUe (s : State) (k unit : Nat) (pc : DWord) (w : Option Warp) : (Nat × Nat) × State :=
  let (num, tid) := match w with
    | some w => (w.num * 2 ^ 8 + 2 ^ 14, w.team)
    | none => (0, (s.core k).seq.team)
  s.report { mkRecord (checkerSource k) 0x13 2 (0, 0) pc (BitVec.ofNat 64 (unit + num)) 0 0 with
    launch := (s.team? tid).bind s.launchOf }
/-- A warp is to roll back, in the mode that FNMODE selects now (R432). -/
def State.startRollback (s : State) (k slot : Nat) (pair : Nat × Nat) : State :=
  s.modCore k fun c => { c with rollback := c.rollback ++ [(slot, pair, s.errHost)] }
/-- Can the sequencer of a core roll back, if it runs (R427)? -/
def State.seqRecoverable (s : State) (k : Nat) : Bool :=
  let q := (s.core k).seq
  !q.running || match q.seg with
    | some g => !g.settled && !g.alarmed
    | none => false
/-- The whole core rolls back: every warp of every resident team and the sequencer, or, with a refused case among them, every
resident team halts (R428). -/
def State.coreRollback (s : State) (k : Nat) (pair : Nat × Nat) : State :=
  let ws := (s.core k).warps
  if ws.all (fun x => x.2.recoverable) && s.seqRecoverable k then
    let s := ws.foldl (fun s x => s.startRollback k x.1 pair) s
    if (s.core k).seq.running then s.seqRollback k pair else s
  else
    (s.resident k).foldl (fun s t =>
      let q := (s.core k).seq
      if q.running && q.team == t.1 && !s.seqRecoverable k then s.refuseRecovery (seqSource k) t.1 true 0 q.pc pair
      else
        let mine := ws.filter fun x => x.2.team == t.1
        match (mine.find? fun x => !x.2.recoverable).or mine.head? with
        | some x => s.refuseRecovery (checkerSource k) t.1 false x.2.num x.2.headPc pair
        | none => s.refuseRecovery (seqSource k) t.1 true 0 q.pc pair) s
/-- A unit of core `k` consumes an error that is latent in the state of core `at_`: its record, then recovery. -/
def State.consumeUe (s : State) (k at_ : Nat) (l : Latent) (sq : Bool) (slot : Nat) (pc : DWord) : State :=
  let s := s.modCore at_ fun c => { c with latent := c.latent.filter (· != l) }
  let (p, s) := s.coreUe k l.unit pc (if sq then none else s.warp? k slot)
  if l.unit = 5 then s.coreRollback k p else if sq then s.seqRollback k p else s.startRollback k slot p
/-- A datapath checker flags the result of a warp's bundle, or of the matrix path (Table 26.5, R429). -/
def State.checkerFlag (s : State) (k slot : Nat) (sq : Bool) : State :=
  if sq then
    if s.seqLive k then
      let (p, s) := s.coreUe k 4 (s.core k).seq.pc none
      (s.modMgn k fun m => if m.qreq then m else { m with seqTest := some p }).seqRollback k p
    else s
  else
    match s.warp? k slot with
    | none => s
    | some w =>
      let (p, s) := s.coreUe k 4 w.headPc (some w)
      s.startRollback k slot p

/-! ### Banks (R69, R70) -/

/-- Stands for the spare of a failed bank that none is left for. -/
def noSpare : Nat := 64
/-- A bank is marked failed: a spare takes its contents, or with none left a quarantine is requested. (PRESUMED, log entry 14.) -/
def State.bankFail (s : State) (k : Nat) (ua : Bool) (bank rows : Nat) : State :=
  let d := ua.toNat + bank % 64 * 2 ^ 8
  let (p, s) := s.report (mkRecord (checkerSource k) 0x10 1 (0, 0) 0 (BitVec.ofNat 64 (d + rows % 2 ^ 16 * 2 ^ 16)) 0 0)
  match (s.core k).spares.find? fun x => x.1 == ua with
  | some (_, sp) =>
    s.modCore k fun c => { c with spares := c.spares.filter (· != (ua, sp)), banks := c.banks ++ [⟨ua, bank, sp, p⟩] }
  | none =>
    let s := s.modCore k fun c => { c with banks := c.banks ++ [⟨ua, bank, noSpare, p⟩] }
    let (p, s) := s.report (mkRecord (checkerSource k) 0x12 2 p 0 (BitVec.ofNat 64 d) 0 0)
    s.quarantineReq k p none
/-- Is a bank of a store decoded as an erasure, so that every further bad symbol of its rows is detected (R69, R70)? -/
def State.erased (s : State) (k : Nat) (ua : Bool) : Bool := (s.core k).banks.any fun b => b.ua == ua
/-- A corrected error of a row: 8 distinct rows within 65,536 cycles, or an error that persists, fail the bank. A store with a bank marked failed
corrects nothing: a further bad symbol there is an uncorrectable error. -/
def State.bankCorrected (s : State) (k : Nat) (ua : Bool) (bank row : Nat) (again : Bool) : State :=
  let c := s.core k
  if s.erased k ua then s
  else
    let seen := (c.corrected.filter fun x => decide (s.coreNow < x.2.2.2 + 65536)) ++ [(ua, bank, row, s.coreNow)]
    let rows := ((seen.filter fun x => x.1 == ua && x.2.1 == bank).map fun x => x.2.2.1).eraseDups.length
    if 8 ≤ rows ∨ again = true then
      (s.modCore k fun c => { c with corrected := seen.filter fun x => !(x.1 == ua && x.2.1 == bank) }).bankFail k ua bank rows
    else s.modCore k fun c => { c with corrected := seen }
/-- R70: the copy to the spare is complete and the bank redirected; the march test says whether the failed bank becomes the spare. While a
quarantine is requested no test runs (R452), and the bank stays retired. -/
def execBankRebuilt (core : Nat) (ua : Bool) (bank : Nat) (pass : Bool) (s : State) : Out :=
  .next (match (s.core core).banks.find? fun b => b.ua == ua && b.bank == bank with
    | none => s
    | some b =>
      if b.spare = noSpare then s
      else
      let d := BitVec.ofNat 64 (ua.toNat + bank % 64 * 2 ^ 8 + b.spare % 64 * 2 ^ 16)
      let (p, s) := s.report (mkRecord (checkerSource core) 0x11 0 b.pair 0 d 0 0)
      let tested := !(s.core core).mgn.qreq
      let s := if tested then (s.testRecord core pass p (testDetail 1 pass none ua bank false)).2 else s
      s.modCore core fun c =>
        { c with
          banks := c.banks.filter (· != b)
          spares := if pass && tested then c.spares ++ [(ua, bank)] else c.spares })

/-- A row of the register file or the unified array is miscorrected: one word of it reads otherwise, and nothing reports it (R69); never in a
store with a bank marked failed. -/
def State.miscorrect (s : State) (x : Symbol) (w : Word) : State :=
  match x with
  | .window core slot r lane =>
    s.modWarp core slot fun v =>
      if !s.erased core false ∧ r < v.windowRegs ∧ lane < v.width then { v with v := sput 0 v.v (64 * r + lane) w } else v
  | .pool team half tile row col =>
    s.modTeam team fun tm =>
      if !s.erased (if half = 0 then tm.core else tm.odd) false ∧ row < 32 ∧ col < 32 then tm.tput half tile row col w else tm
  | .spad core off =>
    if !s.erased core true ∧ off < s.spadSize core ∧ off % 4 = 0 then { s with mem := putBytes s.mem (spadLoc core off) (bytesOf 4 (w.zeroExtend 64)) } else s

/-! ### Memory (R423) -/

/-- An uncorrectable error is found in a sector of device memory or of its home slice. -/
def State.sectorError (s : State) (pa : Nat) (l2 : Bool) : State :=
  let x := sectorOf pa
  if devLimit ≤ pa ∨ s.poison.contains x then s
  else
    let t := towerOf pa
    let d := if l2 then 1 + sliceOf pa * 2 ^ 8 + t * 2 ^ 16 else stackOf pa * 2 ^ 8
    let src := if l2 then sourceId 5 t (sliceOf pa) else sourceId 6 t (stackOf pa % 2)
    let s := (s.report (mkRecord src 0x20 3 (0, 0) (BitVec.ofNat 64 (32 * x)) (BitVec.ofNat 64 d) 0 0)).2
    { s with poison := s.poison ++ [x] }
/-- An uncorrectable error in a dirty L1 line of a core, wherever it is homed: the line is written back with every sector poisoned. A clean line
is fetched again. -/
def State.lineError (s : State) (k pa : Nat) : State :=
  let lo := pa / 128 * 128
  let mine (p : PendStore) : Bool := s.domOf (agentCore p.agent) == s.domOf k && decide (p.level ≤ 2) && p.meets lo 128
  if spadBase ≤ pa ∨ s.pend.any mine = false then s
  else
    let s := s.flush mine
    let s := (s.report (mkRecord (checkerSource k) 0x21 3 (0, 0) (BitVec.ofNat 64 lo) (BitVec.ofNat 64 (selectorOf k)) 0 0)).2
    { s with poison := s.poison ++ ((List.range 4).map fun i => lo / 32 + i).filter fun x => !s.poison.contains x }

end Sys2Proof.Machine
end

