-- ==== Sys2Proof/Machine/Checkpoint.lean ====
section
/-! DEFINITION. The image of a checkpoint (R463 to R466): what a save and a restore copy, whole or in part, and how the engine ends. -/

namespace Sys2Proof.Machine
open Sys2Proof

/-- STATE of CKSTAT. -/
def ckDraining : Nat := 1
/-- STATE copying. -/
def ckCopying : Nat := 2
/-- The engine ends DONE, or FAILED with an error, and raises CKMSI. -/
def State.ckptEnd (s : State) (err : Nat) : State :=
  { s with ckpt := { s.ckpt with go := false, phase := if err = 0 then 3 else 4, err := err } }.raise s.ckpt.msi
/-- Bytes of an image: device memory, then 2 MiB of tables and header. -/
def imageBytes : Nat := 2 ^ 39 + 2 ^ 21
/-- First location of the image. -/
def State.imageLoc (s : State) : Nat := hostLoc (s.ckpt.dest * 2 ^ 16)
/-- Does the image lie in host memory whole? -/
def State.imageFits (s : State) : Bool := decide (s.ckpt.dest * 2 ^ 16 + imageBytes ≤ hostLimit)
/-- Is a location in device memory? -/
def isDev (loc : Nat) : Bool := decide (loc < devLimit)

/-! ### Memories of which each byte may be the old one or the new one -/

/-- Each byte is that of `old` or that of `new`, as `pick` has it. -/
def mixCells (pick : Nat → Bool) (old new : List Host.Cell) : List Host.Cell :=
  (old ++ new).foldl (fun m c => sput 0 m c.1 (if pick c.1 then sget 0 old c.1 else sget 0 new c.1)) new
/-- The poisoned sectors likewise. -/
def mixSectors (pick : Nat → Bool) (old new : List Nat) : List Nat :=
  (old.filter fun x => new.contains x || pick x) ++ new.filter fun x => !old.contains x && !pick x
/-- First free choice for sectors, for beam tables, and past the last, counted from the first for bytes. -/
def sectorPicks : Nat := 2 ^ 61
def tablePicks : Nat := 2 ^ 62
def mixPicks : Nat := 2 ^ 63

/-! ### The copies -/

/-- A map's entries with keys in a range, moved. -/
def shifted (m : List Host.Cell) (lo hi to_ : Nat) : List Host.Cell :=
  (m.filter fun c => decide (lo ≤ c.1) && decide (c.1 < hi)).map fun c => (c.1 - lo + to_, c.2)
/-- A range of memory is replaced by a copy of a range of `src`. -/
def copyRange (src m : List Host.Cell) (lo n to_ : Nat) : List Host.Cell :=
  (shifted src lo (lo + n) to_).foldl (fun m c => sput 0 m c.1 c.2) (sdropRange m to_ (to_ + n))
/-- The poisoned sectors of a range. -/
def sectorsIn (ps : List Nat) (lo n : Nat) : List Nat := ps.filter fun x => decide (lo ≤ 32 * x) && decide (32 * x < lo + n)
/-- The poisoned sectors of a range are replaced by those of a range of `src`. -/
def copyPoison (src ps : List Nat) (lo n to_ : Nat) : List Nat :=
  (ps.filter fun x => !(decide (to_ ≤ 32 * x) && decide (32 * x < to_ + n))) ++
    (sectorsIn src lo n).map fun x => x - lo / 32 + to_ / 32
/-- The block of one beam table (Table 30.2). -/
def beamBlock (b : BeamTable) : List Byte :=
  let es (m : List (Nat × Half)) : List Byte := (List.range 256).flatMap fun i => bytesOf 2 ((beamEntry m i).zeroExtend 64)
  es b.bank0 ++ bytesOf 4 (b.pitch0.zeroExtend 64) ++ es b.bank1 ++ bytesOf 4 (b.pitch1.zeroExtend 64) ++
    bytesOf 8 (if b.act then 1 else 0)
/-- A beam table from its block. -/
def readBeam (bs : List Byte) : BeamTable :=
  let half (o : Nat) : Half := BitVec.ofNat 16 (leAt bs o 2)
  let es (o : Nat) : List (Nat × Half) := (List.range 256).foldl (fun m i => putBeamEntry m i (half (o + 2 * i))) []
  ⟨es 0, BitVec.ofNat 32 (leAt bs 512 4), es 516, BitVec.ofNat 32 (leAt bs 1028 4), leAt bs 1032 1 % 2 == 1⟩
/-- A beam table of which each byte is that of one table or another's. -/
def mixBeam (pick : Nat → Bool) (old new : BeamTable) : BeamTable :=
  if old = new then new else readBeam (((beamBlock old).zip (beamBlock new)).zipIdx.map fun x => if pick x.2 then x.1.1 else x.1.2)
/-- What a copy cut short leaves of `t`, the copy's end: each byte, poison mark and table byte of it, or what `s` held.
(DESIGN CHOICE, log entry 81.) -/
def State.torn (s t : State) : State :=
  { t with
    mem := mixCells (fun a => Config.freeBit (s.fresh + a)) s.mem t.mem
    poison := mixSectors (fun x => Config.freeBit (s.fresh + sectorPicks + x)) s.poison t.poison
    beams := t.beams.map fun p =>
      (p.1, mixBeam (fun j => Config.freeBit (s.fresh + tablePicks + 2048 * p.1 + j)) (s.beam (p.1 / 4) (p.1 % 4)) p.2)
    fresh := s.fresh + mixPicks }
/-- The image takes what was written since: each byte and poison mark of it is the old one or the new one (R465). -/
def State.mixImage (s : State) : State :=
  { s with
    ckpt := { s.ckpt with
      image := mixCells (fun a => Config.freeBit (s.fresh + a)) s.ckpt.image (s.mem.filter fun c => isDev c.1)
      imagePsn := mixSectors (fun x => Config.freeBit (s.fresh + sectorPicks + x)) s.ckpt.imagePsn (sectorsIn s.poison 0 devLimit) }
    fresh := s.fresh + mixPicks }
/-- The body of a save's image, in host memory: device memory, then the beam tables. -/
def State.saveBody (s : State) : State :=
  let d := s.imageLoc
  let s := { s with
    mem := copyRange s.ckpt.image s.mem 0 devLimit d
    poison := copyPoison s.ckpt.imagePsn s.poison 0 devLimit d }
  (List.range 1024).foldl (fun s i => s.write (d + devLimit + 1040 * i) (beamBlock (s.beam (i / 4) (i % 4)))) s
/-- The header of an image. -/
def State.imageHeader (s : State) : List Byte :=
  bytesOf 8 0x4B4D434B ++ bytesOf 8 (BitVec.ofNat 64 (s.boot.mapgen % 2 ^ 32)) ++ bytesOf 8 1 ++ List.replicate 40 0
/-- The copy of a save: the body, then the header. -/
def State.saveImage (s : State) : State :=
  let n := s.ckpt.imagePsn.length
  let s := s.saveBody.write (s.imageLoc + imageBytes - 64) s.imageHeader
  { s with ckpt := { s.ckpt with prog := 512, npsn := min n 0xFFFFFFFF } }
/-- The 64 bytes where the image's header is. -/
def State.readHeader (s : State) : List Byte := s.bytes (s.imageLoc + imageBytes - 64) 64
/-- Has a header its MAGIC, and VALID set? -/
def headerOk (h : List Byte) : Bool := leAt h 0 4 == 0x4B4D434B && leAt h 16 1 % 2 == 1
/-- Device memory and the beam tables from the image. -/
def State.loadImage (s : State) : State :=
  let d := s.imageLoc
  let n := (sectorsIn s.poison d devLimit).length
  let s := { s with mem := copyRange s.mem s.mem d devLimit 0, poison := copyPoison s.poison s.poison d devLimit 0 }
  let s := { s with ckpt := { s.ckpt with prog := 512, npsn := min n 0xFFFFFFFF } }
  (List.range 1024).foldl (fun s i => { s with beams := sinsert s.beams i (readBeam (s.bytes (d + devLimit + 1040 * i) 1040)) }) s
/-- Part of the copy that runs is done: any of a save's body, or, past a valid header, of a restore. -/
def State.partCopy (s : State) : State :=
  if !s.imageFits then s
  else if s.ckpt.op = 1 then let s := s.mixImage; s.torn s.saveBody
  else if headerOk s.readHeader then s.torn { s.loadImage with ckpt := s.ckpt }
  else s
/-- The copy that runs has come to a number of GiB, with their poisoned sectors counted (CKSTAT). -/
def State.ckptCopied (s : State) (gib : Nat) : State :=
  if s.ckpt.phase ≠ ckCopying ∨ s.ckpt.go = false then s
  else
    let s := s.partCopy
    let p := max s.ckpt.prog (min gib 512)
    let ps := if s.ckpt.op = 1 then sectorsIn s.ckpt.imagePsn 0 (p * 2 ^ 30) else sectorsIn s.poison s.imageLoc (p * 2 ^ 30)
    { s with ckpt := { s.ckpt with prog := p, npsn := min ps.length 0xFFFFFFFF } }
/-- The copy that runs fails, with part of it done. -/
def State.ckptFail (s : State) (err : Nat) : State := s.partCopy.ckptEnd err

end Sys2Proof.Machine
end

