-- ==== Sys2Proof/Machine/Tower.lean ====
section
/-! DEFINITION. Towers (R433 to R438): quiesce, release and reset, bridges that sleep and wake, and the death of a tower. -/

namespace Sys2Proof.Machine
open Sys2Proof

/-! ### Requests to a tower -/

/-- Is a location homed in a tower? -/
def homedIn (t loc : Nat) : Bool := decide (loc < devLimit) && towerOf loc == t
/-- Does a word in flight access a tower? -/
def LandOp.visits (t : Nat) (op : LandOp) : Bool := op.ranges.any fun r => homedIn t r.1
/-- Does a copy access a tower? -/
def CopyJob.visits (t : Nat) (j : CopyJob) : Bool :=
  (j.src.any fun r => homedIn t r.1) || j.dst.any fun r => homedIn t r.1
/-- Every warp of the device: core, slot, warp. -/
def State.allWarps (s : State) : List (Nat × Nat × Warp) := s.cores.flatMap fun p => p.2.warps.map fun x => (p.1, x.1, x.2)
/-- Does a store in flight write a location homed in a tower? -/
def PendStore.homed (t : Nat) (p : PendStore) : Bool := p.op.table.isNone && p.op != .mark && homedIn t p.op.range.1
/-- The requests outstanding to a tower: of a word in flight, of a copy, or of a store that goes to its home, each by number, core and
address. (DEDUCED, log entry 46.) -/
def State.requests (s : State) (t : Nat) : List (Nat × Nat × Nat) :=
  (s.allWarps.flatMap fun x =>
    (x.2.2.pending.filterMap fun p => ((p.op.ranges.map (·.1)).find? (homedIn t)).map fun a => (p.id, x.1, a)) ++
      x.2.2.jobs.filterMap fun j => ((j.src.map (·.1) ++ j.dst.map (·.1)).find? (homedIn t)).map fun a => (j.id, x.1, a)) ++
    (s.pend.filter fun p => p.homed t && decide (2 ≤ p.level)).map fun p => (p.id, agentCore p.agent, p.op.range.1)
/-- Does the dead timer of a core's request to a tower run: the tower answers, and a bridge on the way is awake, or all have failed to wake
(R437)? The cores of the tower itself cross none. -/
def Tower.timed (x : Tower) (t k : Nat) : Bool :=
  (x.phase == .run || x.phase == .quiescing) && coreTower k != t &&
    ((bridgesFrom (coreTower k) t).any x.bridgeUp || (bridgesFrom (coreTower k) t).all fun b => (x.failed.map (·.1)).contains b)
/-- The dead timers of a tower's outstanding requests: those that run go on, and those that can start now do (R437). -/
def State.timersOf (s : State) (t : Nat) : List (Nat × Nat) :=
  let x := s.tower t
  ((s.requests t).filter fun r => x.timed t r.2.1).map fun r => (r.1, ((x.timers.find? fun y => y.1 == r.1).map (·.2)).getD s.hubNow)
/-- The dead timers of every tower are brought up to date. -/
def State.syncTimers (s : State) : State :=
  (List.range 4).foldl (fun s t =>
    let ts := s.timersOf t
    if ts = (s.tower t).timers then s else s.modTower t fun x => { x with timers := ts }) s
/-- The source of a tower's own records, its bridge to the hub. -/
def towerSource (t : Nat) : Nat := sourceId 7 t 0
/-- The source that reports a bridge of a tower that fails to wake: its other end's (R437, Table 26.9). -/
def bridgeSource (t b : Nat) : Nat :=
  match b with
  | 0 => sourceId 7 t 0
  | 1 => sourceId 7 ((t + 1) % 4) 2
  | _ => sourceId 7 ((t + 3) % 4) 1

/-! ### Quiesce and release (R433, R434) -/

/-- An OP of a tower ends at once with an error code; one that runs goes on. -/
def State.towerErr (s : State) (t op err : Nat) : State := s.modTower t fun x => { x with op := op, err := err }
/-- May a tower be quiesced: has every core DRAIN set and no resident team? -/
def State.towerIdle (s : State) (t : Nat) : Bool := (towerCores t).all fun k => (s.core k).drain && (s.resident k).isEmpty
/-- OP QUIESCE; outside RUN it ends with ERR 10 (DEDUCED, log entry 83). Before READY nothing serves the tower registers (R439). -/
def execTowerQuiesce (t : Nat) (s : State) : Out :=
  .next (
    if s.boot.phase ≠ 2 then s
    else if (s.tower t).phase ≠ .run then s.towerErr t 1 2
    else if s.towerIdle t then s.modTower t fun x => { x with op := 1, go := true, phase := .quiescing }
    else s.towerErr t 1 1)
/-- The quiesce ends: the copies that the directory tracks are written back, with the DT lines that the tower's own cores hold, the bridges
are fenced, and the tower is FENCED. It waits while memory holds a writeback back. -/
def execTowerFenced (t : Nat) (s : State) : Out :=
  .next (
    if (s.tower t).phase ≠ .quiescing then s
    else
      match s.flushed 4 fun p => (p.homed t || coreTower (agentCore p.agent) == t) && !p.si with
      | none => s
      | some s =>
        let s := s.modTower t fun x => { x with phase := .fenced, go := false, err := 0 }
        (s.report (mkRecord (towerSource t) 0x50 0 (0, 0) 0 (BitVec.ofNat 64 t) 0 0)).2)
/-- OP RELEASE: waiting requests proceed. -/
def execTowerRelease (t : Nat) (s : State) : Out :=
  .next (
    if s.boot.phase ≠ 2 then s
    else if (s.tower t).phase = .fenced then s.modTower t fun x => { x with op := 3, go := false, err := 0, phase := .run }
    else s.towerErr t 3 2)

/-! ### Reset (R435, R436) -/

/-- The blocks of `n` bytes that a store in flight writes to. -/
def PendStore.blocks (p : PendStore) (n : Nat) : List Nat :=
  let a := p.op.range.1 / n
  if p.op.range.2 = 0 then [] else (List.range ((p.op.range.1 + p.op.range.2 - 1) / n - a + 1)).map (a + ·)
/-- Is a store in flight lost when a tower is reset: it is homed there, or it stands in the L1 of one of its cores? -/
def PendStore.lostWith (t : Nat) (p : PendStore) : Bool :=
  p.op.table.isNone && p.op != .mark && decide (p.op.range.1 < spadBase) &&
    (homedIn t p.op.range.1 || (coreTower (agentCore p.agent) == t && decide (p.level ≤ 2)))
/-- The sectors of the dirty SI bytes that a reset of a tower loses (R435). (DESIGN CHOICE, log entry 34.) -/
def lostSectors (t : Nat) (ps : List PendStore) : List Nat :=
  ((ps.filter fun p => p.si && p.lostWith t).flatMap fun p => p.blocks 32).eraseDups
/-- The dirty L1 lines in other towers that are homed in a tower and that its reset loses, each counted once for each L1 (R436). -/
def State.lostLines (s : State) (t : Nat) : Nat :=
  ((s.pend.filter fun p => p.homed t && coreTower (agentCore p.agent) != t && decide (p.level ≤ 2)).flatMap fun p =>
    (p.blocks 128).map fun l => (s.domOf (agentCore p.agent), l)).eraseDups.length
/-- Every request to a tower is answered with an error completion: what is in flight lands with it, copies end with it, and stores
have no effect. `code` is the completion's (Table 26.11). -/
def State.failRequests (s : State) (t : Nat) (code : BitVec 2) : State :=
  let s := s.modTower t fun x => { x with phase := .dead }
  let s := s.allWarps.foldl (fun s x =>
    let s := s.landSome x.1 x.2.1 fun p => p.op.visits t
    (x.2.2.jobs.filter fun j => j.visits t).foldl (fun s j => s.endCopy x.1 x.2.1 j.id (some code)) s) s
  { s with pend := s.pend.filter fun p => !p.lostWith t }
/-- R436: a tower's dirty L2 lines are lost: any listed byte may hold what memory held before. (DESIGN CHOICE, log entry 34.) -/
def loseL2 (t fresh : Nat) (m : List Host.Cell) : List Host.Cell :=
  (m.zipIdx).foldl (fun m x =>
    if homedIn t x.1.1 && Config.freeBit (fresh + x.2) then sput 0 m x.1.1 (Config.freeByte (fresh + x.2)) else m) m
/-- The grids with a team on a tower. -/
def State.towerGrids (s : State) (t : Nat) : List Nat :=
  ((s.teams.filter fun x => x.2.cores.any fun k => coreTower k == t).map fun x => s.rootOf x.2.grid).eraseDups
/-- A core as a tower reset leaves it: DRAIN set, nothing in its files, windows and queues, its errors gone. -/
def Core.afterReset (c : Core) : Core :=
  { c with
    warps := [], seq := Seq.idle, moving := none, drain := true, corrected := [], latent := [], rollback := [], replays := [], topkQ := [] }
/-- The scratchpads of a tower's cores are cleared, and what was on its way to them is gone. -/
def State.clearSpads (s : State) (t : Nat) : State :=
  let lo := spadLoc (256 * t) 0
  let hi := spadLoc (256 * t + 256) 0
  { s with mem := sdropRange s.mem lo hi, pend := s.pend.filter fun p => !(decide (lo ≤ p.op.range.1) && decide (p.op.range.1 < hi)) }
/-- OP RESET: an orderly reset of a FENCED tower, an error reset of a DEAD one, whose grids end KILLED with TOWER_DEAD as cause pair
(R436). -/
def execTowerReset (t : Nat) (s : State) : Out :=
  .next (
    let ph := (s.tower t).phase
    if s.boot.phase ≠ 2 then s
    else if ph ≠ .fenced ∧ ph ≠ .dead then s.towerErr t 2 2
    else
      let bad := ph == .dead
      let lost := s.lostLines t
      let pair := (s.tower t).deadRec
      let xs := lostSectors t s.pend
      let s := s.failRequests t 1
      let s := if bad then
          let gs := (s.towerGrids t).flatMap s.tree
          let s := gs.foldl (fun s g => s.modGrid g fun h => { h with endPair := pair }) s
          let s := ((s.dropRecords gs).killTeams gs).settle
          let s := { s with stale := s.stale.filter fun x => !homedIn t x.loc }
          { s with mem := loseL2 t s.fresh s.mem, fresh := s.fresh + s.mem.length }
        else xs.foldl (fun s x =>
          (s.report (mkRecord (sourceId 5 t (sliceOf (32 * x))) 0x22 3 (0, 0) (BitVec.ofNat 64 (32 * x)) 0 0 0)).2) s
      let s := ((towerCores t).foldl (fun s k => s.modCore k Core.afterReset) s).clearSpads t
      s.modTower t fun x =>
        { x with
          op := 2, go := true, phase := .resetting, awake := 0, wakes := [], failed := [], timers := [], errorReset := bad, fwReset := false
          lost := if bad then lost else 0 })
/-- R435: every bridge reports awake, and the tower runs. -/
def execTowerUp (t : Nat) (s : State) : Out :=
  .next (
    let x := s.tower t
    if x.phase ≠ .waking ∨ x.awake ≠ 7 then s
    else
      let s := s.modTower t fun x => { x with phase := .run, go := false, err := 0 }
      let d := t + x.errorReset.toNat * 4 + x.lost % 2 ^ 32 * 2 ^ 32
      (s.report (mkRecord (towerSource t) 0x51 0 (0, 0) 0 (BitVec.ofNat 64 d) 0 0)).2)

/-! ### Bridges (R437, R438) -/

/-- A bridge with no traffic goes to sleep. -/
def execBridgeSleep (t b : Nat) (s : State) : Out :=
  .next (
    if b < 3 ∧ (s.tower t).bridgeUp b ∧ (s.tower t).phase = .run then s.modTower t fun x => { x with awake := x.awake - 2 ^ b }
    else s)
/-- A sleeping bridge starts to wake; after a reset the tower is then WAKING. -/
def execBridgeWakeStart (t b : Nat) (s : State) : Out :=
  .next (
    let x := s.tower t
    if b < 3 ∧ x.bridgeUp b = false ∧ x.wakes.all (fun w => w.1 != b) ∧ x.phase ≠ .dead then
      s.modTower t fun x =>
        { x with wakes := x.wakes ++ [(b, s.hubNow)], phase := if x.phase = .resetting then .waking else x.phase }
    else s)
/-- A bridge reports awake; the dead timers of the requests that waited for it start. The record of an earlier failure stands (R437). -/
def execBridgeAwake (t b : Nat) (s : State) : Out :=
  .next (
    let x := s.tower t
    if x.bridgeUp b = false ∧ ((x.wakes.map (·.1)).contains b ∨ (x.failed.map (·.1)).contains b) ∧ x.phase ≠ .dead then
      (s.modTower t fun x => { x with awake := x.awake + 2 ^ b, wakes := x.wakes.filter (·.1 != b) }).syncTimers
    else s)
/-- A bridge is not awake 8,192 hub cycles after its wake began. -/
def execLinkWakeFail (t b : Nat) (s : State) : Out :=
  .next (match (s.tower t).wakes.find? fun w => w.1 == b with
    | none => s
    | some (_, t0) =>
      if s.hubNow < t0 + 8192 then s
      else
        let src := bridgeSource t b
        let (p, s) := s.report (mkRecord src 0x52 2 (0, 0) 0 (BitVec.ofNat 64 src) 0 0)
        let s := s.modTower t fun x => { x with wakes := x.wakes.filter (·.1 != b), failed := x.failed.filter (·.1 != b) ++ [(b, p)] }
        let x := s.tower t
        let new := (s.timersOf t).map fun y => if x.timers.any (·.1 == y.1) then y else (y.1, t0 + 8192)
        s.modTower t fun x => { x with timers := new })
/-- The request whose dead timer expires first of those that have run out, with its start: its number, core and address (R437). -/
def State.expired (s : State) (t : Nat) : Option (Nat × Nat × Nat) :=
  let x := s.tower t
  ((((s.requests t).filterMap fun r => (x.timers.find? fun y => y.1 == r.1).map fun y => (y.2, r)).filter fun y =>
    decide (y.1 + 1048576 ≤ s.hubNow)).foldl (fun (best : Option (Nat × Nat × Nat × Nat)) y => match best with
      | some b => if y.1 < b.1 then some y else best
      | none => some y) none).map (·.2)
/-- The dead timer of an outstanding request expires. The cause is the failure of a bridge that the request had to cross, if one is
recorded; with FNMODE.DRST 0 firmware will reset the tower (R432). A save that copies ends FAILED (R465). -/
def execTowerDead (t : Nat) (s : State) : Out :=
  .next (
    let x := s.tower t
    match s.expired t with
    | some (_, k, a) =>
      if x.phase = .dead then s
      else
        let pair := match x.failed.reverse.find? fun f => (bridgesFrom (coreTower k) t).contains f.1 with
          | some (_, p) => p
          | none => (0, 0)
        let (p, s) := s.report (mkRecord (towerSource t) 0x53 3 pair (BitVec.ofNat 64 a) (BitVec.ofNat 64 t) 0 0)
        let s := s.modTower t fun x => { x with phase := .dead, deadRec := p, timers := [], wakes := [], fwReset := s.fnmode / 4 % 2 == 0 }
        if s.ckpt.op = 1 ∧ s.ckpt.phase = ckCopying then s.ckptFail 1 else s
    | none => s)

end Sys2Proof.Machine
end

