-- ==== Sys2Proof/Machine/Boot.lean ====
section
/-! DEFINITION. Boot (R439 to R442) and attestation (R443, R444). -/

namespace Sys2Proof.Machine
open Sys2Proof

/-! ### The image (R440) -/

/-- An image's body. -/
def imageBody (img : List Byte) : List Byte := (img.drop 512).take (leAt img 8 8)
/-- What an image's signature covers. (DEDUCED, log entry 36.) -/
def imageSigned (img : List Byte) : List Byte := img.take 128 ++ imageBody img
/-- Is MGNINIT a value that a WRSR of MGN_CTL would accept, with reserved bits and CLR zero? HA is not reserved. -/
def mgnInitOk (x : DWord) : Bool := x &&& 0x7FFF1F == x && mgnLegal x
/-- The code of the first check that an image fails (Table 27.3), 0 for none. (DEDUCED, log entry 36.) -/
def imageCode (b : Boot) (img : List Byte) : Nat :=
  if leAt img 0 4 ≠ 0x4B4D4649 then 1
  else if sha384 ((img.drop 128).take 97) ≠ b.rootHash then 2
  else if leAt img 4 2 < b.minSvn then 3
  else if 2 ^ 24 < leAt img 8 8 ∨ img.length < 512 + leAt img 8 8 then 5
  else if !ecdsaValid ((img.drop 128).take 97) (imageSigned img) (beNat ((img.drop 232).take 48)) (beNat ((img.drop 280).take 48)) then 4
  else if !mgnInitOk (BitVec.ofNat 64 (leAt img 24 8)) then 7
  else 0

/-! ### Cores at boot (R441, R442) -/

/-- The identity map (Table 8.6). -/
def semapIdentity : DWord := 0x876543210
/-- The engines that a core's fused record names as failed. -/
def Boot.failed (b : Boot) (k : Nat) : List Nat := (sfind b.fails k).getD []
/-- The SEMAP that boot writes to a core; none where its failures cannot be expressed. -/
def bootSemap (fs : List Nat) : Option DWord :=
  let x := fs.foldl (fun (x : Option DWord) e => x.bind fun v => (partnerOf e).map fun p => rebind v e p) (some semapIdentity)
  x.bind fun v => if semapLegal v then some v else none
/-- The usable cores of a tower, ascending. -/
def State.usable (s : State) (t : Nat) : List Nat :=
  (towerCores t).filter fun k => (bootSemap (s.boot.failed k)).isSome && !s.boot.quarantined.contains k
/-- The logical core map: 64 of each tower's usable cores; none when a tower has fewer. -/
def State.bootMap (s : State) : Option (List (Nat × Nat)) :=
  if (List.range 4).all fun t => decide (64 ≤ (s.usable t).length) then
    some ((List.range 4).flatMap fun t => (((s.usable t).take 64).zipIdx).map fun x => (64 * t + x.2, x.1))
  else none
/-- A core as boot leaves it. (DEDUCED, log entry 41.) -/
def bootCore (fs : List Nat) (mapped : Bool) (mgn : DWord) (now : Nat) (c : Core) : Core :=
  match bootSemap fs with
  | some v =>
    let x := mgn &&& 0x3FFF1F
    let m : Margin := { Margin.init with ctl := x, inForce := x, vnow := mgnVoff x, origin := now }
    { c with semap := v, hasSemap := true, drain := !mapped, mgn := m }
  | none => { c with drain := true }
/-- A core whose SEMAP has been written, and no more (R439 step 3). -/
def semapCore (fs : List Nat) (c : Core) : Core :=
  match bootSemap fs with
  | some v => { c with semap := v, hasSemap := true }
  | none => c
/-- The launch under which the hub control core's boot warp stands. -/
def hubLaunch (entry : DWord) : LaunchRec :=
  { parseRec [] with
    entry := entry, ctx := hubCtx, width := widthLanes Config.hubWidth.toNat, win := 2, warps := 1, teams := 1, threads := 64 }
/-- R439 step 2: the hub control core is released at ENTRY. -/
def State.releaseHub (s : State) (entry : Nat) : State :=
  let pc := Config.hubBase + BitVec.ofNat 64 entry
  let l := hubLaunch pc
  let (g, s) := s.newId
  let (tid, s) := s.newId
  let gr : Grid :=
    { win := 64, lr := l, scal := [], parent := none, nextTeam := 1, gaps := [], childTeams := [], saved := [], killed := false,
      retired := false, psn := false, rbk := false, pcnt := 0, endPair := (0, 0) }
  let s := s.modCtx hubCtx fun c => { c with en := true, root := Config.hubRoot }
  let s := { s with grids := sinsert s.grids g gr, teams := sinsert s.teams tid { newTeam g 0 hubCore false 0 with zeroing := false } }
  (s.addWarp hubCore (newWarp g tid 0 l.width l.win pc (extentMask 64 l.width 0) 0 0 [] false s.coreNow)).refillSet hubCore
/-- The device booted from an image: its body stands in hub memory, and its scan signature is loaded once the cores are configured. -/
def State.bootFrom (s : State) (slot : Nat) (img : List Byte) : State :=
  let mgn := BitVec.ofNat 64 (leAt img 24 8)
  let s := { s with boot := { s.boot with slot := slot, svn := leAt img 4 2, imgHash := sha384 (imageSigned img), phase := 1 } }
  let s := { s with mem := putBytes s.mem hubMemory (imageBody img) }.releaseHub (leAt img 16 8)
  let cores := (List.range 4).flatMap towerCores
  match s.bootMap with
  | none =>
    let s := cores.foldl (fun s k => s.modCore k (semapCore (s.boot.failed k))) s
    { s with boot :=
        { s.boot with phase := 3, err := if slot = 0 then 6 else s.boot.err, err1 := if slot = 0 then s.boot.err1 else 6 } }
  | some m =>
    let s := { s with
      boot := { s.boot with map := m, mapgen := 0, phase := 2, scanSig := Config.scanSignature (imageBody img) }, fnmode := leAt img 6 2 % 64 }
    cores.foldl (fun s k =>
      s.modCore k (bootCore (s.boot.failed k) ((m.map (·.2)).contains k) mgn s.coreNow)) s
/-- R439: from reset the device boots from the first slot whose image is accepted. -/
def execPowerOnBoot (s : State) : Out :=
  .next (
    if s.boot.phase ≠ 0 then s
    else
      let i0 := s.boot.flash.getD 0 []
      let i1 := s.boot.flash.getD 1 []
      let e0 := imageCode s.boot i0
      if e0 = 0 then s.bootFrom 0 i0
      else
        let e1 := imageCode s.boot i1
        let s := { s with boot := { s.boot with err := e0, err1 := e1 } }
        if e1 = 0 then s.bootFrom 1 i1 else { s with boot := { s.boot with phase := 3 } })

/-! ### Attestation (R443, R444) -/

/-- Location of a report buffer. -/
def attLoc (buf : Nat) : Nat := hostLoc (buf * 4096)
/-- Bytes 0 to 319 of a report (Table 27.4). -/
def State.reportBody (s : State) (nonce : List Byte) : List Byte :=
  let b := s.boot
  let q (n : Nat) : List Byte := bytesOf 8 (BitVec.ofNat 64 n)
  let maph := sha384 ((List.range 256).flatMap fun l => bytesOf 2 (BitVec.ofNat 64 (((s.physical? l).map selectorOf).getD 0)))
  let semaps := sha384 (((List.range 4).flatMap towerCores).flatMap fun k =>
    bytesOf 8 (s.core k).semap)
  q (1 + b.svn % 2 ^ 16 * 2 ^ 16 + b.slot % 2 * 2 ^ 32) ++ q (b.mapgen % 2 ^ 32) ++ nonce ++ b.imgHash ++ maph ++ semaps ++
    q s.fnmode ++ publicKey (Config.identityScalar b.secret) ++ List.replicate 7 0
/-- The signature of a report's body by the identity key: the first attempt that gives one. -/
def Boot.sign (b : Boot) (body : List Byte) : List Byte :=
  let (r, t) := ((List.range 8).findSome? fun i =>
    ecdsaSign (Config.identityScalar b.secret) body (Config.signNonce b.secret body i)).getD (0, 0)
  beBytes 48 r ++ beBytes 48 t
/-- The whole report of a request. -/
def State.fullReport (s : State) (nonce : List Byte) : List Byte :=
  let body := s.reportBody nonce
  body ++ s.boot.sign body ++ List.replicate 96 0
/-- A write of ATTCTL: BUF is stored. With GO, a request begins; while one runs the write is ignored, and in FAIL it ends at once. -/
def execAttestRequest (v : DWord) (s : State) : Out :=
  .next (
    let buf := bitsAt v 12 40
    if !v.getLsbD 0 then { s with cmd := { s.cmd with attBuf := buf } }
    else if s.cmd.attRun.isSome then s
    else if s.boot.phase = 3 then { s with cmd := { s.cmd with attBuf := buf, attErr := 2 } }
    else { s with cmd := { s.cmd with attBuf := buf, attRun := some buf } })
/-- The attestation request that runs ends with a code. -/
def State.attestEnd (s : State) (e : Nat) : State := { s with cmd := { s.cmd with attRun := none, attErr := e } }
/-- The nonce that a request reads, with what the device's caches hold of it written back first. -/
def State.attestNonce (s : State) (loc : Nat) : List Byte × State :=
  let s := s.flush fun p => !p.si && p.meets (loc + 16) 48
  (s.bytes (loc + 16) 48, s)
/-- The report of a request is written once the device is READY: a release at .sys scope. A buffer outside host memory, or a nonce that
reads as poison, ends it with ERR 01, and a request that boot's failure overtakes ends with ERR 10. (DEDUCED, log entry 72.) -/
def execAttestReport (s : State) : Out :=
  .next (match s.cmd.attRun with
    | none => s
    | some buf =>
      if s.boot.phase = 3 then s.attestEnd 2
      else if s.boot.phase ≠ 2 then s
      else
        let loc := attLoc buf
        let (nonce, s) := s.attestNonce loc
        if hostLimit < buf * 4096 + 512 ∨ s.poisoned (loc + 16) 48 then s.attestEnd 1
        else (s.homeWrite loc false (s.fullReport nonce)).attestEnd 0)
/-- The nonce read or a write of the report receives an error completion, with some bytes of the report written (R444). -/
def State.attestFail (s : State) (n : Nat) : State :=
  match s.cmd.attRun with
  | none => s
  | some buf =>
    if s.boot.phase ≠ 2 then s
    else
      let loc := attLoc buf
      let (nonce, s) := s.attestNonce loc
      (s.homeWrite loc false ((s.fullReport nonce).take (min n 511))).attestEnd 1

end Sys2Proof.Machine
end

