-- ==== Sys2Proof/Machine/Manage.lean ====
section
/-! DEFINITION. Management: translation invalidation (R406), the error log (R422), the quarantine list (R457), checkpoints (R463 to
R466), Balan Link ports and page hand-over (R119, R120, R467, R468), the host's accesses (R117), counters (R470), and the BAR0
registers as a whole. -/

namespace Sys2Proof.Machine
open Sys2Proof

/-! ### Launch windows (R379) -/

/-- A write of LWIN. -/
def State.writeLwin (s : State) (w : Nat) (v : DWord) : State :=
  s.modWindow w fun x =>
    let en := v.getLsbD 0
    { x with
      en := en, pre := v.getLsbD 1, base := bitsAt v 12 40, nseq := if en then 0 else x.nseq, stop := if en then false else x.stop }
/-- R379. -/
def execLwinWrite (w : Nat) (v : DWord) (s : State) : Out :=
  .next (if w < 64 ∧ s.boot.phase = 2 then s.writeLwin w v else s)

/-! ### TLBINV (R406) -/

/-- A write of TLBINV. -/
def State.writeTlbinv (s : State) (v : DWord) : State :=
  { s with cmd := { s.cmd with
    tlbinv := v &&& 0x01FFFFFFFFFF0FFF, tlbRun := if v.getLsbD 15 then s.cmd.tlbRun ++ [v] else s.cmd.tlbRun } }
/-- log2 of the range of addresses that a cached entry serves. -/
def TlbEntry.lg (t : TlbEntry) : Nat := if t.level < 3 then walkLg t.level else pageLg (t.leaf.toNat / 4 % 4)
/-- Is a cached entry in the range of an invalidation? -/
def invHits (v : DWord) (t : TlbEntry) : Bool :=
  let va := bitsAt v 16 41 * 2 ^ 16
  let lg := pageLg (bitsAt v 10 2)
  match bitsAt v 8 2 with
  | 0 =>
    let tl := t.lg
    t.ctx == bitsAt v 0 8 && decide (t.page * 2 ^ tl < (va / 2 ^ lg + 1) * 2 ^ lg) && decide (va / 2 ^ lg * 2 ^ lg < (t.page + 1) * 2 ^ tl)
  | 1 => t.ctx == bitsAt v 0 8
  | 2 => true
  | _ => false
/-- The warps whose accesses an invalidation waits for: those of its context. -/
def State.invWarps (s : State) (v : DWord) : List (Nat × Nat × Warp) :=
  s.allWarps.filter fun x => bitsAt v 8 2 == 2 || s.ctxNo x.2.2 == bitsAt v 0 8
/-- A write of TLBINV with GO. -/
def execTlbinvStart (v : DWord) (s : State) : Out := .next (if s.boot.phase = 2 then s.writeTlbinv v else s)
/-- Does a cached leaf map a location RO? -/
def TlbEntry.roCovers (t : TlbEntry) (loc : Nat) : Bool :=
  decide (3 ≤ t.level) && t.leaf.getLsbD 6 && t.leaf.toNat / 2 ^ 12 % 2 ^ 40 * 2 ^ 12 / 2 ^ t.lg == loc / 2 ^ t.lg
/-- The older copies of RO lines that an invalidation leaves: those of pages outside its range. -/
def keptCopies (v : DWord) (tlb : List TlbEntry) (xs : List Stale) : List Stale :=
  xs.filter fun x => !x.ro || (tlb.any (fun t => t.roCovers x.loc) && !(tlb.any fun t => invHits v t && t.roCovers x.loc))
/-- The first invalidation that runs is complete: cached entries of its range are gone, accesses translated before are performed, and L1
holds no line of an RO page of the range. It waits while memory holds one of the accesses back. (DEDUCED, log entry 21.) -/
def execTlbinvComplete (s : State) : Out :=
  .next (match s.cmd.tlbRun with
    | [] => s
    | v :: rest =>
      let ws := s.invWarps v
      if !(ws.all fun x => s.canRetire x.1 x.2.1 x.2.2) then s
      else
        match (ws.foldl (fun s x => (s.performAll x.1 x.2.1 (BitVec.allOnes 64)).endCopies x.1 x.2.1) s).flushed 4 fun _ => true with
        | none => s
        | some s =>
          { s with
            tlb := s.tlb.filter fun t => !invHits v t, stale := keptCopies v s.tlb s.stale, cmd := { s.cmd with tlbRun := rest } })

/-! ### The error log (R422) -/

/-- The eight double-words of a record (Table 26.2). -/
def ErrRecord.words (r : ErrRecord) : List DWord :=
  [BitVec.ofNat 64 (r.sseq % 2 ^ 32 + r.src % 2 ^ 16 * 2 ^ 32 + r.event % 2 ^ 8 * 2 ^ 48 + r.sev % 4 * 2 ^ 56 + r.cls % 4 * 2 ^ 58),
    BitVec.ofNat 64 (r.pair.2 % 2 ^ 32 + r.pair.1 % 2 ^ 16 * 2 ^ 32), r.launch.getD 0, BitVec.ofNat 64 (r.addr.toNat % 2 ^ 57), r.d0, r.d1,
    r.d2, if r.launch.isSome then 0x8000000000000000 else 0]
/-- Is the log full? -/
def ErrLog.full (l : ErrLog) : Bool := (l.head + 1) % 2 ^ l.log2 == l.tail
/-- The first waiting record is written when there is room: a release at .sys scope, and EMSIV is raised. The sources that waited for room
go on. -/
def execErrorRecordWrite (s : State) : Out :=
  .next (match s.log.queue with
    | [] => s
    | r :: rest =>
      if s.log.full || s.boot.phase != 2 then s
      else
        let s := s.homeWrite (hostLoc ((s.log.base * 4096 + 64 * s.log.head) % hostLimit)) false (r.words.flatMap (bytesOf 8))
        { s with log := { s.log with queue := rest, head := (s.log.head + 1) % 2 ^ s.log.log2, held := [] } }.raise s.log.msi)

/-! ### The quarantine list (R442, R457) -/

/-- A write of QLADD: the list changes with the store, and GO reads 1 until it is stored persistently. -/
def State.writeQladd (s : State) (v : DWord) : State :=
  let k := bitsAt v 0 10
  let s := { s with cmd := { s.cmd with qladd := v &&& 0x103FF, qladdGo := s.cmd.qladdGo || v.getLsbD 15 } }
  if !v.getLsbD 15 || !selectorOk (BitVec.ofNat 64 k) then s
  else if v.getLsbD 16 then { s with boot := { s.boot with quarantined := s.boot.quarantined.filter (· != k) } }
  else if s.boot.quarantined.contains k then s
  else { s with boot := { s.boot with quarantined := s.boot.quarantined ++ [k] } }
/-- QLADD with OP 0. -/
def execQladdAdd (sel : BitVec 10) (s : State) : Out :=
  .next (if s.boot.phase = 2 then s.writeQladd (BitVec.ofNat 64 (sel.toNat + 2 ^ 15)) else s)
/-- QLADD with OP 1. -/
def execQladdRemove (sel : BitVec 10) (s : State) : Out :=
  .next (if s.boot.phase = 2 then s.writeQladd (BitVec.ofNat 64 (sel.toNat + 2 ^ 15 + 2 ^ 16)) else s)
/-- The list is stored. -/
def execQladdStored (s : State) : Out := .next { s with cmd := { s.cmd with qladdGo := false } }

/-! ### Checkpoints (R463 to R466) -/

/-- Every tower is RUN. -/
def State.allRun (s : State) : Bool := (List.range 4).all fun t => (s.tower t).phase == .run
/-- No core holds a resident team. -/
def State.noTeams (s : State) : Bool := s.teams.all fun t => t.2.cores.all (· == hubCore)
/-- The fields of CKCTL as written. -/
def State.putCkctl (s : State) (op : Nat) (v : DWord) : State :=
  { s with ckpt := { s.ckpt with regOp := op, regDest := bitsAt v 16 36 } }
/-- An operation of the engine starts. -/
def State.runCkctl (s : State) (op : Nat) (v : DWord) : State :=
  let s := s.putCkctl op v
  { s with ckpt := { s.ckpt with op := op, dest := bitsAt v 16 36, go := true } }
/-- OP SAVE. -/
def State.ckptStart (s : State) (v : DWord) : State :=
  let s := s.runCkctl 1 v
  if s.allRun then { s with ckpt := { s.ckpt with phase := ckDraining, err := 0, prog := 0, npsn := 0 } } else s.ckptEnd 1
/-- R464: a save starts to drain the dispatcher. -/
def execCkptSave (dest : DWord) (s : State) : Out := .next (if s.ckpt.go || s.boot.phase != 2 then s else s.ckptStart dest)
/-- Has the dispatcher drained: no team, transfer or gatherer record left? -/
def State.ckptDrained (s : State) : Bool :=
  s.noTeams && !(s.nodes.any fun n => n.grid.isSome || n.xst.any fun x => x.2 == 1) && s.gather.groups.isEmpty && s.gather.overflow.isEmpty
/-- R464: the consistency point: every L1 is written back, which waits for the memory it goes to, and emptied; device memory is then the
image. -/
def execCkptConsistencyPoint (s : State) : Out :=
  .next (
    if s.ckpt.op = 1 ∧ s.ckpt.phase = ckDraining ∧ s.ckptDrained = true then
      match s.flushed 4 fun _ => true with
      | none => s
      | some s =>
        { s with
          stale := []
          ckpt := { s.ckpt with
            phase := ckCopying, image := s.mem.filter (fun c => isDev c.1), imagePsn := sectorsIn s.poison 0 devLimit } }
    else s)
/-- R464, R465: the copy ends, with the header last. A copy that fails leaves part of the body, and no header. -/
def execCkptCopyComplete (err : Option (BitVec 3)) (s : State) : Out :=
  .next (
    if s.ckpt.op ≠ 1 ∨ s.ckpt.phase ≠ ckCopying then s
    else if (List.range 4).any fun t => (s.tower t).phase == .dead then s.ckptFail 1
    else
      match err with
      | some e => s.ckptFail (if e = 0 then 2 else e.toNat)
      | none => if s.imageFits then s.mixImage.saveImage.ckptEnd 0 else s.ckptFail 2)
/-- OP RESTORE. -/
def State.restoreStart (s : State) (v : DWord) : State :=
  let s := s.runCkctl 2 v
  if s.noTeams && (List.range 64).all fun w => !(s.window w).en then
    { s with ckpt := { s.ckpt with phase := ckCopying, err := 0, prog := 0, npsn := 0 } }
  else s.ckptEnd 4
/-- R466. -/
def execCkptRestore (dest : DWord) (s : State) : Out := .next (if s.ckpt.go || s.boot.phase != 2 then s else s.restoreStart dest)
/-- R466: a restore ends; one that fails may have written part of device memory, past a valid header. -/
def execCheckpointRestoreDone (err : Option (BitVec 3)) (s : State) : Out :=
  .next (
    if s.ckpt.op ≠ 2 ∨ s.ckpt.phase ≠ ckCopying then s
    else
      match err with
      | some e => s.ckptFail (if e = 0 then 2 else e.toNat)
      | none =>
        if !s.imageFits then s.ckptFail 2
        else if headerOk s.readHeader then s.loadImage.ckptEnd 0
        else s.ckptEnd 3)

/-! ### Balan Link (R119, R120, R467, R468) -/

/-- The page that a page number of a peer is named by here: R404's address of it. -/
def isPeerPage (page : Nat) : Bool := decide (devPage peerBase ≤ page)
/-- Every sector of a device page is poisoned. -/
def poisonPage (page : Nat) (ps : List Nat) : List Nat :=
  ps ++ ((List.range 2048).map fun i => 2048 * page + i).filter fun x => !ps.contains x
/-- A port goes down (R468). -/
def State.portDown (s : State) (k : Nat) : State :=
  let held := s.homePages.filter fun p => p.1 % 16 == k && p.2 != .i
  let s := s.modPort k fun x => { x with up := false, lanes := 0, drop := min (x.drop + held.length) 0xFFFF }
  let s := { s with
    poison := held.foldl (fun ps (p : Nat × PageState) => if p.2 == PageState.m then poisonPage (p.1 / 16) ps else ps) s.poison
    homePages := s.homePages.filter fun p => p.1 % 16 != k }
  { s with
    peerPages := s.peerPages.filter fun p => portOf (p.1 * 2 ^ 16) != k
    pageReqs := s.pageReqs.filter fun r => r.port != k && !(isPeerPage r.page && portOf (r.page * 2 ^ 16) == k) }
/-- A write of LNKCTL; EN 0 takes the port down. (DESIGN CHOICE, log entry 82.) -/
def State.writeLnkctl (s : State) (k : Nat) (v : DWord) : State :=
  let en := v.getLsbD 0
  let s := s.modPort k fun x => { x with en := en }
  if !en && (s.port k).up then s.portDown k else s
/-- A port is enabled and trains. -/
def execLinkTrain (k : Nat) (s : State) : Out := .next (if k < 12 ∧ s.boot.phase = 2 then s.writeLnkctl k 1 else s)
/-- A port has trained with a number of lanes. -/
def execLinkUp (k : Nat) (lanes : BitVec 3) (s : State) : Out :=
  .next (if k < 12 ∧ (s.port k).en = true then s.modPort k fun x => { x with up := true, lanes := lanes.toNat } else s)
/-- A port goes down. -/
def execLinkDown (k : Nat) (s : State) : Out := .next (if (s.port k).up then s.portDown k else s)
/-- No L1 holds an older copy of bytes of a page (R120). -/
def State.dropPage (s : State) (page : Nat) : State := s.dropStale (fun _ => true) (page * 2 ^ 16) (2 ^ 16)
/-- The home of a peer's page asks this device to give it up (R120): it writes back, invalidates and acknowledges. -/
def execPageHandoverRequest (port page : Nat) (s : State) : Out :=
  .next (
    if isPeerPage page ∧ portOf (page * 2 ^ 16) = port ∧ (s.port port).up = true then
      let s := (s.flush fun p => devPage p.op.range.1 == page).dropPage page
      { s with peerPages := sdrop s.peerPages page }
    else s)
/-- A peer's request for a page homed here arrives (R120). (DESIGN CHOICE, log entry 25.) -/
def execPeerRequest (port page : Nat) (excl : Bool) (s : State) : Out :=
  .next (
    if port < 12 ∧ page < devPage devLimit ∧ (s.port port).up = true then
      { s with pageReqs := s.pageReqs ++ [⟨port, page, excl, true⟩] }
    else s)
/-- The holders of a page homed here that a request makes give it up. -/
def revoked (r : PageReq) (hs : List (Nat × PageState)) : List (Nat × PageState) :=
  hs.filter fun p => !(p.1 / 16 == r.page && p.1 % 16 != r.port && (r.excl || p.2 == .m))
/-- A grant: of a page homed here to the first requester, once every holder has acknowledged, or of a peer's page to this device. What a
holder has written back came before (`State.peerWrite`), and this device's own lines are written back now, as soon as memory lets them
be. (DESIGN CHOICE, log entry 25.) -/
def execPageGrant (page : Nat) (s : State) : Out :=
  .next (match s.pageReqs.find? fun r => r.page == page with
    | none => s
    | some r =>
      let st : PageState := if r.excl then .m else .s
      let t := { s with pageReqs := s.pageReqs.erase r }
      if isPeerPage page then { t with peerPages := sinsert t.peerPages page st }
      else
        let t := { t with homePages := revoked r t.homePages }
        if r.port = selfPort then t
        else
          match t.flushed 4 fun p => devPage p.op.range.1 == page with
          | none => s
          | some t => { t.dropPage page with homePages := sinsert t.homePages (16 * page + r.port) st })

/-! ### Accesses of the host and of peers (R117 to R120, R423, R438) -/

/-- May L1s hold the line of a location as a line of an SI page (R89): does a cached leaf of an SI page cover it? -/
def State.siMapped (s : State) (loc : Nat) : Bool :=
  s.tlb.any fun t => decide (3 ≤ t.level) && t.leaf.toNat / 16 % 4 == 1 &&
    t.leaf.toNat / 2 ^ 12 % 2 ^ 40 * 2 ^ 12 / 2 ^ t.lg == loc / 2 ^ t.lg
/-- An agent outside the device writes bytes at their home: the directory invalidates the L1 copies of DT lines first, and those of SI lines
may stay (Table 4.6). -/
def State.outsideWrite (s : State) (loc : Nat) (bs : List Byte) : State := s.homeWrite loc (s.siMapped loc) bs
/-- An agent outside the device reads bytes at their home: what an L1 holds dirty of a DT line is written back first (Table 4.6). -/
def State.outsideRead (s : State) (loc n : Nat) : State := s.flush fun p => !p.si && p.meets loc n
/-- A host read or write of `n` bytes of device memory, within one home; a read's data, with whether it came poisoned or as an error, goes to
the host. -/
def execHostCxlAccess (pa : Nat) (wr : Option (List Byte)) (n : Nat) (s : State) : Out :=
  .next (
    let n := match wr with
      | some bs => bs.length
      | none => n
    if s.boot.phase ≠ 2 ∨ devLimit < pa + n ∨ 4096 < pa % 4096 + n then s
    else
      match s.reach hubCore pa wr.isSome true, wr with
      | .dead, _ => { s with hostData := ([], true) }
      | .waits, _ => s.askPage pa wr.isSome true
      | .served, some bs => s.outsideWrite pa bs
      | .served, none =>
        let s := s.outsideRead pa n
        { s with hostData := (s.bytes pa n, s.poisoned pa n) })
/-- A host agent snoops a line of host memory (R118): the directory finds the device's copy of a line of a DT page, which is written back; no
L1 holds an older copy of such a line, so that nothing else is left to drop when `inv` asks for it. -/
def execHostSnoop (pa : Nat) (inv : Bool) (s : State) : Out :=
  .next (
    let lo := hostLoc (pa / 64 * 64)
    let s := s.outsideRead lo 64
    if inv && !s.siMapped lo && !s.roMapped lo then s.dropStale (fun _ => true) lo 64 else s)
/-- The host writes its own memory (R118, R380). -/
def State.hostWrite (s : State) (hpa : Nat) (bs : List Byte) : State :=
  if hpa + bs.length ≤ hostLimit ∧ hpa % 4096 + bs.length ≤ 4096 then s.outsideWrite (hostLoc hpa) bs else s
/-- A peer accesses device memory of this device under a UC mapping, at its home (R119). -/
def State.peerAccess (s : State) (port pa : Nat) (wr : Option (List Byte)) (n : Nat) : State :=
  let n := match wr with
    | some bs => bs.length
    | none => n
  if port < 12 ∧ (s.port port).up = true ∧ pa + n ≤ devLimit ∧ pa % 4096 + n ≤ 4096 then
    match s.reach hubCore pa wr.isSome true, wr with
    | .served, some bs => s.outsideWrite pa bs
    | .served, none => s.outsideRead pa n
    | .waits, _ => s.askPage pa wr.isSome true
    | .dead, _ => s
  else s
/-- A peer that holds a page M writes bytes of it back to their home (R120). -/
def State.peerWrite (s : State) (port pa : Nat) (bs : List Byte) : State :=
  if s.heldBy (devPage pa) port = .m ∧ (s.port port).up = true ∧ pa + bs.length ≤ devLimit ∧ pa % 4096 + bs.length ≤ 4096 then
    s.outsideWrite pa bs
  else s
/-- A store in flight rises by one level: its L1 domain sees it, then its cluster, and at last it is performed with respect to every
thread (R101 to R107); `late` are the domains that then go on reading stale copies (R103). -/
def execStorePerformed (id : Nat) (late : List Nat) (s : State) : Out :=
  .next (match s.pend.find? fun p => p.id == id with
    | none => s
    | some p =>
      if s.canRise p && !s.riseBlocked p then s.rise p late else s)

/-! ### Counters and clock (R469, R470) -/

/-- A tower counter now: the replay stalls are counted, the others measure traffic. -/
def State.liveCounter (s : State) (t k : Nat) : DWord :=
  if k = 8 then sget 0 s.counters (16 * t + 8) else Config.freeCounter (16 * t + k) s.hubNow
/-- Every counter. (DESIGN CHOICE, log entry 8.) -/
def State.allCounters (s : State) : List (Nat × DWord) :=
  (List.range 4).flatMap fun t => (List.range 9).map fun k => (16 * t + k, s.liveCounter t k)
/-- R470: a write of CNTFRZ. -/
def State.writeCntfrz (s : State) (v : DWord) : State :=
  { s with latched := if v.getLsbD 0 then some s.allCounters else none }
/-- R470. -/
def execCntfrzWrite (v : DWord) (s : State) : Out := .next (if s.boot.phase = 2 then s.writeCntfrz v else s)
/-- R469: the power manager sets the arithmetic clock, from 2.0 to 2.4 GHz. -/
def execPowerManagerClockChange (mhz : Nat) (s : State) : Out := .next { s with clock := max 2000 (min mhz 2400) }

/-! ### BAR0 (R16, R17, R379, R401, R422, R432, R433, R444, R455, R457, R463, R467, R470) -/

/-- A register of the contexts' block (Table 25.1). -/
def State.readCtx (s : State) (c o : Nat) : DWord :=
  let x := s.ctx c
  BitVec.ofNat 64 (match o with
    | 0 => x.en.toNat + x.root % 2 ^ 36 * 2 ^ 16
    | 8 => x.tqlog % 16 + x.tqbase % 2 ^ 40 * 2 ^ 12
    | 16 => x.tqhead
    | 24 => x.tqtail
    | 32 => x.msiv
    | _ => 0)
/-- R92: a context's creation gives its four beam tables their creation state; no earlier store to them is left. DEDUCED: the context is
created when its EN rises (log entry 40). -/
def State.createCtx (s : State) (c : Nat) : State :=
  { s with
    pend := s.pend.filter fun p => p.op.table.all fun t => t.1 != c
    beams := s.beams.filter fun x => x.1 / 4 != c }
/-- A write to the contexts' block. (DEDUCED, log entry 40.) -/
def State.writeCtx (s : State) (c o : Nat) (v : DWord) : State :=
  (if o = 0 ∧ v.getLsbD 0 ∧ (s.ctx c).en = false then s.createCtx c else s).modCtx c fun x =>
    match o with
    | 0 => { x with en := v.getLsbD 0, root := bitsAt v 16 36 }
    | 8 => { x with tqlog := bitsAt v 0 4, tqbase := bitsAt v 12 40 }
    | 24 => { x with tqtail := bitsAt v 0 10 }
    | 32 => { x with msiv := bitsAt v 0 11 }
    | _ => x
/-- A register of the windows' block (Table 23.1). -/
def State.readWin (s : State) (w o : Nat) : DWord :=
  let x := s.window w
  if o = 0 then BitVec.ofNat 64 (x.en.toNat + x.pre.toNat * 2 + x.base % 2 ^ 40 * 2 ^ 12)
  else if o = 8 then
    BitVec.ofNat 64 (x.nseq + x.stop.toNat * 2 ^ 7 + x.susp.isSome.toNat * 2 ^ 8 + (s.windowBusy w).toNat * 2 ^ 9)
  else if 64 ≤ o ∧ o % 8 = 0 then sget 0 x.ss ((o - 64) / 8)
  else 0
/-- Code of a tower's state (Table 26.8). -/
def TowerPhase.code : TowerPhase → Nat
  | .run => 0
  | .quiescing => 1
  | .fenced => 2
  | .resetting => 3
  | .waking => 4
  | .dead => 5
/-- A register of the towers' block. -/
def State.readTower (s : State) (t o : Nat) : DWord :=
  let x := s.tower t
  BitVec.ofNat 64 (if o = 0 then x.op + x.go.toNat * 2 ^ 15 else x.phase.code + x.awake * 2 ^ 4 + x.err * 2 ^ 8)
/-- SPARE(t), the low or the high word (Table 29.1). -/
def State.readSpare (s : State) (t : Nat) (hi : Bool) : DWord :=
  BitVec.ofNat 64 (((List.range 72).filter fun p => s.isSpare (256 * t + p) && (decide (64 ≤ p) == hi)).map fun p => 2 ^ (p % 64)).sum
/-- A port's register (Table 30.3). -/
def State.readPort (s : State) (k : Nat) (stat : Bool) : DWord :=
  let x := s.port k
  BitVec.ofNat 64 (if stat then x.up.toNat + x.lanes * 2 + x.repl * 2 ^ 16 + x.drop * 2 ^ 32 else x.en.toNat)
/-- The registers below offset 0x0600. -/
def State.readLow (s : State) (off : Nat) : DWord :=
  let c := s.cmd
  match off with
  | 0x080 =>
    let b := s.boot
    BitVec.ofNat 64 (b.phase + b.slot * 4 + b.err * 2 ^ 8 + b.err1 * 2 ^ 12 + b.svn % 2 ^ 16 * 2 ^ 16)
  | 0x100 => BitVec.ofNat 64 (s.waitc + s.freeEntries * 16)
  | 0x140 => BitVec.ofNat 64 s.fnmode
  | 0x180 => BitVec.ofNat 64 (s.log.log2 + s.log.base % 2 ^ 40 * 2 ^ 12)
  | 0x188 => BitVec.ofNat 64 s.log.head
  | 0x190 => BitVec.ofNat 64 s.log.tail
  | 0x198 => BitVec.ofNat 64 s.log.drop
  | 0x1A0 => BitVec.ofNat 64 s.log.msi
  | 0x200 => c.tlbinv ||| (if c.tlbRun.isEmpty then 0 else 0x8000)
  | 0x210 => c.tcmd ||| (if c.tcmdRun.isEmpty then 0 else 0x8000)
  | 0x220 => c.qcmd ||| (if c.qcmdRun.isEmpty then 0 else 0x8000)
  | 0x228 => c.qladd ||| (if c.qladdGo then 0x8000 else 0)
  | 0x400 => BitVec.ofNat 64 (c.attRun.isSome.toNat + c.attErr * 2 + c.attBuf * 2 ^ 12)
  | 0x500 => BitVec.ofNat 64 (s.ckpt.regOp + s.ckpt.go.toNat * 2 ^ 15 + s.ckpt.regDest * 2 ^ 16)
  | 0x508 => BitVec.ofNat 64 (s.ckpt.phase + s.ckpt.err * 8 + s.ckpt.prog * 2 ^ 8 + s.ckpt.npsn * 2 ^ 32)
  | 0x510 => BitVec.ofNat 64 s.ckpt.msi
  | _ =>
    if 0x240 ≤ off ∧ off < 0x280 ∧ off % 8 = 0 then s.readSpare ((off - 0x240) / 16) (off % 16 == 8)
    else if 0x300 ≤ off ∧ off < 0x340 ∧ off % 8 = 0 then s.readTower ((off - 0x300) / 16) (off % 16)
    else 0
/-- Is a register exposed: before READY only BOOTSTAT and ATTCTL are (R439, R442)? -/
def State.exposed (s : State) (off : Nat) : Bool := s.boot.phase == 2 || off == 0x80 || off == 0x400
/-- The BAR0 register at an offset; an offset that no table names, or that is not exposed, reads as zero. -/
def State.readReg (s : State) (off : Nat) : DWord :=
  if s.exposed off = false then 0
  else if off < 0x600 then s.readLow off
  else if off < 0x600 + 16 * 12 then (if off % 8 = 0 then s.readPort ((off - 0x600) / 16) (off % 16 == 8) else 0)
  else if 0x800 ≤ off ∧ off < 0xA00 then
    let t := (off - 0x800) / 128
    let k := (off - 0x800) % 128 / 8
    if off % 8 = 0 ∧ k < 9 then (match s.latched with
      | some m => sget 0 m (16 * t + k)
      | none => s.liveCounter t k) else 0
  else if off = 0xA00 then (if s.latched.isSome then 1 else 0)
  else if 0x10000 ≤ off ∧ off < 0x12000 then s.readWin ((off - 0x10000) / 128) (off % 128)
  else if 0x20000 ≤ off ∧ off < 0x24000 then s.readCtx ((off - 0x20000) / 64) (off % 64)
  else if 0x40000 ≤ off ∧ off < 0x40000 + 64 * 288 then
    let i := (off - 0x40000) / 64
    let k := i / 72 * 256 + i % 72
    let o := off % 64
    if o = 0 then s.mgnCtl k else if 32 ≤ o ∧ o % 8 = 0 then s.mgnStat k ((o - 32) / 8) else 0
  else 0
/-- The state that a meaning leaves, where it answers a next state. -/
def orElse (s : State) : Out → State
  | .next s' => s'
  | _ => s
/-- A write of a command register with its GO bit, by OP; with OP none it is done at once. -/
def State.writeTwrctl (s : State) (t : Nat) (v : DWord) : State :=
  if !v.getLsbD 15 then s.modTower t fun x => { x with op := bitsAt v 0 2 }
  else
    match bitsAt v 0 2 with
    | 1 => orElse s (execTowerQuiesce t s)
    | 2 => orElse s (execTowerReset t s)
    | 3 => orElse s (execTowerRelease t s)
    | op => s.modTower t fun x => { x with op := op, err := if x.go then x.err else 0 }
/-- A write of TCMD. -/
def State.writeTcmd (s : State) (v : DWord) : State :=
  if !v.getLsbD 15 then s.putTcmd v
  else
    match bitsAt v 8 2 with
    | 0 => orElse s (execTcmdResume v s)
    | 1 => orElse s (execTcmdKill v s)
    | _ => s.putTcmd v
/-- A write of QCMD; a command with the reserved OP completes with no other effect than that its fields are stored. In hardware mode a
write with GO is ignored (R455). (DESIGN CHOICE, log entry 73.) -/
def State.writeQcmd (s : State) (v : DWord) : State :=
  let k := bitsAt v 0 10
  if !v.getLsbD 15 then { s with cmd := { s.cmd with qcmd := v &&& 0x303FF } }
  else
    match bitsAt v 16 2 with
    | 0 => orElse s (execQcmdSpare k s)
    | 1 => orElse s (execQcmdWithdraw k s)
    | 2 => orElse s (execQcmdRebind k s)
    | _ => if s.mesc then s.putQcmd v else s
/-- A write of CKCTL. -/
def State.writeCkctl (s : State) (v : DWord) : State :=
  if !v.getLsbD 15 then s.putCkctl (bitsAt v 0 2) v
  else if s.ckpt.go then s
  else
    match bitsAt v 0 2 with
    | 1 => s.ckptStart v
    | 2 => s.restoreStart v
    | op => s.putCkctl op v
/-- Writes below offset 0x0600. (DEDUCED, log entry 48.) -/
def State.writeLow (s : State) (off : Nat) (v : DWord) : State :=
  match off with
  | 0x140 => { s with fnmode := bitsAt v 0 6 }
  | 0x180 =>
    let n := bitsAt v 0 5
    if 4 ≤ n ∧ n ≤ 16 then { s with log := { s.log with log2 := n, base := bitsAt v 12 40 } } else s
  | 0x190 => { s with log := { s.log with tail := bitsAt v 0 16 } }
  | 0x198 => { s with log := { s.log with drop := (BitVec.ofNat 32 s.log.drop &&& ~~~ loWord v).toNat } }
  | 0x1A0 => { s with log := { s.log with msi := bitsAt v 0 11 } }
  | 0x200 => s.writeTlbinv v
  | 0x210 => s.writeTcmd v
  | 0x220 => s.writeQcmd v
  | 0x228 => s.writeQladd v
  | 0x400 => orElse s (execAttestRequest v s)
  | 0x500 => s.writeCkctl v
  | 0x510 => { s with ckpt := { s.ckpt with msi := bitsAt v 0 11 } }
  | _ => if 0x300 ≤ off ∧ off < 0x340 ∧ off % 16 = 0 then s.writeTwrctl ((off - 0x300) / 16) v else s
/-- A write of a BAR0 register by the host or by hub firmware, under its access codes; an offset that no table names, or that is not
exposed, ignores it. -/
def State.writeReg (s : State) (off : Nat) (v : DWord) : State :=
  if s.exposed off = false then s
  else if off < 0x600 then s.writeLow off v
  else if off < 0x600 + 16 * 12 then
    let k := (off - 0x600) / 16
    if off % 16 = 0 then s.writeLnkctl k v
    else if off % 16 = 8 then s.modPort k fun x => { x with drop := (BitVec.ofNat 16 x.drop &&& ~~~ v.extractLsb' 32 16).toNat }
    else s
  else if off = 0xA00 then s.writeCntfrz v
  else if 0x10000 ≤ off ∧ off < 0x12000 then (if off % 128 = 0 then s.writeLwin ((off - 0x10000) / 128) v else s)
  else if 0x20000 ≤ off ∧ off < 0x24000 then s.writeCtx ((off - 0x20000) / 64) (off % 64) v
  else if 0x40000 ≤ off ∧ off < 0x40000 + 64 * 288 ∧ off % 64 = 0 then
    let i := (off - 0x40000) / 64
    orElse s (execMgncWrite (i / 72 * 256 + i % 72) v s)
  else s
/-- A host write of a BAR0 register. -/
def execRegisterWrite (off : Nat) (v : DWord) (s : State) : Out := .next (s.writeReg off v)

end Sys2Proof.Machine
end

