-- ==== Sys2Proof/Machine/System.lean ====
section
/-! DEFINITION. System words (R331 to R343): traps on request, the check-interval read, regions, the special-register moves, core
control, the in-field scan and the core map. -/

namespace Sys2Proof.Machine
open Sys2Proof

/-! ### Major 0x2B (R332 to R335) -/

/-- R333: the trap is raised by the checks of issue; a word whose guard is true in no lane does nothing. -/
def execTrap (g : Guard) (n : BitVec 15) (s : State) : Out := word (.trap g n) s fun _ s => s
/-- R333: without the debug flag no effect. -/
def execBrk (g : Guard) (n : BitVec 15) (s : State) : Out := word (.brk g n) s fun _ s => s
/-- CIR of a team. -/
def State.cirOf (s : State) (tid : Nat) : DWord :=
  match s.team? tid with
  | some tm => tm.cir
  | none => 0
/-- CIR as the word that runs reads it: the repeat of an issue reads what its first attempt read (R448). -/
def State.cirSeen (s : State) (tid : Nat) : DWord :=
  match (s.core s.cur.core).replays.find? fun r => r.slot == s.cur.slot && r.slices == s.cur.slices with
  | some r => r.cir
  | none => s.cirOf tid
/-- R334: the warp's own results have landed first; CIR is read, and with .clr cleared. -/
def execChkerr (clr : Bool) (d : SReg) (s : State) : Out :=
  word (.chkerr clr d) s fun w s =>
    let idle := match s.live? with
      | some v => v.pending.isEmpty
      | none => true
    let s := s.landSome s.cur.core s.cur.slot fun _ => true
    let s := s.modLive fun v => v.sset d (if idle then s.cirSeen w.team else s.cirOf w.team)
    if clr then (s.modTeam w.team fun tm => { tm with cir := cirClear tm.cir true true }).modLive Warp.endRegion else s
/-- R335: the entry holds what the bundle found. A word of the bundle that pops the Serpent stack takes it below D0, which ends the region
(R155). (DEDUCED, log entry 67.) -/
def execRegion (s : State) : Out :=
  word .region s fun w s => s.modLive fun v =>
    { v with region := if v.depth < w.depth then none else some ⟨s.cur.pc, w.depth, w.nb, w.alive⟩ }

/-! ### Special registers (R337, R338) -/

/-- GANG of a gang (Table 2.7). -/
def gangReg (m : BitVec 16) : DWord := BitVec.ofNat 64 (m.toNat + lowSlice m * 2 ^ 16)
/-- The value RDSR reads; a per-core register is that of the core that s(d) selects. -/
def rdsrValue (s : State) (w : Warp) (d : SReg) (n : SpecReg) : DWord :=
  match n with
  | .mode => match w.lead? s.cur.slices with
    | some x => x.mode
    | none => 0
  | .fmt => match w.lead? s.cur.slices with
    | some x => x.fmt
    | none => 0
  | .shape => w.shape
  | .cir => s.cirSeen w.team
  | .rsb => w.rsb
  | .rsp => w.rsp
  | .bx k => sget 0 w.bx k.toNat
  | .gang => gangReg s.cur.slices
  | .semap => (s.core (w.sget d).toNat).semap
  | .mgnCtl => s.mgnCtl (w.sget d).toNat
/-- R337. -/
def execRdsr (d : SReg) (n : SpecReg) (s : State) : Out :=
  word (.rdsr d n) s fun w s => s.modLive fun v => v.sset d (rdsrValue s w d n)
/-- R337, R338, R51 to R55: `x` is written to a register; RO registers ignore it. (DEDUCED, log entry 41.) -/
def wrsrEffect (n : SpecReg) (w : Warp) (d : SReg) (x : DWord) (s : State) : State :=
  match n with
  | .mode => s.modLive fun v => v.modSlices s.cur.slices fun y => { y with mode := modeBits x }
  | .fmt => s.modLive fun v => v.modSlices s.cur.slices fun y => { y with fmt := fmtBits x }
  | .shape => s.modLive fun v => { v with shape := shapeBits x }
  | .cir =>
    (s.modTeam w.team fun tm => { tm with cir := cirClear tm.cir (x.getLsbD 0) (x.getLsbD 1) }).modLive Warp.endRegion
  | .rsb => s
  | .rsp => s
  | .bx k => s.modLive fun v => { v with bx := sput 0 v.bx k.toNat (bxBits x) }
  | .gang => s
  | .semap => s.modCore (w.sget d).toNat fun c => { c with semap := x &&& 0xFFFFFFFFF }
  | .mgnCtl => s.writeMgn (w.sget d).toNat x
/-- R337. -/
def execWrsr (d a : SReg) (n : SpecReg) (s : State) : Out :=
  word (.wrsr d a n) s fun w s => wrsrEffect n w d (w.sget a) s

/-! ### Core control (R340) -/

/-- The core status of Table 16.3. -/
def State.coreStatus (s : State) (k : Nat) : DWord :=
  let ts := s.resident k
  let c := s.core k
  BitVec.ofNat 64 ((!ts.isEmpty).toNat + (!ts.isEmpty && ts.all fun t => t.2.halted).toNat * 2 + c.drain.toNat * 4 +
    c.mgn.qreq.toNat * 8 + c.scanning.toNat * 16 +
    (match s.logical? k with
      | some l => 32 + l % 256 * 64
      | none => 0))
/-- A CORECTL word: its operation on the selected core, then the status. -/
def corectl (i : Instr) (d a : SReg) (s : State) (op : Nat → State → State) : Out :=
  word i s fun w s =>
    let k := (w.sget a).toNat
    let s := op k s
    s.modLive fun v => v.sset d (s.coreStatus k)
/-- R340. -/
def execCorectlStatus (d a : SReg) (s : State) : Out := corectl (.corectlStatus d a) d a s fun _ s => s
/-- R340, R459: no team is placed on the core from now on. -/
def execCorectlDrain (d a : SReg) (s : State) : Out :=
  corectl (.corectlDrain d a) d a s fun k s => s.modCore k fun c => { c with drain := true }
/-- R340. -/
def execCorectlAdmit (d a : SReg) (s : State) : Out :=
  corectl (.corectlAdmit d a) d a s fun k s => s.modCore k fun c => { c with drain := false }
/-- Every resident team of a core that is not halted halts with cause CSTOP; the pair names the source that issued it (R339, R408).
(DEDUCED, log entry 38.) -/
def State.stopCore (s : State) (k by_ : Nat) : State :=
  (s.resident k).foldl (fun s t =>
    if t.2.halted then s
    else (s.cstop t.1 false (haltSource by_, sget 0 s.seqs (haltSource by_))).modTeam t.1 fun tm => { tm with byStop := true }) s
/-- R340. -/
def execCorectlStop (d a : SReg) (s : State) : Out :=
  corectl (.corectlStop d a) d a s fun k s => s.stopCore k s.cur.core
/-- Was a team halted by STOP or restored, with all its cores in place (R340, R418)? -/
def stoppedTeam (tm : Team) : Bool :=
  tm.halted && tm.byStop && tm.core != noCore && !(tm.paired && tm.odd == noCore)
/-- A stopped team restarts; its record is written first, and while it waits the team stays halted (R407). -/
def State.restartStopped (s : State) (tid : Nat) : State :=
  match s.team? tid with
  | none => s
  | some tm =>
    if !stoppedTeam tm then s
    else
      let s := s.finishHalt tid
      let s := if tm.recWait then s.writeTrapRecord tid tm else s
      match s.team? tid with
      | some tm => if tm.recWait then s else s.resumeTeam tid
      | none => s
/-- R340: the teams of a core halted by STOP or restored by CRESTORE restart. -/
def State.resumeCore (s : State) (k : Nat) : State := (s.resident k).foldl (fun s t => s.restartStopped t.1) s
/-- R340. -/
def execCorectlResume (d a : SReg) (s : State) : Out :=
  corectl (.corectlResume d a) d a s fun k s => s.resumeCore k

/-! ### Scan (R341, R458, R459) -/

/-- Core cycles of the pattern set. -/
def scanCycles : Nat := 480000
/-- R341: the pattern set starts on a drained, empty core without a scan. -/
def execScan (d a : SReg) (s : State) : Out :=
  word (.scan d a) s fun w s =>
    let k := (w.sget a).toNat
    if s.semapOpen k then (s.startScan k false).modLive fun v => v.sset d 0 else s.modLive fun v => v.sset d 1
/-- Elapsed core cycles of a scan: they stop at the last pattern cycle that ran (R459), which an abort bounds. -/
def Scan.cycles (x : Scan) (now : Nat) : Nat :=
  match x.phase with
  | .running => min (min now (x.abortAt.getD now) - x.start) scanCycles
  | _ => x.elapsed
/-- The state and elapsed count that SCANRD writes. -/
def Scan.word (x : Scan) (now : Nat) : DWord :=
  let st := match x.phase with
    | .idle => 0
    | .running => 1
    | .clearing _ => 1
    | .done => 2
    | .aborted => 3
  BitVec.ofNat 64 (st + x.cycles now / 256 * 2 ^ 8)
/-- R341: state, elapsed count and signature. -/
def execScanrd (d a : SReg) (s : State) : Out :=
  word (.scanrd d a) s fun w s =>
    let x := (s.core (w.sget a).toNat).scan
    s.modLive fun v => (v.sset d (x.word s.coreNow)).sset (d + 1) (if x.phase == .done then x.sig else 0)
/-- R341: an abort takes effect at most 64 core cycles from now. (DEDUCED, log entry 49.) -/
def execScanab (a : SReg) (s : State) : Out :=
  word (.scanab a) s fun w s =>
    s.modCore (w.sget a).toNat fun c =>
      if c.scan.phase == .running && c.scan.abortAt.isNone then { c with scan := { c.scan with abortAt := some (s.coreNow + 64) } } else c
/-- The patterns of a core's scan stop and the clearing begins. -/
def State.endPatterns (s : State) (k at_ : Nat) (aborted : Bool) (sig : DWord) : State :=
  s.modCore k fun c => { c with
    scan := { c.scan with
      phase := .clearing aborted, elapsed := at_ - c.scan.start, sig := sig, abortAt := none, clearFrom := at_ } }
/-- R341: an abort takes effect; after the last pattern cycle it has none. (DEDUCED, log entry 49.) -/
def execScanabTakeEffect (core : Nat) (s : State) : Out :=
  .next (
    let x := (s.core core).scan
    match x.abortAt with
    | some t =>
      let at_ := min s.coreNow t
      if x.phase == .running && decide (at_ < x.start + scanCycles) then s.endPatterns core at_ true 0 else s
    | none => s)
/-- R341: the last pattern cycle has run, with the signature of the patterns; not when an abort was bound to come before it. -/
def execScanPatternsEnd (core : Nat) (sig : DWord) (s : State) : Out :=
  .next (
    let x := (s.core core).scan
    let last := x.start + scanCycles
    let cut := match x.abortAt with
      | some t => decide (t < last)
      | none => false
    if x.phase == .running && decide (last ≤ s.coreNow) && !cut then s.endPatterns core last false sig else s)
/-- A scan that firmware scheduled for a replaced core passes: the core leaves the quarantine list (R453). -/
def State.scanPassed (s : State) (k : Nat) (x : Scan) (ab : Bool) : State :=
  if x.auto && !ab && x.sig == s.boot.scanSig then
    { s with boot := { s.boot with quarantined := s.boot.quarantined.filter (· != k) } }
  else s
/-- R341, R458: the core's arrays are zero and the scan is done or aborted; a SELF_TEST record says so. -/
def execScanClearComplete (core : Nat) (s : State) : Out :=
  .next (
    let x := (s.core core).scan
    match x.phase with
    | .clearing ab =>
      if s.coreNow < x.clearFrom + 2304 then s
      else
        let s := { s with mem := sdropRange s.mem (spadLoc core 0) (spadLoc (core + 1) 0) }
        let s := s.modCore core fun c =>
          { c with scan := { c.scan with phase := if ab then .aborted else .done }, latent := c.latent.filter fun l => l.unit == 5 }
        let s := s.scanPassed core x ab
        (s.report (mkRecord (checkerSource core) 0x38 0 (0, 0) 0 (if ab then 7 else 3) (if ab then 0 else x.sig) 0)).2
    | _ => s)

/-! ### The core map and the margin read (R342, R343) -/

/-- Does a core have DRAIN and no resident team (R342)? -/
def State.idleCore (s : State) (k : Nat) : Bool := (s.core k).drain && (s.resident k).isEmpty
/-- The code of the first condition of R342 that fails, or 0. -/
def State.cmapCode (s : State) (l p : Nat) : Nat :=
  if (s.logical? p).isSome then 2
  else if coreTower p ≠ l / 64 then 3
  else if !s.idleCore p || (match s.physical? l with
    | some q => !s.idleCore q
    | none => false) then 1
  else 0
/-- Entry `l` of the logical core map becomes `p` (R342, R442). -/
def State.setMap (s : State) (l p : Nat) : State :=
  { s with boot := { s.boot with map := sinsert s.boot.map l p, mapgen := s.boot.mapgen + 1 } }
/-- R342. -/
def execCmapw (d a : SReg) (s : State) : Out :=
  word (.cmapw d a) s fun w s =>
    let l := (w.sget a).toNat
    let p := (w.sget (a + 1)).toNat
    let code := s.cmapCode l p
    let s := if code = 0 then s.setMap l p else s
    s.modLive fun v => v.sset d (BitVec.ofNat 64 code)
/-- R343. -/
def execMgnrd (d a : SReg) (n : BitVec 6) (s : State) : Out :=
  word (.mgnrd d a n) s fun w s => s.modLive fun v => v.sset d (s.mgnStat (w.sget a).toNat n.toNat)

end Sys2Proof.Machine
end

