-- ==== Sys2Proof/Machine/Context.lean ====
section
/-! DEFINITION. Context save and restore (R339, R415 to R418): the save area's layout, CSAVE and CRESTORE. Everything a restore loads is
in the area; where Tables 25.7 to 25.9 give a part no inner layout, the layout here is the model's (DESIGN CHOICE, log entry 86). -/

namespace Sys2Proof.Machine
open Sys2Proof

/-! ### Bytes of the area -/

/-- Bytes to the next multiple of 64 (R415). -/
def padTo64 (n : Nat) : Nat := (n + 63) / 64 * 64
/-- Zero bytes. -/
def zeros (n : Nat) : List Byte := List.replicate n 0
/-- Bytes padded with zeros to a length. -/
def padBytes (n : Nat) (bs : List Byte) : List Byte := bs ++ zeros (n - bs.length)
/-- Bytes padded to a multiple of 64. -/
def padded (bs : List Byte) : List Byte := padBytes (padTo64 bs.length) bs
/-- A number in `n` bytes, lowest first. -/
def numBytes : Nat → Nat → List Byte
  | 0, _ => []
  | n + 1, x => BitVec.ofNat 8 x :: numBytes n (x / 2 ^ 8)
/-- Words as bytes. -/
def wordBytes (ws : List Word) : List Byte := ws.flatMap fun x => bytesOf 4 (x.zeroExtend 64)
/-- Double-words as bytes. -/
def dwordBytes (ws : List DWord) : List Byte := ws.flatMap (bytesOf 8)
/-- A double-word of the area. -/
def dwAt (bs : List Byte) (o : Nat) : DWord := BitVec.ofNat 64 (leAt bs o 8)
/-- A word of the area. -/
def wordAt (bs : List Byte) (o : Nat) : Word := BitVec.ofNat 32 (leAt bs o 4)
/-- A map of `n` words from their keys and offsets in the area. -/
def readMap (bs : List Byte) (n : Nat) (key off : Nat → Nat) : List (Nat × Word) :=
  (List.range n).foldl (fun m x => sput 0 m (key x) (wordAt bs (off x))) []
/-- A map of `n` double-words. -/
def readMap8 (bs : List Byte) (n o : Nat) : List (Nat × DWord) := (List.range n).foldl (fun m x => sput 0 m x (dwAt bs (o + 8 * x))) []
/-- The number of the warp in a slot. -/
def slotNum (ws : List (Nat × Warp)) (slot : Nat) : Nat :=
  match sfind ws slot with
  | some w => w.num
  | none => 0
/-- The slot of the warp with a number. -/
def numSlot (ws : List (Nat × Warp)) (n : Nat) : Nat :=
  match ws.find? fun x => x.2.num == n with
  | some x => x.1
  | none => 32

/-! ### A team's part on one core -/

/-- Does the sequencer of a core work for a team? -/
def State.ownsSeq (s : State) (k tid : Nat) : Bool := (s.core k).seq.running && (s.core k).seq.team == tid
/-- A team's warps on a core. -/
def State.partWarps (s : State) (k tid : Nat) : List (Nat × Warp) := (s.core k).warps.filter fun p => p.2.team == tid
/-- A halted team as a restore leaves it: halted, with cause CSTOP, until CORECTL RESUME (R418). -/
def Team.stoppedAs (tm : Team) : Team :=
  { tm with halted := true, cause := some ({ cause := .cstop }, 0, false, 0), recWait := false, byStop := true }
/-- The entries of a half of the team in maps keyed `n` to a half. -/
def halfOnly {α : Type} (n h : Nat) (m : List (Nat × α)) : List (Nat × α) := m.filter fun p => p.1 / n == h
/-- The entries of the other half. -/
def halfAway {α : Type} (n h : Nat) (m : List (Nat × α)) : List (Nat × α) := m.filter fun p => p.1 / n != h
/-- A team without what its half `h` holds, and with no core there. -/
def Team.without (tm : Team) (h : Nat) : Team :=
  { tm with
    core := if h = 0 then noCore else tm.core, odd := if h = 1 then noCore else tm.odd
    tiles := halfAway 64 h tm.tiles, words := halfAway 65536 h tm.words, seqArr := halfAway 128 h tm.seqArr }

/-! ### The team header (Table 25.7) -/

/-- What a team header says: the launch's fields, the team's half, CIR, the block's length, and the grid with its window. -/
structure BlockHead where
  ctx : Nat
  win : Nat
  lseq : Nat
  num : Nat
  width : Nat
  tiles : Nat
  warps : Nat
  pool : Nat
  paired : Bool
  half : Nat
  owned : Bool
  debug : Bool
  slice : Bool
  fuse : Bool
  spdbg : Bool
  xearly : Bool
  pin : Bool
  spad : Nat
  cir : DWord
  len : Nat
  grid : Nat
  deriving DecidableEq, Repr
/-- The header of a team's part on a core. -/
def State.blockHead (s : State) (k tid : Nat) (tm : Team) (g : Grid) (len : Nat) : BlockHead where
  ctx := g.lr.ctx
  win := g.win
  lseq := g.lr.seq
  num := tm.num
  width := g.lr.width
  tiles := g.lr.win
  warps := g.coreWarps
  pool := g.lr.pool
  paired := tm.paired
  half := tm.halfOf k
  owned := s.ownsSeq k tid
  debug := g.lr.debug
  slice := g.lr.slice
  fuse := g.lr.l1fuse
  spdbg := g.lr.spdbg
  xearly := g.lr.xearly
  pin := g.lr.pin
  spad := g.lr.spad
  cir := tm.cir
  len := len
  grid := tm.grid
/-- The bytes of a team header. -/
def BlockHead.bytes (x : BlockHead) : List Byte :=
  padBytes 256 (dwordBytes [launchField x.ctx x.win x.lseq x.num] ++ numBytes 4 (x.width + x.tiles * 2 ^ 8 + x.warps * 2 ^ 16 + x.pool * 2 ^ 24) ++
    numBytes 4 (x.paired.toNat + x.half * 2 + x.owned.toNat * 4 + Bool.toNat x.debug * 8 + x.slice.toNat * 16 + x.fuse.toNat * 32 +
      x.spdbg.toNat * 64 + x.xearly.toNat * 128 + x.pin.toNat * 256) ++
    numBytes 8 x.spad ++ dwordBytes [x.cir] ++ numBytes 8 x.len ++ numBytes 8 x.grid ++ numBytes 8 x.win)
/-- The team header at offset `o` of an area. -/
def readHead (bs : List Byte) (o : Nat) : BlockHead where
  ctx := leAt bs o 1
  win := leAt bs (o + 48) 8
  lseq := leAt bs o 8 / 2 ^ 14 % 2 ^ 7
  num := leAt bs (o + 4) 4
  width := leAt bs (o + 8) 1
  tiles := leAt bs (o + 9) 1
  warps := leAt bs (o + 10) 1
  pool := leAt bs (o + 11) 1
  paired := flag 0
  half := (flag 1).toNat
  owned := flag 2
  debug := flag 3
  slice := flag 4
  fuse := flag 5
  spdbg := flag 6
  xearly := flag 7
  pin := flag 8
  spad := leAt bs (o + 16) 8
  cir := dwAt bs (o + 24)
  len := leAt bs (o + 32) 8
  grid := leAt bs (o + 40) 8
where
  /-- Flag `i`. -/
  flag (i : Nat) : Bool := leAt bs (o + 12) 4 / 2 ^ i % 2 == 1

/-! ### Barriers, tiles, scratchpad -/

/-- Barrier `b` of a team with its sequencer's ARR bit and token. -/
def barField (n h : Nat) (tm : Team) (b : Nat) : Nat :=
  let x := tm.bar n b
  x.e % 128 + x.count % 128 * 2 ^ 8 + x.phase.toNat * 2 ^ 16 +
    match sfind tm.seqArr (128 * h + b) with
    | some t => 2 ^ 17 + t.toNat * 2 ^ 18
    | none => 0
/-- Barrier `b` from its field. -/
def readBarrier (x : Nat) : Barrier := ⟨x % 128, x / 2 ^ 8 % 128, x / 2 ^ 16 % 2 == 1⟩
/-- A tile's owner field: an IN-TRANSIT tile names its target, or its giver when the sequencer is the target. -/
def tileField (ws : List (Nat × Warp)) (x : TileState) : Nat :=
  match x.owner with
  | .free => 0
  | .warp k => 1 + 4 * slotNum ws k
  | .seq => 2
  | .transitWarp k => 3 + 4 * slotNum ws k
  | .transitSeq => 3 + 4 * slotNum ws x.giver + 256
/-- A tile's owner state from its field. -/
def readTile (ws : List (Nat × Warp)) (x : Nat) : TileState :=
  let slot := numSlot ws (x / 4 % 64)
  match x % 4 with
  | 0 => ⟨.free, 0⟩
  | 1 => ⟨.warp slot, 0⟩
  | 2 => ⟨.seq, 0⟩
  | _ => if x / 256 % 2 = 1 then ⟨.transitSeq, slot⟩ else ⟨.transitWarp slot, 0⟩
/-- The words of a pool tile. -/
def poolBytes (h : Nat) (tm : Team) (t : Nat) : List Byte :=
  wordBytes ((List.range 1024).map fun x => tm.tget h t (x / 32) (x % 32))
/-- The pending bits of a core's scratchpad, eight words to a byte. -/
def State.pendingBytes (s : State) (k : Nat) : List Byte :=
  (List.range (512 * (s.core k).segs)).map fun i =>
    BitVec.ofNat 8 ((List.range 8).foldl (fun x j => x + (s.spadPending (spadLoc k (4 * (8 * i + j)))).toNat * 2 ^ j) 0)

/-! ### The sequencer block (Table 25.9) -/

/-- One landing entry. -/
def landingBytes (now : Nat) (l : Landing) : List Byte :=
  let (f, da, db) := match l.row with
    | .tile t row => (t * 2 ^ 9 + row * 2 ^ 15, (0 : Word), (0 : Word))
    | .spad da db t row => (2 ^ 8 + row * 2 ^ 15 + t * 2 ^ 20, da, db)
  numBytes 8 (l.at_ - now + f + l.mask.toNat * 2 ^ 32) ++ wordBytes [da, db] ++ wordBytes l.words
/-- A landing entry at `o`; `by_` gives its place among those of one cycle. -/
def readLanding (bs : List Byte) (o now by_ : Nat) : Landing :=
  let x := leAt bs o 8
  let row := x / 2 ^ 15 % 32
  { at_ := now + x % 256, by_ := by_
    row := if x / 2 ^ 8 % 2 = 1 then .spad (wordAt bs (o + 8)) (wordAt bs (o + 12)) (x / 2 ^ 20 % 4) row else .tile (x / 2 ^ 9 % 64) row
    mask := BitVec.ofNat 32 (x / 2 ^ 32)
    words := (List.range 32).map fun i => wordAt bs (o + 16 + 4 * i) }
/-- Remaining busy cycles of a slot. -/
def Seq.busy (q : Seq) (slot : Nat) : Nat := sget 0 q.slots slot - q.cycle
/-- The loop stack, the pc and the open segment. -/
def seqRunBytes (q : Seq) : List Byte :=
  let seg := match q.seg with
    | some g => numBytes 4 (g.cyc.toNat + 2 ^ 31) ++ wordBytes [g.sig] ++ numBytes 4 g.count ++ wordBytes [g.crc]
    | none => zeros 16
  let loops := (List.range 4).flatMap fun i =>
    let x := q.loops.getD i (0, 0)
    numBytes 6 x.2.toNat ++ numBytes 4 x.1
  loops ++ numBytes 8 q.pc.toNat ++ seg
/-- A wait that a sequencer's bundle keeps after its issue: kind, number and token. A rendezvous and a repeated issue start anew. -/
def seqWaitField : SeqWait → Nat
  | .take t => 1 + t * 2 ^ 8
  | .swaitb n _ => 2 + n * 2 ^ 8
  | .bar b token => 3 + b * 2 ^ 8 + token.toNat * 2 ^ 16
  | _ => 0
/-- The batches that a SWAITB waits for. -/
def seqUpto : SeqWait → DWord
  | .swaitb _ x => x
  | _ => 0
/-- A sequencer's wait from its fields. -/
def readSeqWait (x : Nat) (upto : DWord) : SeqWait :=
  match x % 2 ^ 8 with
  | 1 => .take (x / 2 ^ 8 % 2 ^ 8)
  | 2 => .swaitb (x / 2 ^ 8 % 2 ^ 8) upto
  | 3 => .bar (x / 2 ^ 8 % 2 ^ 8) (x / 2 ^ 16 % 2 == 1)
  | _ => .none
/-- What Table 25.9 names no place for, from offset 464: the open segment's pc and marks, the wait, and the registers to restart it. -/
def seqMoreBytes (q : Seq) : List Byte :=
  let g := q.seg.getD ⟨0, 0, 0, 0, 0, false, false⟩
  numBytes 8 g.pc.toNat ++
    numBytes 8 (g.settled.toNat + g.alarmed.toNat * 2 + q.issued.toNat * 4 + q.settling.toNat * 8 + q.armed.toNat * 16 + q.ended.toNat * 32) ++
    numBytes 8 (seqWaitField q.wait) ++ dwordBytes [seqUpto q.wait] ++ ((List.range 4).flatMap fun i => numBytes 2 ((q.loops.getD i (0, 0)).2.toNat / 2 ^ 48)) ++
    dwordBytes ((List.range 32).map fun i => sget 0 q.copy.1 i) ++ (List.range 16).flatMap fun i => numBytes 2 (sget 0 q.copy.2 i).toNat
/-- The sequencer block. -/
def seqBlock (q : Seq) : List Byte :=
  padBytes 1024 (dwordBytes ((List.range 32).map q.reg) ++ ((List.range 16).flatMap fun i => numBytes 2 (sget 0 q.gen i).toNat) ++ seqRunBytes q ++
    numBytes 8 (q.busy 0 + q.busy 1 * 2 ^ 16 + q.busy 2 * 2 ^ 32) ++ zeros 96 ++ numBytes 8 q.captured.length ++ seqMoreBytes q) ++
    q.captured.flatMap (landingBytes q.cycle)
/-- Landing entries of a sequencer block at `o`. -/
def landingCount (bs : List Byte) (o : Nat) : Nat := leAt bs (o + 456) 8
/-- The cycle at which a restored sequencer stands. -/
def restoredCycle : Nat := 1024
/-- Sixteen GEN values. -/
def readGens (bs : List Byte) (o : Nat) : List (Nat × Half) :=
  (List.range 16).foldl (fun m i => sput 0 m i (BitVec.ofNat 16 (leAt bs (o + 2 * i) 2))) []
/-- A sequencer from its block at `o`, for a team. -/
def readSeq (bs : List Byte) (o tid half : Nat) : Seq :=
  let marks := leAt bs (o + 472) 8
  let mark (i : Nat) : Bool := marks / 2 ^ i % 2 == 1
  let loops := (List.range 4).map fun i =>
    (leAt bs (o + 288 + 10 * i + 6) 4, BitVec.ofNat 64 (leAt bs (o + 288 + 10 * i) 6 + leAt bs (o + 496 + 2 * i) 2 * 2 ^ 48))
  let seg := leAt bs (o + 336) 4
  { Seq.idle with
    running := true, team := tid, half := half, pc := dwAt bs (o + 328), c := readMap8 bs 32 o, gen := readGens bs (o + 256)
    loops := loops.filter fun x => x.1 != 0
    seg := if seg / 2 ^ 31 = 1 then
        some ⟨dwAt bs (o + 464), BitVec.ofNat 24 seg, wordAt bs (o + 340), leAt bs (o + 344) 4, wordAt bs (o + 348), mark 0, mark 1⟩
      else none
    copy := (readMap8 bs 32 (o + 504), readGens bs (o + 760))
    cycle := restoredCycle, issued := mark 2, settling := mark 3, armed := mark 4, ended := mark 5
    wait := readSeqWait (leAt bs (o + 480) 8) (dwAt bs (o + 488))
    slots := (List.range 3).map fun i => (i, restoredCycle + leAt bs (o + 352 + 2 * i) 2)
    captured := (List.range (landingCount bs o)).map fun i => readLanding bs (o + 1024 + 144 * i) restoredCycle i }

/-! ### Waits of a slice (Table 25.8) -/

/-- A core's SLEEP ends at a cycle; a save keeps what remains of it. The arguments of the other kinds are the wait's own. -/
def waitField (now : Nat) (j : Nat) : Wait → Nat × Nat
  | .regang m => (1, m.toNat)
  | .bar b token clear => (2, b + token.toNat * 2 ^ 7 + clear.toNat * 2 ^ 8)
  | .take t => (3, t)
  | .waitb n => (4, n)
  | .qpop w d k la lanes =>
    (5, (w == .w64).toNat + d.toNat * 2 + k * 2 ^ 9 + la * 2 ^ 13 + (lanes.toNat / 2 ^ (4 * j) % 16) * 2 ^ 17)
  | .sleep till => (6, till - now)
  | .seqgo a => (7, a.toNat / 32)
  | _ => (0, 0)
/-- A wait from its fields; the lanes of a QPOP are joined over the slices of its gang later. -/
def readWait (now j kind arg : Nat) : Option Wait :=
  match kind with
  | 1 => some (.regang (BitVec.ofNat 16 arg))
  | 2 => some (.bar (arg % 2 ^ 7) (arg / 2 ^ 7 % 2 == 1) (arg / 2 ^ 8 % 2 == 1))
  | 3 => some (.take arg)
  | 4 => some (.waitb arg)
  | 5 => some (.qpop (if arg % 2 = 1 then .w64 else .w32) (BitVec.ofNat 7 (arg / 2)) (arg / 2 ^ 9 % 16) (arg / 2 ^ 13 % 16)
      (BitVec.ofNat 64 (arg / 2 ^ 17 % 16 * 2 ^ (4 * j))))
  | 6 => some (.sleep (now + arg))
  | 7 => some (.seqgo (BitVec.ofNat 64 (arg * 32)))
  | _ => none
/-- The waits of a slice in the order of its record: the one of the largest argument, a SEQGO's, first. -/
def savedWaits (x : Slice) : List Wait :=
  let go (wt : Wait) : Bool := match wt with
    | .seqgo _ => true
    | _ => false
  x.waits.filter go ++ x.waits.filter fun wt => !go wt
/-- Field `i` of the waits of a slice: a kind in 3 bits, then its argument. -/
def nthWait (now j i : Nat) (x : Slice) : Nat :=
  match (savedWaits x)[i]? with
  | some wt => let f := waitField now j wt; f.1 + f.2 * 2 ^ 3
  | none => 0
/-- One slice of a warp: PC and MODE, then gang, FMT and the first wait. -/
def sliceBytes (now : Nat) (w : Warp) (j : Nat) : List Byte :=
  match w.slice? j with
  | none => zeros 16
  | some x =>
    let f := nthWait now j 0 x
    numBytes 8 (x.pc.toNat % 2 ^ 57 + x.mode.toNat % 16 * 2 ^ 57) ++
      numBytes 8 (lowSlice (w.gangMask x.gang) + x.fmt.toNat % 256 * 2 ^ 4 + f % 8 * 2 ^ 12 + f / 8 % 2 ^ 48 * 2 ^ 16)
/-- What a slice's record has no place for: where it goes on after its wait, and two waits more. -/
def sliceMore (now : Nat) (w : Warp) (j : Nat) : List Byte :=
  match w.slice? j with
  | none => zeros 16
  | some x =>
    numBytes 7 (x.resume.toNat / 4 % 2 ^ 55 + x.leaving.toNat * 2 ^ 55) ++
      numBytes 9 (nthWait now j 1 x % 2 ^ 36 + nthWait now j 2 x % 2 ^ 36 * 2 ^ 36)
/-- Slice `j` from its record at `o` and what stands beside at `p`. -/
def readSlice (bs : List Byte) (o p now j retired : Nat) : Slice :=
  let a := leAt bs o 8
  let b := leAt bs (o + 8) 8
  let r := leAt bs p 7
  let more := leAt bs (p + 7) 9
  let wait (x : Nat) : Option Wait := readWait now j (x % 8) (x / 8)
  { pc := BitVec.ofNat 64 (a % 2 ^ 57), gang := b % 16, retired := retired / 2 ^ j % 2 == 1, mode := BitVec.ofNat 64 (a / 2 ^ 57 % 16)
    fmt := BitVec.ofNat 64 (b / 2 ^ 4 % 256)
    waits := [wait (b / 2 ^ 12 % 8 + b / 2 ^ 16 * 8), wait (more % 2 ^ 36), wait (more / 2 ^ 36)].filterMap id
    resume := BitVec.ofNat 64 (r % 2 ^ 55 * 4), leaving := r / 2 ^ 55 == 1, count := 0 }
/-- The QPOPs of a gang wait for the lanes of all its slices. -/
def joinLanes (xs : List Slice) : List Slice :=
  xs.map fun x =>
    { x with waits := x.waits.map fun wt => match wt with
        | .qpop w d k la _ =>
          .qpop w d k la ((xs.filter fun y => y.gang == x.gang && !y.retired).foldl (fun m y => y.waits.foldl (fun m z => match z with
            | .qpop _ _ _ _ l => m ||| l
            | _ => m) m) 0)
        | wt => wt }

/-! ### The warp block (Table 25.8) -/

/-- The warp header. -/
def warpHeader (w : Warp) : List Byte :=
  let r := w.region.getD ⟨0, 0, 0, 0⟩
  let (gang, len) := match w.trap with
    | some o => (o.gang, o.len)
    | none => (0, 0)
  numBytes 8 (w.num + (~~~w.alive).toNat * 2 ^ 16 + w.nb % 2 ^ 32 * 2 ^ 32) ++ numBytes 8 (r.pc.toNat % 2 ^ 57 + w.region.isSome.toNat * 2 ^ 63) ++
    numBytes 8 (r.d0 % 2 ^ 32 + r.nb % 2 ^ 32 * 2 ^ 32) ++ numBytes 8 (w.depth % 2 ^ 32 + w.spilled % 2 ^ 32 * 2 ^ 32) ++
    dwordBytes (warpEntry w.num (some w)) ++
    numBytes 8 (r.alive.toNat + gang % 2 ^ 16 * 2 ^ 16 + len % 2 ^ 8 * 2 ^ 32 + w.started.toNat * 2 ^ 40) ++ dwordBytes [w.active]
/-- The ARR bit and token of four barriers. -/
def arrByte (w : Warp) (i : Nat) : Byte :=
  BitVec.ofNat 8 ((List.range 4).foldl (fun x j =>
    x + (match sfind w.arr (4 * i + j) with
      | some t => 1 + 2 * t.toNat
      | none => 0) * 4 ^ j) 0)
/-- The queues: fill counts, then eight entries of each queue. -/
def queueBytes (w : Warp) : List Byte :=
  let qs (k : Nat) : List (List Word) := (sfind w.q k).getD []
  ((List.range 16).map fun k => BitVec.ofNat 8 (qs k).length) ++
    wordBytes ((List.range 16).flatMap fun k => (List.range 8).flatMap fun e => (List.range w.width).map fun i => ((qs k).getD e []).getD i 0)
/-- Outcomes that Piccolo records at most (R276). -/
def outcomeLimit : Nat := 256
/-- Entries of performed loads that a save keeps. -/
def passedLimit : Nat := 14
/-- Piccolo's part: the access slice's pc and lead of each slice, the recorded outcomes, what the slices' records have no place for, and the
loads that some slices have still to pass. -/
def piccBytes (now : Nat) (w : Warp) : List Byte :=
  let pcs := (List.range 16).flatMap fun j => match w.picc.at_.find? fun p => p.1 == j with
    | some (_, pc, lead) =>
      let pc := if lead = 0 then ((w.slice? j).map (·.pc)).getD pc else pc
      numBytes 8 (pc.toNat / 4 % 2 ^ 55 + lead % 2 ^ 9 * 2 ^ 55)
    | none => zeros 8
  let outs := (w.picc.outcomes.take outcomeLimit).flatMap fun o => numBytes 2 (o.1 % 16 + o.2.toNat * 2 ^ 4 + 2 ^ 5)
  let passed := (w.picc.passed.take passedLimit).flatMap fun e => numBytes 9 (e.1.toNat / 4 % 2 ^ 55 + e.2.toNat * 2 ^ 55)
  pcs ++ padBytes 512 outs ++ (List.range 16).flatMap (sliceMore now w) ++ padBytes 128 passed
/-- The register and the lane at word `x` of a register window, which lies by tile, row and column (Table 2.8). -/
def windowPlace (width x : Nat) : Nat × Nat :=
  let t := x / 1024
  let row := x / 32 % 32
  let col := x % 32
  if width = 16 then (64 * t + 32 * (row / 16) + col, row % 16)
  else if width = 32 then (32 * t + col, row)
  else (32 * (t / 2) + col, row + 32 * (t % 2))
/-- Bytes of a warp block. -/
def warpLen (width win : Nat) : Nat := padTo64 (2160 + 768 * width + 4096 * win)
/-- The warp block of a warp. -/
def liveBlock (now : Nat) (w : Warp) : List Byte :=
  warpHeader w ++ (List.range 16).flatMap (sliceBytes now w) ++ dwordBytes ((List.range 64).map fun i => sget 0 w.s i) ++
    dwordBytes ((List.range 8).map fun i => if i = 7 then laneMask (List.range w.width) else sget 0 w.p i) ++
    dwordBytes ([w.shape] ++ ((List.range 4).map fun i => sget 0 w.bx i) ++ [w.rsb, w.rsp, BitVec.ofNat 64 w.rlim]) ++ (List.range 32).map (arrByte w) ++
    (List.range 128).map w.tag ++ wordBytes ((List.range (64 * w.width)).map fun x => sget 0 w.serp (64 * (x / w.width) + x % w.width)) ++
    queueBytes w ++ piccBytes now w ++
    wordBytes ((List.range (1024 * w.win)).map fun x => w.vget (windowPlace w.width x).1 (windowPlace w.width x).2)
/-- The block of the warp with number `n` of a part; of one that has retired, or that no lane needs, the number, NB and every slice retired. -/
def warpBlock (now width win n lastNb : Nat) (w : Option Warp) : List Byte :=
  padBytes (warpLen width win) (match w with
    | some w => liveBlock now w
    | none => numBytes 8 (n + (2 ^ 16 - 1) * 2 ^ 16 + lastNb % 2 ^ 32 * 2 ^ 32) ++ zeros 24 ++ dwordBytes (warpEntry n none))
/-- Every cause (Table 16.5). -/
def causes : List Cause :=
  [.illStream, .illInstr, .illEncoding, .illOperand, .illOverlap, .illConvergence, .illTarget, .privileged, .regRange, .tileRange,
    .tileOwn, .tileBusy, .laHazard] ++
  [.align, .pageFault, .protection, .spadRange, .spadEarly, .bxRange, .serpentLifo, .serpentOvf, .revLoss, .seqSlot, .seqOrder, .trap, .brk,
    .cstop]
/-- The cause with a code. -/
def Cause.ofCode (n : Nat) : Option Cause := causes.find? fun c => c.code == n
/-- A warp's own trap from its header at `o`; what only the team's record carries is gone with it. -/
def readTrap (bs : List Byte) (o : Nat) (xs : List Slice) : Option OwnTrap :=
  (Cause.ofCode (leAt bs (o + 40) 1)).map fun c =>
    let gang := leAt bs (o + 50) 2
    ⟨{ cause := c }, ((xs[lowSlice (BitVec.ofNat 16 gang)]?).map (·.pc)).getD 0, leAt bs (o + 44) 4, gang, leAt bs (o + 52) 1⟩
/-- Piccolo's part at `o` for a warp of `n` slices. -/
def readPicc (bs : List Byte) (o n : Nat) (sliced : Bool) : Piccolo :=
  let pc (x : Nat) : DWord := BitVec.ofNat 64 (x % 2 ^ 55 * 4)
  { at_ := if sliced then (List.range n).map fun j => (j, pc (leAt bs (o + 8 * j) 8), leAt bs (o + 8 * j) 8 / 2 ^ 55) else []
    outcomes := ((List.range outcomeLimit).map fun i => leAt bs (o + 128 + 2 * i) 2).filterMap fun x =>
      if x / 2 ^ 5 % 2 = 1 then some (x % 16, x / 2 ^ 4 % 2 == 1) else none
    passed := ((List.range passedLimit).map fun i => leAt bs (o + 896 + 9 * i) 9).filterMap fun x =>
      if x / 2 ^ 55 = 0 then none else some (pc x, BitVec.ofNat 16 (x / 2 ^ 55))
    held := none }
/-- Does the block at `o` hold a warp: a slice that is not retired? -/
def warpLives (bs : List Byte) (o : Nat) : Bool := leAt bs (o + 2) 2 != 2 ^ 16 - 1
/-- A warp from its block at `o`, as a restore leaves it: stopped in its halted team. -/
def readWarp (bs : List Byte) (o tid now : Nat) (h : BlockHead) : Warp :=
  let n := h.width
  let sp := o + 992
  let qu := sp + 128 + 256 * n
  let pi := qu + 16 + 512 * n
  let wi := pi + 1024
  let xs := joinLanes ((List.range (n / 4)).map fun j => readSlice bs (o + 64 + 16 * j) (pi + 640 + 16 * j) now j (leAt bs (o + 2) 2))
  let rpc := leAt bs (o + 8) 8
  { grid := h.grid, team := tid, num := leAt bs o 2, width := n, win := h.tiles, active := dwAt bs (o + 56), slices := xs
    v := (List.range (1024 * h.tiles)).foldl
      (fun m x => sput 0 m (64 * (windowPlace n x).1 + (windowPlace n x).2) (wordAt bs (wi + 4 * x))) []
    s := readMap8 bs 64 (o + 320)
    p := readMap8 bs 7 (o + 832)
    q := (List.range 16).foldl (fun m k =>
      let c := leAt bs (qu + k) 1
      if c = 0 then m
      else sinsert m k ((List.range c).map fun e => (List.range n).map fun i => wordAt bs (qu + 16 + 4 * ((8 * k + e) * n + i)))) []
    shape := shapeBits (dwAt bs (o + 896))
    rsb := dwAt bs (o + 936)
    rsp := dwAt bs (o + 944)
    rlim := leAt bs (o + 952) 8
    bx := (List.range 4).foldl (fun m i => sput 0 m i (bxBits (dwAt bs (o + 904 + 8 * i)))) []
    serp := readMap bs (64 * n) (fun x => 64 * (x / n) + x % n) fun x => sp + 128 + 4 * x
    tags := (List.range 128).foldl (fun m i => sput 0 m i (BitVec.ofNat 8 (leAt bs (sp + i) 1))) []
    depth := leAt bs (o + 24) 4
    spilled := leAt bs (o + 28) 4
    nb := leAt bs (o + 4) 4
    jobs := []
    region := if rpc / 2 ^ 63 = 1 then
        some ⟨BitVec.ofNat 64 (rpc % 2 ^ 57), leAt bs (o + 16) 4, leAt bs (o + 20) 4, BitVec.ofNat 16 (leAt bs (o + 48) 2)⟩
      else none
    arr := (List.range 128).foldl (fun m b =>
      let x := leAt bs (o + 960 + b / 4) 1 / 4 ^ (b % 4) % 4
      if x % 2 = 1 then sinsert m b (x / 2 == 1) else m) []
    pending := []
    picc := readPicc bs pi (n / 4) h.slice
    trap := readTrap bs o xs
    skid := leAt bs (o + 41) 1 % 2 ^ 5
    stopped := true, inSet := false, enteredAt := 0, lastIssue := 0, readyAt := now, yielded := false
    started := leAt bs (o + 53) 1 % 2 == 1 }

/-! ### The blocks together -/

/-- The numbers of a team's warps on a half. -/
def partNumbers (warps half : Nat) : List Nat := (List.range warps).map (half * warps + ·)
/-- A team block without its header (Table 25.7). -/
def State.teamBody (s : State) (k tid : Nat) (tm : Team) (g : Grid) : List Byte :=
  let h := tm.halfOf k
  let ws := s.partWarps k tid
  ((List.range 128).flatMap fun b => numBytes 4 (barField (s.teamCount tm) h tm b)) ++
    ((List.range 64).flatMap fun t => numBytes 2 (tileField ws (tm.tile h t))) ++
    (List.range g.lr.pool).flatMap (poolBytes h tm) ++ s.bytes (spadLoc k 0) (s.spadSize k) ++
    (if g.lr.spdbg then s.pendingBytes k else []) ++ (if s.ownsSeq k tid then padded (seqBlock (s.core k).seq) else []) ++
    (partNumbers g.coreWarps h).flatMap fun n =>
      warpBlock s.coreNow g.lr.width g.lr.win n (sget 0 tm.lastNb n) ((ws.find? fun p => p.2.num == n).map (·.2))
/-- A team block. -/
def State.teamBlock (s : State) (k tid : Nat) (tm : Team) : List Byte :=
  match s.grid? tm.grid with
  | none => []
  | some g =>
    let body := s.teamBody k tid tm g
    (s.blockHead k tid tm g (256 + body.length)).bytes ++ body
/-- The resident teams of a core in ascending team number. -/
def State.saveOrder (s : State) (k : Nat) : List (Nat × Team) := (s.resident k).insertionSort fun a b => a.2.num ≤ b.2.num
/-- The area after its header. -/
def State.areaBody (s : State) (k : Nat) : List Byte := (s.saveOrder k).flatMap fun t => s.teamBlock k t.1 t.2
/-- The area header (Table 25.6) over a body. -/
def areaHeader (nteam segs : Nat) (fuse : Bool) (body : List Byte) : List Byte :=
  numBytes 8 (1 + nteam * 2 ^ 16) ++ numBytes 8 (64 + body.length) ++ numBytes 8 (segs + fuse.toNat * 2 ^ 8) ++
    bytesOf 8 ((crc32c body).zeroExtend 64) ++ zeros 32

/-! ### CSAVE (R339, R416, R417) -/

/-- A hub word ends with a status in its scalar. -/
def State.endHubWord (s : State) (slot : Nat) (d : SReg) (wt : Wait) (status : Nat) : State :=
  s.modWarp hubCore slot fun w =>
    (w.sset d (BitVec.ofNat 64 status)).endWait (w.slices.findIdx fun x => x.waits.contains wt) wt s.coreNow
/-- R339: every resident team halts; with none there is nothing to save. -/
def execCsave (d a : SReg) (s : State) : Out :=
  word (.csave d a) s fun w s =>
    let k := (w.sget a).toNat
    if (s.resident k).isEmpty then s.modLive fun v => v.sset d 3
    else (s.stopCore k s.cur.core).wait (.csave d k (w.sget (a + 1)) false)
/-- Are the teams of a core ready to be saved: stopped, recorded, opened, with copies and every bundle done? -/
def State.saveReady (s : State) (k : Nat) : Bool :=
  s.coreStopped k && (s.core k).warps.all fun p => p.2.jobs.isEmpty && s.allReady k p.1 p.2
/-- Write bytes to the save area, performed. -/
def State.storeArea (s : State) (slot va : Nat) (bs : List Byte) : State :=
  (s.storeVirt hubCore slot hubCtx va bs).flush fun p => agentCore p.agent == hubCore
/-- A team's part leaves its core: its grid marks it, and the team is gone when no half stands anywhere. -/
def State.removePart (s : State) (k tid : Nat) (tm : Team) : State :=
  let s := s.modGrid tm.grid fun g => { g with saved := g.saved ++ [⟨tm.num, tm.halfOf k == 1⟩] }
  let tm' := tm.without (tm.halfOf k)
  if tm'.cores.isEmpty then { s with teams := sdrop s.teams tid } else s.modTeam tid fun _ => tm'
/-- The core holds no team, warp or sequencer work (R339), and no error in what they held. -/
def State.emptyCore (s : State) (k : Nat) : State :=
  s.modCore k fun c =>
    { c with warps := [], seq := Seq.idle, topkQ := [], rollback := [], replays := [], latent := c.latent.filter fun l => l.unit == 5 }
/-- The first page of a span of the hub control core's space that does not take an access, with its trap. -/
def State.areaTrap (s : State) (addr : DWord) (n : Nat) (wr : Bool) : Option Trap :=
  (spanPages (addr, n, wr)).findSome? fun p => s.probeSpan hubCore hubCtx p.1 1 0 wr
/-- Does an access to a span of that space wait for its memory? -/
def State.areaWaits (s : State) (addr : DWord) (n : Nat) (wr : Bool) : Bool :=
  (s.runs hubCtx addr.toNat n).any fun r => s.blocked hubCore r.1 wr
/-- A save is written; a page that no longer takes a store aborts it (R417). -/
def State.writeArea (s : State) (slot : Nat) (d : SReg) (k : Nat) (addr : DWord) : State :=
  let wt := Wait.csave d k addr true
  let body := s.areaBody k
  let c := s.core k
  let teams := s.saveOrder k
  match s.areaTrap addr (64 + body.length) true with
  | some t =>
    if t.waits || s.areaWaits addr (64 + body.length) true then s.askSpan hubCtx addr.toNat (64 + body.length) true
    else
      let s := s.storeArea slot (addr.toNat + 64) (body.take (t.faddr.toNat - addr.toNat - 64))
      let s := (s.report (mkRecord (haltSource hubCore) 0x60 2 (0, 0) t.faddr (BitVec.ofNat 64 (selectorOf k)) 0 0)).2
      s.endHubWord slot d wt 2
  | none =>
    if s.areaWaits addr (64 + body.length) true then s.askSpan hubCtx addr.toNat (64 + body.length) true
    else
      let s := s.storeArea slot (addr.toNat + 64) body
      let s := s.storeArea slot addr.toNat (areaHeader teams.length c.segs c.fused body)
      let s := teams.foldl (fun s t => s.removePart k t.1 t.2) s
      (s.emptyCore k).endHubWord slot d wt 0
/-- The CSAVE or CRESTORE that a warp waits for. -/
def Warp.hubWait (w : Warp) : Option Wait :=
  w.slices.findSome? fun x => x.waits.findSome? fun wt => match wt with
    | .csave .. => some wt
    | .crestore .. => some wt
    | _ => none
/-- One step of a CSAVE. -/
def State.csaveStep (s : State) (slot : Nat) (d : SReg) (k : Nat) (addr : DWord) (probed : Bool) : State :=
  let wt := Wait.csave d k addr probed
  if (s.resident k).isEmpty then s.endHubWord slot d wt 3
  else if (s.resident k).any fun t => !t.2.halted then s.stopCore k hubCore
  else if !s.saveReady k then s
  else
    match s.settleCore k with
    | none => s
    | some s =>
      if probed then s.writeArea slot d k addr
      else
        match s.areaTrap addr (64 + (s.areaBody k).length) true with
        | some t => if t.waits then s else s.endHubWord slot d wt 1
        | none =>
          s.modWarp hubCore slot fun w =>
            { w with slices := w.slices.map fun x =>
                { x with waits := x.waits.map fun y => if y = wt then .csave d k addr true else y } }
/-- R339: with the teams stopped, the first event probes the area and the second writes it. -/
def execCsaveComplete (core slot : Nat) (s : State) : Out :=
  .next (match s.warp? core slot with
    | none => s
    | some w =>
      match w.hubWait with
      | some (.csave d k addr probed) => if core = hubCore ∧ s.frozen w = false then s.csaveStep slot d k addr probed else s
      | _ => s)

/-! ### Reading the blocks -/

/-- Where the parts of a team block stand, and its end. -/
structure Offsets where
  pool : Nat
  spad : Nat
  seq : Nat
  warps : Nat
  end_ : Nat
  deriving DecidableEq, Repr
/-- The offsets of a block at `o` in an area with boundary `segs`. -/
def BlockHead.offsets (h : BlockHead) (bs : List Byte) (o segs : Nat) : Offsets :=
  let pool := o + 896
  let spad := pool + 4096 * h.pool
  let seq := spad + 16384 * segs + (if h.spdbg then 512 * segs else 0)
  let warps := if h.owned then seq + padTo64 (1024 + 144 * landingCount bs seq) else seq
  ⟨pool, spad, seq, warps, warps + warpLen h.width h.tiles * h.warps⟩
/-- The offset of the block of the `i`-th warp of a part. -/
def BlockHead.warpAt (h : BlockHead) (x : Offsets) (i : Nat) : Nat := x.warps + warpLen h.width h.tiles * i
/-- The blocks of an area from offset `o`: each with its header; none when one is not as CSAVE writes it. -/
def readBlocks (bs : List Byte) (segs : Nat) : Nat → Nat → Option (List (Nat × BlockHead))
  | 0, o => if o = bs.length then some [] else none
  | n + 1, o =>
    let h := readHead bs o
    let x := h.offsets bs o segs
    let shape := (h.width == 16 || h.width == 32 || h.width == 64) && windowOk h.width h.tiles && decide (h.warps ≤ 32) && decide (h.pool ≤ 64) &&
      (!h.owned || decide (landingCount bs x.seq ≤ 512))
    if shape && x.end_ == o + h.len then (readBlocks bs segs n (o + h.len)).map ((o, h) :: ·) else none
/-- Tiles and slots that the blocks ask for. -/
def asksFor (bs : List Byte) (segs : Nat) (xs : List (Nat × BlockHead)) : Nat × Nat :=
  let live (x : Nat × BlockHead) : Nat :=
    ((List.range x.2.warps).filter fun i => warpLives bs (x.2.warpAt (x.2.offsets bs x.1 segs) i)).length
  ((xs.map fun x => x.2.pool + live x * x.2.tiles).sum, (xs.map live).sum)

/-! ### CRESTORE (R339, R418) -/

/-- The launch record of a block whose grid the device no longer holds, as far as its header gives it. -/
def BlockHead.launch (h : BlockHead) : LaunchRec :=
  { parseRec [] with
    ctx := h.ctx, paired := h.paired, l1fuse := h.fuse, slice := h.slice, debug := h.debug, spdbg := h.spdbg, xearly := h.xearly, width := h.width
    win := h.tiles, warps := if h.paired then 2 * h.warps else h.warps, pool := h.pool, spad := h.spad, teams := h.num + 1, pin := h.pin
    seq := h.lseq }
/-- The grid of a block: the one it was saved from, or where that is over one that reports to no window. -/
def State.gridFor (s : State) (h : BlockHead) : State :=
  match s.grid? h.grid with
  | some _ => s
  | none =>
    let n : Node := { win := h.win % 64 + 64, lr := h.launch, scal := [], xst := [], readyAt := none, grid := none, mark := none, fullSwitch := false,
                      failed := false, placedAt := 0 }
    { s with grids := sinsert s.grids h.grid { newGrid n [] with nextTeam := h.num + 1 } }
/-- The team that a part belongs to: one whose other half stands and waits for this one, or a new one. -/
def State.teamFor (s : State) (h : BlockHead) : Nat × State :=
  match s.teams.find? fun t => t.2.grid == h.grid && t.2.num == h.num && (if h.half = 0 then t.2.core == noCore else t.2.paired && t.2.odd == noCore) with
  | some t => (t.1, s)
  | none =>
    let (tid, s) := s.newId
    (tid, { s with teams := sinsert s.teams tid { newTeam h.grid h.num noCore h.paired noCore with zeroing := false } })
/-- The warps of a block in the free slots of a core. -/
def readWarps (bs : List Byte) (tid now : Nat) (h : BlockHead) (x : Offsets) (used : List Nat) : List (Nat × Warp) :=
  let os := ((List.range h.warps).map (h.warpAt x)).filter (warpLives bs)
  ((List.range 32).filter fun i => !used.contains i).zip (os.map fun o => readWarp bs o tid now h)
/-- A team takes a part back at a core: its own half's tiles, words and ARR bits, and the barriers of the block. -/
def takePart (k : Nat) (bs : List Byte) (o : Nat) (h : BlockHead) (x : Offsets) (ws : List (Nat × Warp)) (tm : Team) : Team :=
  let tiles := (List.range h.pool).foldl (fun m t => sinsert m (64 * h.half + t) (readTile ws (leAt bs (o + 768 + 2 * t) 2)))
    (halfAway 64 h.half tm.tiles)
  let words := (List.range (1024 * h.pool)).foldl (fun m y => sput 0 m (65536 * h.half + y) (wordAt bs (x.pool + 4 * y))) (halfAway 65536 h.half tm.words)
  let fields := (List.range 128).map fun b => leAt bs (o + 256 + 4 * b) 4
  { tm.stoppedAs with
    core := if h.half = 0 then k else tm.core, odd := if h.half = 1 then k else tm.odd
    cir := h.cir, tiles := tiles, words := words
    bars := fields.zipIdx.foldl (fun m y => sinsert m y.2 (readBarrier y.1)) tm.bars
    seqArr := fields.zipIdx.foldl (fun m y => if y.1 / 2 ^ 17 % 2 = 1 then sinsert m (128 * h.half + y.2) (y.1 / 2 ^ 18 % 2 == 1) else m)
      (halfAway 128 h.half tm.seqArr)
    lastNb := (((List.range h.warps).map (h.warpAt x)).filter fun a => !warpLives bs a).foldl
      (fun m a => sinsert m (leAt bs a 2) (leAt bs (a + 4) 4)) tm.lastNb }
/-- One block is loaded at a core. -/
def State.loadBlock (s : State) (k segs : Nat) (bs : List Byte) (y : Nat × BlockHead) : State :=
  let (o, h) := y
  let x := h.offsets bs o segs
  let s := (s.gridFor h).modGrid h.grid fun g => { g with saved := g.saved.erase ⟨h.num, h.half == 1⟩ }
  let (tid, s) := s.teamFor h
  let ws := readWarps bs tid s.coreNow h x ((s.core k).warps.map (·.1))
  let s := s.modTeam tid (takePart k bs o h x ws)
  let pad := (bs.drop x.spad).take (16384 * segs)
  let s := if segs = 0 then s else
    { s with mem := putBytes (sdropRange s.mem (spadLoc k 0) (spadLoc (k + 1) 0)) (spadLoc k 0) pad }
  let s := s.modCore k fun c => { c with warps := ws.foldl (fun m w => sinsert m w.1 w.2) c.warps }
  if h.owned then s.modSeq k fun _ => readSeq bs x.seq tid h.half else s
/-- The SEQGOs of a core's warps that wait join its sequencer's queue, by slot, with their registers (R304). -/
def State.requeue (s : State) (k : Nat) : State :=
  let gos := (s.core k).warps.flatMap fun p => p.2.slices.zipIdx.flatMap fun x => x.1.waits.filterMap fun wt => match wt with
    | .seqgo a => some (p.1, x.2, a, seqRegs p.2)
    | _ => none
  s.modSeq k fun q => { q with queue := gos }
/-- May a restore move the boundary of an empty core: where a change moves its whole cluster, does the rest of that hold no team (R77)? -/
def State.boundaryFree (s : State) (k segs : Nat) (fuse : Bool) : Bool :=
  let c := s.core k
  (c.segs == segs && c.fused == fuse) || !(fuse || c.fused) || s.clusterEmpty k
/-- The boundary and the fusion of an empty core move to those of an area (R77, R418), with its cluster's where that is or becomes fused; none
while a home holds a writeback back. -/
def State.moveBoundary (s : State) (k segs : Nat) (fuse : Bool) : Option State :=
  let c := s.core k
  if c.segs = segs ∧ c.fused = fuse then some s
  else
    let ks := if fuse || c.fused then s.clusterCores k else [k]
    (s.writeBacks (c.fused != fuse) ks).map fun s =>
      ks.foldl (fun s j => s.modCore j fun c => { c with segs := segs, fused := fuse, moving := none }) s
/-- R418: the area at an address is checked and loaded; the answer is the status, or none while memory holds back what the restore needs. -/
def State.readArea (s : State) (slot k : Nat) (addr : DWord) : Option (Nat × State) :=
  match s.areaTrap addr 64 false with
  | some t => if t.waits then none else some (4, s)
  | none =>
    if s.areaWaits addr 64 false then none
    else
      let hd := s.seenVirt hubCore slot hubCtx addr.toNat 64
      let len := leAt hd 8 8
      let segs := leAt hd 16 8 % 32
      let fuse := leAt hd 16 8 / 2 ^ 8 % 2 == 1
      if leAt hd 0 2 ≠ 1 ∨ leAt hd 2 1 = 0 ∨ 32 < leAt hd 2 1 ∨ len < 64 ∨ 2 ^ 25 < len then some (4, s)
      else
        match s.areaTrap addr len false with
        | some t => if t.waits then none else some (4, s)
        | none =>
          if s.areaWaits addr len false then none
          else
            let (bs, bad, s) := s.readVirt hubCore slot hubCtx addr.toNat len
            if bad = true ∨ crc32c (bs.drop 64) ≠ wordAt bs 24 then some (4, s)
            else
              match readBlocks bs segs (leAt hd 2 1) 64 with
              | none => some (4, s)
              | some xs =>
                let (tiles, slots) := asksFor bs segs xs
                if 64 < tiles ∨ 32 < slots ∨ 18 < segs then some (4, s)
                else if !s.boundaryFree k segs fuse then some (3, s)
                else
                  (s.moveBoundary k segs fuse).map fun s =>
                    let s := s.flush fun p =>
                      p.op.range.2 != 0 && decide (spadLoc k 0 ≤ p.op.range.1) && decide (p.op.range.1 < spadLoc (k + 1) 0)
                    (0, (xs.foldl (fun s x => s.loadBlock k segs bs x) s).requeue k)
/-- R339: a core with a resident team is not empty. -/
def execCrestore (d a : SReg) (s : State) : Out :=
  word (.crestore d a) s fun w s =>
    let k := (w.sget a).toNat
    if (s.resident k).isEmpty then s.wait (.crestore d k (w.sget (a + 1))) else s.modLive fun v => v.sset d 3
/-- R418: a CRESTORE completes. -/
def execCrestoreComplete (core slot : Nat) (s : State) : Out :=
  .next (match s.warp? core slot with
    | none => s
    | some w =>
      match w.hubWait with
      | some (.crestore d k addr) =>
        if core ≠ hubCore ∨ s.frozen w = true then s
        else if !(s.resident k).isEmpty then s.endHubWord slot d (.crestore d k addr) 3
        else
          match s.readArea slot k addr with
          | none => s.askSpan hubCtx addr.toNat (2 ^ 16) false
          | some (status, s) => s.endHubWord slot d (.crestore d k addr) status
      | _ => s)

end Sys2Proof.Machine
end

