-- ==== Sys2Proof/Machine/LoadStore.lean ====
section
/-! DEFINITION. Loads, stores, operand queues, fences and beam tables (R93 to R97, R241 to R254, R262). A load's locations are
fixed at issue, its bytes are read when it lands; a store is in flight from its issue. -/

namespace Sys2Proof.Machine
open Sys2Proof

/-! ### Where a word's lanes access memory -/

/-- An access of one lane: lane, location, page. -/
abbrev LaneAccess := Nat × Nat × Page
/-- The accesses of the lanes of a word to virtual memory. -/
def State.laneAccess (s : State) (c : Nat) (addr : Nat → DWord) (lanes : List Nat) : List LaneAccess :=
  lanes.filterMap fun l => match s.translate c (addr l) with
    | .ok p => some (l, p.pa (addr l).toNat, p)
    | .bad .. => none
/-- A page that stands for scratchpad. -/
def spadPage : Page := ⟨0, 0, 0, 0, false, false, 0⟩
/-- The accesses of the lanes of a scratchpad word (R249). -/
def State.laneSpad (s : State) (k g : Nat) (addr : Nat → DWord) (lanes : List Nat) : List LaneAccess :=
  lanes.filterMap fun l => (s.spadAddr k g (addr l).toNat).map fun loc => (l, loc, spadPage)
/-- The accesses of a .bx load's lanes, each resolved by the table of its page (R93). -/
def State.laneBx (s : State) (a c size : Nat) (addr : Nat → DWord) (lanes : List Nat) : List LaneAccess :=
  lanes.filterMap fun l => match s.translate c (addr l) with
    | .ok p => (bxResolve s a c p (addr l) size).map fun x => (l, p.pa x.toNat, p)
    | .bad .. => none
/-- A location that nothing names, for the bytes of a bit-field window that no element needs. -/
def nowhere : Nat := spadBase + 2 ^ 40
/-- Does a bit-field pattern need byte `b` of its window? -/
def BxPat.needs (p : BxPat) (b : Nat) : Bool :=
  (List.range (32 / p.outw)).any fun e => decide (p.pos e / 8 ≤ b) && decide (b ≤ (p.pos e + p.wid - 1) / 8)
/-- The accesses of the bytes that a .bfx load's lanes need, one by one. -/
def State.laneNeeds (s : State) (c : Nat) (p : BxPat) (addr : Nat → DWord) (lanes : List Nat) : List LaneAccess :=
  ((List.range 32).filter p.needs).flatMap fun b => s.laneAccess c (fun l => addr l + BitVec.ofNat 64 b) lanes
/-- The windows of a .bfx load's lanes: 32 locations each (R97). -/
def State.laneFields (s : State) (c : Nat) (p : BxPat) (addr : Nat → DWord) (lanes : List Nat) : List (Nat × List Nat) :=
  lanes.map fun l => (l, (List.range 32).map fun b =>
    if p.needs b then
      match s.translate c (addr l + BitVec.ofNat 64 b) with
      | .ok q => q.pa (addr l + BitVec.ofNat 64 b).toNat
      | .bad .. => nowhere
    else nowhere)
/-- The device asks for the peers' pages that accesses need (R119, R120). -/
def State.askAll (s : State) (wr : Bool) (as_ : List LaneAccess) : State :=
  as_.foldl (fun s x => s.askPage x.2.1 wr (x.2.2.treat == 2)) s
/-- Lane and location of accesses. -/
def laneLocs (as_ : List LaneAccess) : List (Nat × Nat) := as_.map fun x => (x.1, x.2.1)

/-! ### What a word accesses (R102, R106, R107) -/

/-- Ranges of `n` bytes at accesses. -/
def rangesOf (n : Nat) (as_ : List LaneAccess) : List (Nat × Nat) := as_.map fun x => (x.2.1, n)
/-- The lanes of accesses as threads. -/
def lanesOf (as_ : List LaneAccess) : BitVec 64 := laneMask (as_.map (·.1))

/-! ### The operand queues (R50, R250, R252) -/

/-- Entries of a queue. -/
def queueRoom : Nat := 8
/-- A queue of the warp. -/
def Warp.queue (w : Warp) (k : Nat) : List (List Word) := (sfind w.q k).getD []
/-- Entries that the words of a queue load make, from values whose register number is the entry's. -/
def queueEntries (n width : Nat) (vs : Landed) : List (List Word) :=
  (List.range n).map fun e => (List.range width).map fun i =>
    match vs.find? fun x => x.1 == e && x.2.1 == i with
    | some x => x.2.2
    | none => 0
/-- A queue load is performed: its entries join queue `k` (R250). -/
def State.pushQueue (s : State) (core slot k n : Nat) (r : Landed × Bool × State) : State :=
  match s.warp? core slot with
  | none => s
  | some w =>
    (r.2.2.modWarp core slot fun v => { v with q := sinsert v.q k (v.queue k ++ queueEntries n v.width r.1) }).consumed w.team r.2.1
/-- The destinations that number a queue load's words. -/
def queueDests (n : Nat) : List Dest := (List.range n).map .v
/-- The values that `n` popped entries give to the lanes of a destination pair. -/
def poppedValues (d : Nat) (lanes : List Nat) (es : List (List Word)) : Landed :=
  es.zipIdx.flatMap fun e => lanes.map fun l => (d + e.2, l, e.1.getD l 0)
/-- Entries a QPOP removes. -/
def popCount (w : Width) : Nat := w.regs
/-- A QPOP removes its entries and its result is in flight (R252). -/
def State.popQueue (s : State) (wd : Width) (d : VReg) (k la : Nat) (lanes : List Nat) : State :=
  match s.live? with
  | none => s
  | some w =>
    let n := popCount wd
    let es := (w.queue k).take n
    let rest := (w.queue k).drop n
    let s := s.modLive fun v => { v with q := if rest.isEmpty then sdrop v.q k else sinsert v.q k rest }
    s.addPending (destsV d.toNat n) la lanes (.values (poppedValues d.toNat lanes es))

/-! ### What a load does -/

/-- How a load accesses memory, once its addresses are known; a bit-field load's windows come with the accesses of the bytes that it
needs. -/
inductive Fetch where
  | bytes (size : Nat) (sx : Bool) (as_ : List LaneAccess)
  | fields (pat : DWord) (fs : List (Nat × List Nat)) (as_ : List LaneAccess)
/-- The accesses of a load. -/
def Fetch.accesses : Fetch → List LaneAccess
  | .bytes _ _ as_ => as_
  | .fields _ _ as_ => as_
/-- What a load becomes in flight, with its acquire scope. -/
def Fetch.op (acq : Option Scope) : Fetch → LandOp
  | .bytes size sx as_ => .load size sx acq (laneLocs as_)
  | .fields pat fs _ => .bfx pat fs
/-- What a load accesses. -/
def Fetch.access (f : Fetch) : Access := (f.op none).access (laneMask (f.op none).lanes)
/-- The device asks for a peer's pages. -/
def Fetch.ask (s : State) (f : Fetch) : State := s.askAll false f.accesses
/-- Words a load of `size` bytes writes. -/
def wordsOf (size : Nat) : Nat := max 1 (size / 4)

/-- What a load word reads, as its warp and memory stand: the queue or the first register, the registers or entries, its latency
group, its acquire scope, and the access; only for lanes of memory that are not BAR0 registers. -/
def loadFetch (s : State) (k slot c : Nat) (w : Warp) (m : BitVec 16) : Instr → Option (VReg × Nat × BitVec 4 × Option Scope × Fetch)
  | .ld acc gp sz d base off la =>
    let addr := laneAddr (w.sget base) (off.toInt * sz.bytes) sz.bytes
    let lanes := (lanesFor acc gp).filter fun l => !hubRegister k (addr l)
    some (d, sz.regs, la, none, .bytes sz.bytes sz.signed (s.laneAccess c addr lanes))
  | .ldStrong gp acq wd sc d base la =>
    let n := 4 * wd.regs
    some (d, wd.regs, la, if acq then some sc else none,
      .bytes n false (s.laneAccess c (laneAddr (w.sget base) 0 n) (lanesFor false gp)))
  | .ldBx acc gp wd d base la =>
    let n := 4 * wd.regs
    some (d, wd.regs, la, none, .bytes n false (s.laneBx (agentOf k slot) c n (laneAddr (w.sget base) 0 n) (lanesFor acc gp)))
  | .ldBfx acc gp b d base la =>
    let x := sget 0 w.bx b.toNat
    let addr := laneAddr (w.sget base) 0 4
    let lanes := lanesFor acc gp
    some (d, 1, la, none, .fields x (s.laneFields c (bxPat x) addr lanes) (s.laneNeeds c (bxPat x) addr lanes))
  | .lds acc gp sz d base off la =>
    let addr := laneAddr (w.sget base) (off.toInt * sz.bytes) sz.bytes
    some (d, sz.regs, la, none, .bytes sz.bytes sz.signed (s.laneSpad k w.grid addr (lanesFor acc gp)))
  | _ => none
where
  /-- The lanes of a load: for an A-marked one every active lane of the warp (R250). -/
  lanesFor (acc : Bool) (gp : PReg) : List Nat := if acc then w.actLanes w.alive .none else w.actLanes m ⟨false, gp⟩
/-- A queue load is performed for every lane of the warp (R250), when what must precede it and its memory allow it and its queue has
room: ahead by Piccolo, or at its place in the program (R251). -/
def State.queueLoad (s : State) (k slot : Nat) (w : Warp) (i : Instr) : Option State :=
  match loadFetch s k slot (s.ctxNo w) w w.alive i, s.warp? k slot with
  | some (d, n, _, _, f), some v =>
    let ps := v.partsFor f.access
    if queueRoom < (v.queue d.toNat).length + n ∨ s.partsReady k slot ps = false then none
    else
      let s := s.performParts k slot ps
      if s.opReady k slot (f.op none) then some (s.pushQueue k slot d.toNat n (s.performOp k slot (queueDests n) (f.op none))) else none
  | _, _ => none
/-- This device asks for the pages of a queue load. -/
def State.askQueue (s : State) (k slot : Nat) (w : Warp) (i : Instr) : State :=
  match loadFetch s k slot (s.ctxNo w) w w.alive i with
  | some (_, _, _, _, f) => f.ask s
  | none => s
/-- Does an A-marked load keep its bundle from issuing: not yet performed, and without room or held back? -/
def State.queueStalls (s : State) (k slot : Nat) (w : Warp) (m : BitVec 16) (pc : DWord) (i : Instr) : Bool :=
  loadMarked i && !w.passes m pc && (s.queueLoad k slot w i).isNone
/-- A gang passes the load of the bundle at an address, which has been performed: it is not among those that have still to pass it. -/
def dropPassed (m : BitVec 16) (pc : DWord) : List (DWord × BitVec 16) → List (DWord × BitVec 16)
  | [] => []
  | e :: r =>
    if e.1 = pc ∧ (e.2 &&& m) ≠ 0 then (if (e.2 &&& ~~~m) = 0 then r else (pc, e.2 &&& ~~~m) :: r) else e :: dropPassed m pc r
/-- A load has been performed for every lane while the slices of `m` stand at it: the other slices have still to pass it (R250). -/
def Piccolo.performed (x : Piccolo) (alive m : BitVec 16) (pc : DWord) : Piccolo :=
  if (alive &&& ~~~m) = 0 then x else { x with passed := x.passed ++ [(pc, alive &&& ~~~m)] }
/-- An A-marked load at its place in the program: it is performed here unless it has been for this gang (R250, R251). -/
def State.markedLoad (s : State) (w : Warp) (i : Instr) : State :=
  let m := s.cur.slices
  let pc := s.cur.pc
  if w.passes m pc then s.modLive fun v => { v with picc := { v.picc with passed := dropPassed m pc v.picc.passed } }
  else
    match s.queueLoad s.cur.core s.cur.slot w i with
    | some s => s.modLive fun v => { v with picc := v.picc.performed v.alive m pc }
    | none => { s with cur := { s.cur with moved := true } }
/-- A load into registers issues: what must precede it is performed, and its result is in flight (R187). One that acts in no lane of memory has
no result, and its destinations are not pending. (DESIGN CHOICE, log entry 79.) -/
def State.issueLoad (s : State) (w : Warp) (i : Instr) : State :=
  match loadFetch s s.cur.core s.cur.slot (s.ctxNo w) w s.cur.slices i with
  | none => s
  | some (d, n, la, acq, f) =>
    let s := f.ask (s.settleAccess f.access)
    let lanes := (f.op acq).lanes
    if lanes.isEmpty then s else s.addPending (destsV d.toNat n) la.toNat lanes (f.op acq)
/-- A word in flight is performed at once. -/
def State.readNow (s : State) (k slot id : Nat) : State :=
  match s.warp? k slot with
  | none => s
  | some w =>
    match w.pending.find? fun p => p.id == id with
    | some p => s.performPart k slot (p, BitVec.allOnes 64)
    | none => s
/-- Do the scratchpad words that a warp accesses carry pending bits (R85)? -/
def State.spadDebug (s : State) (w : Warp) : Bool :=
  match s.grid? w.grid with
  | some g => g.lr.spdbg
  | none => false
/-- A load word. -/
def loadWord (i : Instr) (s : State) : Out :=
  word i s fun w s => if loadMarked i then s.markedLoad w i else s.issueLoad w i
/-- The lanes of a plain LD.n64 that read BAR0 registers, and what they read (R456). -/
def hubValues (s : State) (k : Nat) (w : Warp) (m : BitVec 16) (gp : PReg) (d : VReg) (addr : Nat → DWord) : Landed :=
  ((w.actLanes m ⟨false, gp⟩).filter fun l => hubRegister k (addr l)).flatMap fun l =>
    let x := s.readReg ((addr l).toNat - hbar)
    [(d.toNat, l, loWord x), (d.toNat + 1, l, hiWord x)]

/-- R245; R456 for the hub control core's registers. -/
def execLd (acc : Bool) (gp : PReg) (sz : LdSize) (d : VReg) (base : SReg) (off : BitVec 6) (la : BitVec 4) (s : State) : Out :=
  let i := Instr.ld acc gp sz d base off la
  word i s fun w s =>
    if acc then s.markedLoad w i
    else
      let vs := hubValues s s.cur.core w s.cur.slices gp d (laneAddr (w.sget base) (off.toInt * sz.bytes) sz.bytes)
      let s := s.issueLoad w i
      if vs.isEmpty then s else s.addPending (destsV d.toNat 2) la.toNat (vs.map (·.2.1)).eraseDups (.values vs)
/-- R246. -/
def execLdStrong (gp : PReg) (acq : Bool) (w : Width) (sc : Scope) (d : VReg) (base : SReg) (la : BitVec 4) (s : State) : Out :=
  loadWord (.ldStrong gp acq w sc d base la) s
/-- R248, R93. -/
def execLdBx (acc : Bool) (gp : PReg) (w : Width) (d : VReg) (base : SReg) (la : BitVec 4) (s : State) : Out :=
  loadWord (.ldBx acc gp w d base la) s
/-- R248, R97. -/
def execLdBfx (acc : Bool) (gp : PReg) (k : BitVec 2) (d : VReg) (base : SReg) (la : BitVec 4) (s : State) : Out :=
  loadWord (.ldBfx acc gp k d base la) s
/-- R249. With pending bits, its reads are performed as it issues, when the bits are tested (R85). -/
def execLds (acc : Bool) (gp : PReg) (sz : LdSize) (d : VReg) (base : SReg) (off : BitVec 6) (la : BitVec 4) (s : State) : Out :=
  let i := Instr.lds acc gp sz d base off la
  word i s fun w s =>
    if acc then s.markedLoad w i
    else
      let t := s.issueLoad w i
      if s.spadDebug w && decide (s.nextId < t.nextId) then t.readNow s.cur.core s.cur.slot (t.nextId - 1) else t

/-! ### Stores -/

/-- The bytes a store of `size` bytes takes from a lane's group (R245). -/
def groupBytes (w : Warp) (r size lane : Nat) : List Byte :=
  ((List.range (wordsOf size)).flatMap fun j => bytesOf 4 ((w.vget (r + j) lane).zeroExtend 64)).take size
/-- What a store word writes: first register, bytes, its scope when strong, whether it releases, and its accesses; only for lanes of
memory that are not BAR0 registers. -/
def storeAccess (s : State) (k c : Nat) (w : Warp) (m : BitVec 16) :
    Instr → Option (VReg × Nat × Option Scope × Bool × List LaneAccess)
  | .st gp sz d base off =>
    let addr := laneAddr (w.sget base) (off.toInt * sz.bytes) sz.bytes
    some (d, sz.bytes, none, false, s.laneAccess c addr ((w.actLanes m ⟨false, gp⟩).filter fun l => !hubRegister k (addr l)))
  | .stStrong gp rel wd sc d base =>
    let n := 4 * wd.regs
    some (d, n, some sc, rel, s.laneAccess c (laneAddr (w.sget base) 0 n) (w.actLanes m ⟨false, gp⟩))
  | .sts gp sz d base off =>
    some (d, sz.bytes, none, false,
      s.laneSpad k w.grid (laneAddr (w.sget base) (off.toInt * sz.bytes) sz.bytes) (w.actLanes m ⟨false, gp⟩))
  | _ => none
/-- The stores of the lanes, ascending, are in flight as parts of one word (R247, R106, R423). A lane's access is performed whole, one of
16 bytes too. (DESIGN CHOICE, log entry 76.) -/
def State.storeLanes (s : State) (w : Warp) (r size : Nat) (strong : Option Scope) (rel : Bool) (as_ : List LaneAccess) : State :=
  let word := s.nextId
  as_.foldl (fun s x =>
    s.storePart word (agentOf s.cur.core s.cur.slot) (threadOf s.cur.core s.cur.slot x.1) 0 strong rel x.2.2.lax
      (.bytes x.2.1 (groupBytes w r size x.1))) s
/-- A store word's effect. -/
def State.issueStore (s : State) (w : Warp) (i : Instr) : State :=
  match storeAccess s s.cur.core (s.ctxNo w) w s.cur.slices i with
  | none => s
  | some (d, size, strong, rel, as_) =>
    if as_.isEmpty then s
    else
      let s := s.settleAccess { ranges := rangesOf size as_, lanes := lanesOf as_, strong := strong, rel := rel }
      (s.storeLanes w d.toNat size strong rel as_).askAll true as_
/-- The stores to BAR0 registers of a plain ST.n64, lanes ascending (R456). -/
def hubStores (k : Nat) (w : Warp) (m : BitVec 16) (gp : PReg) (d : VReg) (addr : Nat → DWord) (s : State) : State :=
  ((w.actLanes m ⟨false, gp⟩).filter fun l => hubRegister k (addr l)).foldl
    (fun s l => s.writeReg ((addr l).toNat - hbar) (w.vpair d.toNat l)) s

/-- R245; R456 for the hub control core's registers. -/
def execSt (gp : PReg) (sz : StSize) (d : VReg) (base : SReg) (off : BitVec 6) (s : State) : Out :=
  word (.st gp sz d base off) s fun w s =>
    let addr := laneAddr (w.sget base) (off.toInt * sz.bytes) sz.bytes
    hubStores s.cur.core w s.cur.slices gp d addr (s.issueStore w (.st gp sz d base off))
/-- R246. -/
def execStStrong (gp : PReg) (rel : Bool) (w : Width) (sc : Scope) (d : VReg) (base : SReg) (s : State) : Out :=
  word (.stStrong gp rel w sc d base) s fun v s => s.issueStore v (.stStrong gp rel w sc d base)
/-- R249. -/
def execSts (gp : PReg) (sz : StSize) (d : VReg) (base : SReg) (off : BitVec 6) (s : State) : Out :=
  word (.sts gp sz d base off) s fun w s => s.issueStore w (.sts gp sz d base off)

/-! ### Prefetches (R253) -/

/-- R253: never faults and changes no value. -/
def execPrefL1 (acc : Bool) (gp : PReg) (base : SReg) (off : BitVec 6) (s : State) : Out :=
  word (.prefL1 acc gp base off) s fun _ s => s
/-- R253. -/
def execPrefL2 (acc : Bool) (gp : PReg) (base : SReg) (off : BitVec 6) (s : State) : Out :=
  word (.prefL2 acc gp base off) s fun _ s => s

/-! ### Queue pops (R252) -/

/-- R252: pops now, or waits for its entries. -/
def execQpop (gp : PReg) (w : Width) (d : VReg) (k : BitVec 4) (la : BitVec 4) (s : State) : Out :=
  word (.qpop gp w d k la) s fun v s =>
    let lanes := v.actLanes s.cur.slices ⟨false, gp⟩
    let s := s.modLive Warp.endRegion
    match s.live? with
    | none => s
    | some x =>
      if popCount w ≤ (x.queue k.toNat).length then s.popQueue w d k.toNat la.toNat lanes
      else s.wait (.qpop w d k.toNat la.toNat (laneMask lanes))
/-- The cursor names a gang of a warp. -/
def State.atGang (s : State) (core slot : Nat) (m : BitVec 16) : State :=
  { s with cur := { s.cur with core := core, slot := slot, slices := m } }
/-- R252, R35: the entries of a waiting QPOP are present. -/
def execQpopComplete (core slot slice : Nat) (s : State) : Out :=
  .next (s.onWait core slot slice fun w wt => match wt with
    | .qpop wd d k la lanes =>
      if popCount wd ≤ (w.queue k).length then
        let ls := (List.range w.width).filter lanes.getLsbD
        some { (s.atGang core slot (w.gangOf slice)).popQueue wd d k la ls with cur := s.cur }
      else none
    | _ => none)

/-! ### Fences (R108, R114, R254) -/

/-- A FENCE waits until its orderings are met. -/
def fenceWord (i : Instr) (g : Guard) (acq rel : Bool) (sc : Scope) (s : State) : Out :=
  word i s fun w s =>
    let lanes := w.actLanes s.cur.slices g
    if lanes.isEmpty then s else s.wait (.fence acq rel sc (laneMask lanes))
/-- R254, R108. -/
def execFenceAcq (g : Guard) (sc : Scope) (s : State) : Out := fenceWord (.fenceAcq g sc) g true false sc s
/-- R254, R108. -/
def execFenceRel (g : Guard) (sc : Scope) (s : State) : Out := fenceWord (.fenceRel g sc) g false true sc s
/-- R254, R108. -/
def execFenceAr (g : Guard) (sc : Scope) (s : State) : Out := fenceWord (.fenceAr g sc) g true true sc s
/-- R254, R114. -/
def execSpfence (g : Guard) (s : State) : Out :=
  word (.spfence g) s fun w s => if w.actsOnce s.cur.slices g then s.wait .spfence else s
/-- A FENCE.rel stands among the stores in flight of each of its lanes: their later stores act as releases would (R108). -/
def State.markFence (s : State) (k slot : Nat) (sc : Scope) (lanes : BitVec 64) : State :=
  ((List.range 64).filter lanes.getLsbD).foldl
    (fun s l => s.store (agentOf k slot) (threadOf k slot l) 0 (some sc) true false .mark) s
/-- The accesses of some lanes of a warp that are in flight are performed, if they all can be. -/
def State.performedAll (s : State) (k slot : Nat) (w : Warp) (lanes : BitVec 64) : Option State :=
  if s.partsReady k slot (w.partsAll lanes) then some (s.performAll k slot lanes) else none
/-- R108, R114: what a fence waits for is met: its lanes' accesses are performed; a FENCE.ar has performed what it releases, a FENCE.rel
leaves its mark for later stores, and an acquire is seen. An SPFENCE has the warp's scratchpad accesses performed and empties the operand
cache. -/
def execFenceWaitComplete (core slot slice : Nat) (s : State) : Out :=
  .next (s.onWait core slot slice fun w wt =>
    match wt with
    | .fence acq rel sc lanes =>
      (s.performedAll core slot w lanes).bind fun s =>
        (if rel && acq then s.released core slot sc else some (if rel then s.markFence core slot sc lanes else s)).map fun s =>
          if acq then s.acquireAt core sc else s
    | .spfence =>
      (s.performedAll core slot w (BitVec.allOnes 64)).map fun s =>
        (s.flush fun p => p.agent == agentOf core slot && decide (spadBase ≤ p.op.range.1)).dropCache core fun _ => true
    | _ => none)

/-! ### Beam tables (R94, R95, R262) -/

/-- A strong store at .dev scope to a table's state, which some lanes make together: it follows what each of them has stored (R106). -/
def State.beamStore (s : State) (lanes : List Nat) (op : StoreOp) : State :=
  let a := agentOf s.cur.core s.cur.slot
  let thr (l : Nat) : Nat := threadOf s.cur.core s.cur.slot l
  { s with
    pend := s.pend ++
      [⟨s.nextId, a, thr (lanes.headD 0), 0, some .dev, lanes.flatMap fun l => s.orders a (thr l) (some .dev) false, false, [], s.nextId, op⟩]
    nextId := s.nextId + 1 }
/-- The access of the lanes of a beam table word: a strong store at .dev scope (R94). -/
def beamAccess (lanes : List Nat) : Access := { lanes := laneMask lanes, strong := some .dev }
/-- R262: the lanes' entries go to the shadow bank in ascending lane order, as one single-copy atomic group (R98). -/
def execBitld (acc : Bool) (g : Guard) (t : BitVec 2) (a b : Src) (s : State) : Out :=
  word (.bitld acc g t a b) s fun w s =>
    let lanes := w.actLanes s.cur.slices g
    let s := s.modLive Warp.endRegion
    if lanes.isEmpty then s
    else
      (s.settleAccess (beamAccess lanes)).beamStore lanes
        (.bitld (s.ctxNo w) t.toNat (laneMask lanes) (lanes.map fun l => ((w.src32 a l).toNat, (w.src32 b l).extractLsb' 0 16)))
/-- R262: the value of the lowest acting lane. -/
def execBitldPitch (acc : Bool) (g : Guard) (t : BitVec 2) (b : Src) (s : State) : Out :=
  word (.bitldPitch acc g t b) s fun w s =>
    let s := s.modLive Warp.endRegion
    match w.actLanes s.cur.slices g with
    | [] => s
    | l :: _ => (s.settleAccess (beamAccess [l])).beamStore [l] (.bitpitch (s.ctxNo w) t.toNat (w.src32 b l))
/-- R262: once per bundle. -/
def execBitsw (acc : Bool) (g : Guard) (t : BitVec 2) (s : State) : Out :=
  word (.bitsw acc g t) s fun w s =>
    let s := s.modLive Warp.endRegion
    match w.actLanes s.cur.slices g with
    | [] => s
    | l :: _ => (s.settleAccess (beamAccess [l])).beamStore [l] (.bitsw (s.ctxNo w) t.toNat)

end Sys2Proof.Machine
end

