-- ==== Sys2Proof/Machine/Reversible.lean ====
section
/-! DEFINITION. The reversible words and the Serpent stack's own words (R296 to R302, R144 to R155). -/

namespace Sys2Proof.Machine
open Sys2Proof

/-- The accesses of a chunk move (R152): plain ones of the warp, which an acquire of any of its threads precedes (R107). -/
def chunkAccess (s : State) (c : Nat) (w : Warp) (ch : Nat) (load : Bool) : Access :=
  { ranges := s.runs c (chunkAddr w ch) (chunkSize w), lanes := BitVec.allOnes 64, load := load }
/-- The tag a stack word pushes or expects (R145); 0 when its parameter is illegal, which the checks refuse. -/
def tagOf (w : Warp) (i : Instr) : Byte :=
  match revParam w i with
  | some p => revTag p
  | none => 0
/-- One spill of the warp (R150), after what must precede it. -/
def spillLive (w : Warp) (s : State) : State :=
  let c := s.ctxNo w
  let ch := w.spilled / 32
  ((s.settleAccess (chunkAccess s c w ch false)).askSpan c (chunkAddr w ch) (chunkSize w) true).spill s.cur.core s.cur.slot c w
/-- A push (R146, R150): a spill when the window is full, then every destination, entries and tag. `f` gives the acting
lanes' results and entries; `all` is the entry that every lane pushes, when it is not zero for the others (RVMARK). -/
def pushWord (i : Instr) (g : Guard) (d : Option VReg) (f : Warp → Nat → Word × Half) (s : State) : Out :=
  word i s fun w s =>
    let m := s.cur.slices
    let s := if w.mustSpill then spillLive w s else s
    s.modLive fun v =>
      let v := v.push (tagOf w i) fun l =>
        match d with
        | some _ => if w.acts m g l then (f w l).2 else 0
        | none => (f w l).2
      match d with
      | some d => v.vset d.toNat (fun l => (f w l).1) (w.acts m g)
      | none => v
/-- One fill of the warp (R150), after what must precede it; poisoned bytes are consumed (R424). -/
def fillLive (w : Warp) (s : State) : State :=
  let c := s.ctxNo w
  let ch := w.spilled / 32 - 1
  let (bs, p, s) := (s.settleAccess (chunkAccess s c w ch true)).readVirt s.cur.core s.cur.slot c (chunkAddr w ch) (chunkSize w)
  (s.modLive fun v => v.fillFrom ch bs).consumed w.team p
/-- A pop (R146, R150): a fill when the window is empty, then every destination from the popped entry, and the pop. -/
def popWord (i : Instr) (g : Guard) (d : Option VReg) (f : Warp → Nat → Half → Word) (s : State) : Out :=
  word i s fun w s =>
    let m := s.cur.slices
    let s := if w.mustFill then fillLive w s else s
    s.modLive fun v =>
      let v' := v.pop
      match d with
      | some d => v'.vset d.toNat (fun l => f w l (v.entry (v.depth - 1) l)) (w.acts m g)
      | none => v'
/-- m of a scaling pair (R296). -/
def revM (w : Warp) (b : SReg) : Int := (loWord (w.sget b)).toInt
/-- The low `n` bits of an entry. -/
def lowBits (n : Nat) (x : Int) : Half := BitVec.ofNat 16 (x % 2 ^ n).toNat
/-- s of a scaling pair, k of a shifting pair. -/
def revScale (w : Warp) (b : SReg) : Nat := (hiWord (w.sget b)).toNat
/-- k of a shifting pair (R296). -/
def revShift (w : Warp) (b : SReg) : Nat := (w.sget b).toNat
/-- R298. -/
def execRvmul (g : Guard) (d : VReg) (a : Src) (b : SReg) (s : State) : Out :=
  pushWord (.rvmul g d a b) g (some d) (fun w l =>
    let p := (w.src32 a l).toInt * revM w b
    (BitVec.ofInt 32 (p / 2 ^ revScale w b), lowBits (revScale w b) p)) s
/-- R298: the division truncates towards zero. -/
def execUnmul (g : Guard) (d : VReg) (a : Src) (b : SReg) (s : State) : Out :=
  popWord (.unmul g d a b) g (some d) (fun w l e =>
    let rem := e.toNat % 2 ^ revScale w b
    BitVec.ofInt 32 (((w.src32 a l).toInt * 2 ^ revScale w b + rem).tdiv (revM w b))) s
/-- R299. -/
def execRvshr (g : Guard) (d : VReg) (a : Src) (b : SReg) (s : State) : Out :=
  pushWord (.rvshr g d a b) g (some d) (fun w l =>
    let x := w.src32 a l
    if x.slt 0 then (x.sshiftRight (revShift w b), lowBits (revShift w b) x.toNat) else (x, 0)) s
/-- R299. -/
def execUnshr (g : Guard) (d : VReg) (a : Src) (b : SReg) (s : State) : Out :=
  popWord (.unshr g d a b) g (some d) (fun w l e =>
    let y := w.src32 a l
    if y.slt 0 then (y <<< revShift w b) + BitVec.ofNat 32 (e.toNat % 2 ^ revShift w b) else y) s
/-- R300: the narrowing truncates. -/
def execRvnarBf16 (g : Guard) (d : VReg) (a : Src) (s : State) : Out :=
  pushWord (.rvnarBf16 g d a) g (some d) (fun w l =>
    ((w.src32 a l) >>> 16, (w.src32 a l).extractLsb' 0 16)) s
/-- R300. -/
def execUnnarBf16 (g : Guard) (d : VReg) (a : Src) (s : State) : Out :=
  popWord (.unnarBf16 g d a) g (some d) (fun w l e => ((w.src32 a l).extractLsb' 0 16 ++ e : Word)) s
/-- R300: va itself, once the REV_LOSS check has passed. -/
def execRvnarI16 (g : Guard) (d : VReg) (a : Src) (s : State) : Out :=
  laneWord (.rvnarI16 g d a) g .w32 d s fun w l => (w.src32 a l).zeroExtend 64
/-- R300: the low half sign-extended. -/
def execUnnarI16 (g : Guard) (d : VReg) (a : Src) (s : State) : Out :=
  laneWord (.unnarI16 g d a) g .w32 d s fun w l => (((w.src32 a l).extractLsb' 0 16).signExtend 32).zeroExtend 64
/-- R301. -/
def execRvadd (g : Guard) (d : VReg) (a b : Src) (s : State) : Out :=
  int2 (.rvadd g d a b) g .w32 d a b (fun _ x y => x + y) s
/-- R301. -/
def execUnadd (g : Guard) (d : VReg) (a b : Src) (s : State) : Out :=
  int2 (.unadd g d a b) g .w32 d a b (fun _ x y => x - y) s
/-- R302: the marker goes to every lane. -/
def execRvmark (m : BitVec 16) (s : State) : Out := pushWord (.rvmark m) .none none (fun _ _ => (0, m)) s
/-- R302, R147. -/
def execUnmark (m : BitVec 16) (s : State) : Out := popWord (.unmark m) .none none (fun _ _ _ => 0) s
/-- R302, R150: one spill when D − H ≥ 32. -/
def execRspill (s : State) : Out :=
  word .rspill s fun w s => if 32 ≤ w.depth - w.spilled then spillLive w s else s
/-- R302, R150: one fill when H > 0 and D − H ≤ 96. -/
def execRsfill (s : State) : Out :=
  word .rsfill s fun w s => if 0 < w.spilled ∧ w.depth - w.spilled ≤ 96 then fillLive w s else s
/-- R302, R144: D, executed once. -/
def execRsdepth (d : SReg) (s : State) : Out :=
  onWarp (.rsdepth d) s fun w _ v => v.sset d (BitVec.ofNat 64 w.depth)

end Sys2Proof.Machine
end

