-- ==== Sys2Proof/Machine/Atomic.lean ====
section
/-! DEFINITION. Atomics and reductions (R110 to R112, R255 to R258). -/

namespace Sys2Proof.Machine
open Sys2Proof

/-- Where a lane's atomic goes: base and the lane's offset (R256). -/
def atomAddr (w : Warp) (d : VReg) (base : SReg) (lane : Nat) : DWord := w.sget base + (w.vget d.toNat lane).zeroExtend 64
/-- The operand of a lane, or a cas's expected value (R256). -/
def atomOperand (w : Warp) (op : AtomOp) (d : VReg) (lane : Nat) : DWord :=
  if atomSize op = 8 then w.vpair (d.toNat + 2) lane else (w.vget (d.toNat + 1) lane).zeroExtend 64
/-- A cas's new value (R256). -/
def atomNew (w : Warp) (op : AtomOp) (d : VReg) (lane : Nat) : DWord :=
  match op with
  | .casN32 => (w.vget (d.toNat + 2) lane).zeroExtend 64
  | .casN64 => w.vpair (d.toNat + 4) lane
  | _ => 0
/-- The accesses of the acting lanes. -/
def atomAccess (s : State) (w : Warp) (gp : PReg) (d : VReg) (base : SReg) : List LaneAccess :=
  s.laneAccess (s.ctxNo w) (atomAddr w d base) (w.actLanes s.cur.slices ⟨false, gp⟩)
/-- The level of the site where an atomic of core `k` executes (Table 4.4): 1 or 2 in the core's or its cluster's own copy of a line of an SI
page, 3 in L2, 4 at the home agent of host or peer memory. A DT line that is taken exclusive is as good as its home. (DESIGN CHOICE, log entry 16.) -/
def atomSite (s : State) (k : Nat) (sc : Scope) (x : LaneAccess) : Nat :=
  if x.2.2.lax && !s.wider k sc then (if sc == .clus then 2 else 1)
  else if x.2.1 < devLimit then 3
  else if x.2.1 < peerBase then (if sc == .sys || x.2.2.treat == 2 then 4 else 3)
  else 4
/-- What an atomic's access is. -/
def atomAccessKind (op : AtomOp) (rel : Bool) (sc : Scope) (as_ : List LaneAccess) : Access :=
  { ranges := rangesOf (atomSize op) as_, lanes := lanesOf as_, strong := some sc, rel := rel }
/-- Registers of an atomic's result. -/
def atomDests (op : AtomOp) (d : VReg) : List Dest := (atomGroup op d.toNat).2.map .v

/-- R255 to R258: an atomic of each acting lane, performed together when the result lands. -/
def execAtom (gp : PReg) (op : AtomOp) (ord : AtomOrd) (sc : Scope) (d : VReg) (base : SReg) (la : BitVec 4) (s : State) : Out :=
  word (.atom gp op ord sc d base la) s fun w s =>
    let as_ := atomAccess s w gp d base
    let rel := ord == .rel || ord == .ar
    let s := s.modLive Warp.endRegion
    if as_.isEmpty then s
    else
      let s := s.settleAccess (atomAccessKind op rel sc as_)
      (s.askAll true as_).addPending (atomDests op d) la.toNat (as_.map (·.1))
        (.atom op ord sc (as_.map fun x => (x.1, x.2.1, atomSite s s.cur.core sc x, x.2.2.lax, atomOperand w op d x.1, atomNew w op d x.1)))
/-- One lane's reduction: in the domain's own copy at once, and otherwise a store in flight to its site (Table 4.4). -/
def State.redLane (s : State) (w : Warp) (op : AtomOp) (rel : Bool) (sc : Scope) (d : VReg) (x : LaneAccess) : State :=
  let b := atomOperand w op d x.1
  let site := atomSite s s.cur.core sc x
  if site ≤ 2 then
    (s.atomLane s.cur.core s.cur.slot x.1 op sc rel x.2.1 site x.2.2.lax b 0).2.2
  else
    s.store (agentOf s.cur.core s.cur.slot) (threadOf s.cur.core s.cur.slot x.1) 0 (some sc) rel x.2.2.lax (.red x.2.1 op b)
/-- R255, R110: the effect of an atomic without its result. -/
def execRed (gp : PReg) (op : AtomOp) (rel : Bool) (sc : Scope) (d : VReg) (base : SReg) (s : State) : Out :=
  word (.red gp op rel sc d base) s fun w s =>
    let as_ := atomAccess s w gp d base
    let s := s.modLive Warp.endRegion
    if as_.isEmpty then s
    else
      let s := s.settleAccess (atomAccessKind op rel sc as_)
      (as_.foldl (fun s x => s.redLane w op rel sc d x) s).askAll true as_

/-! ### Which access a word makes -/

/-- The chunk that a stack word moves before its own effect, and whether it reads it (R150). -/
def chunkOf (w : Warp) (i : Instr) : Option (Nat × Bool) :=
  let spill := some (w.spilled / 32, false)
  let fill := some (w.spilled / 32 - 1, true)
  match i with
  | .rspill => if 32 ≤ w.depth - w.spilled then spill else none
  | .rsfill => if 0 < w.spilled ∧ w.depth - w.spilled ≤ 96 then fill else none
  | i => if pushes i && w.mustSpill then spill else if pops i && w.mustFill then fill else none
/-- Everything that some lanes have in flight comes first. -/
def allBefore (lanes : BitVec 64) : Access := { lanes := lanes, rel := true }
/-- The access of a word that is about to issue: what must be performed first (R102, R106, R107, Table 4.5). -/
def accessOf (s : State) (w : Warp) (i : Instr) : Access :=
  let k := s.cur.core
  let c := s.ctxNo w
  let m := s.cur.slices
  match i with
  | .ld .. | .ldStrong .. | .ldBx .. | .ldBfx .. | .lds .. =>
    match loadFetch s k s.cur.slot c w m i with
    | some (_, _, _, _, f) => if loadMarked i && w.passes m s.cur.pc then {} else f.access
    | none => {}
  | .st .. | .stStrong .. | .sts .. =>
    match storeAccess s k c w m i with
    | some (_, size, strong, rel, as_) => { ranges := rangesOf size as_, lanes := lanesOf as_, strong := strong, rel := rel }
    | none => {}
  | .atom gp op ord sc d base _ => atomAccessKind op (ord == .rel || ord == .ar) sc (atomAccess s w gp d base)
  | .red gp op rel sc d base => atomAccessKind op rel sc (atomAccess s w gp d base)
  | .bitld _ g .. => beamAccess (w.actLanes m g)
  | .bitldPitch _ g .. | .bitsw _ g _ => beamAccess ((w.actLanes m g).take 1)
  | .copy g .. | .copy2d g .. | .cont g .. => allBefore (laneMask (w.actLanes m g))
  | .chkerr .. | .barArrive _ | .barSync _ => allBefore (BitVec.allOnes 64)
  | i =>
    match chunkOf w i with
    | some (ch, load) => chunkAccess s c w ch load
    | none => {}
/-- Is the reduction of each lane that executes in the core's own copy ready to (Table 4.4)? -/
def redReady (s : State) (w : Warp) : Instr → Bool
  | .red gp op rel sc d base =>
    (atomAccess s w gp d base).all fun x =>
      let site := atomSite s s.cur.core sc x
      decide (2 < site) ||
        s.atomReady (agentOf s.cur.core s.cur.slot) (threadOf s.cur.core s.cur.slot x.1) x.2.1 (atomSize op) sc rel site
  | _ => true

end Sys2Proof.Machine
end

