-- ==== Sys2Proof/Machine/Lane.lean ====
section
/-! DEFINITION. The cross-lane words (R265 to R270). Values are the raw contents of the source lane; the guard says which lanes
write. -/

namespace Sys2Proof.Machine
open Sys2Proof

/-- The source lane of SHFL (R266). -/
def shflLane (md : ShMode) (n i k : Nat) : Nat :=
  match md with
  | .idx => k % n
  | .up => (i + (n - k % n)) % n
  | .down => (i + k) % n
  | .xor => (i ^^^ k) % n
/-- R266. -/
def execShfl (g : Guard) (m : ShMode) (w : Width) (d a : VReg) (b : Src) (s : State) : Out :=
  laneWord (.shfl g m w d a b) g w d s fun v i => v.srcW w (.v a) (shflLane m v.width i (v.src32 b i).toNat)
/-- The set bits of a predicate below lane `i` (R267). -/
def rank (w : Warp) (p : PReg) (i : Nat) : Nat := ((List.range i).filter (w.pred p)).length
/-- The lane whose value COMPRESS gives lane `j`: the set lane of rank `j` (R267). -/
def rankedLane (w : Warp) (p : PReg) (j : Nat) : Option Nat := ((List.range w.width).filter (w.pred p))[j]?
/-- R267. -/
def execCompress (g : Guard) (d a : VReg) (p : PReg) (s : State) : Out :=
  onWarp (.compress g d a p) s fun w m v =>
    v.vset d.toNat (fun j => w.vget a.toNat ((rankedLane w p j).getD 0)) fun j => w.acts m g j && (rankedLane w p j).isSome
/-- R267. -/
def execExpand (g : Guard) (d a : VReg) (p : PReg) (s : State) : Out :=
  onWarp (.expand g d a p) s fun w m v =>
    v.vset d.toNat (fun i => w.vget a.toNat (rank w p i)) fun i => w.acts m g i && w.pred p i
/-- R268: lane i − k, where there is one. -/
def execSlideup (g : Guard) (d a : VReg) (b : SReg) (s : State) : Out :=
  onWarp (.slideup g d a b) s fun w m v =>
    v.vset d.toNat (fun i => w.vget a.toNat (i - (w.sget b).toNat)) fun i => w.acts m g i && decide ((w.sget b).toNat ≤ i)
/-- R268: lane i + k, where there is one. -/
def execSlidedn (g : Guard) (d a : VReg) (b : SReg) (s : State) : Out :=
  onWarp (.slidedn g d a b) s fun w m v =>
    v.vset d.toNat (fun i => w.vget a.toNat (i + (w.sget b).toNat)) fun i => w.acts m g i && decide (i + (w.sget b).toNat < w.width)
/-- R269: set in any contributing lane. -/
def execVoteAny (g : Guard) (p q : PReg) (s : State) : Out :=
  onWarp (.voteAny g p q) s fun w m v => v.pset p (fun _ => (w.actLanes m g).any (w.pred q)) (w.acts m g)
/-- R269: set in every contributing lane. -/
def execVoteAll (g : Guard) (p q : PReg) (s : State) : Out :=
  onWarp (.voteAll g p q) s fun w m v => v.pset p (fun _ => (w.actLanes m g).all (w.pred q)) (w.acts m g)
/-- R269: sd is written whether or not the guard is true in any lane. -/
def execVoteBallot (g : Guard) (d : SReg) (q : PReg) (s : State) : Out :=
  onWarp (.voteBallot g d q) s fun w m v => v.sset d (laneMask ((w.actLanes m g).filter (w.pred q)))
/-- A reduction over the contributing lanes from its identity (Table 13.2); sd is written in every case (R270). -/
def reduxWord (i : Instr) (g : Guard) (d : SReg) (a : VReg) (one : Word) (f : Word → Word → Word) (ext : Word → DWord)
    (s : State) : Out :=
  onWarp i s fun w m v => v.sset d (ext (((w.actLanes m g).map fun l => w.vget a.toNat l).foldl f one))
/-- R270: the sum modulo 2^32. -/
def execReduxAdd (g : Guard) (d : SReg) (a : VReg) (s : State) : Out :=
  reduxWord (.reduxAdd g d a) g d a 0 (· + ·) (·.zeroExtend 64) s
/-- R270: signed results are sign-extended. -/
def execReduxMin (g : Guard) (un : Bool) (d : SReg) (a : VReg) (s : State) : Out :=
  if un then reduxWord (.reduxMin g un d a) g d a 0xFFFFFFFF (fun x y => if y.ult x then y else x) (·.zeroExtend 64) s
  else reduxWord (.reduxMin g un d a) g d a 0x7FFFFFFF (fun x y => if y.slt x then y else x) (·.signExtend 64) s
/-- R270. -/
def execReduxMax (g : Guard) (un : Bool) (d : SReg) (a : VReg) (s : State) : Out :=
  if un then reduxWord (.reduxMax g un d a) g d a 0 (fun x y => if x.ult y then y else x) (·.zeroExtend 64) s
  else reduxWord (.reduxMax g un d a) g d a 0x80000000 (fun x y => if x.slt y then y else x) (·.signExtend 64) s
/-- R270. -/
def execReduxAnd (g : Guard) (d : SReg) (a : VReg) (s : State) : Out :=
  reduxWord (.reduxAnd g d a) g d a 0xFFFFFFFF (· &&& ·) (·.zeroExtend 64) s
/-- R270. -/
def execReduxOr (g : Guard) (d : SReg) (a : VReg) (s : State) : Out :=
  reduxWord (.reduxOr g d a) g d a 0 (· ||| ·) (·.zeroExtend 64) s

end Sys2Proof.Machine
end

