-- ==== Sys2Proof/Machine/Piccolo.lean ====
section
/-! DEFINITION. The access slice (R250, R251, R276), which runs ahead of the execute slice along the path whose branches it has
evaluated. -/

namespace Sys2Proof.Machine
open Sys2Proof

/-! ### Words on the path (R251, R276) -/

/-- Words whose completion in the execute slice Piccolo awaits before a later A-marked load (R251). -/
def holdsLoads : Instr → Bool
  | .ldStrong _ acq .. => acq
  | .atom _ _ ord .. => ord == .acq || ord == .ar
  | .fenceAcq .. | .fenceAr .. | .barWait _ | .barSync _ | .take _ | .waitb .. | .testb .. => true
  | _ => false
/-- Words that change a beam table, which a later .bx load reads (R94). -/
def beamWord : Instr → Bool
  | .bitld .. | .bitldPitch .. | .bitsw .. => true
  | _ => false
/-- Is it a load through a beam table? -/
def throughBeam : Instr → Bool
  | .ldBx .. => true
  | _ => false
/-- Is it a control word of R276? -/
def controlWord : Instr → Bool
  | .bra .. | .jmp .. | .call .. | .ret .. | .brx .. | .exit .. => true
  | _ => false
/-- Is it a branch that never waits (R276)? -/
def unconditional : Instr → Bool
  | .bra _ p .. => p == 7
  | _ => false
/-- Registers that words not yet issued by the execute slice write: vector, scalar, predicate, special. -/
structure Unissued where
  v : List Nat
  s : List Nat
  p : List Nat
  x : List Nat
  deriving DecidableEq, Repr
/-- One word more is passed. -/
def Unissued.pass (u : Unissued) (i : Instr) : Unissued :=
  let y := usesOf i
  ⟨u.v ++ y.vw, u.s ++ y.sw, u.p ++ y.pw, u.x ++ y.xw⟩
/-- What is in flight, or waits for a queue's entries, counts as not yet written. -/
def Warp.unlanded (w : Warp) : Unissued :=
  let ds := w.pending.flatMap (·.dests)
  let qs := w.slices.flatMap fun x => x.waits.flatMap fun wt => match wt with
    | .qpop wd d .. => regsFrom d.toNat wd.regs
    | _ => []
  ⟨(ds.filterMap fun d => match d with
    | .v r => some r
    | .s _ => none) ++ qs,
   ds.filterMap fun d => match d with
    | .s r => some r
    | .v _ => none, [], []⟩
/-- The bit-field pattern that a load uses, as a special register. -/
def patternOf : Instr → List Nat
  | .ldBfx _ _ k .. => [6 + k.toNat]
  | _ => []
/-- Do the inputs of an A-marked word wait for words not yet issued? -/
def Unissued.blocks (u : Unissued) (i : Instr) : Bool :=
  let y := usesOf i
  let p := match i with
    | .bra _ p .. => [p.toNat]
    | _ => []
  meets u.v y.vr || meets u.s y.sr || meets u.p p || meets u.x (patternOf i)

/-! ### The path of a slice -/

/-- What the access slice of a slice meets next: a load or a control word, with its place on the path from the execute slice's next word
on, and the performed loads that it passes on the way. -/
inductive Ahead where
  | load (pc : DWord) (i : Instr) (pos : Nat) (used : List DWord)
  | control (pc : DWord) (len : Nat) (i : Instr) (pos : Nat) (used : List DWord)
  | stop
  deriving DecidableEq, Repr
/-- Where a scan stands: address and place, the lead up to which it only follows, the outcomes it follows, the performed loads it has still
to pass and those it has passed, words not yet issued, and whether a word before it holds loads, or those through beam tables. -/
structure Scanning where
  pc : DWord
  pos : Nat
  lead : Nat
  outs : List Bool
  passed : List DWord
  used : List DWord
  un : Unissued
  hold : Bool
  holdBx : Bool
  deriving DecidableEq, Repr
/-- Instructions by which the access slice may be ahead (R251). -/
def aheadLimit : Nat := 256
/-- Where a slice goes at a control word, when `taken` says whether it takes a branch. -/
def controlTarget (w : Warp) (pc : DWord) (len j : Nat) (taken : Bool) : Instr → DWord
  | .bra _ _ _ off => if taken then braTarget pc off else pc + BitVec.ofNat 64 (4 * len)
  | .jmp _ a | .call _ _ a | .ret _ a => w.sget a
  | .brx _ a => brxTarget w a j
  | _ => pc
/-- The words of one bundle on the path: what is met, or where the path goes on. -/
def scanWords (w : Warp) (j : Nat) (pc : DWord) (len : Nat) : List Instr → Scanning → Ahead ⊕ Scanning
  | [], x => .inr { x with pc := pc + BitVec.ofNat 64 (4 * len) }
  | i :: r, x =>
    let next := { x with pos := x.pos + 1, un := x.un.pass i }
    if loadMarked i then
      if x.pos < x.lead then scanWords w j pc len r next
      else if x.passed.contains pc then scanWords w j pc len r { next with passed := x.passed.erase pc, used := x.used ++ [pc] }
      else if aheadLimit ≤ x.pos ∨ x.hold = true ∨ (x.holdBx && throughBeam i) = true ∨ x.un.blocks i = true then .inl .stop
      else .inl (.load pc i x.pos x.used)
    else if controlWord i then
      if x.pos < x.lead then .inr { next with pc := controlTarget w pc len j (x.outs.headD false) i, outs := x.outs.tail }
      else
        match i with
        | .exit _ => .inl .stop
        | i => if aheadLimit ≤ x.pos ∨ (!unconditional i && x.un.blocks i) = true then .inl .stop else .inl (.control pc len i x.pos x.used)
    else scanWords w j pc len r { next with hold := x.hold || holdsLoads i, holdBx := x.holdBx || beamWord i }
/-- The scan of the path of slice `j`, a bundle at a time. (DEDUCED, log entry 22.) -/
def State.scanAhead (s : State) (k : Nat) (w : Warp) (j : Nat) : Nat → Scanning → Ahead
  | 0, _ => .stop
  | fuel + 1, x =>
    match s.fetchWords k (s.ctxNo w) x.pc with
    | .inl _ => .stop
    | .inr ws =>
      match cutBundle false ws with
      | .words ws len =>
        match checkWords s w ws with
        | .inl _ => .stop
        | .inr is_ =>
          let order := is_.filter loadMarked ++ is_.filter (fun i => !loadMarked i && !controlWord i) ++ is_.filter controlWord
          match scanWords w j x.pc len order x with
          | .inl a => a
          | .inr y => if aheadLimit ≤ y.pos then .stop else s.scanAhead k w j fuel y
      | _ => .stop
/-- Is a wait one of R251's holds? -/
def Wait.holds : Wait → Bool
  | .bar .. | .take _ | .waitb _ | .fence true .. => true
  | _ => false
/-- What the access slice of slice `j` meets next. (DEDUCED, log entry 22.) -/
def State.piccoloNext (s : State) (k : Nat) (w : Warp) (j : Nat) : Ahead :=
  match w.slice? j with
  | none => .stop
  | some x =>
    if x.retired || x.leaving then .stop
    else
      s.scanAhead k w j aheadLimit
        { pc := if x.waiting then x.resume else x.pc, pos := 0, lead := w.picc.lead j
          outs := (w.picc.outcomes.filter fun o => o.1 == j).map (·.2)
          passed := (w.picc.passed.filter fun e => e.2.getLsbD j).map (·.1), used := [], un := w.unlanded
          hold := x.waits.any Wait.holds || w.pending.any (fun p => p.op.acquires), holdBx := false }
/-- What the access slices of a warp meet, by slice: nothing while a fault is held or the team is halted. -/
def State.piccoloAll (s : State) (k : Nat) (w : Warp) : List (Nat × Ahead) :=
  if !s.sliced w || s.frozen w || w.picc.held.isSome then [] else (maskSlices w.alive).map fun j => (j, s.piccoloNext k w j)

/-! ### The events -/

/-- The access slice of slice `j` goes past the word at place `pos` of the bundle at `pc`; the performed loads before it are passed. -/
def Piccolo.goPast (x : Piccolo) (j : Nat) (pc : DWord) (pos : Nat) (used : List DWord) : Piccolo :=
  { x with
    at_ := x.at_.map fun e => if e.1 = j then (j, pc, pos + 1) else e
    passed := used.foldl (fun ps p => dropPassed (BitVec.ofNat 16 (2 ^ j)) p ps) x.passed }
/-- The slices whose access slices meet the load of a bundle, with the places and what they pass. -/
def atLoad (pc : DWord) (rs : List (Nat × Ahead)) : List (Nat × Nat × List DWord) :=
  rs.filterMap fun r => match r.2 with
    | .load p _ pos used => if p = pc then some (r.1, pos, used) else none
    | _ => none
/-- The first load that an access slice meets. -/
def firstLoad (rs : List (Nat × Ahead)) : Option (DWord × Instr) :=
  rs.findSome? fun r => match r.2 with
    | .load pc i _ _ => some (pc, i)
    | _ => none
/-- A load is performed for every lane: the slices whose access slices stand at it are past it, and the others have still to pass it. -/
def Piccolo.loaded (x : Piccolo) (alive : BitVec 16) (pc : DWord) (at_ : List (Nat × Nat × List DWord)) : Piccolo :=
  (at_.foldl (fun x a => x.goPast a.1 pc a.2.1 a.2.2) x).performed alive (at_.foldl (fun m a => m ||| BitVec.ofNat 16 (2 ^ a.1)) 0) pc
/-- R250, R251: the first A-marked load that an access slice meets is performed ahead, once for every lane of the warp, or the fault that its
probe finds is held. -/
def execPiccoloLoadIssue (core slot : Nat) (s : State) : Out :=
  .next (match s.warp? core slot with
    | none => s
    | some w =>
      let rs := s.piccoloAll core w
      match firstLoad rs with
      | none => s
      | some (pc, i) =>
        match probeTrap s core slot w.alive pc w i with
        | some t => if t.waits then s else s.modWarp core slot fun v => { v with picc := { v.picc with held := some (pc, t) } }
        | none =>
          match s.queueLoad core slot w i with
          | some s => s.modWarp core slot fun v => { v with picc := v.picc.loaded v.alive pc (atLoad pc rs) }
          | none => s.askQueue core slot w i)
/-- Does slice `j` take a control word? Only a conditional branch may not. -/
def takesControl (w : Warp) (j : Nat) : Instr → Bool
  | .bra _ p neg _ => takesBranch w p neg j
  | _ => true
/-- The outcome of a control word for the slice whose access slice stands at it. -/
def Piccolo.evaluated (w : Warp) (x : Piccolo) (r : Nat × Ahead) : Piccolo :=
  match r.2 with
  | .control pc _ i pos used => { x.goPast r.1 pc pos used with outcomes := x.outcomes ++ [(r.1, takesControl w r.1 i)] }
  | _ => x
/-- R276: the control words that the access slices stand at are evaluated, and each slice's outcome is recorded. -/
def execPiccoloBranchEval (core slot : Nat) (s : State) : Out :=
  .next (match s.warp? core slot with
    | none => s
    | some w =>
      let rs := s.piccoloAll core w
      let free := 256 - w.picc.outcomes.length
      let met := (rs.filter fun r => match r.2 with
        | .control .. => true
        | _ => false).take free
      if met.isEmpty then s else s.modWarp core slot fun v => { v with picc := met.foldl (Piccolo.evaluated w) v.picc })
/-- The first outcome of each slice of a mask is used up. -/
def dropOutcomes (m : BitVec 16) (os : List (Nat × Bool)) : List (Nat × Bool) :=
  (maskSlices m).foldl (fun os j => match os.find? fun o => o.1 == j with
    | some o => os.erase o
    | none => os) os
/-- The execute slice of a gang has issued a bundle of `n` words: its access slices are ahead by so many less. -/
def Piccolo.issued (x : Piccolo) (alive m : BitVec 16) (n : Nat) (control : Bool) : Piccolo :=
  let done := (maskSlices m).filter fun j => decide (n ≤ x.lead j)
  let at_ := x.at_.map fun e => if m.getLsbD e.1 then (e.1, e.2.1, e.2.2 - n) else e
  { x with
    at_ := at_
    outcomes := if control then dropOutcomes (done.foldl (fun m j => m ||| BitVec.ofNat 16 (2 ^ j)) 0) x.outcomes else x.outcomes
    passed := if m = alive ∧ at_.all (fun e => e.2.2 == 0) = true then [] else x.passed }

end Sys2Proof.Machine
end

