-- ==== Sys2Proof/Machine/Recorder.lean ====
section
/-! DEFINITION. The Recorder words (R234 to R239): their results are fixed at issue and land later. -/

namespace Sys2Proof.Machine
open Sys2Proof

/-- The row of a word: the acting lanes' values as FP32, ascending, the low half before the high half for .bf16 (R234,
R138). -/
def recRow (w : Warp) (bf : Bool) (a : VReg) (lanes : List Nat) : List Nat :=
  lanes.flatMap fun l =>
    let x := (w.vget a.toNat l).toNat
    if bf then [x % 2 ^ 16 * 2 ^ 16, x / 2 ^ 16 * 2 ^ 16] else [x]
/-- A Recorder word: in the acting lanes it writes the results that `f` gives for the word's row; a word that acts in no lane
does nothing (R234). -/
def recWord (i : Instr) (g : Guard) (d : VReg) (la : BitVec 4) (n : Nat) (s : State)
    (f : Warp → List Nat → Nat → List Nat) : Out :=
  word i s fun w s =>
    let lanes := w.actLanes s.cur.slices g
    if lanes.isEmpty then s
    else
      s.addPending (destsV d.toNat n) la.toNat lanes
        (.values (lanes.flatMap fun l => groupValues (destsV d.toNat n) l ((f w lanes l).map (BitVec.ofNat 32))))
/-- R235, R139. -/
def execRmax (g : Guard) (bf : Bool) (d a : VReg) (la : BitVec 4) (s : State) : Out :=
  recWord (.rmax g bf d a la) g d la 1 s fun w lanes _ => [recMax (recRow w bf a lanes)]
/-- R235, R139. -/
def execRsum (g : Guard) (bf : Bool) (d a : VReg) (la : BitVec 4) (s : State) : Out :=
  recWord (.rsum g bf d a la) g d la 1 s fun w lanes _ => [recSum (recRow w bf a lanes)]
/-- R235, R140: the incoming pair is that of the lowest acting lane. -/
def execRsumexp (g : Guard) (bf : Bool) (d a : VReg) (la : BitVec 4) (s : State) : Out :=
  recWord (.rsumexp g bf d a la) g d la 2 s fun w lanes _ =>
    let l0 := lanes.headD 0
    let r := recSumExp (w.vget d.toNat l0).toNat (w.vget (d.toNat + 1) l0).toNat (recRow w bf a lanes)
    [r.1, r.2]
/-- R235, R141. -/
def execRmeanvar (g : Guard) (bf : Bool) (d a : VReg) (la : BitVec 4) (s : State) : Out :=
  recWord (.rmeanvar g bf d a la) g d la 2 s fun w lanes _ =>
    let r := recMeanVar (recRow w bf a lanes)
    [r.1, r.2]
/-- R235, R142: each lane reads its own mean, variance and epsilon. -/
def execRnorm (g : Guard) (d a : VReg) (la : BitVec 4) (s : State) : Out :=
  recWord (.rnorm g d a la) g d la 1 s fun w _ l =>
    [recNorm (w.vget d.toNat l).toNat (w.vget (d.toNat + 1) l).toNat (w.vget (d.toNat + 2) l).toNat (w.vget a.toNat l).toNat]
/-- Queue a TOPK on the core; the first of the queue begins at once (R238). -/
def queueTopk (d : SReg) (la : Nat) (bf : Bool) (n c : Nat) (row : List (Nat × Nat)) (val idx : List (Nat × Nat × Bool))
    (s : State) : State :=
  let q := (s.core s.cur.core).topkQ
  let id := s.nextId
  let s := s.addPending [.s d.toNat] la [] (.topk bf n c q.isEmpty row val idx)
  s.modCore s.cur.core fun cr => { cr with topkQ := q ++ [(s.cur.slot, id)] }
/-- R237, R238: every earlier access of the warp is performed before its reads, which come later (LandOp.access); the result lands in
sd. -/
def execTopk (g : Guard) (bf : Bool) (d a : SReg) (la : BitVec 4) (s : State) : Out :=
  word (.topk g bf d a la) s fun w s =>
    if w.actsOnce s.cur.slices g then
      let t := topkDesc w a
      let e := if bf then 2 else 4
      let k := min t.k t.n
      let c := s.ctxNo w
      let s := ((s.askSpan c t.row.toNat (t.n * e) false).askSpan c t.val.toNat (k * e) true).askSpan c t.idx.toNat (4 * k) true
      queueTopk d la.toNat bf t.n k (s.runs c t.row.toNat (t.n * e)) (s.laxRuns c t.val.toNat (k * e))
        (s.laxRuns c t.idx.toNat (4 * k)) s
    else s

end Sys2Proof.Machine
end

