-- ==== Sys2Proof/Machine/Dispatch.lean ====
section
/-! DEFINITION. One arm per constructor of Instr: each calls its meaning, or is rejected by name. -/

namespace Sys2Proof.Machine
open Sys2Proof

/-- What one instruction or event does to the device. -/
def exec (i : Instr) (s : State) : Host.Outcome State Fault Refusal :=
  match i with
  | .nop g => Sys2Proof.Machine.execNop g s
  | .yield g => Sys2Proof.Machine.execYield g s
  | .sleep g n => Sys2Proof.Machine.execSleep g n s
  | .add g w d a b => Sys2Proof.Machine.execAdd g w d a b s
  | .sub g w d a b => Sys2Proof.Machine.execSub g w d a b s
  | .neg g w d a => Sys2Proof.Machine.execNeg g w d a s
  | .abs g w d a => Sys2Proof.Machine.execAbs g w d a s
  | .mul g w d a b => Sys2Proof.Machine.execMul g w d a b s
  | .mulhI g w d a b => Sys2Proof.Machine.execMulhI g w d a b s
  | .mulhN g w d a b => Sys2Proof.Machine.execMulhN g w d a b s
  | .mad g w d a b => Sys2Proof.Machine.execMad g w d a b s
  | .minI g w d a b => Sys2Proof.Machine.execMinI g w d a b s
  | .maxI g w d a b => Sys2Proof.Machine.execMaxI g w d a b s
  | .minN g w d a b => Sys2Proof.Machine.execMinN g w d a b s
  | .maxN g w d a b => Sys2Proof.Machine.execMaxN g w d a b s
  | .and g w d a b => Sys2Proof.Machine.execAnd g w d a b s
  | .or g w d a b => Sys2Proof.Machine.execOr g w d a b s
  | .xor g w d a b => Sys2Proof.Machine.execXor g w d a b s
  | .andn g w d a b => Sys2Proof.Machine.execAndn g w d a b s
  | .not g w d a => Sys2Proof.Machine.execNot g w d a s
  | .shl g w d a b => Sys2Proof.Machine.execShl g w d a b s
  | .shr g w d a b => Sys2Proof.Machine.execShr g w d a b s
  | .sha g w d a b => Sys2Proof.Machine.execSha g w d a b s
  | .rot g w d a b => Sys2Proof.Machine.execRot g w d a b s
  | .clz g w d a => Sys2Proof.Machine.execClz g w d a s
  | .popc g w d a => Sys2Proof.Machine.execPopc g w d a s
  | .brev g w d a => Sys2Proof.Machine.execBrev g w d a s
  | .bfeN g w d a b => Sys2Proof.Machine.execBfeN g w d a b s
  | .bfeI g w d a b => Sys2Proof.Machine.execBfeI g w d a b s
  | .bfi g w d a b => Sys2Proof.Machine.execBfi g w d a b s
  | .setp g c un w p a b => Sys2Proof.Machine.execSetp g c un w p a b s
  | .sel g w d a b p => Sys2Proof.Machine.execSel g w d a b p s
  | .mov g w d a => Sys2Proof.Machine.execMov g w d a s
  | .addi g d a imm => Sys2Proof.Machine.execAddi g d a imm s
  | .andi g d a imm => Sys2Proof.Machine.execAndi g d a imm s
  | .ori g d a imm => Sys2Proof.Machine.execOri g d a imm s
  | .xori g d a imm => Sys2Proof.Machine.execXori g d a imm s
  | .shli g w d a n => Sys2Proof.Machine.execShli g w d a n s
  | .shri g w d a n => Sys2Proof.Machine.execShri g w d a n s
  | .shai g w d a n => Sys2Proof.Machine.execShai g w d a n s
  | .movi g d imm => Sys2Proof.Machine.execMovi g d imm s
  | .movhi g d imm => Sys2Proof.Machine.execMovhi g d imm s
  | .lea g w d a b sh => Sys2Proof.Machine.execLea g w d a b sh s
  | .idx g d e => Sys2Proof.Machine.execIdx g d e s
  | .fadd g t d a b => Sys2Proof.Machine.execFadd g t d a b s
  | .fsub g t d a b => Sys2Proof.Machine.execFsub g t d a b s
  | .fmul g t d a b => Sys2Proof.Machine.execFmul g t d a b s
  | .ffma g t d a b => Sys2Proof.Machine.execFfma g t d a b s
  | .fma3 t d a b c => Sys2Proof.Machine.execFma3 t d a b c s
  | .fmin g t d a b => Sys2Proof.Machine.execFmin g t d a b s
  | .fmax g t d a b => Sys2Proof.Machine.execFmax g t d a b s
  | .fabs g t d a => Sys2Proof.Machine.execFabs g t d a s
  | .fneg g t d a => Sys2Proof.Machine.execFneg g t d a s
  | .fsetp g c w p a b => Sys2Proof.Machine.execFsetp g c w p a b s
  | .fclass g t d a => Sys2Proof.Machine.execFclass g t d a s
  | .frnd g rm t d a => Sys2Proof.Machine.execFrnd g rm t d a s
  | .cvt g td ts d a => Sys2Proof.Machine.execCvt g td ts d a s
  | .pack g t d a b => Sys2Proof.Machine.execPack g t d a b s
  | .exp2 g h d a => Sys2Proof.Machine.execExp2 g h d a s
  | .log2 g h d a => Sys2Proof.Machine.execLog2 g h d a s
  | .rcp g h d a => Sys2Proof.Machine.execRcp g h d a s
  | .rsqrt g h d a => Sys2Proof.Machine.execRsqrt g h d a s
  | .tanh g h d a => Sys2Proof.Machine.execTanh g h d a s
  | .logis g h d a => Sys2Proof.Machine.execLogis g h d a s
  | .dot4 g d a b => Sys2Proof.Machine.execDot4 g d a b s
  | .dot8 g d a b => Sys2Proof.Machine.execDot8 g d a b s
  | .rmax g bf d a la => Sys2Proof.Machine.execRmax g bf d a la s
  | .rsum g bf d a la => Sys2Proof.Machine.execRsum g bf d a la s
  | .rsumexp g bf d a la => Sys2Proof.Machine.execRsumexp g bf d a la s
  | .rmeanvar g bf d a la => Sys2Proof.Machine.execRmeanvar g bf d a la s
  | .rnorm g d a la => Sys2Proof.Machine.execRnorm g d a la s
  | .topk g bf d a la => Sys2Proof.Machine.execTopk g bf d a la s
  | .sadd g d a b => Sys2Proof.Machine.execSadd g d a b s
  | .ssub g d a b => Sys2Proof.Machine.execSsub g d a b s
  | .smul g d a b => Sys2Proof.Machine.execSmul g d a b s
  | .sand g d a b => Sys2Proof.Machine.execSand g d a b s
  | .sor g d a b => Sys2Proof.Machine.execSor g d a b s
  | .sxor g d a b => Sys2Proof.Machine.execSxor g d a b s
  | .sshl g d a b => Sys2Proof.Machine.execSshl g d a b s
  | .sshr g arith d a b => Sys2Proof.Machine.execSshr g arith d a b s
  | .saddi g d a imm => Sys2Proof.Machine.execSaddi g d a imm s
  | .smovi g d imm => Sys2Proof.Machine.execSmovi g d imm s
  | .slea g d a sh => Sys2Proof.Machine.execSlea g d a sh s
  | .ssetp g c p a imm => Sys2Proof.Machine.execSsetp g c p a imm s
  | .readlane g d a b => Sys2Proof.Machine.execReadlane g d a b s
  | .writelane g d a b => Sys2Proof.Machine.execWritelane g d a b s
  | .bcast g d a b => Sys2Proof.Machine.execBcast g d a b s
  | .ld acc gp sz d base off la => Sys2Proof.Machine.execLd acc gp sz d base off la s
  | .ldStrong gp acq w sc d base la => Sys2Proof.Machine.execLdStrong gp acq w sc d base la s
  | .ldBx acc gp w d base la => Sys2Proof.Machine.execLdBx acc gp w d base la s
  | .ldBfx acc gp k d base la => Sys2Proof.Machine.execLdBfx acc gp k d base la s
  | .st gp sz d base off => Sys2Proof.Machine.execSt gp sz d base off s
  | .stStrong gp rel w sc d base => Sys2Proof.Machine.execStStrong gp rel w sc d base s
  | .lds acc gp sz d base off la => Sys2Proof.Machine.execLds acc gp sz d base off la s
  | .sts gp sz d base off => Sys2Proof.Machine.execSts gp sz d base off s
  | .prefL1 acc gp base off => Sys2Proof.Machine.execPrefL1 acc gp base off s
  | .prefL2 acc gp base off => Sys2Proof.Machine.execPrefL2 acc gp base off s
  | .qpop gp w d k la => Sys2Proof.Machine.execQpop gp w d k la s
  | .fenceAcq g sc => Sys2Proof.Machine.execFenceAcq g sc s
  | .fenceRel g sc => Sys2Proof.Machine.execFenceRel g sc s
  | .fenceAr g sc => Sys2Proof.Machine.execFenceAr g sc s
  | .spfence g => Sys2Proof.Machine.execSpfence g s
  | .atom gp op ord sc d base la => Sys2Proof.Machine.execAtom gp op ord sc d base la s
  | .red gp op rel sc d base => Sys2Proof.Machine.execRed gp op rel sc d base s
  | .copy g d a b => Sys2Proof.Machine.execCopy g d a b s
  | .copy2d g d a b => Sys2Proof.Machine.execCopy2d g d a b s
  | .seal g d => Sys2Proof.Machine.execSeal g d s
  | .waitb g a => Sys2Proof.Machine.execWaitb g a s
  | .testb g d a => Sys2Proof.Machine.execTestb g d a s
  | .bitld acc g t a b => Sys2Proof.Machine.execBitld acc g t a b s
  | .bitldPitch acc g t b => Sys2Proof.Machine.execBitldPitch acc g t b s
  | .bitsw acc g t => Sys2Proof.Machine.execBitsw acc g t s
  | .trap g n => Sys2Proof.Machine.execTrap g n s
  | .brk g n => Sys2Proof.Machine.execBrk g n s
  | .chkerr clr d => Sys2Proof.Machine.execChkerr clr d s
  | .shfl g m w d a b => Sys2Proof.Machine.execShfl g m w d a b s
  | .compress g d a p => Sys2Proof.Machine.execCompress g d a p s
  | .expand g d a p => Sys2Proof.Machine.execExpand g d a p s
  | .slideup g d a b => Sys2Proof.Machine.execSlideup g d a b s
  | .slidedn g d a b => Sys2Proof.Machine.execSlidedn g d a b s
  | .voteAny g p q => Sys2Proof.Machine.execVoteAny g p q s
  | .voteAll g p q => Sys2Proof.Machine.execVoteAll g p q s
  | .voteBallot g d q => Sys2Proof.Machine.execVoteBallot g d q s
  | .reduxAdd g d a => Sys2Proof.Machine.execReduxAdd g d a s
  | .reduxMin g un d a => Sys2Proof.Machine.execReduxMin g un d a s
  | .reduxMax g un d a => Sys2Proof.Machine.execReduxMax g un d a s
  | .reduxAnd g d a => Sys2Proof.Machine.execReduxAnd g d a s
  | .reduxOr g d a => Sys2Proof.Machine.execReduxOr g d a s
  | .rdsr d n => Sys2Proof.Machine.execRdsr d n s
  | .wrsr d a n => Sys2Proof.Machine.execWrsr d a n s
  | .csave d a => Sys2Proof.Machine.execCsave d a s
  | .crestore d a => Sys2Proof.Machine.execCrestore d a s
  | .corectlStatus d a => Sys2Proof.Machine.execCorectlStatus d a s
  | .corectlDrain d a => Sys2Proof.Machine.execCorectlDrain d a s
  | .corectlAdmit d a => Sys2Proof.Machine.execCorectlAdmit d a s
  | .corectlStop d a => Sys2Proof.Machine.execCorectlStop d a s
  | .corectlResume d a => Sys2Proof.Machine.execCorectlResume d a s
  | .scan d a => Sys2Proof.Machine.execScan d a s
  | .scanrd d a => Sys2Proof.Machine.execScanrd d a s
  | .scanab a => Sys2Proof.Machine.execScanab a s
  | .cmapw d a => Sys2Proof.Machine.execCmapw d a s
  | .mgnrd d a w => Sys2Proof.Machine.execMgnrd d a w s
  | .bra acc p neg off => Sys2Proof.Machine.execBra acc p neg off s
  | .jmp acc a => Sys2Proof.Machine.execJmp acc a s
  | .call acc d a => Sys2Proof.Machine.execCall acc d a s
  | .ret acc a => Sys2Proof.Machine.execRet acc a s
  | .brx acc a => Sys2Proof.Machine.execBrx acc a s
  | .exit acc => Sys2Proof.Machine.execExit acc s
  | .regang m => Sys2Proof.Machine.execRegang m s
  | .cont g np a b => Sys2Proof.Machine.execCont g np a b s
  | .contf g => Sys2Proof.Machine.execContf g s
  | .barInit b a => Sys2Proof.Machine.execBarInit b a s
  | .barArrive b => Sys2Proof.Machine.execBarArrive b s
  | .barWait b => Sys2Proof.Machine.execBarWait b s
  | .barSync b => Sys2Proof.Machine.execBarSync b s
  | .locq g d => Sys2Proof.Machine.execLocq g d s
  | .locqAddr g d a => Sys2Proof.Machine.execLocqAddr g d a s
  | .give t byReg n => Sys2Proof.Machine.execGive t byReg n s
  | .giveSeq t => Sys2Proof.Machine.execGiveSeq t s
  | .take t => Sys2Proof.Machine.execTake t s
  | .seqgo a => Sys2Proof.Machine.execSeqgo a s
  | .setshape g a => Sys2Proof.Machine.execSetshape g a s
  | .tcfg g t => Sys2Proof.Machine.execTcfg g t s
  | .tfree g t => Sys2Proof.Machine.execTfree g t s
  | .tzero g t => Sys2Proof.Machine.execTzero g t s
  | .tadd g t d a b => Sys2Proof.Machine.execTadd g t d a b s
  | .tmul g t d a b => Sys2Proof.Machine.execTmul g t d a b s
  | .tfma g t d a b => Sys2Proof.Machine.execTfma g t d a b s
  | .tmax g t d a b => Sys2Proof.Machine.execTmax g t d a b s
  | .tmin g t d a b => Sys2Proof.Machine.execTmin g t d a b s
  | .tcvt g dst src d a => Sys2Proof.Machine.execTcvt g dst src d a s
  | .tact g logis d a => Sys2Proof.Machine.execTact g logis d a s
  | .rvmul g d a b => Sys2Proof.Machine.execRvmul g d a b s
  | .unmul g d a b => Sys2Proof.Machine.execUnmul g d a b s
  | .rvshr g d a b => Sys2Proof.Machine.execRvshr g d a b s
  | .unshr g d a b => Sys2Proof.Machine.execUnshr g d a b s
  | .rvnarBf16 g d a => Sys2Proof.Machine.execRvnarBf16 g d a s
  | .unnarBf16 g d a => Sys2Proof.Machine.execUnnarBf16 g d a s
  | .rvnarI16 g d a => Sys2Proof.Machine.execRvnarI16 g d a s
  | .unnarI16 g d a => Sys2Proof.Machine.execUnnarI16 g d a s
  | .rvadd g d a b => Sys2Proof.Machine.execRvadd g d a b s
  | .unadd g d a b => Sys2Proof.Machine.execUnadd g d a b s
  | .rvmark m => Sys2Proof.Machine.execRvmark m s
  | .unmark m => Sys2Proof.Machine.execUnmark m s
  | .rsdepth d => Sys2Proof.Machine.execRsdepth d s
  | .tld td h n => Sys2Proof.Machine.execTld td h n s
  | .tldTr td h e32 n => Sys2Proof.Machine.execTldTr td h e32 n s
  | .tst h ta n => Sys2Proof.Machine.execTst h ta n s
  | .sgather td h => Sys2Proof.Machine.execSgather td h s
  | .mma ty acc co m n td a b => Sys2Proof.Machine.execMma ty acc co m n td a b s
  | .segh cyc sig => Sys2Proof.Machine.execSegh cyc sig s
  | .sloop n => Sys2Proof.Machine.execSloop n s
  | .sloopReg k => Sys2Proof.Machine.execSloopReg k s
  | .saddr x2048 d a imm => Sys2Proof.Machine.execSaddr x2048 d a imm s
  | .swaitb n k => Sys2Proof.Machine.execSwaitb n k s
  | .sbarArrive b => Sys2Proof.Machine.execSbarArrive b s
  | .sbarSync b => Sys2Proof.Machine.execSbarSync b s
  | .seqGive t n => Sys2Proof.Machine.execSeqGive t n s
  | .seqTake t => Sys2Proof.Machine.execSeqTake t s
  | .topkStart core => Sys2Proof.Machine.execTopkStart core s
  | .qpopComplete core slot slice => Sys2Proof.Machine.execQpopComplete core slot slice s
  | .piccoloLoadIssue core slot => Sys2Proof.Machine.execPiccoloLoadIssue core slot s
  | .piccoloBranchEval core slot => Sys2Proof.Machine.execPiccoloBranchEval core slot s
  | .fenceWaitComplete core slot slice => Sys2Proof.Machine.execFenceWaitComplete core slot slice s
  | .copyBatchComplete core slot copy err => Sys2Proof.Machine.execCopyBatchComplete core slot copy err s
  | .csaveComplete core slot => Sys2Proof.Machine.execCsaveComplete core slot s
  | .crestoreComplete core slot => Sys2Proof.Machine.execCrestoreComplete core slot s
  | .scanabTakeEffect core => Sys2Proof.Machine.execScanabTakeEffect core s
  | .scanClearComplete core => Sys2Proof.Machine.execScanClearComplete core s
  | .contRecordAccept core slot slice => Sys2Proof.Machine.execContRecordAccept core slot slice s
  | .giveTransit core slot slice => Sys2Proof.Machine.execGiveTransit core slot slice s
  | .takeComplete core slot slice => Sys2Proof.Machine.execTakeComplete core slot slice s
  | .seqgoStart core slot slice => Sys2Proof.Machine.execSeqgoStart core slot slice s
  | .mmaCoRendezvous cluster => Sys2Proof.Machine.execMmaCoRendezvous cluster s
  | .swaitbComplete core => Sys2Proof.Machine.execSwaitbComplete core s
  | .seqIdle core => Sys2Proof.Machine.execSeqIdle core s
  | .longLatencyLanding core slot id => Sys2Proof.Machine.execLongLatencyLanding core slot id s
  | .sleepExpiry core slot slice => Sys2Proof.Machine.execSleepExpiry core slot slice s
  | .activeSetHoldExpiry core slot => Sys2Proof.Machine.execActiveSetHoldExpiry core slot s
  | .blockedWarpRemoval core slot => Sys2Proof.Machine.execBlockedWarpRemoval core slot s
  | .siblingSkidEnd core slot => Sys2Proof.Machine.execSiblingSkidEnd core slot s
  | .seqHaltDrainEnd core => Sys2Proof.Machine.execSeqHaltDrainEnd core s
  | .trapRecordWrite team => Sys2Proof.Machine.execTrapRecordWrite team s
  | .quarantineCarryOut core => Sys2Proof.Machine.execQuarantineCarryOut core s
  | .replayWindowStart core => Sys2Proof.Machine.execReplayWindowStart core s
  | .pipePatternTestStart core => Sys2Proof.Machine.execPipePatternTestStart core s
  | .warpRollback core slot => Sys2Proof.Machine.execWarpRollback core slot s
  | .launchRecordParse w => Sys2Proof.Machine.execLaunchRecordParse w s
  | .nodeStart w => Sys2Proof.Machine.execNodeStart w s
  | .hostTransferComplete w k err => Sys2Proof.Machine.execHostTransferComplete w k err s
  | .teamPlace grid core => Sys2Proof.Machine.execTeamPlace grid core s
  | .boundaryMoveComplete core => Sys2Proof.Machine.execBoundaryMoveComplete core s
  | .spadZeroComplete core => Sys2Proof.Machine.execSpadZeroComplete core s
  | .lightPreemptMark w => Sys2Proof.Machine.execLightPreemptMark w s
  | .preemptDeadlineExpiry w => Sys2Proof.Machine.execPreemptDeadlineExpiry w s
  | .streamResume w => Sys2Proof.Machine.execStreamResume w s
  | .towerFenced t => Sys2Proof.Machine.execTowerFenced t s
  | .towerUp t => Sys2Proof.Machine.execTowerUp t s
  | .bridgeWakeStart t b => Sys2Proof.Machine.execBridgeWakeStart t b s
  | .bridgeAwake t b => Sys2Proof.Machine.execBridgeAwake t b s
  | .towerDead t => Sys2Proof.Machine.execTowerDead t s
  | .pageGrant page => Sys2Proof.Machine.execPageGrant page s
  | .storePerformed id late => Sys2Proof.Machine.execStorePerformed id late s
  | .registerWrite off v => Sys2Proof.Machine.execRegisterWrite off v s
  | .hostCxlAccess pa wr n => Sys2Proof.Machine.execHostCxlAccess pa wr n s
  | .region => Sys2Proof.Machine.execRegion s
  | .rspill => Sys2Proof.Machine.execRspill s
  | .rsfill => Sys2Proof.Machine.execRsfill s
  | .sege => Sys2Proof.Machine.execSege s
  | .slend => Sys2Proof.Machine.execSlend s
  | .shalt => Sys2Proof.Machine.execShalt s
  | .scanPatternsEnd core sig => Sys2Proof.Machine.execScanPatternsEnd core sig s
  | .gatherOverflowReadback => Sys2Proof.Machine.execGatherOverflowReadback s
  | .seqReadDone core => Sys2Proof.Machine.execSeqReadDone core s
  | .seqWriteLanding core => Sys2Proof.Machine.execSeqWriteLanding core s
  | .shawmReplay core slot slice second => Sys2Proof.Machine.execShawmReplay core slot slice second s
  | .escalationSettled core => Sys2Proof.Machine.execEscalationSettled core s
  | .selfTestComplete core r => Sys2Proof.Machine.execSelfTestComplete core r s
  | .bankRebuilt core ua bank pass => Sys2Proof.Machine.execBankRebuilt core ua bank pass s
  | .stopWalk grid => Sys2Proof.Machine.execStopWalk grid s
  | .lwinWrite w v => Sys2Proof.Machine.execLwinWrite w v s
  | .tlbinvStart v => Sys2Proof.Machine.execTlbinvStart v s
  | .tlbinvComplete => Sys2Proof.Machine.execTlbinvComplete s
  | .tcmdResume v => Sys2Proof.Machine.execTcmdResume v s
  | .tcmdKill v => Sys2Proof.Machine.execTcmdKill v s
  | .errorRecordWrite => Sys2Proof.Machine.execErrorRecordWrite s
  | .towerQuiesce t => Sys2Proof.Machine.execTowerQuiesce t s
  | .towerRelease t => Sys2Proof.Machine.execTowerRelease t s
  | .towerReset t => Sys2Proof.Machine.execTowerReset t s
  | .linkWakeFail t b => Sys2Proof.Machine.execLinkWakeFail t b s
  | .powerOnBoot => Sys2Proof.Machine.execPowerOnBoot s
  | .attestRequest v => Sys2Proof.Machine.execAttestRequest v s
  | .attestReport => Sys2Proof.Machine.execAttestReport s
  | .mgncWrite core v => Sys2Proof.Machine.execMgncWrite core v s
  | .qcmdSpare core => Sys2Proof.Machine.execQcmdSpare core s
  | .qcmdWithdraw core => Sys2Proof.Machine.execQcmdWithdraw core s
  | .qcmdRebind core => Sys2Proof.Machine.execQcmdRebind core s
  | .qladdAdd sel => Sys2Proof.Machine.execQladdAdd sel s
  | .qladdRemove sel => Sys2Proof.Machine.execQladdRemove sel s
  | .qladdStored => Sys2Proof.Machine.execQladdStored s
  | .ckptSave dest => Sys2Proof.Machine.execCkptSave dest s
  | .ckptConsistencyPoint => Sys2Proof.Machine.execCkptConsistencyPoint s
  | .ckptCopyComplete err => Sys2Proof.Machine.execCkptCopyComplete err s
  | .ckptRestore dest => Sys2Proof.Machine.execCkptRestore dest s
  | .linkTrain k => Sys2Proof.Machine.execLinkTrain k s
  | .linkDown k => Sys2Proof.Machine.execLinkDown k s
  | .pageHandoverRequest port page => Sys2Proof.Machine.execPageHandoverRequest port page s
  | .cntfrzWrite v => Sys2Proof.Machine.execCntfrzWrite v s
  | .hostSnoop pa inv => Sys2Proof.Machine.execHostSnoop pa inv s
  | .peerRequest port page excl => Sys2Proof.Machine.execPeerRequest port page excl s
  | .bridgeSleep t b => Sys2Proof.Machine.execBridgeSleep t b s
  | .linkUp k lanes => Sys2Proof.Machine.execLinkUp k lanes s
  | .powerManagerClockChange mhz => Sys2Proof.Machine.execPowerManagerClockChange mhz s
  | .checkpointRestoreDone err => Sys2Proof.Machine.execCheckpointRestoreDone err s

end Sys2Proof.Machine
end

