-- ==== Sys2Proof/Machine/Latent.lean ====
section
/-! DEFINITION. Which word consumes an error that is latent in core state (R71, R425, Table 26.5): the places that the words of a bundle read,
and those of the sequencer's reads of a cycle. (DEDUCED, log entry 69.) -/

namespace Sys2Proof.Machine
open Sys2Proof

/-! ### What a word of a warp reads beside its registers -/

/-- The guard of a word (R176, R180). -/
def guardOf : Instr → Guard
  | .nop g | .yield g | .sleep g _ | .add g .. | .sub g .. | .neg g .. | .abs g .. | .mul g .. | .mulhI g .. | .mulhN g .. | .mad g ..
  | .minI g .. | .maxI g .. | .minN g .. | .maxN g .. | .and g .. | .or g .. | .xor g .. | .andn g .. | .not g .. | .shl g .. | .shr g ..
  | .sha g .. | .rot g .. | .clz g .. | .popc g .. | .brev g .. | .bfeN g .. | .bfeI g .. | .bfi g .. | .setp g .. | .sel g .. | .mov g ..
  | .addi g .. | .andi g .. | .ori g .. | .xori g .. | .shli g .. | .shri g .. | .shai g .. | .movi g .. | .movhi g .. | .lea g ..
  | .idx g .. => g
  | .fadd g .. | .fsub g .. | .fmul g .. | .ffma g .. | .fmin g .. | .fmax g .. | .fabs g .. | .fneg g .. | .fsetp g .. | .fclass g ..
  | .frnd g .. | .cvt g .. | .pack g .. | .exp2 g .. | .log2 g .. | .rcp g .. | .rsqrt g .. | .tanh g .. | .logis g .. | .dot4 g ..
  | .dot8 g .. | .rmax g .. | .rsum g .. | .rsumexp g .. | .rmeanvar g .. | .rnorm g .. | .topk g .. => g
  | .sadd g .. | .ssub g .. | .smul g .. | .sand g .. | .sor g .. | .sxor g .. | .sshl g .. | .sshr g .. | .saddi g .. | .smovi g ..
  | .slea g .. | .ssetp g .. | .readlane g .. | .writelane g .. | .bcast g .. => g
  | .fenceAcq g _ | .fenceRel g _ | .fenceAr g _ | .spfence g | .copy g .. | .copy2d g .. | .seal g .. | .waitb g .. | .testb g ..
  | .bitld _ g .. | .bitldPitch _ g .. | .bitsw _ g .. | .trap g _ | .brk g _ => g
  | .shfl g .. | .compress g .. | .expand g .. | .slideup g .. | .slidedn g .. | .voteAny g .. | .voteAll g .. | .voteBallot g ..
  | .reduxAdd g .. | .reduxMin g .. | .reduxMax g .. | .reduxAnd g .. | .reduxOr g .. | .cont g .. | .contf g | .locq g .. | .locqAddr g .. => g
  | .setshape g _ | .tcfg g _ | .tfree g _ | .tzero g _ | .tadd g .. | .tmul g .. | .tfma g .. | .tmax g .. | .tmin g .. | .tcvt g ..
  | .tact g .. => g
  | .rvmul g .. | .unmul g .. | .rvshr g .. | .unshr g .. | .rvnarBf16 g .. | .unnarBf16 g .. | .rvnarI16 g .. | .unnarI16 g ..
  | .rvadd g .. | .unadd g .. => g
  | .ld _ p .. | .ldStrong p .. | .ldBx _ p .. | .ldBfx _ p .. | .st p .. | .stStrong p .. | .lds _ p .. | .sts p .. | .prefL1 _ p ..
  | .prefL2 _ p .. | .qpop p .. | .atom p .. | .red p .. => ⟨false, p⟩
  | _ => .none
/-- Predicates that a word reads: its guard's, and those it names as sources. p7 is no storage (R49). -/
def predsRead (i : Instr) : List Nat :=
  (((guardOf i).p :: match i with
    | .sel _ _ _ _ _ p | .compress _ _ _ p | .expand _ _ _ p | .voteAny _ _ p | .voteAll _ _ p | .voteBallot _ _ p | .bra _ p .. => [p]
    | _ => []).map (·.toNat)).filter (· != 7)
/-- Operand queues that a word reads. -/
def queuesRead : Instr → List Nat
  | .qpop _ _ _ k _ => [k.toNat]
  | _ => []
/-- Does a word compute under the rounding and subnormal controls of MODE (R52)? -/
def usesMode : Instr → Bool
  | .fadd .. | .fsub .. | .fmul .. | .ffma .. | .fma3 .. | .fmin .. | .fmax .. | .fsetp .. | .frnd .. | .cvt .. | .pack .. | .exp2 .. | .log2 ..
  | .rcp .. | .rsqrt .. | .tanh .. | .logis .. | .dot4 .. | .dot8 .. | .rmax .. | .rsum .. | .rsumexp .. | .rmeanvar .. | .rnorm .. | .topk ..
  | .tadd .. | .tmul .. | .tfma .. | .tmax .. | .tmin .. | .tcvt .. | .tact .. => true
  | _ => false
/-- Special registers that a word reads, by number. -/
def specialsRead (w : Warp) (i : Instr) : List Nat :=
  (if usesMode i then [0] else []) ++ (if (tileUse w.shape i).isSome then [2] else []) ++ (if (chunkOf w i).isSome then [4, 5] else []) ++
    patternOf i ++ match i with
    | .rdsr _ n => [n.num]
    | .dot4 .. | .dot8 .. => [1]
    | _ => []
/-- The lanes in which a word reads its vector registers: those in which it acts, the lane that a scalar names, or of a shuffle every
lane (R265 to R268). -/
def lanesRead (w : Warp) (m : BitVec 16) (i : Instr) : List Nat :=
  match i with
  | .readlane _ _ _ b | .bcast _ _ _ b => [(w.sget b).toNat % w.width]
  | .shfl .. | .compress .. | .expand .. | .slideup .. | .slidedn .. => List.range w.width
  | .brx .. => (maskSlices m).map (sliceLane w)
  | i => w.actLanes m (guardOf i)
/-- The pool tile words that a word reads, by key (R57, R67). -/
def poolWordsRead (h : Nat) (w : Warp) (m : BitVec 16) (i : Instr) : List Nat :=
  match tileUse w.shape i with
  | none => []
  | some u =>
    let bits := eszBits (shapeEsz w.shape)
    u.srcs.flatMap fun g => (handledRows w m (guardOf i)).flatMap fun r => (rowPlaces bits (shapeCols w.shape) r).map fun p =>
      1024 * (64 * h + g.1 + p.1) + 32 * (r % 32) + p.2
/-- Does a word read tile owner fields (R63)? -/
def readsOwners (shape : DWord) (i : Instr) : Bool :=
  (tileUse shape i).isSome || match i with
    | .give .. | .giveSeq _ | .take _ | .tcfg .. | .tfree .. => true
    | _ => false
/-- Does a word act on a named barrier? -/
def readsBarrier : Instr → Bool
  | .barInit .. | .barArrive _ | .barWait _ | .barSync _ => true
  | _ => false
/-- Does a word of a gang read the place of an error latent in its own core? -/
def readsLatent (h : Nat) (w : Warp) (slot : Nat) (m : BitVec 16) (l : Latent) (i : Instr) : Bool :=
  match l.unit with
  | 0 => l.slot == slot && (usesOf i).vr.contains (l.place / 64) && (lanesRead w m i).contains (l.place % 64)
  | 1 =>
    l.slot == slot && ((usesOf i).sr ++ (predsRead i).map (64 + ·) ++ (queuesRead i).map (72 + ·) ++
      (specialsRead w i).map (88 + ·)).contains l.place
  | 3 => l.slot == w.team && (poolWordsRead h w m i).contains l.place
  | 5 => l.place == 2 || (l.place == 0 && readsOwners w.shape i) || (l.place == 1 && readsBarrier i)
  | _ => false
/-- Scratchpad ranges that a word reads as a load (Table 26.5). -/
def spadRead (s : State) (k slot : Nat) (w : Warp) (m : BitVec 16) (i : Instr) : List (Nat × Nat) :=
  match i with
  | .lds .. =>
    match loadFetch s k slot (s.ctxNo w) w m i with
    | some (_, _, _, _, f) => f.access.ranges
    | none => []
  | _ => []
/-- The first error latent in a scratchpad word that one of some ranges meets, with its core. -/
def State.latentSpad (s : State) (rs : List (Nat × Nat)) : Option (Nat × Latent) :=
  s.cores.findSome? fun x =>
    (x.2.latent.find? fun l => l.unit == 2 && rangesMeet [(spadLoc x.1 l.place, 4)] rs).map fun l => (x.1, l)
/-- The first latent error that a bundle of a gang consumes, with the core that holds it. -/
def State.latentFor (s : State) (k slot : Nat) (w : Warp) (m : BitVec 16) (is_ : List Instr) : Option (Nat × Latent) :=
  let h := match s.team? w.team with
    | some tm => tm.halfOf k
    | none => 0
  match (s.core k).latent.find? fun l => is_.any (readsLatent h w slot m l) with
  | some l => some (k, l)
  | none => s.latentSpad (is_.flatMap (spadRead s k slot w m))
/-- The error in the halt logic that a trap consumes. -/
def State.latentHalt (s : State) (k : Nat) : Option Latent := (s.core k).latent.find? fun l => l.unit == 5 && l.place == 3

/-! ### What the sequencer reads -/

/-- The shared core state that a bundle of the sequencer reads: tile owner fields and barriers. -/
def seqShared (l : Latent) (i : Instr) : Bool :=
  l.unit == 5 && match i with
    | .sbarArrive _ | .sbarSync _ => l.place == 1
    | i => l.place == 0 && !((seqTiles i).1 ++ (seqTiles i).2).isEmpty
/-- The error in shared core state that a bundle of the sequencer consumes. -/
def State.latentShared (s : State) (k : Nat) (is_ : List Instr) : Option Latent := (s.core k).latent.find? fun l => is_.any (seqShared l)
/-- The tile words that an operation reads `q` cycles after its issue, by key. -/
def tileWordsRead (h : Nat) (op : SeqOp) (q : Nat) : List Nat :=
  let key (t r c : Nat) : Nat := 1024 * (64 * h + t) + 32 * r + c
  let row (t0 bits cols r : Nat) : List Nat := (rowPlaces bits cols r).map fun p => key (t0 + p.1) (r % 32) p.2
  match op.kind with
  | .tst ta _ _ _ => (List.range 32).map fun c => key (ta + q / 32) (q % 32) c
  | .mma ty acc m n td a b .. =>
    let rows := (List.range m).filter fun i => i * mmaI ty m n / m == q
    (match a with
      | some t => rows.flatMap fun r => row t (mmaBits ty) (mmaK ty) r
      | none => []) ++
    (match b with
      | some t => if q = 0 then (List.range (mmaK ty)).flatMap fun r => row t (mmaBits ty) n r else []
      | none => []) ++
    (if acc then rows.flatMap fun r => row td (mmaAccBits ty) n r else [])
  | _ => []
/-- The operations whose reads are due at the sequencer's cycle. -/
def Seq.dueOps (q : Seq) : List SeqOp := q.ops.filter fun op => decide (op.done < readSpan op.kind) && decide (op.c + op.done ≤ q.cycle)
/-- The latent error that the sequencer's reads of its cycle consume, with the bundle of the operation that reads it and the core that
holds it. -/
def State.latentSeq (s : State) (k : Nat) : Option (DWord × Nat × Latent) :=
  match s.seqTeam k with
  | none => none
  | some (tid, tm) =>
    let q := (s.core k).seq
    q.dueOps.findSome? fun op =>
      let words := tileWordsRead q.half op op.done
      match (s.core k).latent.find? fun l => l.unit == 3 && l.slot == tid && words.contains l.place with
      | some l => some (op.pc, k, l)
      | none => (s.latentSpad ((s.readLocs k tm.grid op op.done).map fun a => (a, 1))).map fun x => (op.pc, x)

/-! ### Errors in words that are written -/

/-- Does a bundle write the register that holds a latent error, before anything has read it? -/
def writesLatent (w : Warp) (slot : Nat) (m : BitVec 16) (is_ : List Instr) (l : Latent) : Bool :=
  l.slot == slot && is_.any fun i =>
    let u := usesOf i
    match l.unit with
    | 0 => u.vw.contains (l.place / 64) && (w.actLanes m (guardOf i)).contains (l.place % 64)
    | 1 => w.actsOnce m (guardOf i) && (u.sw ++ u.xw.map (88 + ·)).contains l.place
    | _ => false
/-- A bundle's writes leave no error behind them in the registers of its gang. -/
def Core.overwrite (c : Core) (w : Warp) (slot : Nat) (m : BitVec 16) (is_ : List Instr) : Core :=
  { c with latent := c.latent.filter fun l => !writesLatent w slot m is_ l }
/-- The contents of a place, where it is storage: what a write of it changes. -/
def State.latentPlace (s : State) (k : Nat) (l : Latent) : Option (DWord × Nat × Nat) :=
  let of (f : Warp → DWord) : Option (DWord × Nat × Nat) := (s.warp? k l.slot).map fun w => (f w, w.team, w.num)
  match l.unit with
  | 0 => of fun w => (sget 0 w.v l.place).zeroExtend 64
  | 1 => of fun w => if l.place < 64 then sget 0 w.s l.place else if l.place < 72 then sget 0 w.p (l.place - 64) else 0
  | 2 => some (ofBytes (s.bytes (spadLoc k l.place) 4), 0, 0)
  | 3 => (s.team? l.slot).map fun tm => ((sget 0 tm.words l.place).zeroExtend 64, 0, 0)
  | _ => some (0, 0, 0)
/-- What a move has written, or taken away, holds no error any more (R425). -/
def State.dropLatent (s t : State) : State :=
  if t.cores.all fun x => x.2.latent.isEmpty then t
  else
    { t with cores := t.cores.map fun x =>
        (x.1, { x.2 with latent := x.2.latent.filter fun l =>
          !(s.core x.1).latent.contains l || (s.latentPlace x.1 l == t.latentPlace x.1 l && (t.latentPlace x.1 l).isSome) }) }

end Sys2Proof.Machine
end

