-- ==== Sys2Proof/Machine/Issue.lean ====
section
/-! DEFINITION. Issue: a gang's next bundle (R34, R182, R187, R191, R192) and one sequencer cycle (R307, R308, R321), over the meaning
`ex` of a word. A bundle is decided on as a whole; then its words run, and its end is noted. -/

namespace Sys2Proof.Machine
open Sys2Proof

/-- What becomes of an issue: nothing, a step without the bundle's words (a stall, a trap, an error consumed), or the words to
run. -/
inductive Issuing where
  | stay (s : State)
  | run (is_ : List Instr) (s : State)
  deriving DecidableEq, Repr

/-- The words of a bundle run, each over what the one before it left. Where a word has ended the warp itself, the rest have no actor. -/
def runWords (ex : Instr → State → Out) : List Instr → State → Out
  | [], s => .next s
  | i :: r, s =>
    match ex i s with
    | .next s' => runWords ex r s'
    | .fault _ => .next s
    | .refused x => .refused x

/-! ### The warp stream -/

/-- The cursor of a gang's bundle. -/
def gangCursor (core slot : Nat) (m : BitVec 16) (pc : DWord) (len : Nat) : Cursor := ⟨core, slot, m, pc, len, false, false, false⟩
/-- The repeat that a warp of a core has to issue (R448). -/
def State.replayOf (s : State) (k slot : Nat) : Option Replay := (s.core k).replays.find? fun r => r.slot == slot
/-- The warp as a gang's issue reads it: a repeat reads what its first attempt read (R448). -/
def State.readsAs (s : State) (k slot : Nat) (m : BitVec 16) (w : Warp) : Warp :=
  match s.replayOf k slot with
  | some r => if r.slices = m then { w with v := r.v, s := r.s, p := r.p } else w
  | none => w
/-- May a gang of a core's slot issue (R33, R426, R447, R448, R450)? A repeat comes before any other issue of its warp. -/
def State.slotOpen (s : State) (k slot : Nat) (w : Warp) (m : BitVec 16) : Bool :=
  let c := s.core k
  w.inSet && s.mayIssue w && !(c.rollback.any fun x => x.1 == slot) && !c.mgn.settling && c.mgn.testing.isNone &&
    match s.replayOf k slot with
    | some r => r.slices == m && decide (r.till ≤ s.coreNow)
    | none => true
/-- A gang's issue is over, and no repeat of it is left. -/
def State.dropReplay (s : State) (k slot : Nat) (m : BitVec 16) : State :=
  if (s.core k).replays.isEmpty then s
  else s.modCore k fun c => { c with replays := c.replays.filter fun r => !(r.slot == slot && r.slices == m) }
/-- An error in the halt logic is consumed by a trap (Table 26.5). -/
def State.haltRead (s : State) (k slot : Nat) (sq : Bool) (pc : DWord) : State :=
  match s.latentHalt k with
  | some l => s.consumeUe k k l sq slot pc
  | none => s
/-- A bundle takes a trap; where its probe waits, the device asks for what it waits for, and nothing else happens. -/
def State.trapBundle (s : State) (cur : Cursor) (t : Trap) (i : Option Instr) : State :=
  let s := { s with cur := cur }
  if t.waits then s
  else
    ((takeTrap t (match i with
      | some i => trapSide i s
      | none => s)).dropReplay cur.core cur.slot cur.slices).haltRead cur.core cur.slot false cur.pc
/-- Does a REGANG of a bundle complete, with a result of its slices still in flight that cannot land (R188)? -/
def regangHeld (s : State) (k slot : Nat) (w : Warp) (m : BitVec 16) (pc : DWord) : Instr → Bool
  | .regang mask => regangComplete w m mask pc && w.pending.any fun p => (p.slices &&& mask) != 0 && !s.landReady k slot w p
  | _ => false
/-- Does memory hold back the release that a word makes as it issues (Table 4.5), or a COPY's stores on their way to its engine
(R115)? -/
def State.releaseHeld (s : State) (k slot : Nat) (w : Warp) (m : BitVec 16) : Instr → Bool
  | .barArrive _ | .barSync _ => ((s.performAll k slot (BitVec.allOnes 64)).released k slot (s.barScopeOf w.team)).isNone
  | .cont g .. =>
    !(w.actLanes m g).isEmpty && ((s.performAll k slot (laneMask (w.actLanes m g))).released k slot .dev).isNone
  | .copy g .. | .copy2d g .. => ((s.performAll k slot (laneMask (w.actLanes m g))).onCore k slot (laneMask (w.actLanes m g))).isNone
  | _ => false
/-- Does a word wait for an access of its own that must be performed as it issues: a fill of the stack, a reduction in the core's own copy,
a walk of LOCQ, or an earlier result that CHKERR waits for (R334)? -/
def State.readHeld (s : State) (k slot : Nat) (w : Warp) (m : BitVec 16) (i : Instr) : Bool :=
  !redReady s w i || (match chunkOf w i with
    | some (ch, true) => (s.runs (s.ctxNo w) (chunkAddr w ch) (chunkSize w)).any fun x => s.blocked k x.1 false
    | _ => false) ||
  match i with
  | .locqAddr g _ a => (w.actLanes m g).any fun l => match s.translate (s.ctxNo w) (w.vpair a.toNat l) with
    | .bad kind _ => kind == walkWaits
    | .ok _ => false
  | .chkerr .. => !s.allReady k slot w
  | _ => false
/-- Does a word keep its bundle from issuing: a full batch (R261), a queue without room (R50), what must be performed or land before it and
cannot yet, or a TCFG of a tile that a higher slot has just configured (R66)? -/
def State.wordStalls (s : State) (k slot : Nat) (w : Warp) (m : BitVec 16) (pc : DWord) (i : Instr) : Bool :=
  copyWaits w m i || s.queueStalls k slot w m pc i || regangHeld s k slot w m pc i ||
    !s.partsReady k slot (w.partsFor (accessOf s w i)) || s.readHeld k slot w m i || s.releaseHeld k slot w m i ||
    match i with
    | .tcfg g t => w.actsOnce m g && tcfgLate s k slot w t.toNat
    | _ => false
/-- The device asks for the pages that a word needs before it can issue. -/
def State.askWord (s : State) (k slot : Nat) (w : Warp) (i : Instr) : State :=
  if loadMarked i then s.askQueue k slot w i
  else
    match chunkOf w i with
    | some (ch, load) => s.askSpan (s.ctxNo w) (chunkAddr w ch) (chunkSize w) (!load)
    | none =>
      match i with
      | .red gp _ _ _ d base => s.askAll true (atomAccess s w gp d base)
      | _ => s
/-- Words of the CT class run last, as their effect is on where the gang goes on; loads run first, as reads precede writes (R84,
R182). -/
def runOrder (is_ : List Instr) : List Instr :=
  let first (i : Instr) : Bool := loadMarked i || (match i with
    | .ld .. | .ldStrong .. | .ldBx .. | .ldBfx .. | .lds .. | .qpop .. => true
    | _ => false)
  let last (i : Instr) : Bool := controlWord i || (match i with
    | .region | .regang _ | .barInit .. | .barArrive _ | .barWait _ | .barSync _ | .cont .. | .contf _ | .sleep .. | .yield _ => true
    | _ => false)
  is_.filter first ++ is_.filter (fun i => !first i && !last i) ++ is_.filter last
/-- The warp as its bundle issues: its counts go on. -/
def Warp.issued (w : Warp) (m : BitVec 16) (is_ : List Instr) (now : Nat) : Warp :=
  { w.modSlices m (fun x => { x with count := x.count + countedIn is_ }) with started := true, lastIssue := now }
/-- The state in which a bundle's words run. -/
def State.openBundle (s : State) (cur : Cursor) (is_ : List Instr) : State :=
  let s := match s.warp? cur.core cur.slot with
    | some w => if (s.core cur.core).latent.isEmpty then s else s.modCore cur.core fun c => c.overwrite w cur.slot cur.slices is_
    | none => s
  let s := s.modWarp cur.core cur.slot fun w => w.issued cur.slices is_ s.coreNow
  { s with
    cur := { cur with checked := true }
    view := (s.warp? cur.core cur.slot).map (s.readsAs cur.core cur.slot cur.slices) }
/-- A bundle that has passed its decode checks: what must land lands, then the issue checks, an error it consumes, and stalls.
(DEDUCED, log entry 32.) -/
def State.checkBundle (s : State) (cur : Cursor) (ws : List (Byte × Word)) (is_ : List Instr) : Issuing :=
  match s.warp? cur.core cur.slot with
  | none => .stay s
  | some w =>
    if !classesOk false ws || doubleWrite w.shape is_ then .stay (s.trapBundle cur { cause := .illEncoding } none)
    else if bundleHazard w cur.slices 0 is_ then .stay (s.trapBundle cur { cause := .laHazard } none)
    else
      let due := landsFirst w cur.slices (countedIn is_)
      if (w.pending.any fun p => due p && !s.landReady cur.core cur.slot w p) then .stay s
      else
        let s := s.landSome cur.core cur.slot due
        match (s.warp? cur.core cur.slot).map (s.readsAs cur.core cur.slot cur.slices) with
        | none => .stay s
        | some w =>
          match bundleTrap s cur.core cur.slot cur.slices cur.pc w ws is_ with
          | some (t, i) => .stay (s.trapBundle cur t i)
          | none =>
            match s.latentFor cur.core cur.slot w cur.slices is_ with
            | some (at_, l) => .stay (s.consumeUe cur.core at_ l false cur.slot cur.pc)
            | none =>
              let c := { s with cur := cur }
              if is_.any (c.wordStalls cur.core cur.slot w cur.slices cur.pc) then
                .stay (is_.foldl (fun s i => s.askWord cur.core cur.slot w i) c)
              else .run (runOrder is_) (s.openBundle cur is_)
/-- The next bundle of the gang of a slice. (DEDUCED, log entry 32.) -/
def State.nextBundle (s : State) (core slot slice : Nat) : Issuing :=
  match s.warp? core slot with
  | none => .stay s
  | some w =>
    match w.slice? slice with
    | none => .stay s
    | some x =>
      let m := w.gangMask x.gang
      if x.retired || !w.gangGoes x.gang || !s.slotOpen core slot w m then .stay s
      else
        match s.fetchBundle core w x.pc with
        | .inl (t, len) =>
          .stay ((if t.waits then s.askSpan (s.ctxNo w) x.pc.toNat 32 false else s).trapBundle (gangCursor core slot m x.pc len) t none)
        | .inr (ws, is_, len) => s.checkBundle (gangCursor core slot m x.pc len) ws is_
/-- One more bundle of skid, and the last stops the warp (R45). -/
def Warp.skids (w : Warp) : Warp := { w with skid := w.skid + 1, stopped := w.stopped || decide (16 ≤ w.skid + 1) }
/-- Is the team of a warp halted? -/
def State.inHalt (s : State) (w : Warp) : Bool :=
  match s.team? w.team with
  | some tm => tm.halted
  | none => false
/-- The access slices of a gang's slices after a bundle that its warp has issued: they are ahead by its words less, and its control word's
outcome is used up (R251, R276). -/
def State.passAccess (s : State) (is_ : List Instr) : State :=
  s.modLive fun w =>
    { w with picc := w.picc.issued ((s.view.getD w).alive) s.cur.slices is_.length (is_.any controlWord) }
/-- The end of a bundle: the gang goes on after it, unless a word has said where. -/
def State.closeBundle (s : State) (is_ : List Instr) : State :=
  let s := if s.cur.moved then s else s.modLive fun w => w.modSlices s.cur.slices (Slice.goTo s.nextPc)
  let s := s.passAccess is_
  let s := s.modLive fun w => if s.inHalt w && !w.stopped then w.skids else w
  let s := s.modMgn s.cur.core (Margin.completeRun s.cur.pc false s.cur.slot s.cur.slices.toNat)
  { s.dropReplay s.cur.core s.cur.slot s.cur.slices with view := none }
/-- The bundle of a gang issues (R34). -/
def issueGang (ex : Instr → State → Out) (core slot slice : Nat) (s : State) : Out :=
  match (s.refillSet core).nextBundle core slot slice with
  | .stay s' => .next s'
  | .run is_ s' =>
    match runWords ex is_ s' with
    | .next t => .next (t.closeBundle is_)
    | o => o

/-! ### The sequencer stream -/

/-- Does a word of the sequencer issue settled (R329)? -/
def seqSettled : Instr → Bool
  | .seqGive .. | .seqTake _ | .sbarArrive _ | .sbarSync _ | .sege | .shalt => true
  | _ => false
/-- The slot number that stands for a core's sequencer. -/
def seqSlotNo : Nat := 32
/-- The cursor of a sequencer's bundle. -/
def seqCursor (core : Nat) (pc : DWord) (len : Nat) : Cursor := ⟨core, seqSlotNo, 0, pc, len, true, false, true⟩
/-- The decode checks of one word of a sequencer (R192, R471). -/
def checkSeqWord (s : State) (k tid : Nat) (tm : Team) (q : Seq) (x : Byte × Word) : Trap ⊕ Instr :=
  match decodeWord true x.1 x.2 with
  | .bad .stream => .inl { cause := .illStream }
  | .bad .instr => .inl { cause := .illInstr }
  | .bad .encoding => .inl { cause := .illEncoding }
  | .ok i =>
    match seqDecodeTrap s k tid tm q i with
    | some t => .inl t
    | none => .inr i
/-- The instructions of a sequencer bundle, or the trap of the first word that fails. -/
def checkSeqWords (s : State) (k tid : Nat) (tm : Team) (q : Seq) : List (Byte × Word) → Trap ⊕ List Instr
  | [] => .inr []
  | x :: r =>
    match checkSeqWord s k tid tm q x with
    | .inl t => .inl t
    | .inr i =>
      match checkSeqWords s k tid tm q r with
      | .inl t => .inl t
      | .inr is_ => .inr (i :: is_)
/-- Tiles that a word of the sequencer writes (R182), with those that a GIVE or TAKE hands on. (DESIGN CHOICE, log entry 77.) -/
def seqTilesWritten : Instr → List Nat
  | .tld td _ n | .tldTr td _ _ n => tileRange td.toNat (n.toNat + 1)
  | .sgather td _ => [td.toNat]
  | .mma ty _ _ m n td _ _ => tileRange td.toNat (mmaTiles ty (mmaDim ty m) (mmaDim ty n)).2.2
  | .seqGive t _ | .seqTake t => [t.toNat]
  | _ => []
/-- Do two words of a sequencer bundle write one tile? -/
def seqDoubleWrite : List Instr → Bool
  | [] => false
  | i :: r => (r.any fun j => meets (seqTilesWritten i) (seqTilesWritten j)) || seqDoubleWrite r
/-- A fetched bundle of the sequencer: the words as they stand, the instructions, and its length in words. -/
abbrev SeqBundle := List Word × List Instr × Nat
/-- Words that R306 counts in the classes of a sequencer bundle; a word of another major is illegal-stream. -/
def seqClassed (ws : List (Byte × Word)) : List (Byte × Word) := ws.filter fun x => seqMajor (wordOp x.2) || wordOp x.2 == 0
/-- The sequencer's next bundle after fetch and the decode checks, or its trap: R306's limits come before the words (R192, R471). -/
def State.fetchSeq (s : State) (k tid : Nat) (tm : Team) (q : Seq) : Trap ⊕ SeqBundle :=
  match s.fetchWords k (s.teamCtx tm) q.pc with
  | .inl t => .inl t
  | .inr raw =>
    if (raw.headD 0).getLsbD 31 = false then
      .inl (if q.cycle = 0 ∧ q.issued = false ∧ q.settling = false then { cause := .illTarget, faddr := q.pc } else { cause := .illEncoding })
    else
      match cutBundle true raw with
      | .broken => .inl { cause := .illEncoding }
      | .segh w e1 e2 =>
        match decSegh (bodyT (wordBody w)) e1 e2 with
        | .ok i => .inr ([w, e1, e2], [i], 3)
        | .bad _ => .inl { cause := .illEncoding }
      | .words ws len =>
        if !classesOk true (seqClassed ws) then .inl { cause := .illEncoding }
        else
          match checkSeqWords s k tid tm q ws with
          | .inl t => .inl t
          | .inr is_ => if seqDoubleWrite is_ then .inl { cause := .illEncoding } else .inr (raw.take len, is_, len)
/-- Is a word fed to the signature of a segment (R321)? -/
def signed (x : Word) : Bool := wordOp x != 0 && !isSege x
/-- The open segment after a bundle: it counts, and its control words feed the signature (R321). -/
def Segment.feed (g : Segment) (raw : List Word) : Segment :=
  { g with count := g.count + 1, crc := (raw.filter signed).foldl crcWord g.crc }
/-- The state in which a sequencer bundle's words run. -/
def State.openSeq (s : State) (k : Nat) (q : Seq) (b : SeqBundle) : State :=
  let segh := b.2.1.any fun i => match i with
    | .segh .. => true
    | _ => false
  let s := s.modSeq k fun v => if segh then v else { v with seg := v.seg.map fun g => g.feed b.1 }
  { s with cur := seqCursor k q.pc b.2.2 }
/-- Words of the control class run last. -/
def seqRunOrder (is_ : List Instr) : List Instr :=
  let control (i : Instr) : Bool := match i with
    | .sloop _ | .sloopReg _ | .slend | .saddr .. | .swaitb .. | .sbarArrive _ | .sbarSync _ | .shalt | .seqGive .. | .seqTake _ => true
    | _ => false
  is_.filter (fun i => !control i) ++ is_.filter control
/-- A sequencer's trap of its bundle; where its fetch waits, the device asks for what it waits for. -/
def State.trapSeq (s : State) (k : Nat) (tm : Team) (q : Seq) (t : Trap) : State :=
  if t.waits then s.askSpan (s.teamCtx tm) q.pc.toNat 32 false
  else (seqTrap k q.pc t { s with cur := seqCursor k q.pc 1 }).haltRead k seqSlotNo true q.pc
/-- The rest of a sequencer cycle after its issue, unless a read of it consumes an error (R425). -/
def State.endSeqCycle (s : State) (k : Nat) : State :=
  match s.latentSeq k with
  | some (pc, at_, l) => s.consumeUe k at_ l true seqSlotNo pc
  | none => s.endCycle k
/-- The reads of the cycle in which a wait begins (R348). -/
def State.waitReads (s : State) (k : Nat) : State :=
  match s.latentSeq k with
  | some (pc, at_, l) => s.consumeUe k at_ l true seqSlotNo pc
  | none => s.readDue k true
/-- A cycle passes in which nothing issues. -/
def State.idleCycle (s : State) (k : Nat) : State := (s.modSeq k fun q => { q with issued := true }).endSeqCycle k
/-- The MMA.co of a bundle. -/
def coWord (is_ : List Instr) : Option Instr :=
  is_.find? fun i => match i with
    | .mma _ _ co .. => co
    | _ => false
/-- The issue of a sequencer's cycle: landings come first, a bundle with a settled word issues one cycle late (R308), and one with an MMA.co
when its cluster has met (R318). -/
def State.seqIssue (s : State) (k tid : Nat) (tm : Team) : Issuing :=
  let s := s.landDue k
  let q := (s.core k).seq
  if q.ended then .stay (s.idleCycle k)
  else
    match s.fetchSeq k tid tm q with
    | .inl t => .stay (s.trapSeq k tm q t)
    | .inr b =>
      if b.2.1.any seqSettled && !q.settling then .stay ((s.modSeq k fun v => { v with settling := true }).idleCycle k)
      else
        match b.2.1.findSome? (seqIssueTrap s k tm q) with
        | some t => .stay (s.trapSeq k tm q t)
        | none =>
          match s.latentShared k b.2.1 with
          | some l => .stay (s.consumeUe k k l true seqSlotNo q.pc)
          | none =>
            match if q.coGo = 0 then coWord b.2.1 else none with
            | some i => .stay (if (s.latentSeq k).isSome then s.waitReads k else s.coArrive k i b.2.2)
            | none => .run (seqRunOrder b.2.1) (s.openSeq k q b)
/-- A wait of the sequencer that a cycle of its own ends: a TAKE whose tile has come, a replay's cycles. -/
def State.seqWaits (s : State) (k tid : Nat) (q : Seq) : State :=
  match q.wait with
  | .take t => if s.seqTakeReady k tid t then (s.seqOwns k tid t).modSeq k fun v => { v with wait := .none } else s
  | .replay till => if till ≤ s.coreNow then s.modSeq k fun v => { v with wait := .none } else s
  | _ => s
/-- What a core cycle finds at its sequencer (R307). -/
def State.nextSeq (s : State) (k : Nat) : Issuing :=
  let c := s.core k
  match s.seqTeam k with
  | none => .stay s
  | some (tid, tm) =>
    let q := c.seq
    if tm.halted || c.mgn.settling || c.mgn.testing.isSome then .stay s
    else if q.wait != .none then .stay (s.seqWaits k tid q)
    else if q.issued then .stay (s.endSeqCycle k)
    else s.seqIssue k tid tm
/-- Does a settled word of a bundle count against a restart of its segment (R364, R427): all but SEGE and a TAKE that completed at
once? -/
def marksSegment : Instr → Bool
  | .sege => false
  | .seqTake _ => false
  | i => seqSettled i
/-- The end of a sequencer's bundle: the next one follows, unless a word has said where, and the reads of the cycle are performed; the cycle
ends unless a word waits (R348). -/
def State.closeSeq (s : State) (is_ : List Instr) : State :=
  let k := s.cur.core
  let s := s.modSeq k fun q => if s.cur.moved then q else { q with pc := s.nextPc }
  let s := s.modSeq k fun q =>
    { (if is_.any marksSegment then markSettled q else q) with settling := false, issued := true, coGo := 0 }
  let s := s.modMgn k (Margin.completeRun s.cur.pc true seqSlotNo 0)
  if (s.core k).seq.wait = .none then s.endSeqCycle k else s.waitReads k
/-- One core cycle of a sequencer. -/
def issueSeq (ex : Instr → State → Out) (k : Nat) (s : State) : Out :=
  match s.nextSeq k with
  | .stay s' => .next s'
  | .run is_ s' =>
    match runWords ex is_ s' with
    | .next t => .next (t.closeSeq is_)
    | o => o

/-! ### After a move -/

/-- A team whose warps have all retired at the end of their waits loses them, and may end (R27). -/
def State.sweep (s : State) : State :=
  (s.teams.map (·.1)).foldl (fun s t => if (s.teamWarps t).any fun x => x.2.2.retired then (s.sweepTeam t).endTeam t else s) s
/-- Between moves no word runs, and a launch that is over has its report as soon as memory takes it (R387). (DESIGN CHOICE, log entry 9.) -/
def State.rest (s : State) : State := { s.sweep.settle with cur := Cursor.init, view := none }

end Sys2Proof.Machine
end

