-- ==== Sys2Proof/Machine/Schedule.lean ====
section
/-! DEFINITION. What one move of the agenda does, over the meaning `ex` of a word or event, and the round of moves that the device makes
when nothing is asked of it. -/

namespace Sys2Proof.Machine
open Sys2Proof

/-- The pointer entry that a walk for an address meets at a level (R402, R406); `fuel` is 4 at level 0. -/
def State.pointerAt (s : State) (c va level : Nat) : Nat → Nat → Option DWord
  | 0, _ => none
  | fuel + 1, table =>
    let here := 3 - fuel
    let e := match s.tlb.find? fun t => t.ctx == c && t.level == here && t.page == va / 2 ^ walkLg here with
      | some t => some t.leaf
      | none =>
        let loc := table + 8 * walkIndex here va
        let e := s.dwordAt loc
        if s.entryBad loc || s.entryWaits loc || !e.getLsbD 0 || e.getLsbD 1 || !pointerOk here e then none else some e
    match e with
    | none => none
    | some e => if level ≤ here then some e else s.pointerAt c va level fuel (e.toNat / 2 ^ 16 % 2 ^ 36 * 2 ^ 16)
/-- The device caches what a walk finds for an address, if it finds it: the leaf, or with a level below 3 the pointer entry of that level
(R406). (DEDUCED, log entry 21.) -/
def State.cacheAdd (s : State) (c : Nat) (va : DWord) (level : Nat) : State :=
  if va.toNat / 2 ^ 57 ≠ 0 then s
  else if level < 3 then
    match s.pointerAt c va.toNat level 4 ((s.ctx c).root * 2 ^ 16) with
    | some e => { s with tlb := s.tlb ++ [⟨c, level, va.toNat / 2 ^ walkLg level, e⟩] }
    | none => s
  else
    match s.walk c va.toNat with
    | .inl _ => s
    | .inr e => { s with tlb := s.tlb ++ [⟨c, 3, va.toNat / 2 ^ pageLg (e.toNat / 4 % 4), e⟩] }
/-- Cycles of both clocks pass, in the ratio of the arithmetic clock to the hub's 1.6 GHz (R6, R469): the hub stays less than two of its cycles
behind the cores, and never ahead of them. (DESIGN CHOICE, log entry 3.) -/
def State.tick (s : State) (hub core : Nat) : State :=
  let p := s.hubPhase + 1600 * core
  if hub * s.clock ≤ p ∧ p - hub * s.clock < 2 * s.clock then
    { s with hubNow := s.hubNow + hub, coreNow := s.coreNow + core, hubPhase := p - hub * s.clock }.syncTimers
  else s
/-- An error strikes a place of a core's state (R69, R71). -/
def State.upset (s : State) (k : Nat) (l : Latent) : State :=
  s.modCore k fun c => if c.latent.contains l then c else { c with latent := c.latent ++ [l] }
/-- Is this a device event and no word of a stream? -/
def isEvent (i : Instr) : Bool := (encode i).isNone
/-- The members of a rendezvous that has met issue their bundles in the same step (R318). -/
def issueMet (ex : Instr → State → Out) : List Nat → State → Out
  | [], s => .next s
  | k :: r, s =>
    if (s.core k).seq.coGo = 0 then issueMet ex r s
    else
      match issueSeq ex k s with
      | .next t => issueMet ex r t
      | o => o
/-- An event of the device, and what follows it at once. -/
def makeEvent (ex : Instr → State → Out) (i : Instr) (s : State) : Out :=
  match ex i s, i with
  | .next t, .mmaCoRendezvous _ => issueMet ex (t.cores.map (·.1)) t
  | o, _ => o
/-- What one move does. An event's own conditions are in its meaning; one whose conditions do not hold changes nothing.
(DESIGN CHOICE, log entry 58.) -/
def makeMove (ex : Instr → State → Out) (mv : Move) (s : State) : Out :=
  match mv with
  | .issue core slot slice => issueGang ex core slot slice s
  | .seqCycle core => issueSeq ex core s
  | .event i => if isEvent i then makeEvent ex i s else .next s
  | .tick hub core => .next (s.tick hub core)
  | .cache c va level => .next (s.cacheAdd c va level)
  | .uncache k => .next { s with tlb := s.tlb.eraseIdx k }
  | .evict dom loc => .next (s.evict dom loc)
  | .upset core u => .next (s.upset core u)
  | .corrected core ua bank row again => .next (s.bankCorrected core ua bank row again)
  | .sector pa l2 => .next (s.sectorError pa l2)
  | .line core pa => .next (s.lineError core pa)
  | .checker core slot sq => .next (s.checkerFlag core slot sq)
  | .miscorrect x w => .next (s.miscorrect x w)
  | .singleBit core => .next (s.modCore core fun c => { c with secded := c.secded + 1 })
  | .hostWrite hpa bs => .next (s.hostWrite hpa bs)
  | .peerAccess port pa wr n => .next (s.peerAccess port pa wr n)
  | .peerWrite port pa bs => .next (s.peerWrite port pa bs)
  | .attestError n => .next (s.attestFail n)
  | .flits port n => .next (s.modPort port fun x => { x with repl := if x.up then min 0xFFFF (x.repl + n) else x.repl })
  | .landLanes core slot id lanes => .next (s.landLanes core slot id lanes)
  | .copyPart core slot copy a n => .next (s.copyPart core slot copy a n)
  | .ckptCopied gib => .next (s.ckptCopied gib)
  | .ckptDone => if s.ckpt.op = 1 then execCkptCopyComplete none s else execCheckpointRestoreDone none s
  | .fullSwitch grid => execStopWalk grid s
/-- Does a move bring an error of its own, which is there after it whatever it finds? -/
def Move.strikes : Move → Bool
  | .upset .. => true
  | _ => false
/-- One move, after which no word runs. Where the error log's full buffer holds its source, the move waits there instead (R422); what it has
written holds no error any more (R425). -/
def runMove (ex : Instr → State → Out) (mv : Move) (s : State) : Out :=
  match makeMove ex mv s with
  | .next t => .next (s.holdSource (if mv.strikes then t else s.dropLatent t)).rest
  | o => o

/-! ### The round -/

/-- The issue of a slice's gang, counted at its lowest slice, and the ends of the slice's waits. -/
def sliceRound (k slot : Nat) (w : Warp) (j : Nat) : List Move :=
  (if lowSlice (w.gangOf j) = j then [.issue k slot j] else []) ++
    [Instr.sleepExpiry k slot j, .qpopComplete k slot j, .fenceWaitComplete k slot j, .giveTransit k slot j,
      .takeComplete k slot j, .seqgoStart k slot j, .contRecordAccept k slot j].map .event
/-- Does a warp's round include its landings: when it waits or stops? While it issues, they come when a bundle needs them (R187). -/
def State.landsNow (s : State) (k slot : Nat) (w : Warp) : Bool :=
  w.stopped || s.inHalt w || (s.core k).rollback.any (fun x => x.1 == slot) || w.slices.any fun x => x.waiting || x.retired
/-- A warp's moves. -/
def State.warpRound (s : State) (k slot : Nat) (w : Warp) : List Move :=
  (List.range w.nslices).flatMap (sliceRound k slot w) ++
    [Instr.piccoloLoadIssue k slot, .piccoloBranchEval k slot].map .event ++
    (if s.landsNow k slot w then w.pending.map (fun p => .event (.longLatencyLanding k slot p.id)) else []) ++
    w.jobs.map (fun j => .event (.copyBatchComplete k slot j.id none)) ++
    [Instr.csaveComplete k slot, .crestoreComplete k slot, .activeSetHoldExpiry k slot, .blockedWarpRemoval k slot,
      .siblingSkidEnd k slot, .warpRollback k slot].map .event
/-- A core's moves. -/
def State.coreRound (s : State) (p : Nat × Core) : List Move :=
  let k := p.1
  [Instr.boundaryMoveComplete k, .spadZeroComplete k, .topkStart k, .replayWindowStart k].map .event ++
    p.2.warps.flatMap (fun x => s.warpRound k x.1 x.2) ++ [.seqCycle k] ++
    [Instr.swaitbComplete k, .seqIdle k, .seqHaltDrainEnd k, .scanabTakeEffect k, .scanClearComplete k,
      .pipePatternTestStart k, .quarantineCarryOut k].map .event
/-- The dispatcher's moves, and the stop walks of the full switches that it requests (R395, R413). (DESIGN CHOICE, log entry 28.) -/
def State.dispatchRound (s : State) : List Move :=
  (s.wins.flatMap fun p =>
    [Instr.launchRecordParse p.1, .nodeStart p.1, .hostTransferComplete p.1 0 none, .hostTransferComplete p.1 1 none,
      .lightPreemptMark p.1, .preemptDeadlineExpiry p.1, .streamResume p.1].map .event) ++
    (s.grids.flatMap fun g => s.mappedCores.map fun k => .event (.teamPlace g.1 k)) ++
    s.nodes.filterMap fun n => if n.fullSwitch then n.grid.map .fullSwitch else none
/-- Hub firmware resets a dead tower, by a write of its command register (R432, R433). -/
def firmwareReset (t : Nat) : Move := .event (.registerWrite (0x300 + 16 * t) 0x8002)
/-- The moves of the management units and of memory. -/
def State.manageRound (s : State) : List Move :=
  [Instr.errorRecordWrite, .tlbinvComplete, .qladdStored, .attestReport, .ckptConsistencyPoint, .gatherOverflowReadback].map .event ++ [.ckptDone] ++
    s.teams.map (fun t => .event (.trapRecordWrite t.1)) ++
    (List.range 4).flatMap (fun t => [Instr.towerFenced t, .bridgeWakeStart t 0, .bridgeWakeStart t 1, .bridgeWakeStart t 2,
      .bridgeAwake t 0, .bridgeAwake t 1, .bridgeAwake t 2, .towerUp t, .towerDead t].map .event ++
      (if (s.tower t).fwReset && (s.tower t).phase == .dead then [firmwareReset t] else [])) ++
    (List.range 64).map (fun c => .event (.mmaCoRendezvous c)) ++
    s.pageReqs.map (fun r => .event (.pageGrant r.page)) ++ s.pend.flatMap (fun p => List.replicate 3 (.event (.storePerformed p.id [])))
/-- The tick of a round: one core cycle, and a hub cycle when it is due (R6). -/
def State.roundTick (s : State) : Move := .tick ((s.hubPhase + 1600) / max 1 s.clock) 1
/-- A round: each unit of the device moves once, in one fixed order, and a core cycle passes. Inputs from outside (the host, peers, errors,
test results, voltages, the clock) are no part of it. (DESIGN CHOICE, log entry 58.) -/
def State.round (s : State) : List Move :=
  .event .powerOnBoot :: s.dispatchRound ++ s.cores.flatMap s.coreRound ++ s.manageRound ++ [s.roundTick]
/-- One step: the first move of the agenda, or with none left, a round is put on it. (DESIGN CHOICE, log entry 1.) -/
def stepWith (ex : Instr → State → Out) (s : State) : Out :=
  match s.agenda with
  | [] => .next { s with agenda := s.round }
  | mv :: r => runMove ex mv { s with agenda := r }

/-! ### A program in place -/

/-- The filler word (R284). -/
def filler : Word := 0x80000000
/-- The packet in which an instruction of the table stands first: a header before a word that lacks S (R173, R175). -/
def packetOf (nbits w : Nat) : List Word :=
  let x := w % 2 ^ nbits
  let w0 : Word := BitVec.ofNat 32 x
  let w1 : Word := BitVec.ofNat 32 (x / 2 ^ 32)
  let w2 : Word := BitVec.ofNat 32 (x / 2 ^ 64)
  let start (y : Word) : Word := y ||| 0x80000000
  let core :=
    if isHeader w0 then [start w0, w1 &&& 0x7FFFFFFF]
    else if isSegh w0 then [start w0, w1, w2]
    else if w0.getLsbD 31 then [w0]
    else [if w0.getLsbD 30 then 0xFF000000 else 0xBF000000, w0]
  (core ++ List.replicate 8 filler).take 8
/-- The word of a packet that has the instruction's major. -/
def packetMajor (nbits w : Nat) : BitVec 6 :=
  let x := w % 2 ^ nbits
  let w0 : Word := BitVec.ofNat 32 x
  if isHeader w0 then wordOp (BitVec.ofNat 32 (x / 2 ^ 32)) else wordOp w0
/-- The record of the launch that runs a placed program: one team of one 64-lane warp. -/
def placedRec (slice : Bool) : LaunchRec :=
  { parseRec [] with entry := 0x40000, width := 64, win := 2, warps := 1, teams := 1, threads := 64, pool := 8, slice := slice }
/-- The page tables of a placed program: context tables at 64 KiB, and one page of 512 MiB at address 0, writable and ordinary. -/
def placedTables : List Host.Cell :=
  putBytes (putBytes (putBytes [] 0x10000 (bytesOf 8 0x20001)) 0x20000 (bytesOf 8 0x30001)) 0x30000 (bytesOf 8 0x0F)
/-- A launched kernel whose program begins with the packet, on core `k` in context `c`. -/
def State.placed (s : State) (k c : Nat) (slice : Bool) (packet : List Word) : State :=
  let lr := { placedRec slice with ctx := c }
  let node : Node :=
    { win := 0, lr := lr, scal := [], xst := [], readyAt := some 0, grid := some 1, mark := none, fullSwitch := false,
      failed := false, placedAt := 0 }
  let warp := { newWarp 1 2 0 64 2 0x40000 (BitVec.allOnes 64) 0 0 [] slice s.coreNow with inSet := true }
  let team := { newTeam 1 0 k false 0 with zeroing := false }
  { s with
    mem := putBytes placedTables 0x40000 (wordBytes packet)
    ctxs := [(c, { Context.init with en := true, root := 1 })]
    cores := [(k, { Core.init with warps := [(0, warp)] })]
    teams := [(2, team)]
    grids := [(1, { newGrid node [] with nextTeam := 1 })]
    nodes := [node]
    nextId := 3 }
/-- The sequencer of core 0 runs for the placed kernel, in an open segment unless the packet opens one; the cycle that a settled word
waits (R329) has passed. -/
def State.placedSeq (s : State) (opens : Bool) : State :=
  s.modSeq 0 fun q =>
    { q with
      running := true, team := 2, pc := 0x40000, settling := true
      seg := if opens then none else some ⟨0x40000, 0, 0, 0, crcInit, false, false⟩ }
/-- A machine whose next step runs the instruction of a table row: one launch is in place whose program begins with it. -/
def placeWord (nbits w : Nat) (s : State) : State :=
  let op := packetMajor nbits w
  let packet := packetOf nbits w
  if seqMajor op then
    { (s.placed 0 0 false packet).placedSeq (isSegh (BitVec.ofNat 32 (w % 2 ^ nbits))) with agenda := [.seqCycle 0] }
  else if op = 0x2F then { s.placed hubCore 256 false packet with agenda := [.issue hubCore 0 0] }
  else
    let marked := (packet.headD 0).getLsbD 30
    { s.placed 0 0 marked packet with agenda := [.issue 0 0 0] }

end Sys2Proof.Machine
end

