-- ==== Sys2Proof/Machine/Step.lean ====
section
/-! DEFINITION. One step of the device, and the placing of an instruction where the next step runs it. -/

namespace Sys2Proof.Machine
open Sys2Proof

/-- One step: the first move of the agenda over `exec`, or with none left, a round is put on it. -/
def step (s : State) : Host.Outcome State Fault Refusal := stepWith exec s

/-- A launch whose program begins with an instruction of the table, its bits numbered as the table numbers them. -/
def State.withFetchWord (s : State) (nbits w : Nat) : State := placeWord nbits w s

end Sys2Proof.Machine
end

