-- ==== Sys2Proof/Safety.lean ====
section
/-! DEFINITION. The terms of the statements: when a word runs, and what it leaves of the device, of its warp and of memory. -/

namespace Sys2Proof.Machine
open Sys2Proof

/-! ### When a word runs -/

/-- The word `i` of the warp at the cursor runs: `w` is the warp as the bundle found it (R182), `v` the warp as it stands, and
no check of R192, R200 and the word's own rules stops it. -/
structure Runs (s : State) (w v : Warp) (i : Instr) : Prop where
  view : s.view? = some w
  live : s.live? = some v
  free : s.cur.checked = true ∨ wordTrap s w i = none

/-- The word `i` of the warp at the cursor fails a check with the trap `t`: one that does not wait for its walk (R434). -/
structure Traps (s : State) (w : Warp) (i : Instr) (t : Trap) : Prop where
  view : s.view? = some w
  unchecked : s.cur.checked = false
  trap : wordTrap s w i = some t
  stops : t.waits = false

/-! ### What a word leaves -/

/-- Every byte of memory and of the scratchpads reads as before. -/
def SameBytes (s t : State) : Prop := ∀ a, t.byte a = s.byte a

/-- The device goes from `s` to `t`, in which the warp at the cursor is `v'` and everything else is as in `s`: every other warp, every
team, every control register and every byte of memory. -/
structure OnlyWarp (s t : State) (v' : Warp) : Prop where
  rest : t = s.setWarp s.cur.core s.cur.slot v'
  live : t.live? = some v'
  others : ∀ k n, (k ≠ s.cur.core ∨ n ≠ s.cur.slot) → t.warp? k n = s.warp? k n
  bytes : SameBytes s t

/-- Of a warp, only the `n` vector registers from `d` have changed: the scalar registers, the predicates, the queues, the special
registers, the slices and everything else are as before. -/
structure VectorFrame (v v' : Warp) (d n : Nat) : Prop where
  rest : v' = { v with v := v'.v }
  regs : ∀ r l, l < 64 → (r < d ∨ d + n ≤ r) → v'.vget r l = v.vget r l

/-- Of a warp, the `n` vector registers from `d` have changed, and only in the lanes that `on` selects (R183); there `P` holds. -/
structure VectorWrite (v v' : Warp) (d n : Nat) (on : Nat → Bool) (P : Nat → Prop) : Prop where
  frame : VectorFrame v v' d n
  acts : ∀ l, l < 64 → on l = true → P l
  skips : ∀ l, l < 64 → on l = false → ∀ r, v'.vget r l = v.vget r l

/-- Of a warp, the scalar register `d` has changed, if `on`; then `P` holds. -/
structure ScalarWrite (v v' : Warp) (d : SReg) (on : Bool) (P : Prop) : Prop where
  rest : v' = { v with s := v'.s }
  acts : on = true → P
  skips : on = false → v'.sget d = v.sget d
  regs : ∀ r, r ≠ d → v'.sget r = v.sget r

/-- The predicate `p` gets `f` in the lanes that `on` selects, and nothing when `p` is p7 (R49); the warp's other predicates and
lanes, and everything else of it, are as before. -/
structure PredResult (v v' : Warp) (p : PReg) (on f : Nat → Bool) : Prop where
  rest : v' = { v with p := v'.p }
  acts : ∀ l, l < 64 → on l = true → v'.pred p l = if p = 7 then true else f l
  skips : ∀ l, l < 64 → on l = false → v'.pred p l = v.pred p l
  others : ∀ q l, l < 64 → q ≠ p → v'.pred q l = v.pred q l

/-- `exec` answers a next state in which the warp at the cursor has become a `v'` that meets `P`, and nothing else has changed. -/
def WarpBecomes (i : Instr) (s : State) (P : Warp → Prop) : Prop :=
  ∃ t v', exec i s = .next t ∧ OnlyWarp s t v' ∧ P v'

/-! ### Shapes of words

In each, `w` is the warp as the bundle found it and the lanes are those in which the word acts (R183, R201); a relation takes the width
`n`, the sources and the new value of the destination. -/

/-- A word with two sources of its width. -/
def TwoSources (mk : Guard → Width → VReg → Src → Src → Instr) (R : (n : Nat) → BitVec n → BitVec n → BitVec n → Prop) : Prop :=
  ∀ s w v g wd d a b, Runs s w v (mk g wd d a b) →
    WarpBecomes (mk g wd d a b) s fun v' =>
      VectorWrite v v' d.toNat wd.regs (w.acts s.cur.slices g) fun l =>
        match wd with
        | .w32 => R 32 (w.src32 a l) (w.src32 b l) (v'.vget d.toNat l)
        | .w64 => R 64 (w.src64 a l) (w.src64 b l) (v'.vpair d.toNat l)

/-- A word with one source of its width. -/
def OneSource (mk : Guard → Width → VReg → Src → Instr) (R : (n : Nat) → BitVec n → BitVec n → Prop) : Prop :=
  ∀ s w v g wd d a, Runs s w v (mk g wd d a) →
    WarpBecomes (mk g wd d a) s fun v' =>
      VectorWrite v v' d.toNat wd.regs (w.acts s.cur.slices g) fun l =>
        match wd with
        | .w32 => R 32 (w.src32 a l) (v'.vget d.toNat l)
        | .w64 => R 64 (w.src64 a l) (v'.vpair d.toNat l)

/-- A word that reads its destination as a third source, first in the relation. -/
def ThreeSources (mk : Guard → Width → VReg → Src → Src → Instr)
    (R : (n : Nat) → BitVec n → BitVec n → BitVec n → BitVec n → Prop) : Prop :=
  ∀ s w v g wd d a b, Runs s w v (mk g wd d a b) →
    WarpBecomes (mk g wd d a b) s fun v' =>
      VectorWrite v v' d.toNat wd.regs (w.acts s.cur.slices g) fun l =>
        match wd with
        | .w32 => R 32 (w.vget d.toNat l) (w.src32 a l) (w.src32 b l) (v'.vget d.toNat l)
        | .w64 => R 64 (w.vpair d.toNat l) (w.src64 a l) (w.src64 b l) (v'.vpair d.toNat l)

/-- A word that writes one register in the lanes in which it acts. -/
def WritesWord (i : Instr) (g : Guard) (d : VReg) (R : State → Warp → Nat → Word → Prop) : Prop :=
  ∀ s w v, Runs s w v i →
    WarpBecomes i s fun v' =>
      VectorWrite v v' d.toNat 1 (w.acts s.cur.slices g) fun l => R s w l (v'.vget d.toNat l)

/-- A word that writes a predicate in the lanes in which it acts. -/
def WritesPred (i : Instr) (g : Guard) (p : PReg) (f : Warp → Nat → Bool) : Prop :=
  ∀ s w v, Runs s w v i → WarpBecomes i s fun v' => PredResult v v' p (w.acts s.cur.slices g) (f w)

/-- A word that executes once, when its guard is true in at least one active lane of its gang (R183), and writes a scalar register. -/
def WritesScalar (i : Instr) (g : Guard) (d : SReg) (R : State → Warp → DWord → Prop) : Prop :=
  ∀ s w v, Runs s w v i →
    WarpBecomes i s fun v' => ScalarWrite v v' d (w.actsOnce s.cur.slices g) (R s w (v'.sget d))

/-! ### Integer values -/

/-- The length of a bit field at `pos` of `len` bits, clipped at bit n − 1 (R210). -/
def clippedLen (n pos len : Nat) : Nat := if pos < n then min (pos + len) n - pos else 0
/-- The truth of a comparison of integers (R206). -/
def intCompares {n : Nat} (c : ICond) (un : Bool) (x y : BitVec n) : Bool :=
  let a : Int := if un then x.toNat else x.toInt
  let b : Int := if un then y.toNat else y.toInt
  match c with
  | .eq => x == y
  | .ne => x != y
  | .lt => decide (a < b)
  | .le => decide (a ≤ b)
  | .gt => decide (b < a)
  | .ge => decide (b ≤ a)
/-- The value of an index selector in a lane (Table 10.2): a child grid's warps count as one to a team, of teams without end. -/
def laneIndex (s : State) (w : Warp) (l : Nat) : IdxSel → Nat
  | .lane => l
  | .slice => l / 4
  | .warp => w.num
  | .team => ((s.team? w.team).map (·.num)).getD 0
  | .nteams => ((s.grid? w.grid).map fun g => if g.parent.isSome then 0xFFFFFFFF else g.lr.teams).getD 0
  | .nwarps => ((s.grid? w.grid).map fun g => if g.parent.isSome then 1 else g.lr.warps).getD 1
  | .width => w.width

/-- The reductions and their results over the contributing lanes' values (Table 13.2, R270). -/
def reductions : List ((Guard → SReg → VReg → Instr) × (List Word → DWord → Prop)) := [
  (.reduxAdd, fun xs z => z.toNat = (xs.map BitVec.toNat).sum % 2 ^ 32),
  (fun g d a => .reduxMin g true d a, fun xs z => z.toNat = (xs.map BitVec.toNat).foldl min 0xFFFFFFFF),
  (fun g d a => .reduxMin g false d a, fun xs z => z.toInt = (xs.map BitVec.toInt).foldl min 0x7FFFFFFF),
  (fun g d a => .reduxMax g true d a, fun xs z => z.toNat = (xs.map BitVec.toNat).foldl max 0),
  (fun g d a => .reduxMax g false d a, fun xs z => z.toInt = (xs.map BitVec.toInt).foldl max (-0x80000000)),
  (.reduxAnd, fun xs z => z.toNat < 2 ^ 32 ∧ ∀ j < 32, z.getLsbD j = xs.all fun x => x.getLsbD j),
  (.reduxOr, fun xs z => z.toNat < 2 ^ 32 ∧ ∀ j < 32, z.getLsbD j = xs.any fun x => x.getLsbD j)]

/-! ### Floating words -/

/-- A relation holds of each element of operands and result of a floating type: one of 32 or 64 bits, or two of 16 (R123, R220). -/
def Elementwise (t : FTy) (R : Fmt → Nat → Nat → Nat → Nat → Prop) (a b c z : DWord) : Prop :=
  let lo (x : DWord) : Nat := x.toNat % 2 ^ 16
  let hi (x : DWord) : Nat := x.toNat / 2 ^ 16 % 2 ^ 16
  match t with
  | .f32 => R f32 (a.toNat % 2 ^ 32) (b.toNat % 2 ^ 32) (c.toNat % 2 ^ 32) (z.toNat % 2 ^ 32)
  | .f64 => R f64 a.toNat b.toNat c.toNat z.toNat
  | .f16x2 => R f16 (lo a) (lo b) (lo c) (lo z) ∧ R f16 (hi a) (hi b) (hi c) (hi z)
  | .bf16x2 => R bf16 (lo a) (lo b) (lo c) (lo z) ∧ R bf16 (hi a) (hi b) (hi c) (hi z)

/-- The new value of a register or pair of a floating type. -/
def Warp.regT (w : Warp) (t : FTy) (d l : Nat) : DWord :=
  match t with
  | .f64 => w.vpair d l
  | _ => (w.vget d l).zeroExtend 64

/-- A floating word `i` with its guard, type and destination; `a`, `b` and `c` give its sources in a lane, and the relation takes the
gang's MODE, the format and the elements of the three sources and of the result. -/
def FloatWord (i : Instr) (g : Guard) (t : FTy) (d : VReg) (a b c : Warp → Nat → DWord)
    (R : FpMode → Fmt → Nat → Nat → Nat → Nat → Prop) : Prop :=
  ∀ s w v, Runs s w v i →
    WarpBecomes i s fun v' =>
      VectorWrite v v' d.toNat t.regs (w.acts s.cur.slices g) fun l =>
        Elementwise t (R (modeOf w s.cur.slices)) (a w l) (b w l) (c w l) (v'.regT t d.toNat l)

/-- A source of a floating type, as FloatWord takes it. -/
def srcT (t : FTy) (a : Src) (w : Warp) (l : Nat) : DWord := w.srcW (FTy_width t) a l
/-- No source. -/
def noSrc (_ : Warp) (_ : Nat) : DWord := 0

/-- The exact value of a finite number, as a rational. -/
def FV.rat : FV → Rat
  | .fin neg m e => (if neg then -1 else 1) * m * (2 : Rat) ^ e
  | _ => 0
/-- Is it a finite number? -/
def FV.finite : FV → Bool
  | .fin .. => true
  | _ => false

/-! ### Words and stores in flight -/

/-- From `s` to `t` the warp at the cursor has gained one word in flight (R187), and nothing else has changed but the count of numbers
given out: no register, no predicate, no other warp, no team, no byte of memory. -/
def Flies (s t : State) (ds : List Dest) (la : BitVec 4) (lanes : List Nat) (op : LandOp) : Prop :=
  SameBytes s t ∧ ∃ v n, s.live? = some v ∧
    t = ({ s with nextId := s.nextId + 1 }).setWarp s.cur.core s.cur.slot
      { v with pending := v.pending ++
          [({ id := s.nextId, slices := s.cur.slices, base := n, la := la.toNat, lanes := laneMask lanes, dests := ds, op := op } : Pending)] }

/-- Of a word in flight, some lanes have performed their accesses; a TOPK has performed all of its own. -/
def Pending.performedIn (p : Pending) (lanes : BitVec 64) : Prop :=
  match p.op with
  | .topk .. => False
  | op => ∀ l < 64, lanes.getLsbD l = true → l ∉ op.lanes

/-- A Recorder word: in the lanes in which it acts, `n` registers from `d` get the values that `f` gives for the row; in no lane,
nothing happens (R234). -/
def RecorderWord (i : Instr) (g : Guard) (bf : Bool) (d a : VReg) (la : BitVec 4) (n : Nat)
    (f : Warp → List Nat → List Nat → Nat → List Nat) : Prop :=
  ∀ s w v, Runs s w v i → ∃ t, exec i s = .next t ∧
    let lanes := w.actLanes s.cur.slices g
    if lanes = [] then t = s
    else ∃ vs, Flies s t (destsV d.toNat n) la lanes (.values vs) ∧
      ∀ r l x, (r, l, x) ∈ vs ↔ l ∈ lanes ∧ ∃ j < n, r = d.toNat + j ∧ ((f w (recRow w bf a lanes) lanes l)[j]?).map (BitVec.ofNat 32) = some x

/-- The address of lane `l` of a unit-stride access of `n` bytes (R241). -/
def unitStride (w : Warp) (base : SReg) (off : BitVec 6) (n l : Nat) : DWord :=
  w.sget base + BitVec.ofInt 64 (off.toInt * n) + BitVec.ofNat 64 (l * n)

/-- From `s` to `t` a load into registers, accessing at `xs`, has issued: what must come before it is performed, the pages it needs are asked for, and its
result is in flight (R187, R102, R107). -/
def Loads (s t : State) (d : VReg) (n : Nat) (la : BitVec 4) (acq : Option Scope) (size : Nat) (sx : Bool) (xs : List LaneAccess) : Prop :=
  let s1 := (s.settleAccess (Fetch.bytes size sx xs).access).askAll false xs
  if xs = [] then t = s1 else Flies s1 t (destsV d.toNat n) la (xs.map (·.1)) (.load size sx acq (laneLocs xs))

/-- The `n` bytes of the group of registers from `r` in a lane: byte j is byte j mod 4 of register r + j/4 (R14, R245). -/
def groupStored (w : Warp) (r n l : Nat) : List Byte :=
  (List.range n).map fun j => (w.vget (r + j / 4) l).extractLsb' (8 * (j % 4)) 8

/-- From `s` to `t` a store at `xs` has issued: what must come before it is performed, and one store of each lane is in flight, ascending, which its warp
alone sees; no byte of its own is performed, no register changes (R101, R106, R247). -/
def Stores (s t : State) (strong : Option Scope) (rel : Bool) (d : VReg) (size : Nat) (w : Warp) (xs : List LaneAccess) : Prop :=
  let s1 := s.settleAccess { ranges := rangesOf size xs, lanes := lanesOf xs, strong := strong, rel := rel }
  let a := agentOf s.cur.core s.cur.slot
  if xs = [] then t = s
  else ∃ u ps, t = u.askAll true xs ∧ SameBytes s1 t ∧ u = { s1 with pend := s1.pend ++ ps, nextId := s1.nextId + xs.length } ∧
    ps.length = xs.length ∧ ∀ k x p, xs[k]? = some x → ps[k]? = some p →
      p.id = s1.nextId + k ∧ p.word = s1.nextId ∧ p.late = [] ∧ p.agent = a ∧ p.thr = threadOf s.cur.core s.cur.slot x.1 ∧
      p.level = 0 ∧ p.strong = strong ∧ p.si = x.2.2.lax ∧ p.op = .bytes x.2.1 (groupStored w d.toNat size x.1) ∧
      ∀ c, c ∈ p.after ↔ c.2 ≠ 0 ∧ ((∃ q ∈ s1.pend, c = (q.id, s1.binds a p.thr strong rel q)) ∨
        ∃ j q, j < k ∧ ps[j]? = some q ∧ c = (q.id, s1.binds a p.thr strong rel q))

/-- From `s` to `t` the gang at the cursor has begun a wait: its pc stays, it will go on after the bundle (R35), and nothing else has
changed; `v` is its warp. -/
def Waits (s t : State) (v : Warp) (wt : Wait) : Prop :=
  SameBytes s t ∧
    t = { s.setWarp s.cur.core s.cur.slot (v.beginWait s.cur.slices wt s.nextPc) with cur := { s.cur with moved := true } }

/-- From `s` to `t` the wait `wt` of the gang of a slice of the warp `w` of a slot has ended: its slices go on (R35), and nothing else has
changed. -/
def WaitEnds (s t : State) (core slot slice : Nat) (w : Warp) (wt : Wait) : Prop :=
  SameBytes s t ∧ t = s.setWarp core slot (w.endWait slice wt s.coreNow) ∧
    ∀ j x y, w.slice? j = some x → w.slice? slice = some y → (w.endWait slice wt s.coreNow).slice? j =
      some (if x.gang ≠ y.gang ∨ wt ∉ x.waits then x
        else if x.waits = [wt] then { x with waits := [], pc := x.resume, retired := x.retired || x.leaving }
        else { x with waits := x.waits.erase wt })
/-- The warp of a slot may end a wait `wt` of a slice, and the slice has no other. -/
structure WaitsAt (s : State) (core slot slice : Nat) (w : Warp) (wt : Wait) : Prop where
  warp : s.warp? core slot = some w
  runs : s.frozen w = false
  waits : ∃ x, w.slice? slice = some x ∧ x.waits = [wt]

/-- The next state of a transfer of control: the warp at the cursor is `v'`, `n` numbers have been given out, and the bundle's words
have set the pc themselves. -/
def Transfers (s t : State) (v v' : Warp) (n : Nat) : Prop :=
  SameBytes s t ∧ v' = { v with slices := v'.slices, s := v'.s } ∧
    t = { s.setWarp s.cur.core s.cur.slot v' with nextId := s.nextId + n, cur := { s.cur with moved := true } }
/-- Every slice of the gang at the cursor has become `f` of it; the others are as before. -/
def GangSlices (s : State) (v v' : Warp) (f : Nat → Slice → Slice) : Prop :=
  ∀ j, v'.slice? j = (v.slice? j).map fun x => if s.cur.slices.getLsbD j then f j x else x

/-- A store of some lanes at .dev scope to a table's state joins the stores in flight, as one (R94, R98, R106). -/
def BeamStored (s t : State) (lanes : List Nat) (op : StoreOp) : Prop :=
  let a := agentOf s.cur.core s.cur.slot
  let thr (l : Nat) : Nat := threadOf s.cur.core s.cur.slot l
  t = { s with
    pend := s.pend ++ [({ id := s.nextId, agent := a, thr := thr (lanes.headD 0), level := 0, strong := some .dev
                          after := lanes.flatMap fun l => s.orders a (thr l) (some .dev) false, si := false, late := []
                          word := s.nextId, op := op } : PendStore)]
    nextId := s.nextId + 1 }

/-- The shadow bank of a table: its entries and pitch (R92). -/
def BeamTable.shadow (b : BeamTable) : List (Nat × Half) × Word := if b.act then (b.bank0, b.pitch0) else (b.bank1, b.pitch1)
/-- The active bank of a table. -/
def BeamTable.active (b : BeamTable) : List (Nat × Half) × Word := if b.act then (b.bank1, b.pitch1) else (b.bank0, b.pitch0)

/-- The low `n` bits of a sum of numbers of any sign (R205). -/
def wraps (n : Nat) (x : Int) : Nat := (x % 2 ^ n).toNat

/-! ### Tiles -/

/-- A word that changes one pool tile of its team's half (Table 2.9) under `on`: the tile of `t` is `x`, and every other tile, word and
register is as before; `noted` are the TCFGs its team notes (R66). -/
def TileBecomes (s t : State) (w : Warp) (tm : Team) (tile : Nat) (x : TileState) (noted : List (Nat × Nat × Nat)) : Prop :=
  SameBytes s t ∧ t.cores = s.cores ∧ (∀ u, u ≠ w.team → t.team? u = s.team? u) ∧ ∃ tm', t.team? w.team = some tm' ∧
    tm' = { tm with tiles := tm'.tiles, tcfgAt := noted } ∧ tm'.tile (tm.halfOf s.cur.core) tile = x ∧
    ∀ h n, 64 * h + n ≠ 64 * tm.halfOf s.cur.core + tile → tm'.tile h n = tm.tile h n

/-- A tile element-wise word (R67, R292): element (row, col) of the destination group becomes `f` of the team before the word, in the
rows the gang handles and the columns of SHAPE; the region's other elements, every word of a tile that holds no such element, every
tile's owner, and all else is as before. -/
def TileWord (i : Instr) (g : Guard) (d : TReg) (bits : Warp → Nat) (f : FpMode → Warp → Team → Nat → Nat → Nat → Nat) : Prop :=
  ∀ s w v tm, Runs s w v i → s.team? w.team = some tm →
    let h := tm.halfOf s.cur.core
    let cols := shapeCols w.shape
    let rows (r : Nat) : Prop := r < shapeRows w.shape ∧ w.acts s.cur.slices g (r % w.width) = true
    d.toNat + groupOf (shapeRows w.shape) cols (bits w) ≤ 64 →
    ∃ t tm', exec i s = .next t ∧ t = { s with teams := t.teams } ∧ t.team? w.team = some tm' ∧
      (∀ u, u ≠ w.team → t.team? u = s.team? u) ∧ tm' = { tm with words := tm'.words } ∧
      (∀ r c, rows r → c < cols →
        tm'.getElem h d.toNat (bits w) cols r c = f (modeOf w s.cur.slices) w tm h r c % 2 ^ bits w) ∧
      (∀ r c, ¬rows r → r < shapeRows w.shape → c < cols →
        tm'.getElem h d.toNat (bits w) cols r c = tm.getElem h d.toNat (bits w) cols r c) ∧
      ∀ h' n r c, n < 64 → r < 32 → c < 32 →
        (h' ≠ h ∨ ∀ row col, rows row → col < cols → d.toNat + (elemPlace (bits w) cols row col).1 = n →
          (elemPlace (bits w) cols row col).2.1 = r → c ≠ (elemPlace (bits w) cols row col).2.2 ∧
            (bits w = 64 → c ≠ (elemPlace (bits w) cols row col).2.2 + 1)) → tm'.tget h' n r c = tm.tget h' n r c

/-! ### The Serpent stack -/

/-- A push (R146, R150): a spill comes first when the window is full, after what must precede it (R152); then one entry of every lane and its tag are pushed, and the word's
destination is written in the lanes in which it acts. `R` takes the warp before, the lane, the new value and the entry; every
other register, entry and tag is as before. -/
def PushWord (i : Instr) (g : Guard) (d : VReg) (tag : Warp → Option Nat) (R : Warp → Nat → Word → Half → Prop) : Prop :=
  ∀ s w v, Runs s w v i → w.width ≤ 64 → v.width = w.width → v.depth = w.depth →
    let s1 := if 128 ≤ w.depth - w.spilled then spillLive w s else s
    ∃ t v1 v', exec i s = .next t ∧ SameBytes s1 t ∧ s1.live? = some v1 ∧ v1.v = v.v ∧ t = s1.setWarp s.cur.core s.cur.slot v' ∧
      v' = { v1 with v := v'.v, serp := v'.serp, tags := v'.tags, depth := w.depth + 1 } ∧
      (∀ x, tag w = some x → (v'.tag w.depth).toNat = x) ∧
      (∀ l < w.width, if w.acts s.cur.slices g l then R w l (v'.vget d.toNat l) (v'.entry w.depth l) else v'.entry w.depth l = 0) ∧
      (∀ p l, p % 128 ≠ w.depth % 128 → l < w.width → v'.tag p = v.tag p ∧ v'.entry p l = v.entry p l) ∧
      ∀ r l, l < 64 → (r ≠ d.toNat ∨ w.acts s.cur.slices g l = false) → v'.vget r l = v.vget r l

/-- A pop (R146, R150): a fill comes first when the window is empty; then the word's destination is written from the top entry in the
lanes in which it acts, and the stack is one entry shorter. A pop below a region's entry depth clears the region entry (R155). -/
def PopWord (i : Instr) (g : Guard) (d : VReg) (R : Warp → Nat → Word → Half → Prop) : Prop :=
  ∀ s w v, Runs s w v i →
    let s1 := if w.depth ≤ w.spilled ∧ 0 < w.spilled then fillLive w s else s
    ∃ t v1 v', exec i s = .next t ∧ SameBytes s1 t ∧ s1.live? = some v1 ∧ v1.depth = v.depth ∧ t = s1.setWarp s.cur.core s.cur.slot v' ∧
      v' = { v1 with v := v'.v, depth := v.depth - 1, region := v'.region } ∧
      v'.region = v1.region.bind (fun r => if v.depth - 1 < r.d0 then none else some r) ∧
      (∀ l < 64, w.acts s.cur.slices g l = true → R w l (v'.vget d.toNat l) (v1.entry (v.depth - 1) l)) ∧
      ∀ r l, l < 64 → (r ≠ d.toNat ∨ w.acts s.cur.slices g l = false) → v'.vget r l = v1.vget r l

/-! ### Traps and the sequencer -/

/-- Is the bundle at the cursor the repeat of an issue (R448)? -/
def State.repeating (s : State) : Bool :=
  (s.core s.cur.core).replays.any fun r => r.slot == s.cur.slot && r.slices == s.cur.slices

/-- From `s` to `t` a word of the hub control core that waited has ended with a status in its scalar register (R339), and nothing else has
changed. -/
def AnswersHub (s t : State) (slot : Nat) (d : SReg) (wt : Wait) (status : Nat) : Prop :=
  SameBytes s t ∧ ∀ w, s.warp? hubCore slot = some w → ∃ w', t = s.setWarp hubCore slot w' ∧
    w' = { w with s := w'.s, slices := w'.slices, readyAt := w'.readyAt } ∧ w'.sget d = BitVec.ofNat 64 status ∧
    (∀ r, r ≠ d → w'.sget r = w.sget r) ∧ ∀ j, w.slices.findIdx? (fun x => x.waits.contains wt) = some j →
      ∀ x, w.slice? j = some x → x.waits = [wt] → w'.slice? j = some { x with waits := [], pc := x.resume, retired := x.retired || x.leaving }

/-- Is it a word of the sequencer stream alone (majors 0x3C to 0x3E)? -/
def seqOnly : Instr → Bool
  | .tld .. | .tldTr .. | .tst .. | .sgather .. | .mma .. | .segh .. | .sege | .sloop .. | .sloopReg .. | .slend | .saddr .. | .swaitb ..
  | .sbarArrive .. | .sbarSync .. | .shalt | .seqGive .. | .seqTake .. => true
  | _ => false
/-- Is it a word of the warp stream? -/
def warpWord (i : Instr) : Bool := (encode i).isSome && !seqOnly i

/-- The halt of a team by a trap (R45, R46): its first trap is its cause, and its record waits to be written; of traps in the cycle of
the halt, the one that stands first in R46's order is the cause. -/
def TeamHalts (s t : State) (tid : Nat) (tr : Trap) (pc : DWord) (seqr : Bool) (num : Nat) : Prop :=
  ∀ tm, s.team? tid = some tm → t.team? tid = some (if tm.newCause s.coreNow (trapRank seqr num num) then
    { tm with halted := true, cause := some (tr, pc, seqr, num), pair := (0, 0), recWait := true, haltAt := s.coreNow } else tm)

/-- The warp at the cursor, `v`, has taken the trap `tr` (R45, R46, R192): it stops at its bundle and keeps the trap with the next number of
its core's halt logic; no register, predicate, pc or byte of memory has changed; its team halts, and if the team was not halted every
other warp of it begins its skid. -/
def TrapTaken (s t : State) (v : Warp) (tr : Trap) : Prop :=
  let n := nextSeq (sget 0 s.seqs (haltSource s.cur.core))
  SameBytes s t ∧ t.cur = { s.cur with moved := true } ∧ (∀ x, sget 0 t.seqs x = if x = haltSource s.cur.core then n else sget 0 s.seqs x) ∧
    TeamHalts s t v.team tr s.cur.pc false v.num ∧ (∀ u, u ≠ v.team → t.team? u = s.team? u) ∧
    (∃ v', t.live? = some v' ∧ v'.trap = some ⟨tr, s.cur.pc, n, s.cur.slices.toNat, s.cur.len⟩ ∧ v'.stopped = true ∧
      v' = { v with slices := v'.slices, picc := v'.picc, trap := v'.trap, stopped := true } ∧
      ∀ j, (v'.slice? j).map (·.pc) = (v.slice? j).map (·.pc)) ∧
    ∀ k m x, s.warp? k m = some x → (k ≠ s.cur.core ∨ m ≠ s.cur.slot) → ∃ x', t.warp? k m = some x' ∧ x' = { x with skid := x'.skid }

/-- The word `i` of the sequencer at the cursor runs, for the team `tid`; `q` is the sequencer as it stands. -/
structure SeqRuns (s : State) (tid : Nat) (tm : Team) (q : Seq) (i : Instr) : Prop where
  seq : (s.core s.cur.core).seq = q
  team : s.seqTeam s.cur.core = some (tid, tm)
  free : s.cur.checked = true ∨
    firstTrap [seqDecodeTrap s s.cur.core tid tm q i, seqIssueTrap s s.cur.core tm q i] = none

/-- `exec` answers a next state in which the sequencer at the cursor has become a `q'` that meets `P`, and nothing else has changed but
whether the word has set the pc. -/
def SeqBecomes (i : Instr) (s : State) (P : Seq → Prop) : Prop :=
  ∃ t q', exec i s = .next t ∧ t = { s.modSeq s.cur.core (fun _ => q') with cur := t.cur } ∧ SameBytes s t ∧ P q'

/-- An operation `kind` of the sequencer at the cursor issues (R310): it starts at the sequencer's cycle, lands `late` cycles after the
cycles of Table 15.2, and holds its slot for `busy` cycles. -/
def OpIssues (q q' : Seq) (kind : SeqKind) (late slot busy : Nat) : Prop :=
  q' = { q with ops := q.ops ++ [(⟨q.cycle, q.pc, kind, late, 0, [], 0⟩ : SeqOp)], slots := q'.slots } ∧
    ∀ x, Machine.sget 0 q'.slots x = if x = slot then q.cycle + busy else Machine.sget 0 q.slots x

/-- From `s` to `t` only the team `tid` has changed, from `tm` to a `tm'` that meets `P`. -/
def TeamBecomes (s t : State) (tid : Nat) (P : Team → Prop) : Prop :=
  SameBytes s t ∧ t = { s with teams := t.teams } ∧ (∀ u, u ≠ tid → t.team? u = s.team? u) ∧ ∃ tm', t.team? tid = some tm' ∧ P tm'
/-- A team's tile has become `x`, and nothing else of it has changed. -/
def TileSet (tm tm' : Team) (h tile : Nat) (x : TileState) : Prop :=
  tm' = { tm with tiles := tm'.tiles } ∧ tm'.tile h tile = x ∧
    ∀ h' n, 64 * h' + n ≠ 64 * h + tile → tm'.tile h' n = tm.tile h' n

end Sys2Proof.Machine
end

