-- ==== Sys2Proof/Certificates/Slice0/Obligations.lean ====
section
/-! DEFINITION. The statements for the provers, in the terms of Safety.lean, chapter by chapter of the spec. -/

open Sys2Proof Sys2Proof.Machine

/-- R205, Table 10.1, with the 64-bit pairs of R201 and the lanes of R183: the sums, differences and products of two sources, the high
halves, and the lesser and greater. -/
def Obligations.IntegerArithmetic : Prop :=
  TwoSources .add (fun n x y z => z.toNat = (x.toNat + y.toNat) % 2 ^ n) ∧
  TwoSources .sub (fun n x y z => (z.toNat : Int) = ((x.toNat : Int) - y.toNat) % 2 ^ n) ∧
  OneSource .neg (fun n x z => (z.toNat : Int) = (0 - (x.toNat : Int)) % 2 ^ n) ∧
  OneSource .abs (fun n x z => (z.toNat : Int) = (if x.toInt < 0 then 0 - x.toInt else x.toInt) % 2 ^ n) ∧
  TwoSources .mul (fun n x y z => z.toNat = x.toNat * y.toNat % 2 ^ n) ∧
  TwoSources .mulhI (fun n x y z => z.toInt = x.toInt * y.toInt / 2 ^ n) ∧
  TwoSources .mulhN (fun n x y z => z.toNat = x.toNat * y.toNat / 2 ^ n) ∧
  ThreeSources .mad (fun n d x y z => z.toNat = (d.toNat + x.toNat * y.toNat) % 2 ^ n) ∧
  TwoSources .minI (fun _ x y z => z.toInt = min x.toInt y.toInt) ∧
  TwoSources .maxI (fun _ x y z => z.toInt = max x.toInt y.toInt) ∧
  TwoSources .minN (fun _ x y z => z.toNat = min x.toNat y.toNat) ∧
  TwoSources .maxN (fun _ x y z => z.toNat = max x.toNat y.toNat)

/-- R207 and R208: the logical words bit by bit, and MOV. R209: the shifts clamp their count at the width, and ROT takes it modulo the
width. R210: the bit counts and the bit fields. The field of b is clipped at bit w − 1. -/
def Obligations.BitWords : Prop :=
  (TwoSources .and (fun n x y z => ∀ j < n, z.getLsbD j = (x.getLsbD j && y.getLsbD j)) ∧
   TwoSources .or (fun n x y z => ∀ j < n, z.getLsbD j = (x.getLsbD j || y.getLsbD j)) ∧
   TwoSources .xor (fun n x y z => ∀ j < n, z.getLsbD j = (x.getLsbD j != y.getLsbD j)) ∧
   TwoSources .andn (fun n x y z => ∀ j < n, z.getLsbD j = (x.getLsbD j && !y.getLsbD j)) ∧
   OneSource .not (fun n x z => ∀ j < n, z.getLsbD j = !x.getLsbD j) ∧
   OneSource .mov (fun _ x z => z = x)) ∧
  (TwoSources .shl (fun n x c z => z.toNat = if c.toNat < n then x.toNat * 2 ^ c.toNat % 2 ^ n else 0) ∧
   TwoSources .shr (fun n x c z => z.toNat = if c.toNat < n then x.toNat / 2 ^ c.toNat else 0) ∧
   TwoSources .sha (fun n x c z => z.toInt = if c.toNat < n then x.toInt / 2 ^ c.toNat else if x.toInt < 0 then -1 else 0) ∧
   TwoSources .rot (fun n x c z => ∀ j < n, z.getLsbD ((j + c.toNat % n) % n) = x.getLsbD j)) ∧
  (OneSource .clz (fun n x z => z.toNat ≤ n ∧ (∀ j < n, n - z.toNat ≤ j → x.getLsbD j = false) ∧
     (z.toNat < n → x.getLsbD (n - 1 - z.toNat) = true)) ∧
   OneSource .popc (fun n x z => z.toNat = ((List.range n).filter fun j => x.getLsbD j).length) ∧
   OneSource .brev (fun n x z => ∀ j < n, z.getLsbD j = x.getLsbD (n - 1 - j)) ∧
   TwoSources .bfeN (fun n x b z => z.toNat = x.toNat / 2 ^ (b.toNat % 256) % 2 ^ clippedLen n (b.toNat % 256) (b.toNat / 256 % 256)) ∧
   TwoSources .bfeI (fun n x b z =>
     let l := clippedLen n (b.toNat % 256) (b.toNat / 256 % 256)
     let f : Int := (x.toNat / 2 ^ (b.toNat % 256) % 2 ^ l : Nat)
     z.toInt = if l = 0 then 0 else if f < 2 ^ (l - 1) then f else f - 2 ^ l) ∧
   ThreeSources .bfi (fun n d x b z => ∀ j < n, z.getLsbD j =
     if b.toNat % 256 ≤ j ∧ j < b.toNat % 256 + clippedLen n (b.toNat % 256) (b.toNat / 256 % 256)
     then x.getLsbD (j - b.toNat % 256) else d.getLsbD j))

/-- R206 and R207: SETP writes the truth of the comparison, signed or unsigned as encoded, to the predicate's bits of the lanes in which
it acts, and a write to p7 is discarded; SEL takes A where the predicate is 1. R211 to R215: the immediate forms, the constants, the
scaled address and the indices of a lane. -/
def Obligations.CompareSelectAndAddress : Prop :=
  ((∀ g c un wd p a b, WritesPred (.setp g c un wd p a b) g p fun w l =>
     match wd with
     | .w32 => intCompares c un (w.src32 a l) (w.src32 b l)
     | .w64 => intCompares c un (w.src64 a l) (w.src64 b l)) ∧
   (∀ s w v g wd d a b p, Runs s w v (.sel g wd d a b p) →
     WarpBecomes (.sel g wd d a b p) s fun v' =>
       VectorWrite v v' d.toNat wd.regs (w.acts s.cur.slices g) fun l =>
         match wd with
         | .w32 => v'.vget d.toNat l = w.src32 (if w.pred p l then a else b) l
         | .w64 => v'.vpair d.toNat l = w.src64 (if w.pred p l then a else b) l)) ∧
  ((∀ g d a imm, WritesWord (.addi g d a imm) g d fun _ w l z =>
     (z.toNat : Int) = (((w.src32 a l).toNat : Int) + imm.toInt) % 2 ^ 32) ∧
   (∀ g d a imm, WritesWord (.andi g d a imm) g d fun _ w l z =>
     ∀ j < 32, z.getLsbD j = ((w.src32 a l).getLsbD j && imm.getLsbD (min j 7))) ∧
   (∀ g d a imm, WritesWord (.ori g d a imm) g d fun _ w l z =>
     ∀ j < 32, z.getLsbD j = ((w.src32 a l).getLsbD j || imm.getLsbD (min j 7))) ∧
   (∀ g d a imm, WritesWord (.xori g d a imm) g d fun _ w l z =>
     ∀ j < 32, z.getLsbD j = ((w.src32 a l).getLsbD j != imm.getLsbD (min j 7))) ∧
   (∀ c : BitVec 6, OneSource (fun g wd d a => .shli g wd d a c)
     (fun n x z => z.toNat = if c.toNat < n then x.toNat * 2 ^ c.toNat % 2 ^ n else 0)) ∧
   (∀ c : BitVec 6, OneSource (fun g wd d a => .shri g wd d a c)
     (fun n x z => z.toNat = if c.toNat < n then x.toNat / 2 ^ c.toNat else 0)) ∧
   (∀ c : BitVec 6, OneSource (fun g wd d a => .shai g wd d a c)
     (fun n x z => z.toInt = if c.toNat < n then x.toInt / 2 ^ c.toNat else if x.toInt < 0 then -1 else 0)) ∧
   (∀ g d imm, WritesWord (.movi g d imm) g d fun _ _ _ z => z.toInt = imm.toInt) ∧
   (∀ g d imm, WritesWord (.movhi g d imm) g d fun _ w l z =>
     z.toNat = imm.toNat * 2 ^ 15 + (w.vget d.toNat l).toNat % 2 ^ 15) ∧
   (∀ s w v g wd d a b sh, Runs s w v (.lea g wd d a b sh) →
     WarpBecomes (.lea g wd d a b sh) s fun v' =>
       VectorWrite v v' d.toNat wd.regs (w.acts s.cur.slices g) fun l =>
         match wd with
         | .w32 => ((v'.vget d.toNat l).toNat : Int) = ((w.src32 a l).toNat + (w.src32 b l).toInt * 2 ^ sh.toNat) % 2 ^ 32
         | .w64 => ((v'.vpair d.toNat l).toNat : Int) = ((w.src64 a l).toNat + (w.src32 b l).toInt * 2 ^ sh.toNat) % 2 ^ 64) ∧
   (∀ g d e, WritesWord (.idx g d e) g d fun s w l z => z.toNat = laneIndex s w l e % 2 ^ 32))

/-- R222: FADD, FSUB, FMUL, FFMA and FMA3 in each lane and element: the inputs are flushed in, the exact sum or product is rounded once
in the gang's mode, and the result is flushed out. -/
def Obligations.FloatArithmetic : Prop :=
  (∀ g t d a b, FloatWord (.fadd g t d a b) g t d (srcT t a) (srcT t b) noSrc fun md f x y _ z =>
    z = f.write md (sumExact md.rm [f.read md x, f.read md y])) ∧
  (∀ g t d a b, FloatWord (.fsub g t d a b) g t d (srcT t a) (srcT t b) noSrc fun md f x y _ z =>
    z = f.write md (sumExact md.rm [f.read md x, (f.read md y).neg])) ∧
  (∀ g t d a b, FloatWord (.fmul g t d a b) g t d (srcT t a) (srcT t b) noSrc fun md f x y _ z =>
    z = f.write md ((f.read md x).mul (f.read md y))) ∧
  (∀ g t d a b, FloatWord (.ffma g t d a b) g t d (srcT t a) (srcT t b) (srcT t (.v d)) fun md f x y c z =>
    z = f.write md (sumExact md.rm [(f.read md x).mul (f.read md y), f.read md c])) ∧
  (∀ t d a b c, FloatWord (.fma3 t d a b c) .none t d (srcT t a) (srcT t b) (srcT t (.v (c.zeroExtend 7))) fun md f x y c z =>
    z = f.write md (sumExact md.rm [(f.read md x).mul (f.read md y), f.read md c]))

/-- R126: what the rounding is given is exact. The sum of finite terms is their sum as rationals, and the product of two their product;
an exact zero sum is −0 in RDN and +0 in the other modes, unless all its terms are zeros of one sign. R127: the integer nearest m · 2^sh
in each mode. No mode leaves it by 1 or more; RTZ does not pass it, RUP is not below it, RDN not above it, and RNE is within one half
and even at a tie. R232, R135: DOT4 and DOT8. Two integer formats give the exact sum with wraparound; otherwise the products of the
elements' exact values and the addend are summed exactly and rounded once, and a zero product's sign is the product of its factors'
signs, an integer counting as positive. -/
def Obligations.ExactRounding : Prop :=
  ((∀ rm ts, (∀ t ∈ ts, FV.finite t = true) → (sumExact rm ts).finite = true ∧ (sumExact rm ts).rat = (ts.map FV.rat).sum) ∧
   (∀ x y, FV.finite x = true → FV.finite y = true → (x.mul y).finite = true ∧ (x.mul y).rat = x.rat * y.rat) ∧
   (∀ rm ts, (∀ t ∈ ts, FV.finite t = true) → (ts.map FV.rat).sum = 0 →
     (sumExact rm ts).isZero (if ts.all (FV.isZero true) then true else if ts.all (FV.isZero false) then false else rm == .rdn) = true)) ∧
  (∀ rm neg m sh,
     let x : Rat := FV.rat (.fin neg m sh)
     let n : Rat := (if neg then -1 else 1) * (roundInt rm neg m sh false : Nat)
     |n - x| < 1 ∧ (rm = .rtz → |n| ≤ |x|) ∧ (rm = .rup → x ≤ n) ∧ (rm = .rdn → n ≤ x) ∧
       (rm = .rne → |n - x| ≤ 1 / 2 ∧ (|n - x| = 1 / 2 → 2 ∣ roundInt rm neg m sh false))) ∧
  (∀ p ∈ ([(.dot4, 4, 8), (.dot8, 8, 4)] : List ((Guard → VReg → Src → Src → Instr) × Nat × Nat)),
     ∀ s w v g d a b, Runs s w v (p.1 g d a b) →
       WarpBecomes (p.1 g d a b) s fun v' =>
         VectorWrite v v' d.toNat 1 (w.acts s.cur.slices g) fun l =>
           let md := modeOf w s.cur.slices
           let fa := (fmtOf w s.cur.slices).toNat % 16
           let fb := (fmtOf w s.cur.slices).toNat / 16 % 16
           let el (x : Word) (k : Nat) : Nat := x.toNat / 2 ^ (p.2.2 * k) % 2 ^ p.2.2
           let x := w.src32 a l
           let y := w.src32 b l
           let c := w.vget d.toNat l
           let z := v'.vget d.toNat l
           let ks := List.range p.2.1
           if (dotInt fa 0).isSome ∧ (dotInt fb 0).isSome then
             (z.toNat : Int) = (c.toInt + (ks.map fun k => (dotInt fa (el x k)).getD 0 * (dotInt fb (el y k)).getD 0).sum) % 2 ^ 32
           else
             z.toNat = f32.write md (sumExact md.rm (f32.read md c.toNat :: ks.map fun k => dotProduct fa fb (el x k) (el y k))))

/-- R224, R227: the lesser and the greater with −0 below +0 and the canonical NaN for a NaN, the sign bit cleared or inverted, and the
integral value in MODE's mode or the form's own. R225, R226: FSETP writes the truth of the comparison of the flushed values, false for a
NaN but in ne and unord; FCLASS sets one class bit for each element, from its raw bits. -/
def Obligations.FloatSelectRoundCompare : Prop :=
  ((∀ g t d a b, FloatWord (.fmin g t d a b) g t d (srcT t a) (srcT t b) noSrc fun md f x y _ z =>
     let p := f.flush md.fin x
     let q := f.flush md.fin y
     z = f.flush md.fout (if f.isNan p || f.isNan q then f.nan else if (f.value q).below (f.value p) then q else p)) ∧
   (∀ g t d a b, FloatWord (.fmax g t d a b) g t d (srcT t a) (srcT t b) noSrc fun md f x y _ z =>
     let p := f.flush md.fin x
     let q := f.flush md.fin y
     z = f.flush md.fout (if f.isNan p || f.isNan q then f.nan else if (f.value p).below (f.value q) then q else p)) ∧
   (∀ g t d a, FloatWord (.fabs g t d a) g t d (srcT t a) noSrc noSrc fun _ f x _ _ z => z = x % 2 ^ (f.width - 1)) ∧
   (∀ g t d a, FloatWord (.fneg g t d a) g t d (srcT t a) noSrc noSrc fun _ f x _ _ z =>
     z = if x < 2 ^ (f.width - 1) then x + 2 ^ (f.width - 1) else x - 2 ^ (f.width - 1)) ∧
   (∀ g rm t d a, FloatWord (.frnd g rm t d a) g t d (srcT t a) noSrc noSrc fun md f x _ _ z =>
     let m : Rm := match rm with
       | .mode => md.rm
       | .rtz => .rtz
       | .rup => .rup
       | .rdn => .rdn
     z = f.flush md.fout (f.round m ((f.read md x).integral m)))) ∧
  ((∀ s w v g c wd p a b, Runs s w v (.fsetp g c wd p a b) →
     WarpBecomes (.fsetp g c wd p a b) s fun v' =>
       PredResult v v' p (w.acts s.cur.slices g) fun l =>
         let f := match wd with
           | .w32 => f32
           | .w64 => f64
         let x := f.read (modeOf w s.cur.slices) (w.srcW wd a l).toNat
         let y := f.read (modeOf w s.cur.slices) (w.srcW wd b l).toNat
         let un := x.isNan || y.isNan
         match c with
         | .eq => !un && x.eq y
         | .ne => un || !x.eq y
         | .lt => !un && x.lt y
         | .le => !un && (x.lt y || x.eq y)
         | .gt => !un && y.lt x
         | .ge => !un && (y.lt x || x.eq y)
         | .ord => !un
         | .unord => un) ∧
   (∀ g t d a, WritesWord (.fclass g t d a) g d fun _ w l z =>
     let x := srcT t a w l
     let bit (f : Fmt) (x : Nat) : Nat :=
       if f.isNan x then 256
       else match f.value x with
         | .inf true => 1
         | .inf false => 128
         | .fin true 0 _ => 8
         | .fin false 0 _ => 16
         | .fin neg m _ => if m < 2 ^ f.mbits then (if neg then 4 else 32) else (if neg then 2 else 64)
         | .nan => 256
     match t with
     | .f32 => z.toNat = bit f32 x.toNat
     | .f64 => z.toNat = bit f64 x.toNat
     | .f16x2 => z.toNat = bit f16 (x.toNat % 2 ^ 16) + 2 ^ 16 * bit f16 (x.toNat / 2 ^ 16 % 2 ^ 16)
     | .bf16x2 => z.toNat = bit bf16 (x.toNat % 2 ^ 16) + 2 ^ 16 * bit bf16 (x.toNat / 2 ^ 16 % 2 ^ 16)))

/-- R228, R229: CVT. An integer source is read from the low bits; a result is saturated to an integer type's range or rounded in MODE.RM
to a floating type, and fills the low bits of its register, sign-extended for a signed type and with zeros for every other. R230: PACK
moves the low elements of its sources into d: two of 16 bits side by side, two of 8 bits above the upper half of d, two of 4 bits above
the upper 24 bits of d. -/
def Obligations.ConversionsAndPacks : Prop :=
  (∀ s w v g td ts d a, cvtPair td ts = true → Runs s w v (.cvt g td ts d a) →
     WarpBecomes (.cvt g td ts d a) s fun v' =>
       VectorWrite v v' d.toNat td.regs (w.acts s.cur.slices g) fun l =>
         let md := modeOf w s.cur.slices
         let x : Nat := (w.srcW (if ts.regs = 2 then .w64 else .w32) a l).toNat
         let intSrc (n : Nat) (sg : Bool) : Int :=
           let y := x % 2 ^ n
           if sg && decide (2 ^ (n - 1) ≤ y) then (y : Int) - 2 ^ n else y
         let least (n : Nat) (sg : Bool) : Int := if sg then -2 ^ (n - 1) else 0
         let most (n : Nat) (sg : Bool) : Int := if sg then 2 ^ (n - 1) - 1 else 2 ^ n - 1
         let float (f : Fmt) (y : Nat) : FV := f.read md (y % 2 ^ f.width)
         let isValue (z : Int) : Prop :=
           if td.regs = 2 then v'.vpair d.toNat l = BitVec.ofInt 64 z else v'.vget d.toNat l = BitVec.ofInt 32 z
         match td.int?, ts.int? with
         | some (n, sg), some (k, tg) => isValue (max (least n sg) (min (most n sg) (intSrc k tg)))
         | some (n, sg), none => isValue ((float (CvtTy_fmt ts) x).toInt md.rm (least n sg) (most n sg))
         | none, some (k, tg) =>
           isValue ((CvtTy_fmt td).write md (.fin (decide (intSrc k tg < 0)) (intSrc k tg).natAbs 0) : Nat)
         | none, none =>
           if td.isPacked then
             isValue (((CvtTy_fmt td).write md (float (CvtTy_fmt ts) x) +
               2 ^ 16 * (CvtTy_fmt td).write md (float (CvtTy_fmt ts) (x / 2 ^ 16)) : Nat))
           else isValue ((CvtTy_fmt td).write md (float (CvtTy_fmt ts) x) : Nat)) ∧
  (∀ g t d a b, WritesWord (.pack g t d a b) g d fun _ w l z =>
     let x := w.src32 a l
     let y := w.src32 b l
     let e := w.vget d.toNat l
     match t with
     | .f16x2 | .bf16x2 => z.extractLsb' 0 16 = x.extractLsb' 0 16 ∧ z.extractLsb' 16 16 = y.extractLsb' 0 16
     | .i8 | .n8 | .f8e4 | .f8e5 =>
       z.extractLsb' 0 16 = e.extractLsb' 16 16 ∧ z.extractLsb' 16 8 = x.extractLsb' 0 8 ∧ z.extractLsb' 24 8 = y.extractLsb' 0 8
     | .i4 | .n4 | .f4e2 =>
       z.extractLsb' 0 24 = e.extractLsb' 8 24 ∧ z.extractLsb' 24 4 = x.extractLsb' 0 4 ∧ z.extractLsb' 28 4 = y.extractLsb' 0 4)

/-- R231, R136: the special functions take a flushed FP32 input and flush their FP32 result; a form with an FP16 result rounds it once
more, into bits 15:0 with zeros above. Table 5.4: the special inputs of the special functions. Table 5.4 and R137: the ranges in which
EXP2 overflows and underflows, and the values from which TANH and LOGIS return their limits. Where the rules leave it open the statement
takes the model's own reading, of log entry 13. -/
def Obligations.SpecialFunctions : Prop :=
  (∀ p ∈ ([(.exp2, exp2V), (.log2, log2V), (.rcp, rcpV), (.rsqrt, rsqrtV), (.tanh, tanhV), (.logis, logisV)] :
       List ((Guard → Bool → VReg → Src → Instr) × (FV → Nat))),
     ∀ s w v g h d a, Runs s w v (p.1 g h d a) →
       WarpBecomes (p.1 g h d a) s fun v' =>
         VectorWrite v v' d.toNat 1 (w.acts s.cur.slices g) fun l =>
           let md := modeOf w s.cur.slices
           let r := f32.flush md.fout (p.2 (f32.read md (w.src32 a l).toNat))
           (v'.vget d.toNat l).toNat = if h then f16.round .rne (f32.value r) else r) ∧
  ((∀ f ∈ [exp2V, log2V, rcpV, rsqrtV, tanhV, logisV], f .nan = 0x7FC00000) ∧
   (exp2V (.inf true) = 0 ∧ exp2V (.inf false) = 0x7F800000) ∧
   (∀ neg e, log2V (.fin neg 0 e) = 0xFF800000) ∧
   (∀ m e, 0 < m → log2V (.fin true m e) = 0x7FC00000) ∧
   (log2V (.inf true) = 0x7FC00000 ∧ log2V (.inf false) = 0x7F800000) ∧
   (∀ e, rcpV (.fin false 0 e) = 0x7F800000 ∧ rcpV (.fin true 0 e) = 0xFF800000) ∧
   (rcpV (.inf false) = 0 ∧ rcpV (.inf true) = 0x80000000) ∧
   (∀ e, rsqrtV (.fin false 0 e) = 0x7F800000 ∧ rsqrtV (.fin true 0 e) = 0xFF800000) ∧
   (∀ m e, 0 < m → rsqrtV (.fin true m e) = 0x7FC00000) ∧
   (rsqrtV (.inf true) = 0x7FC00000 ∧ rsqrtV (.inf false) = 0) ∧
   (∀ e, tanhV (.fin false 0 e) = 0 ∧ tanhV (.fin true 0 e) = 0x80000000) ∧
   (tanhV (.inf false) = 0x3F800000 ∧ tanhV (.inf true) = 0xBF800000) ∧
   (logisV (.inf false) = 0x3F800000 ∧ logisV (.inf true) = 0)) ∧
  ((∀ neg m e, 128 ≤ (FV.fin neg m e).rat → exp2V (.fin neg m e) = 0x7F800000) ∧
   (∀ neg m e, (FV.fin neg m e).rat ≤ -151 → exp2V (.fin neg m e) = 0) ∧
   (∀ m e, 19 / 2 ≤ (FV.fin false m e).rat → tanhV (.fin false m e) = 0x3F800000 ∧ tanhV (.fin true m e) = 0xBF800000) ∧
   (∀ neg m e, 18 ≤ (FV.fin neg m e).rat → logisV (.fin neg m e) = 0x3F800000) ∧
   (∀ neg m e, (FV.fin neg m e).rat ≤ -105 → logisV (.fin neg m e) = 0))

/-- R216: the scalar words execute once and give the sum, difference, low 64 bits of the product, bitwise results and shifts of R209 at
64 bits. R217: the scalar immediates, SLEA, and SSETP, whose result goes to the predicate's bit of every active lane of the gang. -/
def Obligations.ScalarWords : Prop :=
  ((∀ g d a b, WritesScalar (.sadd g d a b) g d fun _ w z => z.toNat = ((w.sget a).toNat + (w.sget b).toNat) % 2 ^ 64) ∧
   (∀ g d a b, WritesScalar (.ssub g d a b) g d fun _ w z =>
     (z.toNat : Int) = (((w.sget a).toNat : Int) - (w.sget b).toNat) % 2 ^ 64) ∧
   (∀ g d a b, WritesScalar (.smul g d a b) g d fun _ w z => z.toNat = (w.sget a).toNat * (w.sget b).toNat % 2 ^ 64) ∧
   (∀ g d a b, WritesScalar (.sand g d a b) g d fun _ w z =>
     ∀ j < 64, z.getLsbD j = ((w.sget a).getLsbD j && (w.sget b).getLsbD j)) ∧
   (∀ g d a b, WritesScalar (.sor g d a b) g d fun _ w z =>
     ∀ j < 64, z.getLsbD j = ((w.sget a).getLsbD j || (w.sget b).getLsbD j)) ∧
   (∀ g d a b, WritesScalar (.sxor g d a b) g d fun _ w z =>
     ∀ j < 64, z.getLsbD j = ((w.sget a).getLsbD j != (w.sget b).getLsbD j)) ∧
   (∀ g d a b, WritesScalar (.sshl g d a b) g d fun _ w z =>
     let c := (w.sget b).toNat
     z.toNat = if c < 64 then (w.sget a).toNat * 2 ^ c % 2 ^ 64 else 0) ∧
   (∀ g ar d a b, WritesScalar (.sshr g ar d a b) g d fun _ w z =>
     let c := (w.sget b).toNat
     if ar then z.toInt = if c < 64 then (w.sget a).toInt / 2 ^ c else if (w.sget a).toInt < 0 then -1 else 0
     else z.toNat = if c < 64 then (w.sget a).toNat / 2 ^ c else 0)) ∧
  ((∀ g d a imm, WritesScalar (.saddi g d a imm) g d fun _ w z =>
     (z.toNat : Int) = (((w.sget a).toNat : Int) + imm.toInt) % 2 ^ 64) ∧
   (∀ g d imm, WritesScalar (.smovi g d imm) g d fun _ _ z => z.toInt = imm.toInt) ∧
   (∀ g d a sh, WritesScalar (.slea g d a sh) g d fun _ w z =>
     z.toNat = ((w.sget d).toNat + (w.sget a).toNat * 2 ^ sh.toNat) % 2 ^ 64) ∧
   (∀ s w v g c p a imm, Runs s w v (.ssetp g c p a imm) →
     WarpBecomes (.ssetp g c p a imm) s fun v' =>
       PredResult v v' p (fun l => w.actsOnce s.cur.slices g && w.inGang s.cur.slices l) fun _ =>
         let x := w.sget a
         match c with
         | .eq => decide (x.toInt = imm.toInt)
         | .ne => decide (x.toInt ≠ imm.toInt)
         | .lt => decide (x.toInt < imm.toInt)
         | .le => decide (x.toInt ≤ imm.toInt)
         | .gt => decide (imm.toInt < x.toInt)
         | .ge => decide (imm.toInt ≤ x.toInt)
         | .ltu => decide ((x.toNat : Int) < imm.toInt % 2 ^ 64)
         | .geu => decide (imm.toInt % 2 ^ 64 ≤ (x.toNat : Int))))

/-- R218: READLANE, WRITELANE and BCAST take lane L = sb mod W, as the bundle found it. R266 to R268: SHFL, COMPRESS, EXPAND, SLIDEUP
and SLIDEDN move the raw contents of lanes, read as the bundle found them; a lane without a source keeps its value. R269 and R270: the
votes and the reductions over the lanes whose guard is true. A ballot and a reduction write sd in every case, a reduction over no lane
its identity; signed results are sign-extended. -/
def Obligations.LaneWords : Prop :=
  ((∀ g d a b, WritesScalar (.readlane g d a b) g d fun _ w z =>
     z.toNat = (w.vget a.toNat ((w.sget b).toNat % w.width)).toNat) ∧
   (∀ s w v g d a b, Runs s w v (.writelane g d a b) →
     WarpBecomes (.writelane g d a b) s fun v' =>
       VectorWrite v v' d.toNat 1 (fun l => decide (l = (w.sget b).toNat % w.width) && w.acts s.cur.slices g l) fun l =>
         (v'.vget d.toNat l).toNat = (w.sget a).toNat % 2 ^ 32) ∧
   (∀ g d a b, WritesWord (.bcast g d a b) g d fun _ w _ z => z = w.vget a.toNat ((w.sget b).toNat % w.width))) ∧
  ((∀ s w v g m wd d a b, Runs s w v (.shfl g m wd d a b) →
     WarpBecomes (.shfl g m wd d a b) s fun v' =>
       VectorWrite v v' d.toNat wd.regs (w.acts s.cur.slices g) fun l =>
         let k := (w.src32 b l).toNat
         let src : Nat := match m with
           | .idx => k % w.width
           | .up => (((l : Int) - k) % w.width).toNat
           | .down => (l + k) % w.width
           | .xor => (l ^^^ k) % w.width
         match wd with
         | .w32 => v'.vget d.toNat l = w.vget a.toNat src
         | .w64 => v'.vpair d.toNat l = w.vpair a.toNat src) ∧
   (∀ s w v g d a p, Runs s w v (.compress g d a p) →
     let set : List Nat := (List.range w.width).filter (w.pred p)
     WarpBecomes (.compress g d a p) s fun v' =>
       VectorWrite v v' d.toNat 1 (fun l => w.acts s.cur.slices g l && decide (l < set.length)) fun l =>
         ∃ j, set[l]? = some j ∧ v'.vget d.toNat l = w.vget a.toNat j) ∧
   (∀ s w v g d a p, Runs s w v (.expand g d a p) →
     WarpBecomes (.expand g d a p) s fun v' =>
       VectorWrite v v' d.toNat 1 (fun l => w.acts s.cur.slices g l && w.pred p l) fun l =>
         v'.vget d.toNat l = w.vget a.toNat ((List.range l).filter (w.pred p)).length) ∧
   (∀ s w v g d a b, Runs s w v (.slideup g d a b) →
     WarpBecomes (.slideup g d a b) s fun v' =>
       VectorWrite v v' d.toNat 1 (fun l => w.acts s.cur.slices g l && decide ((w.sget b).toNat ≤ l)) fun l =>
         v'.vget d.toNat l = w.vget a.toNat (l - (w.sget b).toNat)) ∧
   (∀ s w v g d a b, Runs s w v (.slidedn g d a b) →
     WarpBecomes (.slidedn g d a b) s fun v' =>
       VectorWrite v v' d.toNat 1 (fun l => w.acts s.cur.slices g l && decide (l + (w.sget b).toNat < w.width)) fun l =>
         v'.vget d.toNat l = w.vget a.toNat (l + (w.sget b).toNat))) ∧
  ((∀ s w v g p q, Runs s w v (.voteAny g p q) →
     WarpBecomes (.voteAny g p q) s fun v' =>
       PredResult v v' p (w.acts s.cur.slices g) fun _ => decide (∃ l < w.width, w.acts s.cur.slices g l = true ∧ w.pred q l = true)) ∧
   (∀ s w v g p q, Runs s w v (.voteAll g p q) →
     WarpBecomes (.voteAll g p q) s fun v' =>
       PredResult v v' p (w.acts s.cur.slices g) fun _ => decide (∀ l < w.width, w.acts s.cur.slices g l = true → w.pred q l = true)) ∧
   (∀ s w v g d q, Runs s w v (.voteBallot g d q) →
     WarpBecomes (.voteBallot g d q) s fun v' =>
       ScalarWrite v v' d true (∀ l < 64, (v'.sget d).getLsbD l = (w.acts s.cur.slices g l && w.pred q l))) ∧
   (∀ s w v d, ∀ p ∈ reductions, ∀ g a, Runs s w v (p.1 g d a) →
     WarpBecomes (p.1 g d a) s fun v' =>
       ScalarWrite v v' d true (p.2 ((w.actLanes s.cur.slices g).map (w.vget a.toNat)) (v'.sget d))))

/-- R49: p7 reads as all ones in every lane, a write to p7 is discarded, and a branch on p7 with its negation bit clear is
unconditional. -/
def Obligations.PredicateSeven : Prop :=
  (∀ (w : Warp) l, w.pred 7 l = true) ∧
  (∀ s w v g c un wd a b, Runs s w v (.setp g c un wd 7 a b) → WarpBecomes (.setp g c un wd 7 a b) s fun v' => v' = v) ∧
  ∀ s w v acc off, Runs s w v (.bra acc 7 false off) → w.width ≤ 64 → w.width % 4 = 0 → s.cur.slices ≠ 0 →
    (∀ j < 16, s.cur.slices.getLsbD j = true → ∃ l, 4 * j ≤ l ∧ l < 4 * j + 4 ∧ l < w.width ∧ w.active.getLsbD l = true) →
    ∃ t v', exec (.bra acc 7 false off) s = .next t ∧ Transfers s t v v' 0 ∧ v'.s = v.s ∧
      GangSlices s v v' fun _ x => x.goTo (s.cur.pc + BitVec.ofInt 64 (4 * off.toInt))

/-- R234, R235: the lane-path words of the Recorder. The row is v(A) of the acting lanes, ascending, or for .bf16 its two halves; every
acting lane gets the results: RSUM the exact sum rounded once to nearest even (R139), RSUMEXP from the pair of the lowest acting lane
(R140), RNORM of the lane's own mean, variance and epsilon (R142). R139 to R141: RMAX is the canonical NaN for a row with a NaN, and
otherwise an element below which no other stands, −0 being below +0; RSUMEXP gives NaN for a NaN, and for a fresh row of −infinity alone
−infinity and +0; the variance of a row of finite numbers never has its sign set, and that of a row with an infinity or a NaN is the
canonical NaN. -/
def Obligations.RecorderWords : Prop :=
  ((∀ g bf d a la, RecorderWord (.rmax g bf d a la) g bf d a la 1 fun _ row _ _ => [recMax row]) ∧
   (∀ g bf d a la, RecorderWord (.rsum g bf d a la) g bf d a la 1 fun _ row _ _ =>
     [f32.round .rne (sumExact .rne (row.map f32.value))]) ∧
   (∀ g bf d a la, RecorderWord (.rsumexp g bf d a la) g bf d a la 2 fun w row lanes _ =>
     let r := recSumExp (w.vget d.toNat (lanes.headD 0)).toNat (w.vget (d.toNat + 1) (lanes.headD 0)).toNat row
     [r.1, r.2]) ∧
   (∀ g bf d a la, RecorderWord (.rmeanvar g bf d a la) g bf d a la 2 fun _ row _ _ => [(recMeanVar row).1, (recMeanVar row).2]) ∧
   (∀ g d a la, RecorderWord (.rnorm g d a la) g false d a la 1 fun w _ _ l =>
     let r := rsqrtV (f32.value (f32.add .plain (w.vget (d.toNat + 1) l).toNat (w.vget (d.toNat + 2) l).toNat))
     let dev := sumExact .rne [f32.value (w.vget a.toNat l).toNat, (f32.value (w.vget d.toNat l).toNat).neg]
     [f32.round .rne (dev.mul (f32.value r))])) ∧
  ((∀ xs : List Nat, (∃ x ∈ xs, f32.isNan x = true) → recMax xs = f32.nan) ∧
   (∀ xs : List Nat, xs ≠ [] → (∀ x ∈ xs, f32.isNan x = false) →
     recMax xs ∈ xs ∧ ∀ x ∈ xs, (f32.value (recMax xs)).below (f32.value x) = false) ∧
   (∀ m s (xs : List Nat), (f32.isNan m || f32.isNan s || xs.any f32.isNan) = true → recSumExp m s xs = (f32.nan, f32.nan)) ∧
   (∀ n, recSumExp 0xFF800000 0 (List.replicate n 0xFF800000) = (0xFF800000, 0)) ∧
   (∀ xs : List Nat, xs ≠ [] → (∀ x ∈ xs, (f32.value x).finite = true) → (recMeanVar xs).2 < 2 ^ 31) ∧
   (∀ xs : List Nat, (∃ x ∈ xs, (f32.value x).finite = false) → (recMeanVar xs).2 = f32.nan))

/-- R143: the k first places of a row's ranking: elements with their own indices, each before the next, the larger value first, equal
values by index and NaNs last by index; whatever is left out ranks after every place. R237, R238: TOPK executes once; the device asks
for the pages of its row and of its two areas, and the word is in flight and last in its core's queue, with the runs of its row, values
and indices and the count min(K, N). The event that starts its reads is `topkStart`. Where the rules leave it open the statement takes
the model's own reading, of log entry 56. -/
def Obligations.Topk : Prop :=
  (∀ (f : Fmt) (xs : List Nat) (k : Nat), f = f32 ∨ f = bf16 →
     let before (a b : Nat × Nat) : Prop :=
       if f.isNan a.1 then f.isNan b.1 = true ∧ a.2 < b.2
       else f.isNan b.1 = true ∨ (f.value b.1).lt (f.value a.1) = true ∨ ((f.value a.1).lt (f.value b.1) = false ∧ a.2 < b.2)
     let ps := rankRow f xs k
     ps.length = min k xs.length ∧ (∀ p ∈ ps, xs[p.2]? = some p.1) ∧ ps.Pairwise before ∧
       ∀ i x, xs[i]? = some x → (x, i) ∉ ps → ∀ p ∈ ps, before p (x, i)) ∧
  ((∀ s w v g bf d a la, Runs s w v (.topk g bf d a la) →
     ∃ t, exec (.topk g bf d a la) s = .next t ∧
       if w.actsOnce s.cur.slices g = false then t = s
       else
         let c := s.ctxNo w
         let sz := if bf then 2 else 4
         let n := (w.sget (a + 3)).toNat % 2 ^ 21
         let k := min ((w.sget (a + 3)).toNat / 2 ^ 32 % 2 ^ 9) n
         let at_ (r : SReg) : Nat := (w.sget r).toNat
         ∃ s1, s1 = ((s.askSpan c (at_ a) (n * sz) false).askSpan c (at_ (a + 1)) (k * sz) true).askSpan c (at_ (a + 2)) (4 * k) true ∧
           let q := (s1.core s.cur.core).topkQ
           Flies (s1.modCore s.cur.core fun cr => { cr with topkQ := q ++ [(s.cur.slot, s1.nextId)] }) t [.s d.toNat] la []
             (.topk bf n k q.isEmpty (s1.runs c (at_ a) (n * sz)) (s1.laxRuns c (at_ (a + 1)) (k * sz))
               (s1.laxRuns c (at_ (a + 2)) (4 * k)))) ∧
   (∀ core s, ∃ t, exec (.topkStart core) s = .next t ∧ SameBytes s t ∧
     (((s.core core).topkQ = [] → t = s) ∧
       ∀ slot id r w, (s.core core).topkQ = (slot, id) :: r → s.warp? core slot = some w →
         ∃ w', t = s.setWarp core slot w' ∧ w' = { w with pending := w'.pending } ∧
           ∀ p ∈ w.pending, p.id = id → ∀ bf n c st row val idx, p.op = .topk bf n c st row val idx →
             { p with op := .topk bf n c true row val idx } ∈ w'.pending)))

/-- R245, R246, R248, R249, R456: an unmarked load issues with the location of each acting lane: LD and LDS at unit stride, the strong
and .bx forms at their base, LDS in the core's scratchpad, .bx through the table of the page (R93), .bfx through its bit-field pattern
(R97). With pending bits an LDS is performed as it issues (R85). On the hub control core the lanes of an LD.n64 at a BAR0 register read
that register, as one word more in flight. R245, R246, R249, R456: a store word issues the stores of its acting lanes, in ascending lane
order, with the bytes of each lane's group. On the hub control core the lanes of an ST.n64 at a BAR0 register write that register, in
ascending order, after them. Where the rules leave it open the statement takes the model's own reading, of log entries 15, 18. -/
def Obligations.AccessesIssue : Prop :=
  ((∀ gp sz d base off la s w v, Runs s w v (.ld false gp sz d base off la) →
     let lanes := w.actLanes s.cur.slices ⟨false, gp⟩
     let reg (l : Nat) : Bool := hubRegister s.cur.core (unitStride w base off sz.bytes l)
     sz = .w64 ∨ (∀ l ∈ lanes, reg l = false) →
     ∃ t t1, exec (.ld false gp sz d base off la) s = .next t ∧
       Loads s t1 d sz.regs la none sz.bytes sz.signed
         (s.laneAccess (s.ctxNo w) (unitStride w base off sz.bytes) (lanes.filter fun l => !reg l)) ∧
       if lanes.filter reg = [] then t = t1
       else ∃ vs, Flies t1 t (destsV d.toNat 2) la (lanes.filter reg) (.values vs) ∧ ∀ r l x, (r, l, x) ∈ vs ↔ l ∈ lanes.filter reg ∧
         let y := s.readReg ((unitStride w base off 8 l).toNat - 0xF000000000)
         ((r = d.toNat ∧ x.toNat = y.toNat % 2 ^ 32) ∨ (r = d.toNat + 1 ∧ x.toNat = y.toNat / 2 ^ 32))) ∧
   (∀ gp acq wd sc d base la s w v, Runs s w v (.ldStrong gp acq wd sc d base la) →
     ∃ t, exec (.ldStrong gp acq wd sc d base la) s = .next t ∧
       Loads s t d wd.regs la (if acq then some sc else none) (4 * wd.regs) false
         (s.laneAccess (s.ctxNo w) (unitStride w base 0 (4 * wd.regs)) (w.actLanes s.cur.slices ⟨false, gp⟩))) ∧
   (∀ gp sz d base off la s w v, Runs s w v (.lds false gp sz d base off la) →
     let xs := s.laneSpad s.cur.core w.grid (unitStride w base off sz.bytes) (w.actLanes s.cur.slices ⟨false, gp⟩)
     ∃ t t1, exec (.lds false gp sz d base off la) s = .next t ∧ Loads s t1 d sz.regs la none sz.bytes sz.signed xs ∧
       t = if xs ≠ [] ∧ (∃ g, s.grid? w.grid = some g ∧ g.lr.spdbg = true) then t1.readNow s.cur.core s.cur.slot (t1.nextId - 1)
         else t1) ∧
   (∀ gp wd d base la s w v, Runs s w v (.ldBx false gp wd d base la) →
     ∃ t, exec (.ldBx false gp wd d base la) s = .next t ∧
       Loads s t d wd.regs la none (4 * wd.regs) false
         (s.laneBx (agentOf s.cur.core s.cur.slot) (s.ctxNo w) (4 * wd.regs) (unitStride w base 0 (4 * wd.regs))
           (w.actLanes s.cur.slices ⟨false, gp⟩))) ∧
   (∀ gp k d base la s w v, Runs s w v (.ldBfx false gp k d base la) →
     ∃ t, exec (.ldBfx false gp k d base la) s = .next t ∧
       let pat := Machine.sget 0 w.bx k.toNat
       let lanes := w.actLanes s.cur.slices ⟨false, gp⟩
       let fs := s.laneFields (s.ctxNo w) (bxPat pat) (unitStride w base 0 4) lanes
       let as_ := s.laneNeeds (s.ctxNo w) (bxPat pat) (unitStride w base 0 4) lanes
       let s1 := (s.settleAccess (Fetch.fields pat fs as_).access).askAll false as_
       if fs = [] then t = s1 else Flies s1 t (destsV d.toNat 1) la (fs.map (·.1)) (.bfx pat fs))) ∧
  ((∀ gp sz d base off s w v, Runs s w v (.st gp sz d base off) →
     let lanes := w.actLanes s.cur.slices ⟨false, gp⟩
     let reg (l : Nat) : Bool := hubRegister s.cur.core (unitStride w base off sz.bytes l)
     ∃ t1, Stores s t1 none false d sz.bytes w
         (s.laneAccess (s.ctxNo w) (unitStride w base off sz.bytes) (lanes.filter fun l => !reg l)) ∧
       exec (.st gp sz d base off) s = .next ((lanes.filter reg).foldl
         (fun u l => u.writeReg ((unitStride w base off sz.bytes l).toNat - 0xF000000000) (w.vpair d.toNat l)) t1)) ∧
   (∀ gp rel wd sc d base s w v, Runs s w v (.stStrong gp rel wd sc d base) →
     ∃ t, exec (.stStrong gp rel wd sc d base) s = .next t ∧
       Stores s t (some sc) rel d (4 * wd.regs) w
         (s.laneAccess (s.ctxNo w) (unitStride w base 0 (4 * wd.regs)) (w.actLanes s.cur.slices ⟨false, gp⟩))) ∧
   (∀ gp sz d base off s w v, Runs s w v (.sts gp sz d base off) →
     ∃ t, exec (.sts gp sz d base off) s = .next t ∧
       Stores s t none false d sz.bytes w
         (s.laneSpad s.cur.core w.grid (unitStride w base off sz.bytes) (w.actLanes s.cur.slices ⟨false, gp⟩))))

/-- R187, R188, R243, R101: a load lands that no earlier word in flight must precede. Each lane's registers get the words of the bytes
as its agent sees them, zero- or sign-extended below 32 bits; the word is no longer in flight, and no byte, other register or other warp
changes. `xs` are the load's lanes and locations. A load that was performed before lands what it read then. R101 to R103, R110: a store
in flight is seen at once by its own agent, in its own bytes and no others, and by no other agent; when it may rise, one level more sees
it, but for the domains of an SI or RO line that hold an older copy; a reduction becomes, at the level of its site, the store of its
result; and at the last a store is performed, and exactly its bytes of memory take its values. Where the rules leave it open the
statement takes the model's own reading, of log entries 15, 17, 18. -/
def Obligations.AccessesLand : Prop :=
  ((∀ (s : State) (core slot : Nat) (w : Warp) (p : Pending) (size : Nat) (sx : Bool) (d n : Nat) (xs : List (Nat × Nat)),
     s.warp? core slot = some w → w.pending.find? (fun q => q.id == p.id) = some p →
     w.partsOf p (BitVec.allOnes 64) = [(p, BitVec.allOnes 64)] → p.op = .load size sx none xs → p.got = [] →
     p.dests = destsV d n → n = wordsOf size → (xs.map (·.1)).Nodup → (∀ q ∈ s.pend, q.op.isRed = false) →
     (∀ x ∈ xs, x.1 < 64 ∧ w.alive.getLsbD (x.1 / 4) = true ∧ s.reach core x.2 false true ≠ .dead ∧ s.blocked core x.2 false = false ∧
       s.poisoned x.2 size = false) →
     ∃ t w', exec (.longLatencyLanding core slot p.id) s = .next t ∧ t = s.setWarp core slot w' ∧
       w' = { w with v := w'.v, pending := w.pending.filter fun q => q.id != p.id } ∧ SameBytes s t ∧
       (∀ x ∈ xs, ∀ j < n,
         let bs := s.seen (agentOf core slot) x.2 size
         let y := w'.vget (d + j) x.1
         if size < 4 then (if sx then y.toInt = (BitVec.ofNat (8 * size) (ofBytes bs).toNat).toInt else y.toNat = (ofBytes bs).toNat)
         else ∀ b < 4, some (y.extractLsb' (8 * b) 8) = bs[4 * j + b]?) ∧
       ∀ r l, l < 64 → (r < d ∨ d + n ≤ r ∨ l ∉ xs.map (·.1)) → w'.vget r l = w.vget r l) ∧
   ∀ (s : State) (core slot : Nat) (w : Warp) (p : Pending) (size : Nat) (sx : Bool),
     s.warp? core slot = some w → w.pending.find? (fun q => q.id == p.id) = some p →
     w.partsOf p (BitVec.allOnes 64) = [(p, BitVec.allOnes 64)] → p.op = .load size sx none [] →
     (p.got.map fun x => (x.1, x.2.1)).Nodup → (∀ x ∈ p.got, x.2.1 < 64) →
     ∃ t w', exec (.longLatencyLanding core slot p.id) s = .next t ∧ t = s.setWarp core slot w' ∧
       w' = { w with v := w'.v, pending := w.pending.filter fun q => q.id != p.id } ∧ SameBytes s t ∧
       (∀ r l x, (r, l, x) ∈ p.got → w'.vget r l = if w.alive.getLsbD (l / 4) then x else w.vget r l) ∧
       ∀ r l, l < 64 → (∀ x, (r, l, x) ∉ p.got) → w'.vget r l = w.vget r l) ∧
  ((∀ (s : State) a thr strong rel si loc bs,
     let t := s.store a thr 0 strong rel si (.bytes loc bs)
     SameBytes s t ∧ t.seen a loc bs.length = bs ∧
       (∀ x n, (x + n ≤ loc ∨ loc + bs.length ≤ x) → t.seen a x n = s.seen a x n) ∧
       ∀ b x n, b ≠ a → t.seen b x n = s.seen b x n) ∧
   (∀ (s : State) id late p, s.pend.find? (fun q => q.id == id) = some p → s.canRise p = true → p.lastRise = false →
     s.riseBlocked p = false →
     let own := s.domOf (agentCore p.agent)
     let held := (p.late ++ if s.lax p then late.filter (· != own) else []).eraseDups
     let rises (op : StoreOp) : Prop := exec (.storePerformed id late) s =
       .next { s with pend := s.pend.filter (fun q => q.id != id) ++ [{ p with level := p.level + 1, late := held, op := op }] }
     (p.op.isRed = false → rises p.op) ∧
       ∀ loc o b, p.op = .red loc o b →
         let old := ofBytes (s.atHome loc (atomSize o))
         (p.site ≠ p.level + 1 → rises p.op) ∧
           ∀ x, p.site = p.level + 1 → atomStored o old b 0 = some x → rises (.bytes loc (bytesOf (atomSize o) x))) ∧
   (∀ (s : State) id late p loc bs, s.pend.find? (fun q => q.id == id) = some p →
     (p.op = .bytes loc bs ∨ ∃ o b x, p.op = .red loc o b ∧ atomStored o (ofBytes (s.atHome loc (atomSize o))) b 0 = some x ∧
       bs = bytesOf (atomSize o) x) →
     s.canRise p = true → p.lastRise = true → s.riseBlocked p = false → s.reach 0 loc true true ≠ .dead → Memory.wf s.mem = true →
     ∃ t, exec (.storePerformed id late) s = .next t ∧ Memory.wf t.mem = true ∧
       (∀ j b, bs[j]? = some b → t.byte (loc + j) = b) ∧ (∀ a, (a < loc ∨ loc + bs.length ≤ a) → t.byte a = s.byte a) ∧
       t.pend.map (fun q => { q with late := [] }) = (s.pend.filter fun q => q.id != id).map (fun q => { q with late := [] }) ∧
       t.cores = s.cores ∧ t.teams = s.teams))

/-- R250 to R252: an A-marked load performs its access at its place in the program, once for every lane of its warp, or passes one that
has been performed for its gang, and its words join its queue; QPOP takes the oldest entries, which it gives to the lanes in which it
acts, or waits for them. R253: a prefetch changes nothing anywhere. Where the rules leave it open the statement takes the model's own
reading, of log entries 22, 23. -/
def Obligations.QueuesAndHubAccesses : Prop :=
  ((∀ s w v i, loadMarked i = true → Runs s w v i →
     let m := s.cur.slices
     let pc := s.cur.pc
     ∃ t, exec i s = .next t ∧
       if w.passes m pc then
         t = s.setWarp s.cur.core s.cur.slot { v with picc := { v.picc with passed := dropPassed m pc v.picc.passed } }
       else (match s.queueLoad s.cur.core s.cur.slot w i with
         | some u => t = u.modLive fun x => { x with picc := x.picc.performed x.alive m pc }
         | none => t = { s with cur := { s.cur with moved := true } })) ∧
   (∀ (s : State) core slot w d n r, s.warp? core slot = some w → r = (r.1, false, s) →
     ∃ w', s.pushQueue core slot d n r = s.setWarp core slot w' ∧ w' = { w with q := w'.q } ∧
       w'.queue d = w.queue d ++ queueEntries n w.width r.1 ∧ ∀ k, k ≠ d → w'.queue k = w.queue k) ∧
   (∀ s w v gp wd d k la, Runs s w v (.qpop gp wd d k la) →
     let lanes := w.actLanes s.cur.slices ⟨false, gp⟩
     ∃ t, exec (.qpop gp wd d k la) s = .next t ∧ SameBytes s t ∧
       if wd.regs ≤ (v.queue k.toNat).length then
         ∃ v' p, t = ({ s with nextId := s.nextId + 1 }).setWarp s.cur.core s.cur.slot v' ∧
           v' = { v with region := none, q := v'.q, pending := v.pending ++ [p] } ∧
           v'.queue k.toNat = (v.queue k.toNat).drop wd.regs ∧ (∀ j, j ≠ k.toNat → v'.queue j = v.queue j) ∧
           p.dests = destsV d.toNat wd.regs ∧ p.la = la.toNat ∧
           ∃ vs, p.op = .values vs ∧ ∀ r l x, (r, l, x) ∈ vs ↔ l ∈ lanes ∧
             ∃ j e, j < wd.regs ∧ (v.queue k.toNat)[j]? = some e ∧ r = d.toNat + j ∧ x = e.getD l 0
       else t = { s.modLive fun u => { u with region := none }.beginWait s.cur.slices
           (.qpop wd d k.toNat la.toNat (laneMask lanes)) s.nextPc with cur := { s.cur with moved := true } }) ∧
   (∀ (s : State) core slot slice w wd d k la lanes x, s.warp? core slot = some w → s.frozen w = false → w.slice? slice = some x →
     x.waits = [.qpop wd d k la lanes] →
     ∃ t, exec (.qpopComplete core slot slice) s = .next t ∧ SameBytes s t ∧
       if wd.regs ≤ (w.queue k).length then
         ∃ w' y, t.warp? core slot = some w' ∧ w'.slice? slice = some y ∧ y.waits = [] ∧ y.pc = x.resume ∧
           w'.queue k = (w.queue k).drop wd.regs ∧ w'.v = w.v ∧ w'.s = w.s ∧ w'.p = w.p
       else t = s)) ∧
  ((∀ acc gp base off s w v, Runs s w v (.prefL1 acc gp base off) → exec (.prefL1 acc gp base off) s = .next s) ∧
   (∀ acc gp base off s w v, Runs s w v (.prefL2 acc gp base off) → exec (.prefL2 acc gp base off) s = .next s))

/-- R254: a fence of the acting lanes waits; SPFENCE executes once. R107, R108, R114: a fence's wait ends when its lanes' accesses in
flight can be performed, and with FENCE.ar when every store that its warp has seen can rise to the level of the scope: they are
performed and risen. FENCE.rel leaves a mark for each of its lanes, which binds every later store of the lane at the level of the scope;
an acquire at a scope wider than the L1 domain leaves that no older copy but of RO lines, and below .sys of host and peer memory. Where
the rules leave it open the statement takes the model's own reading, of log entries 15, 21. -/
def Obligations.Fences : Prop :=
  ((∀ s w v g sc, Runs s w v (.fenceAcq g sc) →
     ∃ t, exec (.fenceAcq g sc) s = .next t ∧
       if w.actLanes s.cur.slices g = [] then t = s else Waits s t v (.fence true false sc (laneMask (w.actLanes s.cur.slices g)))) ∧
   (∀ s w v g sc, Runs s w v (.fenceRel g sc) →
     ∃ t, exec (.fenceRel g sc) s = .next t ∧
       if w.actLanes s.cur.slices g = [] then t = s else Waits s t v (.fence false true sc (laneMask (w.actLanes s.cur.slices g)))) ∧
   (∀ s w v g sc, Runs s w v (.fenceAr g sc) →
     ∃ t, exec (.fenceAr g sc) s = .next t ∧
       if w.actLanes s.cur.slices g = [] then t = s else Waits s t v (.fence true true sc (laneMask (w.actLanes s.cur.slices g)))) ∧
   (∀ s w v g, Runs s w v (.spfence g) →
     ∃ t, exec (.spfence g) s = .next t ∧ if w.actsOnce s.cur.slices g then Waits s t v .spfence else t = s)) ∧
  ((∀ (s : State) a thr strong rel q sc, q.thr = thr → q.op = .mark → q.strong = some sc → scopeLevel sc ≤ s.binds a thr strong rel q) ∧
   ∀ (s : State) core slot slice w x acq rel sc lanes, s.warp? core slot = some w → s.frozen w = false → w.slice? slice = some x →
     x.waits = [.fence acq rel sc lanes] →
     let s1 := s.performAll core slot lanes
     (s1.pend.map (·.id)).Nodup → ∃ t, exec (.fenceWaitComplete core slot slice) s = .next t ∧
       if s.partsReady core slot (w.partsAll lanes) = false ∨ (rel && acq && (s1.released core slot sc).isNone) = true then t = s
       else
         (∃ w' y, t.warp? core slot = some w' ∧ w'.slice? slice = some y ∧ y.waits = [] ∧ y.pc = x.resume ∧
           ∀ p ∈ w'.pending, ∀ l ∈ p.op.lanes, lanes.getLsbD l = false) ∧
         (rel = true → acq = true → ∀ q ∈ s1.pend, s1.sees (agentOf core slot) q = true → ∀ p ∈ t.pend, p.id = q.id → scopeLevel sc ≤ p.level) ∧
         (rel = true → acq = false → (∀ q ∈ s1.pend, q ∈ t.pend) ∧ ∀ l < 64, lanes.getLsbD l = true → ∃ p ∈ t.pend,
           p.op = .mark ∧ p.agent = agentOf core slot ∧ p.thr = threadOf core slot l ∧ p.level = 0 ∧ p.strong = some sc ∧
           ∀ q ∈ s1.pend, s1.sees (agentOf core slot) q = true → 0 < scopeLevel sc → ∃ n, scopeLevel sc ≤ n ∧ (q.id, n) ∈ p.after) ∧
         (acq = true → s.wider core sc = true → ∀ y ∈ t.stale, y.dom = s.domOf core →
           y.ro = true ∨ (0x8000000000 ≤ y.loc ∧ sc ≠ .sys)))

/-- R94, R98, R262: BITLD stores the acting lanes' entries, ascending, as one group, BITLD.pitch the pitch of the lowest acting lane and
BITSW the switch once, as strong stores at .dev scope after the warp's region entry is cleared (R365); in a table, entries and pitch go
to the shadow bank, and the switch exchanges the banks. Where the rules leave it open the statement takes the model's own reading, of
log entries 15, 22, 75. -/
def Obligations.BeamTables : Prop :=
  (∀ s w v acc g tb a b, Runs s w v (.bitld acc g tb a b) →
    let s0 := s.setWarp s.cur.core s.cur.slot { v with region := none }
    let lanes := w.actLanes s.cur.slices g
    ∃ t, exec (.bitld acc g tb a b) s = .next t ∧
      if lanes = [] then t = s0
      else BeamStored (s0.settleAccess { lanes := laneMask lanes, strong := some .dev }) t lanes
        (.bitld (s.ctxNo w) tb.toNat (laneMask lanes) (lanes.map fun l => ((w.src32 a l).toNat, BitVec.ofNat 16 (w.src32 b l).toNat)))) ∧
  (∀ s w v acc g tb b, Runs s w v (.bitldPitch acc g tb b) →
    let s0 := s.setWarp s.cur.core s.cur.slot { v with region := none }
    ∃ t, exec (.bitldPitch acc g tb b) s = .next t ∧
      match w.actLanes s.cur.slices g with
      | [] => t = s0
      | l :: _ => BeamStored (s0.settleAccess { lanes := laneMask [l], strong := some .dev }) t [l]
          (.bitpitch (s.ctxNo w) tb.toNat (w.src32 b l))) ∧
  (∀ s w v acc g tb, Runs s w v (.bitsw acc g tb) →
    let s0 := s.setWarp s.cur.core s.cur.slot { v with region := none }
    ∃ t, exec (.bitsw acc g tb) s = .next t ∧
      match w.actLanes s.cur.slices g with
      | [] => t = s0
      | l :: _ => BeamStored (s0.settleAccess { lanes := laneMask [l], strong := some .dev }) t [l] (.bitsw (s.ctxNo w) tb.toNat)) ∧
  (∀ (b : BeamTable) c tb m es, (b.store (.bitld c tb m es)).active = b.active ∧ (b.store (.bitld c tb m es)).shadow.2 = b.shadow.2 ∧
    ∀ j, beamEntry (b.store (.bitld c tb m es)).shadow.1 j = match es.reverse.find? fun e => e.1 == j with
      | some e => e.2
      | none => beamEntry b.shadow.1 j) ∧
  (∀ (b : BeamTable) c tb x, (b.store (.bitpitch c tb x)).active = b.active ∧ (b.store (.bitpitch c tb x)).shadow = (b.shadow.1, x)) ∧
  (∀ (b : BeamTable) c tb, (b.store (.bitsw c tb)).active = b.shadow ∧ (b.store (.bitsw c tb)).shadow = b.active)

/-- Table 12.2: the value an atomic stores, from the old value, the operand and, for a compare and swap, the new value: sums modulo 2^n,
the lesser and the greater, the bitwise results, exchanges, and one rounded sum to nearest even. R255 to R258, R110, R365: an atomic of
the acting lanes is in flight after what must come before it, with each lane's location, the level of the site where it executes (Table
4.4), its operand and its new value; a reduction whose site is L2 or its home is a store in flight of each lane, in ascending lane
order, and both clear the warp's region entry. R257, R101: an atomic of one lane that executes in its core's own copy lands: its
register gets the old bytes as its warp saw them, and the warp sees the new ones at once, if there are any. Where the rules leave it
open the statement takes the model's own reading, of log entries 16, 18, 23. -/
def Obligations.Atomics : Prop :=
  (∀ o b c : DWord,
     let lo (x : DWord) : Nat := x.toNat % 2 ^ 32
     let si (x : DWord) : Int := (x.setWidth 32).toInt
     (∀ op ∈ ([.addI32, .minI32, .maxI32, .minN32, .maxN32, .andN32, .orN32, .xorN32, .exchN32, .casN32, .addF32, .addF16x2] : List AtomOp),
       atomSize op = 4 ∧ ∀ x, atomStored op o b c = some x → x.toNat < 2 ^ 32) ∧
     (∀ op ∈ ([.addI64, .exchN64, .casN64, .addF64] : List AtomOp), atomSize op = 8) ∧
     (atomStored .addI32 o b c).map BitVec.toNat = some ((lo o + lo b) % 2 ^ 32) ∧
     (atomStored .addI64 o b c).map BitVec.toNat = some ((o.toNat + b.toNat) % 2 ^ 64) ∧
     (atomStored .minI32 o b c).map si = some (min (si o) (si b)) ∧
     (atomStored .maxI32 o b c).map si = some (max (si o) (si b)) ∧
     (atomStored .minN32 o b c).map BitVec.toNat = some (min (lo o) (lo b)) ∧
     (atomStored .maxN32 o b c).map BitVec.toNat = some (max (lo o) (lo b)) ∧
     (atomStored .andN32 o b c).map BitVec.toNat = some (lo o &&& lo b) ∧
     (atomStored .orN32 o b c).map BitVec.toNat = some (lo o ||| lo b) ∧
     (atomStored .xorN32 o b c).map BitVec.toNat = some (lo o ^^^ lo b) ∧
     (atomStored .exchN32 o b c).map BitVec.toNat = some (lo b) ∧
     atomStored .exchN64 o b c = some b ∧
     (atomStored .casN32 o b c).map BitVec.toNat = (if lo o = lo b then some (lo c) else none) ∧
     atomStored .casN64 o b c = (if o = b then some c else none) ∧
     (atomStored .addF32 o b c).map BitVec.toNat = some (f32.add .plain (lo o) (lo b)) ∧
     (atomStored .addF64 o b c).map BitVec.toNat = some (f64.add .plain o.toNat b.toNat) ∧
     (atomStored .addF16x2 o b c).map (fun x => (x.toNat % 2 ^ 16, x.toNat / 2 ^ 16)) =
       some (f16.add .plain (o.toNat % 2 ^ 16) (b.toNat % 2 ^ 16), f16.add .plain (lo o / 2 ^ 16) (lo b / 2 ^ 16))) ∧
  (let site (s : State) (sc : Scope) (x : LaneAccess) : Nat :=
     if (x.2.2.lax && !s.wider s.cur.core sc) = true then (if sc = .clus then 2 else 1)
     else if x.2.1 < 0x8000000000 ∨ (x.2.1 < 2 ^ 51 ∧ sc ≠ .sys ∧ x.2.2.treat ≠ 2) then 3
     else 4
   (∀ s w v gp op ord sc d base la, Runs s w v (.atom gp op ord sc d base la) →
     let xs := s.laneAccess (s.ctxNo w) (fun l => w.sget base + (w.vget d.toNat l).setWidth 64) (w.actLanes s.cur.slices ⟨false, gp⟩)
     let rel := ord == .rel || ord == .ar
     let s0 := s.setWarp s.cur.core s.cur.slot { v with region := none }
     let s1 := (s0.settleAccess { ranges := rangesOf (atomSize op) xs, lanes := lanesOf xs, strong := some sc, rel := rel }).askAll true xs
     ∃ t, exec (.atom gp op ord sc d base la) s = .next t ∧
       if xs = [] then t = s0
       else Flies s1 t (atomDests op d) la (xs.map (·.1)) (.atom op ord sc (xs.map fun x =>
         let n := d.toNat
         let l := x.1
         (l, x.2.1, site s sc x, x.2.2.lax,
           (if atomSize op = 8 then w.vpair (n + 2) l else (w.vget (n + 1) l).setWidth 64),
           (match op with
             | .casN32 => (w.vget (n + 2) l).setWidth 64
             | .casN64 => w.vpair (n + 4) l
             | _ => 0))))) ∧
   (∀ s w v gp op rel sc d base, Runs s w v (.red gp op rel sc d base) →
     let xs := s.laneAccess (s.ctxNo w) (fun l => w.sget base + (w.vget d.toNat l).setWidth 64) (w.actLanes s.cur.slices ⟨false, gp⟩)
     let s0 := s.setWarp s.cur.core s.cur.slot { v with region := none }
     let s1 := s0.settleAccess { ranges := rangesOf (atomSize op) xs, lanes := lanesOf xs, strong := some sc, rel := rel }
     ∃ t, exec (.red gp op rel sc d base) s = .next t ∧
       if xs = [] then t = s0
       else (∀ x ∈ xs, 2 < site s sc x) → SameBytes s1 t ∧ t.cores = s1.cores ∧
         t.pend.map (·.op) = s1.pend.map (·.op) ++ xs.map fun x => .red x.2.1 op
           (if atomSize op = 8 then w.vpair (d.toNat + 2) x.1 else (w.vget (d.toNat + 1) x.1).setWidth 64))) ∧
  (∀ (s : State) core slot w (p : Pending) op sc d l loc b c, s.warp? core slot = some w →
     w.pending.find? (fun q => q.id == p.id) = some p → w.partsOf p (BitVec.allOnes 64) = [(p, BitVec.allOnes 64)] →
     p.op = .atom op .rlx sc [(l, loc, 1, true, b, c)] → p.got = [] → s.pend = [] →
     p.dests = destsV d (atomSize op / 4) → l < 64 → w.alive.getLsbD (l / 4) = true → loc % atomSize op = 0 → loc < spadBase →
     s.blocked core loc false = false → s.reach core loc false true ≠ .dead → s.poisoned loc (atomSize op) = false →
     ∃ t w', exec (.longLatencyLanding core slot p.id) s = .next t ∧ t.warp? core slot = some w' ∧ SameBytes s t ∧
       w' = { w with v := w'.v, pending := w.pending.filter fun q => q.id != p.id } ∧
       let old := s.seen (agentOf core slot) loc (atomSize op)
       (∀ j < atomSize op / 4, ∀ k < 4, some ((w'.vget (d + j) l).extractLsb' (8 * k) 8) = old[4 * j + k]?) ∧
       (∀ r i, i < 64 → (r < d ∨ d + atomSize op / 4 ≤ r ∨ i ≠ l) → w'.vget r i = w.vget r i) ∧
       t.seen (agentOf core slot) loc (atomSize op) = (match atomStored op (ofBytes old) b c with
         | some x => bytesOf (atomSize op) x
         | none => old))

/-- R259, R115: a COPY whose lanes fit places one copy of each acting lane in the warp's open batch, after the lanes' accesses have been
performed for the engine; one whose lanes do not fit waits. R115, R259, R261: a copy of one run to another that does not meet it, both
served by memory, completes: a plain store of the source's bytes at the destination is in flight, which its core sees, beside the stores
that were; the copy has left its batch, and no register has changed. R261, R116: SEAL gives the open batch the next number and waits
while that would leave 17 sealed batches; WAITB goes on at once when every batch up to its number is complete, and waits otherwise;
TESTB says which. Where the rules leave it open the statement takes the model's own reading, of log entries 54, 87. -/
def Obligations.Copies : Prop :=
  (∀ s w v g d a,
     let lanes := w.actLanes s.cur.slices g
     let places (t : State) (geo : Nat → CopyGeom) : Prop :=
       let s1 := s.beforeCopies w d a (fun _ l => geo l) lanes
       if 256 < w.jobs.length + lanes.length then t = { s with cur := { s.cur with moved := true } }
       else if lanes = [] then t = s
       else SameBytes s1 t ∧ ∃ v1 js, s1.live? = some v1 ∧
         t = { s1.setWarp s.cur.core s.cur.slot { v1 with jobs := v1.jobs ++ js } with nextId := s1.nextId + lanes.length } ∧
         js.length = lanes.length ∧ ∀ k l j, lanes[k]? = some l → js[k]? = some j →
           j.id = s1.nextId + k ∧ j.batch = w.nb + 1 ∧ j.lane = l ∧ j.dst0 = w.vpair d.toNat l ∧ j.src0 = w.src64 a l ∧
           j.dst = s1.copyRuns s.cur.core (s.ctxNo w) w.grid (w.vpair d.toNat l) (geo l).len (geo l).rows (geo l).dpitch ∧
           j.src = (s1.copyRuns s.cur.core (s.ctxNo w) w.grid (w.src64 a l) (geo l).len (geo l).rows (geo l).spitch).map
             fun x => (x.1, x.2.1)
     (∀ b, Runs s w v (.copy g d a b) → ∃ t, exec (.copy g d a b) s = .next t ∧ places t fun l =>
       { len := (w.src32 b l).toNat, rows := 1, spitch := 0, dpitch := 0 }) ∧
     (∀ b, Runs s w v (.copy2d g d a b) → ∃ t, exec (.copy2d g d a b) s = .next t ∧ places t fun l =>
       let x := (w.src64 b l).toNat
       { len := x % 2 ^ 16, rows := x / 2 ^ 16 % 2 ^ 16, spitch := 16 * (x / 2 ^ 32 % 2 ^ 16), dpitch := 16 * (x / 2 ^ 48) })) ∧
  (∀ (s : State) core slot w (j : CopyJob) src dst n si, s.warp? core slot = some w → w.jobs.find? (fun x => x.id == j.id) = some j →
     (∀ x ∈ w.slices, x.waits = []) → j.src = [(src, n)] → j.dst = [(dst, n, si)] → (src + n ≤ dst ∨ dst + n ≤ src) →
     dst < spadBase → (∀ q ∈ s.pend, q.id < s.nextId) → s.blocked core src false = false → s.blocked core dst true = false →
     s.reach core src false true ≠ .dead → (∀ a, src ≤ a → a < src + n → s.poisoned a 1 = false) →
     ∃ t, exec (.copyBatchComplete core slot j.id none) s = .next t ∧ SameBytes s t ∧
       t.warp? core slot = some { w with jobs := w.jobs.filter fun x => x.id != j.id } ∧
       ∃ p, t.pend = s.pend ++ [p] ∧ p.agent = engineOf core ∧ p.level = 1 ∧ p.strong = none ∧ p.op = .bytes dst (s.seen (engineOf core) src n)) ∧
  ((∀ s w v g d, Runs s w v (.seal g d) →
     let waits := w.actsOnce s.cur.slices g = true ∧ (∃ j ∈ w.jobs, j.batch = w.nb + 1) ∧
       16 ≤ ((w.jobs.map (·.batch)).filter (· ≤ w.nb)).eraseDups.length
     (∀ j ∈ w.jobs, j.batch ≤ w.nb + 1) →
     ∃ t, exec (.seal g d) s = .next t ∧
       (waits → t = { s with cur := { s.cur with moved := true } }) ∧
       (¬waits → t = s.setWarp s.cur.core s.cur.slot (if w.actsOnce s.cur.slices g then
         { v with region := none, nb := w.nb + 1 }.sset d (BitVec.ofNat 64 (w.nb + 1)) else { v with region := none }))) ∧
   (∀ s w v g a, Runs s w v (.waitb g a) →
     ∃ t, exec (.waitb g a) s = .next t ∧
       if w.actsOnce s.cur.slices g = true ∧ ∃ j ∈ w.jobs, j.batch ≤ (w.sget a).toNat then Waits s t v (.waitb (w.sget a).toNat)
       else t = s) ∧
   (∀ g d a, WritesScalar (.testb g d a) g d fun _ w z => z = if ∃ j ∈ w.jobs, j.batch ≤ (w.sget a).toNat then 0 else 1))

/-- R284, R36: NOP has no effect in either stream; YIELD marks the warp as the first to leave the active set, which is then refilled;
SLEEP keeps the gang for the cycles it names, hub cycles on the hub control core (R456), and its wait ends when they have passed. R272
to R274: BRA sends each slice of the gang whose predicate holds in one of its active lanes to the target, as a gang of its own when
other slices go on; JMP, CALL and RET send the gang to s(A), CALL leaving the address after the bundle in its link; BRX sends each slice
to the pair of its lowest active lane, slices with equal targets forming one gang. R275, R27, R24, R188: EXIT retires the slices of the
gang, one that still waits when its waits have ended; a warp with another slice goes on, and one without ends, once memory serves what
it has in flight (R434). REGANG makes one gang of the slices it names, after the bundle, when all of them are here, once their results
have landed; otherwise the gang waits. Where the rules leave it open the statement takes the model's own reading, of log entries 31, 57. -/
def Obligations.ControlWords : Prop :=
  ((∀ s g, s.cur.sq = true → exec (.nop g) s = .next s) ∧
   (∀ s w v g, Runs s w v (.nop g) → exec (.nop g) s = .next s) ∧
   (∀ s w v g, Runs s w v (.yield g) → exec (.yield g) s = .next (if w.actsOnce s.cur.slices g then
     (s.setWarp s.cur.core s.cur.slot { v with yielded := true }).refillSet s.cur.core else s)) ∧
   (∀ s w v g n, Runs s w v (.sleep g n) → ∃ t, exec (.sleep g n) s = .next t ∧
     if w.actsOnce s.cur.slices g = true ∧ n.toNat ≠ 0 then
       Waits s t v (.sleep ((if s.cur.core = hubCore then s.hubNow else s.coreNow) + n.toNat)) else t = s) ∧
   (∀ s core slot slice w till, WaitsAt s core slot slice w (.sleep till) → ∃ t, exec (.sleepExpiry core slot slice) s = .next t ∧
     if till ≤ (if core = hubCore then s.hubNow else s.coreNow) then WaitEnds s t core slot slice w (.sleep till) else t = s)) ∧
  ((∀ s w v acc p neg off, Runs s w v (.bra acc p neg off) →
     let takes (j : Nat) : Prop := s.cur.slices.getLsbD j = true ∧
       ∃ l, 4 * j ≤ l ∧ l < 4 * j + 4 ∧ l < w.width ∧ w.active.getLsbD l = true ∧ w.pred p l = !neg
     let target := s.cur.pc + BitVec.ofInt 64 (4 * off.toInt)
     w.width ≤ 64 → w.width % 4 = 0 → ∃ t, exec (.bra acc p neg off) s = .next t ∧
       ((∀ j, ¬takes j) → t = s) ∧
       ((∃ j, takes j) → ∃ v' n, Transfers s t v v' n ∧
         (∀ j x, v.slice? j = some x → s.cur.slices.getLsbD j = false → v'.slice? j = some x) ∧
         (∀ j x, v.slice? j = some x → takes j → v'.slice? j = some { x.goTo target with
           gang := if n = 0 then x.gang else s.nextId }) ∧
         (∀ j x, v.slice? j = some x → s.cur.slices.getLsbD j = true → ¬takes j → v'.slice? j = some (x.goTo s.nextPc)) ∧
         (n = 0 ↔ ∀ j, s.cur.slices.getLsbD j = true → takes j))) ∧
   (∀ s w v acc a, Runs s w v (.jmp acc a) → ∃ t v', exec (.jmp acc a) s = .next t ∧ Transfers s t v v' 0 ∧ v'.s = v.s ∧
     GangSlices s v v' fun _ x => x.goTo (w.sget a)) ∧
   (∀ s w v acc a, Runs s w v (.ret acc a) → ∃ t v', exec (.ret acc a) s = .next t ∧ Transfers s t v v' 0 ∧ v'.s = v.s ∧
     GangSlices s v v' fun _ x => x.goTo (w.sget a)) ∧
   (∀ s w v acc d a, Runs s w v (.call acc d a) → ∃ t v', exec (.call acc d a) s = .next t ∧ Transfers s t v v' 0 ∧
     v'.sget d = s.cur.pc + BitVec.ofNat 64 (4 * s.cur.len) ∧ (∀ r, r ≠ d → v'.sget r = v.sget r) ∧
     GangSlices s v v' fun _ x => x.goTo (w.sget a)) ∧
   (∀ s w v acc a, Runs s w v (.brx acc a) →
     let target (j : Nat) : DWord := w.vpair a.toNat (4 * j + ((List.range 4).find? fun l => w.active.getLsbD (4 * j + l)).getD 0)
     ∃ t v', exec (.brx acc a) s = .next t ∧ Transfers s t v v' 16 ∧ v'.s = v.s ∧ ∃ gang : Nat → Nat,
       GangSlices s v v' (fun j x => { x.goTo (target j) with gang := gang j }) ∧
       ∀ i j, s.cur.slices.getLsbD i = true → s.cur.slices.getLsbD j = true →
         s.nextId ≤ gang i ∧ gang i < s.nextId + 16 ∧ (gang i = gang j ↔ target i = target j))) ∧
  ((∀ s w v acc, Runs s w v (.exit acc) → ∃ t v', exec (.exit acc) s = .next t ∧ v' = { v with slices := v'.slices } ∧
     GangSlices s v v' (fun _ x => if x.waits = [] then { x with retired := true } else { x with leaving := true }) ∧
     let u := { s.setWarp s.cur.core s.cur.slot v' with cur := { s.cur with moved := true } }
     t = if ∃ x ∈ v'.slices, x.retired = false then u
       else if u.canRetire s.cur.core s.cur.slot v' then u.endWarp s.cur.core s.cur.slot w.team else u) ∧
   (∀ s w v mask, Runs s w v (.regang mask) →
     let here := ∀ j < 16, mask.getLsbD j = true → s.cur.slices.getLsbD j = true ∨
       ∃ x, v.slice? j = some x ∧ x.regang? = some mask ∧ x.pc = s.cur.pc
     ∃ t, exec (.regang mask) s = .next t ∧
       (¬here → Waits s t v (.regang mask)) ∧
       (here →
         let s1 := s.landSome s.cur.core s.cur.slot fun p => (p.slices &&& mask) != 0
         ∃ v1 v', s1.live? = some v1 ∧ Transfers s1 t v1 v' 1 ∧ v1.slices = v.slices ∧
           ∀ j x, v.slice? j = some x → v'.slice? j = some (if mask.getLsbD j then
             { x with waits := x.waits.erase (.regang mask), gang := s1.nextId, count := 0, resume := s.nextPc
                      pc := if x.waits.erase (.regang mask) = [] then s.nextPc else x.pc } else x))))

/-- R278, R279: BAR.init sets E to s(A); an arrival counts up, and the one that makes the count E returns it to 0 and turns the phase;
the warp keeps the phase it arrived in, what it has in flight is performed (R107), and its wait ends when the phase has turned from it:
at once when it has already. -/
def Obligations.Barriers : Prop :=
  (∀ s w v b a tm, Runs s w v (.barInit b a) → s.team? w.team = some tm →
    ∃ t, exec (.barInit b a) s = .next t ∧ t.live? = some { v with region := none } ∧ SameBytes s t ∧ ∃ tm', t.team? w.team = some tm' ∧
      tm' = { tm with bars := tm'.bars } ∧ (∀ n, tm'.bar n b.toNat = ⟨(w.sget a).toNat, 0, (tm.bar (s.teamSize w) b.toNat).phase⟩) ∧
      ∀ n c, c ≠ b.toNat → tm'.bar n c = tm.bar n c) ∧
  (∀ s w v b tm, Runs s w v (.barArrive b) → s.team? w.team = some tm → v.team = w.team →
    let n := s.teamSize w
    let x := tm.bar n b.toNat
    ∃ t tm' v', exec (.barArrive b) s = .next t ∧ t.team? w.team = some tm' ∧ t.live? = some v' ∧
      (∀ c, tm'.bar n c = if c = b.toNat then (if x.count + 1 < x.e then ⟨x.e, x.count + 1, x.phase⟩ else ⟨x.e, 0, !x.phase⟩)
        else tm.bar n c) ∧
      (x.count + 1 < x.e → sfind v'.arr b.toNat = some x.phase) ∧ v'.p = v.p ∧
      ((v.pending.map (·.id)).Nodup → ∀ p ∈ v'.pending, p.performedIn (BitVec.allOnes 64))) ∧
  (∀ s w v b tm, Runs s w v (.barWait b) → s.team? w.team = some tm →
    let ph := (tm.bar 0 b.toNat).phase
    let s0 := s.setWarp s.cur.core s.cur.slot { v with region := none }
    ∃ t, exec (.barWait b) s = .next t ∧
      match sfind v.arr b.toNat with
      | some token =>
        if token = ph then Waits s0 t { v with region := none } (.bar b.toNat token true)
        else t.live? = some { v with region := none, arr := sdrop v.arr b.toNat } ∧ SameBytes s t ∧ t.teams = s.teams ∧ t.cur = s.cur
      | none => Waits s0 t { v with region := none } (.bar b.toNat ph false)) ∧
  (∀ s w v b tm, Runs s w v (.barSync b) → s.team? w.team = some tm → v.team = w.team →
    (∀ y ∈ v.slices, ∀ token clear, Wait.bar b.toNat token clear ∉ y.waits) →
    let n := s.teamSize w
    let x := tm.bar n b.toNat
    ∃ t tm' v', exec (.barSync b) s = .next t ∧ t.team? w.team = some tm' ∧ t.live? = some v' ∧
      (∀ c, tm'.bar n c = if c = b.toNat then (if x.count + 1 < x.e then ⟨x.e, x.count + 1, x.phase⟩ else ⟨x.e, 0, !x.phase⟩)
        else tm.bar n c) ∧
      (x.count + 1 < x.e → t.cur.moved = true ∧ ∀ j y, v'.slice? j = some y → s.cur.slices.getLsbD j = true →
        Wait.bar b.toNat x.phase true ∈ y.waits) ∧
      (x.e ≤ x.count + 1 → t.cur = s.cur ∧ sfind v'.arr b.toNat = none))

/-- R281, R282, R41, R42, R394: CONT emits a record of each acting lane, its payload the pairs from vb, as a release at .dev scope, and
waits until the gatherer has taken them one by one, into the open group of their pair or, with the hub store full, into the overflow
area; CONTF launches the grid's open groups, or waits while a record of the warp is not taken; records come back from the overflow area
in order. R283, Table 3.1: LOCQ tells where the caller runs: bit 0, its cluster-relative and tower numbers and its core; the address
form tells the tower, stack and slice of a device address, 3 for any other address that translates, and 0 for one that does not. Where
the rules leave it open the statement takes the model's own reading, of log entry 29. -/
def Obligations.WorkCreationAndLocality : Prop :=
  ((∀ s w v g np a b, Runs s w v (.cont g np a b) →
     let lanes := w.actLanes s.cur.slices g
     let s0 := s.setWarp s.cur.core s.cur.slot { v with region := none }
     let s2 := s0.performAll s.cur.core s.cur.slot (laneMask lanes)
     let s1 := s2.releaseAt s.cur.core s.cur.slot .dev
     ∃ t, exec (.cont g np a b) s = .next t ∧
       if lanes = [] then t = s0
       else ∃ v1, s1.live? = some v1 ∧ ((v.pending.map (·.id)).Nodup → ∀ p ∈ v1.pending, p.performedIn (laneMask lanes)) ∧
         ((s2.pend.map (·.id)).Nodup → (s2.released s.cur.core s.cur.slot .dev).isSome = true →
           ∀ q ∈ s2.pend, s2.sees (agentOf s.cur.core s.cur.slot) q = true → ∀ p ∈ s1.pend, p.id = q.id → 3 ≤ p.level) ∧
         Waits s1 t v1 (.cont np.toNat (w.sget a) (lanes.map fun l => (l, (List.range 7).map fun k =>
           if k < np.toNat then w.vpair (b.toNat + 2 * k) l else 0)))) ∧
   (∀ s w v g, Runs s w v (.contf g) →
     let s0 := s.setWarp s.cur.core s.cur.slot { v with region := none }
     ∃ t, exec (.contf g) s = .next t ∧
       if w.actsOnce s.cur.slices g = false then t = s0
       else if w.contPending then Waits s0 t { v with region := none } .contf
       else if s.overflowing w.grid = false then
         t.gather.seq = s.gather.seq + 1 ∧ ∀ x, x ∈ t.gather.groups ↔ x ∈ s.gather.groups ∧ x.grid ≠ w.grid
       else t.gather.groups = s.gather.groups ∧ t.gather.overflow = s.gather.overflow ++ [(w.grid, closeMark)]) ∧
   (∀ (s : State) core slot slice w x np entry l r rest, s.warp? core slot = some w → w.slice? slice = some x →
     x.waits = [.cont np entry ((l, r) :: rest)] → slice < w.nslices → (∀ y ∈ w.slices, y.waits = [] ∨ y.waits = x.waits) →
     let u := (s.offerRecord w.grid np entry r).2
     ∃ t, exec (.contRecordAccept core slot slice) s = .next t ∧
       if (s.offerRecord w.grid np entry r).1 = false then t = u
       else ∃ w', t = u.setWarp core slot w' ∧ w' = { w with slices := w'.slices, readyAt := w'.readyAt } ∧
         w'.slices.length = w.slices.length ∧
         ∀ j y, w.slice? j = some y → w'.slice? j = some (if y.waits ≠ x.waits then y
           else if rest = [] then { y with waits := [], pc := y.resume, retired := y.retired || y.leaving }
           else { y with waits := [.cont np entry rest] })) ∧
   (∀ (s : State) g np entry r gr, s.grid? g = some gr → s.gatherHeld < 16384 → s.overflowing g = false →
     let t := (s.offerRecord g np entry r).2
     (s.offerRecord g np entry r).1 = true ∧ t.gather.seq = s.gather.seq + 1 ∧
       let open_ : List (List DWord) := ((s.gather.groups.find? fun x => x.grid == g && x.entry == entry).map (·.recs)).getD []
       if gr.lr.width ≤ open_.length + 1 then ∀ x ∈ t.gather.groups, ¬(x.grid = g ∧ x.entry = entry)
       else ⟨g, entry, open_ ++ [r]⟩ ∈ t.gather.groups) ∧
   (∀ (s : State) g np entry r gr loc, s.grid? g = some gr → (16384 ≤ s.gatherHeld ∨ s.overflowing g = true) → s.fnmode / 32 % 2 = 0 →
     let root := s.rootOf g
     let i := Machine.sget 0 s.gather.ovfNext root
     s.spilledRecords root < gr.lr.ovfsz / 64 → s.overflowLoc gr i = some loc → s.blocked hubCore loc true = false →
     let t := (s.offerRecord g np entry r).2
     (s.offerRecord g np entry r).1 = true ∧ t.gather.overflow = s.gather.overflow ++ [(g, i)] ∧ t.gather.groups = s.gather.groups ∧
       t.bytes loc 64 = (recordWords np entry r).flatMap (bytesOf 8) ∧ ∀ a, (a < loc ∨ loc + 64 ≤ a) → t.byte a = s.byte a) ∧
   (∀ s : State, s.gather.overflow = [] → exec .gatherOverflowReadback s = .next s) ∧
   (∀ (s : State) g i rest gr loc, s.gather.overflow = (g, i) :: rest → i < closeMark → s.gatherHeld < 16384 → s.grid? g = some gr →
     gr.retired = false → s.overflowLoc gr i = some loc → s.blocked hubCore loc false = false →
     exec .gatherOverflowReadback s = .next (({ s with gather := { s.gather with overflow := rest } }.placeRecord g
       (BitVec.ofNat 64 ((s.dwordAt loc).toNat % 2 ^ 48)) ((List.range 7).map fun k => s.dwordAt (loc + 8 * (k + 1)))).settle))) ∧
  ((∀ g d, WritesScalar (.locq g d) g d fun s _ z =>
     if s.cur.core = hubCore then z.toNat = 3
     else ∀ l, s.logical? s.cur.core = some l → l < 256 → s.cur.core < 1024 →
       let x := z.toNat
       x % 2 = 1 ∧ x / 2 % 2 = 0 ∧ x / 2 ^ 8 % 2 ^ 8 = l ∧ x / 2 ^ 16 % 2 ^ 2 = s.cur.core / 256 ∧ x / 2 ^ 18 % 2 ^ 4 = l / 4 % 16 ∧
         x / 2 ^ 22 % 2 ^ 2 = l % 4 ∧ x / 2 ^ 24 = s.cur.core % 128) ∧
   (∀ s w v g d a, Runs s w v (.locqAddr g d a) →
     WarpBecomes (.locqAddr g d a) s fun v' =>
       VectorWrite v v' d.toNat 2 (w.acts s.cur.slices g) fun l =>
         let x := (v'.vpair d.toNat l).toNat
         match s.translate (s.ctxNo w) (w.vpair a.toNat l) with
         | .bad kind _ => kind ≠ walkWaits → x = 0
         | .ok p =>
           let pa := p.pa (w.vpair a.toNat l).toNat
           if 2 ^ 39 ≤ pa then x = 3
           else
             let stack := (pa / 2 ^ 12 % 8) ^^^ (pa / 2 ^ 24 % 8)
             let slice := (pa / 2 ^ 15 % 64) ^^^ (pa / 2 ^ 7 % 64)
             x = 1 + stack / 2 * 2 ^ 16 + stack * 2 ^ 32 + slice * 2 ^ 35))

/-- R287 to R289, R64, R65, R365: GIVE waits until its warp's accesses are performed, and the tile is then in transit to the warp's slot
or the sequencer; TAKE makes the caller the owner of a tile that it owns or that is in transit to it with WR clear, and waits for one
that is not; SEQGO joins the core's queue and waits. Each clears the warp's region entry. R38, R289, R304: the first waiting SEQGO of an
idle sequencer starts it for the warp's team at the address, its registers c0 to c31 those that its issue read from s32 to s63, once its
warp's accesses are performed at .core scope, and the gang goes on. -/
def Obligations.TileHandoff : Prop :=
  ((∀ s w v t byReg n, Runs s w v (.give t byReg n) →
     ∃ u, exec (.give t byReg n) s = .next u ∧ Waits (s.setWarp s.cur.core s.cur.slot { v with region := none }) u
       { v with region := none } (.give t.toNat (giveTo s s.cur.core w (if byReg then (w.sget n).toNat else n.toNat)))) ∧
   (∀ s w v t, Runs s w v (.giveSeq t) →
     ∃ u, exec (.giveSeq t) s = .next u ∧ Waits (s.setWarp s.cur.core s.cur.slot { v with region := none }) u
       { v with region := none } (.give t.toNat none)) ∧
   (∀ s core slot slice w t dst tm, WaitsAt s core slot slice w (.give t dst) → s.team? w.team = some tm →
     s.canRelease core slot .core = true →
     let s1 := s.performAll core slot (BitVec.allOnes 64)
     ∃ u w1 tm', exec (.giveTransit core slot slice) s = .next u ∧ s1.warp? core slot = some w1 ∧ w1 = { w with pending := w1.pending } ∧
       u.warp? core slot = some (w1.endWait slice (.give t dst) s.coreNow) ∧
       ((s1.pend.map (·.id)).Nodup → ∀ q ∈ s1.pend, s1.sees (agentOf core slot) q = true → ∀ p ∈ u.pend, p.id = q.id → 1 ≤ p.level) ∧
       u.team? w.team = some tm' ∧ tm' = { tm with tiles := tm'.tiles, cir := tm'.cir } ∧
       (∀ h n, 64 * h + n ≠ 64 * tm.halfOf core + t → tm'.tile h n = tm.tile h n) ∧
       tm'.tile (tm.halfOf core) t = ⟨(match dst with
         | some x => .transitWarp x
         | none => .transitSeq), slot⟩) ∧
   (∀ s w v t tm, Runs s w v (.take t) → s.team? w.team = some tm →
     let x := tm.tile (tm.halfOf s.cur.core) t.toNat
     let s0 := s.setWarp s.cur.core s.cur.slot { v with region := none }
     ∃ u, exec (.take t) s = .next u ∧
       if x.owner = .warp s.cur.slot ∨ x.owner = .transitWarp s.cur.slot ∧ s.wr s.cur.core w.team t.toNat = false then
         TileBecomes s0 u w tm t.toNat ⟨.warp s.cur.slot, x.giver⟩ tm.tcfgAt
       else Waits s0 u { v with region := none } (.take t.toNat)) ∧
   (∀ s core slot slice w t tm, WaitsAt s core slot slice w (.take t) → s.team? w.team = some tm →
     let x := tm.tile (tm.halfOf core) t
     ∃ u, exec (.takeComplete core slot slice) s = .next u ∧
       if x.owner = .warp slot ∨ x.owner = .transitWarp slot ∧ s.wr core w.team t = false then
         u.warp? core slot = some (w.endWait slice (.take t) s.coreNow) ∧
           (u.team? w.team).map (fun tm' => tm'.tile (tm.halfOf core) t) = some ⟨.warp slot, x.giver⟩
       else u = s) ∧
   (∀ s w v a, Runs s w v (.seqgo a) → ∃ u c, exec (.seqgo a) s = .next u ∧
     (∀ i < 32, Machine.sget 0 c i = w.sget (BitVec.ofNat 6 (32 + i))) ∧
     let s0 := (s.modSeq s.cur.core fun q =>
       { q with queue := q.queue ++ [(s.cur.slot, lowSlice s.cur.slices, w.sget a, c)] }).setWarp s.cur.core s.cur.slot
         { v with region := none }
     Waits s0 u { v with region := none } (.seqgo (w.sget a)))) ∧
  (∀ s core slot slice w addr c rest tm, WaitsAt s core slot slice w (.seqgo addr) → s.team? w.team = some tm →
     s.canRelease core slot .core = true → (s.core core).seq.queue = (slot, slice, addr, c) :: rest → (s.core core).seq.running = false →
     ∃ u, ∃ w1 : Warp, exec (.seqgoStart core slot slice) s = .next u ∧ u.warp? core slot = some (w1.endWait slice (.seqgo addr) s.coreNow) ∧
       w1 = { w with pending := w1.pending } ∧
       let q := (u.core core).seq
       q.running = true ∧ q.team = w.team ∧ q.half = tm.halfOf core ∧ q.pc = addr ∧ q.seg = none ∧ q.loops = [] ∧ q.ops = [] ∧
         q.cache = [] ∧ q.landings = [] ∧ (∀ x ∈ q.queue, x ∈ rest) ∧ ∀ i < 32, q.reg i = Machine.sget 0 c i)

/-- R290, R291, R66, R54: TCFG makes the warp's slot the owner of a tile, its team noting the cycle, and TFREE frees it, once per
bundle; SETSHAPE writes SHAPE's defined fields. R290, R292 to R295: the element-wise words: +0, the sum, the product, the product and
sum with the old element, the greater and the lesser, the converted element, and TANH or LOGIS, each in MODE's rounding and with its
flushing. -/
def Obligations.TileWords : Prop :=
  ((∀ s w v g t tm, Runs s w v (.tcfg g t) → s.team? w.team = some tm → ∃ u, exec (.tcfg g t) s = .next u ∧
     if w.actsOnce s.cur.slices g then
       TileBecomes s u w tm t.toNat ⟨.warp s.cur.slot, (tm.tile (tm.halfOf s.cur.core) t.toNat).giver⟩
         (sinsert tm.tcfgAt (64 * tm.halfOf s.cur.core + t.toNat) (s.cur.slot, s.coreNow)) else u = s) ∧
   (∀ s w v g t tm, Runs s w v (.tfree g t) → s.team? w.team = some tm → ∃ u, exec (.tfree g t) s = .next u ∧
     if w.actsOnce s.cur.slices g then
       TileBecomes s u w tm t.toNat ⟨.free, (tm.tile (tm.halfOf s.cur.core) t.toNat).giver⟩ tm.tcfgAt else u = s) ∧
   (∀ s w v g a, Runs s w v (.setshape g a) →
     WarpBecomes (.setshape g a) s fun v' => v' = { v with shape := v'.shape } ∧
       if w.actsOnce s.cur.slices g = false then v'.shape = v.shape
       else shapeRows v'.shape = (w.sget a).toNat % 2 ^ 7 ∧ shapeCols v'.shape = (w.sget a).toNat / 2 ^ 8 % 2 ^ 7 ∧
         shapeEsz v'.shape = (w.sget a).toNat / 2 ^ 16 % 2 ^ 2 ∧ v'.shape.toNat < 2 ^ 18)) ∧
  (let in_ (t : TTy) (md : FpMode) (w : Warp) (tm : Team) (h : Nat) (a : TSrc) (r c : Nat) : FV :=
     (TTy_fmt t).read md (srcElem tm h w (TTy_bits t) (shapeCols w.shape) a r c)
   (∀ g t, TileWord (.tzero g t) g t (fun w => eszBits (shapeEsz w.shape)) fun _ _ _ _ _ _ => 0) ∧
   (∀ g t d a b, TileWord (.tadd g t d a b) g d (fun _ => TTy_bits t) fun md w tm h r c =>
     (TTy_fmt t).write md (sumExact md.rm [in_ t md w tm h a r c, in_ t md w tm h b r c])) ∧
   (∀ g t d a b, TileWord (.tmul g t d a b) g d (fun _ => TTy_bits t) fun md w tm h r c =>
     (TTy_fmt t).write md ((in_ t md w tm h a r c).mul (in_ t md w tm h b r c))) ∧
   (∀ g t d a b, TileWord (.tfma g t d a b) g d (fun _ => TTy_bits t) fun md w tm h r c =>
     (TTy_fmt t).write md (sumExact md.rm [(in_ t md w tm h a r c).mul (in_ t md w tm h b r c), in_ t md w tm h (.t d) r c])) ∧
   (∀ g t d a b, TileWord (.tmax g t d a b) g d (fun _ => TTy_bits t) fun md w tm h r c =>
     (TTy_fmt t).max md (srcElem tm h w (TTy_bits t) (shapeCols w.shape) a r c) (srcElem tm h w (TTy_bits t) (shapeCols w.shape) b r c)) ∧
   (∀ g t d a b, TileWord (.tmin g t d a b) g d (fun _ => TTy_bits t) fun md w tm h r c =>
     (TTy_fmt t).min md (srcElem tm h w (TTy_bits t) (shapeCols w.shape) a r c) (srcElem tm h w (TTy_bits t) (shapeCols w.shape) b r c)) ∧
   (∀ g dst src d a, TileWord (.tcvt g dst src d a) g d (fun _ => TCvtTy_bits dst) fun md w tm h r c =>
     (TCvtTy_fmt dst).write md (in_ src md w tm h a r c)) ∧
   (∀ g logis d a, TileWord (.tact g logis d a) g d (fun _ => 32) fun md w tm h r c =>
     special (if logis then logisV else tanhV) md (tm.getElem h a.toNat 32 (shapeCols w.shape) r c)))

/-- R298 to R300, R302: RVMUL, RVSHR and RVNAR.bf16 write their result and push what it loses; RVMARK pushes its marker in every lane.
R298 to R300, R302: UNMUL, UNSHR and UNNAR.bf16 give their operand what was lost back; UNMARK pops. -/
def Obligations.ReversibleStack : Prop :=
  ((∀ g d a b, PushWord (.rvmul g d a b) g d (fun w =>
       let n := (w.sget b).toNat / 2 ^ 32
       if 1 ≤ n ∧ n ≤ 16 ∧ (w.sget b).toNat % 2 ^ 32 ≠ 0 then some ((n - 1) * 16 + 1) else none) fun w l z e =>
     let n := (w.sget b).toNat / 2 ^ 32
     let p : Int := (w.src32 a l).toInt * ((w.sget b).setWidth 32).toInt
     1 ≤ n → n ≤ 16 → ((w.sget b).setWidth 32).toInt ≠ 0 → z = BitVec.ofInt 32 (p / 2 ^ n) ∧ (e.toNat : Int) = p % 2 ^ n) ∧
   (∀ g d a b, PushWord (.rvshr g d a b) g d (fun w =>
       let k := (w.sget b).toNat
       if 1 ≤ k ∧ k ≤ 16 then some ((k - 1) * 16 + 2) else none) fun w l z e =>
     let k := (w.sget b).toNat
     let x := (w.src32 a l).toInt
     1 ≤ k → k ≤ 16 → if 0 ≤ x then z.toInt = x ∧ e = 0 else z.toInt = x / 2 ^ k ∧ (e.toNat : Int) = x % 2 ^ k) ∧
   (∀ g d a, PushWord (.rvnarBf16 g d a) g d (fun _ => some 0xF3) fun w l z e =>
     z.toNat = (w.src32 a l).toNat / 2 ^ 16 ∧ e.toNat = (w.src32 a l).toNat % 2 ^ 16) ∧
   (∀ s w v m, Runs s w v (.rvmark m) → w.width ≤ 64 → v.width = w.width →
     let s1 := if 128 ≤ w.depth - w.spilled then spillLive w s else s
     ∃ t v1 v', exec (.rvmark m) s = .next t ∧ SameBytes s1 t ∧ s1.live? = some v1 ∧ t = s1.setWarp s.cur.core s.cur.slot v' ∧
       v' = { v1 with serp := v'.serp, tags := v'.tags, depth := v.depth + 1 } ∧ v'.tag v.depth = 0xF4 ∧
       ∀ l < w.width, v'.entry v.depth l = m)) ∧
  ((∀ g d a b, PopWord (.unmul g d a b) g d fun w l z e =>
     let n := (w.sget b).toNat / 2 ^ 32
     let p : Int := (w.src32 a l).toInt * 2 ^ n + (e.toNat % 2 ^ n : Nat)
     z = BitVec.ofInt 32 (p.tdiv ((w.sget b).setWidth 32).toInt)) ∧
   (∀ g d a b, PopWord (.unshr g d a b) g d fun w l z e =>
     let k := (w.sget b).toNat
     let y := (w.src32 a l).toInt
     z = if 0 ≤ y then BitVec.ofInt 32 y else BitVec.ofInt 32 (y * 2 ^ k + (e.toNat % 2 ^ k : Nat))) ∧
   (∀ g d a, PopWord (.unnarBf16 g d a) g d fun w l z e => z.toNat = (w.src32 a l).toNat % 2 ^ 16 * 2 ^ 16 + e.toNat) ∧
   (∀ s w v m, Runs s w v (.unmark m) →
     let s1 := if w.depth ≤ w.spilled ∧ 0 < w.spilled then fillLive w s else s
     ∃ t v1, exec (.unmark m) s = .next t ∧ SameBytes s1 t ∧ s1.live? = some v1 ∧
       t = s1.setWarp s.cur.core s.cur.slot { v1 with
         depth := v.depth - 1, region := v1.region.bind fun r => if v.depth - 1 < r.d0 then none else some r }))

/-- R298 to R300: what a word of a pair loses its inverse restores: UNMUL with the same m and s gives back x when RVMUL's result fits,
UNSHR and UNNAR.bf16 give back every x. R300, R302, R150: RVNAR.i16 gives va itself and UNNAR.i16 its low half sign-extended; RSDEPTH
reads D; RSPILL moves the window's lowest chunk out when it holds 32 entries or more, and RSFILL one back when there is one and room for
it. -/
def Obligations.ReversiblePairsAndMoves : Prop :=
  ((∀ (x m : Word) (n : Nat), m.toInt ≠ 0 → 1 ≤ n → n ≤ 16 →
     let p : Int := x.toInt * m.toInt;
     (-(2 ^ 31) : Int) ≤ p / 2 ^ n → p / 2 ^ n < 2 ^ 31 →
       BitVec.ofInt 32 (((BitVec.ofInt 32 (p / 2 ^ n)).toInt * 2 ^ n + p % 2 ^ n).tdiv m.toInt) = x) ∧
   (∀ (x : Word) (k : Nat), 1 ≤ k → k ≤ 16 →
     let z := if 0 ≤ x.toInt then x else BitVec.ofInt 32 (x.toInt / 2 ^ k)
     let e := if 0 ≤ x.toInt then 0 else x.toInt % 2 ^ k
     (if 0 ≤ z.toInt then z else BitVec.ofInt 32 (z.toInt * 2 ^ k + e)) = x) ∧
   (∀ x : Word, BitVec.ofNat 32 ((x.toNat / 2 ^ 16) % 2 ^ 16 * 2 ^ 16 + x.toNat % 2 ^ 16) = x)) ∧
  ((∀ g d a, WritesWord (.rvnarI16 g d a) g d fun _ w l z => z = w.src32 a l) ∧
   (∀ g d a, WritesWord (.unnarI16 g d a) g d fun _ w l z => z.toInt = (BitVec.ofNat 16 (w.src32 a l).toNat).toInt) ∧
   (∀ s w v d, Runs s w v (.rsdepth d) → WarpBecomes (.rsdepth d) s fun v' =>
     ScalarWrite v v' d true (v'.sget d = BitVec.ofNat 64 w.depth)) ∧
   (∀ s w v, Runs s w v .rspill → v.rsb = w.rsb → v.width = w.width → ∃ t, exec .rspill s = .next t ∧
     if w.depth - w.spilled < 32 then t = s
     else
       let c := w.spilled / 32
       let a := w.rsb.toNat + c * (64 * w.width + 128)
       let s1 := (s.settleAccess (chunkAccess s (s.ctxNo w) w c false)).askSpan (s.ctxNo w) a (64 * w.width + 128) true
       ∃ v1, s1.live? = some v1 ∧ SameBytes s1 t ∧ t.live? = some { v1 with
           spilled := 32 * (c + 1), rsp := BitVec.ofNat 64 (w.rsb.toNat + (c + 1) * (64 * w.width + 128)) } ∧
         t.pend = (s1.storeVirt s.cur.core s.cur.slot (s.ctxNo w) a (w.chunkBytes c)).pend) ∧
   (∀ s w v, Runs s w v .rsfill → v.rsb = w.rsb → v.width = w.width → w.width ≤ 64 → ∃ t, exec .rsfill s = .next t ∧
     if 0 < w.spilled ∧ w.depth - w.spilled ≤ 96 then
       let c := w.spilled / 32 - 1
       let a := w.rsb.toNat + c * (64 * w.width + 128)
       let r := (s.settleAccess (chunkAccess s (s.ctxNo w) w c true)).readVirt s.cur.core s.cur.slot (s.ctxNo w) a (64 * w.width + 128)
       let word (b l : Nat) : DWord := ofBytes ((r.1.drop (128 + 4 * (b / 2 * w.width + l))).take 4)
       ∃ v1 v', r.2.2.live? = some v1 ∧ SameBytes r.2.2 t ∧ t.live? = some v' ∧
         v' = { v1 with tags := v'.tags, serp := v'.serp, spilled := 32 * c, rsp := BitVec.ofNat 64 a } ∧
         (∀ b < 32, v'.tag (32 * c + b) = r.1.getD b 0) ∧
         ∀ b < 32, ∀ l < w.width, v'.entry (32 * c + b) l = (word b l).extractLsb' (16 * (b % 2)) 16
     else t = s))

/-- R301: RVADD sets vd to the sum modulo 2^32, and UNADD to the difference; neither loses a bit, and they do what ADD and SUB do. -/
def Obligations.ReversibleSums : Prop :=
  (∀ g d a b, WritesWord (.rvadd g d a b) g d fun _ w l z => z.toNat = ((w.src32 a l).toNat + (w.src32 b l).toNat) % 2 ^ 32) ∧
  (∀ g d a b, WritesWord (.unadd g d a b) g d fun _ w l z =>
    (z.toNat : Int) = ((w.src32 a l).toNat - (w.src32 b l).toNat : Int) % 2 ^ 32) ∧
  (∀ x y z : Word, z.toNat = (x.toNat + y.toNat) % 2 ^ 32 → (x.toNat : Int) = (z.toNat - y.toNat : Int) % 2 ^ 32) ∧
  (∀ s w v g d a b, Runs s w v (.rvadd g d a b) → Runs s w v (.add g .w32 d a b) → exec (.rvadd g d a b) s = exec (.add g .w32 d a b) s) ∧
  (∀ s w v g d a b, Runs s w v (.unadd g d a b) → Runs s w v (.sub g .w32 d a b) → exec (.unadd g d a b) s = exec (.sub g .w32 d a b) s)

/-- R45, R46, R192: a word of the warp stream that fails a check takes its trap, and none of its effects; so does one of the sequencer,
which stops and halts its team. Where the rules leave it open the statement takes the model's own reading, of log entries 11, 12, 32. -/
def Obligations.TrapsAreTaken : Prop :=
  (∀ s w v i tr, warpWord i = true → s.cur.sq = false → Traps s w i tr → s.live? = some v →
    ∃ t, exec i s = .next t ∧ TrapTaken s t v tr) ∧
  (∀ s i tid tm tr, seqOnly i = true → s.seqTeam s.cur.core = some (tid, tm) → s.cur.checked = false →
    firstTrap [seqDecodeTrap s s.cur.core tid tm (s.core s.cur.core).seq i, seqIssueTrap s s.cur.core tm (s.core s.cur.core).seq i] = some tr →
    ∃ t, exec i s = .next t ∧ SameBytes s t ∧ t.cur = { s.cur with moved := true } ∧
      TeamHalts s t (s.core s.cur.core).seq.team tr (s.core s.cur.core).seq.pc true (s.core s.cur.core).seq.half ∧
      (t.core s.cur.core).seq = { (s.core s.cur.core).seq with wait := .stopped })

/-- R331, R200: a privileged word that no decode check stops takes the privileged trap on every core but the hub control core. R333 to
R335: TRAP takes its trap when its guard is true in an active lane, and BRK when its kernel is launched for debugging too, with the
number as the faulting address; otherwise neither has an effect. CHKERR reads CIR once the warp's results have landed, as an issue's
first attempt read it (R448), and with .clr clears its fields and the region entry; REGION opens a region at this bundle, which a pop of
the bundle ends (R155). -/
def Obligations.PrivilegeAndTrapWords : Prop :=
  (∀ s w i, privilegedWord i = true → s.cur.core ≠ hubCore → decodeTrap s w i = none → hazard w s.cur.slices 0 (usesOf i) = false →
     wordTrap s w i = some { cause := .privileged }) ∧
  ((∀ s w v g n, s.view? = some w → s.live? = some v → s.cur.checked = false → w.actsOnce s.cur.slices g = true →
     ∃ t, exec (.trap g n) s = .next t ∧ TrapTaken s t v { cause := .trap, faddr := n.zeroExtend 64 }) ∧
   (∀ s w v g n, s.view? = some w → s.live? = some v → w.actsOnce s.cur.slices g = false → exec (.trap g n) s = .next s) ∧
   (∀ s w v g n, s.view? = some w → s.live? = some v → s.cur.checked = false → w.actsOnce s.cur.slices g = true →
     (s.recOf w).map (·.debug) = some true →
     ∃ t, exec (.brk g n) s = .next t ∧ TrapTaken s t v { cause := .brk, faddr := n.zeroExtend 64 }) ∧
   (∀ s w v g n, s.view? = some w → s.live? = some v → (w.actsOnce s.cur.slices g = false ∨ (s.recOf w).map (·.debug) ≠ some true) →
     exec (.brk g n) s = .next s) ∧
   (∀ s w v clr d, Runs s w v (.chkerr clr d) →
     let s1 := s.landSome s.cur.core s.cur.slot fun _ => true
     ∃ t v1 v', exec (.chkerr clr d) s = .next t ∧ SameBytes s1 t ∧ s1.live? = some v1 ∧ v1.pending = [] ∧ t.live? = some v' ∧
       v' = { v1 with s := v'.s, region := if clr then none else v1.region } ∧ (∀ r, r ≠ d → v'.sget r = v1.sget r) ∧
       ∀ tm, s1.team? w.team = some tm → v'.sget d = (if v.pending = [] then s1.cirSeen w.team else tm.cir) ∧
         (s.repeating = false → s1.cirSeen w.team = tm.cir) ∧ ∃ tm', t.team? w.team = some tm' ∧ tm' = { tm with cir := tm'.cir } ∧
         ∀ j < 64, tm'.cir.getLsbD j = (tm.cir.getLsbD j && !(clr && (decide (j < 2) || (decide (8 ≤ j) && decide (j < 16)))))) ∧
   (∀ s w v, Runs s w v .region → WarpBecomes .region s fun v' =>
     v' = { v with region := if v.depth < w.depth then none else some ⟨s.cur.pc, w.depth, w.nb, w.alive⟩ }))

/-- R337, R51, R55, R448: RDSR gives sd the register it names: MODE and FMT of the gang's lowest slice, GANG the gang's slices and its
lowest, and SEMAP and MGN_CTL of the core that s(D) selects. R337, R338, R51 to R55: WRSR writes the defined fields of the register it
names; MODE and FMT of every slice of the gang; CIR's PSN with PCNT, and RBK, are cleared by a 1; RSB, RSP and GANG ignore it, and so
does MGN_CTL while a request stands. Where the rules leave it open the statement takes the model's own reading, of log entry 41. -/
def Obligations.SpecialRegisters : Prop :=
  (∀ s w v d n, Runs s w v (.rdsr d n) → WarpBecomes (.rdsr d n) s fun v' => ScalarWrite v v' d true (
     let z := v'.sget d
     match n with
     | .mode => ∀ x, w.slice? (lowSlice s.cur.slices) = some x → z = x.mode
     | .fmt => ∀ x, w.slice? (lowSlice s.cur.slices) = some x → z = x.fmt
     | .shape => z = w.shape
     | .cir => z = s.cirSeen w.team ∧ ∀ tm, s.team? w.team = some tm → s.repeating = false → z = tm.cir
     | .rsb => z = w.rsb
     | .rsp => z = w.rsp
     | .bx k => z = Machine.sget 0 w.bx k.toNat
     | .gang => z.toNat % 2 ^ 16 = s.cur.slices.toNat ∧ z.toNat / 2 ^ 16 = lowSlice s.cur.slices
     | .semap => z = (s.core (w.sget d).toNat).semap
     | .mgnCtl => ∀ j < 64, z.getLsbD j = if j = 22 then s.mesc
         else (s.core (w.sget d).toNat).mgn.ctl.getLsbD j && (0x3FFF1F : DWord).getLsbD j)) ∧
  (∀ s w v d a n, Runs s w v (.wrsr d a n) →
     let x := w.sget a
     ∃ t, exec (.wrsr d a n) s = .next t ∧ SameBytes s t ∧
       match n with
       | .mode => ∃ v', t = s.setWarp s.cur.core s.cur.slot v' ∧ v' = { v with slices := v'.slices } ∧
           GangSlices s v v' fun _ y => { y with mode := BitVec.ofNat 64 (x.toNat % 2 ^ 4) }
       | .fmt => ∃ v', t = s.setWarp s.cur.core s.cur.slot v' ∧ v' = { v with slices := v'.slices } ∧
           GangSlices s v v' fun _ y => { y with fmt := BitVec.ofNat 64 (x.toNat % 2 ^ 8) }
       | .shape => t = s.setWarp s.cur.core s.cur.slot { v with shape := x &&& 0x37F7F }
       | .cir => t.live? = some { v with region := none } ∧ ∀ tm, s.team? w.team = some tm → ∃ tm', t.team? w.team = some tm' ∧
           tm' = { tm with cir := tm'.cir } ∧ ∀ j < 64, tm'.cir.getLsbD j = (tm.cir.getLsbD j &&
             !((x.getLsbD 0 && (j == 0 || (decide (8 ≤ j) && decide (j < 16)))) || (x.getLsbD 1 && j == 1)))
       | .rsb => t = s
       | .rsp => t = s
       | .gang => t = s
       | .bx k => ∃ v', t = s.setWarp s.cur.core s.cur.slot v' ∧ v' = { v with bx := v'.bx } ∧
           ∀ j, Machine.sget 0 v'.bx j = if j = k.toNat then x &&& 0xFFFFFF1F7F7F else Machine.sget 0 v.bx j
       | .semap => t = s.modCore (w.sget d).toNat fun c => { c with semap := x &&& 0xFFFFFFFFF }
       | .mgnCtl =>
         let k := (w.sget d).toNat
         let m := ((s.rollWindow k).core k).mgn
         ∃ m', (t.core k).mgn = m' ∧ (m.qreq = true → m' = m) ∧
           (m.qreq = false → m'.ctl = x &&& 0x3FFF1F ∧ m'.newV = true ∧ m'.inForce = m.inForce ∧ m'.escn = if x.getLsbD 23 then 0 else m.escn))

/-- R340, Table 16.3: a CORECTL word acts on the core that s(A) selects and gives sd the core's status after it. DRAIN closes the core
to placement and ADMIT opens it; STOP halts every team resident on it, each not yet halted with cause CSTOP; RESUME restarts those that
STOP or a restore halted. Where the rules leave it open the statement takes the model's own reading, of log entry 38. -/
def Obligations.CoreControl : Prop :=
  let core (i : Instr) (d a : SReg) (P : Nat → State → State → Prop) : Prop := ∀ s w v, Runs s w v i →
    let k := (w.sget a).toNat
    ∃ t s1 v1 z, exec i s = .next t ∧ P k s s1 ∧ s1.live? = some v1 ∧ t = s1.setWarp s.cur.core s.cur.slot (v1.sset d z) ∧
      let ts := s1.resident k
      z.getLsbD 0 = !ts.isEmpty ∧ z.getLsbD 1 = (!ts.isEmpty && ts.all fun t => t.2.halted) ∧ z.getLsbD 2 = (s1.core k).drain ∧
      z.getLsbD 3 = (s1.core k).mgn.qreq ∧ z.getLsbD 4 = (s1.core k).scanning ∧ z.getLsbD 5 = (s1.logical? k).isSome ∧
      ∀ l, s1.logical? k = some l → z.toNat / 2 ^ 6 = l % 2 ^ 8
  (∀ d a, core (.corectlStatus d a) d a fun _ s s1 => s1 = s) ∧
  (∀ d a, core (.corectlDrain d a) d a fun k s s1 => s1 = s.modCore k fun c => { c with drain := true }) ∧
  (∀ d a, core (.corectlAdmit d a) d a fun k s s1 => s1 = s.modCore k fun c => { c with drain := false }) ∧
  (∀ d a, core (.corectlStop d a) d a fun k s s1 => SameBytes s s1 ∧ ∀ u tm, s.team? u = some tm →
    (tm.cores.contains k = true → tm.halted = false → ∃ tm' p, s1.team? u = some tm' ∧
      tm' = { tm with halted := true, cause := some ({ cause := .cstop }, 0, false, 0), pair := p, recWait := true, haltAt := s.coreNow, byStop := true }) ∧
    ((∀ x ∈ s.resident k, x.1 = u → x.2.halted = true) → s1.team? u = some tm)) ∧
  (∀ s w v d a, Runs s w v (.corectlResume d a) →
    let k := (w.sget a).toNat
    ∃ t, exec (.corectlResume d a) s = .next t ∧
      let s1 := (s.resident k).foldl (fun u x => match u.team? x.1 with
        | none => u
        | some tm =>
          if stoppedTeam tm = false then u
          else
            let u := u.finishHalt x.1
            let u := if tm.recWait then u.writeTrapRecord x.1 tm else u
            if (u.team? x.1).any (fun tm => !tm.recWait) then u.resumeTeam x.1 else u) s
      t = s1.modLive fun v => v.sset d (s1.coreStatus k))

/-- R341, R458, R459: SCAN starts the pattern set on a drained, empty core without a scan, and answers 1 otherwise; SCANRD tells its
state, its cycles in units of 256, which an abort bounds, and its signature; SCANAB asks for an abort, which takes effect at most 64
core cycles later, unless the 480,000 cycles of the patterns have run; when the arrays are cleared the scan is done or aborted and a
SELF_TEST record says so. R342, R343: CMAPW answers 2 for a mapped core, 3 for one of another tower, 1 unless both cores are drained and
empty, and otherwise maps it and answers 0; MGNRD reads a word of MGN_STAT. Where the rules leave it open the statement takes the
model's own reading, of log entry 49. -/
def Obligations.ScansAndMaps : Prop :=
  ((∀ s w v d a, Runs s w v (.scan d a) →
     let k := (w.sget a).toNat
     let c := s.core k
     ∃ t, exec (.scan d a) s = .next t ∧
       if c.drain = true ∧ s.resident k = [] ∧ c.scanning = false then
         t = (s.modCore k fun c => { c with scan := ⟨.running, s.coreNow, 0, 0, none, 0, false⟩ }).modLive fun v => v.sset d 0
       else t = s.setWarp s.cur.core s.cur.slot (v.sset d 1)) ∧
   (∀ s w v d a, Runs s w v (.scanrd d a) →
     let x := (s.core (w.sget a).toNat).scan
     WarpBecomes (.scanrd d a) s fun v' => v' = { v with s := v'.s } ∧ (∀ r, r ≠ d → r ≠ d + 1 → v'.sget r = v.sget r) ∧
       (x.phase = .done → v'.sget (d + 1) = x.sig) ∧ (x.phase ≠ .done → v'.sget (d + 1) = 0) ∧
       (x.elapsed < 2 ^ 60 → (v'.sget d).toNat % 2 ^ 8 = (match x.phase with
         | .idle => 0
         | .running | .clearing _ => 1
         | .done => 2
         | .aborted => 3) ∧
         (v'.sget d).toNat / 2 ^ 8 = (if x.phase = .running then min (min s.coreNow (x.abortAt.getD s.coreNow) - x.start) 480000 else x.elapsed) / 256)) ∧
   (∀ s w v a, Runs s w v (.scanab a) →
     let k := (w.sget a).toNat
     let x := (s.core k).scan
     ∃ t, exec (.scanab a) s = .next t ∧
       t = if x.phase = .running ∧ x.abortAt = none then s.modCore k fun c => { c with scan := { x with abortAt := some (s.coreNow + 64) } }
         else s.modCore k id) ∧
   (∀ (s : State) k at_, (s.core k).scan.abortAt = some at_ → (s.core k).scan.phase = .running →
     let x := (s.core k).scan
     let n := min s.coreNow at_
     exec (.scanabTakeEffect k) s = .next (if n < x.start + 480000 then s.modCore k fun c =>
       { c with scan := ⟨.clearing true, x.start, n - x.start, 0, none, n, c.scan.auto⟩ } else s)) ∧
   (∀ (s : State) k sig,
     let x := (s.core k).scan
     let n := x.start + 480000
     exec (.scanPatternsEnd k sig) s = .next (if x.phase = .running ∧ n ≤ s.coreNow ∧ (∀ t, x.abortAt = some t → n ≤ t) then
       s.modCore k fun c => { c with scan := ⟨.clearing false, x.start, n - x.start, sig, none, n, c.scan.auto⟩ } else s)) ∧
   (∀ (s : State) k ab, (s.core k).scan.phase = .clearing ab →
     let x := (s.core k).scan
     ∃ t, exec (.scanClearComplete k) s = .next t ∧
       if s.coreNow < x.clearFrom + 2304 then t = s
       else (t.core k).scan = { x with phase := if ab then .aborted else .done } ∧
         (∀ a, t.byte a = if spadLoc k 0 ≤ a ∧ a < spadLoc (k + 1) 0 then 0 else s.byte a) ∧
         (s.log.queue.length < 1024 → ∃ r, t.log.queue = s.log.queue ++ [r] ∧ r.src = checkerSource k ∧ r.event = 0x38 ∧
           r.d0 = (if ab then 7 else 3)))) ∧
  ((∀ s w v d a, Runs s w v (.cmapw d a) →
     let l := (w.sget a).toNat
     let p := (w.sget (a + 1)).toNat
     let idle (k : Nat) : Prop := (s.core k).drain = true ∧ s.resident k = []
     ∃ t, exec (.cmapw d a) s = .next t ∧ SameBytes s t ∧
       ((s.logical? p).isSome = true → t = s.setWarp s.cur.core s.cur.slot (v.sset d 2)) ∧
       ((s.logical? p).isSome = false → p / 256 ≠ l / 64 → t = s.setWarp s.cur.core s.cur.slot (v.sset d 3)) ∧
       ((s.logical? p).isSome = false → p / 256 = l / 64 → (idle p → ∃ q, s.physical? l = some q ∧ ¬idle q) →
         t = s.setWarp s.cur.core s.cur.slot (v.sset d 1)) ∧
       ((s.logical? p).isSome = false → p / 256 = l / 64 → idle p → (∀ q, s.physical? l = some q → idle q) →
         t.live? = some (v.sset d 0) ∧ t.physical? l = some p ∧ (∀ m, m ≠ l → t.physical? m = s.physical? m) ∧
           t.boot.mapgen = s.boot.mapgen + 1)) ∧
   (∀ s w v d a n, Runs s w v (.mgnrd d a n) → WarpBecomes (.mgnrd d a n) s fun v' => ScalarWrite v v' d true (
     let m := ((s.rollWindow (w.sget a).toNat).core (w.sget a).toNat).mgn
     v'.sget d = BitVec.ofNat 64 (match n.toNat with
       | 0 => m.total + m.win * 2 ^ 32 + m.run * 2 ^ 48 + m.escn * 2 ^ 52 + m.held.toNat * 2 ^ 60 + m.qreq.toNat * 2 ^ 61 +
           (m.tpend || m.seqTest.isSome).toNat * 2 ^ 62
       | 1 => m.lpc.toNat % 2 ^ 57 + m.lsq.toNat * 2 ^ 57 + m.lslot % 32 * 2 ^ 58
       | 2 => Machine.sget 0 s.seqs (marginSource (w.sget a).toNat) + m.esct * 2 ^ 32
       | _ => m.vnow))))

/-- R339, R416 to R418: CSAVE halts the teams of a core and waits, and answers 3 where there are none; once they are stopped and
recorded, with nothing of theirs in flight, an area that translates is written, with its header after its body, the core is left empty,
and it answers 0; an area that does not translate is answered 1, and one whose translation was lost since, 2. CRESTORE answers 3 for a
core that holds a team and otherwise waits; an area that it cannot read or that fails its checks is answered 4, one that it loads 0, and
the teams of that are halted. Where the rules leave it open the statement takes the model's own reading, of log entries 37, 71, 86. -/
def Obligations.SaveAndRestore : Prop :=
  (∀ s w v d a, Runs s w v (.csave d a) →
    let k := (w.sget a).toNat
    ∃ t, exec (.csave d a) s = .next t ∧ SameBytes s t ∧
      if s.resident k = [] then t = s.setWarp s.cur.core s.cur.slot (v.sset d 3)
      else (∀ u tm, s.team? u = some tm → tm.cores.contains k = true → (t.team? u).map (·.halted) = some true) ∧
        ∃ v1, (s.stopCore k s.cur.core).live? = some v1 ∧
          Waits (s.stopCore k s.cur.core) t v1 (.csave d k (w.sget (a + 1)) false)) ∧
  (∀ s w v d a, Runs s w v (.crestore d a) →
    let k := (w.sget a).toNat
    ∃ t, exec (.crestore d a) s = .next t ∧
      if s.resident k = [] then Waits s t v (.crestore d k (w.sget (a + 1))) else t = s.setWarp s.cur.core s.cur.slot (v.sset d 3)) ∧
  (∀ (s : State) slot w d k addr probed, s.warp? hubCore slot = some w → s.frozen w = false → w.hubWait = some (.csave d k addr probed) →
    ∃ t, exec (.csaveComplete hubCore slot) s = .next t ∧
      (s.resident k = [] → AnswersHub s t slot d (.csave d k addr probed) 3) ∧
      (s.resident k ≠ [] → (∃ x ∈ s.resident k, x.2.halted = false) → t = s.stopCore k hubCore) ∧
      (s.resident k ≠ [] → (∀ x ∈ s.resident k, x.2.halted = true) → s.saveReady k = false ∨ s.settleCore k = none → t = s) ∧
      (s.resident k ≠ [] → (∀ x ∈ s.resident k, x.2.halted = true) → s.saveReady k = true → ∀ u, s.settleCore k = some u →
        let body := u.areaBody k
        let n := 64 + body.length
        let wt := Wait.csave d k addr probed
        (probed = false → ∀ tr, u.areaTrap addr n true = some tr → tr.waits = false → AnswersHub u t slot d wt 1) ∧
        (probed = false → u.areaTrap addr n true = none → t = u.modWarp hubCore slot fun w =>
          { w with slices := w.slices.map fun x =>
              { x with waits := x.waits.map fun y => if y = wt then .csave d k addr true else y } }) ∧
        (probed = true → u.areaWaits addr n true = false → ∀ tr, u.areaTrap addr n true = some tr → tr.waits = false →
          ∃ u1, AnswersHub u1 t slot d wt 2 ∧ u1.cores = u.cores ∧ u1.teams = u.teams) ∧
        (probed = true → u.areaWaits addr n true = false → u.areaTrap addr n true = none → k ≠ hubCore →
          let u1 := (u.storeArea slot (addr.toNat + 64) body).storeArea slot addr.toNat
            (areaHeader (u.saveOrder k).length (u.core k).segs (u.core k).fused body)
          AnswersHub (((u.saveOrder k).foldl (fun s t => s.removePart k t.1 t.2) u1).emptyCore k) t slot d wt 0 ∧
            (t.core k).warps = [] ∧ (t.core k).seq = Seq.idle))) ∧
  (∀ (s : State) slot w d k addr, s.warp? hubCore slot = some w → s.frozen w = false → w.hubWait = some (.crestore d k addr) →
    ∃ t, exec (.crestoreComplete hubCore slot) s = .next t ∧
      (s.resident k ≠ [] → AnswersHub s t slot d (.crestore d k addr) 3) ∧
      (s.resident k = [] → match s.readArea slot k addr with
        | some (status, u) => AnswersHub u t slot d (.crestore d k addr) status
        | none => t = s.askSpan hubCtx addr.toNat (2 ^ 16) false)) ∧
  (∀ (s : State) slot k addr tr, s.areaTrap addr 64 false = some tr → tr.waits = false → s.readArea slot k addr = some (4, s)) ∧
  (∀ (s : State) slot k addr u, s.readArea slot k addr = some (0, u) →
    let hd := s.seenVirt hubCore slot hubCtx addr.toNat 64
    let r := s.readVirt hubCore slot hubCtx addr.toNat (leAt hd 8 8)
    leAt hd 0 2 = 1 ∧ 1 ≤ leAt hd 2 1 ∧ r.2.1 = false ∧ crc32c (r.1.drop 64) = wordAt r.1 24 ∧
      (s.resident k = [] → ∀ x ∈ u.resident k, x.2.halted = true))

/-- R310, R312 to R318: TLD, TLD.tr, TST, SGATHER and MMA join the operations in flight at their cycle, with the descriptor that their
handle holds, 8 cycles later for a descriptor with X set; they hold slot QL, QM or QS for the cycles of Table 15.2. The bundle of an
MMA.co waits for its cluster instead, the reads of its cycle performed; when the words of all four members agree, all of them go on and
the MMAs start together, 8 cycles later; in a launch without a group each member takes illegal-operand. Where the rules leave it open
the statement takes the model's own reading, of log entries 27, 44, 66. -/
def Obligations.SequencerOperations : Prop :=
  let late (x : Word) : Nat := if x.getLsbD 23 then 8 else 0
  (∀ s tid tm q td h n, SeqRuns s tid tm q (.tld td h n) → SeqBecomes (.tld td h n) s fun q' =>
    OpIssues q q' (.tld td.toNat (loWord (q.pair h.toNat).1) (loWord (q.pair h.toNat).2) (n.toNat + 1)) (late (loWord (q.pair h.toNat).1)) 0
      (32 * (n.toNat + 1))) ∧
  (∀ s tid tm q td h e32 n, SeqRuns s tid tm q (.tldTr td h e32 n) → SeqBecomes (.tldTr td h e32 n) s fun q' =>
    OpIssues q q' (.tldTr td.toNat (loWord (q.pair h.toNat).1) (loWord (q.pair h.toNat).2) e32 (n.toNat + 1))
      (late (loWord (q.pair h.toNat).1)) 0 (32 * (n.toNat + 1))) ∧
  (∀ s tid tm q h ta n, SeqRuns s tid tm q (.tst h ta n) → SeqBecomes (.tst h ta n) s fun q' =>
    OpIssues q q' (.tst ta.toNat (loWord (q.pair h.toNat).1) (loWord (q.pair h.toNat).2) (n.toNat + 1)) (late (loWord (q.pair h.toNat).1)) 2
      (32 * (n.toNat + 1))) ∧
  (∀ s tid tm q td h, SeqRuns s tid tm q (.sgather td h) → SeqBecomes (.sgather td h) s fun q' =>
    let r (x : Nat) : DWord := q.reg (4 * h.toNat + x)
    OpIssues q q' (.sgather td.toNat (loWord (r 0)) (loWord (r 1)) (loWord (r 2)) (r 3))
      (max (late (loWord (r 0))) (max (late (loWord (r 1))) (late (loWord (r 2))))) 0 64) ∧
  (∀ s tid tm q ty acc m n td a b, SeqRuns s tid tm q (.mma ty acc false m n td a b) →
    ∃ t q' ca cb, exec (.mma ty acc false m n td a b) s = .next t ∧ SameBytes s t ∧
      t = { s.modSeq s.cur.core (fun _ => q') with fresh := s.fresh + 2 } ∧
      OpIssues q q' (.mma ty acc (mmaDim ty m) (mmaDim ty n) td.toNat (mTile a) (mTile b) (mDesc q a) (mDesc q b) (mTag q a) (mTag q b) ca cb)
        (max (late (loWord (mDesc q a).1)) (late (loWord (mDesc q b).1))) 1 (max 1 (mmaDim ty m * mmaDim ty n * mmaK ty / mmaRate ty))) ∧
  (∀ s tid tm q ty acc m n td a b, SeqRuns s tid tm q (.mma ty acc true m n td a b) → ∃ t, exec (.mma ty acc true m n td a b) s = .next t ∧
    if q.coGo = 0 then
      t = { (s.modSeq s.cur.core fun _ => { q with wait := .mmaCo (.mma ty acc true m n td a b) s.cur.len }).readDue s.cur.core true with
        cur := { s.cur with moved := true } }
    else ∃ q' ca cb, SameBytes s t ∧ t = { s.modSeq s.cur.core (fun _ => q') with fresh := s.fresh + 2 } ∧
      q' = { q with slots := q'.slots, ops := q.ops ++ [(⟨q.cycle, q.pc, .mma ty acc (mmaDim ty m) (mmaDim ty n) td.toNat (mTile a) (mTile b)
        (mDesc q a) (mDesc q b) (mTag q a) (mTag q b) ca cb, 8, 0, [], q.coGo⟩ : SeqOp)] } ∧
      ∀ x, Machine.sget 0 q'.slots x =
        if x = 1 then q.cycle + max 1 (mmaDim ty m * mmaDim ty n * mmaK ty / mmaRate ty) else Machine.sget 0 q.slots x) ∧
  (∀ s cluster ks k0 gid g, [4 * cluster, 4 * cluster + 1, 4 * cluster + 2, 4 * cluster + 3].filterMap s.physical? = ks →
    ks.length = 4 → ks.Nodup → ks.head? = some k0 → s.grid? gid = some g → g.parent = none → g.lr.cogrp ≠ 0 →
    (∀ k ∈ ks, s.seqLive k = true ∧ s.seqGrid k = some gid ∧ (coKey (s.core k).seq (s.core k).seq.wait).isSome = true ∧
      coKey (s.core k).seq (s.core k).seq.wait = coKey (s.core k0).seq (s.core k0).seq.wait ∧ ∃ x ∈ s.resident k, x.2.grid = gid) →
    ∃ t, exec (.mmaCoRendezvous cluster) s = .next t ∧ SameBytes s t ∧ (∀ k, k ∉ ks → t.core k = s.core k) ∧
      ∀ k ∈ ks, t.core k = { s.core k with seq := { (s.core k).seq with wait := .none, coGo := s.nextId } }) ∧
  ∀ s cluster k0 rest gid g,
    ([4 * cluster, 4 * cluster + 1, 4 * cluster + 2, 4 * cluster + 3].filterMap s.physical?).filter (coWaiting s) = k0 :: rest →
    s.seqGrid k0 = some gid → s.grid? gid = some g → g.lr.cogrp = 0 →
    exec (.mmaCoRendezvous cluster) s =
      .next ((k0 :: rest).foldl (fun s k => seqTrap k (s.core k).seq.pc { cause := .illOperand } s) s)

/-- R309, R310, R312 to R315: a read due at the sequencer's cycle takes the words that stand there then, and its row lands 16 cycles
after (24 after the row's first cycle for SGATHER), later by the operation's delay; a landing that is due writes its words to its tile,
or to the scratchpad words of its descriptor's row, where the operand cache drops what was filled from that scratchpad (R319), and
nothing else; a sequencer that stalls neither reads nor lands (R307). R316, R317, Table 15.6: an MMA's last read leaves a landing for
every element of D, at L cycles after its issue. Where the rules leave it open the statement takes the model's own reading, of log
entries 44, 74. -/
def Obligations.SequencerReadsAndLandings : Prop :=
  ((∀ s core tid tm q op, s.seqTeam core = some (tid, tm) → s.seqRuns core = true → (s.core core).seq = q → q.issued = true → q.ops = [op] →
     op.done < readSpan op.kind → op.c + op.done ≤ q.cycle → op.co = 0 → (∀ loc, s.spadPending loc = false) →
     (∀ x ∈ s.cores, x.2.latent = []) →
     let j := op.done
     ∃ t, exec (.seqReadDone core) s = .next t ∧
       match op.kind with
       | .tld td da db n => t = s.modSeq core fun _ => { q with
           ops := if j + 1 < 32 * n then [{ op with done := j + 1 }] else []
           landings := insertLanding ⟨op.c + (j + 16) + op.late, op.c, .tile (td + j / 32) (j % 32), ~~~0,
             (List.range 32).map fun c => s.spadWord core tm.grid ((descOf da db).phys (j / 32) (j % 32) (4 * c))⟩ q.landings }
       | .tst ta da db n => t = s.modSeq core fun _ => { q with
           ops := if j + 1 < 32 * n then [{ op with done := j + 1 }] else []
           landings := insertLanding ⟨op.c + (j + 16) + op.late, op.c, .spad da db (j / 32) (j % 32), ~~~0,
             (List.range 32).map fun c => tm.tget q.half (ta + j / 32) (j % 32) c⟩ q.landings }
       | .tldTr td da db true 1 => t = s.modSeq core fun _ => { q with
           ops := if j + 1 < 32 then [{ op with done := j + 1 }] else []
           landings := insertLanding ⟨op.c + (j + 16) + op.late, op.c, .tile td j, ~~~0,
             (List.range 32).map fun r => s.spadWord core tm.grid ((descOf da db).phys 0 r (4 * j))⟩ q.landings }
       | .sgather td ptr idx val ctl => t = s.modSeq core fun _ => { q with
           ops := if j + 1 < 64 then [{ op with
             done := j + 1
             data := if j % 2 = 1 then op.data else
               putRow op.data 0 0 0 [(0, s.spadWord core tm.grid (ptr.toNat + 4 * (ctl.toNat % 2 ^ 16 + j / 2))),
                 (1, s.spadWord core tm.grid (ptr.toNat + 4 * (ctl.toNat % 2 ^ 16 + j / 2) + 4))] }] else []
           landings := if j % 2 = 0 then q.landings else insertLanding ⟨op.c + (2 * (j / 2) + 24) + op.late, op.c, .tile td (j / 2), ~~~0,
             gatherRow s core tm.grid (readData op.data 0 0 0 0) (readData op.data 0 0 0 1) idx.toNat val.toNat ctl⟩ q.landings }
       | _ => True) ∧
   (∀ s core, (s.seqRuns core = false ∨ (s.core core).seq.issued = false) → exec (.seqReadDone core) s = .next s) ∧
   (∀ s core, s.seqRuns core = false → exec (.seqWriteLanding core) s = .next s) ∧
   (∀ s core tid tm q l, s.seqTeam core = some (tid, tm) → s.seqRuns core = true → (s.core core).seq = q → q.landings = [l] → l.at_ ≤ q.cycle →
     l.words.length ≤ 32 → ∀ tile row, l.row = .tile tile row → tile < 64 → row < 32 → ∃ t tm', exec (.seqWriteLanding core) s = .next t ∧
       t = { s.modSeq core (fun _ => { q with landings := [] }) with teams := t.teams } ∧ (∀ u, u ≠ tid → t.team? u = s.team? u) ∧
       t.team? tid = some tm' ∧ tm' = { tm with words := tm'.words } ∧ ∀ h n r c, n < 64 → r < 32 → c < 32 →
         tm'.tget h n r c = if h = q.half ∧ n = tile ∧ r = row ∧ l.mask.getLsbD c = true then l.words.getD c (tm.tget h n r c) else tm.tget h n r c) ∧
   ∀ s core tid tm q l, s.seqTeam core = some (tid, tm) → s.seqRuns core = true → (s.core core).seq = q → q.landings = [l] → l.at_ ≤ q.cycle →
     l.words.length = 32 → ∀ da db tile row, l.row = .spad da db tile row → ∃ t, exec (.seqWriteLanding core) s = .next t ∧
       let loc (c : Nat) : Option Nat := s.spadAddr core tm.grid ((descOf da db).phys tile row (4 * c))
       t.teams = s.teams ∧ (∀ k, t.core k = { s.core k with seq := (t.core k).seq }) ∧
       (∀ a, (∀ c < 32, l.mask.getLsbD c = true → ∀ x, loc c = some x → a < x ∨ x + 4 ≤ a) → t.byte a = s.byte a) ∧
       ∀ c < 32, l.mask.getLsbD c = true → ∀ x, loc c = some x → (∀ c' < 32, c' ≠ c → ∀ y, loc c' = some y → y + 4 ≤ x ∨ x + 4 ≤ y) →
         (∀ j < 4, t.byte (x + j) = (l.words.getD c 0).extractLsb' (8 * j) 8) ∧
           ∀ e ∈ (t.core core).seq.cache, ∀ b ∈ e.bytes, b.1 / 2 ^ 20 ≠ x / 2 ^ 20) ∧
  ((∀ ty acc m n td at_ by_ d i j, ty ≠ .f64 → i < m → j < n →
     ∃ l ∈ mmaLandings ty acc m n td at_ by_ d, l.at_ = at_ ∧
       l.row = .tile (td + i / 32 * ((n + 31) / 32) + j / 32) (i % 32) ∧ l.mask.getLsbD (j % 32) = true ∧
       l.words[j % 32]? = some (BitVec.ofNat 32 (mmaElement ty acc n d i j))) ∧
   (∀ acc m n td at_ by_ d i j, i < m → j < n →
     ∃ l ∈ mmaLandings .f64 acc m n td at_ by_ d, l.at_ = at_ ∧
       l.row = .tile (td + i / 32 * ((n + 15) / 16) + j / 16) (i % 32) ∧
       l.words[2 * (j % 16)]? = some (BitVec.ofNat 32 (mmaElement .f64 acc n d i j)) ∧
       l.words[2 * (j % 16) + 1]? = some (BitVec.ofNat 32 (mmaElement .f64 acc n d i j / 2 ^ 32))) ∧
   ∀ (s : State) core g h tm c pc ty acc m n td a b da db ha hb ca cb late data q co,
     let op : SeqOp := ⟨c, pc, .mma ty acc m n td a b da db ha hb ca cb, late, q, data, co⟩
     (q + 1 ≠ readSpan op.kind → (s.readStep core g h tm op q).2.1 = []) ∧
     (q + 1 = readSpan op.kind → ∃ d, (s.readStep core g h tm op q).2.1 =
       mmaLandings ty acc m n td (c + (max 1 (m * n * mmaK ty / mmaRate ty) + if ty = .f64 then 12 else 8) + late) c d))

/-- R134: an integer MMA forms (C[i][j] + Σ A[i][k] · B[k][j]) mod 2^32, read as signed, C taken as 0 for .zero; the order is
immaterial. -/
def Obligations.IntegerMatrixElements : Prop :=
  (∀ ty (signed : Bool) bits, (ty, signed, bits) ∈ [(MmaTy.i8, true, 8), (.i4, true, 4), (.n4, false, 4)] → ∀ acc n d i j,
    let v (x : Nat) : Int := if signed then (BitVec.ofNat bits x).toInt else (x : Int) % 2 ^ bits
    let c : Int := if acc then (BitVec.ofNat 32 (elemBits 32 n i j (readData d 2))).toInt else 0
    ∀ ks : List Nat, ks.Perm (List.range (mmaK ty)) →
      (BitVec.ofNat 32 (mmaElement ty acc n d i j)).toInt = Int.bmod
        (c + (ks.map fun k => v (elemBits bits (mmaK ty) i k (readData d 0)) * v (elemBits bits n k j (readData d 1))).sum) (2 ^ 32)) ∧
  Int.bmod (0x7FFFFFFF + 1) (2 ^ 32) = -2147483648

/-- R320 to R322, R328, R427: SEGH opens a segment with its CYC and SIG, a count of 0 and the signature of no word, and keeps a copy of
c and GEN; SEGE closes one whose count and signature agree, and an armed halt takes effect; on a mismatch the segment's alarm is
recorded with both values, and a segment that neither settled nor alarmed before restarts at its SEGH with c and GEN as kept; SHALT arms
a halt. R323, R324, R319: SLOOP opens a loop over the bundles that follow, with a count of its own or of c(K); SLEND goes back to the
body while the count is above zero, and closes the loop otherwise; SADDR writes c(a) + imm · scale to c(d), adds 1 to the generation of
d's handle and drops the handle's operand-cache entries. Where the rules leave it open the statement takes the model's own reading, of
log entries 27, 55. -/
def Obligations.SegmentsAndLoops : Prop :=
  ((∀ s tid tm q cyc sig, SeqRuns s tid tm q (.segh cyc sig) → SeqBecomes (.segh cyc sig) s fun q' =>
     ∃ alarmed, q' = { q with seg := some ⟨q.pc, cyc, sig, 0, 0xFFFFFFFF, false, alarmed⟩, copy := (q.c, q.gen) } ∧
       (alarmed = true ↔ ∃ g, q.seg = some g ∧ g.alarmed = true)) ∧
   (∀ s tid tm q, SeqRuns s tid tm q .shalt → SeqBecomes .shalt s fun q' => q' = { q with armed := true }) ∧
   (∀ s tid tm q g, SeqRuns s tid tm q .sege → q.seg = some g →
     let count := if s.cur.checked then g.count else g.count + 1
     (count = g.cyc.toNat ∧ crcFinal g.crc = g.sig → SeqBecomes .sege s fun q' => q' = { q with seg := none, ended := q.ended || q.armed }) ∧
     (¬(count = g.cyc.toNat ∧ crcFinal g.crc = g.sig) → ∃ t, exec .sege s = .next t ∧ (∃ r ∈ t.log.queue,
         r.event = 0x14 ∧ r.src = seqSource s.cur.core ∧ r.addr = g.pc ∧ r.d0.toNat = (crcFinal g.crc).toNat + count % 2 ^ 24 * 2 ^ 32 ∧
         r.d1.toNat = g.sig.toNat + g.cyc.toNat * 2 ^ 32) ∧
       (g.settled = false → g.alarmed = false →
         let q' := (t.core s.cur.core).seq
         q'.pc = g.pc ∧ q'.c = q.copy.1 ∧ q'.gen = q.copy.2 ∧ q'.cache = [] ∧ q'.loops = [] ∧ q'.wait = .none ∧
           q'.seg = some { g with alarmed := true, count := 0, crc := 0xFFFFFFFF }) ∧
       (g.settled = true ∨ g.alarmed = true → tm.halted = false → (t.team? tid).map (fun x => (x.halted, x.cause.map (·.1.cause))) = some (true, some .cstop))))) ∧
  ((∀ s tid tm q n, SeqRuns s tid tm q (.sloop n) → SeqBecomes (.sloop n) s fun q' => q' = { q with loops := q.loops ++ [(n.toNat, s.nextPc)] }) ∧
   (∀ s tid tm q k, SeqRuns s tid tm q (.sloopReg k) → SeqBecomes (.sloopReg k) s fun q' =>
     q' = { q with loops := q.loops ++ [((q.reg k.toNat).toNat % 2 ^ 32, s.nextPc)] }) ∧
   (∀ s tid tm q n body loops, SeqRuns s tid tm q .slend → q.loops = loops ++ [(n, body)] → SeqBecomes .slend s fun q' =>
     q' = if n ≤ 1 then { q with loops := loops } else { q with loops := loops ++ [(n - 1, body)], pc := body }) ∧
   (∀ s tid tm q x2048 d a imm, SeqRuns s tid tm q (.saddr x2048 d a imm) → SeqBecomes (.saddr x2048 d a imm) s fun q' =>
     q' = { q with c := q'.c, gen := q'.gen, cache := q.cache.filter fun e => e.handle != d.toNat / 2 } ∧
     (∀ r, q'.reg r = if r = d.toNat then q.reg a.toNat + BitVec.ofInt 64 (imm.toInt * (if x2048 then 2048 else 128)) else q.reg r) ∧
     ∀ j, Machine.sget 0 q'.gen j = if j = d.toNat / 2 then Machine.sget 0 q.gen j + 1 else Machine.sget 0 q.gen j))

/-- R325 to R328, R62, R65: SWAITB goes on, its operand cache emptied, once the warp has sealed the batch and every batch up to it is
complete, and waits until then; SBAR arrives as a warp does, and .sync waits for the phase to turn; GIVE puts a tile in transit to the
warp's slot, and TAKE owns one that is the sequencer's or in transit to it with WR clear, or waits; a halted sequencer with nothing in
flight is idle, and a halted team's sequencer drains. Where the rules leave it open the statement takes the model's own reading, of log
entry 26. -/
def Obligations.SequencerWaits : Prop :=
  (∀ s tid tm q n k core slot w, SeqRuns s tid tm q (.swaitb n k) → s.teamWarp tid n.toNat = some (core, slot, w) →
    SeqBecomes (.swaitb n k) s fun q' =>
      q' = if (q.reg k.toNat).toNat ≤ w.nb ∧ ∀ j ∈ w.jobs, (q.reg k.toNat).toNat < j.batch then { q with cache := [] }
        else { q with wait := .swaitb n.toNat (q.reg k.toNat) }) ∧
  (∀ s core q n b k slot w, (s.core core).seq = q → q.wait = .swaitb n b → s.seqLive core = true →
    s.teamWarp q.team n = some (k, slot, w) → ∃ t, exec (.swaitbComplete core) s = .next t ∧ SameBytes s t ∧
      t = if b.toNat ≤ w.nb ∧ (∀ j ∈ w.jobs, b.toNat < j.batch) then s.modSeq core fun _ => { q with cache := [], wait := .none } else s) ∧
  (∀ s tid tm q b, SeqRuns s tid tm q (.sbarArrive b) →
    let n := s.teamCount tm
    let x := tm.bar n b.toNat
    ∃ t tm', exec (.sbarArrive b) s = .next t ∧ t.team? tid = some tm' ∧
      (∀ c, tm'.bar n c = if c = b.toNat then (if x.count + 1 < x.e then ⟨x.e, x.count + 1, x.phase⟩ else ⟨x.e, 0, !x.phase⟩) else tm.bar n c) ∧
      (x.count + 1 < x.e → sfind tm'.seqArr (128 * q.half + b.toNat) = some x.phase ∧ t = { s with teams := t.teams })) ∧
  (∀ s tid tm q b, SeqRuns s tid tm q (.sbarSync b) → q.wait = .none →
    let n := s.teamCount tm
    let x := tm.bar n b.toNat
    ∃ t tm', exec (.sbarSync b) s = .next t ∧ t.team? tid = some tm' ∧
      (∀ c, tm'.bar n c = if c = b.toNat then (if x.count + 1 < x.e then ⟨x.e, x.count + 1, x.phase⟩ else ⟨x.e, 0, !x.phase⟩) else tm.bar n c) ∧
      (x.count + 1 < x.e → (t.core s.cur.core).seq = { q with wait := .bar b.toNat x.phase } ∧ sfind tm'.seqArr (128 * q.half + b.toNat) = some x.phase) ∧
      (x.e ≤ x.count + 1 → (t.core s.cur.core).seq.wait = .none ∧ sfind tm'.seqArr (128 * q.half + b.toNat) = none)) ∧
  (∀ s tid tm q tile n slot x, SeqRuns s tid tm q (.seqGive tile n) → n.toNat < s.teamCount tm → s.slotOf s.cur.core tid n.toNat = some slot →
    s.warp? s.cur.core slot = some x → x.retired = false → ∃ t, exec (.seqGive tile n) s = .next t ∧
      TeamBecomes s t tid fun tm' => TileSet tm tm' (tm.halfOf s.cur.core) tile.toNat ⟨.transitWarp slot, 32⟩) ∧
  (∀ s tid tm q tile, SeqRuns s tid tm q (.seqTake tile) →
    let x := tm.tile (tm.halfOf s.cur.core) tile.toNat
    if x.owner = .seq ∨ x.owner = .transitSeq ∧ s.wr s.cur.core tid tile.toNat = false then
      ∃ t, exec (.seqTake tile) s = .next t ∧ TeamBecomes s t tid fun tm' => TileSet tm tm' (tm.halfOf s.cur.core) tile.toNat ⟨.seq, x.giver⟩
    else SeqBecomes (.seqTake tile) s fun q' => q' = { q with seg := q'.seg, wait := .take tile.toNat } ∧
      q'.seg = q.seg.map fun g => { g with settled := true }) ∧
  (∀ s core, (s.seqLive core = false ∨ (s.core core).seq.ended = false ∨ (s.core core).seq.ops ≠ [] ∨ (s.core core).seq.landings ≠ []) →
    exec (.seqIdle core) s = .next s) ∧
  (∀ s core tm, s.seqTeam core = some ((s.core core).seq.team, tm) → tm.halted = false → (s.core core).seq.ended = true →
    (s.core core).seq.ops = [] → (s.core core).seq.landings = [] → s.teamWarps (s.core core).seq.team ≠ [] →
    exec (.seqIdle core) s = .next (s.modSeq core fun q => { q with running := false, ended := false })) ∧
  (∀ s core, (∀ tid tm, s.seqTeam core = some (tid, tm) → tm.halted = false) → exec (.seqHaltDrainEnd core) s = .next s) ∧
  ∀ s core tid tm, s.seqTeam core = some (tid, tm) → tm.halted = true → ∃ t q', exec (.seqHaltDrainEnd core) s = .next t ∧ SameBytes s t ∧
    t = s.modSeq core (fun _ => q') ∧ q' = { (s.core core).seq with ops := [], landings := [], captured := q'.captured } ∧
    ∃ ls, q'.captured = (s.core core).seq.captured ++ ls

/-- R382 to R386, R388, R389: of a running window, the record in its expected slot is parsed, once the device is READY (R439, R442) and
no lower window has one: one that carries another SEQ stops the window with code 0x01; a malformed one is rejected with its code and the
window goes on; a legal one, when the scoreboard has room, joins it with its scalar registers read and its transfers waiting, and its
slot is marked read. R384, R388 to R391: the oldest node of a window, its dependences met, starts its transfers, and starts once they
are done and its stream is not suspended: a grid stands for it, with the stream's scalars in s56 to s63; one with a failed transfer does
not start and is complete. A transfer writes the host's bytes to its destination; one that ends in error, or at a tower that is DEAD
(R438), is recorded and fails its node. Where the rules leave it open the statement takes the model's own reading, of log entries 24,
28, 47, 85. -/
def Obligations.Dispatch : Prop :=
  (∀ s w, let win := s.window w
     let r := s.slotWords win (win.nseq % 16)
     let l := parseRec r
     let rejected (t : State) (code : Nat) : Prop := ∃ e, t.log.queue = s.log.queue ++ [e] ∧ e.event = 0x40 ∧ e.src = dispatcher ∧
       e.d0.toNat = code + w * 2 ^ 8 + l.seq * 2 ^ 14
     let consumed (t : State) : Prop := t.window w = { win with nseq := (win.nseq + 1) % 128 } ∧ t.byte (slotLoc win (win.nseq % 16) + 255) = 0
     (win.en = false ∨ win.stop = true ∨ (recDword r 31).getLsbD 63 = false ∨ s.boot.phase ≠ 2 ∨ (∃ x < w, s.canParse x = true) →
       exec (.launchRecordParse w) s = .next s) ∧
     (w < 64 → s.boot.phase = 2 → (∀ x < w, s.canParse x = false) → win.en = true → win.stop = false → (recDword r 31).getLsbD 63 = true → l.seq < 128 →
       (l.seq ≠ win.nseq → ∃ t, exec (.launchRecordParse w) s = .next t ∧ t.nodes = s.nodes ∧ t.window w = { win with stop := true } ∧
         rejected t 1) ∧
       (l.seq = win.nseq → s.freeEntries < 1 + l.live.length → exec (.launchRecordParse w) s = .next s) ∧
       (l.seq = win.nseq → 1 + l.live.length ≤ s.freeEntries →
         (∀ code, recordCode s r l = some code → ∃ t, exec (.launchRecordParse w) s = .next t ∧ t.nodes = s.nodes ∧ consumed t ∧ rejected t code) ∧
         (recordCode s r l = none → s.tableWaits l = true → exec (.launchRecordParse w) s = .next s) ∧
         (recordCode s r l = none → s.tableWaits l = false → s.tableScalars l = none →
           ∃ t, exec (.launchRecordParse w) s = .next t ∧ t.nodes = s.nodes ∧ consumed t ∧ rejected t 0x0C) ∧
         (∀ scal, recordCode s r l = none → s.tableWaits l = false → s.tableScalars l = some scal →
           ∃ t n, exec (.launchRecordParse w) s = .next t ∧ t.nodes = s.nodes ++ [n] ∧ consumed t ∧ t.log = s.log ∧ t.teams = s.teams ∧
             t.grids = s.grids ∧ n.win = w ∧ n.lr = l ∧ n.scal = scal ∧ n.grid = none ∧ n.failed = false ∧ n.mark = none ∧
             (∀ k x, (k, x) ∈ n.xst ↔ k < 2 ∧ (l.xfers.getD k (0, 0, 0)).2.2 ≠ 0 ∧ x = if l.xearly then 1 else 0))))) ∧
  ((∀ s w, s.firstNode w = none → exec (.nodeStart w) s = .next s) ∧
   (∀ s w n, s.firstNode w = some n →
     (n.grid.isSome = true ∨ s.ckptDrains = true ∨ depsMet (s.beforeNode w) n.lr = false → exec (.nodeStart w) s = .next s) ∧
     (n.grid = none → s.ckptDrains = false → depsMet (s.beforeNode w) n.lr = true →
       ((∃ x ∈ n.xst, x.2 = 0) → ∃ t, exec (.nodeStart w) s = .next t ∧ t = { s with nodes := t.nodes } ∧
         t.firstNode w = some { n with xst := n.xst.map fun x => (x.1, if x.2 = 0 then 1 else x.2) }) ∧
       ((∀ x ∈ n.xst, x.2 = 2) → n.failed = false → (s.window w).susp = none → s.markDue w = false → ∃ t, exec (.nodeStart w) s = .next t ∧
         let ss (k : Nat) : DWord := if n.lr.ssw.testBit k then n.lr.ivs.getD k 0 else Machine.sget 0 (s.window w).ss k
         t.firstNode w = some { n with readyAt := some s.hubNow, placedAt := s.hubNow, grid := some s.nextId } ∧
         t.mem = s.mem ∧ t.cores = s.cores ∧ t.teams = s.teams ∧ t.nextId = s.nextId + 1 ∧
         (∀ k < 8, Machine.sget 0 (t.window w).ss k = ss k) ∧
         ∃ g, t.grid? s.nextId = some g ∧ g.win = n.win ∧ g.lr = n.lr ∧ g.parent = none ∧ g.nextTeam = 0 ∧ g.retired = false ∧
           (∀ k < 8, Machine.sget 0 g.scal (56 + k) = ss k) ∧ ∀ k < 56, Machine.sget 0 g.scal k = Machine.sget 0 n.scal k) ∧
       ((∀ x ∈ n.xst, x.2 = 2) → n.failed = true → ∃ t, exec (.nodeStart w) s = .next t ∧ t.grids = s.grids ∧
         t.nodes = s.beforeNode w ++ (s.nodes.drop ((s.beforeNode w).length + 1))))) ∧
   (∀ s w k e n, s.nodes.find? (fun n => n.win == w && n.xst.contains (k, 1)) = some n → ∃ t r,
     exec (.hostTransferComplete w k (some e)) s = .next t ∧ t.mem = s.mem ∧ t.log.queue = s.log.queue ++ [r] ∧ r.event = 0x42 ∧ r.sev = 3 ∧
       { n with xst := n.xst.map (fun y => if y.1 = k then (k, 2) else y), failed := true } ∈ t.nodes) ∧
   ∀ s w k n, s.nodes.find? (fun n => n.win == w && n.xst.contains (k, 1)) = some n →
     let x := n.lr.xfers.getD k (0, 0, 0)
     let rs := s.laxRuns n.lr.ctx x.2.1.toNat x.2.2
     let done (bad : Bool) : Node := { n with xst := n.xst.map (fun y => if y.1 = k then (k, 2) else y), failed := n.failed || bad }
     s.probeSpan 0 n.lr.ctx x.2.1 x.2.2 0 false = none → (∀ r ∈ rs, s.blocked hubCore r.1 true = false) →
     ((∀ r ∈ rs, s.reach hubCore r.1 true true ≠ .dead) → ∃ t, exec (.hostTransferComplete w k none) s = .next t ∧ t.log = s.log ∧
       done false ∈ t.nodes ∧ ∀ loc si, rs = [(loc, x.2.2, si)] → ∀ j < x.2.2,
         t.byte (loc + j) = s.byte (hostLoc (x.1.toNat % (peerBase - devLimit)) + j)) ∧
     ((∃ r ∈ rs, s.reach hubCore r.1 true true = .dead) → ∃ t r, exec (.hostTransferComplete w k none) s = .next t ∧
       t.log.queue = s.log.queue ++ [r] ∧ r.event = 0x42 ∧ r.sev = 3 ∧ done true ∈ t.nodes))

/-- R31, R32, R58, R75 to R77, R392, R397: of a grid's unplaced teams the first that a core can take is created there, with no earlier
team placeable anywhere; its scratchpad's boundary moves, 128 cycles a segment, once the ways it gives up are written back, and is
zeroed before its warps issue. Where the rules leave it open the statement takes the model's own reading, of log entry 53. -/
def Obligations.Placement : Prop :=
  (∀ s grid core g, let s1 := s.reserve
    s1.grid? grid = some g →
    ((∀ num ∈ s1.openTeams grid g, s1.placeable grid g num core = false) → exec (.teamPlace grid core) s = .next s1) ∧
    ∀ num, (s1.openTeams grid g).find? (fun n => s1.placeable grid g n core) = some num → g.parent = none → g.grouped = false →
      (∀ x ∈ s1.waitingGrids, keyBefore (s1.teamKey x) (s1.teamKey (grid, g, num)) = true →
        ∀ k ∈ s1.mappedCores, s1.placeable x.1 x.2.1 x.2.2 k = false) →
      ∃ t tm, exec (.teamPlace grid core) s = .next t ∧ t.team? s.nextId = some tm ∧ tm.grid = grid ∧ tm.num = num ∧ tm.core = core ∧
        tm.paired = g.isPaired ∧ tm.halted = false ∧ (∀ tid, tid ≠ s.nextId → t.team? tid = s.team? tid) ∧ t.mem = s.mem ∧
        ∃ g', t.grid? grid = some g' ∧ g'.nextTeam = (if num < g.nextTeam then g.nextTeam else num + 1) ∧
          (g.nextTeam ≤ num → g'.gaps = g.gaps ++ (List.range (num - g.nextTeam)).map (g.nextTeam + ·))) ∧
  (∀ s core, (s.core core).moving = none → exec (.boundaryMoveComplete core) s = .next s) ∧
  (∀ s core want t0, (s.core core).moving = some (want, false, t0) → (s.core core).fused = false →
    (s.coreNow < t0 + 128 * (want - (s.core core).segs) ∨ s.writeBack core false = none → exec (.boundaryMoveComplete core) s = .next s) ∧
    ∀ u, t0 + 128 * (want - (s.core core).segs) ≤ s.coreNow → s.writeBack core false = some u →
      ∃ t, exec (.boundaryMoveComplete core) s = .next t ∧ t.mem = u.mem ∧ t.pend = u.pend ∧
        (t.core core).segs = want ∧ (t.core core).fused = false ∧ (t.core core).moving = none) ∧
  (∀ s core, (∀ x ∈ s.resident core, x.2.zeroing = false) → exec (.spadZeroComplete core) s = .next s) ∧
  ∀ s core tid tm, (s.resident core).find? (fun t => t.2.zeroing) = some (tid, tm) → s.team? tid = some tm →
    (∀ k ∈ tm.cores, (s.core k).moving = none) → ∃ t, exec (.spadZeroComplete core) s = .next t ∧
      t.team? tid = some { tm with zeroing := false } ∧
      ((∀ p ∈ s.pend, ∀ k ∈ tm.cores, ¬(spadLoc k 0 ≤ p.op.range.1 ∧ p.op.range.1 < spadLoc (k + 1) 0)) →
        ∀ a, t.byte a = if ∃ k ∈ tm.cores, spadLoc k 0 ≤ a ∧ a < spadLoc (k + 1) 0 then 0 else s.byte a)

/-- R36, R395: a member of the active set leaves it after 4,096 cycles while a ready warp is outside, or when it could not issue for 64;
every running node is marked, and its stream suspended, when a kernel of a class before its own has waited 4,096 hub cycles, and so is
the stream of a node that completes in that cycle; at the deadline after its mark a full switch is requested; a stream resumes when no
kernel of a class before its own waits. Where the rules leave it open the statement takes the model's own reading, of log entries 42,
57, 84. -/
def Obligations.PreemptionAndActiveSet : Prop :=
  let setFields (x y : Warp) : Prop := y = { x with
    inSet := y.inSet, enteredAt := y.enteredAt, lastIssue := y.lastIssue, readyAt := y.readyAt, yielded := y.yielded }
  let onlySet (s t : State) (core : Nat) : Prop := SameBytes s t ∧ t = { s with cores := t.cores } ∧ (∀ k, k ≠ core → t.core k = s.core k) ∧
    ∀ n x, s.warp? core n = some x → ∃ y, t.warp? core n = some y ∧ setFields x y
  (∀ s core slot w, s.warp? core slot = some w →
    let u := s.refillSet core
    onlySet s u core ∧
    (¬(w.inSet = true ∧ w.enteredAt + 4096 ≤ s.coreNow ∧ u.outsideReady core ≠ []) → exec (.activeSetHoldExpiry core slot) s = .next u) ∧
    (w.inSet = true → w.enteredAt + 4096 ≤ s.coreNow → u.outsideReady core ≠ [] →
      ∃ t, exec (.activeSetHoldExpiry core slot) s = .next t ∧ onlySet u t core ∧
        ((∃ x ∈ u.outsideReady core, x.1 ≠ slot ∧ x.2.readyAt < s.coreNow) → ((u.core core).warps.filter fun p => p.2.inSet).length = 8 →
          (∀ p ∈ (u.core core).warps, p.2.yielded = false ∧ u.blockedMember core p.1 p.2 = false) →
          ((u.core core).warps.map (·.1)).Pairwise (· < ·) → (t.warp? core slot).map (·.inSet) = some false))) ∧
  (∀ s core slot w, s.warp? core slot = some w →
    (¬(w.inSet = true ∧ w.lastIssue + 64 ≤ s.coreNow ∧ s.warpReady core slot w = false) → exec (.blockedWarpRemoval core slot) s = .next s) ∧
    (w.inSet = true → w.lastIssue + 64 ≤ s.coreNow → s.warpReady core slot w = false →
      ∃ t, exec (.blockedWarpRemoval core slot) s = .next t ∧ onlySet s t core ∧
        (((s.core core).warps.map (·.1)).Pairwise (· < ·) → (t.warp? core slot).map (·.inSet) = some false))) ∧
  (∀ s w,
    let starves (c : Nat) : Prop := ∃ x ∈ s.waitingGrids, x.2.1.lr.prio < c ∧ ∃ m, s.nodeOf x.1 = some m ∧ m.placedAt + 4096 ≤ s.hubNow
    (∀ n, s.markable n = true ↔ n.grid.isSome = true ∧ n.mark = none ∧ (s.window n.win).pre = true ∧ starves n.lr.prio) ∧
    (s.markDue w = true ↔ (s.window w).pre = true ∧ (s.window w).susp = none ∧ ∃ c, (s.window w).lastDone = some (s.hubNow, c) ∧ starves c) ∧
    ∃ t, exec (.lightPreemptMark w) s = .next t ∧
      (s.markDue w = true → t = { s with wins := t.wins } ∧ (∀ u, u ≠ w → t.window u = s.window u) ∧
        t.window w = { s.window w with susp := (s.window w).lastDone.map (·.2) }) ∧
      (s.markDue w = false → (∀ n ∈ s.nodes, n.win = w → s.markable n = false) → t = s) ∧
      (s.markDue w = false → (∃ n ∈ s.nodes, n.win = w ∧ s.markable n = true) → t = { s with nodes := t.nodes, wins := t.wins } ∧
        t.nodes = s.nodes.map (fun n => if s.markable n then { n with mark := some s.hubNow } else n) ∧
        (∀ u, (∀ n ∈ s.nodes, s.markable n = true → n.win ≠ u) → t.window u = s.window u) ∧
        ∀ n ∈ s.nodes, s.markable n = true → (∀ m ∈ s.nodes, s.markable m = true → m.win = n.win → m.lr.prio = n.lr.prio) →
          t.window n.win = { s.window n.win with susp := some n.lr.prio })) ∧
  (∀ s w n, s.firstNode w = some n →
    let due (m : Nat) : Prop := n.lr.pdl ≠ 0 ∧ m + n.lr.pdl * 1024 ≤ s.hubNow
    ∃ t, exec (.preemptDeadlineExpiry w) s = .next t ∧ ((∀ m, n.mark = some m → ¬due m) → t = s) ∧
      (∀ m, n.mark = some m → due m → t = { s with nodes := t.nodes } ∧ t.firstNode w = some { n with fullSwitch := true })) ∧
  (∀ s w, (s.window w).susp = none → exec (.streamResume w) s = .next s) ∧
  ∀ s w c, (s.window w).susp = some c → ∃ t, exec (.streamResume w) s = .next t ∧
    ((∃ x ∈ s.waitingGrids, x.2.1.lr.prio < c) → t = s) ∧
    ((∀ x ∈ s.waitingGrids, c ≤ x.2.1.lr.prio) → t = { s with nodes := t.nodes, wins := t.wins } ∧
      t.window w = { s.window w with susp := none } ∧ ∀ n, s.firstNode w = some n → t.firstNode w = some { n with mark := none, fullSwitch := false })

/-- R250, R251, R276: the access slices of a warp run ahead, each on its slice's path: the first load that one meets is performed into
its queue, once for every lane of the warp, or its fault held; a control word is evaluated for each slice whose access slice stands at
it; a held fault or a halt stops them. Where the rules leave it open the statement takes the model's own reading, of log entry 22. -/
def Obligations.AccessSlice : Prop :=
  (∀ s core slot w, s.warp? core slot = some w → (s.sliced w = false ∨ s.frozen w = true ∨ w.picc.held.isSome = true) →
    exec (.piccoloLoadIssue core slot) s = .next s ∧ exec (.piccoloBranchEval core slot) s = .next s) ∧
  (∀ s core slot w pc i, s.warp? core slot = some w → firstLoad (s.piccoloAll core w) = some (pc, i) →
    (∀ tr, probeTrap s core slot w.alive pc w i = some tr → tr.waits = false → ∃ t, exec (.piccoloLoadIssue core slot) s = .next t ∧
      SameBytes s t ∧ t = s.setWarp core slot { w with picc := { w.picc with held := some (pc, tr) } }) ∧
    (probeTrap s core slot w.alive pc w i = none → s.queueLoad core slot w i = none →
      exec (.piccoloLoadIssue core slot) s = .next (s.askQueue core slot w i)) ∧
    (∀ u v, probeTrap s core slot w.alive pc w i = none → s.queueLoad core slot w i = some u → u.warp? core slot = some v →
      ∃ t v', exec (.piccoloLoadIssue core slot) s = .next t ∧ SameBytes u t ∧ t = u.setWarp core slot v' ∧
        v' = { v with picc := { v.picc with at_ := v'.picc.at_, passed := v'.picc.passed } } ∧
        ∀ j i' pos used, (j, Ahead.load pc i' pos used) ∈ s.piccoloAll core w → ∀ e ∈ v'.picc.at_, e.1 = j → e = (j, pc, pos + 1))) ∧
  ∀ s core slot w, s.warp? core slot = some w →
    let met : List (Nat × DWord × Instr × Nat) := (s.piccoloAll core w).filterMap fun r => match r.2 with
      | .control pc _ i pos _ => some (r.1, pc, i, pos)
      | _ => none
    w.picc.outcomes.length + met.length ≤ 256 → ∃ t, exec (.piccoloBranchEval core slot) s = .next t ∧ SameBytes s t ∧
      (met = [] → t = s) ∧
      (met ≠ [] → ∃ v', t = s.setWarp core slot v' ∧
        v' = { w with picc := { w.picc with at_ := v'.picc.at_, passed := v'.picc.passed, outcomes := v'.picc.outcomes } } ∧
        v'.picc.outcomes = w.picc.outcomes ++ (met.map fun x => (x.1, match x.2.2.1 with
          | .bra _ p neg _ => takesBranch w p neg x.1
          | _ => true)) ∧
        ∀ x ∈ met, ∀ e ∈ v'.picc.at_, e.1 = x.1 → e = (x.1, x.2.1, x.2.2.2 + 1))

/-- R45, R407 to R409, R414: a warp of a halted team stops; once all have, the team's record is written to its context's trap queue when
that has room, the head moves on and the vector is raised; RESUME ends the halt, and KILL the launch's teams, neither before the records
are written, when a command that waits for them is carried out; a stop walk halts together the teams of the first grid, in order of
creation, that has not stopped. Where the rules leave it open the statement takes the model's own reading, of log entries 38, 39. -/
def Obligations.HaltsAndCommands : Prop :=
  (∀ s core slot w, s.warp? core slot = some w →
    ((∀ tm, s.team? w.team = some tm → tm.halted = false) → exec (.siblingSkidEnd core slot) s = .next s) ∧
    (∀ tm, s.team? w.team = some tm → tm.halted = true →
      exec (.siblingSkidEnd core slot) s = .next (s.setWarp core slot { w with stopped := true }))) ∧
  (∀ s team tm, s.team? team = some tm →
    let cn := s.teamCtx tm
    let c := s.ctx cn
    let n := nextSeq (Machine.sget 0 s.seqs (haltSource tm.core))
    (tm.halted = false ∨ tm.recWait = false ∨ s.haltDone team tm = false → exec (.trapRecordWrite team) s = .next s) ∧
    (tm.halted = true → tm.recWait = true → s.haltDone team tm = true → (c.tqhead + 1) % 2 ^ c.tqlog = c.tqtail ∨ s.boot.phase ≠ 2 →
      exec (.trapRecordWrite team) s = .next s.runTcmds) ∧
    (tm.halted = true → tm.recWait = true → s.haltDone team tm = true → (c.tqhead + 1) % 2 ^ c.tqlog ≠ c.tqtail →
      s.boot.phase = 2 → s.reach tm.core (c.queueLoc c.tqhead) true true = .served → s.pend = [] →
      ∃ t : State, exec (.trapRecordWrite team) s = .next t.runTcmds ∧
        t.team? team = some { tm with recWait := false } ∧ t.ctx cn = { c with tqhead := (c.tqhead + 1) % 2 ^ c.tqlog } ∧
        t.msi = s.msi ++ [c.msiv] ∧ t.cores = s.cores ∧ Machine.sget 0 t.seqs (haltSource tm.core) = n ∧ t.cmd = s.cmd ∧
        let bs := (s.trapRecord team tm n).flatMap (bytesOf 8)
        (∀ a, a < c.queueLoc c.tqhead ∨ c.queueLoc c.tqhead + bs.length ≤ a → t.byte a = s.byte a) ∧
        ∀ i < bs.length, t.byte (c.queueLoc c.tqhead + i) = bs.getD i 0)) ∧
  (∀ s v, s.boot.phase = 2 → v.getLsbD 15 = true → bitsAt v 8 2 = 0 →
    (s.tcmdTeam v = none → ∃ t, exec (.tcmdResume v) s = .next t ∧ t = { s with cmd := t.cmd } ∧ t.cmd.tcmdRun = s.cmd.tcmdRun) ∧
    (∀ tid tm, s.tcmdTeam v = some (tid, tm) → tm.recWait = true → ∃ t, exec (.tcmdResume v) s = .next t ∧ t = { s with cmd := t.cmd } ∧
      t.cmd.tcmdRun = s.cmd.tcmdRun ++ [v]) ∧
    (∀ tid tm, s.tcmdTeam v = some (tid, tm) → tm.recWait = false → s.team? tid = some tm → ∃ t, exec (.tcmdResume v) s = .next t ∧
      t.cmd.tcmdRun = s.cmd.tcmdRun ∧ ∀ x, t.team? tid = some x → x.halted = false ∧ x.cause = none)) ∧
  (∀ s v, s.boot.phase = 2 → v.getLsbD 15 = true → bitsAt v 8 2 = 1 →
    (s.tcmdTeam v = none → ∃ t, exec (.tcmdKill v) s = .next t ∧ t = { s with cmd := t.cmd } ∧ t.cmd.tcmdRun = s.cmd.tcmdRun) ∧
    (∀ tid tm, s.tcmdTeam v = some (tid, tm) →
      let gs := s.tree (s.rootOf tm.grid)
      ((∃ x ∈ s.teams, x.2.grid ∈ gs ∧ x.2.recWait = true) → ∃ t, exec (.tcmdKill v) s = .next t ∧ t = { s with cmd := t.cmd } ∧
        t.cmd.tcmdRun = s.cmd.tcmdRun ++ [v]) ∧
      ((∀ x ∈ s.teams, x.2.grid ∈ gs → x.2.recWait = false) → ∃ t, exec (.tcmdKill v) s = .next t ∧ t.cmd.tcmdRun = s.cmd.tcmdRun ∧
        ∀ x ∈ t.teams, x.2.grid ∉ gs))) ∧
  (∀ s grid, s.grid? grid = none → exec (.stopWalk grid) s = .next s) ∧
  ∀ s grid gr, s.grid? grid = some gr → ∃ t, exec (.stopWalk grid) s = .next t ∧ SameBytes s t ∧ (∀ g ∈ s.tree grid, g ∈ t.stopGrids) ∧
    ((∀ g ∈ s.tree grid, s.gridStopped g = true) → t = { s with stopGrids := t.stopGrids }) ∧
    ∀ g, (s.tree grid).find? (fun g => !s.gridStopped g) = some g → (s.teams.map (·.1)).Nodup → ∀ tid tm, s.team? tid = some tm →
      t.team? tid = some (if tm.grid = g ∧ tm.halted = false then
        { tm with halted := true, cause := some ({ cause := .cstop }, 0, false, 0), pair := s.stopPair (s.tree grid), recWait := true
                  haltAt := s.coreNow } else tm)

/-- R445, R446, R448 to R450: a window of 65,536 cycles begins a core's count of replays anew, and applies what was written, its VOFF
unless the core is held; MGN_CTL is written unless a request stands; a replay of the next issue is counted, comes 4 cycles later, and
escalates at the third of one issue or past RLIM in a window, which holds the core at VOFF 0 and records it. Where the rules leave it
open the statement takes the model's own reading, of log entries 51, 57. -/
def Obligations.ReplaysAndEscalation : Prop :=
  let coreWith (s t : State) (core : Nat) (m : Margin) : Prop := SameBytes s t ∧ t = s.setCore core { s.core core with mgn := m }
  (∀ s core, let m := (s.core core).mgn
    let n := (s.coreNow - m.origin) / 65536
    ∃ t, exec (.replayWindowStart core) s = .next t ∧ coreWith s t core (if n ≤ m.window then m else
      let held := m.held && (!m.endHold || m.qreq)
      { m with
        window := n, win := 0, held := held, endHold := false, newV := false, inForce := m.ctl
        vnow := if held then 0 else if m.newV then m.ctl.toNat % 32 else m.vnow })) ∧
  (∀ s core v, let m := ((s.rollWindow core).core core).mgn
    (s.mesc = false ∨ mgnLegal v = false → exec (.mgncWrite core v) s = .next s) ∧
    (s.mesc = true → mgnLegal v = true → m.qreq = true → exec (.mgncWrite core v) s = .next (s.rollWindow core)) ∧
    (s.mesc = true → mgnLegal v = true → m.qreq = false → ∃ t, exec (.mgncWrite core v) s = .next t ∧ coreWith s t core { m with
      ctl := v &&& 0x3FFF1F, newV := true, endHold := m.endHold || m.held, escn := if v.getLsbD 23 then 0 else m.escn
      wrote := (t.core core).mgn.wrote })) ∧
  (∀ s core, ∃ t, exec (.escalationSettled core) s = .next t ∧ coreWith s t core { (s.core core).mgn with settling := false }) ∧
  (∀ s core slot slice second, (s.nextIssue core slot slice second = none ∨ (s.core core).mgn.settling = true ∨
    (s.core core).mgn.testing.isSome = true) → exec (.shawmReplay core slot slice second) s = .next s) ∧
  ∀ s core slot slice second x, let m := (s.core core).mgn
    s.nextIssue core slot slice second = some x → m.settling = false → m.testing = none → (s.coreNow - m.origin) / 65536 ≤ m.window →
    (x.sq = true ∨ ∀ r ∈ (s.core core).replays, r.slot = x.slot → r.till ≤ s.coreNow) →
    let run := if m.runOf = some x then min (m.run + 1) 15 else 1
    let win := min (m.win + 1) 0xFFFF
    let above := run = 3 ∨ win = mgnRlim m.inForce + 1 ∨ (m.repeatOf = some x ∧ m.held = true ∧ mgnRlim m.inForce < win)
    let n := nextSeq (Machine.sget 0 s.seqs (marginSource core))
    ∃ t, exec (.shawmReplay core slot slice second) s = .next t ∧ t.mem = s.mem ∧
      let m' := (t.core core).mgn
      m'.total = min (m.total + 1) 0xFFFFFFFF ∧ m'.win = win ∧ m'.lpc = x.pc ∧ m'.lsq = x.sq ∧ m'.lslot = (if x.sq then 0 else x.slot) ∧
      (t.core core).seq = (if x.sq then { (s.core core).seq with wait := .replay (s.coreNow + 4) } else (s.core core).seq) ∧
      (x.sq = false → ∃ r ∈ (t.core core).replays, r.slot = x.slot ∧ r.slices = BitVec.ofNat 16 x.slices ∧ r.till = s.coreNow + 4) ∧
      (¬above → m' = { m with total := m'.total, win := win, run := run, runOf := some x, lpc := x.pc, lsq := x.sq, lslot := m'.lslot } ∧
        t.log = s.log ∧ Machine.sget 0 t.seqs (marginSource core) = n) ∧
      (above → m'.held = true ∧ m'.vnow = 0 ∧ m'.run = 0 ∧ m'.esct = min (m.esct + 1) 0xFFFFFFFF ∧
        (m'.settling = true ↔ m.held = false) ∧ (∃ r ∈ t.log.queue, r.event = 0x30 ∧ r.sev = 2 ∧ r.src = marginSource core ∧ r.addr = x.pc) ∧
        (m.wroteAt s.coreNow = none → m'.escn = min (m.escn + 1) 255 ∧
          (m.held = true ∨ mgnEsc m.inForce = 1 ∨ (mgnQlim m.inForce ≠ 0 ∧ mgnQlim m.inForce ≤ min (m.escn + 1) 255) → m'.qreq = true) ∧
          (¬(m.held = true ∨ mgnEsc m.inForce = 1 ∨ (mgnQlim m.inForce ≠ 0 ∧ mgnQlim m.inForce ≤ min (m.escn + 1) 255)) →
            m'.tpend = true ∧ m'.qreq = m.qreq)))

/-- R429 to R431, R452 to R455: a pending test starts on a core without a team, and its end is recorded, with a request when it failed;
a request is carried out, once the teams of its core have stopped and their records are written, by binding the failed class to its
partner, or by a spare of the tower that takes the core's teams and its place in the map; without either it stays; in the host's mode it
is firmware's commands that do the same, step by step, or withdraw the request. Where the rules leave it open the statement takes the
model's own reading, of log entries 41, 50. -/
def Obligations.TestsAndQuarantine : Prop :=
  let waits (s : State) (k : Nat) : Prop :=
    (s.core k).mgn.qreq = true ∧ (s.core k).mgn.reqReady = true ∧ (s.logical? k).isSome = true
  (∀ s core, let c := s.core core
    let free := s.resident core = [] ∧ c.scanning = false ∧ c.mgn.testing = none ∧ c.mgn.qreq = false
    (¬free ∨ (c.mgn.tpend = false ∧ c.mgn.seqTest = none) → exec (.pipePatternTestStart core) s = .next s) ∧
    (free → c.mgn.tpend = true → exec (.pipePatternTestStart core) s = .next (s.setCore core { c with mgn := { c.mgn with
      tpend := false, testing := some 0 } })) ∧
    (∀ p, free → c.mgn.tpend = false → c.mgn.seqTest = some p → exec (.pipePatternTestStart core) s = .next (s.setCore core { c with
      mgn := { c.mgn with seqTest := none, trigger := p, testing := some 2 } }))) ∧
  (∀ s core r, (s.core core).mgn.testing = none → exec (.selfTestComplete core r) s = .next s) ∧
  (∀ s core r kind, (s.core core).mgn.testing = some kind → ∃ t e, exec (.selfTestComplete core r) s = .next t ∧ t.mem = s.mem ∧
    t.teams = s.teams ∧ (t.core core).mgn.testing = none ∧ e.event = 0x38 ∧ e.src = checkerSource core ∧ e.pair = (s.core core).mgn.trigger ∧
    (e.cls = if r.pass then 1 else 2) ∧ (r.pass = true → recordKept s.log 0 = true → e ∈ t.log.queue) ∧
    (r.pass = false → e ∈ t.log.queue ∧ (t.core core).mgn.qreq = true)) ∧
  (∀ s core v, s.cmd.qcmdRun.find? (fun v => qcmdCore v == core) = some v → exec (.quarantineCarryOut core) s = .next (s.runQcmd v)) ∧
  (∀ s core, s.cmd.qcmdRun.find? (fun v => qcmdCore v == core) = none →
    let auto := (s.core core).mgn.reqHost = false
    (¬auto ∨ ¬waits s core → exec (.quarantineCarryOut core) s = .next s) ∧
    (auto → waits s core → s.rebindTo core = none → s.spareFor core = none → ∃ t, exec (.quarantineCarryOut core) s = .next t ∧
      SameBytes s t ∧ t = s.setCore core { s.core core with mgn := { (s.core core).mgn with reqReady := false } }) ∧
    (auto → waits s core → ((s.rebindTo core).isSome = true ∨ (s.spareFor core).isSome = true) → s.coreStopped core = false →
      ∃ t, exec (.quarantineCarryOut core) s = .next t ∧ SameBytes s t ∧ (t.core core).drain = true ∧ (t.core core).mgn.qreq = true) ∧
    (auto → waits s core → s.coreStopped core = true → (s.settleCore core).isSome = true →
      (∀ v, s.rebindTo core = some v → ∃ t, exec (.quarantineCarryOut core) s = .next t ∧ (t.core core).semap = v ∧
        (t.core core).mgn.qreq = false ∧ (t.core core).drain = false ∧ (t.core core).mgn.held = (s.core core).mgn.held ∧ t.boot = s.boot) ∧
      ∀ q, s.rebindTo core = none → s.spareFor core = some q → ∃ t, exec (.quarantineCarryOut core) s = .next t ∧
        (∀ l, t.physical? l = if s.physical? l = some core then some q else s.physical? l) ∧
        t.boot.mapgen = s.boot.mapgen + 1 ∧ t.boot.quarantined = s.boot.quarantined ++ [core] ∧ (t.core core).mgn.qreq = false ∧
        (t.core core).drain = true ∧ (t.core core).warps = [] ∧ (t.core q).drain = false ∧ ∀ x ∈ t.teams, core ∉ x.2.cores)) ∧
  (∀ s core, s.mesc = false → exec (.qcmdSpare core) s = .next s ∧ exec (.qcmdWithdraw core) s = .next s ∧ exec (.qcmdRebind core) s = .next s) ∧
  (∀ s core, s.mesc = true → ∃ t, exec (.qcmdWithdraw core) s = .next t ∧ SameBytes s t ∧ (∀ v ∈ t.cmd.qcmdRun, qcmdCore v ≠ core) ∧
    t = { s.setCore core { s.core core with mgn := { (s.core core).mgn with qreq := false, reqEngine := none } } with cmd := t.cmd }) ∧
  (∀ s core, core < 1024 → s.mesc = true → waits s core → s.spareFor core = none → ∃ t, exec (.qcmdSpare core) s = .next t ∧ SameBytes s t ∧
    qcmdValue core 0 ∈ t.cmd.qcmdRun ∧ (t.core core).mgn.qreq = true ∧ t.boot = s.boot) ∧
  ∀ s core, core < 1024 → s.mesc = true → s.rebindTo core = none → ∃ t, exec (.qcmdRebind core) s = .next t ∧ t = { s with cmd := t.cmd } ∧
    qcmdValue core 2 ∉ t.cmd.qcmdRun

/-- R70, R426, R428: a warp that rolls back restarts every slice that has not retired at its region's entry as one gang, its queues
empty and its stack at the entry's depth, and its team is marked; one without a region, or with a slice retired since its entry, halts
its team with CSTOP; a translation fault of the chunk that the truncation reads is reported against the REGION's bundle (R156); where
the host assists, the team halts at the REGION (R432); a rebuilt bank is recorded, and serves again as a spare when its test passed.
Where the rules leave it open the statement takes the model's own reading, of log entries 14, 50, 69. -/
def Obligations.RollbackAndBanks : Prop :=
  (∀ s core slot, (s.core core).rollback.find? (fun x => x.1 == slot) = none → exec (.warpRollback core slot) s = .next s) ∧
  (∀ s core slot w x, s.warp? core slot = some w → (s.core core).rollback.find? (fun x => x.1 == slot) = some x → w.trap.isSome = true →
    exec (.warpRollback core slot) s = .next s) ∧
  (∀ s core slot w pair host r tm, s.warp? core slot = some w → (s.core core).rollback.find? (fun x => x.1 == slot) = some (slot, pair, host) →
    w.trap = none → w.pending = [] → w.region = some r → w.recoverable = true → s.team? w.team = some tm →
    (∀ tr, s.truncateTrap core (s.ctxNo w) w r.d0 = some tr → tr.waits = false →
      exec (.warpRollback core slot) s = .next (s.warpTrap core slot w.alive r.pc tr)) ∧
    let ch := truncateChunk w r.d0
    let addr := (ch.map (chunkAddr w)).getD 0
    let n := if ch.isSome then chunkSize w else 0
    let rd := s.readVirt core slot (s.ctxNo w) addr n
    (s.truncateTrap core (s.ctxNo w) w r.d0 = none → (∀ x ∈ s.runs (s.ctxNo w) addr n, s.blocked core x.1 false = false) → tm.halted = false →
      ∃ t w' tm', exec (.warpRollback core slot) s = .next t ∧ SameBytes rd.2.2 t ∧ t.warp? core slot = some w' ∧ t.team? w.team = some tm' ∧
        tm'.cir = (if rd.2.1 then consume tm else tm).cir ||| 2 ∧ (∀ x ∈ (t.core core).rollback, x.1 ≠ slot) ∧
        w'.depth = r.d0 ∧ w'.q = [] ∧ w'.v = w.v ∧ w'.s = w.s ∧ w'.p = w.p ∧ w'.region = some r ∧ w'.nb = w.nb ∧
        (∀ j x, w.slice? j = some x → w'.slice? j = some (if x.retired then x else
          { x with pc := r.pc, gang := 0, waits := [], resume := r.pc, count := 0 })) ∧
        (recordKept s.log 1 = true → ∃ e ∈ t.log.queue, e.event = 0x15 ∧ e.pair = pair ∧ e.addr = r.pc ∧ e.d1 = BitVec.ofNat 64 r.d0) ∧
        (tm'.halted, tm'.cause.map (·.1.cause)) = (if host then (true, some .cstop) else (false, tm.cause.map (·.1.cause))) ∧
        w'.stopped = (host || w.stopped))) ∧
  (∀ s core slot w pair host tm, s.warp? core slot = some w → (s.core core).rollback.find? (fun x => x.1 == slot) = some (slot, pair, host) →
    w.trap = none → w.pending = [] → (w.region = none ∨ w.recoverable = false) → s.team? w.team = some tm → tm.halted = false →
    ∃ t, exec (.warpRollback core slot) s = .next t ∧ SameBytes s t ∧
      (t.team? w.team).map (fun x => (x.halted, x.recWait, x.cause.map (·.1.cause))) = some (true, true, some .cstop) ∧
      ∃ e ∈ t.log.queue, e.event = 0x16 ∧ e.sev = 3 ∧ e.pair = pair) ∧
  (∀ s core ua bank pass, (s.core core).banks.find? (fun b => b.ua == ua && b.bank == bank) = none →
    exec (.bankRebuilt core ua bank pass) s = .next s) ∧
  ∀ s core ua bank pass b, (s.core core).banks.find? (fun b => b.ua == ua && b.bank == bank) = some b →
    (b.spare = noSpare → exec (.bankRebuilt core ua bank pass) s = .next s) ∧
    (b.spare ≠ noSpare → (s.core core).mgn.qreq = false → ∃ t, exec (.bankRebuilt core ua bank pass) s = .next t ∧ SameBytes s t ∧ t.teams = s.teams ∧
      t.core core = { s.core core with
        banks := (s.core core).banks.filter (· != b)
        spares := if pass then (s.core core).spares ++ [(ua, bank)] else (s.core core).spares } ∧
      (∀ k, k ≠ core → t.core k = s.core k) ∧
      (s.log.queue.length + 2 ≤ hubBuffer → ∃ e1 e2, t.log.queue = s.log.queue ++ [e1, e2] ∧ e1.event = 0x11 ∧ e1.pair = b.pair ∧
        e2.event = 0x38 ∧ e2.cls = if pass then 1 else 2))

/-- R379, R406, R422, R457, R469, R470: a write of LWIN enables a window from slot 0 or stops it; an invalidation, once the accesses of
its context can land, leaves no cached translation of its range, no store in flight and L1 no older copy of a line of its RO pages; the
oldest error record goes to the log's next slot when there is room, and the sources that waited for room go on; QLADD adds or removes a
core; CNTFRZ latches the counters; the clock stays within 2.0 to 2.4 GHz. Where the rules leave it open the statement takes the model's
own reading, of log entry 21. -/
def Obligations.ManagementCommands : Prop :=
  (∀ s w v, ¬(w < 64 ∧ s.boot.phase = 2) → exec (.lwinWrite w v) s = .next s) ∧
  (∀ s w v, w < 64 → s.boot.phase = 2 → ∃ t, exec (.lwinWrite w v) s = .next t ∧ t = { s with wins := t.wins } ∧
    (∀ u, u ≠ w → t.window u = s.window u) ∧ t.window w = { s.window w with
      en := v.getLsbD 0, pre := v.getLsbD 1, base := v.toNat / 2 ^ 12 % 2 ^ 40
      nseq := if v.getLsbD 0 then 0 else (s.window w).nseq, stop := if v.getLsbD 0 then false else (s.window w).stop }) ∧
  (∀ s v, s.boot.phase ≠ 2 → exec (.tlbinvStart v) s = .next s) ∧
  (∀ s v, s.boot.phase = 2 → ∃ t, exec (.tlbinvStart v) s = .next t ∧ t = { s with cmd := t.cmd } ∧
    t.cmd = { s.cmd with
      tlbinv := v &&& 0x01FFFFFFFFFF0FFF, tlbRun := if v.getLsbD 15 then s.cmd.tlbRun ++ [v] else s.cmd.tlbRun }) ∧
  (∀ s, s.cmd.tlbRun = [] → exec .tlbinvComplete s = .next s) ∧
  (∀ s v rest, s.cmd.tlbRun = v :: rest → (∃ x ∈ s.invWarps v, s.canRetire x.1 x.2.1 x.2.2 = false) → exec .tlbinvComplete s = .next s) ∧
  (∀ s v rest, s.cmd.tlbRun = v :: rest → (∀ x ∈ s.invWarps v, s.canRetire x.1 x.2.1 x.2.2 = true) → ∃ t, exec .tlbinvComplete s = .next t ∧
    (t = s ∨ (t.cmd = { s.cmd with tlbRun := rest } ∧ (∀ p ∈ t.pend, 4 ≤ t.levelNow p.id) ∧ (∀ x ∈ t.tlb, invHits v x = false) ∧
      ∀ x ∈ t.stale, x.ro = true → ∀ e ∈ s.tlb, invHits v e = true → e.roCovers x.loc = false)) ∧
    (s.pend = [] → (∀ x ∈ s.invWarps v, x.2.2.pending = [] ∧ x.2.2.jobs = []) → t.cmd = { s.cmd with tlbRun := rest } ∧ SameBytes s t)) ∧
  (∀ s, (s.log.queue = [] ∨ (s.log.head + 1) % 2 ^ s.log.log2 = s.log.tail ∨ s.boot.phase ≠ 2) → exec .errorRecordWrite s = .next s) ∧
  (∀ s r rest, s.log.queue = r :: rest → (s.log.head + 1) % 2 ^ s.log.log2 ≠ s.log.tail → s.boot.phase = 2 →
    let loc := hostLoc ((s.log.base * 4096 + 64 * s.log.head) % hostLimit)
    let bs := r.words.flatMap (bytesOf 8)
    ∃ t, exec .errorRecordWrite s = .next t ∧ t.log = { s.log with queue := rest, head := (s.log.head + 1) % 2 ^ s.log.log2, held := [] } ∧
      t.msi = s.msi ++ [s.log.msi] ∧ t.cores = s.cores ∧ t.teams = s.teams ∧ bs.length = 64 ∧
      (s.pend = [] → ∀ a, a < loc ∨ loc + 64 ≤ a → t.byte a = s.byte a) ∧ ∀ i < 64, t.byte (loc + i) = bs.getD i 0) ∧
  (∀ s sel, s.boot.phase ≠ 2 → exec (.qladdAdd sel) s = .next s ∧ exec (.qladdRemove sel) s = .next s) ∧
  (∀ s sel, s.boot.phase = 2 → selectorOk (BitVec.ofNat 64 sel.toNat) = false → ∃ t u, exec (.qladdAdd sel) s = .next t ∧
    exec (.qladdRemove sel) s = .next u ∧ t = { s with cmd := t.cmd } ∧ u = { s with cmd := u.cmd } ∧ t.cmd.qladdGo = true ∧ u.cmd.qladdGo = true) ∧
  (∀ s sel, s.boot.phase = 2 → selectorOk (BitVec.ofNat 64 sel.toNat) = true → (∃ t, exec (.qladdAdd sel) s = .next t ∧ SameBytes s t ∧
      t = { s with boot := { s.boot with quarantined := t.boot.quarantined }, cmd := t.cmd } ∧ t.cmd.qladdGo = true ∧
      ∀ k, k ∈ t.boot.quarantined ↔ k = sel.toNat ∨ k ∈ s.boot.quarantined) ∧
    ∃ t, exec (.qladdRemove sel) s = .next t ∧ SameBytes s t ∧
      t = { s with boot := { s.boot with quarantined := t.boot.quarantined }, cmd := t.cmd } ∧ t.cmd.qladdGo = true ∧
      ∀ k, k ∈ t.boot.quarantined ↔ k ≠ sel.toNat ∧ k ∈ s.boot.quarantined) ∧
  (∀ s, exec .qladdStored s = .next { s with cmd := { s.cmd with qladdGo := false } }) ∧
  (∀ s v, s.boot.phase ≠ 2 → exec (.cntfrzWrite v) s = .next s) ∧
  (∀ s v, s.boot.phase = 2 → exec (.cntfrzWrite v) s = .next { s with latched := if v.getLsbD 0 then some s.allCounters else none }) ∧
  ∀ s mhz, ∃ t, exec (.powerManagerClockChange mhz) s = .next t ∧ t = { s with clock := t.clock } ∧ 2000 ≤ t.clock ∧ t.clock ≤ 2400 ∧
    (2000 ≤ mhz → mhz ≤ 2400 → t.clock = mhz)

/-- R16, R17, R117, R118, R379, R401, R422, R432, R439: the host's accesses, once the device is READY. It reads and writes device memory
after what L1 holds there of a DT line is written back; a snoop writes such a line of host memory back and drops it when asked; a host
write of its own memory is seen there at once; a write of a register changes what its table gives for it: here the contexts' and
windows' registers, the error log's and FNMODE, each with its fields. Where the rules leave it open the statement takes the model's own
reading, of log entries 40, 48. -/
def Obligations.HostAccesses : Prop :=
  (∀ s pa wr n, let m := (wr.map List.length).getD n
    (s.boot.phase ≠ 2 ∨ 2 ^ 39 < pa + m ∨ 4096 < pa % 4096 + m) → exec (.hostCxlAccess pa wr n) s = .next s) ∧
  (∀ s pa bs n, s.boot.phase = 2 → pa + bs.length ≤ 2 ^ 39 → pa % 4096 + bs.length ≤ 4096 → s.reach hubCore pa true true = .served → ∃ t,
    exec (.hostCxlAccess pa (some bs) n) s = .next t ∧ t.cores = s.cores ∧ t.teams = s.teams ∧ t.hostData = s.hostData ∧
    (∀ i < bs.length, t.byte (pa + i) = bs.getD i 0) ∧
    (s.pend = [] → ∀ a, a < pa ∨ pa + bs.length ≤ a → t.byte a = s.byte a)) ∧
  (∀ s pa n, s.boot.phase = 2 → pa + n ≤ 2 ^ 39 → pa % 4096 + n ≤ 4096 → s.reach hubCore pa false true = .served → ∃ t,
    exec (.hostCxlAccess pa none n) s = .next t ∧ t.cores = s.cores ∧ t.teams = s.teams ∧ t.hostData = (t.bytes pa n, t.poisoned pa n) ∧
    (s.pend = [] → SameBytes s t)) ∧
  (∀ s pa wr n, let m := (wr.map List.length).getD n
    s.boot.phase = 2 → pa + m ≤ 2 ^ 39 → pa % 4096 + m ≤ 4096 → s.reach hubCore pa wr.isSome true = .dead →
    exec (.hostCxlAccess pa wr n) s = .next { s with hostData := ([], true) }) ∧
  (∀ s pa wr n, let m := (wr.map List.length).getD n
    s.boot.phase = 2 → pa + m ≤ 2 ^ 39 → pa % 4096 + m ≤ 4096 → s.reach hubCore pa wr.isSome true = .waits →
    ∃ t, exec (.hostCxlAccess pa wr n) s = .next t ∧ t = { s with pageReqs := t.pageReqs }) ∧
  (∀ s pa inv, let lo := hostLoc (pa / 64 * 64)
    let line (p : PendStore) : Bool := !p.si && p.meets lo 64
    ∃ t, exec (.hostSnoop pa inv) s = .next t ∧ t.cores = s.cores ∧ t.teams = s.teams ∧ (s.pend = [] → SameBytes s t) ∧
      ((s.flushed 4 line).isSome = true → ∀ p ∈ t.pend, line p = true → 4 ≤ t.levelNow p.id) ∧
      (inv = true → s.siMapped lo = false → s.roMapped lo = false → ∀ x ∈ t.stale, x.loc < lo ∨ lo + 64 ≤ x.loc)) ∧
  (∀ (s : State) hpa bs, hpa + bs.length ≤ hostLimit → hpa % 4096 + bs.length ≤ 4096 → ∀ i < bs.length, (s.hostWrite hpa bs).byte (hostLoc hpa + i) = bs.getD i 0) ∧
  (∀ s off v, s.boot.phase ≠ 2 → off ≠ 0x400 → exec (.registerWrite off v) s = .next s) ∧
  (∀ s c v, s.boot.phase = 2 → c < 256 →
    (∃ t, exec (.registerWrite (0x20000 + 64 * c) v) s = .next t ∧ t = { s with ctxs := t.ctxs, pend := t.pend, beams := t.beams } ∧
      (∀ d, d ≠ c → t.ctx d = s.ctx d) ∧ t.ctx c = { s.ctx c with en := v.getLsbD 0, root := v.toNat / 2 ^ 16 % 2 ^ 36 } ∧
      ((v.getLsbD 0 = false ∨ (s.ctx c).en = true) → t.pend = s.pend ∧ t.beams = s.beams) ∧
      (v.getLsbD 0 = true → (s.ctx c).en = false → ∀ k < 4, t.beam c k = BeamTable.init ∧ ∀ d, d ≠ c → t.beam d k = s.beam d k)) ∧
    (∃ t, exec (.registerWrite (0x20000 + 64 * c + 8) v) s = .next t ∧ t = { s with ctxs := t.ctxs } ∧
      t.ctx c = { s.ctx c with tqlog := v.toNat % 16, tqbase := v.toNat / 2 ^ 12 % 2 ^ 40 }) ∧
    (∃ t, exec (.registerWrite (0x20000 + 64 * c + 16) v) s = .next t ∧ t = { s with ctxs := t.ctxs } ∧ t.ctx c = s.ctx c) ∧
    (∃ t, exec (.registerWrite (0x20000 + 64 * c + 24) v) s = .next t ∧ t = { s with ctxs := t.ctxs } ∧
      t.ctx c = { s.ctx c with tqtail := v.toNat % 2 ^ 10 }) ∧
    ∃ t, exec (.registerWrite (0x20000 + 64 * c + 32) v) s = .next t ∧ t = { s with ctxs := t.ctxs } ∧
      t.ctx c = { s.ctx c with msiv := v.toNat % 2 ^ 11 }) ∧
  (∀ s w v, s.boot.phase = 2 → w < 64 → exec (.registerWrite (0x10000 + 128 * w) v) s = exec (.lwinWrite w v) s ∧
    exec (.registerWrite (0x10000 + 128 * w + 8) v) s = .next s) ∧
  (∀ s v, s.boot.phase = 2 → exec (.registerWrite 0x140 v) s = .next { s with fnmode := v.toNat % 64 } ∧
    exec (.registerWrite 0x190 v) s = .next { s with log := { s.log with tail := v.toNat % 2 ^ 16 } } ∧
    exec (.registerWrite 0x188 v) s = .next s ∧ exec (.registerWrite 0x080 v) s = .next s ∧ exec (.registerWrite 0x100 v) s = .next s) ∧
  ∀ s v, s.boot.phase = 2 → ∃ t, exec (.registerWrite 0x180 v) s = .next t ∧
    t = if 4 ≤ v.toNat % 32 ∧ v.toNat % 32 ≤ 16 then
      { s with log := { s.log with log2 := v.toNat % 32, base := v.toNat / 2 ^ 12 % 2 ^ 40 } } else s

/-- R463 to R466: a save drains the dispatcher when every tower runs, and ends with error 1 otherwise; with nothing left to drain every
L1 is written back, and the copy is device memory, byte for byte and with its poison, and of a byte written since the consistency point
the old one or the new one; a copy that fails leaves part of the body, and no new header; a restore of a whole image, with no team
resident and no window enabled, copies device memory back. Where the rules leave it open the statement takes the model's own reading, of
log entries 52, 81. -/
def Obligations.Checkpoints : Prop :=
  let started (s t : State) (op : Nat) (v : DWord) : Prop := t = { s with ckpt := t.ckpt, msi := t.msi } ∧ t.ckpt.op = op ∧ t.ckpt.regOp = op ∧
    t.ckpt.dest = v.toNat / 2 ^ 16 % 2 ^ 36 ∧ t.ckpt.regDest = v.toNat / 2 ^ 16 % 2 ^ 36
  let runs (s t : State) (ph : Nat) : Prop := t.ckpt.phase = ph ∧ t.ckpt.err = 0 ∧ t.ckpt.go = true ∧ t.msi = s.msi
  let ends (s t : State) (err : Nat) : Prop :=
    t.ckpt.phase = (if err = 0 then 3 else 4) ∧ t.ckpt.err = err ∧ t.ckpt.go = false ∧ t.msi = s.msi ++ [s.ckpt.msi]
  let torn (s t : State) : Prop := let d := hostLoc (s.ckpt.dest * 2 ^ 16)
    (∀ a, (a < d ∨ d + imageBytes - 64 ≤ a) → t.byte a = s.byte a) ∧
    (∀ a < 2 ^ 39, t.byte (d + a) = s.byte (d + a) ∨ t.byte (d + a) = s.byte a ∨ t.byte (d + a) = Machine.sget 0 s.ckpt.image a) ∧
    (hostLimit < s.ckpt.dest * 2 ^ 16 + imageBytes → t.mem = s.mem)
  (∀ s v, (s.ckpt.go = true ∨ s.boot.phase ≠ 2) → exec (.ckptSave v) s = .next s ∧ exec (.ckptRestore v) s = .next s) ∧
  (∀ s v, s.ckpt.go = false → s.boot.phase = 2 → ∃ t, exec (.ckptSave v) s = .next t ∧ started s t 1 v ∧
    ((∀ i < 4, (s.tower i).phase = .run) → runs s t 1) ∧ ((∃ i < 4, (s.tower i).phase ≠ .run) → ends s t 1)) ∧
  (∀ s, ¬(s.ckpt.op = 1 ∧ s.ckpt.phase = 1 ∧ s.ckptDrained = true) → exec .ckptConsistencyPoint s = .next s) ∧
  (∀ s, s.ckpt.op = 1 → s.ckpt.phase = 1 → s.ckptDrained = true → ∃ t, exec .ckptConsistencyPoint s = .next t ∧
    (t = s ∨ ((∀ p ∈ t.pend, 4 ≤ t.levelNow p.id) ∧ t.stale = [] ∧ t.teams = s.teams ∧
      t.ckpt = { s.ckpt with phase := 2, image := t.ckpt.image, imagePsn := t.ckpt.imagePsn } ∧
      (∀ a < 2 ^ 39, Machine.sget 0 t.ckpt.image a = t.byte a) ∧ ∀ x < 2 ^ 34, x ∈ t.ckpt.imagePsn ↔ x ∈ t.poison)) ∧
    (s.pend = [] → t ≠ s ∧ t = { s with stale := [], ckpt := t.ckpt })) ∧
  (∀ s err, (s.ckpt.op ≠ 1 ∨ s.ckpt.phase ≠ 2) → exec (.ckptCopyComplete err) s = .next s) ∧
  (∀ s err, s.ckpt.op = 1 → s.ckpt.phase = 2 → (∃ i < 4, (s.tower i).phase = .dead) → ∃ t, exec (.ckptCopyComplete err) s = .next t ∧
    ends s t 1 ∧ (Memory.wf s.mem = true → torn s t)) ∧
  (∀ s (e : BitVec 3), s.ckpt.op = 1 → s.ckpt.phase = 2 → (∀ i < 4, (s.tower i).phase ≠ .dead) → ∃ t, exec (.ckptCopyComplete (some e)) s = .next t ∧
    ends s t (if e = 0 then 2 else e.toNat) ∧ (Memory.wf s.mem = true → torn s t)) ∧
  (∀ s, s.ckpt.op = 1 → s.ckpt.phase = 2 → (∀ i < 4, (s.tower i).phase ≠ .dead) → hostLimit < s.ckpt.dest * 2 ^ 16 + imageBytes →
    ∃ t, exec (.ckptCopyComplete none) s = .next t ∧ ends s t 2 ∧ t.mem = s.mem) ∧
  (∀ s, s.ckpt.op = 1 → s.ckpt.phase = 2 → (∀ i < 4, (s.tower i).phase ≠ .dead) → s.ckpt.dest * 2 ^ 16 + imageBytes ≤ hostLimit →
    Memory.wf s.mem = true → let d := hostLoc (s.ckpt.dest * 2 ^ 16)
    ∃ t, exec (.ckptCopyComplete none) s = .next t ∧ ends s t 0 ∧ t.cores = s.cores ∧
      (∀ a < 2 ^ 39, t.byte a = s.byte a ∧ (t.byte (d + a) = s.byte a ∨ t.byte (d + a) = Machine.sget 0 s.ckpt.image a)) ∧
      (∀ x < 2 ^ 34, (x ∈ t.poison ↔ x ∈ s.poison) ∧ ((x ∈ s.ckpt.imagePsn ↔ x ∈ s.poison) → (d / 32 + x ∈ t.poison ↔ x ∈ s.poison))) ∧
      (∀ i < 64, t.byte (d + imageBytes - 64 + i) = s.imageHeader.getD i 0)) ∧
  (∀ s v, s.ckpt.go = false → s.boot.phase = 2 → ∃ t, exec (.ckptRestore v) s = .next t ∧ started s t 2 v ∧
    (s.noTeams = true → (∀ w < 64, (s.window w).en = false) → runs s t 2) ∧
    ((s.noTeams = false ∨ ∃ w < 64, (s.window w).en = true) → ends s t 4)) ∧
  (∀ s err, (s.ckpt.op ≠ 2 ∨ s.ckpt.phase ≠ 2) → exec (.checkpointRestoreDone err) s = .next s) ∧
  (∀ s (e : BitVec 3), s.ckpt.op = 2 → s.ckpt.phase = 2 → ∃ t, exec (.checkpointRestoreDone (some e)) s = .next t ∧
    ends s t (if e = 0 then 2 else e.toNat) ∧ (Memory.wf s.mem = true → s.ckpt.dest * 2 ^ 16 + imageBytes ≤ hostLimit →
      let d := hostLoc (s.ckpt.dest * 2 ^ 16)
      (∀ a, 2 ^ 39 ≤ a → t.byte a = s.byte a) ∧ ∀ a < 2 ^ 39, t.byte a = s.byte a ∨ t.byte a = s.byte (d + a))) ∧
  (∀ s, s.ckpt.op = 2 → s.ckpt.phase = 2 → hostLimit < s.ckpt.dest * 2 ^ 16 + imageBytes →
    ∃ t, exec (.checkpointRestoreDone none) s = .next t ∧ ends s t 2 ∧ t.mem = s.mem) ∧
  ∀ s, s.ckpt.op = 2 → s.ckpt.phase = 2 → s.ckpt.dest * 2 ^ 16 + imageBytes ≤ hostLimit → Memory.wf s.mem = true →
    let d := hostLoc (s.ckpt.dest * 2 ^ 16)
    let h := s.bytes (d + imageBytes - 64) 64
    ∃ t, exec (.checkpointRestoreDone none) s = .next t ∧
      (leAt h 0 4 ≠ 0x4B4D434B ∨ leAt h 16 1 % 2 = 0 → ends s t 3 ∧ t.mem = s.mem) ∧
      (leAt h 0 4 = 0x4B4D434B → leAt h 16 1 % 2 = 1 → ends s t 0 ∧ (∀ a < 2 ^ 39, t.byte a = s.byte (d + a)) ∧
        ∀ x < 2 ^ 34, x ∈ t.poison ↔ d / 32 + x ∈ s.poison)

/-- R119, R120, R467, R468: a port is enabled and comes up with its lanes; one that goes down drops what it held, and the pages that it
held modified are poisoned; a peer's request waits for its grant, which takes the page from every holder that may not keep it; a
hand-over writes a peer's page back and gives it up. Where the rules leave it open the statement takes the model's own reading, of log
entries 25, 50, 64. -/
def Obligations.LinksAndPages : Prop :=
  (∀ s k, ¬(k < 12 ∧ s.boot.phase = 2) → exec (.linkTrain k) s = .next s) ∧
  (∀ s k, k < 12 → s.boot.phase = 2 → ∃ t, exec (.linkTrain k) s = .next t ∧ t = { s with ports := t.ports } ∧
    t.port k = { s.port k with en := true } ∧ ∀ j, j ≠ k → t.port j = s.port j) ∧
  (∀ s k lanes, ¬(k < 12 ∧ (s.port k).en = true) → exec (.linkUp k lanes) s = .next s) ∧
  (∀ s k lanes, k < 12 → (s.port k).en = true → ∃ t, exec (.linkUp k lanes) s = .next t ∧ t = { s with ports := t.ports } ∧
    t.port k = { s.port k with up := true, lanes := lanes.toNat } ∧ ∀ j, j ≠ k → t.port j = s.port j) ∧
  (∀ s k, (s.port k).up = false → exec (.linkDown k) s = .next s) ∧
  (∀ s k, (s.port k).up = true → ∃ t, exec (.linkDown k) s = .next t ∧ SameBytes s t ∧ t.cores = s.cores ∧ t.teams = s.teams ∧
    t.port k = { s.port k with up := false, lanes := 0, drop := (t.port k).drop } ∧ (∀ p ∈ t.homePages, p.1 % 16 ≠ k) ∧
    (∀ p ∈ t.peerPages, portOf (p.1 * 2 ^ 16) ≠ k) ∧ (∀ r ∈ t.pageReqs, r.port ≠ k ∧ (isPeerPage r.page = true → portOf (r.page * 2 ^ 16) ≠ k)) ∧
    ∀ page, (16 * page + k, PageState.m) ∈ s.homePages → k < 16 → ∀ x, 2048 * page ≤ x → x < 2048 * page + 2048 → x ∈ t.poison) ∧
  (∀ s port page, ¬(isPeerPage page = true ∧ portOf (page * 2 ^ 16) = port ∧ (s.port port).up = true) →
    exec (.pageHandoverRequest port page) s = .next s) ∧
  (∀ s port page, let of (p : PendStore) : Bool := devPage p.op.range.1 == page
    isPeerPage page = true → portOf (page * 2 ^ 16) = port → (s.port port).up = true →
    ∃ t, exec (.pageHandoverRequest port page) s = .next t ∧ t.peerPage page = .i ∧ t.cores = s.cores ∧ (s.pend = [] → SameBytes s t) ∧
      ((s.flushed 4 of).isSome = true → ∀ p ∈ t.pend, of p = true → 4 ≤ t.levelNow p.id) ∧ ∀ x ∈ t.stale, devPage x.loc ≠ page) ∧
  (∀ s port page excl, ¬(port < 12 ∧ page < 2 ^ 23 ∧ (s.port port).up = true) → exec (.peerRequest port page excl) s = .next s) ∧
  (∀ s port page excl, port < 12 → page < 2 ^ 23 → (s.port port).up = true →
    exec (.peerRequest port page excl) s = .next { s with pageReqs := s.pageReqs ++ [⟨port, page, excl, true⟩] }) ∧
  (∀ s page, (∀ r ∈ s.pageReqs, r.page ≠ page) → exec (.pageGrant page) s = .next s) ∧
  ∀ s page r, let of (p : PendStore) : Bool := devPage p.op.range.1 == page
    s.pageReqs.find? (fun r => r.page == page) = some r →
    (isPeerPage page = true → ∃ t, exec (.pageGrant page) s = .next t ∧ t = { s with pageReqs := s.pageReqs.erase r, peerPages := t.peerPages } ∧
      t.peerPage page = if r.excl then .m else .s) ∧
    (isPeerPage page = false → r.port = selfPort → ∃ t, exec (.pageGrant page) s = .next t ∧
      t = { s with pageReqs := s.pageReqs.erase r, homePages := t.homePages } ∧
      ∀ p ∈ t.homePages, p.1 / 16 = page → p.1 % 16 ≠ r.port → r.excl = false ∧ p.2 ≠ .m) ∧
    (isPeerPage page = false → r.port < 12 → ∃ t, exec (.pageGrant page) s = .next t ∧
      (t = s ∨ (t.pageReqs = s.pageReqs.erase r ∧ t.cores = s.cores ∧ t.heldBy page r.port = (if r.excl then .m else .s) ∧
        (∀ p ∈ t.homePages, p.1 / 16 = page → p.1 % 16 ≠ r.port → r.excl = false ∧ p.2 ≠ .m) ∧
        (∀ p ∈ t.pend, of p = true → 4 ≤ t.levelNow p.id) ∧ ∀ x ∈ t.stale, devPage x.loc ≠ page)) ∧
      (s.pend = [] → t.pageReqs = s.pageReqs.erase r ∧ SameBytes s t))

/-- R433 to R438: a write of a tower's command register stores its OP, and with GO begins it: QUIESCE of a tower whose cores are drained
and empty, RELEASE and RESET of a FENCED one, and what ends each; a bridge sleeps without traffic, wakes, is reported when it fails to
for 8,192 hub cycles, and a tower with a request that goes unanswered for 1,048,576 is dead, which ends a save that copies. Where the
rules leave it open the statement takes the model's own reading, of log entries 34, 46, 57, 83. -/
def Obligations.Towers : Prop :=
  let only (s t : State) (x : Nat) (w : Tower) : Prop := t = { s with towers := t.towers } ∧ t.tower x = w ∧ ∀ y, y ≠ x → t.tower y = s.tower y
  let logs (s t : State) (ev : Nat) (a : DWord) (src d : Nat) : Prop := recordKept s.log (if ev = 0x53 then 3 else if ev = 0x52 then 2 else 0) = true →
    ∃ r, t.log.queue = s.log.queue ++ [r] ∧ r.event = ev ∧ r.addr = a ∧ r.src = src ∧ r.d0.toNat = d
  (∀ s x, s.boot.phase ≠ 2 → exec (.towerQuiesce x) s = .next s ∧ exec (.towerRelease x) s = .next s ∧ exec (.towerReset x) s = .next s) ∧
  (∀ s x v, x < 4 → s.boot.phase = 2 →
    (v.getLsbD 15 = false → ∃ t, exec (.registerWrite (0x300 + 16 * x) v) s = .next t ∧ only s t x { s.tower x with op := v.toNat % 4 }) ∧
    (v.getLsbD 15 = true → (v.toNat % 4 = 1 → exec (.registerWrite (0x300 + 16 * x) v) s = exec (.towerQuiesce x) s) ∧
      (v.toNat % 4 = 2 → exec (.registerWrite (0x300 + 16 * x) v) s = exec (.towerReset x) s) ∧
      (v.toNat % 4 = 3 → exec (.registerWrite (0x300 + 16 * x) v) s = exec (.towerRelease x) s))) ∧
  (∀ s x, s.boot.phase = 2 → ∃ t, exec (.towerQuiesce x) s = .next t ∧ only s t x (
    if (s.tower x).phase ≠ .run then { s.tower x with op := 1, err := 2 }
    else if (∀ k ∈ towerCores x, (s.core k).drain = true ∧ s.resident k = []) then { s.tower x with op := 1, go := true, phase := .quiescing }
    else { s.tower x with op := 1, err := 1 })) ∧
  (∀ s x, (s.tower x).phase ≠ .quiescing → exec (.towerFenced x) s = .next s) ∧
  (∀ s x, x < 4 → (s.tower x).phase = .quiescing → ∃ t, exec (.towerFenced x) s = .next t ∧
    (t = s ∨ (t.tower x).phase = .fenced) ∧ (s.pend = [] → (t.tower x).phase = .fenced ∧ SameBytes s t) ∧
    ((t.tower x).phase = .fenced → t.tower x = { s.tower x with phase := .fenced, go := false, err := 0 } ∧ t.cores = s.cores ∧
      (∀ p ∈ t.pend, p.homed x = true → p.si = false → 4 ≤ t.levelNow p.id) ∧ logs s t 0x50 0 (towerSource x) x)) ∧
  (∀ s x, s.boot.phase = 2 → ∃ t, exec (.towerRelease x) s = .next t ∧ only s t x (if (s.tower x).phase = .fenced then
    { s.tower x with op := 3, go := false, err := 0, phase := .run } else { s.tower x with op := 3, err := 2 })) ∧
  (∀ s x, s.boot.phase = 2 → (s.tower x).phase ≠ .fenced → (s.tower x).phase ≠ .dead → ∃ t, exec (.towerReset x) s = .next t ∧
    only s t x { s.tower x with op := 2, err := 2 }) ∧
  (∀ s x, x < 4 → s.boot.phase = 2 → ((s.tower x).phase = .fenced ∨ (s.tower x).phase = .dead) → ∃ t, exec (.towerReset x) s = .next t ∧
    (t.tower x).phase = .resetting ∧ (t.tower x).op = 2 ∧ (t.tower x).go = true ∧ (t.tower x).awake = 0 ∧ (t.tower x).timers = [] ∧
    ((t.tower x).errorReset = true ↔ (s.tower x).phase = .dead) ∧ (∀ p ∈ t.pend, p.homed x = false) ∧
    (∀ k ∈ towerCores x, (t.core k).drain = true ∧ (t.core k).warps = [] ∧ (t.core k).seq = Seq.idle ∧ (t.core k).latent = [] ∧
      (t.core k).rollback = [] ∧ ∀ off < 2 ^ 20, t.byte (spadLoc k off) = 0) ∧
    ((s.tower x).phase = .dead → (∀ y ∈ s.teams, (s.grid? y.2.grid).isSome = true) → ∀ y ∈ t.teams, s.rootOf y.2.grid ∉ s.towerGrids x)) ∧
  (∀ s x, ¬((s.tower x).phase = .waking ∧ (s.tower x).awake = 7) → exec (.towerUp x) s = .next s) ∧
  (∀ s x, x < 4 → (s.tower x).phase = .waking → (s.tower x).awake = 7 → ∃ t, exec (.towerUp x) s = .next t ∧ SameBytes s t ∧ t.cores = s.cores ∧
    t.tower x = { s.tower x with phase := .run, go := false, err := 0 } ∧
    logs s t 0x51 0 (towerSource x) (x + (s.tower x).errorReset.toNat * 4 + (s.tower x).lost % 2 ^ 32 * 2 ^ 32)) ∧
  (∀ s x b, let runs := b < 3 ∧ (s.tower x).bridgeUp b = true ∧ (s.tower x).phase = .run
    (¬runs → exec (.bridgeSleep x b) s = .next s) ∧
    (runs → ∃ t, exec (.bridgeSleep x b) s = .next t ∧ only s t x { s.tower x with awake := (s.tower x).awake - 2 ^ b })) ∧
  (∀ s x b, let sleeps := b < 3 ∧ (s.tower x).bridgeUp b = false ∧ (∀ w ∈ (s.tower x).wakes, w.1 ≠ b) ∧ (s.tower x).phase ≠ .dead
    (¬sleeps → exec (.bridgeWakeStart x b) s = .next s) ∧
    (sleeps → ∃ t, exec (.bridgeWakeStart x b) s = .next t ∧ only s t x { s.tower x with
      wakes := (s.tower x).wakes ++ [(b, s.hubNow)]
      phase := if (s.tower x).phase = .resetting then .waking else (s.tower x).phase })) ∧
  (∀ s x b, let wakes := (s.tower x).bridgeUp b = false ∧
      ((∃ w ∈ (s.tower x).wakes, w.1 = b) ∨ ∃ w ∈ (s.tower x).failed, w.1 = b) ∧ (s.tower x).phase ≠ .dead
    (¬wakes → exec (.bridgeAwake x b) s = .next s) ∧
    (wakes → ∃ t, exec (.bridgeAwake x b) s = .next t ∧ t = { s with towers := t.towers } ∧
      (∀ y, y ≠ x → t.tower y = { s.tower y with timers := (t.tower y).timers }) ∧ t.tower x = { s.tower x with
        awake := (s.tower x).awake + 2 ^ b, wakes := (s.tower x).wakes.filter (·.1 != b), timers := (t.tower x).timers })) ∧
  (∀ s x b, (∀ t0, (s.tower x).wakes.find? (fun w => w.1 == b) = some (b, t0) → s.hubNow < t0 + 8192) → exec (.linkWakeFail x b) s = .next s) ∧
  (∀ s x b t0, x < 4 → (s.tower x).wakes.find? (fun w => w.1 == b) = some (b, t0) → t0 + 8192 ≤ s.hubNow → ∃ t p, exec (.linkWakeFail x b) s = .next t ∧
    SameBytes s t ∧ t.cores = s.cores ∧ t.tower x = { s.tower x with
      wakes := (s.tower x).wakes.filter (·.1 != b), failed := (s.tower x).failed.filter (·.1 != b) ++ [(b, p)], timers := (t.tower x).timers } ∧
    (∀ y ∈ (t.tower x).timers, y ∈ (s.tower x).timers ∨ y.2 = t0 + 8192) ∧ logs s t 0x52 0 (bridgeSource x b) (bridgeSource x b)) ∧
  (∀ (s : State) x, (∀ r, s.expired x = some r → r ∈ s.requests x ∧ ∃ t0, (r.1, t0) ∈ (s.tower x).timers ∧ t0 + 1048576 ≤ s.hubNow) ∧
    (s.expired x = none → ∀ r ∈ s.requests x, ∀ y, (s.tower x).timers.find? (fun y => y.1 == r.1) = some y → s.hubNow < y.2 + 1048576)) ∧
  (∀ s x, (s.expired x = none ∨ (s.tower x).phase = .dead) → exec (.towerDead x) s = .next s) ∧
  ∀ s x n k a, x < 4 → s.expired x = some (n, k, a) → (s.tower x).phase ≠ .dead → ∃ t p, exec (.towerDead x) s = .next t ∧
    t.cores = s.cores ∧ t.tower x = { s.tower x with
      phase := .dead, deadRec := p, timers := [], wakes := [], fwReset := s.fnmode / 4 % 2 == 0 } ∧
    logs s t 0x53 (BitVec.ofNat 64 a) (towerSource x) x ∧
    (if s.ckpt.op = 1 ∧ s.ckpt.phase = 2 then t.ckpt.phase = 4 ∧ t.ckpt.err = 1 ∧ t.ckpt.go = false ∧ t.msi = s.msi ++ [s.ckpt.msi]
    else SameBytes s t ∧ t.ckpt = s.ckpt ∧ t.msi = s.msi)

/-- R439 to R444: boot takes the first of the two flash slots whose image passes its checks, in their order, puts its body into hub
memory, maps 64 usable cores of each tower and makes the device READY, and FAIL where no image passes or a tower has too few; a request
for an attestation report is kept until the report, with the identity key and its signature of the report's body, is written, or ends
with an error. Where the rules leave it open the statement takes the model's own reading, of log entries 35, 36, 60, 72. -/
def Obligations.BootAndAttestation : Prop :=
  (∀ s, s.boot.phase ≠ 0 → exec .powerOnBoot s = .next s) ∧
  (∀ s, s.boot.phase = 0 → let c0 := imageCode s.boot (s.boot.flash.getD 0 [])
    let c1 := imageCode s.boot (s.boot.flash.getD 1 [])
    ∃ t, exec .powerOnBoot s = .next t ∧
      (c0 ≠ 0 → c1 ≠ 0 → t = { s with boot := { s.boot with phase := 3, err := c0, err1 := c1 } }) ∧
      (∀ slot : Fin 2, (slot = 0 → c0 = 0) → (slot = 1 → c0 ≠ 0 ∧ c1 = 0) →
        let img := s.boot.flash.getD slot []
        let body := imageBody img
        t.boot.slot = slot ∧ t.boot.svn = leAt img 4 2 ∧ t.boot.imgHash = sha384 (imageSigned img) ∧
        (∀ i < body.length, t.byte (hubMemory + i) = body.getD i 0) ∧
        (∀ a, a < hubMemory ∨ hubMemory + body.length ≤ a → t.byte a = s.byte a) ∧
        (s.bootMap = none → t.boot.phase = 3) ∧
        (∀ m, s.bootMap = some m → t.boot.phase = 2 ∧ t.boot.map = m ∧ t.boot.mapgen = 0 ∧ t.fnmode = leAt img 6 2 % 64))) ∧
  (∀ (s : State) (m : List (Nat × Nat)), s.bootMap = some m → m.length = 256 ∧ (∀ l < 256, ∃ k, (l, k) ∈ m ∧ k / 256 = l / 64 ∧ k % 256 < 72 ∧ k ∉ s.boot.quarantined) ∧
    (m.map (·.2)).Nodup) ∧
  (∀ b img, imageCode b img = 0 → leAt img 0 4 = 0x4B4D4649 ∧ b.minSvn ≤ leAt img 4 2 ∧ leAt img 8 8 ≤ 2 ^ 24 ∧
    sha384 ((img.drop 128).take 97) = b.rootHash ∧
    ecdsaValid ((img.drop 128).take 97) (imageSigned img) (beNat ((img.drop 232).take 48)) (beNat ((img.drop 280).take 48)) = true) ∧
  (∀ s v, let c := { s.cmd with attBuf := v.toNat / 2 ^ 12 % 2 ^ 40 }
    exec (.attestRequest v) s = .next (
      if v.getLsbD 0 = false then { s with cmd := c }
      else if s.cmd.attRun.isSome = true then s
      else if s.boot.phase = 3 then { s with cmd := { c with attErr := 2 } }
      else { s with cmd := { c with attRun := some c.attBuf } })) ∧
  (∀ s, (s.cmd.attRun = none ∨ (s.boot.phase ≠ 3 ∧ s.boot.phase ≠ 2)) → exec .attestReport s = .next s) ∧
  (∀ s, s.cmd.attRun.isSome = true → s.boot.phase = 3 → exec .attestReport s = .next { s with cmd := { s.cmd with attRun := none, attErr := 2 } }) ∧
  (∀ s buf, s.cmd.attRun = some buf → s.boot.phase = 2 →
    (hostLimit < buf * 4096 + 512 ∨ (s.pend = [] ∧ s.poisoned (hostLoc (buf * 4096) + 16) 48 = true)) → ∃ t, exec .attestReport s = .next t ∧
      t.cmd = { s.cmd with attRun := none, attErr := 1 } ∧ t.cores = s.cores ∧ (s.pend = [] → SameBytes s t)) ∧
  (∀ (s : State) n buf, s.cmd.attRun = some buf → s.boot.phase = 2 → (s.attestFail n).cmd = { s.cmd with attRun := none, attErr := 1 }) ∧
  ∀ s buf, s.cmd.attRun = some buf → s.boot.phase = 2 → buf * 4096 + 512 ≤ hostLimit → s.pend = [] →
    s.poisoned (hostLoc (buf * 4096) + 16) 48 = false → s.boot.imgHash.length = 48 →
    let loc := hostLoc (buf * 4096)
    ∃ t, exec .attestReport s = .next t ∧ t.cmd = { s.cmd with attRun := none, attErr := 0 } ∧
      (∀ a, a < loc ∨ loc + 512 ≤ a → t.byte a = s.byte a) ∧
      (∀ i < 8, t.byte (loc + 8 + i) = BitVec.ofNat 8 (s.boot.mapgen % 2 ^ 32 / 2 ^ (8 * i))) ∧
      (∀ i < 48, t.byte (loc + 16 + i) = s.byte (loc + 16 + i)) ∧ (∀ i < 48, t.byte (loc + 64 + i) = s.boot.imgHash.getD i 0) ∧
      (∀ i < 97, t.byte (loc + 216 + i) = (publicKey (Config.identityScalar s.boot.secret)).getD i 0) ∧
      ∀ i < 96, t.byte (loc + 320 + i) = (s.boot.sign (t.bytes loc 320)).getD i 0

/-- Chapters 08 and 09: decoding what the encoder writes for a well-formed instruction gives the instruction back, with every operand. -/
def Obligations.DecodeOfEncode : Prop := ∀ i e, i.wf = true → encode i = some e → decodeEnc e = .ok i

/-- Chapters 08 and 09: a word that decodes, with the byte a header lends it, is the one encoding of a well-formed instruction: no bit
of it is ignored. -/
def Obligations.WordsHaveOneReading : Prop :=
  ∀ sq h x i, decodeWord sq h x = .ok i → (sq = true → wordA x = false) →
    i.wf = true ∧ ∃ e, encode i = some e ∧ e.lent = h ∧ e.tail = [] ∧ e.word (wordS x) = x

/-- Chapters 08 and 09, Tables 10.3 to 15.7: words written out from the spec's encodings decode to the instructions they stand for.
Where the rules leave it open the statement takes the model's own reading, of log entry 11. -/
def Obligations.DecodedWords : Prop :=
  decodeWord false 0 0x81020818 = .ok (.add ⟨false, 7⟩ .w32 1 (.v 2) (.v 3)) ∧
  decodeWord false 0 0x90020818 = .ok (.fadd ⟨false, 7⟩ .f32 1 (.v 2) (.v 3)) ∧
  decodeWord false 0 0x8C0A5678 = .ok (.movi ⟨false, 7⟩ 5 0x5678) ∧
  decodeWord false 0 0x8702081A = .ok (.setp ⟨false, 7⟩ .lt false .w32 1 (.v 2) (.v 3)) ∧
  decodeWord true 0 0xBC003041 = .ok (.tld 0 3 1) ∧
  decodeWord true 0 0xBC00414A = .ok (.tst 5 4 0) ∧
  decodeWord true 0 0xBE000004 = .ok .sege ∧
  decodeWord false 0 0xBE000004 = .bad .stream ∧
  decodeTableWord 64 0x01041030BF100000 = some (.add ⟨false, 7⟩ .w64 2 (.v 4) (.v 6))

/-- R34, R182, R192, R307, R308: a step makes the first move of the agenda. Where that is the issue of a gang whose bundle is one word
that decodes to `i`, passes its checks and is not held back, the step is `exec i` with the gang at the cursor, then the end of the
bundle; where it is a cycle of a sequencer that may issue, it is `exec i` with the sequencer at the cursor, then the end of the cycle;
where it is an event, it is the event, after a rendezvous with the bundles of its members. After a move a full error log may hold its
source back (R422), and what it has written holds no error any more (R425). With no move left, a round of moves is put on the agenda.
Where the rules leave it open the statement takes the model's own reading, of log entries 1, 9, 32, 62. -/
def Obligations.StepsRunInstructions : Prop :=
  let after (s : State) (r : List Move) (u : State) : State :=
    let s0 := { s with agenda := r }
    (s0.holdSource (s0.dropLatent u)).rest
  (∀ s, s.agenda = [] → step s = .next { s with agenda := s.round }) ∧
  (∀ s i r u, s.agenda = .event i :: r → encode i = none → (∀ c, i ≠ .mmaCoRendezvous c) → exec i { s with agenda := r } = .next u →
    step s = .next (after s r u)) ∧
  (∀ s c r v u, s.agenda = .event (.mmaCoRendezvous c) :: r → exec (.mmaCoRendezvous c) { s with agenda := r } = .next v →
    issueMet exec (v.cores.map (·.1)) v = .next u → step s = .next (after s r u)) ∧
  (∀ s core slot slice r w x w0 ws i u, s.agenda = .issue core slot slice :: r →
    let s1 := State.refillSet { s with agenda := r } core
    let m := w.gangMask x.gang
    let cur := gangCursor core slot m x.pc 1
    let v := s1.readsAs core slot m w
    s1.warp? core slot = some w → w.slice? slice = some x → x.retired = false → w.gangGoes x.gang = true → s1.slotOpen core slot w m = true →
    s1.fetchWords core (s1.ctxNo w) x.pc = .inr (w0 :: ws) → wordS w0 = true → (∀ y, ws.head? = some y → wordS y = true) → isHeader w0 = false →
    decodeWord false 0 w0 = .ok i → decodeTrap s1 w i = none → bundleHazard w m 0 [i] = false →
    (∀ p ∈ w.pending, landsFirst w m (countedIn [i]) p = false) →
    bundleTrap s1 core slot m x.pc v [(0, w0)] [i] = none → s1.latentFor core slot v m [i] = none →
    State.wordStalls { s1 with cur := cur } core slot v m x.pc i = false →
    let s2 := s1.openBundle cur [i]
    s2.cur = { cur with checked := true } ∧ s2.view = (s2.warp? core slot).map (s2.readsAs core slot m) ∧
      s2.warp? core slot = some (w.issued m [i] s1.coreNow) ∧ (exec i s2 = .next u → step s = .next (after s r (u.closeBundle [i])))) ∧
  ∀ s k r tid tm q raw i len u, s.agenda = .seqCycle k :: r → s.seqTeam k = some (tid, tm) → (s.core k).seq = q → tm.halted = false →
    (s.core k).mgn.settling = false → (s.core k).mgn.testing = none → q.wait = .none → q.issued = false →
    q.landings = [] → q.ended = false →
    let s1 := State.landDue { s with agenda := r } k
    s1.fetchSeq k tid tm q = .inr (raw, [i], len) → (seqSettled i = true → q.settling = true) → seqIssueTrap s1 k tm q i = none →
    s1.latentShared k [i] = none → (q.coGo = 0 → coWord [i] = none) →
    let s2 := s1.openSeq k q (raw, [i], len)
    s2.cur = seqCursor k q.pc len ∧ (exec i s2 = .next u → step s = .next (after s r (u.closeSeq [i])))

/-- The device never stops: a step of any state answers a next state, as no word or event that a step runs ends in a fault or a refusal.
Where the rules leave it open the statement takes the model's own reading, of log entry 33. -/
def Obligations.StepsNeverStop : Prop := ∀ s, ∃ t, step s = .next t

/-- The canonical form of memory is an invariant: in every state that has it, whatever the step does, the next state has it, and so
memories that read alike are equal. Where the rules leave it open the statement takes the model's own reading, of log entry 2. -/
def Obligations.MemoryStaysCanonical : Prop := ∀ s t, Memory.wf s.mem = true → step s = .next t → Memory.wf t.mem = true

/-- R439, R436: what reset leaves, of what the spec gives: BOOTSTAT 0, no warp, team or launch, no store in flight, no window or context
enabled, nothing in the error log, every tower RUN with its bridges awake; and memory in its canonical form. -/
def Obligations.ResetState : Prop :=
  Memory.wf State.reset.mem = true ∧ State.reset.readReg 0x080 = 0 ∧ (∀ k n, State.reset.warp? k n = none) ∧ State.reset.teams = [] ∧
    State.reset.nodes = [] ∧ State.reset.pend = [] ∧ (∀ w, (State.reset.window w).en = false) ∧ (∀ c, (State.reset.ctx c).en = false) ∧
    State.reset.log.queue = [] ∧ State.reset.readReg 0x188 = 0 ∧ State.reset.readReg 0x190 = 0 ∧
    ∀ t, (State.reset.tower t).phase = .run ∧ (State.reset.tower t).awake = 7
end

