-- ==== Sys2Proof/Laws/Encode.lean ====
section
/-! SUPPORT. The fields of a word come back as they were packed, and each operand's field decodes to the operand. -/

namespace Sys2Proof

/-- A field that lies below the top part of a concatenation is a field of the lower part. -/
theorem extract_low {a b : Nat} (x : BitVec a) (y : BitVec b) (s n : Nat) (h : s + n ≤ b) :
    (x ++ y).extractLsb' s n = y.extractLsb' s n := by
  apply BitVec.eq_of_getLsbD_eq
  intro i hi
  rw [BitVec.getLsbD_extractLsb', BitVec.getLsbD_extractLsb', BitVec.getLsbD_append]
  simp [hi, show s + i < b by omega]
/-- A field that lies in the top part of a concatenation is a field of it. -/
theorem extract_high {a b : Nat} (x : BitVec a) (y : BitVec b) (s n : Nat) (h : b ≤ s) :
    (x ++ y).extractLsb' s n = x.extractLsb' (s - b) n := by
  apply BitVec.eq_of_getLsbD_eq
  intro i hi
  rw [BitVec.getLsbD_extractLsb', BitVec.getLsbD_extractLsb', BitVec.getLsbD_append]
  simp [hi, show ¬ s + i < b by omega, show s + i - b = s - b + i by omega]
/-- The field of all bits. -/
theorem extract_all {n : Nat} (x : BitVec n) : x.extractLsb' 0 n = x := by
  apply BitVec.eq_of_getLsbD_eq
  intro i hi
  rw [BitVec.getLsbD_extractLsb']
  simp [hi]
/-- A bit of the lower part of a concatenation. -/
theorem bit_low {a b : Nat} (x : BitVec a) (y : BitVec b) (i : Nat) (h : i < b) : (x ++ y).getLsbD i = y.getLsbD i := by
  simp [BitVec.getLsbD_append, h]
/-- A bit of the top part of a concatenation. -/
theorem bit_high {a b : Nat} (x : BitVec a) (y : BitVec b) (i : Nat) (h : b ≤ i) :
    (x ++ y).getLsbD i = x.getLsbD (i - b) := by
  simp [BitVec.getLsbD_append, show ¬ i < b by omega]
/-- A field of a field. -/
theorem extract_extract {n : Nat} (x : BitVec n) (s k t m : Nat) (h : t + m ≤ k) :
    (x.extractLsb' s k).extractLsb' t m = x.extractLsb' (s + t) m := by
  apply BitVec.eq_of_getLsbD_eq
  intro i hi
  simp [BitVec.getLsbD_extractLsb', hi, show t + i < k by omega, Nat.add_assoc]
/-- A bit of a field. -/
theorem bit_extract {n : Nat} (x : BitVec n) (s k i : Nat) (h : i < k) : (x.extractLsb' s k).getLsbD i = x.getLsbD (s + i) := by
  simp [BitVec.getLsbD_extractLsb', h]
/-- A value is its two halves. -/
theorem join_split {a b : Nat} (x : BitVec (a + b)) : x.extractLsb' b a ++ x.extractLsb' 0 b = x := by
  apply BitVec.eq_of_getLsbD_eq
  intro i hi
  rw [BitVec.getLsbD_append]
  by_cases h : i < b
  · simp [h, BitVec.getLsbD_extractLsb']
  · simp [h, BitVec.getLsbD_extractLsb', show i - b < a by omega, show b + (i - b) = i by omega]
/-- The one bit of a Bool. -/
theorem bit_ofBool (b : Bool) : (BitVec.ofBool b).getLsbD 0 = b := by cases b <;> rfl

/-! ### Formats -/

@[simp] theorem wordOp_packWord (s a : Bool) (op : BitVec 6) (x : BitVec 24) : wordOp (packWord s a op x) = op := by
  simp (disch := omega) only [wordOp, packWord, extract_low, extract_high, extract_all, -Nat.reduceAdd, Nat.reduceSub]
@[simp] theorem wordA_packWord (s a : Bool) (op : BitVec 6) (x : BitVec 24) : wordA (packWord s a op x) = a := by
  simp only [wordA, packWord]
  rw [bit_high _ _ _ (by omega), bit_high _ _ _ (by omega), bit_low _ _ _ (by omega), bit_ofBool]
@[simp] theorem wordS_packWord (s a : Bool) (op : BitVec 6) (x : BitVec 24) : wordS (packWord s a op x) = s := by
  simp only [wordS, packWord]
  rw [bit_high _ _ _ (by omega), bit_high _ _ _ (by omega), bit_high _ _ _ (by omega), bit_ofBool]
@[simp] theorem wordBody_packWord (s a : Bool) (op : BitVec 6) (x : BitVec 24) : wordBody (packWord s a op x) = x := by
  simp (disch := omega) only [wordBody, packWord, extract_low, extract_high, extract_all, -Nat.reduceAdd, Nat.reduceSub]
@[simp] theorem bodyRR_packRR (f : FieldsRR) : bodyRR (packRR f) = f := by
  simp (disch := omega) only [bodyRR, packRR, extract_low, extract_high, extract_all, -Nat.reduceAdd, Nat.reduceSub]
@[simp] theorem bodyRL_packRL (f : FieldsRL) : bodyRL (packRL f) = f := by
  simp (disch := omega) only [bodyRL, packRL, extract_low, extract_high, extract_all, -Nat.reduceAdd, Nat.reduceSub]
@[simp] theorem bodyRI_packRI (f : FieldsRI) : bodyRI (packRI f) = f := by
  simp (disch := omega) only [bodyRI, packRI, extract_low, extract_high, extract_all, -Nat.reduceAdd, Nat.reduceSub]
@[simp] theorem bodyRU_packRU (f : FieldsRU) : bodyRU (packRU f) = f := by
  simp (disch := omega) only [bodyRU, packRU, extract_low, extract_high, extract_all, -Nat.reduceAdd, Nat.reduceSub]
@[simp] theorem bodyB_packB (f : FieldsB) : bodyB (packB f) = f := by
  simp (disch := omega) only [bodyB, packB, extract_low, extract_high, extract_all, -Nat.reduceAdd, Nat.reduceSub]
@[simp] theorem bodyT_packT (f : FieldsT) : bodyT (packT f) = f := by
  simp (disch := omega) only [bodyT, packT, extract_low, extract_high, extract_all, -Nat.reduceAdd, Nat.reduceSub]
@[simp] theorem lentG_packLent (l : Lent) : lentG (packLent l) = l := by
  obtain ⟨sa, sb, xh, gn, gp⟩ := l
  simp only [lentG, packLent]
  congr 1
  · rw [bit_high _ _ _ (by omega), bit_high _ _ _ (by omega), bit_high _ _ _ (by omega), bit_high _ _ _ (by omega), bit_ofBool]
  · rw [bit_high _ _ _ (by omega), bit_high _ _ _ (by omega), bit_high _ _ _ (by omega), bit_low _ _ _ (by omega), bit_ofBool]
  · simp (disch := omega) only [extract_low, extract_high, extract_all, -Nat.reduceAdd, Nat.reduceSub]
  · rw [bit_high _ _ _ (by omega), bit_low _ _ _ (by omega), bit_ofBool]
  · simp (disch := omega) only [extract_low, extract_high, extract_all, -Nat.reduceAdd, Nat.reduceSub]
@[simp] theorem xor_seven (p : BitVec 3) : p ^^^ 7#3 ^^^ 7#3 = p := by
  rw [BitVec.xor_assoc]; simp

/-! ### Codes -/

@[simp] theorem toWidth_code (x : Width) : toWidth x.code = some x := by cases x <;> rfl
@[simp] theorem toICond_code (x : ICond) : toICond x.code = some x := by cases x <;> rfl
@[simp] theorem toFTy_code (x : FTy) : toFTy x.code = x := by cases x <;> rfl
@[simp] theorem toFCond_code (x : FCond) : toFCond x.code = x := by cases x <;> rfl
@[simp] theorem toSCond_code (x : SCond) : toSCond x.code = x := by cases x <;> rfl
@[simp] theorem toIdxSel_code (x : IdxSel) : toIdxSel x.code = some x := by cases x <;> rfl
@[simp] theorem toFrnd_code (x : FrndMode) : toFrnd x.code = x := by cases x <;> rfl
@[simp] theorem toCvtTy_code (x : CvtTy) : toCvtTy x.code = some x := by cases x <;> rfl
@[simp] theorem toPackTy_code (x : PackTy) : toPackTy x.code = some x := by cases x <;> rfl
@[simp] theorem toLdSize_code (x : LdSize) : toLdSize x.code = some x := by cases x <;> rfl
@[simp] theorem toStSize_code (x : StSize) : toStSize x.code = some x := by cases x <;> rfl
@[simp] theorem toScope_code (x : Scope) : toScope x.code = some x := by cases x <;> rfl
@[simp] theorem toAtomOp_code (x : AtomOp) : toAtomOp x.code = x := by cases x <;> rfl
@[simp] theorem toAtomOrd_code (x : AtomOrd) : toAtomOrd x.code = x := by cases x <;> rfl
@[simp] theorem toShMode_code (x : ShMode) : toShMode x.code = some x := by cases x <;> rfl
@[simp] theorem toTTy_code (x : TTy) : toTTy x.code = x := by cases x <;> rfl
@[simp] theorem toTCvtTy_code (x : TCvtTy) : toTCvtTy x.code = some x := by cases x <;> rfl
@[simp] theorem toMmaTy_code (x : MmaTy) : toMmaTy x.code = some x := by cases x <;> rfl
@[simp] theorem toMmaDim_code (x : MmaDim) : toMmaDim x.code = x := by cases x <;> rfl
@[simp] theorem toSpecReg_code (x : SpecReg) : toSpecReg x.code = some x := by
  cases x with
  | bx k => revert k; decide
  | _ => rfl
@[simp] theorem ofBit_bit (w : Width) : Width.ofBit w.bit = w := by cases w <;> rfl

/-! ### Operands -/

@[simp] theorem isScalar_sField (r : SReg) : isScalar (sField r) = true := by
  simp only [isScalar, sField]
  rw [bit_high _ _ _ (by omega)]
  rfl
@[simp] theorem toScalar_sField (r : SReg) : toScalar (sField r) = r := by
  simp (disch := omega) only [toScalar, sField, extract_low, extract_all, -Nat.reduceAdd]
@[simp] theorem isPred_pField (p : PReg) : isPred (pField p) = true := by revert p; decide
@[simp] theorem toPred_pField (p : PReg) : toPred (pField p) = p := by revert p; decide
@[simp] theorem toSrc_field (a : Src) : toSrc a.isScalar a.field = a := by
  cases a with
  | v r => rfl
  | s r => exact congrArg Src.s (toScalar_sField r)
@[simp] theorem srcOk_field (a : Src) : srcOk a.isScalar a.field = true := by
  cases a with
  | v r => rfl
  | s r => exact isScalar_sField r
@[simp] theorem srcOk_false (f : BitVec 7) : srcOk false f = true := rfl
@[simp] theorem toTSrc_field (a : TSrc) : toTSrc a.isScalar a.field = a := by cases a <;> rfl
@[simp] theorem toMSrc_field (a : MSrc) : toMSrc a.v a.field = a := by
  cases a with
  | t r => rfl
  | h r => revert r; decide
@[simp] theorem mSrcOk_field (a : MSrc) : mSrcOk a.v a.field = true := by
  cases a with
  | t r => rfl
  | h r => revert r; decide
@[simp] theorem lentG_lentOf (g : Guard) (sa sb : Bool) (xh : BitVec 2) :
    lentG (lentOf g sa sb xh) = ⟨sa, sb, xh, g.neg, g.p ^^^ 7#3⟩ := lentG_packLent _
@[simp] theorem guard_lent (g : Guard) (sa sb : Bool) (xh : BitVec 2) :
    (Lent.mk sa sb xh g.neg (g.p ^^^ 7#3)).guard = g := by simp [Lent.guard]
@[simp] theorem guardOk_lent (g : Guard) (sa sb : Bool) (xh : BitVec 2) :
    (Lent.mk sa sb xh g.neg (g.p ^^^ 7#3)).guardOk = g.wf := by
  obtain ⟨n, p⟩ := g
  show (!(n && p ^^^ 7 == 0)) = !(n && p == 7)
  revert n p
  decide
@[simp] theorem extGuard_lentMem (gp : PReg) (low : BitVec 3) : extGuard (lentMem gp low) = gp := by
  revert gp low; decide
@[simp] theorem extLow_lentMem (gp : PReg) (low : BitVec 3) : extLow (lentMem gp low) = low := by revert gp low; decide
@[simp] theorem extPlain_lentMem (gp : PReg) (low : BitVec 3) : extPlain (lentMem gp low) = true := by revert gp low; decide
@[simp] theorem isScalar_zero : isScalar 0#7 = true := rfl
@[simp] theorem toLdSize_seven : toLdSize 7#3 = none := rfl
@[simp] theorem toStSize_seven : toStSize 7#3 = none := rfl
@[simp] theorem lentG_zero : lentG 0#8 = ⟨false, false, 0#2, false, 0#3⟩ := rfl
@[simp] theorem guard_none_neg : Guard.none.neg = false := rfl
@[simp] theorem guard_none_p : Guard.none.p = 7#3 := rfl
@[simp] theorem imm12_parts (x : BitVec 12) :
    imm12 (x.extractLsb' 10 2 ^^^ if x.getLsbD 9 = true then 3#2 else 0#2) (x.extractLsb' 0 10) = x := by
  simp only [imm12]
  rw [bit_extract _ _ _ _ (by omega), BitVec.xor_assoc]
  simpa using join_split (a := 2) (b := 10) x
@[simp] theorem imm19_parts (x : BitVec 19) :
    imm19 (x.extractLsb' 17 2 ^^^ if x.getLsbD 16 = true then 3#2 else 0#2) (x.extractLsb' 0 17) = x := by
  simp only [imm19]
  rw [bit_extract _ _ _ _ (by omega), BitVec.xor_assoc]
  simpa using join_split (a := 2) (b := 17) x
@[simp] theorem toFTy_parts (t : FTy) : toFTy (t.code.extractLsb' 1 1 ++ t.code.extractLsb' 0 1) = t := by cases t <;> rfl
@[simp] theorem toPackTy_parts (t : PackTy) : toPackTy (t.code.extractLsb' 3 2 ++ t.code.extractLsb' 0 3) = some t := by
  cases t <;> rfl
@[simp] theorem imm15_parts (x : BitVec 15) : x.extractLsb' 8 7 ++ x.extractLsb' 0 8 = x := join_split (a := 7) (b := 8) x
@[simp] theorem imm12_halves (x : BitVec 12) : x.extractLsb' 6 6 ++ x.extractLsb' 0 6 = x := join_split (a := 6) (b := 6) x
@[simp] theorem bar_parts (x : BitVec 7) : x.extractLsb' 6 1 ++ x.extractLsb' 0 6 = x := join_split (a := 1) (b := 6) x
@[simp] theorem cyc_parts (x : BitVec 24) : x.extractLsb' 12 12 ++ x.extractLsb' 0 12 = x := join_split (a := 12) (b := 12) x
@[simp] theorem sig_parts (x : Word) : x.extractLsb' 16 16 ++ x.extractLsb' 0 16 = x := join_split (a := 16) (b := 16) x

end Sys2Proof
end

