-- ==== Sys2Proof/Laws/Sparse.lean ====
section
/-! SUPPORT. Laws of the sparse maps: read after write for any list, and that every operation keeps the canonical form. -/

namespace Sys2Proof.Machine

variable {α : Type}

/-! ### Maps with a default -/

@[simp] theorem sget_nil (d : α) (k : Nat) : sget d [] k = d := rfl
theorem sget_sdrop (d : α) (m : List (Nat × α)) (k j : Nat) : sget d (sdrop m k) j = if j = k then d else sget d m j := by
  induction m with
  | nil => simp [sdrop]
  | cons p r ih =>
    obtain ⟨a, v⟩ := p
    by_cases h : a = k
    · subst h
      by_cases hj : j = a
      · subst hj; simpa [sdrop] using ih
      · simp [sdrop, ih, sget, hj, show ¬ a = j from fun h => hj h.symm]
    · simp only [sdrop, if_neg h, sget, ih]
      by_cases hj : j = k
      · subst hj; simp [h]
      · simp [hj]
/-- A read after a write: the value at the key written, and what was there at any other. -/
theorem sget_sput [DecidableEq α] (d : α) (m : List (Nat × α)) (k j : Nat) (v : α) :
    sget d (sput d m k v) j = if j = k then v else sget d m j := by
  induction m with
  | nil =>
    by_cases h : j = k
    · subst h
      by_cases hv : v = d <;> simp [sput, sget, hv]
    · by_cases hv : v = d <;> simp [sput, sget, hv, h, show ¬ k = j from fun e => h e.symm]
  | cons p r ih =>
    obtain ⟨a, w⟩ := p
    unfold sput
    by_cases h1 : k < a
    · have hka : ¬ a = k := by omega
      simp only [h1, if_true]
      by_cases hv : v = d
      · simp only [hv, if_true, sget, sget_sdrop]
        by_cases hj : j = k
        · subst hj; simp [hka]
        · simp [hj]
      · simp only [hv, if_false, sget]
        by_cases hj : j = k
        · subst hj; simp
        · simp [hj, show ¬ k = j from fun e => hj e.symm]
    · by_cases h2 : a = k
      · subst h2
        simp only [h1, if_false, if_true]
        by_cases hv : v = d
        · simp only [hv, if_true, sget_sdrop, sget]
          by_cases hj : j = a
          · simp [hj]
          · simp [hj, show ¬ a = j from fun e => hj e.symm]
        · simp only [hv, if_false, sget]
          by_cases hj : j = a
          · subst hj; simp
          · simp [hj, show ¬ a = j from fun e => hj e.symm]
      · simp only [h1, h2, if_false, sget, ih]
        by_cases hj : j = k
        · subst hj; simp [h2]
        · simp [hj]
@[simp] theorem sget_sput_same [DecidableEq α] (d : α) (m : List (Nat × α)) (k : Nat) (v : α) :
    sget d (sput d m k v) k = v := by simp [sget_sput]
theorem sget_sput_other [DecidableEq α] (d : α) (m : List (Nat × α)) (k j : Nat) (v : α) (h : j ≠ k) :
    sget d (sput d m k v) j = sget d m j := by simp [sget_sput, h]

/-! ### The canonical form -/

theorem swfFrom_mono [DecidableEq α] (d : α) (m : List (Nat × α)) (lo hi : Nat) (h : lo ≤ hi) (hm : swfFrom d hi m = true) :
    swfFrom d lo m = true := by
  cases m with
  | nil => rfl
  | cons p r => simp only [swfFrom, Bool.and_eq_true, decide_eq_true_eq] at hm ⊢; exact ⟨⟨by omega, hm.1.2⟩, hm.2⟩
theorem swfFrom_sdrop [DecidableEq α] (d : α) (m : List (Nat × α)) (lo k : Nat) (hm : swfFrom d lo m = true) :
    swfFrom d lo (sdrop m k) = true := by
  induction m generalizing lo with
  | nil => rfl
  | cons p r ih =>
    obtain ⟨a, v⟩ := p
    simp only [swfFrom, Bool.and_eq_true, decide_eq_true_eq] at hm
    unfold sdrop
    by_cases h : a = k
    · rw [if_pos h]; exact ih _ (swfFrom_mono d r lo (a + 1) (by omega) hm.2)
    · rw [if_neg h]; simp only [swfFrom, Bool.and_eq_true, decide_eq_true_eq]; exact ⟨hm.1, ih _ hm.2⟩
theorem swfFrom_sput [DecidableEq α] (d : α) (m : List (Nat × α)) (lo k : Nat) (v : α) (hk : lo ≤ k)
    (hm : swfFrom d lo m = true) : swfFrom d lo (sput d m k v) = true := by
  induction m generalizing lo with
  | nil => by_cases hv : v = d <;> simp [sput, swfFrom, hv, hk]
  | cons p r ih =>
    obtain ⟨a, w⟩ := p
    simp only [swfFrom, Bool.and_eq_true, decide_eq_true_eq] at hm
    unfold sput
    by_cases h1 : k < a
    · rw [if_pos h1]
      by_cases hv : v = d
      · rw [if_pos hv]
        simp only [swfFrom, Bool.and_eq_true, decide_eq_true_eq]
        exact ⟨hm.1, swfFrom_sdrop d r _ k hm.2⟩
      · rw [if_neg hv]
        simp only [swfFrom, Bool.and_eq_true, decide_eq_true_eq]
        exact ⟨⟨hk, hv⟩, ⟨by omega, hm.1.2⟩, hm.2⟩
    · rw [if_neg h1]
      by_cases h2 : a = k
      · rw [if_pos h2]
        by_cases hv : v = d
        · rw [if_pos hv]; exact swfFrom_mono d _ lo (a + 1) (by omega) (swfFrom_sdrop d r _ k hm.2)
        · rw [if_neg hv]
          simp only [swfFrom, Bool.and_eq_true, decide_eq_true_eq]
          exact ⟨⟨hk, hv⟩, h2 ▸ hm.2⟩
      · rw [if_neg h2]
        simp only [swfFrom, Bool.and_eq_true, decide_eq_true_eq]
        exact ⟨hm.1, ih _ (by omega) hm.2⟩
/-- A write keeps the canonical form. -/
theorem swf_sput [DecidableEq α] (d : α) (m : List (Nat × α)) (k : Nat) (v : α) (hm : swf d m = true) :
    swf d (sput d m k v) = true := swfFrom_sput d m 0 k v (Nat.zero_le _) hm
/-- Leaving entries out keeps the canonical form. -/
theorem swfFrom_filter [DecidableEq α] (d : α) (f : Nat × α → Bool) (m : List (Nat × α)) (lo : Nat)
    (hm : swfFrom d lo m = true) : swfFrom d lo (m.filter f) = true := by
  induction m generalizing lo with
  | nil => rfl
  | cons p r ih =>
    obtain ⟨a, v⟩ := p
    simp only [swfFrom, Bool.and_eq_true, decide_eq_true_eq] at hm
    rw [List.filter_cons]
    split
    · simp only [swfFrom, Bool.and_eq_true, decide_eq_true_eq]; exact ⟨hm.1, ih _ hm.2⟩
    · exact ih _ (swfFrom_mono d r lo (a + 1) (by omega) hm.2)
theorem swf_filter [DecidableEq α] (d : α) (f : Nat × α → Bool) (m : List (Nat × α)) (hm : swf d m = true) :
    swf d (m.filter f) = true := swfFrom_filter d f m 0 hm
/-- Dropping a range keeps the canonical form. -/
theorem swf_sdropRange [DecidableEq α] (d : α) (m : List (Nat × α)) (lo hi : Nat) (hm : swf d m = true) :
    swf d (sdropRange m lo hi) = true := swf_filter d _ m hm

/-! ### Maps whose absent keys hold nothing -/

@[simp] theorem sfind_sinsert_same (m : List (Nat × α)) (k : Nat) (v : α) : sfind (sinsert m k v) k = some v := by
  induction m with
  | nil => simp [sinsert, sfind]
  | cons p r ih =>
    obtain ⟨a, w⟩ := p
    unfold sinsert
    by_cases h1 : k < a
    · simp [h1, sfind]
    · by_cases h2 : a = k
      · simp [h2, sfind]
      · simp [h1, h2, sfind, ih]
theorem sfind_sinsert_other (m : List (Nat × α)) (k j : Nat) (v : α) (h : j ≠ k) : sfind (sinsert m k v) j = sfind m j := by
  have hk : ¬ k = j := fun e => h e.symm
  induction m with
  | nil => simp [sinsert, sfind, hk]
  | cons p r ih =>
    obtain ⟨a, w⟩ := p
    unfold sinsert
    by_cases h1 : k < a
    · simp [h1, sfind, hk]
    · by_cases h2 : a = k
      · subst h2; simp [sfind, hk]
      · simp only [h1, h2, if_false, sfind, ih]
theorem sfind_smodify_same (m : List (Nat × α)) (k : Nat) (f : α → α) : sfind (smodify m k f) k = (sfind m k).map f := by
  induction m with
  | nil => rfl
  | cons p r ih =>
    obtain ⟨a, v⟩ := p
    unfold smodify
    by_cases h : a = k
    · simp [h, sfind]
    · simp [h, sfind, ih]
theorem sfind_smodify_other (m : List (Nat × α)) (k j : Nat) (f : α → α) (h : j ≠ k) :
    sfind (smodify m k f) j = sfind m j := by
  have hk : ¬ k = j := fun e => h e.symm
  induction m with
  | nil => rfl
  | cons p r ih =>
    obtain ⟨a, v⟩ := p
    unfold smodify
    by_cases h2 : a = k
    · subst h2; simp [sfind, hk]
    · simp only [h2, if_false, sfind, ih]

end Sys2Proof.Machine
end

