-- ==== Sys2Proof/Laws/Registers.lean ====
section
/-! SUPPORT. The registers of a warp: what a write leaves of each register and lane, and of the rest of the warp. -/

set_option Elab.async false

namespace Sys2Proof.Machine
open Sys2Proof

/-! ### Words and double-words -/

@[simp] theorem loWord_dword (lo hi : Word) : loWord (dword lo hi) = lo :=
  (extract_low (a := 32) (b := 32) hi lo 0 32 (by omega)).trans (extract_all lo)
@[simp] theorem hiWord_dword (lo hi : Word) : hiWord (dword lo hi) = hi :=
  (extract_high (a := 32) (b := 32) hi lo 32 32 (by omega)).trans (extract_all hi)
@[simp] theorem dword_halves (x : DWord) : dword (loWord x) (hiWord x) = x := join_split (a := 32) (b := 32) x
@[simp] theorem loWord_zeroExtend (x : Word) : loWord (x.zeroExtend 64) = x := by
  apply BitVec.eq_of_getLsbD_eq; intro i hi'
  simp [loWord, hi', show i < 64 by omega]

/-! ### Vector registers -/

theorem sget_putLanes (m : List (Nat × Word)) (r : Nat) (f : Nat → Word) (on : Nat → Bool) (n k : Nat) :
    sget 0 (putLanes m r f on n) k =
      if 64 * r ≤ k ∧ k < 64 * r + n ∧ on (k - 64 * r) = true then f (k - 64 * r) else sget 0 m k := by
  induction n with
  | zero => rw [if_neg (by omega)]; rfl
  | succ n ih =>
    simp only [putLanes]
    by_cases ho : on n = true
    · rw [if_pos ho, sget_sput, ih]
      by_cases hk : k = 64 * r + n
      · subst hk; simp [ho]
      · rw [if_neg hk]
        by_cases hc : 64 * r ≤ k ∧ k < 64 * r + n ∧ on (k - 64 * r) = true
        · rw [if_pos hc, if_pos ⟨hc.1, by omega, hc.2.2⟩]
        · rw [if_neg hc, if_neg]
          exact fun h => hc ⟨h.1, by omega, h.2.2⟩
    · rw [if_neg ho, ih]
      by_cases hc : 64 * r ≤ k ∧ k < 64 * r + n ∧ on (k - 64 * r) = true
      · rw [if_pos hc, if_pos ⟨hc.1, by omega, hc.2.2⟩]
      · rw [if_neg hc, if_neg]
        intro h
        by_cases hk : k = 64 * r + n
        · subst hk; simp at h; exact ho h
        · exact hc ⟨h.1, by omega, h.2.2⟩
/-- A lane of a register after a write of a register. -/
theorem Warp.vget_vset (w : Warp) (d r l : Nat) (f : Nat → Word) (on : Nat → Bool) (hl : l < 64) :
    (w.vset d f on).vget r l = if r = d ∧ on l = true then f l else w.vget r l := by
  simp only [Warp.vget, Warp.vset]
  rw [sget_putLanes]
  by_cases hr : r = d
  · subst hr
    by_cases ho : on l = true
    · rw [if_pos ⟨by omega, by omega, by rw [show 64 * r + l - 64 * r = l by omega]; exact ho⟩, if_pos ⟨rfl, ho⟩,
        show 64 * r + l - 64 * r = l by omega]
    · rw [if_neg, if_neg (fun h => ho h.2)]
      rintro ⟨-, -, h⟩
      rw [show 64 * r + l - 64 * r = l by omega] at h
      exact ho h
  · rw [if_neg (fun h => by have := h.1; have := h.2.1; omega), if_neg (fun h => hr h.1)]
theorem Warp.vget_vset_on (w : Warp) (d l : Nat) (f : Nat → Word) (on : Nat → Bool) (hl : l < 64) (ho : on l = true) :
    (w.vset d f on).vget d l = f l := by rw [w.vget_vset _ _ _ _ _ hl, if_pos ⟨rfl, ho⟩]
theorem Warp.vget_vset_off (w : Warp) (d r l : Nat) (f : Nat → Word) (on : Nat → Bool) (hl : l < 64) (ho : on l = false) :
    (w.vset d f on).vget r l = w.vget r l := by rw [w.vget_vset _ _ _ _ _ hl, if_neg (fun h => by simp [ho] at h)]
theorem Warp.vget_vset_other (w : Warp) (d r l : Nat) (f : Nat → Word) (on : Nat → Bool) (hl : l < 64) (hr : r ≠ d) :
    (w.vset d f on).vget r l = w.vget r l := by rw [w.vget_vset _ _ _ _ _ hl, if_neg (fun h => hr h.1)]
theorem Warp.vset_rest (w : Warp) (d : Nat) (f : Nat → Word) (on : Nat → Bool) :
    w.vset d f on = { w with v := (w.vset d f on).v } := rfl
theorem Warp.vsetW_rest (w : Warp) (wd : Width) (d : Nat) (f : Nat → DWord) (on : Nat → Bool) :
    w.vsetW wd d f on = { w with v := (w.vsetW wd d f on).v } := by cases wd <;> rfl

/-! ### Scalar registers -/

@[simp] theorem Warp.sget_sset (w : Warp) (d : SReg) (x : DWord) : (w.sset d x).sget d = x := by
  simp [Warp.sget, Warp.sset]
theorem Warp.sget_sset_other (w : Warp) (d r : SReg) (x : DWord) (h : r ≠ d) : (w.sset d x).sget r = w.sget r := by
  have : r.toNat ≠ d.toNat := fun e => h (BitVec.eq_of_toNat_eq e)
  simp [Warp.sget, Warp.sset, sget_sput, this]

/-! ### Predicates -/

theorem getLsbD_putBits (x : BitVec 64) (f on : Nat → Bool) (n i : Nat) (hn : n ≤ 64) :
    (putBits x f on n).getLsbD i = if i < n ∧ on i = true then f i else x.getLsbD i := by
  induction n with
  | zero => simp [putBits]
  | succ n ih =>
    have hb : (BitVec.ofNat 64 (2 ^ n)).getLsbD i = decide (i = n) := by
      rw [BitVec.getLsbD_ofNat]
      by_cases h : i = n
      · subst h; simp [show i < 64 by omega]
      · have : Nat.testBit (2 ^ n) i = false := by rw [Nat.testBit_two_pow]; simp; omega
        simp [this, h]
    simp only [putBits]
    have ih := ih (by omega)
    generalize BitVec.ofNat 64 (2 ^ n) = z at hb ⊢
    by_cases ho : on n = true
    · rw [if_pos ho]
      by_cases hi : i = n
      · subst hi
        have hz : z.getLsbD i = true := by simpa using hb
        rw [if_pos (show i < i + 1 ∧ on i = true from ⟨by omega, ho⟩)]
        by_cases hf : f i = true
        · rw [if_pos hf, BitVec.getLsbD_or, hz, hf, Bool.or_true]
        · rw [if_neg hf, BitVec.getLsbD_and, BitVec.getLsbD_not, hz]; simpa using hf
      · have hz : z.getLsbD i = false := by simpa [hi] using hb
        have hi' : (i < n + 1 ∧ on i = true) ↔ (i < n ∧ on i = true) := by constructor <;> rintro ⟨a, b⟩ <;> exact ⟨by omega, b⟩
        rw [if_congr hi' rfl rfl, ← ih]
        by_cases h64 : i < 64
        · by_cases hf : f n = true
          · rw [if_pos hf, BitVec.getLsbD_or, hz, Bool.or_false]
          · rw [if_neg hf, BitVec.getLsbD_and, BitVec.getLsbD_not, hz]; simp [h64]
        · rw [BitVec.getLsbD_of_ge _ _ (by omega), BitVec.getLsbD_of_ge _ _ (by omega)]
    · rw [if_neg ho, ih]
      have hi' : (i < n + 1 ∧ on i = true) ↔ (i < n ∧ on i = true) := by
        constructor
        · rintro ⟨a, b⟩
          refine ⟨?_, b⟩
          rcases Nat.lt_succ_iff_lt_or_eq.mp a with h | h
          · exact h
          · subst h; exact absurd b ho
        · rintro ⟨a, b⟩; exact ⟨by omega, b⟩
      rw [if_congr hi' rfl rfl]
/-- p7 reads 1 in every lane (R49). -/
@[simp] theorem Warp.pred_seven (w : Warp) (l : Nat) : w.pred 7 l = true := rfl
/-- A lane of a predicate after a write of a predicate. -/
theorem Warp.pred_pset (w : Warp) (p q : PReg) (f on : Nat → Bool) (l : Nat) (hl : l < 64) :
    (w.pset p f on).pred q l = if q = p ∧ p ≠ 7 ∧ on l = true then f l else w.pred q l := by
  unfold Warp.pset
  by_cases hp : p = 7
  · simp [hp]
  · simp only [if_neg hp, Warp.pred]
    by_cases hq : q = p
    · subst hq
      simp only [sget_sput_same, getLsbD_putBits _ _ _ _ _ (le_refl 64), hl, true_and]
      have h7 : (q == 7) = false := by simpa using hp
      rw [h7]; simp only [Bool.false_or]
      by_cases ho : on l = true
      · rw [if_pos ho, if_pos ⟨hp, ho⟩]
      · rw [if_neg ho, if_neg (fun h => ho h.2)]
    · have hne : q.toNat ≠ p.toNat := fun e => hq (BitVec.eq_of_toNat_eq e)
      simp [sget_sput_other _ _ _ _ _ hne, hq]
theorem Warp.pset_rest (w : Warp) (p : PReg) (f on : Nat → Bool) : w.pset p f on = { w with p := (w.pset p f on).p } := by
  unfold Warp.pset; split <;> rfl
/-- A write to p7 is discarded (R49). -/
@[simp] theorem Warp.pset_seven (w : Warp) (f on : Nat → Bool) : w.pset 7 f on = w := rfl

end Sys2Proof.Machine
end

