-- ==== Sys2Proof/Laws/State.lean ====
section
/-! SUPPORT. What each update of the state leaves of each field, and what it finds again. -/

set_option Elab.async false

namespace Sys2Proof.Machine

/-! ### setCore -/

@[simp] theorem State.setCore_hubNow (s : State) (k : Nat) (c : Core) : (s.setCore k c).hubNow = s.hubNow := rfl
@[simp] theorem State.setCore_coreNow (s : State) (k : Nat) (c : Core) : (s.setCore k c).coreNow = s.coreNow := rfl
@[simp] theorem State.setCore_mem (s : State) (k : Nat) (c : Core) : (s.setCore k c).mem = s.mem := rfl
@[simp] theorem State.setCore_poison (s : State) (k : Nat) (c : Core) : (s.setCore k c).poison = s.poison := rfl
@[simp] theorem State.setCore_pend (s : State) (k : Nat) (c : Core) : (s.setCore k c).pend = s.pend := rfl
@[simp] theorem State.setCore_stale (s : State) (k : Nat) (c : Core) : (s.setCore k c).stale = s.stale := rfl
@[simp] theorem State.setCore_fills (s : State) (k : Nat) (c : Core) : (s.setCore k c).fills = s.fills := rfl
@[simp] theorem State.setCore_tlb (s : State) (k : Nat) (c : Core) : (s.setCore k c).tlb = s.tlb := rfl
@[simp] theorem State.setCore_beams (s : State) (k : Nat) (c : Core) : (s.setCore k c).beams = s.beams := rfl
@[simp] theorem State.setCore_ctxs (s : State) (k : Nat) (c : Core) : (s.setCore k c).ctxs = s.ctxs := rfl
@[simp] theorem State.setCore_teams (s : State) (k : Nat) (c : Core) : (s.setCore k c).teams = s.teams := rfl
@[simp] theorem State.setCore_grids (s : State) (k : Nat) (c : Core) : (s.setCore k c).grids = s.grids := rfl
@[simp] theorem State.setCore_wins (s : State) (k : Nat) (c : Core) : (s.setCore k c).wins = s.wins := rfl
@[simp] theorem State.setCore_nodes (s : State) (k : Nat) (c : Core) : (s.setCore k c).nodes = s.nodes := rfl
@[simp] theorem State.setCore_reserved (s : State) (k : Nat) (c : Core) : (s.setCore k c).reserved = s.reserved := rfl
@[simp] theorem State.setCore_gather (s : State) (k : Nat) (c : Core) : (s.setCore k c).gather = s.gather := rfl
@[simp] theorem State.setCore_seqs (s : State) (k : Nat) (c : Core) : (s.setCore k c).seqs = s.seqs := rfl
@[simp] theorem State.setCore_log (s : State) (k : Nat) (c : Core) : (s.setCore k c).log = s.log := rfl
@[simp] theorem State.setCore_msi (s : State) (k : Nat) (c : Core) : (s.setCore k c).msi = s.msi := rfl
@[simp] theorem State.setCore_cmd (s : State) (k : Nat) (c : Core) : (s.setCore k c).cmd = s.cmd := rfl
@[simp] theorem State.setCore_fnmode (s : State) (k : Nat) (c : Core) : (s.setCore k c).fnmode = s.fnmode := rfl
@[simp] theorem State.setCore_towers (s : State) (k : Nat) (c : Core) : (s.setCore k c).towers = s.towers := rfl
@[simp] theorem State.setCore_boot (s : State) (k : Nat) (c : Core) : (s.setCore k c).boot = s.boot := rfl
@[simp] theorem State.setCore_ckpt (s : State) (k : Nat) (c : Core) : (s.setCore k c).ckpt = s.ckpt := rfl
@[simp] theorem State.setCore_ports (s : State) (k : Nat) (c : Core) : (s.setCore k c).ports = s.ports := rfl
@[simp] theorem State.setCore_homePages (s : State) (k : Nat) (c : Core) : (s.setCore k c).homePages = s.homePages := rfl
@[simp] theorem State.setCore_peerPages (s : State) (k : Nat) (c : Core) : (s.setCore k c).peerPages = s.peerPages := rfl
@[simp] theorem State.setCore_pageReqs (s : State) (k : Nat) (c : Core) : (s.setCore k c).pageReqs = s.pageReqs := rfl
@[simp] theorem State.setCore_ucPages (s : State) (k : Nat) (c : Core) : (s.setCore k c).ucPages = s.ucPages := rfl
@[simp] theorem State.setCore_counters (s : State) (k : Nat) (c : Core) : (s.setCore k c).counters = s.counters := rfl
@[simp] theorem State.setCore_latched (s : State) (k : Nat) (c : Core) : (s.setCore k c).latched = s.latched := rfl
@[simp] theorem State.setCore_clock (s : State) (k : Nat) (c : Core) : (s.setCore k c).clock = s.clock := rfl
@[simp] theorem State.setCore_hubPhase (s : State) (k : Nat) (c : Core) : (s.setCore k c).hubPhase = s.hubPhase := rfl
@[simp] theorem State.setCore_hostData (s : State) (k : Nat) (c : Core) : (s.setCore k c).hostData = s.hostData := rfl
@[simp] theorem State.setCore_nextId (s : State) (k : Nat) (c : Core) : (s.setCore k c).nextId = s.nextId := rfl
@[simp] theorem State.setCore_stopGrids (s : State) (k : Nat) (c : Core) : (s.setCore k c).stopGrids = s.stopGrids := rfl
@[simp] theorem State.setCore_agenda (s : State) (k : Nat) (c : Core) : (s.setCore k c).agenda = s.agenda := rfl
@[simp] theorem State.setCore_cur (s : State) (k : Nat) (c : Core) : (s.setCore k c).cur = s.cur := rfl
@[simp] theorem State.setCore_view (s : State) (k : Nat) (c : Core) : (s.setCore k c).view = s.view := rfl
@[simp] theorem State.setCore_fresh (s : State) (k : Nat) (c : Core) : (s.setCore k c).fresh = s.fresh := rfl

/-! ### modCore -/

@[simp] theorem State.modCore_hubNow (s : State) (k : Nat) (f : Core → Core) : (s.modCore k f).hubNow = s.hubNow := rfl
@[simp] theorem State.modCore_coreNow (s : State) (k : Nat) (f : Core → Core) : (s.modCore k f).coreNow = s.coreNow := rfl
@[simp] theorem State.modCore_mem (s : State) (k : Nat) (f : Core → Core) : (s.modCore k f).mem = s.mem := rfl
@[simp] theorem State.modCore_poison (s : State) (k : Nat) (f : Core → Core) : (s.modCore k f).poison = s.poison := rfl
@[simp] theorem State.modCore_pend (s : State) (k : Nat) (f : Core → Core) : (s.modCore k f).pend = s.pend := rfl
@[simp] theorem State.modCore_stale (s : State) (k : Nat) (f : Core → Core) : (s.modCore k f).stale = s.stale := rfl
@[simp] theorem State.modCore_fills (s : State) (k : Nat) (f : Core → Core) : (s.modCore k f).fills = s.fills := rfl
@[simp] theorem State.modCore_tlb (s : State) (k : Nat) (f : Core → Core) : (s.modCore k f).tlb = s.tlb := rfl
@[simp] theorem State.modCore_beams (s : State) (k : Nat) (f : Core → Core) : (s.modCore k f).beams = s.beams := rfl
@[simp] theorem State.modCore_ctxs (s : State) (k : Nat) (f : Core → Core) : (s.modCore k f).ctxs = s.ctxs := rfl
@[simp] theorem State.modCore_teams (s : State) (k : Nat) (f : Core → Core) : (s.modCore k f).teams = s.teams := rfl
@[simp] theorem State.modCore_grids (s : State) (k : Nat) (f : Core → Core) : (s.modCore k f).grids = s.grids := rfl
@[simp] theorem State.modCore_wins (s : State) (k : Nat) (f : Core → Core) : (s.modCore k f).wins = s.wins := rfl
@[simp] theorem State.modCore_nodes (s : State) (k : Nat) (f : Core → Core) : (s.modCore k f).nodes = s.nodes := rfl
@[simp] theorem State.modCore_reserved (s : State) (k : Nat) (f : Core → Core) : (s.modCore k f).reserved = s.reserved := rfl
@[simp] theorem State.modCore_gather (s : State) (k : Nat) (f : Core → Core) : (s.modCore k f).gather = s.gather := rfl
@[simp] theorem State.modCore_seqs (s : State) (k : Nat) (f : Core → Core) : (s.modCore k f).seqs = s.seqs := rfl
@[simp] theorem State.modCore_log (s : State) (k : Nat) (f : Core → Core) : (s.modCore k f).log = s.log := rfl
@[simp] theorem State.modCore_msi (s : State) (k : Nat) (f : Core → Core) : (s.modCore k f).msi = s.msi := rfl
@[simp] theorem State.modCore_cmd (s : State) (k : Nat) (f : Core → Core) : (s.modCore k f).cmd = s.cmd := rfl
@[simp] theorem State.modCore_fnmode (s : State) (k : Nat) (f : Core → Core) : (s.modCore k f).fnmode = s.fnmode := rfl
@[simp] theorem State.modCore_towers (s : State) (k : Nat) (f : Core → Core) : (s.modCore k f).towers = s.towers := rfl
@[simp] theorem State.modCore_boot (s : State) (k : Nat) (f : Core → Core) : (s.modCore k f).boot = s.boot := rfl
@[simp] theorem State.modCore_ckpt (s : State) (k : Nat) (f : Core → Core) : (s.modCore k f).ckpt = s.ckpt := rfl
@[simp] theorem State.modCore_ports (s : State) (k : Nat) (f : Core → Core) : (s.modCore k f).ports = s.ports := rfl
@[simp] theorem State.modCore_homePages (s : State) (k : Nat) (f : Core → Core) : (s.modCore k f).homePages = s.homePages := rfl
@[simp] theorem State.modCore_peerPages (s : State) (k : Nat) (f : Core → Core) : (s.modCore k f).peerPages = s.peerPages := rfl
@[simp] theorem State.modCore_pageReqs (s : State) (k : Nat) (f : Core → Core) : (s.modCore k f).pageReqs = s.pageReqs := rfl
@[simp] theorem State.modCore_ucPages (s : State) (k : Nat) (f : Core → Core) : (s.modCore k f).ucPages = s.ucPages := rfl
@[simp] theorem State.modCore_counters (s : State) (k : Nat) (f : Core → Core) : (s.modCore k f).counters = s.counters := rfl
@[simp] theorem State.modCore_latched (s : State) (k : Nat) (f : Core → Core) : (s.modCore k f).latched = s.latched := rfl
@[simp] theorem State.modCore_clock (s : State) (k : Nat) (f : Core → Core) : (s.modCore k f).clock = s.clock := rfl
@[simp] theorem State.modCore_hubPhase (s : State) (k : Nat) (f : Core → Core) : (s.modCore k f).hubPhase = s.hubPhase := rfl
@[simp] theorem State.modCore_hostData (s : State) (k : Nat) (f : Core → Core) : (s.modCore k f).hostData = s.hostData := rfl
@[simp] theorem State.modCore_nextId (s : State) (k : Nat) (f : Core → Core) : (s.modCore k f).nextId = s.nextId := rfl
@[simp] theorem State.modCore_stopGrids (s : State) (k : Nat) (f : Core → Core) : (s.modCore k f).stopGrids = s.stopGrids := rfl
@[simp] theorem State.modCore_agenda (s : State) (k : Nat) (f : Core → Core) : (s.modCore k f).agenda = s.agenda := rfl
@[simp] theorem State.modCore_cur (s : State) (k : Nat) (f : Core → Core) : (s.modCore k f).cur = s.cur := rfl
@[simp] theorem State.modCore_view (s : State) (k : Nat) (f : Core → Core) : (s.modCore k f).view = s.view := rfl
@[simp] theorem State.modCore_fresh (s : State) (k : Nat) (f : Core → Core) : (s.modCore k f).fresh = s.fresh := rfl

/-! ### setWarp -/

@[simp] theorem State.setWarp_hubNow (s : State) (k n : Nat) (w : Warp) : (s.setWarp k n w).hubNow = s.hubNow := rfl
@[simp] theorem State.setWarp_coreNow (s : State) (k n : Nat) (w : Warp) : (s.setWarp k n w).coreNow = s.coreNow := rfl
@[simp] theorem State.setWarp_mem (s : State) (k n : Nat) (w : Warp) : (s.setWarp k n w).mem = s.mem := rfl
@[simp] theorem State.setWarp_poison (s : State) (k n : Nat) (w : Warp) : (s.setWarp k n w).poison = s.poison := rfl
@[simp] theorem State.setWarp_pend (s : State) (k n : Nat) (w : Warp) : (s.setWarp k n w).pend = s.pend := rfl
@[simp] theorem State.setWarp_stale (s : State) (k n : Nat) (w : Warp) : (s.setWarp k n w).stale = s.stale := rfl
@[simp] theorem State.setWarp_fills (s : State) (k n : Nat) (w : Warp) : (s.setWarp k n w).fills = s.fills := rfl
@[simp] theorem State.setWarp_tlb (s : State) (k n : Nat) (w : Warp) : (s.setWarp k n w).tlb = s.tlb := rfl
@[simp] theorem State.setWarp_beams (s : State) (k n : Nat) (w : Warp) : (s.setWarp k n w).beams = s.beams := rfl
@[simp] theorem State.setWarp_ctxs (s : State) (k n : Nat) (w : Warp) : (s.setWarp k n w).ctxs = s.ctxs := rfl
@[simp] theorem State.setWarp_teams (s : State) (k n : Nat) (w : Warp) : (s.setWarp k n w).teams = s.teams := rfl
@[simp] theorem State.setWarp_grids (s : State) (k n : Nat) (w : Warp) : (s.setWarp k n w).grids = s.grids := rfl
@[simp] theorem State.setWarp_wins (s : State) (k n : Nat) (w : Warp) : (s.setWarp k n w).wins = s.wins := rfl
@[simp] theorem State.setWarp_nodes (s : State) (k n : Nat) (w : Warp) : (s.setWarp k n w).nodes = s.nodes := rfl
@[simp] theorem State.setWarp_reserved (s : State) (k n : Nat) (w : Warp) : (s.setWarp k n w).reserved = s.reserved := rfl
@[simp] theorem State.setWarp_gather (s : State) (k n : Nat) (w : Warp) : (s.setWarp k n w).gather = s.gather := rfl
@[simp] theorem State.setWarp_seqs (s : State) (k n : Nat) (w : Warp) : (s.setWarp k n w).seqs = s.seqs := rfl
@[simp] theorem State.setWarp_log (s : State) (k n : Nat) (w : Warp) : (s.setWarp k n w).log = s.log := rfl
@[simp] theorem State.setWarp_msi (s : State) (k n : Nat) (w : Warp) : (s.setWarp k n w).msi = s.msi := rfl
@[simp] theorem State.setWarp_cmd (s : State) (k n : Nat) (w : Warp) : (s.setWarp k n w).cmd = s.cmd := rfl
@[simp] theorem State.setWarp_fnmode (s : State) (k n : Nat) (w : Warp) : (s.setWarp k n w).fnmode = s.fnmode := rfl
@[simp] theorem State.setWarp_towers (s : State) (k n : Nat) (w : Warp) : (s.setWarp k n w).towers = s.towers := rfl
@[simp] theorem State.setWarp_boot (s : State) (k n : Nat) (w : Warp) : (s.setWarp k n w).boot = s.boot := rfl
@[simp] theorem State.setWarp_ckpt (s : State) (k n : Nat) (w : Warp) : (s.setWarp k n w).ckpt = s.ckpt := rfl
@[simp] theorem State.setWarp_ports (s : State) (k n : Nat) (w : Warp) : (s.setWarp k n w).ports = s.ports := rfl
@[simp] theorem State.setWarp_homePages (s : State) (k n : Nat) (w : Warp) : (s.setWarp k n w).homePages = s.homePages := rfl
@[simp] theorem State.setWarp_peerPages (s : State) (k n : Nat) (w : Warp) : (s.setWarp k n w).peerPages = s.peerPages := rfl
@[simp] theorem State.setWarp_pageReqs (s : State) (k n : Nat) (w : Warp) : (s.setWarp k n w).pageReqs = s.pageReqs := rfl
@[simp] theorem State.setWarp_ucPages (s : State) (k n : Nat) (w : Warp) : (s.setWarp k n w).ucPages = s.ucPages := rfl
@[simp] theorem State.setWarp_counters (s : State) (k n : Nat) (w : Warp) : (s.setWarp k n w).counters = s.counters := rfl
@[simp] theorem State.setWarp_latched (s : State) (k n : Nat) (w : Warp) : (s.setWarp k n w).latched = s.latched := rfl
@[simp] theorem State.setWarp_clock (s : State) (k n : Nat) (w : Warp) : (s.setWarp k n w).clock = s.clock := rfl
@[simp] theorem State.setWarp_hubPhase (s : State) (k n : Nat) (w : Warp) : (s.setWarp k n w).hubPhase = s.hubPhase := rfl
@[simp] theorem State.setWarp_hostData (s : State) (k n : Nat) (w : Warp) : (s.setWarp k n w).hostData = s.hostData := rfl
@[simp] theorem State.setWarp_nextId (s : State) (k n : Nat) (w : Warp) : (s.setWarp k n w).nextId = s.nextId := rfl
@[simp] theorem State.setWarp_stopGrids (s : State) (k n : Nat) (w : Warp) : (s.setWarp k n w).stopGrids = s.stopGrids := rfl
@[simp] theorem State.setWarp_agenda (s : State) (k n : Nat) (w : Warp) : (s.setWarp k n w).agenda = s.agenda := rfl
@[simp] theorem State.setWarp_cur (s : State) (k n : Nat) (w : Warp) : (s.setWarp k n w).cur = s.cur := rfl
@[simp] theorem State.setWarp_view (s : State) (k n : Nat) (w : Warp) : (s.setWarp k n w).view = s.view := rfl
@[simp] theorem State.setWarp_fresh (s : State) (k n : Nat) (w : Warp) : (s.setWarp k n w).fresh = s.fresh := rfl

/-! ### modSeq -/

@[simp] theorem State.modSeq_hubNow (s : State) (k : Nat) (f : Seq → Seq) : (s.modSeq k f).hubNow = s.hubNow := rfl
@[simp] theorem State.modSeq_coreNow (s : State) (k : Nat) (f : Seq → Seq) : (s.modSeq k f).coreNow = s.coreNow := rfl
@[simp] theorem State.modSeq_mem (s : State) (k : Nat) (f : Seq → Seq) : (s.modSeq k f).mem = s.mem := rfl
@[simp] theorem State.modSeq_poison (s : State) (k : Nat) (f : Seq → Seq) : (s.modSeq k f).poison = s.poison := rfl
@[simp] theorem State.modSeq_pend (s : State) (k : Nat) (f : Seq → Seq) : (s.modSeq k f).pend = s.pend := rfl
@[simp] theorem State.modSeq_stale (s : State) (k : Nat) (f : Seq → Seq) : (s.modSeq k f).stale = s.stale := rfl
@[simp] theorem State.modSeq_fills (s : State) (k : Nat) (f : Seq → Seq) : (s.modSeq k f).fills = s.fills := rfl
@[simp] theorem State.modSeq_tlb (s : State) (k : Nat) (f : Seq → Seq) : (s.modSeq k f).tlb = s.tlb := rfl
@[simp] theorem State.modSeq_beams (s : State) (k : Nat) (f : Seq → Seq) : (s.modSeq k f).beams = s.beams := rfl
@[simp] theorem State.modSeq_ctxs (s : State) (k : Nat) (f : Seq → Seq) : (s.modSeq k f).ctxs = s.ctxs := rfl
@[simp] theorem State.modSeq_teams (s : State) (k : Nat) (f : Seq → Seq) : (s.modSeq k f).teams = s.teams := rfl
@[simp] theorem State.modSeq_grids (s : State) (k : Nat) (f : Seq → Seq) : (s.modSeq k f).grids = s.grids := rfl
@[simp] theorem State.modSeq_wins (s : State) (k : Nat) (f : Seq → Seq) : (s.modSeq k f).wins = s.wins := rfl
@[simp] theorem State.modSeq_nodes (s : State) (k : Nat) (f : Seq → Seq) : (s.modSeq k f).nodes = s.nodes := rfl
@[simp] theorem State.modSeq_reserved (s : State) (k : Nat) (f : Seq → Seq) : (s.modSeq k f).reserved = s.reserved := rfl
@[simp] theorem State.modSeq_gather (s : State) (k : Nat) (f : Seq → Seq) : (s.modSeq k f).gather = s.gather := rfl
@[simp] theorem State.modSeq_seqs (s : State) (k : Nat) (f : Seq → Seq) : (s.modSeq k f).seqs = s.seqs := rfl
@[simp] theorem State.modSeq_log (s : State) (k : Nat) (f : Seq → Seq) : (s.modSeq k f).log = s.log := rfl
@[simp] theorem State.modSeq_msi (s : State) (k : Nat) (f : Seq → Seq) : (s.modSeq k f).msi = s.msi := rfl
@[simp] theorem State.modSeq_cmd (s : State) (k : Nat) (f : Seq → Seq) : (s.modSeq k f).cmd = s.cmd := rfl
@[simp] theorem State.modSeq_fnmode (s : State) (k : Nat) (f : Seq → Seq) : (s.modSeq k f).fnmode = s.fnmode := rfl
@[simp] theorem State.modSeq_towers (s : State) (k : Nat) (f : Seq → Seq) : (s.modSeq k f).towers = s.towers := rfl
@[simp] theorem State.modSeq_boot (s : State) (k : Nat) (f : Seq → Seq) : (s.modSeq k f).boot = s.boot := rfl
@[simp] theorem State.modSeq_ckpt (s : State) (k : Nat) (f : Seq → Seq) : (s.modSeq k f).ckpt = s.ckpt := rfl
@[simp] theorem State.modSeq_ports (s : State) (k : Nat) (f : Seq → Seq) : (s.modSeq k f).ports = s.ports := rfl
@[simp] theorem State.modSeq_homePages (s : State) (k : Nat) (f : Seq → Seq) : (s.modSeq k f).homePages = s.homePages := rfl
@[simp] theorem State.modSeq_peerPages (s : State) (k : Nat) (f : Seq → Seq) : (s.modSeq k f).peerPages = s.peerPages := rfl
@[simp] theorem State.modSeq_pageReqs (s : State) (k : Nat) (f : Seq → Seq) : (s.modSeq k f).pageReqs = s.pageReqs := rfl
@[simp] theorem State.modSeq_ucPages (s : State) (k : Nat) (f : Seq → Seq) : (s.modSeq k f).ucPages = s.ucPages := rfl
@[simp] theorem State.modSeq_counters (s : State) (k : Nat) (f : Seq → Seq) : (s.modSeq k f).counters = s.counters := rfl
@[simp] theorem State.modSeq_latched (s : State) (k : Nat) (f : Seq → Seq) : (s.modSeq k f).latched = s.latched := rfl
@[simp] theorem State.modSeq_clock (s : State) (k : Nat) (f : Seq → Seq) : (s.modSeq k f).clock = s.clock := rfl
@[simp] theorem State.modSeq_hubPhase (s : State) (k : Nat) (f : Seq → Seq) : (s.modSeq k f).hubPhase = s.hubPhase := rfl
@[simp] theorem State.modSeq_hostData (s : State) (k : Nat) (f : Seq → Seq) : (s.modSeq k f).hostData = s.hostData := rfl
@[simp] theorem State.modSeq_nextId (s : State) (k : Nat) (f : Seq → Seq) : (s.modSeq k f).nextId = s.nextId := rfl
@[simp] theorem State.modSeq_stopGrids (s : State) (k : Nat) (f : Seq → Seq) : (s.modSeq k f).stopGrids = s.stopGrids := rfl
@[simp] theorem State.modSeq_agenda (s : State) (k : Nat) (f : Seq → Seq) : (s.modSeq k f).agenda = s.agenda := rfl
@[simp] theorem State.modSeq_cur (s : State) (k : Nat) (f : Seq → Seq) : (s.modSeq k f).cur = s.cur := rfl
@[simp] theorem State.modSeq_view (s : State) (k : Nat) (f : Seq → Seq) : (s.modSeq k f).view = s.view := rfl
@[simp] theorem State.modSeq_fresh (s : State) (k : Nat) (f : Seq → Seq) : (s.modSeq k f).fresh = s.fresh := rfl

/-! ### modMgn -/

@[simp] theorem State.modMgn_hubNow (s : State) (k : Nat) (f : Margin → Margin) : (s.modMgn k f).hubNow = s.hubNow := rfl
@[simp] theorem State.modMgn_coreNow (s : State) (k : Nat) (f : Margin → Margin) : (s.modMgn k f).coreNow = s.coreNow := rfl
@[simp] theorem State.modMgn_mem (s : State) (k : Nat) (f : Margin → Margin) : (s.modMgn k f).mem = s.mem := rfl
@[simp] theorem State.modMgn_poison (s : State) (k : Nat) (f : Margin → Margin) : (s.modMgn k f).poison = s.poison := rfl
@[simp] theorem State.modMgn_pend (s : State) (k : Nat) (f : Margin → Margin) : (s.modMgn k f).pend = s.pend := rfl
@[simp] theorem State.modMgn_stale (s : State) (k : Nat) (f : Margin → Margin) : (s.modMgn k f).stale = s.stale := rfl
@[simp] theorem State.modMgn_fills (s : State) (k : Nat) (f : Margin → Margin) : (s.modMgn k f).fills = s.fills := rfl
@[simp] theorem State.modMgn_tlb (s : State) (k : Nat) (f : Margin → Margin) : (s.modMgn k f).tlb = s.tlb := rfl
@[simp] theorem State.modMgn_beams (s : State) (k : Nat) (f : Margin → Margin) : (s.modMgn k f).beams = s.beams := rfl
@[simp] theorem State.modMgn_ctxs (s : State) (k : Nat) (f : Margin → Margin) : (s.modMgn k f).ctxs = s.ctxs := rfl
@[simp] theorem State.modMgn_teams (s : State) (k : Nat) (f : Margin → Margin) : (s.modMgn k f).teams = s.teams := rfl
@[simp] theorem State.modMgn_grids (s : State) (k : Nat) (f : Margin → Margin) : (s.modMgn k f).grids = s.grids := rfl
@[simp] theorem State.modMgn_wins (s : State) (k : Nat) (f : Margin → Margin) : (s.modMgn k f).wins = s.wins := rfl
@[simp] theorem State.modMgn_nodes (s : State) (k : Nat) (f : Margin → Margin) : (s.modMgn k f).nodes = s.nodes := rfl
@[simp] theorem State.modMgn_reserved (s : State) (k : Nat) (f : Margin → Margin) : (s.modMgn k f).reserved = s.reserved := rfl
@[simp] theorem State.modMgn_gather (s : State) (k : Nat) (f : Margin → Margin) : (s.modMgn k f).gather = s.gather := rfl
@[simp] theorem State.modMgn_seqs (s : State) (k : Nat) (f : Margin → Margin) : (s.modMgn k f).seqs = s.seqs := rfl
@[simp] theorem State.modMgn_log (s : State) (k : Nat) (f : Margin → Margin) : (s.modMgn k f).log = s.log := rfl
@[simp] theorem State.modMgn_msi (s : State) (k : Nat) (f : Margin → Margin) : (s.modMgn k f).msi = s.msi := rfl
@[simp] theorem State.modMgn_cmd (s : State) (k : Nat) (f : Margin → Margin) : (s.modMgn k f).cmd = s.cmd := rfl
@[simp] theorem State.modMgn_fnmode (s : State) (k : Nat) (f : Margin → Margin) : (s.modMgn k f).fnmode = s.fnmode := rfl
@[simp] theorem State.modMgn_towers (s : State) (k : Nat) (f : Margin → Margin) : (s.modMgn k f).towers = s.towers := rfl
@[simp] theorem State.modMgn_boot (s : State) (k : Nat) (f : Margin → Margin) : (s.modMgn k f).boot = s.boot := rfl
@[simp] theorem State.modMgn_ckpt (s : State) (k : Nat) (f : Margin → Margin) : (s.modMgn k f).ckpt = s.ckpt := rfl
@[simp] theorem State.modMgn_ports (s : State) (k : Nat) (f : Margin → Margin) : (s.modMgn k f).ports = s.ports := rfl
@[simp] theorem State.modMgn_homePages (s : State) (k : Nat) (f : Margin → Margin) : (s.modMgn k f).homePages = s.homePages := rfl
@[simp] theorem State.modMgn_peerPages (s : State) (k : Nat) (f : Margin → Margin) : (s.modMgn k f).peerPages = s.peerPages := rfl
@[simp] theorem State.modMgn_pageReqs (s : State) (k : Nat) (f : Margin → Margin) : (s.modMgn k f).pageReqs = s.pageReqs := rfl
@[simp] theorem State.modMgn_ucPages (s : State) (k : Nat) (f : Margin → Margin) : (s.modMgn k f).ucPages = s.ucPages := rfl
@[simp] theorem State.modMgn_counters (s : State) (k : Nat) (f : Margin → Margin) : (s.modMgn k f).counters = s.counters := rfl
@[simp] theorem State.modMgn_latched (s : State) (k : Nat) (f : Margin → Margin) : (s.modMgn k f).latched = s.latched := rfl
@[simp] theorem State.modMgn_clock (s : State) (k : Nat) (f : Margin → Margin) : (s.modMgn k f).clock = s.clock := rfl
@[simp] theorem State.modMgn_hubPhase (s : State) (k : Nat) (f : Margin → Margin) : (s.modMgn k f).hubPhase = s.hubPhase := rfl
@[simp] theorem State.modMgn_hostData (s : State) (k : Nat) (f : Margin → Margin) : (s.modMgn k f).hostData = s.hostData := rfl
@[simp] theorem State.modMgn_nextId (s : State) (k : Nat) (f : Margin → Margin) : (s.modMgn k f).nextId = s.nextId := rfl
@[simp] theorem State.modMgn_stopGrids (s : State) (k : Nat) (f : Margin → Margin) : (s.modMgn k f).stopGrids = s.stopGrids := rfl
@[simp] theorem State.modMgn_agenda (s : State) (k : Nat) (f : Margin → Margin) : (s.modMgn k f).agenda = s.agenda := rfl
@[simp] theorem State.modMgn_cur (s : State) (k : Nat) (f : Margin → Margin) : (s.modMgn k f).cur = s.cur := rfl
@[simp] theorem State.modMgn_view (s : State) (k : Nat) (f : Margin → Margin) : (s.modMgn k f).view = s.view := rfl
@[simp] theorem State.modMgn_fresh (s : State) (k : Nat) (f : Margin → Margin) : (s.modMgn k f).fresh = s.fresh := rfl

/-! ### modTeam -/

@[simp] theorem State.modTeam_hubNow (s : State) (t : Nat) (f : Team → Team) : (s.modTeam t f).hubNow = s.hubNow := rfl
@[simp] theorem State.modTeam_coreNow (s : State) (t : Nat) (f : Team → Team) : (s.modTeam t f).coreNow = s.coreNow := rfl
@[simp] theorem State.modTeam_mem (s : State) (t : Nat) (f : Team → Team) : (s.modTeam t f).mem = s.mem := rfl
@[simp] theorem State.modTeam_poison (s : State) (t : Nat) (f : Team → Team) : (s.modTeam t f).poison = s.poison := rfl
@[simp] theorem State.modTeam_pend (s : State) (t : Nat) (f : Team → Team) : (s.modTeam t f).pend = s.pend := rfl
@[simp] theorem State.modTeam_stale (s : State) (t : Nat) (f : Team → Team) : (s.modTeam t f).stale = s.stale := rfl
@[simp] theorem State.modTeam_fills (s : State) (t : Nat) (f : Team → Team) : (s.modTeam t f).fills = s.fills := rfl
@[simp] theorem State.modTeam_tlb (s : State) (t : Nat) (f : Team → Team) : (s.modTeam t f).tlb = s.tlb := rfl
@[simp] theorem State.modTeam_beams (s : State) (t : Nat) (f : Team → Team) : (s.modTeam t f).beams = s.beams := rfl
@[simp] theorem State.modTeam_ctxs (s : State) (t : Nat) (f : Team → Team) : (s.modTeam t f).ctxs = s.ctxs := rfl
@[simp] theorem State.modTeam_cores (s : State) (t : Nat) (f : Team → Team) : (s.modTeam t f).cores = s.cores := rfl
@[simp] theorem State.modTeam_grids (s : State) (t : Nat) (f : Team → Team) : (s.modTeam t f).grids = s.grids := rfl
@[simp] theorem State.modTeam_wins (s : State) (t : Nat) (f : Team → Team) : (s.modTeam t f).wins = s.wins := rfl
@[simp] theorem State.modTeam_nodes (s : State) (t : Nat) (f : Team → Team) : (s.modTeam t f).nodes = s.nodes := rfl
@[simp] theorem State.modTeam_reserved (s : State) (t : Nat) (f : Team → Team) : (s.modTeam t f).reserved = s.reserved := rfl
@[simp] theorem State.modTeam_gather (s : State) (t : Nat) (f : Team → Team) : (s.modTeam t f).gather = s.gather := rfl
@[simp] theorem State.modTeam_seqs (s : State) (t : Nat) (f : Team → Team) : (s.modTeam t f).seqs = s.seqs := rfl
@[simp] theorem State.modTeam_log (s : State) (t : Nat) (f : Team → Team) : (s.modTeam t f).log = s.log := rfl
@[simp] theorem State.modTeam_msi (s : State) (t : Nat) (f : Team → Team) : (s.modTeam t f).msi = s.msi := rfl
@[simp] theorem State.modTeam_cmd (s : State) (t : Nat) (f : Team → Team) : (s.modTeam t f).cmd = s.cmd := rfl
@[simp] theorem State.modTeam_fnmode (s : State) (t : Nat) (f : Team → Team) : (s.modTeam t f).fnmode = s.fnmode := rfl
@[simp] theorem State.modTeam_towers (s : State) (t : Nat) (f : Team → Team) : (s.modTeam t f).towers = s.towers := rfl
@[simp] theorem State.modTeam_boot (s : State) (t : Nat) (f : Team → Team) : (s.modTeam t f).boot = s.boot := rfl
@[simp] theorem State.modTeam_ckpt (s : State) (t : Nat) (f : Team → Team) : (s.modTeam t f).ckpt = s.ckpt := rfl
@[simp] theorem State.modTeam_ports (s : State) (t : Nat) (f : Team → Team) : (s.modTeam t f).ports = s.ports := rfl
@[simp] theorem State.modTeam_homePages (s : State) (t : Nat) (f : Team → Team) : (s.modTeam t f).homePages = s.homePages := rfl
@[simp] theorem State.modTeam_peerPages (s : State) (t : Nat) (f : Team → Team) : (s.modTeam t f).peerPages = s.peerPages := rfl
@[simp] theorem State.modTeam_pageReqs (s : State) (t : Nat) (f : Team → Team) : (s.modTeam t f).pageReqs = s.pageReqs := rfl
@[simp] theorem State.modTeam_ucPages (s : State) (t : Nat) (f : Team → Team) : (s.modTeam t f).ucPages = s.ucPages := rfl
@[simp] theorem State.modTeam_counters (s : State) (t : Nat) (f : Team → Team) : (s.modTeam t f).counters = s.counters := rfl
@[simp] theorem State.modTeam_latched (s : State) (t : Nat) (f : Team → Team) : (s.modTeam t f).latched = s.latched := rfl
@[simp] theorem State.modTeam_clock (s : State) (t : Nat) (f : Team → Team) : (s.modTeam t f).clock = s.clock := rfl
@[simp] theorem State.modTeam_hubPhase (s : State) (t : Nat) (f : Team → Team) : (s.modTeam t f).hubPhase = s.hubPhase := rfl
@[simp] theorem State.modTeam_hostData (s : State) (t : Nat) (f : Team → Team) : (s.modTeam t f).hostData = s.hostData := rfl
@[simp] theorem State.modTeam_nextId (s : State) (t : Nat) (f : Team → Team) : (s.modTeam t f).nextId = s.nextId := rfl
@[simp] theorem State.modTeam_stopGrids (s : State) (t : Nat) (f : Team → Team) : (s.modTeam t f).stopGrids = s.stopGrids := rfl
@[simp] theorem State.modTeam_agenda (s : State) (t : Nat) (f : Team → Team) : (s.modTeam t f).agenda = s.agenda := rfl
@[simp] theorem State.modTeam_cur (s : State) (t : Nat) (f : Team → Team) : (s.modTeam t f).cur = s.cur := rfl
@[simp] theorem State.modTeam_view (s : State) (t : Nat) (f : Team → Team) : (s.modTeam t f).view = s.view := rfl
@[simp] theorem State.modTeam_fresh (s : State) (t : Nat) (f : Team → Team) : (s.modTeam t f).fresh = s.fresh := rfl

/-! ### modGrid -/

@[simp] theorem State.modGrid_hubNow (s : State) (g : Nat) (f : Grid → Grid) : (s.modGrid g f).hubNow = s.hubNow := rfl
@[simp] theorem State.modGrid_coreNow (s : State) (g : Nat) (f : Grid → Grid) : (s.modGrid g f).coreNow = s.coreNow := rfl
@[simp] theorem State.modGrid_mem (s : State) (g : Nat) (f : Grid → Grid) : (s.modGrid g f).mem = s.mem := rfl
@[simp] theorem State.modGrid_poison (s : State) (g : Nat) (f : Grid → Grid) : (s.modGrid g f).poison = s.poison := rfl
@[simp] theorem State.modGrid_pend (s : State) (g : Nat) (f : Grid → Grid) : (s.modGrid g f).pend = s.pend := rfl
@[simp] theorem State.modGrid_stale (s : State) (g : Nat) (f : Grid → Grid) : (s.modGrid g f).stale = s.stale := rfl
@[simp] theorem State.modGrid_fills (s : State) (g : Nat) (f : Grid → Grid) : (s.modGrid g f).fills = s.fills := rfl
@[simp] theorem State.modGrid_tlb (s : State) (g : Nat) (f : Grid → Grid) : (s.modGrid g f).tlb = s.tlb := rfl
@[simp] theorem State.modGrid_beams (s : State) (g : Nat) (f : Grid → Grid) : (s.modGrid g f).beams = s.beams := rfl
@[simp] theorem State.modGrid_ctxs (s : State) (g : Nat) (f : Grid → Grid) : (s.modGrid g f).ctxs = s.ctxs := rfl
@[simp] theorem State.modGrid_cores (s : State) (g : Nat) (f : Grid → Grid) : (s.modGrid g f).cores = s.cores := rfl
@[simp] theorem State.modGrid_teams (s : State) (g : Nat) (f : Grid → Grid) : (s.modGrid g f).teams = s.teams := rfl
@[simp] theorem State.modGrid_wins (s : State) (g : Nat) (f : Grid → Grid) : (s.modGrid g f).wins = s.wins := rfl
@[simp] theorem State.modGrid_nodes (s : State) (g : Nat) (f : Grid → Grid) : (s.modGrid g f).nodes = s.nodes := rfl
@[simp] theorem State.modGrid_reserved (s : State) (g : Nat) (f : Grid → Grid) : (s.modGrid g f).reserved = s.reserved := rfl
@[simp] theorem State.modGrid_gather (s : State) (g : Nat) (f : Grid → Grid) : (s.modGrid g f).gather = s.gather := rfl
@[simp] theorem State.modGrid_seqs (s : State) (g : Nat) (f : Grid → Grid) : (s.modGrid g f).seqs = s.seqs := rfl
@[simp] theorem State.modGrid_log (s : State) (g : Nat) (f : Grid → Grid) : (s.modGrid g f).log = s.log := rfl
@[simp] theorem State.modGrid_msi (s : State) (g : Nat) (f : Grid → Grid) : (s.modGrid g f).msi = s.msi := rfl
@[simp] theorem State.modGrid_cmd (s : State) (g : Nat) (f : Grid → Grid) : (s.modGrid g f).cmd = s.cmd := rfl
@[simp] theorem State.modGrid_fnmode (s : State) (g : Nat) (f : Grid → Grid) : (s.modGrid g f).fnmode = s.fnmode := rfl
@[simp] theorem State.modGrid_towers (s : State) (g : Nat) (f : Grid → Grid) : (s.modGrid g f).towers = s.towers := rfl
@[simp] theorem State.modGrid_boot (s : State) (g : Nat) (f : Grid → Grid) : (s.modGrid g f).boot = s.boot := rfl
@[simp] theorem State.modGrid_ckpt (s : State) (g : Nat) (f : Grid → Grid) : (s.modGrid g f).ckpt = s.ckpt := rfl
@[simp] theorem State.modGrid_ports (s : State) (g : Nat) (f : Grid → Grid) : (s.modGrid g f).ports = s.ports := rfl
@[simp] theorem State.modGrid_homePages (s : State) (g : Nat) (f : Grid → Grid) : (s.modGrid g f).homePages = s.homePages := rfl
@[simp] theorem State.modGrid_peerPages (s : State) (g : Nat) (f : Grid → Grid) : (s.modGrid g f).peerPages = s.peerPages := rfl
@[simp] theorem State.modGrid_pageReqs (s : State) (g : Nat) (f : Grid → Grid) : (s.modGrid g f).pageReqs = s.pageReqs := rfl
@[simp] theorem State.modGrid_ucPages (s : State) (g : Nat) (f : Grid → Grid) : (s.modGrid g f).ucPages = s.ucPages := rfl
@[simp] theorem State.modGrid_counters (s : State) (g : Nat) (f : Grid → Grid) : (s.modGrid g f).counters = s.counters := rfl
@[simp] theorem State.modGrid_latched (s : State) (g : Nat) (f : Grid → Grid) : (s.modGrid g f).latched = s.latched := rfl
@[simp] theorem State.modGrid_clock (s : State) (g : Nat) (f : Grid → Grid) : (s.modGrid g f).clock = s.clock := rfl
@[simp] theorem State.modGrid_hubPhase (s : State) (g : Nat) (f : Grid → Grid) : (s.modGrid g f).hubPhase = s.hubPhase := rfl
@[simp] theorem State.modGrid_hostData (s : State) (g : Nat) (f : Grid → Grid) : (s.modGrid g f).hostData = s.hostData := rfl
@[simp] theorem State.modGrid_nextId (s : State) (g : Nat) (f : Grid → Grid) : (s.modGrid g f).nextId = s.nextId := rfl
@[simp] theorem State.modGrid_stopGrids (s : State) (g : Nat) (f : Grid → Grid) : (s.modGrid g f).stopGrids = s.stopGrids := rfl
@[simp] theorem State.modGrid_agenda (s : State) (g : Nat) (f : Grid → Grid) : (s.modGrid g f).agenda = s.agenda := rfl
@[simp] theorem State.modGrid_cur (s : State) (g : Nat) (f : Grid → Grid) : (s.modGrid g f).cur = s.cur := rfl
@[simp] theorem State.modGrid_view (s : State) (g : Nat) (f : Grid → Grid) : (s.modGrid g f).view = s.view := rfl
@[simp] theorem State.modGrid_fresh (s : State) (g : Nat) (f : Grid → Grid) : (s.modGrid g f).fresh = s.fresh := rfl

/-! ### modWindow -/

@[simp] theorem State.modWindow_hubNow (s : State) (n : Nat) (f : Window → Window) : (s.modWindow n f).hubNow = s.hubNow := rfl
@[simp] theorem State.modWindow_coreNow (s : State) (n : Nat) (f : Window → Window) : (s.modWindow n f).coreNow = s.coreNow := rfl
@[simp] theorem State.modWindow_mem (s : State) (n : Nat) (f : Window → Window) : (s.modWindow n f).mem = s.mem := rfl
@[simp] theorem State.modWindow_poison (s : State) (n : Nat) (f : Window → Window) : (s.modWindow n f).poison = s.poison := rfl
@[simp] theorem State.modWindow_pend (s : State) (n : Nat) (f : Window → Window) : (s.modWindow n f).pend = s.pend := rfl
@[simp] theorem State.modWindow_stale (s : State) (n : Nat) (f : Window → Window) : (s.modWindow n f).stale = s.stale := rfl
@[simp] theorem State.modWindow_fills (s : State) (n : Nat) (f : Window → Window) : (s.modWindow n f).fills = s.fills := rfl
@[simp] theorem State.modWindow_tlb (s : State) (n : Nat) (f : Window → Window) : (s.modWindow n f).tlb = s.tlb := rfl
@[simp] theorem State.modWindow_beams (s : State) (n : Nat) (f : Window → Window) : (s.modWindow n f).beams = s.beams := rfl
@[simp] theorem State.modWindow_ctxs (s : State) (n : Nat) (f : Window → Window) : (s.modWindow n f).ctxs = s.ctxs := rfl
@[simp] theorem State.modWindow_cores (s : State) (n : Nat) (f : Window → Window) : (s.modWindow n f).cores = s.cores := rfl
@[simp] theorem State.modWindow_teams (s : State) (n : Nat) (f : Window → Window) : (s.modWindow n f).teams = s.teams := rfl
@[simp] theorem State.modWindow_grids (s : State) (n : Nat) (f : Window → Window) : (s.modWindow n f).grids = s.grids := rfl
@[simp] theorem State.modWindow_nodes (s : State) (n : Nat) (f : Window → Window) : (s.modWindow n f).nodes = s.nodes := rfl
@[simp] theorem State.modWindow_reserved (s : State) (n : Nat) (f : Window → Window) : (s.modWindow n f).reserved = s.reserved := rfl
@[simp] theorem State.modWindow_gather (s : State) (n : Nat) (f : Window → Window) : (s.modWindow n f).gather = s.gather := rfl
@[simp] theorem State.modWindow_seqs (s : State) (n : Nat) (f : Window → Window) : (s.modWindow n f).seqs = s.seqs := rfl
@[simp] theorem State.modWindow_log (s : State) (n : Nat) (f : Window → Window) : (s.modWindow n f).log = s.log := rfl
@[simp] theorem State.modWindow_msi (s : State) (n : Nat) (f : Window → Window) : (s.modWindow n f).msi = s.msi := rfl
@[simp] theorem State.modWindow_cmd (s : State) (n : Nat) (f : Window → Window) : (s.modWindow n f).cmd = s.cmd := rfl
@[simp] theorem State.modWindow_fnmode (s : State) (n : Nat) (f : Window → Window) : (s.modWindow n f).fnmode = s.fnmode := rfl
@[simp] theorem State.modWindow_towers (s : State) (n : Nat) (f : Window → Window) : (s.modWindow n f).towers = s.towers := rfl
@[simp] theorem State.modWindow_boot (s : State) (n : Nat) (f : Window → Window) : (s.modWindow n f).boot = s.boot := rfl
@[simp] theorem State.modWindow_ckpt (s : State) (n : Nat) (f : Window → Window) : (s.modWindow n f).ckpt = s.ckpt := rfl
@[simp] theorem State.modWindow_ports (s : State) (n : Nat) (f : Window → Window) : (s.modWindow n f).ports = s.ports := rfl
@[simp] theorem State.modWindow_homePages (s : State) (n : Nat) (f : Window → Window) : (s.modWindow n f).homePages = s.homePages := rfl
@[simp] theorem State.modWindow_peerPages (s : State) (n : Nat) (f : Window → Window) : (s.modWindow n f).peerPages = s.peerPages := rfl
@[simp] theorem State.modWindow_pageReqs (s : State) (n : Nat) (f : Window → Window) : (s.modWindow n f).pageReqs = s.pageReqs := rfl
@[simp] theorem State.modWindow_ucPages (s : State) (n : Nat) (f : Window → Window) : (s.modWindow n f).ucPages = s.ucPages := rfl
@[simp] theorem State.modWindow_counters (s : State) (n : Nat) (f : Window → Window) : (s.modWindow n f).counters = s.counters := rfl
@[simp] theorem State.modWindow_latched (s : State) (n : Nat) (f : Window → Window) : (s.modWindow n f).latched = s.latched := rfl
@[simp] theorem State.modWindow_clock (s : State) (n : Nat) (f : Window → Window) : (s.modWindow n f).clock = s.clock := rfl
@[simp] theorem State.modWindow_hubPhase (s : State) (n : Nat) (f : Window → Window) : (s.modWindow n f).hubPhase = s.hubPhase := rfl
@[simp] theorem State.modWindow_hostData (s : State) (n : Nat) (f : Window → Window) : (s.modWindow n f).hostData = s.hostData := rfl
@[simp] theorem State.modWindow_nextId (s : State) (n : Nat) (f : Window → Window) : (s.modWindow n f).nextId = s.nextId := rfl
@[simp] theorem State.modWindow_stopGrids (s : State) (n : Nat) (f : Window → Window) : (s.modWindow n f).stopGrids = s.stopGrids := rfl
@[simp] theorem State.modWindow_agenda (s : State) (n : Nat) (f : Window → Window) : (s.modWindow n f).agenda = s.agenda := rfl
@[simp] theorem State.modWindow_cur (s : State) (n : Nat) (f : Window → Window) : (s.modWindow n f).cur = s.cur := rfl
@[simp] theorem State.modWindow_view (s : State) (n : Nat) (f : Window → Window) : (s.modWindow n f).view = s.view := rfl
@[simp] theorem State.modWindow_fresh (s : State) (n : Nat) (f : Window → Window) : (s.modWindow n f).fresh = s.fresh := rfl

/-! ### modCtx -/

@[simp] theorem State.modCtx_hubNow (s : State) (c : Nat) (f : Context → Context) : (s.modCtx c f).hubNow = s.hubNow := rfl
@[simp] theorem State.modCtx_coreNow (s : State) (c : Nat) (f : Context → Context) : (s.modCtx c f).coreNow = s.coreNow := rfl
@[simp] theorem State.modCtx_mem (s : State) (c : Nat) (f : Context → Context) : (s.modCtx c f).mem = s.mem := rfl
@[simp] theorem State.modCtx_poison (s : State) (c : Nat) (f : Context → Context) : (s.modCtx c f).poison = s.poison := rfl
@[simp] theorem State.modCtx_pend (s : State) (c : Nat) (f : Context → Context) : (s.modCtx c f).pend = s.pend := rfl
@[simp] theorem State.modCtx_stale (s : State) (c : Nat) (f : Context → Context) : (s.modCtx c f).stale = s.stale := rfl
@[simp] theorem State.modCtx_fills (s : State) (c : Nat) (f : Context → Context) : (s.modCtx c f).fills = s.fills := rfl
@[simp] theorem State.modCtx_tlb (s : State) (c : Nat) (f : Context → Context) : (s.modCtx c f).tlb = s.tlb := rfl
@[simp] theorem State.modCtx_beams (s : State) (c : Nat) (f : Context → Context) : (s.modCtx c f).beams = s.beams := rfl
@[simp] theorem State.modCtx_cores (s : State) (c : Nat) (f : Context → Context) : (s.modCtx c f).cores = s.cores := rfl
@[simp] theorem State.modCtx_teams (s : State) (c : Nat) (f : Context → Context) : (s.modCtx c f).teams = s.teams := rfl
@[simp] theorem State.modCtx_grids (s : State) (c : Nat) (f : Context → Context) : (s.modCtx c f).grids = s.grids := rfl
@[simp] theorem State.modCtx_wins (s : State) (c : Nat) (f : Context → Context) : (s.modCtx c f).wins = s.wins := rfl
@[simp] theorem State.modCtx_nodes (s : State) (c : Nat) (f : Context → Context) : (s.modCtx c f).nodes = s.nodes := rfl
@[simp] theorem State.modCtx_reserved (s : State) (c : Nat) (f : Context → Context) : (s.modCtx c f).reserved = s.reserved := rfl
@[simp] theorem State.modCtx_gather (s : State) (c : Nat) (f : Context → Context) : (s.modCtx c f).gather = s.gather := rfl
@[simp] theorem State.modCtx_seqs (s : State) (c : Nat) (f : Context → Context) : (s.modCtx c f).seqs = s.seqs := rfl
@[simp] theorem State.modCtx_log (s : State) (c : Nat) (f : Context → Context) : (s.modCtx c f).log = s.log := rfl
@[simp] theorem State.modCtx_msi (s : State) (c : Nat) (f : Context → Context) : (s.modCtx c f).msi = s.msi := rfl
@[simp] theorem State.modCtx_cmd (s : State) (c : Nat) (f : Context → Context) : (s.modCtx c f).cmd = s.cmd := rfl
@[simp] theorem State.modCtx_fnmode (s : State) (c : Nat) (f : Context → Context) : (s.modCtx c f).fnmode = s.fnmode := rfl
@[simp] theorem State.modCtx_towers (s : State) (c : Nat) (f : Context → Context) : (s.modCtx c f).towers = s.towers := rfl
@[simp] theorem State.modCtx_boot (s : State) (c : Nat) (f : Context → Context) : (s.modCtx c f).boot = s.boot := rfl
@[simp] theorem State.modCtx_ckpt (s : State) (c : Nat) (f : Context → Context) : (s.modCtx c f).ckpt = s.ckpt := rfl
@[simp] theorem State.modCtx_ports (s : State) (c : Nat) (f : Context → Context) : (s.modCtx c f).ports = s.ports := rfl
@[simp] theorem State.modCtx_homePages (s : State) (c : Nat) (f : Context → Context) : (s.modCtx c f).homePages = s.homePages := rfl
@[simp] theorem State.modCtx_peerPages (s : State) (c : Nat) (f : Context → Context) : (s.modCtx c f).peerPages = s.peerPages := rfl
@[simp] theorem State.modCtx_pageReqs (s : State) (c : Nat) (f : Context → Context) : (s.modCtx c f).pageReqs = s.pageReqs := rfl
@[simp] theorem State.modCtx_ucPages (s : State) (c : Nat) (f : Context → Context) : (s.modCtx c f).ucPages = s.ucPages := rfl
@[simp] theorem State.modCtx_counters (s : State) (c : Nat) (f : Context → Context) : (s.modCtx c f).counters = s.counters := rfl
@[simp] theorem State.modCtx_latched (s : State) (c : Nat) (f : Context → Context) : (s.modCtx c f).latched = s.latched := rfl
@[simp] theorem State.modCtx_clock (s : State) (c : Nat) (f : Context → Context) : (s.modCtx c f).clock = s.clock := rfl
@[simp] theorem State.modCtx_hubPhase (s : State) (c : Nat) (f : Context → Context) : (s.modCtx c f).hubPhase = s.hubPhase := rfl
@[simp] theorem State.modCtx_hostData (s : State) (c : Nat) (f : Context → Context) : (s.modCtx c f).hostData = s.hostData := rfl
@[simp] theorem State.modCtx_nextId (s : State) (c : Nat) (f : Context → Context) : (s.modCtx c f).nextId = s.nextId := rfl
@[simp] theorem State.modCtx_stopGrids (s : State) (c : Nat) (f : Context → Context) : (s.modCtx c f).stopGrids = s.stopGrids := rfl
@[simp] theorem State.modCtx_agenda (s : State) (c : Nat) (f : Context → Context) : (s.modCtx c f).agenda = s.agenda := rfl
@[simp] theorem State.modCtx_cur (s : State) (c : Nat) (f : Context → Context) : (s.modCtx c f).cur = s.cur := rfl
@[simp] theorem State.modCtx_view (s : State) (c : Nat) (f : Context → Context) : (s.modCtx c f).view = s.view := rfl
@[simp] theorem State.modCtx_fresh (s : State) (c : Nat) (f : Context → Context) : (s.modCtx c f).fresh = s.fresh := rfl

/-! ### modTower -/

@[simp] theorem State.modTower_hubNow (s : State) (t : Nat) (f : Tower → Tower) : (s.modTower t f).hubNow = s.hubNow := rfl
@[simp] theorem State.modTower_coreNow (s : State) (t : Nat) (f : Tower → Tower) : (s.modTower t f).coreNow = s.coreNow := rfl
@[simp] theorem State.modTower_mem (s : State) (t : Nat) (f : Tower → Tower) : (s.modTower t f).mem = s.mem := rfl
@[simp] theorem State.modTower_poison (s : State) (t : Nat) (f : Tower → Tower) : (s.modTower t f).poison = s.poison := rfl
@[simp] theorem State.modTower_pend (s : State) (t : Nat) (f : Tower → Tower) : (s.modTower t f).pend = s.pend := rfl
@[simp] theorem State.modTower_stale (s : State) (t : Nat) (f : Tower → Tower) : (s.modTower t f).stale = s.stale := rfl
@[simp] theorem State.modTower_fills (s : State) (t : Nat) (f : Tower → Tower) : (s.modTower t f).fills = s.fills := rfl
@[simp] theorem State.modTower_tlb (s : State) (t : Nat) (f : Tower → Tower) : (s.modTower t f).tlb = s.tlb := rfl
@[simp] theorem State.modTower_beams (s : State) (t : Nat) (f : Tower → Tower) : (s.modTower t f).beams = s.beams := rfl
@[simp] theorem State.modTower_ctxs (s : State) (t : Nat) (f : Tower → Tower) : (s.modTower t f).ctxs = s.ctxs := rfl
@[simp] theorem State.modTower_cores (s : State) (t : Nat) (f : Tower → Tower) : (s.modTower t f).cores = s.cores := rfl
@[simp] theorem State.modTower_teams (s : State) (t : Nat) (f : Tower → Tower) : (s.modTower t f).teams = s.teams := rfl
@[simp] theorem State.modTower_grids (s : State) (t : Nat) (f : Tower → Tower) : (s.modTower t f).grids = s.grids := rfl
@[simp] theorem State.modTower_wins (s : State) (t : Nat) (f : Tower → Tower) : (s.modTower t f).wins = s.wins := rfl
@[simp] theorem State.modTower_nodes (s : State) (t : Nat) (f : Tower → Tower) : (s.modTower t f).nodes = s.nodes := rfl
@[simp] theorem State.modTower_reserved (s : State) (t : Nat) (f : Tower → Tower) : (s.modTower t f).reserved = s.reserved := rfl
@[simp] theorem State.modTower_gather (s : State) (t : Nat) (f : Tower → Tower) : (s.modTower t f).gather = s.gather := rfl
@[simp] theorem State.modTower_seqs (s : State) (t : Nat) (f : Tower → Tower) : (s.modTower t f).seqs = s.seqs := rfl
@[simp] theorem State.modTower_log (s : State) (t : Nat) (f : Tower → Tower) : (s.modTower t f).log = s.log := rfl
@[simp] theorem State.modTower_msi (s : State) (t : Nat) (f : Tower → Tower) : (s.modTower t f).msi = s.msi := rfl
@[simp] theorem State.modTower_cmd (s : State) (t : Nat) (f : Tower → Tower) : (s.modTower t f).cmd = s.cmd := rfl
@[simp] theorem State.modTower_fnmode (s : State) (t : Nat) (f : Tower → Tower) : (s.modTower t f).fnmode = s.fnmode := rfl
@[simp] theorem State.modTower_boot (s : State) (t : Nat) (f : Tower → Tower) : (s.modTower t f).boot = s.boot := rfl
@[simp] theorem State.modTower_ckpt (s : State) (t : Nat) (f : Tower → Tower) : (s.modTower t f).ckpt = s.ckpt := rfl
@[simp] theorem State.modTower_ports (s : State) (t : Nat) (f : Tower → Tower) : (s.modTower t f).ports = s.ports := rfl
@[simp] theorem State.modTower_homePages (s : State) (t : Nat) (f : Tower → Tower) : (s.modTower t f).homePages = s.homePages := rfl
@[simp] theorem State.modTower_peerPages (s : State) (t : Nat) (f : Tower → Tower) : (s.modTower t f).peerPages = s.peerPages := rfl
@[simp] theorem State.modTower_pageReqs (s : State) (t : Nat) (f : Tower → Tower) : (s.modTower t f).pageReqs = s.pageReqs := rfl
@[simp] theorem State.modTower_ucPages (s : State) (t : Nat) (f : Tower → Tower) : (s.modTower t f).ucPages = s.ucPages := rfl
@[simp] theorem State.modTower_counters (s : State) (t : Nat) (f : Tower → Tower) : (s.modTower t f).counters = s.counters := rfl
@[simp] theorem State.modTower_latched (s : State) (t : Nat) (f : Tower → Tower) : (s.modTower t f).latched = s.latched := rfl
@[simp] theorem State.modTower_clock (s : State) (t : Nat) (f : Tower → Tower) : (s.modTower t f).clock = s.clock := rfl
@[simp] theorem State.modTower_hubPhase (s : State) (t : Nat) (f : Tower → Tower) : (s.modTower t f).hubPhase = s.hubPhase := rfl
@[simp] theorem State.modTower_hostData (s : State) (t : Nat) (f : Tower → Tower) : (s.modTower t f).hostData = s.hostData := rfl
@[simp] theorem State.modTower_nextId (s : State) (t : Nat) (f : Tower → Tower) : (s.modTower t f).nextId = s.nextId := rfl
@[simp] theorem State.modTower_stopGrids (s : State) (t : Nat) (f : Tower → Tower) : (s.modTower t f).stopGrids = s.stopGrids := rfl
@[simp] theorem State.modTower_agenda (s : State) (t : Nat) (f : Tower → Tower) : (s.modTower t f).agenda = s.agenda := rfl
@[simp] theorem State.modTower_cur (s : State) (t : Nat) (f : Tower → Tower) : (s.modTower t f).cur = s.cur := rfl
@[simp] theorem State.modTower_view (s : State) (t : Nat) (f : Tower → Tower) : (s.modTower t f).view = s.view := rfl
@[simp] theorem State.modTower_fresh (s : State) (t : Nat) (f : Tower → Tower) : (s.modTower t f).fresh = s.fresh := rfl

/-! ### modPort -/

@[simp] theorem State.modPort_hubNow (s : State) (k : Nat) (f : Port → Port) : (s.modPort k f).hubNow = s.hubNow := rfl
@[simp] theorem State.modPort_coreNow (s : State) (k : Nat) (f : Port → Port) : (s.modPort k f).coreNow = s.coreNow := rfl
@[simp] theorem State.modPort_mem (s : State) (k : Nat) (f : Port → Port) : (s.modPort k f).mem = s.mem := rfl
@[simp] theorem State.modPort_poison (s : State) (k : Nat) (f : Port → Port) : (s.modPort k f).poison = s.poison := rfl
@[simp] theorem State.modPort_pend (s : State) (k : Nat) (f : Port → Port) : (s.modPort k f).pend = s.pend := rfl
@[simp] theorem State.modPort_stale (s : State) (k : Nat) (f : Port → Port) : (s.modPort k f).stale = s.stale := rfl
@[simp] theorem State.modPort_fills (s : State) (k : Nat) (f : Port → Port) : (s.modPort k f).fills = s.fills := rfl
@[simp] theorem State.modPort_tlb (s : State) (k : Nat) (f : Port → Port) : (s.modPort k f).tlb = s.tlb := rfl
@[simp] theorem State.modPort_beams (s : State) (k : Nat) (f : Port → Port) : (s.modPort k f).beams = s.beams := rfl
@[simp] theorem State.modPort_ctxs (s : State) (k : Nat) (f : Port → Port) : (s.modPort k f).ctxs = s.ctxs := rfl
@[simp] theorem State.modPort_cores (s : State) (k : Nat) (f : Port → Port) : (s.modPort k f).cores = s.cores := rfl
@[simp] theorem State.modPort_teams (s : State) (k : Nat) (f : Port → Port) : (s.modPort k f).teams = s.teams := rfl
@[simp] theorem State.modPort_grids (s : State) (k : Nat) (f : Port → Port) : (s.modPort k f).grids = s.grids := rfl
@[simp] theorem State.modPort_wins (s : State) (k : Nat) (f : Port → Port) : (s.modPort k f).wins = s.wins := rfl
@[simp] theorem State.modPort_nodes (s : State) (k : Nat) (f : Port → Port) : (s.modPort k f).nodes = s.nodes := rfl
@[simp] theorem State.modPort_reserved (s : State) (k : Nat) (f : Port → Port) : (s.modPort k f).reserved = s.reserved := rfl
@[simp] theorem State.modPort_gather (s : State) (k : Nat) (f : Port → Port) : (s.modPort k f).gather = s.gather := rfl
@[simp] theorem State.modPort_seqs (s : State) (k : Nat) (f : Port → Port) : (s.modPort k f).seqs = s.seqs := rfl
@[simp] theorem State.modPort_log (s : State) (k : Nat) (f : Port → Port) : (s.modPort k f).log = s.log := rfl
@[simp] theorem State.modPort_msi (s : State) (k : Nat) (f : Port → Port) : (s.modPort k f).msi = s.msi := rfl
@[simp] theorem State.modPort_cmd (s : State) (k : Nat) (f : Port → Port) : (s.modPort k f).cmd = s.cmd := rfl
@[simp] theorem State.modPort_fnmode (s : State) (k : Nat) (f : Port → Port) : (s.modPort k f).fnmode = s.fnmode := rfl
@[simp] theorem State.modPort_towers (s : State) (k : Nat) (f : Port → Port) : (s.modPort k f).towers = s.towers := rfl
@[simp] theorem State.modPort_boot (s : State) (k : Nat) (f : Port → Port) : (s.modPort k f).boot = s.boot := rfl
@[simp] theorem State.modPort_ckpt (s : State) (k : Nat) (f : Port → Port) : (s.modPort k f).ckpt = s.ckpt := rfl
@[simp] theorem State.modPort_homePages (s : State) (k : Nat) (f : Port → Port) : (s.modPort k f).homePages = s.homePages := rfl
@[simp] theorem State.modPort_peerPages (s : State) (k : Nat) (f : Port → Port) : (s.modPort k f).peerPages = s.peerPages := rfl
@[simp] theorem State.modPort_pageReqs (s : State) (k : Nat) (f : Port → Port) : (s.modPort k f).pageReqs = s.pageReqs := rfl
@[simp] theorem State.modPort_ucPages (s : State) (k : Nat) (f : Port → Port) : (s.modPort k f).ucPages = s.ucPages := rfl
@[simp] theorem State.modPort_counters (s : State) (k : Nat) (f : Port → Port) : (s.modPort k f).counters = s.counters := rfl
@[simp] theorem State.modPort_latched (s : State) (k : Nat) (f : Port → Port) : (s.modPort k f).latched = s.latched := rfl
@[simp] theorem State.modPort_clock (s : State) (k : Nat) (f : Port → Port) : (s.modPort k f).clock = s.clock := rfl
@[simp] theorem State.modPort_hubPhase (s : State) (k : Nat) (f : Port → Port) : (s.modPort k f).hubPhase = s.hubPhase := rfl
@[simp] theorem State.modPort_hostData (s : State) (k : Nat) (f : Port → Port) : (s.modPort k f).hostData = s.hostData := rfl
@[simp] theorem State.modPort_nextId (s : State) (k : Nat) (f : Port → Port) : (s.modPort k f).nextId = s.nextId := rfl
@[simp] theorem State.modPort_stopGrids (s : State) (k : Nat) (f : Port → Port) : (s.modPort k f).stopGrids = s.stopGrids := rfl
@[simp] theorem State.modPort_agenda (s : State) (k : Nat) (f : Port → Port) : (s.modPort k f).agenda = s.agenda := rfl
@[simp] theorem State.modPort_cur (s : State) (k : Nat) (f : Port → Port) : (s.modPort k f).cur = s.cur := rfl
@[simp] theorem State.modPort_view (s : State) (k : Nat) (f : Port → Port) : (s.modPort k f).view = s.view := rfl
@[simp] theorem State.modPort_fresh (s : State) (k : Nat) (f : Port → Port) : (s.modPort k f).fresh = s.fresh := rfl

/-! ### modWarp -/

@[simp] theorem State.modWarp_hubNow (s : State) (k n : Nat) (f : Warp → Warp) : (s.modWarp k n f).hubNow = s.hubNow := by
  unfold State.modWarp; split <;> rfl
@[simp] theorem State.modWarp_coreNow (s : State) (k n : Nat) (f : Warp → Warp) : (s.modWarp k n f).coreNow = s.coreNow := by
  unfold State.modWarp; split <;> rfl
@[simp] theorem State.modWarp_mem (s : State) (k n : Nat) (f : Warp → Warp) : (s.modWarp k n f).mem = s.mem := by
  unfold State.modWarp; split <;> rfl
@[simp] theorem State.modWarp_poison (s : State) (k n : Nat) (f : Warp → Warp) : (s.modWarp k n f).poison = s.poison := by
  unfold State.modWarp; split <;> rfl
@[simp] theorem State.modWarp_pend (s : State) (k n : Nat) (f : Warp → Warp) : (s.modWarp k n f).pend = s.pend := by
  unfold State.modWarp; split <;> rfl
@[simp] theorem State.modWarp_stale (s : State) (k n : Nat) (f : Warp → Warp) : (s.modWarp k n f).stale = s.stale := by
  unfold State.modWarp; split <;> rfl
@[simp] theorem State.modWarp_fills (s : State) (k n : Nat) (f : Warp → Warp) : (s.modWarp k n f).fills = s.fills := by
  unfold State.modWarp; split <;> rfl
@[simp] theorem State.modWarp_tlb (s : State) (k n : Nat) (f : Warp → Warp) : (s.modWarp k n f).tlb = s.tlb := by
  unfold State.modWarp; split <;> rfl
@[simp] theorem State.modWarp_beams (s : State) (k n : Nat) (f : Warp → Warp) : (s.modWarp k n f).beams = s.beams := by
  unfold State.modWarp; split <;> rfl
@[simp] theorem State.modWarp_ctxs (s : State) (k n : Nat) (f : Warp → Warp) : (s.modWarp k n f).ctxs = s.ctxs := by
  unfold State.modWarp; split <;> rfl
@[simp] theorem State.modWarp_teams (s : State) (k n : Nat) (f : Warp → Warp) : (s.modWarp k n f).teams = s.teams := by
  unfold State.modWarp; split <;> rfl
@[simp] theorem State.modWarp_grids (s : State) (k n : Nat) (f : Warp → Warp) : (s.modWarp k n f).grids = s.grids := by
  unfold State.modWarp; split <;> rfl
@[simp] theorem State.modWarp_wins (s : State) (k n : Nat) (f : Warp → Warp) : (s.modWarp k n f).wins = s.wins := by
  unfold State.modWarp; split <;> rfl
@[simp] theorem State.modWarp_nodes (s : State) (k n : Nat) (f : Warp → Warp) : (s.modWarp k n f).nodes = s.nodes := by
  unfold State.modWarp; split <;> rfl
@[simp] theorem State.modWarp_reserved (s : State) (k n : Nat) (f : Warp → Warp) : (s.modWarp k n f).reserved = s.reserved := by
  unfold State.modWarp; split <;> rfl
@[simp] theorem State.modWarp_gather (s : State) (k n : Nat) (f : Warp → Warp) : (s.modWarp k n f).gather = s.gather := by
  unfold State.modWarp; split <;> rfl
@[simp] theorem State.modWarp_seqs (s : State) (k n : Nat) (f : Warp → Warp) : (s.modWarp k n f).seqs = s.seqs := by
  unfold State.modWarp; split <;> rfl
@[simp] theorem State.modWarp_log (s : State) (k n : Nat) (f : Warp → Warp) : (s.modWarp k n f).log = s.log := by
  unfold State.modWarp; split <;> rfl
@[simp] theorem State.modWarp_msi (s : State) (k n : Nat) (f : Warp → Warp) : (s.modWarp k n f).msi = s.msi := by
  unfold State.modWarp; split <;> rfl
@[simp] theorem State.modWarp_cmd (s : State) (k n : Nat) (f : Warp → Warp) : (s.modWarp k n f).cmd = s.cmd := by
  unfold State.modWarp; split <;> rfl
@[simp] theorem State.modWarp_fnmode (s : State) (k n : Nat) (f : Warp → Warp) : (s.modWarp k n f).fnmode = s.fnmode := by
  unfold State.modWarp; split <;> rfl
@[simp] theorem State.modWarp_towers (s : State) (k n : Nat) (f : Warp → Warp) : (s.modWarp k n f).towers = s.towers := by
  unfold State.modWarp; split <;> rfl
@[simp] theorem State.modWarp_boot (s : State) (k n : Nat) (f : Warp → Warp) : (s.modWarp k n f).boot = s.boot := by
  unfold State.modWarp; split <;> rfl
@[simp] theorem State.modWarp_ckpt (s : State) (k n : Nat) (f : Warp → Warp) : (s.modWarp k n f).ckpt = s.ckpt := by
  unfold State.modWarp; split <;> rfl
@[simp] theorem State.modWarp_ports (s : State) (k n : Nat) (f : Warp → Warp) : (s.modWarp k n f).ports = s.ports := by
  unfold State.modWarp; split <;> rfl
@[simp] theorem State.modWarp_homePages (s : State) (k n : Nat) (f : Warp → Warp) : (s.modWarp k n f).homePages = s.homePages := by
  unfold State.modWarp; split <;> rfl
@[simp] theorem State.modWarp_peerPages (s : State) (k n : Nat) (f : Warp → Warp) : (s.modWarp k n f).peerPages = s.peerPages := by
  unfold State.modWarp; split <;> rfl
@[simp] theorem State.modWarp_pageReqs (s : State) (k n : Nat) (f : Warp → Warp) : (s.modWarp k n f).pageReqs = s.pageReqs := by
  unfold State.modWarp; split <;> rfl
@[simp] theorem State.modWarp_ucPages (s : State) (k n : Nat) (f : Warp → Warp) : (s.modWarp k n f).ucPages = s.ucPages := by
  unfold State.modWarp; split <;> rfl
@[simp] theorem State.modWarp_counters (s : State) (k n : Nat) (f : Warp → Warp) : (s.modWarp k n f).counters = s.counters := by
  unfold State.modWarp; split <;> rfl
@[simp] theorem State.modWarp_latched (s : State) (k n : Nat) (f : Warp → Warp) : (s.modWarp k n f).latched = s.latched := by
  unfold State.modWarp; split <;> rfl
@[simp] theorem State.modWarp_clock (s : State) (k n : Nat) (f : Warp → Warp) : (s.modWarp k n f).clock = s.clock := by
  unfold State.modWarp; split <;> rfl
@[simp] theorem State.modWarp_hubPhase (s : State) (k n : Nat) (f : Warp → Warp) : (s.modWarp k n f).hubPhase = s.hubPhase := by
  unfold State.modWarp; split <;> rfl
@[simp] theorem State.modWarp_hostData (s : State) (k n : Nat) (f : Warp → Warp) : (s.modWarp k n f).hostData = s.hostData := by
  unfold State.modWarp; split <;> rfl
@[simp] theorem State.modWarp_nextId (s : State) (k n : Nat) (f : Warp → Warp) : (s.modWarp k n f).nextId = s.nextId := by
  unfold State.modWarp; split <;> rfl
@[simp] theorem State.modWarp_stopGrids (s : State) (k n : Nat) (f : Warp → Warp) : (s.modWarp k n f).stopGrids = s.stopGrids := by
  unfold State.modWarp; split <;> rfl
@[simp] theorem State.modWarp_agenda (s : State) (k n : Nat) (f : Warp → Warp) : (s.modWarp k n f).agenda = s.agenda := by
  unfold State.modWarp; split <;> rfl
@[simp] theorem State.modWarp_cur (s : State) (k n : Nat) (f : Warp → Warp) : (s.modWarp k n f).cur = s.cur := by
  unfold State.modWarp; split <;> rfl
@[simp] theorem State.modWarp_view (s : State) (k n : Nat) (f : Warp → Warp) : (s.modWarp k n f).view = s.view := by
  unfold State.modWarp; split <;> rfl
@[simp] theorem State.modWarp_fresh (s : State) (k n : Nat) (f : Warp → Warp) : (s.modWarp k n f).fresh = s.fresh := by
  unfold State.modWarp; split <;> rfl

/-! ### modLive -/

@[simp] theorem State.modLive_hubNow (s : State) (f : Warp → Warp) : (s.modLive f).hubNow = s.hubNow := State.modWarp_hubNow ..
@[simp] theorem State.modLive_coreNow (s : State) (f : Warp → Warp) : (s.modLive f).coreNow = s.coreNow := State.modWarp_coreNow ..
@[simp] theorem State.modLive_mem (s : State) (f : Warp → Warp) : (s.modLive f).mem = s.mem := State.modWarp_mem ..
@[simp] theorem State.modLive_poison (s : State) (f : Warp → Warp) : (s.modLive f).poison = s.poison := State.modWarp_poison ..
@[simp] theorem State.modLive_pend (s : State) (f : Warp → Warp) : (s.modLive f).pend = s.pend := State.modWarp_pend ..
@[simp] theorem State.modLive_stale (s : State) (f : Warp → Warp) : (s.modLive f).stale = s.stale := State.modWarp_stale ..
@[simp] theorem State.modLive_fills (s : State) (f : Warp → Warp) : (s.modLive f).fills = s.fills := State.modWarp_fills ..
@[simp] theorem State.modLive_tlb (s : State) (f : Warp → Warp) : (s.modLive f).tlb = s.tlb := State.modWarp_tlb ..
@[simp] theorem State.modLive_beams (s : State) (f : Warp → Warp) : (s.modLive f).beams = s.beams := State.modWarp_beams ..
@[simp] theorem State.modLive_ctxs (s : State) (f : Warp → Warp) : (s.modLive f).ctxs = s.ctxs := State.modWarp_ctxs ..
@[simp] theorem State.modLive_teams (s : State) (f : Warp → Warp) : (s.modLive f).teams = s.teams := State.modWarp_teams ..
@[simp] theorem State.modLive_grids (s : State) (f : Warp → Warp) : (s.modLive f).grids = s.grids := State.modWarp_grids ..
@[simp] theorem State.modLive_wins (s : State) (f : Warp → Warp) : (s.modLive f).wins = s.wins := State.modWarp_wins ..
@[simp] theorem State.modLive_nodes (s : State) (f : Warp → Warp) : (s.modLive f).nodes = s.nodes := State.modWarp_nodes ..
@[simp] theorem State.modLive_reserved (s : State) (f : Warp → Warp) : (s.modLive f).reserved = s.reserved := State.modWarp_reserved ..
@[simp] theorem State.modLive_gather (s : State) (f : Warp → Warp) : (s.modLive f).gather = s.gather := State.modWarp_gather ..
@[simp] theorem State.modLive_seqs (s : State) (f : Warp → Warp) : (s.modLive f).seqs = s.seqs := State.modWarp_seqs ..
@[simp] theorem State.modLive_log (s : State) (f : Warp → Warp) : (s.modLive f).log = s.log := State.modWarp_log ..
@[simp] theorem State.modLive_msi (s : State) (f : Warp → Warp) : (s.modLive f).msi = s.msi := State.modWarp_msi ..
@[simp] theorem State.modLive_cmd (s : State) (f : Warp → Warp) : (s.modLive f).cmd = s.cmd := State.modWarp_cmd ..
@[simp] theorem State.modLive_fnmode (s : State) (f : Warp → Warp) : (s.modLive f).fnmode = s.fnmode := State.modWarp_fnmode ..
@[simp] theorem State.modLive_towers (s : State) (f : Warp → Warp) : (s.modLive f).towers = s.towers := State.modWarp_towers ..
@[simp] theorem State.modLive_boot (s : State) (f : Warp → Warp) : (s.modLive f).boot = s.boot := State.modWarp_boot ..
@[simp] theorem State.modLive_ckpt (s : State) (f : Warp → Warp) : (s.modLive f).ckpt = s.ckpt := State.modWarp_ckpt ..
@[simp] theorem State.modLive_ports (s : State) (f : Warp → Warp) : (s.modLive f).ports = s.ports := State.modWarp_ports ..
@[simp] theorem State.modLive_homePages (s : State) (f : Warp → Warp) : (s.modLive f).homePages = s.homePages := State.modWarp_homePages ..
@[simp] theorem State.modLive_peerPages (s : State) (f : Warp → Warp) : (s.modLive f).peerPages = s.peerPages := State.modWarp_peerPages ..
@[simp] theorem State.modLive_pageReqs (s : State) (f : Warp → Warp) : (s.modLive f).pageReqs = s.pageReqs := State.modWarp_pageReqs ..
@[simp] theorem State.modLive_ucPages (s : State) (f : Warp → Warp) : (s.modLive f).ucPages = s.ucPages := State.modWarp_ucPages ..
@[simp] theorem State.modLive_counters (s : State) (f : Warp → Warp) : (s.modLive f).counters = s.counters := State.modWarp_counters ..
@[simp] theorem State.modLive_latched (s : State) (f : Warp → Warp) : (s.modLive f).latched = s.latched := State.modWarp_latched ..
@[simp] theorem State.modLive_clock (s : State) (f : Warp → Warp) : (s.modLive f).clock = s.clock := State.modWarp_clock ..
@[simp] theorem State.modLive_hubPhase (s : State) (f : Warp → Warp) : (s.modLive f).hubPhase = s.hubPhase := State.modWarp_hubPhase ..
@[simp] theorem State.modLive_hostData (s : State) (f : Warp → Warp) : (s.modLive f).hostData = s.hostData := State.modWarp_hostData ..
@[simp] theorem State.modLive_nextId (s : State) (f : Warp → Warp) : (s.modLive f).nextId = s.nextId := State.modWarp_nextId ..
@[simp] theorem State.modLive_stopGrids (s : State) (f : Warp → Warp) : (s.modLive f).stopGrids = s.stopGrids := State.modWarp_stopGrids ..
@[simp] theorem State.modLive_agenda (s : State) (f : Warp → Warp) : (s.modLive f).agenda = s.agenda := State.modWarp_agenda ..
@[simp] theorem State.modLive_cur (s : State) (f : Warp → Warp) : (s.modLive f).cur = s.cur := State.modWarp_cur ..
@[simp] theorem State.modLive_view (s : State) (f : Warp → Warp) : (s.modLive f).view = s.view := State.modWarp_view ..
@[simp] theorem State.modLive_fresh (s : State) (f : Warp → Warp) : (s.modLive f).fresh = s.fresh := State.modWarp_fresh ..

/-! ### What an update finds again -/

@[simp] theorem State.core_setCore (s : State) (k : Nat) (c : Core) : (s.setCore k c).core k = c := by
  simp [State.core, State.setCore]
theorem State.core_setCore_other (s : State) (k j : Nat) (c : Core) (h : j ≠ k) : (s.setCore k c).core j = s.core j := by
  simp [State.core, State.setCore, sfind_sinsert_other _ _ _ _ h]
@[simp] theorem State.core_modCore (s : State) (k : Nat) (f : Core → Core) : (s.modCore k f).core k = f (s.core k) :=
  State.core_setCore ..
theorem State.core_modCore_other (s : State) (k j : Nat) (f : Core → Core) (h : j ≠ k) : (s.modCore k f).core j = s.core j :=
  State.core_setCore_other s k j _ h
@[simp] theorem State.warp?_setWarp (s : State) (k n : Nat) (w : Warp) : (s.setWarp k n w).warp? k n = some w := by
  simp [State.warp?, State.setWarp]
theorem State.warp?_setWarp_other (s : State) (k n j i : Nat) (w : Warp) (h : j ≠ k ∨ i ≠ n) :
    (s.setWarp k n w).warp? j i = s.warp? j i := by
  unfold State.warp? State.setWarp
  by_cases hj : j = k
  · subst hj
    rw [State.core_modCore]
    exact sfind_sinsert_other _ _ _ _ (h.resolve_left fun e => e rfl)
  · rw [State.core_modCore_other _ _ _ _ hj]
@[simp] theorem State.live?_setWarp (s : State) (w : Warp) : (s.setWarp s.cur.core s.cur.slot w).live? = some w :=
  State.warp?_setWarp ..
/-- Changing the warp whose word runs puts the changed warp back. -/
theorem State.modLive_of_live (s : State) (v : Warp) (f : Warp → Warp) (h : s.live? = some v) :
    s.modLive f = s.setWarp s.cur.core s.cur.slot (f v) := by
  unfold State.modLive State.modWarp
  rw [show s.warp? s.cur.core s.cur.slot = some v from h]
theorem State.live?_modLive (s : State) (v : Warp) (f : Warp → Warp) (h : s.live? = some v) :
    (s.modLive f).live? = some (f v) := by
  rw [State.modLive_of_live s v f h]; exact State.live?_setWarp ..
@[simp] theorem State.team?_modTeam (s : State) (t : Nat) (f : Team → Team) : (s.modTeam t f).team? t = (s.team? t).map f :=
  sfind_smodify_same ..
theorem State.team?_modTeam_other (s : State) (t u : Nat) (f : Team → Team) (h : u ≠ t) : (s.modTeam t f).team? u = s.team? u :=
  sfind_smodify_other _ _ _ _ h
@[simp] theorem State.grid?_modGrid (s : State) (t : Nat) (f : Grid → Grid) : (s.modGrid t f).grid? t = (s.grid? t).map f :=
  sfind_smodify_same ..
@[simp] theorem State.window_modWindow (s : State) (n : Nat) (f : Window → Window) :
    (s.modWindow n f).window n = f (s.window n) := by simp [State.window, State.modWindow]
@[simp] theorem State.ctx_modCtx (s : State) (c : Nat) (f : Context → Context) : (s.modCtx c f).ctx c = f (s.ctx c) := by
  simp [State.ctx, State.modCtx]
@[simp] theorem State.tower_modTower (s : State) (t : Nat) (f : Tower → Tower) : (s.modTower t f).tower t = f (s.tower t) := by
  simp [State.tower, State.modTower]
@[simp] theorem State.port_modPort (s : State) (k : Nat) (f : Port → Port) : (s.modPort k f).port k = f (s.port k) := by
  simp [State.port, State.modPort]

end Sys2Proof.Machine
end

