-- ==== Sys2Proof/Laws/Word.lean ====
section
/-! SUPPORT. What the shared shapes of the warp's words do: a word that runs has its effect, one that fails a check takes its trap, and
one whose effect is on its own warp leaves everything else. -/

set_option Elab.async false

namespace Sys2Proof.Machine
open Sys2Proof

/-- A word that runs has its effect. -/
theorem word_runs {s : State} {w v : Warp} {i : Instr} (h : Runs s w v i) (eff : Warp → State → State) :
    word i s eff = .next (eff w s) := by
  unfold word
  rw [h.view]
  rcases h.free with hc | hc
  · simp [hc]
  · cases s.cur.checked <;> simp [hc]
/-- A word that fails a check takes its trap. -/
theorem word_traps {s : State} {w : Warp} {i : Instr} {t : Trap} (h : Traps s w i t) (eff : Warp → State → State) :
    word i s eff = .next (takeTrap t (trapSide i s)) := by
  unfold word
  rw [h.view]
  simp [h.unchecked, h.trap]
/-- A word whose effect is on its own warp changes that warp. -/
theorem onWarp_runs {s : State} {w v : Warp} {i : Instr} (h : Runs s w v i) (f : Warp → BitVec 16 → Warp → Warp) :
    onWarp i s f = .next (s.setWarp s.cur.core s.cur.slot (f w s.cur.slices v)) := by
  unfold onWarp
  rw [word_runs h, State.modLive_of_live _ _ _ h.live]
/-- Putting a warp back changes nothing else. -/
theorem onlyWarp_setWarp (s : State) (v' : Warp) : OnlyWarp s (s.setWarp s.cur.core s.cur.slot v') v' where
  rest := rfl
  live := State.live?_setWarp s v'
  others := fun _ _ h => State.warp?_setWarp_other _ _ _ _ _ _ h
  bytes := fun _ => rfl
/-- A meaning that is a change of its own warp. -/
theorem becomes_of_onWarp {s : State} {w v : Warp} {i : Instr} {f : Warp → BitVec 16 → Warp → Warp} {P : Warp → Prop}
    (he : exec i s = onWarp i s f) (h : Runs s w v i) (hP : P (f w s.cur.slices v)) : WarpBecomes i s P :=
  ⟨_, _, he.trans (onWarp_runs h f), onlyWarp_setWarp .., hP⟩

/-! ### Results -/

/-- A write of a vector register in the selected lanes. -/
theorem vectorWrite_vset (v : Warp) (d : Nat) (f : Nat → Word) (on : Nat → Bool) (P : Nat → Prop)
    (hP : ∀ l, l < 64 → on l = true → (v.vset d f on).vget d l = f l → P l) : VectorWrite v (v.vset d f on) d 1 on P where
  frame := { rest := rfl, regs := fun r l hl hr => Warp.vget_vset_other _ _ _ _ _ _ hl (by omega) }
  acts := fun l hl ho => hP l hl ho (Warp.vget_vset_on _ _ _ _ _ hl ho)
  skips := fun l hl ho r => Warp.vget_vset_off _ _ _ _ _ _ hl ho
/-- A write of a vector register or pair in the selected lanes. -/
theorem vectorWrite_vsetW (v : Warp) (wd : Width) (d : Nat) (f : Nat → DWord) (on : Nat → Bool) (P : Nat → Prop)
    (hP : ∀ l, l < 64 → on l = true → (match wd with
      | .w32 => (v.vsetW wd d f on).vget d l = loWord (f l)
      | .w64 => (v.vsetW wd d f on).vpair d l = f l) → P l) : VectorWrite v (v.vsetW wd d f on) d wd.regs on P where
  frame :=
    { rest := Warp.vsetW_rest v wd d f on
      regs := fun r l hl hr => by
        cases wd with
        | w32 => exact Warp.vget_vset_other _ _ _ _ _ _ hl (by simp only [Width.regs] at hr; omega)
        | w64 =>
          simp only [Width.regs] at hr
          exact (Warp.vget_vset_other _ _ _ _ _ _ hl (by omega)).trans (Warp.vget_vset_other _ _ _ _ _ _ hl (by omega)) }
  acts := fun l hl ho => by
    apply hP l hl ho
    cases wd with
    | w32 => exact Warp.vget_vset_on _ _ _ _ _ hl ho
    | w64 =>
      simp only [Warp.vpair, Warp.vsetW, Warp.vget_vset_on _ _ _ _ _ hl ho]
      rw [Warp.vget_vset_other _ _ _ _ _ _ hl (by omega), Warp.vget_vset_on _ _ _ _ _ hl ho, dword_halves]
  skips := fun l hl ho r => by
    cases wd with
    | w32 => exact Warp.vget_vset_off _ _ _ _ _ _ hl ho
    | w64 => exact (Warp.vget_vset_off _ _ _ _ _ _ hl ho).trans (Warp.vget_vset_off _ _ _ _ _ _ hl ho)
/-- A write of a scalar register, if `on`. -/
theorem scalarWrite_sset (v : Warp) (d : SReg) (x : DWord) (on : Bool) (P : Prop) (hP : on = true → P) :
    ScalarWrite v (if on then v.sset d x else v) d on P where
  rest := by cases on <;> rfl
  acts := hP
  skips := fun h => by subst h; rfl
  regs := fun _ h => by
    cases on
    · rfl
    · exact Warp.sget_sset_other _ _ _ _ h
/-- A write of a predicate. -/
theorem predResult_pset (v : Warp) (p : PReg) (f on : Nat → Bool) : PredResult v (v.pset p f on) p on f where
  rest := Warp.pset_rest v p f on
  acts := fun l hl ho => by
    rw [Warp.pred_pset _ _ _ _ _ _ hl]
    by_cases hp : p = 7
    · subst hp; rfl
    · rw [if_pos ⟨rfl, hp, ho⟩, if_neg hp]
  skips := fun l hl ho => by rw [Warp.pred_pset _ _ _ _ _ _ hl]; simp [ho]
  others := fun q l hl hq => by rw [Warp.pred_pset _ _ _ _ _ _ hl]; simp [hq]

end Sys2Proof.Machine
end

