-- ==== Sys2Proof/Laws/Integer.lean ====
section
/-! SUPPORT. The shared shapes of the integer words meet the shapes of the statements, for any operation that meets the relation. -/

set_option Elab.async false

namespace Sys2Proof.Machine
open Sys2Proof

/-- A 32-bit source in the low half of a double-word. -/
@[simp] theorem Warp.loWord_srcW (w : Warp) (a : Src) (l : Nat) : loWord (w.srcW .w32 a l) = w.src32 a l := loWord_zeroExtend _
theorem Warp.loWord_dstW (w : Warp) (d : VReg) (l : Nat) : loWord (w.dstW .w32 d l) = w.vget d.toNat l := loWord_zeroExtend _
/-- A word of two sources meets a relation that its operation meets. -/
theorem twoSources_of_int2 {mk : Guard → Width → VReg → Src → Src → Instr} {f : (n : Nat) → BitVec n → BitVec n → BitVec n}
    {R : (n : Nat) → BitVec n → BitVec n → BitVec n → Prop}
    (he : ∀ g wd d a b s, exec (mk g wd d a b) s = int2 (mk g wd d a b) g wd d a b f s)
    (hR : ∀ n, n = 32 ∨ n = 64 → ∀ x y : BitVec n, R n x y (f n x y)) : TwoSources mk R := by
  intro s w v g wd d a b h
  have he' := he g wd d a b s
  simp only [int2, laneWord] at he'
  refine becomes_of_onWarp he' h ?_
  refine vectorWrite_vsetW _ _ _ _ _ _ fun l hl ho hz => ?_
  cases wd with
  | w32 =>
    dsimp only at hz ⊢
    rw [hz]
    simp only [atWidth2, loWord_zeroExtend, Warp.loWord_srcW]
    exact hR 32 (.inl rfl) _ _
  | w64 =>
    dsimp only at hz ⊢
    rw [hz]
    simp only [atWidth2, Warp.srcW]
    exact hR 64 (.inr rfl) _ _
/-- A word of one source. -/
theorem oneSource_of_int1 {mk : Guard → Width → VReg → Src → Instr} {f : (n : Nat) → BitVec n → BitVec n}
    {R : (n : Nat) → BitVec n → BitVec n → Prop}
    (he : ∀ g wd d a s, exec (mk g wd d a) s = int1 (mk g wd d a) g wd d a f s)
    (hR : ∀ n, n = 32 ∨ n = 64 → ∀ x : BitVec n, R n x (f n x)) : OneSource mk R := by
  intro s w v g wd d a h
  have he' := he g wd d a s
  simp only [int1, laneWord] at he'
  refine becomes_of_onWarp he' h ?_
  refine vectorWrite_vsetW _ _ _ _ _ _ fun l hl ho hz => ?_
  cases wd with
  | w32 =>
    dsimp only at hz ⊢
    rw [hz]
    simp only [atWidth1, atWidth2, loWord_zeroExtend, Warp.loWord_srcW]
    exact hR 32 (.inl rfl) _
  | w64 =>
    dsimp only at hz ⊢
    rw [hz]
    simp only [atWidth1, atWidth2, Warp.srcW]
    exact hR 64 (.inr rfl) _
/-- A word that reads its destination. -/
theorem threeSources_of_int3 {mk : Guard → Width → VReg → Src → Src → Instr}
    {f : (n : Nat) → BitVec n → BitVec n → BitVec n → BitVec n}
    {R : (n : Nat) → BitVec n → BitVec n → BitVec n → BitVec n → Prop}
    (he : ∀ g wd d a b s, exec (mk g wd d a b) s = int3 (mk g wd d a b) g wd d a b f s)
    (hR : ∀ n, n = 32 ∨ n = 64 → ∀ d x y : BitVec n, R n d x y (f n d x y)) : ThreeSources mk R := by
  intro s w v g wd d a b h
  have he' := he g wd d a b s
  simp only [int3, laneWord] at he'
  refine becomes_of_onWarp he' h ?_
  refine vectorWrite_vsetW _ _ _ _ _ _ fun l hl ho hz => ?_
  cases wd with
  | w32 =>
    dsimp only at hz ⊢
    rw [hz]
    simp only [atWidth3, loWord_zeroExtend, Warp.loWord_srcW, Warp.loWord_dstW]
    exact hR 32 (.inl rfl) _ _ _
  | w64 =>
    dsimp only at hz ⊢
    rw [hz]
    exact hR 64 (.inr rfl) _ _ _
/-- A word that writes one register of each lane in which it acts. -/
theorem writesWord_of_lane {i : Instr} {g : Guard} {d : VReg} {R : State → Warp → Nat → Word → Prop}
    {f : State → Warp → Nat → DWord} (he : ∀ s, exec i s = laneWord i g .w32 d s (f s))
    (hR : ∀ s w l, R s w l (loWord (f s w l))) : WritesWord i g d R := by
  intro s w v h
  refine becomes_of_onWarp (he s) h ?_
  refine vectorWrite_vsetW _ .w32 _ _ _ _ fun l hl ho hz => ?_
  rw [hz]; exact hR s w l
/-- A word that executes once and writes a scalar register. -/
theorem writesScalar_of_scalar {i : Instr} {g : Guard} {d : SReg} {R : State → Warp → DWord → Prop} {f : Warp → DWord}
    (he : ∀ s, exec i s = scalarWord i g d s f) (hR : ∀ s w, R s w (f w)) : WritesScalar i g d R := by
  intro s w v h
  refine becomes_of_onWarp (he s) h ?_
  refine scalarWrite_sset _ _ _ _ _ fun ho => ?_
  rw [if_pos ho, Warp.sget_sset]
  exact hR s w
/-- A word that writes a predicate. -/
theorem writesPred_of_pred {i : Instr} {g : Guard} {p : PReg} {f : Warp → Nat → Bool}
    (he : ∀ s, exec i s = predWord i g p s f) : WritesPred i g p f :=
  fun s _ _ h => becomes_of_onWarp (he s) h (predResult_pset ..)

end Sys2Proof.Machine
end

