-- ==== Sys2Proof/Laws/Majors.lean ====
section
/-! SUPPORT. One equation per major opcode: what the decoder does with an encoded word of that major. -/

set_option Elab.async false

namespace Sys2Proof
@[simp] theorem decodeEnc_00 (h : Byte) (x : BitVec 24) :
    decodeEnc ⟨0x00#6, false, h, x, []⟩ = dec00 (lentG h) (bodyRU x) := by
  simp [decodeEnc, Enc.word, decodeWord, seqMajor, decodeWarp, accMajor, assigned]
@[simp] theorem decodeEnc_01 (h : Byte) (x : BitVec 24) :
    decodeEnc ⟨0x01#6, false, h, x, []⟩ = dec01 (lentG h) (bodyRR x) := by
  simp [decodeEnc, Enc.word, decodeWord, seqMajor, decodeWarp, accMajor, assigned]
@[simp] theorem decodeEnc_02 (h : Byte) (x : BitVec 24) :
    decodeEnc ⟨0x02#6, false, h, x, []⟩ = dec02 (lentG h) (bodyRR x) := by
  simp [decodeEnc, Enc.word, decodeWord, seqMajor, decodeWarp, accMajor, assigned]
@[simp] theorem decodeEnc_03 (h : Byte) (x : BitVec 24) :
    decodeEnc ⟨0x03#6, false, h, x, []⟩ = dec03 (lentG h) (bodyRR x) := by
  simp [decodeEnc, Enc.word, decodeWord, seqMajor, decodeWarp, accMajor, assigned]
@[simp] theorem decodeEnc_04 (h : Byte) (x : BitVec 24) :
    decodeEnc ⟨0x04#6, false, h, x, []⟩ = dec04 (lentG h) (bodyRR x) := by
  simp [decodeEnc, Enc.word, decodeWord, seqMajor, decodeWarp, accMajor, assigned]
@[simp] theorem decodeEnc_05 (h : Byte) (x : BitVec 24) :
    decodeEnc ⟨0x05#6, false, h, x, []⟩ = dec05 (lentG h) (bodyRR x) := by
  simp [decodeEnc, Enc.word, decodeWord, seqMajor, decodeWarp, accMajor, assigned]
@[simp] theorem decodeEnc_06 (h : Byte) (x : BitVec 24) :
    decodeEnc ⟨0x06#6, false, h, x, []⟩ = dec06 (lentG h) (bodyRR x) := by
  simp [decodeEnc, Enc.word, decodeWord, seqMajor, decodeWarp, accMajor, assigned]
@[simp] theorem decodeEnc_07 (h : Byte) (x : BitVec 24) :
    decodeEnc ⟨0x07#6, false, h, x, []⟩ = dec07 (lentG h) (bodyRR x) := by
  simp [decodeEnc, Enc.word, decodeWord, seqMajor, decodeWarp, accMajor, assigned]
@[simp] theorem decodeEnc_08 (h : Byte) (x : BitVec 24) :
    decodeEnc ⟨0x08#6, false, h, x, []⟩ = dec08 (lentG h) (bodyRR x) := by
  simp [decodeEnc, Enc.word, decodeWord, seqMajor, decodeWarp, accMajor, assigned]
@[simp] theorem decodeEnc_09 (h : Byte) (x : BitVec 24) :
    decodeEnc ⟨0x09#6, false, h, x, []⟩ = dec09 (lentG h) (bodyRI x) := by
  simp [decodeEnc, Enc.word, decodeWord, seqMajor, decodeWarp, accMajor, assigned]
@[simp] theorem decodeEnc_0A (h : Byte) (x : BitVec 24) :
    decodeEnc ⟨0x0A#6, false, h, x, []⟩ = dec0A (lentG h) (bodyRI x) := by
  simp [decodeEnc, Enc.word, decodeWord, seqMajor, decodeWarp, accMajor, assigned]
@[simp] theorem decodeEnc_0B (h : Byte) (x : BitVec 24) :
    decodeEnc ⟨0x0B#6, false, h, x, []⟩ = dec0B (lentG h) (bodyRI x) := by
  simp [decodeEnc, Enc.word, decodeWord, seqMajor, decodeWarp, accMajor, assigned]
@[simp] theorem decodeEnc_0C (h : Byte) (x : BitVec 24) :
    decodeEnc ⟨0x0C#6, false, h, x, []⟩ = dec0C (lentG h) (bodyRU x) := by
  simp [decodeEnc, Enc.word, decodeWord, seqMajor, decodeWarp, accMajor, assigned]
@[simp] theorem decodeEnc_0D (h : Byte) (x : BitVec 24) :
    decodeEnc ⟨0x0D#6, false, h, x, []⟩ = dec0D (lentG h) (bodyRU x) := by
  simp [decodeEnc, Enc.word, decodeWord, seqMajor, decodeWarp, accMajor, assigned]
@[simp] theorem decodeEnc_0E (h : Byte) (x : BitVec 24) :
    decodeEnc ⟨0x0E#6, false, h, x, []⟩ = dec0E (lentG h) (bodyRR x) := by
  simp [decodeEnc, Enc.word, decodeWord, seqMajor, decodeWarp, accMajor, assigned]
@[simp] theorem decodeEnc_0F (h : Byte) (x : BitVec 24) :
    decodeEnc ⟨0x0F#6, false, h, x, []⟩ = dec0F (lentG h) (bodyRU x) := by
  simp [decodeEnc, Enc.word, decodeWord, seqMajor, decodeWarp, accMajor, assigned]
@[simp] theorem decodeEnc_10 (h : Byte) (x : BitVec 24) :
    decodeEnc ⟨0x10#6, false, h, x, []⟩ = dec10 (lentG h) (bodyRR x) := by
  simp [decodeEnc, Enc.word, decodeWord, seqMajor, decodeWarp, accMajor, assigned]
@[simp] theorem decodeEnc_11 (h : Byte) (x : BitVec 24) :
    decodeEnc ⟨0x11#6, false, h, x, []⟩ = dec11 (lentG h) (bodyRR x) := by
  simp [decodeEnc, Enc.word, decodeWord, seqMajor, decodeWarp, accMajor, assigned]
@[simp] theorem decodeEnc_12 (h : Byte) (x : BitVec 24) :
    decodeEnc ⟨0x12#6, false, h, x, []⟩ = dec12 h (bodyRR x) := by
  simp [decodeEnc, Enc.word, decodeWord, seqMajor, decodeWarp, accMajor, assigned]
@[simp] theorem decodeEnc_13 (h : Byte) (x : BitVec 24) :
    decodeEnc ⟨0x13#6, false, h, x, []⟩ = dec13 (lentG h) (bodyRR x) := by
  simp [decodeEnc, Enc.word, decodeWord, seqMajor, decodeWarp, accMajor, assigned]
@[simp] theorem decodeEnc_14 (h : Byte) (x : BitVec 24) :
    decodeEnc ⟨0x14#6, false, h, x, []⟩ = dec14 (lentG h) (bodyRR x) := by
  simp [decodeEnc, Enc.word, decodeWord, seqMajor, decodeWarp, accMajor, assigned]
@[simp] theorem decodeEnc_15 (h : Byte) (x : BitVec 24) :
    decodeEnc ⟨0x15#6, false, h, x, []⟩ = dec15 (lentG h) (bodyRR x) := by
  simp [decodeEnc, Enc.word, decodeWord, seqMajor, decodeWarp, accMajor, assigned]
@[simp] theorem decodeEnc_16 (h : Byte) (x : BitVec 24) :
    decodeEnc ⟨0x16#6, false, h, x, []⟩ = dec16 (lentG h) (bodyRI x) := by
  simp [decodeEnc, Enc.word, decodeWord, seqMajor, decodeWarp, accMajor, assigned]
@[simp] theorem decodeEnc_17 (h : Byte) (x : BitVec 24) :
    decodeEnc ⟨0x17#6, false, h, x, []⟩ = dec17 (lentG h) (bodyRR x) := by
  simp [decodeEnc, Enc.word, decodeWord, seqMajor, decodeWarp, accMajor, assigned]
@[simp] theorem decodeEnc_18 (h : Byte) (x : BitVec 24) :
    decodeEnc ⟨0x18#6, false, h, x, []⟩ = dec18 (lentG h) (bodyRR x) := by
  simp [decodeEnc, Enc.word, decodeWord, seqMajor, decodeWarp, accMajor, assigned]
@[simp] theorem decodeEnc_19 (h : Byte) (x : BitVec 24) :
    decodeEnc ⟨0x19#6, false, h, x, []⟩ = dec19 (lentG h) (bodyRR x) := by
  simp [decodeEnc, Enc.word, decodeWord, seqMajor, decodeWarp, accMajor, assigned]
@[simp] theorem decodeEnc_1A (h : Byte) (x : BitVec 24) :
    decodeEnc ⟨0x1A#6, false, h, x, []⟩ = dec1A (lentG h) (bodyRL x) := by
  simp [decodeEnc, Enc.word, decodeWord, seqMajor, decodeWarp, accMajor, assigned]
@[simp] theorem decodeEnc_1B (h : Byte) (x : BitVec 24) :
    decodeEnc ⟨0x1B#6, false, h, x, []⟩ = dec1B (lentG h) (bodyRL x) := by
  simp [decodeEnc, Enc.word, decodeWord, seqMajor, decodeWarp, accMajor, assigned]
@[simp] theorem decodeEnc_1C (h : Byte) (x : BitVec 24) :
    decodeEnc ⟨0x1C#6, false, h, x, []⟩ = dec1C (lentG h) (bodyRR x) := by
  simp [decodeEnc, Enc.word, decodeWord, seqMajor, decodeWarp, accMajor, assigned]
@[simp] theorem decodeEnc_1D (h : Byte) (x : BitVec 24) :
    decodeEnc ⟨0x1D#6, false, h, x, []⟩ = dec1D (lentG h) (bodyRI x) := by
  simp [decodeEnc, Enc.word, decodeWord, seqMajor, decodeWarp, accMajor, assigned]
@[simp] theorem decodeEnc_1E (h : Byte) (x : BitVec 24) :
    decodeEnc ⟨0x1E#6, false, h, x, []⟩ = dec1E (lentG h) (bodyRR x) := by
  simp [decodeEnc, Enc.word, decodeWord, seqMajor, decodeWarp, accMajor, assigned]
@[simp] theorem decodeEnc_20 (acc : Bool) (h : Byte) (x : BitVec 24) :
    decodeEnc ⟨0x20#6, acc, h, x, []⟩ = dec20 acc h (bodyRL x) := by
  simp [decodeEnc, Enc.word, decodeWord, seqMajor, decodeWarp, accMajor, assigned]
@[simp] theorem decodeEnc_21 (h : Byte) (x : BitVec 24) :
    decodeEnc ⟨0x21#6, false, h, x, []⟩ = dec21 h (bodyRL x) := by
  simp [decodeEnc, Enc.word, decodeWord, seqMajor, decodeWarp, accMajor, assigned]
@[simp] theorem decodeEnc_22 (acc : Bool) (h : Byte) (x : BitVec 24) :
    decodeEnc ⟨0x22#6, acc, h, x, []⟩ = dec22 acc h (bodyRL x) := by
  simp [decodeEnc, Enc.word, decodeWord, seqMajor, decodeWarp, accMajor, assigned]
@[simp] theorem decodeEnc_23 (h : Byte) (x : BitVec 24) :
    decodeEnc ⟨0x23#6, false, h, x, []⟩ = dec23 h (bodyRL x) := by
  simp [decodeEnc, Enc.word, decodeWord, seqMajor, decodeWarp, accMajor, assigned]
@[simp] theorem decodeEnc_24 (acc : Bool) (h : Byte) (x : BitVec 24) :
    decodeEnc ⟨0x24#6, acc, h, x, []⟩ = dec24 acc h (bodyRL x) := by
  simp [decodeEnc, Enc.word, decodeWord, seqMajor, decodeWarp, accMajor, assigned]
@[simp] theorem decodeEnc_25 (h : Byte) (x : BitVec 24) :
    decodeEnc ⟨0x25#6, false, h, x, []⟩ = dec25 (lentG h) (bodyRU x) := by
  simp [decodeEnc, Enc.word, decodeWord, seqMajor, decodeWarp, accMajor, assigned]
@[simp] theorem decodeEnc_26 (h : Byte) (x : BitVec 24) :
    decodeEnc ⟨0x26#6, false, h, x, []⟩ = dec26 h (bodyRL x) := by
  simp [decodeEnc, Enc.word, decodeWord, seqMajor, decodeWarp, accMajor, assigned]
@[simp] theorem decodeEnc_27 (h : Byte) (x : BitVec 24) :
    decodeEnc ⟨0x27#6, false, h, x, []⟩ = dec27 h (bodyRL x) := by
  simp [decodeEnc, Enc.word, decodeWord, seqMajor, decodeWarp, accMajor, assigned]
@[simp] theorem decodeEnc_28 (h : Byte) (x : BitVec 24) :
    decodeEnc ⟨0x28#6, false, h, x, []⟩ = dec28 (lentG h) (bodyRR x) := by
  simp [decodeEnc, Enc.word, decodeWord, seqMajor, decodeWarp, accMajor, assigned]
@[simp] theorem decodeEnc_29 (h : Byte) (x : BitVec 24) :
    decodeEnc ⟨0x29#6, false, h, x, []⟩ = dec29 (lentG h) (bodyRR x) := by
  simp [decodeEnc, Enc.word, decodeWord, seqMajor, decodeWarp, accMajor, assigned]
@[simp] theorem decodeEnc_2A (acc : Bool) (h : Byte) (x : BitVec 24) :
    decodeEnc ⟨0x2A#6, acc, h, x, []⟩ = dec2A acc (lentG h) (bodyRR x) := by
  simp [decodeEnc, Enc.word, decodeWord, seqMajor, decodeWarp, accMajor, assigned]
@[simp] theorem decodeEnc_2B (h : Byte) (x : BitVec 24) :
    decodeEnc ⟨0x2B#6, false, h, x, []⟩ = dec2B h (bodyRU x) := by
  simp [decodeEnc, Enc.word, decodeWord, seqMajor, decodeWarp, accMajor, assigned]
@[simp] theorem decodeEnc_2C (h : Byte) (x : BitVec 24) :
    decodeEnc ⟨0x2C#6, false, h, x, []⟩ = dec2C (lentG h) (bodyRR x) := by
  simp [decodeEnc, Enc.word, decodeWord, seqMajor, decodeWarp, accMajor, assigned]
@[simp] theorem decodeEnc_2D (h : Byte) (x : BitVec 24) :
    decodeEnc ⟨0x2D#6, false, h, x, []⟩ = dec2D (lentG h) (bodyRR x) := by
  simp [decodeEnc, Enc.word, decodeWord, seqMajor, decodeWarp, accMajor, assigned]
@[simp] theorem decodeEnc_2E (h : Byte) (x : BitVec 24) :
    decodeEnc ⟨0x2E#6, false, h, x, []⟩ = dec2E (lentG h) (bodyRR x) := by
  simp [decodeEnc, Enc.word, decodeWord, seqMajor, decodeWarp, accMajor, assigned]
@[simp] theorem decodeEnc_2F (h : Byte) (x : BitVec 24) :
    decodeEnc ⟨0x2F#6, false, h, x, []⟩ = dec2F h (bodyRI x) := by
  simp [decodeEnc, Enc.word, decodeWord, seqMajor, decodeWarp, accMajor, assigned]
@[simp] theorem decodeEnc_30 (acc : Bool) (h : Byte) (x : BitVec 24) :
    decodeEnc ⟨0x30#6, acc, h, x, []⟩ = dec30 acc h (bodyB x) := by
  simp [decodeEnc, Enc.word, decodeWord, seqMajor, decodeWarp, accMajor, assigned]
@[simp] theorem decodeEnc_31 (acc : Bool) (h : Byte) (x : BitVec 24) :
    decodeEnc ⟨0x31#6, acc, h, x, []⟩ = dec31 acc h (bodyRR x) := by
  simp [decodeEnc, Enc.word, decodeWord, seqMajor, decodeWarp, accMajor, assigned]
@[simp] theorem decodeEnc_32 (h : Byte) (x : BitVec 24) :
    decodeEnc ⟨0x32#6, false, h, x, []⟩ = dec32 h (bodyRU x) := by
  simp [decodeEnc, Enc.word, decodeWord, seqMajor, decodeWarp, accMajor, assigned]
@[simp] theorem decodeEnc_33 (h : Byte) (x : BitVec 24) :
    decodeEnc ⟨0x33#6, false, h, x, []⟩ = dec33 (lentG h) (bodyRR x) := by
  simp [decodeEnc, Enc.word, decodeWord, seqMajor, decodeWarp, accMajor, assigned]
@[simp] theorem decodeEnc_34 (h : Byte) (x : BitVec 24) :
    decodeEnc ⟨0x34#6, false, h, x, []⟩ = dec34 h (bodyRI x) := by
  simp [decodeEnc, Enc.word, decodeWord, seqMajor, decodeWarp, accMajor, assigned]
@[simp] theorem decodeEnc_35 (h : Byte) (x : BitVec 24) :
    decodeEnc ⟨0x35#6, false, h, x, []⟩ = dec35 (lentG h) (bodyRR x) := by
  simp [decodeEnc, Enc.word, decodeWord, seqMajor, decodeWarp, accMajor, assigned]
@[simp] theorem decodeEnc_36 (h : Byte) (x : BitVec 24) :
    decodeEnc ⟨0x36#6, false, h, x, []⟩ = dec36 (lentG h) (bodyT x) := by
  simp [decodeEnc, Enc.word, decodeWord, seqMajor, decodeWarp, accMajor, assigned]
@[simp] theorem decodeEnc_37 (h : Byte) (x : BitVec 24) :
    decodeEnc ⟨0x37#6, false, h, x, []⟩ = dec37 (lentG h) (bodyT x) := by
  simp [decodeEnc, Enc.word, decodeWord, seqMajor, decodeWarp, accMajor, assigned]
@[simp] theorem decodeEnc_38 (h : Byte) (x : BitVec 24) :
    decodeEnc ⟨0x38#6, false, h, x, []⟩ = dec38 (lentG h) (bodyT x) := by
  simp [decodeEnc, Enc.word, decodeWord, seqMajor, decodeWarp, accMajor, assigned]
@[simp] theorem decodeEnc_39 (h : Byte) (x : BitVec 24) :
    decodeEnc ⟨0x39#6, false, h, x, []⟩ = dec39 (lentG h) (bodyT x) := by
  simp [decodeEnc, Enc.word, decodeWord, seqMajor, decodeWarp, accMajor, assigned]
@[simp] theorem decodeEnc_3A (h : Byte) (x : BitVec 24) :
    decodeEnc ⟨0x3A#6, false, h, x, []⟩ = dec3A (lentG h) (bodyRR x) := by
  simp [decodeEnc, Enc.word, decodeWord, seqMajor, decodeWarp, accMajor, assigned]
@[simp] theorem decodeEnc_3B (h : Byte) (x : BitVec 24) :
    decodeEnc ⟨0x3B#6, false, h, x, []⟩ = dec3B h (bodyRU x) := by
  simp [decodeEnc, Enc.word, decodeWord, seqMajor, decodeWarp, accMajor, assigned]
@[simp] theorem decodeEnc_3C (h : Byte) (x : BitVec 24) :
    decodeEnc ⟨0x3C#6, false, h, x, []⟩ = dec3C h (bodyT x) := by
  simp [decodeEnc, Enc.word, decodeWord, seqMajor, decodeSeq]
@[simp] theorem decodeEnc_3D (h : Byte) (x : BitVec 24) :
    decodeEnc ⟨0x3D#6, false, h, x, []⟩ = dec3D h (bodyT x) := by
  simp [decodeEnc, Enc.word, decodeWord, seqMajor, decodeSeq]
@[simp] theorem decodeEnc_3E (h : Byte) (x : BitVec 24) :
    decodeEnc ⟨0x3E#6, false, h, x, []⟩ = dec3E h (bodyT x) := by
  simp [decodeEnc, Enc.word, decodeWord, seqMajor, decodeSeq]

/-! ### The fields that no shared lemma reads -/

/-- A 12-bit immediate comes back from XH and IMM10 (R174). -/
theorem imm12_back (x : BitVec 12) :
    imm12 (x.extractLsb' 10 2 ^^^ if x[9] = true then 3#2 else 0#2) (x.extractLsb' 0 10) = x := imm12_parts x
/-- A 19-bit immediate comes back from XH and IMM17 (R174). -/
theorem imm19_back (x : BitVec 19) :
    imm19 (x.extractLsb' 17 2 ^^^ if x[16] = true then 3#2 else 0#2) (x.extractLsb' 0 17) = x := imm19_parts x
theorem lentG_ext_sa (a b : Bool) (c : BitVec 6) : (lentG (b1 a ++ b1 b ++ c)).sa = a := by revert a b c; decide
theorem lentG_ext_sb (a b : Bool) (c : BitVec 6) : (lentG (b1 a ++ b1 b ++ c)).sb = b := by revert a b c; decide
theorem lentExt_ext (a b : Bool) (c : BitVec 6) : lentExt (b1 a ++ b1 b ++ c) = c := by
  simp (disch := omega) only [lentExt, extract_low, extract_all]
theorem mmaExt_plain (n m : MmaDim) (co acc : Bool) : extPlain (0#2 ++ n.code ++ m.code ++ b1 co ++ b1 acc) = true := by
  cases n <;> cases m <;> cases co <;> cases acc <;> rfl
theorem mmaExt_acc (n m : MmaDim) (co acc : Bool) : (lentExt (0#2 ++ n.code ++ m.code ++ b1 co ++ b1 acc)).getLsbD 0 = acc := by
  cases n <;> cases m <;> cases co <;> cases acc <;> rfl
theorem mmaExt_co (n m : MmaDim) (co acc : Bool) : (lentExt (0#2 ++ n.code ++ m.code ++ b1 co ++ b1 acc)).getLsbD 1 = co := by
  cases n <;> cases m <;> cases co <;> cases acc <;> rfl
theorem mmaExt_m (n m : MmaDim) (co acc : Bool) :
    toMmaDim ((lentExt (0#2 ++ n.code ++ m.code ++ b1 co ++ b1 acc)).extractLsb' 2 2) = m := by
  cases n <;> cases m <;> cases co <;> cases acc <;> rfl
theorem mmaExt_n (n m : MmaDim) (co acc : Bool) :
    toMmaDim ((lentExt (0#2 ++ n.code ++ m.code ++ b1 co ++ b1 acc)).extractLsb' 4 2) = n := by
  cases n <;> cases m <;> cases co <;> cases acc <;> rfl

end Sys2Proof
end

