-- ==== Sys2Proof/Laws/Memory.lean ====
section
/-! SUPPORT. Memory: what a byte reads as after each operation on memory, and that each keeps the canonical form. -/

namespace Sys2Proof.Machine
open Sys2Proof

/-! ### Reading after writing -/

/-- Before and behind the bytes written, memory reads as before. -/
theorem sget_putBytes_other (m : List Host.Cell) (loc a : Nat) (bs : List Byte) (h : a < loc ∨ loc + bs.length ≤ a) :
    sget 0 (putBytes m loc bs) a = sget 0 m a := by
  induction bs generalizing m loc with
  | nil => rfl
  | cons b r ih =>
    simp only [List.length_cons] at h
    rw [putBytes, ih _ _ (by omega), sget_sput_other _ _ _ _ _ (by omega)]

/-- What a key that no entry has reads as. -/
theorem sget_absent (m : List Host.Cell) (a : Nat) (h : a ∉ m.map (·.1)) : sget 0 m a = 0 := by
  induction m with
  | nil => rfl
  | cons c r ih =>
    simp only [List.map_cons, List.mem_cons, not_or] at h
    rw [sget, if_neg (fun e => h.1 e.symm), ih h.2]
/-- After single writes of `g` at the keys of some cells, those keys read as `g` says and the others as before. -/
theorem sget_foldl_sput (g : Nat → Byte) (xs m : List Host.Cell) (a : Nat) :
    sget 0 (xs.foldl (fun m c => sput 0 m c.1 (g c.1)) m) a = if a ∈ xs.map (·.1) then g a else sget 0 m a := by
  induction xs generalizing m with
  | nil => simp
  | cons c r ih =>
    rw [List.foldl_cons, ih]
    by_cases hr : a ∈ r.map (·.1)
    · rw [if_pos hr, if_pos (by simp only [List.map_cons]; exact List.mem_cons_of_mem _ hr)]
    · by_cases hc : a = c.1
      · subst hc; rw [if_neg hr, if_pos (by simp), sget_sput_same]
      · rw [if_neg hr, if_neg (by simp [hc] at hr ⊢; exact hr), sget_sput_other _ _ _ _ _ hc]
/-- A byte of a memory mixed of two is that of one or of the other. -/
theorem sget_mixCells (pick : Nat → Bool) (old new : List Host.Cell) (a : Nat) :
    sget 0 (mixCells pick old new) a = if pick a then sget 0 old a else sget 0 new a := by
  rw [mixCells, sget_foldl_sput (fun a => if pick a then sget 0 old a else sget 0 new a)]
  split
  · rfl
  · next h =>
    simp only [List.map_append, List.mem_append, not_or] at h
    rw [sget_absent old a h.1, sget_absent new a h.2, ite_self]

/-- Each of the bytes written reads back. -/
theorem sget_putBytes_same (m : List Host.Cell) (loc i : Nat) (bs : List Byte) (h : i < bs.length) :
    sget 0 (putBytes m loc bs) (loc + i) = bs.getD i 0 := by
  induction bs generalizing m loc i with
  | nil => simp at h
  | cons b r ih =>
    cases i with
    | zero => rw [putBytes, sget_putBytes_other _ _ _ _ (by omega)]; simp
    | succ n =>
      have := ih (sput 0 m loc b) (loc + 1) n (by simpa using h)
      rw [putBytes, show loc + (n + 1) = loc + 1 + n by omega, this]
      simp

/-- What a write leaves of the bytes outside it. -/
theorem State.byte_write_other (s : State) (loc a : Nat) (bs : List Byte) (h : a < loc ∨ loc + bs.length ≤ a) :
    (s.write loc bs).byte a = s.byte a := sget_putBytes_other _ _ _ _ h
/-- What a write puts at its own bytes. -/
theorem State.byte_write_same (s : State) (loc i : Nat) (bs : List Byte) (h : i < bs.length) :
    (s.write loc bs).byte (loc + i) = bs.getD i 0 := sget_putBytes_same _ _ _ _ h
/-- A write changes memory and the poison marks alone. -/
theorem State.write_rest (s : State) (loc : Nat) (bs : List Byte) :
    s.write loc bs = { s with mem := (s.write loc bs).mem, poison := (s.write loc bs).poison } := rfl

/-- A dropped range reads as nothing listed, and the rest as before. -/
theorem sget_sdropRange {α : Type} (d : α) (m : List (Nat × α)) (lo hi a : Nat) :
    sget d (sdropRange m lo hi) a = if lo ≤ a ∧ a < hi then d else sget d m a := by
  induction m with
  | nil => simp [sdropRange]
  | cons p r ih =>
    obtain ⟨k, v⟩ := p
    simp only [sdropRange] at ih
    by_cases hk : k < lo ∨ hi ≤ k
    · have : (decide (k < lo) || decide (hi ≤ k)) = true := by simpa using hk
      simp only [sdropRange, List.filter_cons, this, if_true, sget, ih]
      by_cases e : k = a
      · subst e; simp only [if_true]; rw [if_neg (by omega)]
      · simp [e]
    · have : (decide (k < lo) || decide (hi ≤ k)) = false := by simpa using hk
      simp only [sdropRange, List.filter_cons, this, Bool.false_eq_true, if_false, sget, ih]
      by_cases e : k = a
      · subst e; rw [if_pos (by omega), if_pos (by omega)]
      · simp [e]

/-! ### The canonical form is kept -/

/-- Reset memory has the canonical form. -/
theorem Memory.wf_reset : Memory.wf State.reset.mem = true := rfl
/-- Writing bytes keeps it. -/
theorem Memory.wf_putBytes (m : List Host.Cell) (loc : Nat) (bs : List Byte) (h : Memory.wf m = true) :
    Memory.wf (putBytes m loc bs) = true := by
  induction bs generalizing m loc with
  | nil => exact h
  | cons b r ih => exact ih _ _ (swf_sput 0 m loc b h)
/-- A store's write keeps it. -/
theorem Memory.wf_write (s : State) (loc : Nat) (bs : List Byte) (h : Memory.wf s.mem = true) :
    Memory.wf (s.write loc bs).mem = true := Memory.wf_putBytes _ _ _ h
/-- A store's effect at its coherence point keeps it. -/
theorem Memory.wf_applyStore (s : State) (op : StoreOp) (h : Memory.wf s.mem = true) : Memory.wf (s.applyStore op).mem = true := by
  cases op with
  | bytes loc bs => exact Memory.wf_write s loc bs h
  | red loc op b =>
    simp only [State.applyStore]
    split
    · exact Memory.wf_write s _ _ h
    · exact h
  | bitld | bitpitch | bitsw | mark => exact h
/-- Zeroing a range keeps it. -/
theorem Memory.wf_sdropRange (m : List Host.Cell) (lo hi : Nat) (h : Memory.wf m = true) : Memory.wf (sdropRange m lo hi) = true :=
  swf_sdropRange 0 m lo hi h
/-- Folding single writes keeps it. -/
theorem Memory.wf_foldl {β : Type} (f : β → Nat) (g : β → Byte) (xs : List β) (m : List Host.Cell) (h : Memory.wf m = true) :
    Memory.wf (xs.foldl (fun m x => sput 0 m (f x) (g x)) m) = true := by
  induction xs generalizing m with
  | nil => exact h
  | cons x r ih => exact ih _ (swf_sput 0 m _ _ h)
/-- Copying a range of memory keeps it. -/
theorem Memory.wf_copyRange (src m : List Host.Cell) (lo n to_ : Nat) (h : Memory.wf m = true) :
    Memory.wf (copyRange src m lo n to_) = true :=
  Memory.wf_foldl _ _ _ _ (Memory.wf_sdropRange m _ _ h)
/-- Taking each byte of one of two memories keeps it. -/
theorem Memory.wf_mixCells (pick : Nat → Bool) (old new : List Host.Cell) (h : Memory.wf new = true) :
    Memory.wf (mixCells pick old new) = true :=
  Memory.wf_foldl _ _ _ _ h
/-- Putting a scratchpad's cells at a core keeps it. -/
theorem Memory.wf_putCells (m : List Host.Cell) (k : Nat) (cs : List Host.Cell) (h : Memory.wf m = true) :
    Memory.wf (putCells m k cs) = true := by
  induction cs generalizing m with
  | nil => exact h
  | cons c r ih => exact ih _ (swf_sput 0 m _ _ h)
/-- Landing words keeps it. -/
theorem Memory.wf_putWords (m : List Host.Cell) (ws : List (Nat × Word)) (h : Memory.wf m = true) : Memory.wf (putWords m ws) = true := by
  induction ws generalizing m with
  | nil => exact h
  | cons x r ih => exact ih _ (Memory.wf_putBytes _ _ _ h)
/-- Folding single writes under a condition keeps it. -/
theorem Memory.wf_foldl_if {β : Type} (p : β → Bool) (f : β → Nat) (g : β → Byte) (xs : List β) (m : List Host.Cell) (h : Memory.wf m = true) :
    Memory.wf (xs.foldl (fun m x => if p x then sput 0 m (f x) (g x) else m) m) = true := by
  induction xs generalizing m with
  | nil => exact h
  | cons x r ih =>
    simp only [List.foldl_cons]
    split
    · exact ih _ (swf_sput 0 m _ _ h)
    · exact ih _ h
/-- Losing an L2's dirty bytes keeps it. -/
theorem Memory.wf_loseL2 (t fresh : Nat) (m : List Host.Cell) (h : Memory.wf m = true) : Memory.wf (loseL2 t fresh m) = true :=
  Memory.wf_foldl_if (fun (x : Host.Cell × Nat) => homedIn t x.1.1 && Config.freeBit (fresh + x.2)) (fun x => x.1.1)
    (fun x => Config.freeByte (fresh + x.2)) m.zipIdx m h

/-- Marks of poison and older copies are no part of memory. -/
@[simp] theorem State.fill_mem (s : State) (word loc n : Nat) : (s.fill word loc n).mem = s.mem := by
  simp only [State.fill]; split <;> rfl
@[simp] theorem State.dropStale_mem (s : State) (sel : Nat → Bool) (loc n : Nat) : (s.dropStale sel loc n).mem = s.mem := rfl
@[simp] theorem State.freeDoms_mem (s : State) (p : PendStore) : (s.freeDoms p).2.mem = s.mem := by
  simp only [State.freeDoms]; split <;> rfl
/-- Performing a store keeps the canonical form. -/
theorem Memory.wf_performStore (s : State) (p : PendStore) (late : List Nat) (h : Memory.wf s.mem = true) :
    Memory.wf (s.performStore p late).mem = true := by
  simp only [State.performStore]
  split
  · exact h
  · show Memory.wf (State.fill _ _ _ _).mem = true
    rw [State.fill_mem]
    exact Memory.wf_applyStore _ _ h
/-- A rise keeps it. -/
theorem Memory.wf_rise (s : State) (p : PendStore) (late : List Nat) (h : Memory.wf s.mem = true) : Memory.wf (s.rise p late).mem = true := by
  simp only [State.rise]
  split
  · exact Memory.wf_performStore s p late h
  · exact h
/-- A fold of steps that keep it keeps it. -/
theorem Memory.wf_steps {β : Type} (f : State → β → State) (xs : List β) (s : State)
    (hf : ∀ s x, Memory.wf s.mem = true → Memory.wf (f s x).mem = true) (h : Memory.wf s.mem = true) : Memory.wf (xs.foldl f s).mem = true := by
  induction xs generalizing s with
  | nil => exact h
  | cons x r ih => exact ih _ (hf s x h)
/-- Raising a store, and before it what holds it, keeps it. -/
theorem Memory.wf_lift (fuel : Nat) (s : State) (id level : Nat) (h : Memory.wf s.mem = true) :
    Memory.wf (State.lift fuel s id level).mem = true := by
  induction fuel generalizing s id level with
  | zero => exact h
  | succ fuel ih =>
    simp only [State.lift]
    split
    · exact h
    · split
      · exact h
      · have hs := Memory.wf_steps (fun (s : State) (c : Nat × Nat) => State.lift fuel s c.1 c.2) (s.holding ‹_›) s (fun s c => ih s c.1 c.2) h
        split
        · exact hs
        · split
          · exact hs
          · exact ih _ _ _ (Memory.wf_rise _ _ _ (by simpa using hs))
/-- Performing stores, as far as memory lets them be, keeps it. -/
theorem Memory.wf_flushTo (s : State) (level : Nat) (sel : PendStore → Bool) (h : Memory.wf s.mem = true) :
    Memory.wf (s.flushTo level sel).mem = true :=
  Memory.wf_steps _ _ _ (fun s p => Memory.wf_lift _ s p.id level) h
/-- A write at home keeps it. -/
theorem Memory.wf_homeWrite (s : State) (loc : Nat) (si : Bool) (bs : List Byte) (h : Memory.wf s.mem = true) :
    Memory.wf (s.homeWrite loc si bs).mem = true := by
  refine Memory.wf_performStore (State.freeDoms _ _).2 _ _ ?_
  rw [State.freeDoms_mem]
  exact Memory.wf_flushTo s 4 _ h

/-! ### What is seen of memory -/

/-- Words read back as the bytes that were written. -/
theorem State.bytes_length (s : State) (loc n : Nat) : (s.bytes loc n).length = n := by
  induction n generalizing loc with
  | zero => rfl
  | succ n ih => simp [State.bytes, ih]
/-- Each byte of a read. -/
theorem State.bytes_getElem? (s : State) (loc n i : Nat) (h : i < n) : (s.bytes loc n)[i]? = some (s.byte (loc + i)) := by
  induction n generalizing loc i with
  | zero => omega
  | succ n ih =>
    cases i with
    | zero => rfl
    | succ j => simp only [State.bytes, List.getElem?_cons_succ]; rw [ih _ _ (by omega)]; congr 2; omega
/-- A read of bytes that were just written. -/
theorem State.bytes_write (s : State) (loc : Nat) (bs : List Byte) : (s.write loc bs).bytes loc bs.length = bs := by
  apply List.ext_getElem?
  intro i
  by_cases h : i < bs.length
  · rw [State.bytes_getElem? _ _ _ _ h, State.byte_write_same _ _ _ _ h]
    simp [List.getD, List.getElem?_eq_getElem h]
  · rw [List.getElem?_eq_none (by rw [State.bytes_length]; omega), List.getElem?_eq_none (by omega)]
/-- A read of bytes away from a write. -/
theorem State.bytes_write_other (s : State) (loc a n : Nat) (bs : List Byte) (h : a + n ≤ loc ∨ loc + bs.length ≤ a) :
    (s.write loc bs).bytes a n = s.bytes a n := by
  induction n generalizing a with
  | zero => rfl
  | succ n ih =>
    rw [State.bytes, State.bytes, State.byte_write_other _ _ _ _ (by omega), ih _ (by omega)]
/-- A store joins the stores in flight; memory and every other field but the next number stay. -/
theorem State.store_rest (s : State) (a thr level : Nat) (strong : Option Scope) (rel si : Bool) (op : StoreOp) :
    (s.store a thr level strong rel si op).mem = s.mem ∧ (s.store a thr level strong rel si op).cores = s.cores ∧
      (s.store a thr level strong rel si op).teams = s.teams ∧
      (s.store a thr level strong rel si op).pend =
        s.pend ++ [⟨s.nextId, a, thr, level, strong, s.orders a thr strong rel, si, [], s.nextId, op⟩] := ⟨rfl, rfl, rfl, rfl⟩

end Sys2Proof.Machine
end

