-- ==== Sys2Proof/Laws/PerInstr.lean ====
section
/-! SUPPORT. One lemma per constructor of `Instr`: the word the encoder writes for a well-formed instruction decodes to it. -/

set_option Elab.async false
set_option linter.unusedSimpArgs false
namespace Sys2Proof.Laws
open Sys2Proof

/-- Decoding what the encoder writes for a well-formed instruction gives the instruction back (an event has no word). -/
def RoundTrip.Statement (i : Instr) : Prop := ∀ e, i.wf = true → encode i = some e → decodeEnc e = .ok i
open RoundTrip

theorem RoundTrip.nop (g : Guard) : Statement (.nop g) := by
  intro e h he
  simp [Instr.wf] at h
  cases he
  simp (disch := omega) only [decodeEnc_00, dec00, bodyRU_packRU, lentG_lentOf, guard_lent, guardOk_lent, 
    extract_low, extract_high, extract_all, extract_extract, bit_low, bit_high, bit_ofBool, Nat.reduceSub, Nat.zero_add, BitVec.ofNat_eq_ofNat]
  simp [assigned, encodes, h]
theorem RoundTrip.yield (g : Guard) : Statement (.yield g) := by
  intro e h he
  simp [Instr.wf] at h
  cases he
  simp (disch := omega) only [decodeEnc_00, dec00, bodyRU_packRU, lentG_lentOf, guard_lent, guardOk_lent, 
    extract_low, extract_high, extract_all, extract_extract, bit_low, bit_high, bit_ofBool, Nat.reduceSub, Nat.zero_add, BitVec.ofNat_eq_ofNat]
  simp [assigned, encodes, h]
theorem RoundTrip.sleep (g : Guard) (n : BitVec 17) : Statement (.sleep g n) := by
  intro e h he
  simp [Instr.wf] at h
  cases he
  simp (disch := omega) only [decodeEnc_00, dec00, bodyRU_packRU, lentG_lentOf, guard_lent, guardOk_lent, 
    extract_low, extract_high, extract_all, extract_extract, bit_low, bit_high, bit_ofBool, Nat.reduceSub, Nat.zero_add, BitVec.ofNat_eq_ofNat]
  simp [assigned, encodes, h]
theorem RoundTrip.add (g : Guard) (w : Width) (d : VReg) (a b : Src) : Statement (.add g w d a b) := by
  intro e h he
  simp [Instr.wf] at h
  cases he
  simp (disch := omega) only [decodeEnc_01, dec01, decIA1, decIA2, bodyRR_packRR, lentG_lentOf, guard_lent, guardOk_lent, 
    extract_low, extract_high, extract_all, extract_extract, bit_low, bit_high, bit_ofBool, Nat.reduceSub, Nat.zero_add, BitVec.ofNat_eq_ofNat]
  simp [assigned, encodes, h]
theorem RoundTrip.sub (g : Guard) (w : Width) (d : VReg) (a b : Src) : Statement (.sub g w d a b) := by
  intro e h he
  simp [Instr.wf] at h
  cases he
  simp (disch := omega) only [decodeEnc_01, dec01, decIA1, decIA2, bodyRR_packRR, lentG_lentOf, guard_lent, guardOk_lent, 
    extract_low, extract_high, extract_all, extract_extract, bit_low, bit_high, bit_ofBool, Nat.reduceSub, Nat.zero_add, BitVec.ofNat_eq_ofNat]
  simp [assigned, encodes, h]
theorem RoundTrip.neg (g : Guard) (w : Width) (d : VReg) (a : Src) : Statement (.neg g w d a) := by
  intro e h he
  simp [Instr.wf] at h
  cases he
  simp (disch := omega) only [decodeEnc_01, dec01, decIA1, decIA2, bodyRR_packRR, lentG_lentOf, guard_lent, guardOk_lent, 
    extract_low, extract_high, extract_all, extract_extract, bit_low, bit_high, bit_ofBool, Nat.reduceSub, Nat.zero_add, BitVec.ofNat_eq_ofNat]
  simp [assigned, encodes, h]
theorem RoundTrip.abs (g : Guard) (w : Width) (d : VReg) (a : Src) : Statement (.abs g w d a) := by
  intro e h he
  simp [Instr.wf] at h
  cases he
  simp (disch := omega) only [decodeEnc_01, dec01, decIA1, decIA2, bodyRR_packRR, lentG_lentOf, guard_lent, guardOk_lent, 
    extract_low, extract_high, extract_all, extract_extract, bit_low, bit_high, bit_ofBool, Nat.reduceSub, Nat.zero_add, BitVec.ofNat_eq_ofNat]
  simp [assigned, encodes, h]
theorem RoundTrip.mul (g : Guard) (w : Width) (d : VReg) (a b : Src) : Statement (.mul g w d a b) := by
  intro e h he
  simp [Instr.wf] at h
  cases he
  simp (disch := omega) only [decodeEnc_02, dec02, decIA2, bodyRR_packRR, lentG_lentOf, guard_lent, guardOk_lent, 
    extract_low, extract_high, extract_all, extract_extract, bit_low, bit_high, bit_ofBool, Nat.reduceSub, Nat.zero_add, BitVec.ofNat_eq_ofNat]
  simp [assigned, encodes, h]
theorem RoundTrip.mulhI (g : Guard) (w : Width) (d : VReg) (a b : Src) : Statement (.mulhI g w d a b) := by
  intro e h he
  simp [Instr.wf] at h
  cases he
  simp (disch := omega) only [decodeEnc_02, dec02, decIA2, bodyRR_packRR, lentG_lentOf, guard_lent, guardOk_lent, 
    extract_low, extract_high, extract_all, extract_extract, bit_low, bit_high, bit_ofBool, Nat.reduceSub, Nat.zero_add, BitVec.ofNat_eq_ofNat]
  simp [assigned, encodes, h]
theorem RoundTrip.mulhN (g : Guard) (w : Width) (d : VReg) (a b : Src) : Statement (.mulhN g w d a b) := by
  intro e h he
  simp [Instr.wf] at h
  cases he
  simp (disch := omega) only [decodeEnc_02, dec02, decIA2, bodyRR_packRR, lentG_lentOf, guard_lent, guardOk_lent, 
    extract_low, extract_high, extract_all, extract_extract, bit_low, bit_high, bit_ofBool, Nat.reduceSub, Nat.zero_add, BitVec.ofNat_eq_ofNat]
  simp [assigned, encodes, h]
theorem RoundTrip.mad (g : Guard) (w : Width) (d : VReg) (a b : Src) : Statement (.mad g w d a b) := by
  intro e h he
  simp [Instr.wf] at h
  cases he
  simp (disch := omega) only [decodeEnc_02, dec02, decIA2, bodyRR_packRR, lentG_lentOf, guard_lent, guardOk_lent, 
    extract_low, extract_high, extract_all, extract_extract, bit_low, bit_high, bit_ofBool, Nat.reduceSub, Nat.zero_add, BitVec.ofNat_eq_ofNat]
  simp [assigned, encodes, h]
theorem RoundTrip.minI (g : Guard) (w : Width) (d : VReg) (a b : Src) : Statement (.minI g w d a b) := by
  intro e h he
  simp [Instr.wf] at h
  cases he
  simp (disch := omega) only [decodeEnc_03, dec03, decIA2, bodyRR_packRR, lentG_lentOf, guard_lent, guardOk_lent, 
    extract_low, extract_high, extract_all, extract_extract, bit_low, bit_high, bit_ofBool, Nat.reduceSub, Nat.zero_add, BitVec.ofNat_eq_ofNat]
  simp [assigned, encodes, h]
theorem RoundTrip.maxI (g : Guard) (w : Width) (d : VReg) (a b : Src) : Statement (.maxI g w d a b) := by
  intro e h he
  simp [Instr.wf] at h
  cases he
  simp (disch := omega) only [decodeEnc_03, dec03, decIA2, bodyRR_packRR, lentG_lentOf, guard_lent, guardOk_lent, 
    extract_low, extract_high, extract_all, extract_extract, bit_low, bit_high, bit_ofBool, Nat.reduceSub, Nat.zero_add, BitVec.ofNat_eq_ofNat]
  simp [assigned, encodes, h]
theorem RoundTrip.minN (g : Guard) (w : Width) (d : VReg) (a b : Src) : Statement (.minN g w d a b) := by
  intro e h he
  simp [Instr.wf] at h
  cases he
  simp (disch := omega) only [decodeEnc_03, dec03, decIA2, bodyRR_packRR, lentG_lentOf, guard_lent, guardOk_lent, 
    extract_low, extract_high, extract_all, extract_extract, bit_low, bit_high, bit_ofBool, Nat.reduceSub, Nat.zero_add, BitVec.ofNat_eq_ofNat]
  simp [assigned, encodes, h]
theorem RoundTrip.maxN (g : Guard) (w : Width) (d : VReg) (a b : Src) : Statement (.maxN g w d a b) := by
  intro e h he
  simp [Instr.wf] at h
  cases he
  simp (disch := omega) only [decodeEnc_03, dec03, decIA2, bodyRR_packRR, lentG_lentOf, guard_lent, guardOk_lent, 
    extract_low, extract_high, extract_all, extract_extract, bit_low, bit_high, bit_ofBool, Nat.reduceSub, Nat.zero_add, BitVec.ofNat_eq_ofNat]
  simp [assigned, encodes, h]
theorem RoundTrip.and (g : Guard) (w : Width) (d : VReg) (a b : Src) : Statement (.and g w d a b) := by
  intro e h he
  simp [Instr.wf] at h
  cases he
  simp (disch := omega) only [decodeEnc_04, dec04, decIA1, decIA2, bodyRR_packRR, lentG_lentOf, guard_lent, guardOk_lent, 
    extract_low, extract_high, extract_all, extract_extract, bit_low, bit_high, bit_ofBool, Nat.reduceSub, Nat.zero_add, BitVec.ofNat_eq_ofNat]
  simp [assigned, encodes, h]
theorem RoundTrip.or (g : Guard) (w : Width) (d : VReg) (a b : Src) : Statement (.or g w d a b) := by
  intro e h he
  simp [Instr.wf] at h
  cases he
  simp (disch := omega) only [decodeEnc_04, dec04, decIA1, decIA2, bodyRR_packRR, lentG_lentOf, guard_lent, guardOk_lent, 
    extract_low, extract_high, extract_all, extract_extract, bit_low, bit_high, bit_ofBool, Nat.reduceSub, Nat.zero_add, BitVec.ofNat_eq_ofNat]
  simp [assigned, encodes, h]
theorem RoundTrip.xor (g : Guard) (w : Width) (d : VReg) (a b : Src) : Statement (.xor g w d a b) := by
  intro e h he
  simp [Instr.wf] at h
  cases he
  simp (disch := omega) only [decodeEnc_04, dec04, decIA1, decIA2, bodyRR_packRR, lentG_lentOf, guard_lent, guardOk_lent, 
    extract_low, extract_high, extract_all, extract_extract, bit_low, bit_high, bit_ofBool, Nat.reduceSub, Nat.zero_add, BitVec.ofNat_eq_ofNat]
  simp [assigned, encodes, h]
theorem RoundTrip.andn (g : Guard) (w : Width) (d : VReg) (a b : Src) : Statement (.andn g w d a b) := by
  intro e h he
  simp [Instr.wf] at h
  cases he
  simp (disch := omega) only [decodeEnc_04, dec04, decIA1, decIA2, bodyRR_packRR, lentG_lentOf, guard_lent, guardOk_lent, 
    extract_low, extract_high, extract_all, extract_extract, bit_low, bit_high, bit_ofBool, Nat.reduceSub, Nat.zero_add, BitVec.ofNat_eq_ofNat]
  simp [assigned, encodes, h]
theorem RoundTrip.not (g : Guard) (w : Width) (d : VReg) (a : Src) : Statement (.not g w d a) := by
  intro e h he
  simp [Instr.wf] at h
  cases he
  simp (disch := omega) only [decodeEnc_04, dec04, decIA1, decIA2, bodyRR_packRR, lentG_lentOf, guard_lent, guardOk_lent, 
    extract_low, extract_high, extract_all, extract_extract, bit_low, bit_high, bit_ofBool, Nat.reduceSub, Nat.zero_add, BitVec.ofNat_eq_ofNat]
  simp [assigned, encodes, h]
theorem RoundTrip.shl (g : Guard) (w : Width) (d : VReg) (a b : Src) : Statement (.shl g w d a b) := by
  intro e h he
  simp [Instr.wf] at h
  cases he
  simp (disch := omega) only [decodeEnc_05, dec05, decIA2, bodyRR_packRR, lentG_lentOf, guard_lent, guardOk_lent, 
    extract_low, extract_high, extract_all, extract_extract, bit_low, bit_high, bit_ofBool, Nat.reduceSub, Nat.zero_add, BitVec.ofNat_eq_ofNat]
  simp [assigned, encodes, h]
theorem RoundTrip.shr (g : Guard) (w : Width) (d : VReg) (a b : Src) : Statement (.shr g w d a b) := by
  intro e h he
  simp [Instr.wf] at h
  cases he
  simp (disch := omega) only [decodeEnc_05, dec05, decIA2, bodyRR_packRR, lentG_lentOf, guard_lent, guardOk_lent, 
    extract_low, extract_high, extract_all, extract_extract, bit_low, bit_high, bit_ofBool, Nat.reduceSub, Nat.zero_add, BitVec.ofNat_eq_ofNat]
  simp [assigned, encodes, h]
theorem RoundTrip.sha (g : Guard) (w : Width) (d : VReg) (a b : Src) : Statement (.sha g w d a b) := by
  intro e h he
  simp [Instr.wf] at h
  cases he
  simp (disch := omega) only [decodeEnc_05, dec05, decIA2, bodyRR_packRR, lentG_lentOf, guard_lent, guardOk_lent, 
    extract_low, extract_high, extract_all, extract_extract, bit_low, bit_high, bit_ofBool, Nat.reduceSub, Nat.zero_add, BitVec.ofNat_eq_ofNat]
  simp [assigned, encodes, h]
theorem RoundTrip.rot (g : Guard) (w : Width) (d : VReg) (a b : Src) : Statement (.rot g w d a b) := by
  intro e h he
  simp [Instr.wf] at h
  cases he
  simp (disch := omega) only [decodeEnc_05, dec05, decIA2, bodyRR_packRR, lentG_lentOf, guard_lent, guardOk_lent, 
    extract_low, extract_high, extract_all, extract_extract, bit_low, bit_high, bit_ofBool, Nat.reduceSub, Nat.zero_add, BitVec.ofNat_eq_ofNat]
  simp [assigned, encodes, h]
theorem RoundTrip.clz (g : Guard) (w : Width) (d : VReg) (a : Src) : Statement (.clz g w d a) := by
  intro e h he
  simp [Instr.wf] at h
  cases he
  simp (disch := omega) only [decodeEnc_06, dec06, decIA1, decIA2, bodyRR_packRR, lentG_lentOf, guard_lent, guardOk_lent, 
    extract_low, extract_high, extract_all, extract_extract, bit_low, bit_high, bit_ofBool, Nat.reduceSub, Nat.zero_add, BitVec.ofNat_eq_ofNat]
  simp [assigned, encodes, h]
theorem RoundTrip.popc (g : Guard) (w : Width) (d : VReg) (a : Src) : Statement (.popc g w d a) := by
  intro e h he
  simp [Instr.wf] at h
  cases he
  simp (disch := omega) only [decodeEnc_06, dec06, decIA1, decIA2, bodyRR_packRR, lentG_lentOf, guard_lent, guardOk_lent, 
    extract_low, extract_high, extract_all, extract_extract, bit_low, bit_high, bit_ofBool, Nat.reduceSub, Nat.zero_add, BitVec.ofNat_eq_ofNat]
  simp [assigned, encodes, h]
theorem RoundTrip.brev (g : Guard) (w : Width) (d : VReg) (a : Src) : Statement (.brev g w d a) := by
  intro e h he
  simp [Instr.wf] at h
  cases he
  simp (disch := omega) only [decodeEnc_06, dec06, decIA1, decIA2, bodyRR_packRR, lentG_lentOf, guard_lent, guardOk_lent, 
    extract_low, extract_high, extract_all, extract_extract, bit_low, bit_high, bit_ofBool, Nat.reduceSub, Nat.zero_add, BitVec.ofNat_eq_ofNat]
  simp [assigned, encodes, h]
theorem RoundTrip.bfeN (g : Guard) (w : Width) (d : VReg) (a b : Src) : Statement (.bfeN g w d a b) := by
  intro e h he
  simp [Instr.wf] at h
  cases he
  simp (disch := omega) only [decodeEnc_06, dec06, decIA1, decIA2, bodyRR_packRR, lentG_lentOf, guard_lent, guardOk_lent, 
    extract_low, extract_high, extract_all, extract_extract, bit_low, bit_high, bit_ofBool, Nat.reduceSub, Nat.zero_add, BitVec.ofNat_eq_ofNat]
  simp [assigned, encodes, h]
theorem RoundTrip.bfeI (g : Guard) (w : Width) (d : VReg) (a b : Src) : Statement (.bfeI g w d a b) := by
  intro e h he
  simp [Instr.wf] at h
  cases he
  simp (disch := omega) only [decodeEnc_06, dec06, decIA1, decIA2, bodyRR_packRR, lentG_lentOf, guard_lent, guardOk_lent, 
    extract_low, extract_high, extract_all, extract_extract, bit_low, bit_high, bit_ofBool, Nat.reduceSub, Nat.zero_add, BitVec.ofNat_eq_ofNat]
  simp [assigned, encodes, h]
theorem RoundTrip.bfi (g : Guard) (w : Width) (d : VReg) (a b : Src) : Statement (.bfi g w d a b) := by
  intro e h he
  simp [Instr.wf] at h
  cases he
  simp (disch := omega) only [decodeEnc_06, dec06, decIA1, decIA2, bodyRR_packRR, lentG_lentOf, guard_lent, guardOk_lent, 
    extract_low, extract_high, extract_all, extract_extract, bit_low, bit_high, bit_ofBool, Nat.reduceSub, Nat.zero_add, BitVec.ofNat_eq_ofNat]
  simp [assigned, encodes, h]
theorem RoundTrip.setp (g : Guard) (c : ICond) (un : Bool) (w : Width) (p : PReg) (a b : Src) : Statement (.setp g c un w p a b) := by
  intro e h he
  simp [Instr.wf] at h
  cases he
  simp (disch := omega) only [decodeEnc_07, dec07, bodyRR_packRR, lentG_lentOf, guard_lent, guardOk_lent, 
    extract_low, extract_high, extract_all, extract_extract, bit_low, bit_high, bit_ofBool, Nat.reduceSub, Nat.zero_add, BitVec.ofNat_eq_ofNat]
  simp [assigned, encodes, h]
theorem RoundTrip.sel (g : Guard) (w : Width) (d : VReg) (a b : Src) (p : PReg) : Statement (.sel g w d a b p) := by
  intro e h he
  simp [Instr.wf] at h
  cases he
  simp (disch := omega) only [decodeEnc_08, dec08, decIA1, decIA2, bodyRR_packRR, lentG_lentOf, guard_lent, guardOk_lent, 
    extract_low, extract_high, extract_all, extract_extract, bit_low, bit_high, bit_ofBool, Nat.reduceSub, Nat.zero_add, BitVec.ofNat_eq_ofNat]
  simp [assigned, encodes, h]
theorem RoundTrip.mov (g : Guard) (w : Width) (d : VReg) (a : Src) : Statement (.mov g w d a) := by
  intro e h he
  simp [Instr.wf] at h
  cases he
  simp (disch := omega) only [decodeEnc_08, dec08, decIA1, decIA2, bodyRR_packRR, lentG_lentOf, guard_lent, guardOk_lent, 
    extract_low, extract_high, extract_all, extract_extract, bit_low, bit_high, bit_ofBool, Nat.reduceSub, Nat.zero_add, BitVec.ofNat_eq_ofNat]
  simp [assigned, encodes, h]
theorem RoundTrip.addi (g : Guard) (d : VReg) (a : Src) (imm : BitVec 12) : Statement (.addi g d a imm) := by
  intro e h he
  simp [Instr.wf] at h
  cases he
  simp (disch := omega) only [decodeEnc_09, dec09, bodyRI_packRI, lentG_lentOf, guard_lent, guardOk_lent, 
    extract_low, extract_high, extract_all, extract_extract, bit_low, bit_high, bit_ofBool, Nat.reduceSub, Nat.zero_add, BitVec.ofNat_eq_ofNat]
  simp [assigned, encodes, h, imm12_back]
theorem RoundTrip.andi (g : Guard) (d : VReg) (a : Src) (imm : BitVec 8) : Statement (.andi g d a imm) := by
  intro e h he
  simp [Instr.wf] at h
  cases he
  simp (disch := omega) only [decodeEnc_0A, dec0A, bodyRI_packRI, lentG_lentOf, guard_lent, guardOk_lent, 
    extract_low, extract_high, extract_all, extract_extract, bit_low, bit_high, bit_ofBool, Nat.reduceSub, Nat.zero_add, BitVec.ofNat_eq_ofNat]
  simp [assigned, encodes, h]
theorem RoundTrip.ori (g : Guard) (d : VReg) (a : Src) (imm : BitVec 8) : Statement (.ori g d a imm) := by
  intro e h he
  simp [Instr.wf] at h
  cases he
  simp (disch := omega) only [decodeEnc_0A, dec0A, bodyRI_packRI, lentG_lentOf, guard_lent, guardOk_lent, 
    extract_low, extract_high, extract_all, extract_extract, bit_low, bit_high, bit_ofBool, Nat.reduceSub, Nat.zero_add, BitVec.ofNat_eq_ofNat]
  simp [assigned, encodes, h]
theorem RoundTrip.xori (g : Guard) (d : VReg) (a : Src) (imm : BitVec 8) : Statement (.xori g d a imm) := by
  intro e h he
  simp [Instr.wf] at h
  cases he
  simp (disch := omega) only [decodeEnc_0A, dec0A, bodyRI_packRI, lentG_lentOf, guard_lent, guardOk_lent, 
    extract_low, extract_high, extract_all, extract_extract, bit_low, bit_high, bit_ofBool, Nat.reduceSub, Nat.zero_add, BitVec.ofNat_eq_ofNat]
  simp [assigned, encodes, h]
theorem RoundTrip.shli (g : Guard) (w : Width) (d : VReg) (a : Src) (n : BitVec 6) : Statement (.shli g w d a n) := by
  intro e h he
  simp [Instr.wf] at h
  cases he
  simp (disch := omega) only [decodeEnc_0B, dec0B, bodyRI_packRI, lentG_lentOf, guard_lent, guardOk_lent, 
    extract_low, extract_high, extract_all, extract_extract, bit_low, bit_high, bit_ofBool, Nat.reduceSub, Nat.zero_add, BitVec.ofNat_eq_ofNat]
  simp [assigned, encodes, h]
theorem RoundTrip.shri (g : Guard) (w : Width) (d : VReg) (a : Src) (n : BitVec 6) : Statement (.shri g w d a n) := by
  intro e h he
  simp [Instr.wf] at h
  cases he
  simp (disch := omega) only [decodeEnc_0B, dec0B, bodyRI_packRI, lentG_lentOf, guard_lent, guardOk_lent, 
    extract_low, extract_high, extract_all, extract_extract, bit_low, bit_high, bit_ofBool, Nat.reduceSub, Nat.zero_add, BitVec.ofNat_eq_ofNat]
  simp [assigned, encodes, h]
theorem RoundTrip.shai (g : Guard) (w : Width) (d : VReg) (a : Src) (n : BitVec 6) : Statement (.shai g w d a n) := by
  intro e h he
  simp [Instr.wf] at h
  cases he
  simp (disch := omega) only [decodeEnc_0B, dec0B, bodyRI_packRI, lentG_lentOf, guard_lent, guardOk_lent, 
    extract_low, extract_high, extract_all, extract_extract, bit_low, bit_high, bit_ofBool, Nat.reduceSub, Nat.zero_add, BitVec.ofNat_eq_ofNat]
  simp [assigned, encodes, h]
theorem RoundTrip.movi (g : Guard) (d : VReg) (imm : BitVec 19) : Statement (.movi g d imm) := by
  intro e h he
  simp [Instr.wf] at h
  cases he
  simp (disch := omega) only [decodeEnc_0C, dec0C, bodyRU_packRU, lentG_lentOf, guard_lent, guardOk_lent, 
    extract_low, extract_high, extract_all, extract_extract, bit_low, bit_high, bit_ofBool, Nat.reduceSub, Nat.zero_add, BitVec.ofNat_eq_ofNat]
  simp [assigned, encodes, h, imm19_back]
theorem RoundTrip.movhi (g : Guard) (d : VReg) (imm : BitVec 17) : Statement (.movhi g d imm) := by
  intro e h he
  simp [Instr.wf] at h
  cases he
  simp (disch := omega) only [decodeEnc_0D, dec0D, bodyRU_packRU, lentG_lentOf, guard_lent, guardOk_lent, 
    extract_low, extract_high, extract_all, extract_extract, bit_low, bit_high, bit_ofBool, Nat.reduceSub, Nat.zero_add, BitVec.ofNat_eq_ofNat]
  simp [assigned, encodes, h]
theorem RoundTrip.lea (g : Guard) (w : Width) (d : VReg) (a b : Src) (sh : BitVec 3) : Statement (.lea g w d a b sh) := by
  intro e h he
  simp [Instr.wf] at h
  cases he
  simp (disch := omega) only [decodeEnc_0E, dec0E, decIA2, bodyRR_packRR, lentG_lentOf, guard_lent, guardOk_lent, 
    extract_low, extract_high, extract_all, extract_extract, bit_low, bit_high, bit_ofBool, Nat.reduceSub, Nat.zero_add, BitVec.ofNat_eq_ofNat]
  simp [assigned, encodes, h]
theorem RoundTrip.idx (g : Guard) (d : VReg) (e : IdxSel) : Statement (.idx g d e) := by
  intro e h he
  simp [Instr.wf] at h
  cases he
  simp (disch := omega) only [decodeEnc_0F, dec0F, bodyRU_packRU, lentG_lentOf, guard_lent, guardOk_lent, 
    extract_low, extract_high, extract_all, extract_extract, bit_low, bit_high, bit_ofBool, Nat.reduceSub, Nat.zero_add, BitVec.ofNat_eq_ofNat]
  simp [assigned, encodes, h]
theorem RoundTrip.fadd (g : Guard) (t : FTy) (d : VReg) (a b : Src) : Statement (.fadd g t d a b) := by
  intro e h he
  simp [Instr.wf] at h
  cases he
  simp (disch := omega) only [decodeEnc_10, dec10, decFA2, bodyRR_packRR, lentG_lentOf, guard_lent, guardOk_lent, 
    extract_low, extract_high, extract_all, extract_extract, bit_low, bit_high, bit_ofBool, Nat.reduceSub, Nat.zero_add, BitVec.ofNat_eq_ofNat]
  simp [assigned, encodes, h]
theorem RoundTrip.fsub (g : Guard) (t : FTy) (d : VReg) (a b : Src) : Statement (.fsub g t d a b) := by
  intro e h he
  simp [Instr.wf] at h
  cases he
  simp (disch := omega) only [decodeEnc_10, dec10, decFA2, bodyRR_packRR, lentG_lentOf, guard_lent, guardOk_lent, 
    extract_low, extract_high, extract_all, extract_extract, bit_low, bit_high, bit_ofBool, Nat.reduceSub, Nat.zero_add, BitVec.ofNat_eq_ofNat]
  simp [assigned, encodes, h]
theorem RoundTrip.fmul (g : Guard) (t : FTy) (d : VReg) (a b : Src) : Statement (.fmul g t d a b) := by
  intro e h he
  simp [Instr.wf] at h
  cases he
  simp (disch := omega) only [decodeEnc_11, dec11, decFA2, bodyRR_packRR, lentG_lentOf, guard_lent, guardOk_lent, 
    extract_low, extract_high, extract_all, extract_extract, bit_low, bit_high, bit_ofBool, Nat.reduceSub, Nat.zero_add, BitVec.ofNat_eq_ofNat]
  simp [assigned, encodes, h]
theorem RoundTrip.ffma (g : Guard) (t : FTy) (d : VReg) (a b : Src) : Statement (.ffma g t d a b) := by
  intro e h he
  simp [Instr.wf] at h
  cases he
  simp (disch := omega) only [decodeEnc_12, dec12, decFA2, bodyRR_packRR, lentG_lentOf, guard_lent, guardOk_lent, 
    extract_low, extract_high, extract_all, extract_extract, bit_low, bit_high, bit_ofBool, Nat.reduceSub, Nat.zero_add, BitVec.ofNat_eq_ofNat]
  simp [assigned, encodes, h]
theorem RoundTrip.fma3 (t : FTy) (d : VReg) (a b : Src) (c : BitVec 6) : Statement (.fma3 t d a b c) := by
  intro e h he
  cases he
  simp (disch := omega) only [decodeEnc_12, dec12, bodyRR_packRR, bit_low, lentG_ext_sa, lentG_ext_sb, lentExt_ext, extract_high,
    extract_all, Nat.reduceSub, srcOk_field, toSrc_field, toFTy_code, BitVec.ofNat_eq_ofNat]
  rfl
theorem RoundTrip.fmin (g : Guard) (t : FTy) (d : VReg) (a b : Src) : Statement (.fmin g t d a b) := by
  intro e h he
  simp [Instr.wf] at h
  cases he
  simp (disch := omega) only [decodeEnc_13, dec13, decFA1, decFA2, bodyRR_packRR, lentG_lentOf, guard_lent, guardOk_lent, 
    extract_low, extract_high, extract_all, extract_extract, bit_low, bit_high, bit_ofBool, Nat.reduceSub, Nat.zero_add, BitVec.ofNat_eq_ofNat]
  simp [assigned, encodes, h]
theorem RoundTrip.fmax (g : Guard) (t : FTy) (d : VReg) (a b : Src) : Statement (.fmax g t d a b) := by
  intro e h he
  simp [Instr.wf] at h
  cases he
  simp (disch := omega) only [decodeEnc_13, dec13, decFA1, decFA2, bodyRR_packRR, lentG_lentOf, guard_lent, guardOk_lent, 
    extract_low, extract_high, extract_all, extract_extract, bit_low, bit_high, bit_ofBool, Nat.reduceSub, Nat.zero_add, BitVec.ofNat_eq_ofNat]
  simp [assigned, encodes, h]
theorem RoundTrip.fabs (g : Guard) (t : FTy) (d : VReg) (a : Src) : Statement (.fabs g t d a) := by
  intro e h he
  simp [Instr.wf] at h
  cases he
  simp (disch := omega) only [decodeEnc_13, dec13, decFA1, decFA2, bodyRR_packRR, lentG_lentOf, guard_lent, guardOk_lent, 
    extract_low, extract_high, extract_all, extract_extract, bit_low, bit_high, bit_ofBool, Nat.reduceSub, Nat.zero_add, BitVec.ofNat_eq_ofNat]
  simp [assigned, encodes, h]
theorem RoundTrip.fneg (g : Guard) (t : FTy) (d : VReg) (a : Src) : Statement (.fneg g t d a) := by
  intro e h he
  simp [Instr.wf] at h
  cases he
  simp (disch := omega) only [decodeEnc_13, dec13, decFA1, decFA2, bodyRR_packRR, lentG_lentOf, guard_lent, guardOk_lent, 
    extract_low, extract_high, extract_all, extract_extract, bit_low, bit_high, bit_ofBool, Nat.reduceSub, Nat.zero_add, BitVec.ofNat_eq_ofNat]
  simp [assigned, encodes, h]
theorem RoundTrip.fsetp (g : Guard) (c : FCond) (w : Width) (p : PReg) (a b : Src) : Statement (.fsetp g c w p a b) := by
  intro e h he
  simp [Instr.wf] at h
  cases he
  simp (disch := omega) only [decodeEnc_14, dec14, bodyRR_packRR, lentG_lentOf, guard_lent, guardOk_lent, 
    extract_low, extract_high, extract_all, extract_extract, bit_low, bit_high, bit_ofBool, Nat.reduceSub, Nat.zero_add, BitVec.ofNat_eq_ofNat]
  simp [assigned, encodes, h]
theorem RoundTrip.fclass (g : Guard) (t : FTy) (d : VReg) (a : Src) : Statement (.fclass g t d a) := by
  intro e h he
  simp [Instr.wf] at h
  cases he
  simp (disch := omega) only [decodeEnc_15, dec15, decFA1, bodyRR_packRR, lentG_lentOf, guard_lent, guardOk_lent, 
    extract_low, extract_high, extract_all, extract_extract, bit_low, bit_high, bit_ofBool, Nat.reduceSub, Nat.zero_add, BitVec.ofNat_eq_ofNat]
  simp [assigned, encodes, h]
theorem RoundTrip.frnd (g : Guard) (rm : FrndMode) (t : FTy) (d : VReg) (a : Src) : Statement (.frnd g rm t d a) := by
  intro e h he
  simp [Instr.wf] at h
  cases he
  simp (disch := omega) only [decodeEnc_15, dec15, decFA1, bodyRR_packRR, lentG_lentOf, guard_lent, guardOk_lent, 
    extract_low, extract_high, extract_all, extract_extract, bit_low, bit_high, bit_ofBool, Nat.reduceSub, Nat.zero_add, BitVec.ofNat_eq_ofNat]
  simp [assigned, encodes, h]
theorem RoundTrip.cvt (g : Guard) (td ts : CvtTy) (d : VReg) (a : Src) : Statement (.cvt g td ts d a) := by
  intro e h he
  simp [Instr.wf] at h
  cases he
  simp (disch := omega) only [decodeEnc_16, dec16, bodyRI_packRI, lentG_lentOf, guard_lent, guardOk_lent, 
    extract_low, extract_high, extract_all, extract_extract, bit_low, bit_high, bit_ofBool, Nat.reduceSub, Nat.zero_add, BitVec.ofNat_eq_ofNat]
  simp [assigned, encodes, h]
theorem RoundTrip.pack (g : Guard) (t : PackTy) (d : VReg) (a b : Src) : Statement (.pack g t d a b) := by
  intro e h he
  simp [Instr.wf] at h
  cases he
  simp (disch := omega) only [decodeEnc_17, dec17, bodyRR_packRR, lentG_lentOf, guard_lent, guardOk_lent, 
    extract_low, extract_high, extract_all, extract_extract, bit_low, bit_high, bit_ofBool, Nat.reduceSub, Nat.zero_add, BitVec.ofNat_eq_ofNat]
  simp [assigned, encodes, h]
theorem RoundTrip.exp2 (g : Guard) (h : Bool) (d : VReg) (a : Src) : Statement (.exp2 g h d a) := by
  intro e h he
  simp [Instr.wf] at h
  cases he
  simp (disch := omega) only [decodeEnc_18, dec18, bodyRR_packRR, lentG_lentOf, guard_lent, guardOk_lent, 
    extract_low, extract_high, extract_all, extract_extract, bit_low, bit_high, bit_ofBool, Nat.reduceSub, Nat.zero_add, BitVec.ofNat_eq_ofNat]
  simp [assigned, encodes, h]
theorem RoundTrip.log2 (g : Guard) (h : Bool) (d : VReg) (a : Src) : Statement (.log2 g h d a) := by
  intro e h he
  simp [Instr.wf] at h
  cases he
  simp (disch := omega) only [decodeEnc_18, dec18, bodyRR_packRR, lentG_lentOf, guard_lent, guardOk_lent, 
    extract_low, extract_high, extract_all, extract_extract, bit_low, bit_high, bit_ofBool, Nat.reduceSub, Nat.zero_add, BitVec.ofNat_eq_ofNat]
  simp [assigned, encodes, h]
theorem RoundTrip.rcp (g : Guard) (h : Bool) (d : VReg) (a : Src) : Statement (.rcp g h d a) := by
  intro e h he
  simp [Instr.wf] at h
  cases he
  simp (disch := omega) only [decodeEnc_18, dec18, bodyRR_packRR, lentG_lentOf, guard_lent, guardOk_lent, 
    extract_low, extract_high, extract_all, extract_extract, bit_low, bit_high, bit_ofBool, Nat.reduceSub, Nat.zero_add, BitVec.ofNat_eq_ofNat]
  simp [assigned, encodes, h]
theorem RoundTrip.rsqrt (g : Guard) (h : Bool) (d : VReg) (a : Src) : Statement (.rsqrt g h d a) := by
  intro e h he
  simp [Instr.wf] at h
  cases he
  simp (disch := omega) only [decodeEnc_18, dec18, bodyRR_packRR, lentG_lentOf, guard_lent, guardOk_lent, 
    extract_low, extract_high, extract_all, extract_extract, bit_low, bit_high, bit_ofBool, Nat.reduceSub, Nat.zero_add, BitVec.ofNat_eq_ofNat]
  simp [assigned, encodes, h]
theorem RoundTrip.tanh (g : Guard) (h : Bool) (d : VReg) (a : Src) : Statement (.tanh g h d a) := by
  intro e h he
  simp [Instr.wf] at h
  cases he
  simp (disch := omega) only [decodeEnc_18, dec18, bodyRR_packRR, lentG_lentOf, guard_lent, guardOk_lent, 
    extract_low, extract_high, extract_all, extract_extract, bit_low, bit_high, bit_ofBool, Nat.reduceSub, Nat.zero_add, BitVec.ofNat_eq_ofNat]
  simp [assigned, encodes, h]
theorem RoundTrip.logis (g : Guard) (h : Bool) (d : VReg) (a : Src) : Statement (.logis g h d a) := by
  intro e h he
  simp [Instr.wf] at h
  cases he
  simp (disch := omega) only [decodeEnc_18, dec18, bodyRR_packRR, lentG_lentOf, guard_lent, guardOk_lent, 
    extract_low, extract_high, extract_all, extract_extract, bit_low, bit_high, bit_ofBool, Nat.reduceSub, Nat.zero_add, BitVec.ofNat_eq_ofNat]
  simp [assigned, encodes, h]
theorem RoundTrip.dot4 (g : Guard) (d : VReg) (a b : Src) : Statement (.dot4 g d a b) := by
  intro e h he
  simp [Instr.wf] at h
  cases he
  simp (disch := omega) only [decodeEnc_19, dec19, bodyRR_packRR, lentG_lentOf, guard_lent, guardOk_lent, 
    extract_low, extract_high, extract_all, extract_extract, bit_low, bit_high, bit_ofBool, Nat.reduceSub, Nat.zero_add, BitVec.ofNat_eq_ofNat]
  simp [assigned, encodes, h]
theorem RoundTrip.dot8 (g : Guard) (d : VReg) (a b : Src) : Statement (.dot8 g d a b) := by
  intro e h he
  simp [Instr.wf] at h
  cases he
  simp (disch := omega) only [decodeEnc_19, dec19, bodyRR_packRR, lentG_lentOf, guard_lent, guardOk_lent, 
    extract_low, extract_high, extract_all, extract_extract, bit_low, bit_high, bit_ofBool, Nat.reduceSub, Nat.zero_add, BitVec.ofNat_eq_ofNat]
  simp [assigned, encodes, h]
theorem RoundTrip.rmax (g : Guard) (bf : Bool) (d a : VReg) (la : BitVec 4) : Statement (.rmax g bf d a la) := by
  intro e h he
  simp [Instr.wf] at h
  cases he
  simp (disch := omega) only [decodeEnc_1A, dec1A, bodyRL_packRL, lentG_lentOf, guard_lent, guardOk_lent, 
    extract_low, extract_high, extract_all, extract_extract, bit_low, bit_high, bit_ofBool, Nat.reduceSub, Nat.zero_add, BitVec.ofNat_eq_ofNat]
  simp [assigned, encodes, h]
theorem RoundTrip.rsum (g : Guard) (bf : Bool) (d a : VReg) (la : BitVec 4) : Statement (.rsum g bf d a la) := by
  intro e h he
  simp [Instr.wf] at h
  cases he
  simp (disch := omega) only [decodeEnc_1A, dec1A, bodyRL_packRL, lentG_lentOf, guard_lent, guardOk_lent, 
    extract_low, extract_high, extract_all, extract_extract, bit_low, bit_high, bit_ofBool, Nat.reduceSub, Nat.zero_add, BitVec.ofNat_eq_ofNat]
  simp [assigned, encodes, h]
theorem RoundTrip.rsumexp (g : Guard) (bf : Bool) (d a : VReg) (la : BitVec 4) : Statement (.rsumexp g bf d a la) := by
  intro e h he
  simp [Instr.wf] at h
  cases he
  simp (disch := omega) only [decodeEnc_1A, dec1A, bodyRL_packRL, lentG_lentOf, guard_lent, guardOk_lent, 
    extract_low, extract_high, extract_all, extract_extract, bit_low, bit_high, bit_ofBool, Nat.reduceSub, Nat.zero_add, BitVec.ofNat_eq_ofNat]
  simp [assigned, encodes, h]
theorem RoundTrip.rmeanvar (g : Guard) (bf : Bool) (d a : VReg) (la : BitVec 4) : Statement (.rmeanvar g bf d a la) := by
  intro e h he
  simp [Instr.wf] at h
  cases he
  simp (disch := omega) only [decodeEnc_1A, dec1A, bodyRL_packRL, lentG_lentOf, guard_lent, guardOk_lent, 
    extract_low, extract_high, extract_all, extract_extract, bit_low, bit_high, bit_ofBool, Nat.reduceSub, Nat.zero_add, BitVec.ofNat_eq_ofNat]
  simp [assigned, encodes, h]
theorem RoundTrip.rnorm (g : Guard) (d a : VReg) (la : BitVec 4) : Statement (.rnorm g d a la) := by
  intro e h he
  simp [Instr.wf] at h
  cases he
  simp (disch := omega) only [decodeEnc_1A, dec1A, bodyRL_packRL, lentG_lentOf, guard_lent, guardOk_lent, 
    extract_low, extract_high, extract_all, extract_extract, bit_low, bit_high, bit_ofBool, Nat.reduceSub, Nat.zero_add, BitVec.ofNat_eq_ofNat]
  simp [assigned, encodes, h]
theorem RoundTrip.topk (g : Guard) (bf : Bool) (d a : SReg) (la : BitVec 4) : Statement (.topk g bf d a la) := by
  intro e h he
  simp [Instr.wf] at h
  cases he
  simp (disch := omega) only [decodeEnc_1B, dec1B, bodyRL_packRL, lentG_lentOf, guard_lent, guardOk_lent, 
    extract_low, extract_high, extract_all, extract_extract, bit_low, bit_high, bit_ofBool, Nat.reduceSub, Nat.zero_add, BitVec.ofNat_eq_ofNat]
  simp [assigned, encodes, h]
theorem RoundTrip.sadd (g : Guard) (d a b : SReg) : Statement (.sadd g d a b) := by
  intro e h he
  simp [Instr.wf] at h
  cases he
  simp (disch := omega) only [decodeEnc_1C, dec1C, bodyRR_packRR, lentG_lentOf, guard_lent, guardOk_lent, 
    extract_low, extract_high, extract_all, extract_extract, bit_low, bit_high, bit_ofBool, Nat.reduceSub, Nat.zero_add, BitVec.ofNat_eq_ofNat]
  simp [assigned, encodes, h]
theorem RoundTrip.ssub (g : Guard) (d a b : SReg) : Statement (.ssub g d a b) := by
  intro e h he
  simp [Instr.wf] at h
  cases he
  simp (disch := omega) only [decodeEnc_1C, dec1C, bodyRR_packRR, lentG_lentOf, guard_lent, guardOk_lent, 
    extract_low, extract_high, extract_all, extract_extract, bit_low, bit_high, bit_ofBool, Nat.reduceSub, Nat.zero_add, BitVec.ofNat_eq_ofNat]
  simp [assigned, encodes, h]
theorem RoundTrip.smul (g : Guard) (d a b : SReg) : Statement (.smul g d a b) := by
  intro e h he
  simp [Instr.wf] at h
  cases he
  simp (disch := omega) only [decodeEnc_1C, dec1C, bodyRR_packRR, lentG_lentOf, guard_lent, guardOk_lent, 
    extract_low, extract_high, extract_all, extract_extract, bit_low, bit_high, bit_ofBool, Nat.reduceSub, Nat.zero_add, BitVec.ofNat_eq_ofNat]
  simp [assigned, encodes, h]
theorem RoundTrip.sand (g : Guard) (d a b : SReg) : Statement (.sand g d a b) := by
  intro e h he
  simp [Instr.wf] at h
  cases he
  simp (disch := omega) only [decodeEnc_1C, dec1C, bodyRR_packRR, lentG_lentOf, guard_lent, guardOk_lent, 
    extract_low, extract_high, extract_all, extract_extract, bit_low, bit_high, bit_ofBool, Nat.reduceSub, Nat.zero_add, BitVec.ofNat_eq_ofNat]
  simp [assigned, encodes, h]
theorem RoundTrip.sor (g : Guard) (d a b : SReg) : Statement (.sor g d a b) := by
  intro e h he
  simp [Instr.wf] at h
  cases he
  simp (disch := omega) only [decodeEnc_1C, dec1C, bodyRR_packRR, lentG_lentOf, guard_lent, guardOk_lent, 
    extract_low, extract_high, extract_all, extract_extract, bit_low, bit_high, bit_ofBool, Nat.reduceSub, Nat.zero_add, BitVec.ofNat_eq_ofNat]
  simp [assigned, encodes, h]
theorem RoundTrip.sxor (g : Guard) (d a b : SReg) : Statement (.sxor g d a b) := by
  intro e h he
  simp [Instr.wf] at h
  cases he
  simp (disch := omega) only [decodeEnc_1C, dec1C, bodyRR_packRR, lentG_lentOf, guard_lent, guardOk_lent, 
    extract_low, extract_high, extract_all, extract_extract, bit_low, bit_high, bit_ofBool, Nat.reduceSub, Nat.zero_add, BitVec.ofNat_eq_ofNat]
  simp [assigned, encodes, h]
theorem RoundTrip.sshl (g : Guard) (d a b : SReg) : Statement (.sshl g d a b) := by
  intro e h he
  simp [Instr.wf] at h
  cases he
  simp (disch := omega) only [decodeEnc_1C, dec1C, bodyRR_packRR, lentG_lentOf, guard_lent, guardOk_lent, 
    extract_low, extract_high, extract_all, extract_extract, bit_low, bit_high, bit_ofBool, Nat.reduceSub, Nat.zero_add, BitVec.ofNat_eq_ofNat]
  simp [assigned, encodes, h]
theorem RoundTrip.sshr (g : Guard) (arith : Bool) (d a b : SReg) : Statement (.sshr g arith d a b) := by
  intro e h he
  simp [Instr.wf] at h
  cases he
  simp (disch := omega) only [decodeEnc_1C, dec1C, bodyRR_packRR, lentG_lentOf, guard_lent, guardOk_lent, 
    extract_low, extract_high, extract_all, extract_extract, bit_low, bit_high, bit_ofBool, Nat.reduceSub, Nat.zero_add, BitVec.ofNat_eq_ofNat]
  simp [assigned, encodes, h]
theorem RoundTrip.saddi (g : Guard) (d a : SReg) (imm : BitVec 8) : Statement (.saddi g d a imm) := by
  intro e h he
  simp [Instr.wf] at h
  cases he
  simp (disch := omega) only [decodeEnc_1D, dec1D, bodyRI_packRI, lentG_lentOf, guard_lent, guardOk_lent, 
    extract_low, extract_high, extract_all, extract_extract, bit_low, bit_high, bit_ofBool, Nat.reduceSub, Nat.zero_add, BitVec.ofNat_eq_ofNat]
  simp [assigned, encodes, h]
theorem RoundTrip.smovi (g : Guard) (d : SReg) (imm : BitVec 15) : Statement (.smovi g d imm) := by
  intro e h he
  simp [Instr.wf] at h
  cases he
  simp (disch := omega) only [decodeEnc_1D, dec1D, bodyRI_packRI, lentG_lentOf, guard_lent, guardOk_lent, 
    extract_low, extract_high, extract_all, extract_extract, bit_low, bit_high, bit_ofBool, Nat.reduceSub, Nat.zero_add, BitVec.ofNat_eq_ofNat]
  simp [assigned, encodes, h]
theorem RoundTrip.slea (g : Guard) (d a : SReg) (sh : BitVec 3) : Statement (.slea g d a sh) := by
  intro e h he
  simp [Instr.wf] at h
  cases he
  simp (disch := omega) only [decodeEnc_1D, dec1D, bodyRI_packRI, lentG_lentOf, guard_lent, guardOk_lent, 
    extract_low, extract_high, extract_all, extract_extract, bit_low, bit_high, bit_ofBool, Nat.reduceSub, Nat.zero_add, BitVec.ofNat_eq_ofNat]
  simp [assigned, encodes, h]
theorem RoundTrip.ssetp (g : Guard) (c : SCond) (p : PReg) (a : SReg) (imm : BitVec 5) : Statement (.ssetp g c p a imm) := by
  intro e h he
  simp [Instr.wf] at h
  cases he
  simp (disch := omega) only [decodeEnc_1D, dec1D, bodyRI_packRI, lentG_lentOf, guard_lent, guardOk_lent, 
    extract_low, extract_high, extract_all, extract_extract, bit_low, bit_high, bit_ofBool, Nat.reduceSub, Nat.zero_add, BitVec.ofNat_eq_ofNat]
  simp [assigned, encodes, h]
theorem RoundTrip.readlane (g : Guard) (d : SReg) (a : VReg) (b : SReg) : Statement (.readlane g d a b) := by
  intro e h he
  simp [Instr.wf] at h
  cases he
  simp (disch := omega) only [decodeEnc_1E, dec1E, bodyRR_packRR, lentG_lentOf, guard_lent, guardOk_lent, 
    extract_low, extract_high, extract_all, extract_extract, bit_low, bit_high, bit_ofBool, Nat.reduceSub, Nat.zero_add, BitVec.ofNat_eq_ofNat]
  simp [assigned, encodes, h]
theorem RoundTrip.writelane (g : Guard) (d : VReg) (a b : SReg) : Statement (.writelane g d a b) := by
  intro e h he
  simp [Instr.wf] at h
  cases he
  simp (disch := omega) only [decodeEnc_1E, dec1E, bodyRR_packRR, lentG_lentOf, guard_lent, guardOk_lent, 
    extract_low, extract_high, extract_all, extract_extract, bit_low, bit_high, bit_ofBool, Nat.reduceSub, Nat.zero_add, BitVec.ofNat_eq_ofNat]
  simp [assigned, encodes, h]
theorem RoundTrip.bcast (g : Guard) (d a : VReg) (b : SReg) : Statement (.bcast g d a b) := by
  intro e h he
  simp [Instr.wf] at h
  cases he
  simp (disch := omega) only [decodeEnc_1E, dec1E, bodyRR_packRR, lentG_lentOf, guard_lent, guardOk_lent, 
    extract_low, extract_high, extract_all, extract_extract, bit_low, bit_high, bit_ofBool, Nat.reduceSub, Nat.zero_add, BitVec.ofNat_eq_ofNat]
  simp [assigned, encodes, h]
theorem RoundTrip.ld (acc : Bool) (gp : PReg) (sz : LdSize) (d : VReg) (base : SReg) (off : BitVec 6) (la : BitVec 4)
    : Statement (.ld acc gp sz d base off la) := by
  intro e h he
  simp [Instr.wf] at h
  cases he
  simp (disch := omega) only [decodeEnc_20, dec20, bodyRL_packRL, extGuard_lentMem, extLow_lentMem, extPlain_lentMem, 
    extract_low, extract_high, extract_all, extract_extract, bit_low, bit_high, bit_ofBool, Nat.reduceSub, Nat.zero_add, BitVec.ofNat_eq_ofNat]
  simp [assigned, encodes, h]
theorem RoundTrip.ldStrong (gp : PReg) (acq : Bool) (w : Width) (sc : Scope) (d : VReg) (base : SReg) (la : BitVec 4)
    : Statement (.ldStrong gp acq w sc d base la) := by
  intro e h he
  cases he
  cases acq <;> cases w <;> cases sc <;> simp [dec20, assigned, encodes, accLoadOk] <;> rfl
theorem RoundTrip.ldBx (acc : Bool) (gp : PReg) (w : Width) (d : VReg) (base : SReg) (la : BitVec 4)
    : Statement (.ldBx acc gp w d base la) := by
  intro e h he
  simp [Instr.wf] at h
  cases he
  simp (disch := omega) only [decodeEnc_20, dec20, bodyRL_packRL, extGuard_lentMem, extLow_lentMem, extPlain_lentMem, 
    extract_low, extract_high, extract_all, extract_extract, bit_low, bit_high, bit_ofBool, Nat.reduceSub, Nat.zero_add, BitVec.ofNat_eq_ofNat]
  simp [assigned, encodes, h]
theorem RoundTrip.ldBfx (acc : Bool) (gp : PReg) (k : BitVec 2) (d : VReg) (base : SReg) (la : BitVec 4)
    : Statement (.ldBfx acc gp k d base la) := by
  intro e h he
  simp [Instr.wf] at h
  cases he
  simp (disch := omega) only [decodeEnc_20, dec20, bodyRL_packRL, extGuard_lentMem, extLow_lentMem, extPlain_lentMem, extract_low,
    extract_high, extract_all, extract_extract, Nat.reduceSub, Nat.zero_add, BitVec.ofNat_eq_ofNat]
  have h2 : (12#4 ++ k)[2] = false := by revert k; decide
  have h3 : (12#4 ++ k)[3] = false := by revert k; decide
  simp [assigned, encodes, h, h2, h3]
theorem RoundTrip.st (gp : PReg) (sz : StSize) (d : VReg) (base : SReg) (off : BitVec 6) : Statement (.st gp sz d base off) := by
  intro e h he
  simp [Instr.wf] at h
  cases he
  simp (disch := omega) only [decodeEnc_21, dec21, bodyRL_packRL, extGuard_lentMem, extLow_lentMem, extPlain_lentMem, 
    extract_low, extract_high, extract_all, extract_extract, bit_low, bit_high, bit_ofBool, Nat.reduceSub, Nat.zero_add, BitVec.ofNat_eq_ofNat]
  simp [assigned, encodes, h]
theorem RoundTrip.stStrong (gp : PReg) (rel : Bool) (w : Width) (sc : Scope) (d : VReg) (base : SReg)
    : Statement (.stStrong gp rel w sc d base) := by
  intro e h he
  simp [Instr.wf] at h
  cases he
  simp (disch := omega) only [decodeEnc_21, dec21, bodyRL_packRL, extGuard_lentMem, extLow_lentMem, extPlain_lentMem, 
    extract_low, extract_high, extract_all, extract_extract, bit_low, bit_high, bit_ofBool, Nat.reduceSub, Nat.zero_add, BitVec.ofNat_eq_ofNat]
  simp [assigned, encodes, h]
theorem RoundTrip.lds (acc : Bool) (gp : PReg) (sz : LdSize) (d : VReg) (base : SReg) (off : BitVec 6) (la : BitVec 4)
    : Statement (.lds acc gp sz d base off la) := by
  intro e h he
  simp [Instr.wf] at h
  cases he
  simp (disch := omega) only [decodeEnc_22, dec22, bodyRL_packRL, extGuard_lentMem, extLow_lentMem, extPlain_lentMem, 
    extract_low, extract_high, extract_all, extract_extract, bit_low, bit_high, bit_ofBool, Nat.reduceSub, Nat.zero_add, BitVec.ofNat_eq_ofNat]
  simp [assigned, encodes, h]
theorem RoundTrip.sts (gp : PReg) (sz : StSize) (d : VReg) (base : SReg) (off : BitVec 6) : Statement (.sts gp sz d base off) := by
  intro e h he
  simp [Instr.wf] at h
  cases he
  simp (disch := omega) only [decodeEnc_23, dec23, bodyRL_packRL, extGuard_lentMem, extLow_lentMem, extPlain_lentMem, 
    extract_low, extract_high, extract_all, extract_extract, bit_low, bit_high, bit_ofBool, Nat.reduceSub, Nat.zero_add, BitVec.ofNat_eq_ofNat]
  simp [assigned, encodes, h]
theorem RoundTrip.prefL1 (acc : Bool) (gp : PReg) (base : SReg) (off : BitVec 6) : Statement (.prefL1 acc gp base off) := by
  intro e h he
  simp [Instr.wf] at h
  cases he
  simp (disch := omega) only [decodeEnc_24, dec24, bodyRL_packRL, extGuard_lentMem, extLow_lentMem, extPlain_lentMem, 
    extract_low, extract_high, extract_all, extract_extract, bit_low, bit_high, bit_ofBool, Nat.reduceSub, Nat.zero_add, BitVec.ofNat_eq_ofNat]
  simp [assigned, encodes, h]
theorem RoundTrip.prefL2 (acc : Bool) (gp : PReg) (base : SReg) (off : BitVec 6) : Statement (.prefL2 acc gp base off) := by
  intro e h he
  simp [Instr.wf] at h
  cases he
  simp (disch := omega) only [decodeEnc_24, dec24, bodyRL_packRL, extGuard_lentMem, extLow_lentMem, extPlain_lentMem, 
    extract_low, extract_high, extract_all, extract_extract, bit_low, bit_high, bit_ofBool, Nat.reduceSub, Nat.zero_add, BitVec.ofNat_eq_ofNat]
  simp [assigned, encodes, h]
theorem RoundTrip.qpop (gp : PReg) (w : Width) (d : VReg) (k : BitVec 4) (la : BitVec 4) : Statement (.qpop gp w d k la) := by
  intro e h he
  simp [Instr.wf] at h
  cases he
  simp (disch := omega) only [decodeEnc_24, dec24, bodyRL_packRL, extGuard_lentMem, extLow_lentMem, extPlain_lentMem, 
    extract_low, extract_high, extract_all, extract_extract, bit_low, bit_high, bit_ofBool, Nat.reduceSub, Nat.zero_add, BitVec.ofNat_eq_ofNat]
  simp [assigned, encodes, h]
theorem RoundTrip.fenceAcq (g : Guard) (sc : Scope) : Statement (.fenceAcq g sc) := by
  intro e h he
  simp [Instr.wf] at h
  cases he
  simp (disch := omega) only [decodeEnc_25, dec25, bodyRU_packRU, lentG_lentOf, guard_lent, guardOk_lent, 
    extract_low, extract_high, extract_all, extract_extract, bit_low, bit_high, bit_ofBool, Nat.reduceSub, Nat.zero_add, BitVec.ofNat_eq_ofNat]
  simp [assigned, encodes, h]
theorem RoundTrip.fenceRel (g : Guard) (sc : Scope) : Statement (.fenceRel g sc) := by
  intro e h he
  simp [Instr.wf] at h
  cases he
  simp (disch := omega) only [decodeEnc_25, dec25, bodyRU_packRU, lentG_lentOf, guard_lent, guardOk_lent, 
    extract_low, extract_high, extract_all, extract_extract, bit_low, bit_high, bit_ofBool, Nat.reduceSub, Nat.zero_add, BitVec.ofNat_eq_ofNat]
  simp [assigned, encodes, h]
theorem RoundTrip.fenceAr (g : Guard) (sc : Scope) : Statement (.fenceAr g sc) := by
  intro e h he
  simp [Instr.wf] at h
  cases he
  simp (disch := omega) only [decodeEnc_25, dec25, bodyRU_packRU, lentG_lentOf, guard_lent, guardOk_lent, 
    extract_low, extract_high, extract_all, extract_extract, bit_low, bit_high, bit_ofBool, Nat.reduceSub, Nat.zero_add, BitVec.ofNat_eq_ofNat]
  simp [assigned, encodes, h]
theorem RoundTrip.spfence (g : Guard) : Statement (.spfence g) := by
  intro e h he
  simp [Instr.wf] at h
  cases he
  simp (disch := omega) only [decodeEnc_25, dec25, bodyRU_packRU, lentG_lentOf, guard_lent, guardOk_lent, 
    extract_low, extract_high, extract_all, extract_extract, bit_low, bit_high, bit_ofBool, Nat.reduceSub, Nat.zero_add, BitVec.ofNat_eq_ofNat]
  simp [assigned, encodes, h]
theorem RoundTrip.atom (gp : PReg) (op : AtomOp) (ord : AtomOrd) (sc : Scope) (d : VReg) (base : SReg) (la : BitVec 4)
    : Statement (.atom gp op ord sc d base la) := by
  intro e h he
  simp [Instr.wf] at h
  cases he
  simp (disch := omega) only [decodeEnc_26, dec26, bodyRL_packRL, extGuard_lentMem, extLow_lentMem, extPlain_lentMem, 
    extract_low, extract_high, extract_all, extract_extract, bit_low, bit_high, bit_ofBool, Nat.reduceSub, Nat.zero_add, BitVec.ofNat_eq_ofNat]
  simp [assigned, encodes, h]
theorem RoundTrip.red (gp : PReg) (op : AtomOp) (rel : Bool) (sc : Scope) (d : VReg) (base : SReg)
    : Statement (.red gp op rel sc d base) := by
  intro e h he
  simp [Instr.wf] at h
  cases he
  simp (disch := omega) only [decodeEnc_27, dec27, bodyRL_packRL, extGuard_lentMem, extLow_lentMem, extPlain_lentMem, 
    extract_low, extract_high, extract_all, extract_extract, bit_low, bit_high, bit_ofBool, Nat.reduceSub, Nat.zero_add, BitVec.ofNat_eq_ofNat]
  simp [assigned, encodes, h]
theorem RoundTrip.copy (g : Guard) (d : VReg) (a b : Src) : Statement (.copy g d a b) := by
  intro e h he
  simp [Instr.wf] at h
  cases he
  simp (disch := omega) only [decodeEnc_28, dec28, bodyRR_packRR, lentG_lentOf, guard_lent, guardOk_lent, 
    extract_low, extract_high, extract_all, extract_extract, bit_low, bit_high, bit_ofBool, Nat.reduceSub, Nat.zero_add, BitVec.ofNat_eq_ofNat]
  simp [assigned, encodes, h]
theorem RoundTrip.copy2d (g : Guard) (d : VReg) (a b : Src) : Statement (.copy2d g d a b) := by
  intro e h he
  simp [Instr.wf] at h
  cases he
  simp (disch := omega) only [decodeEnc_28, dec28, bodyRR_packRR, lentG_lentOf, guard_lent, guardOk_lent, 
    extract_low, extract_high, extract_all, extract_extract, bit_low, bit_high, bit_ofBool, Nat.reduceSub, Nat.zero_add, BitVec.ofNat_eq_ofNat]
  simp [assigned, encodes, h]
theorem RoundTrip.seal (g : Guard) (d : SReg) : Statement (.seal g d) := by
  intro e h he
  simp [Instr.wf] at h
  cases he
  simp (disch := omega) only [decodeEnc_29, dec29, bodyRR_packRR, lentG_lentOf, guard_lent, guardOk_lent, 
    extract_low, extract_high, extract_all, extract_extract, bit_low, bit_high, bit_ofBool, Nat.reduceSub, Nat.zero_add, BitVec.ofNat_eq_ofNat]
  simp [assigned, encodes, h]
theorem RoundTrip.waitb (g : Guard) (a : SReg) : Statement (.waitb g a) := by
  intro e h he
  simp [Instr.wf] at h
  cases he
  simp (disch := omega) only [decodeEnc_29, dec29, bodyRR_packRR, lentG_lentOf, guard_lent, guardOk_lent, 
    extract_low, extract_high, extract_all, extract_extract, bit_low, bit_high, bit_ofBool, Nat.reduceSub, Nat.zero_add, BitVec.ofNat_eq_ofNat]
  simp [assigned, encodes, h]
theorem RoundTrip.testb (g : Guard) (d a : SReg) : Statement (.testb g d a) := by
  intro e h he
  simp [Instr.wf] at h
  cases he
  simp (disch := omega) only [decodeEnc_29, dec29, bodyRR_packRR, lentG_lentOf, guard_lent, guardOk_lent, 
    extract_low, extract_high, extract_all, extract_extract, bit_low, bit_high, bit_ofBool, Nat.reduceSub, Nat.zero_add, BitVec.ofNat_eq_ofNat]
  simp [assigned, encodes, h]
theorem RoundTrip.bitld (acc : Bool) (g : Guard) (t : BitVec 2) (a b : Src) : Statement (.bitld acc g t a b) := by
  intro e h he
  simp [Instr.wf] at h
  cases he
  simp (disch := omega) only [decodeEnc_2A, dec2A, bodyRR_packRR, lentG_lentOf, guard_lent, guardOk_lent, 
    extract_low, extract_high, extract_all, extract_extract, bit_low, bit_high, bit_ofBool, Nat.reduceSub, Nat.zero_add, BitVec.ofNat_eq_ofNat]
  simp [assigned, encodes, h]
theorem RoundTrip.bitldPitch (acc : Bool) (g : Guard) (t : BitVec 2) (b : Src) : Statement (.bitldPitch acc g t b) := by
  intro e h he
  simp [Instr.wf] at h
  cases he
  simp (disch := omega) only [decodeEnc_2A, dec2A, bodyRR_packRR, lentG_lentOf, guard_lent, guardOk_lent, 
    extract_low, extract_high, extract_all, extract_extract, bit_low, bit_high, bit_ofBool, Nat.reduceSub, Nat.zero_add, BitVec.ofNat_eq_ofNat]
  simp [assigned, encodes, h]
theorem RoundTrip.bitsw (acc : Bool) (g : Guard) (t : BitVec 2) : Statement (.bitsw acc g t) := by
  intro e h he
  simp [Instr.wf] at h
  cases he
  simp (disch := omega) only [decodeEnc_2A, dec2A, bodyRR_packRR, lentG_lentOf, guard_lent, guardOk_lent, 
    extract_low, extract_high, extract_all, extract_extract, bit_low, bit_high, bit_ofBool, Nat.reduceSub, Nat.zero_add, BitVec.ofNat_eq_ofNat]
  simp [assigned, encodes, h]
theorem RoundTrip.trap (g : Guard) (n : BitVec 15) : Statement (.trap g n) := by
  intro e h he
  simp [Instr.wf] at h
  cases he
  simp (disch := omega) only [decodeEnc_2B, dec2B, bodyRU_packRU, lentG_lentOf, guard_lent, guardOk_lent, 
    extract_low, extract_high, extract_all, extract_extract, bit_low, bit_high, bit_ofBool, Nat.reduceSub, Nat.zero_add, BitVec.ofNat_eq_ofNat]
  simp [assigned, encodes, h]
theorem RoundTrip.brk (g : Guard) (n : BitVec 15) : Statement (.brk g n) := by
  intro e h he
  simp [Instr.wf] at h
  cases he
  simp (disch := omega) only [decodeEnc_2B, dec2B, bodyRU_packRU, lentG_lentOf, guard_lent, guardOk_lent, 
    extract_low, extract_high, extract_all, extract_extract, bit_low, bit_high, bit_ofBool, Nat.reduceSub, Nat.zero_add, BitVec.ofNat_eq_ofNat]
  simp [assigned, encodes, h]
theorem RoundTrip.chkerr (clr : Bool) (d : SReg) : Statement (.chkerr clr d) := by
  intro e h he
  simp [Instr.wf] at h
  cases he
  simp (disch := omega) only [decodeEnc_2B, dec2B, bodyRU_packRU, lentG_lentOf, guard_lent, guardOk_lent, 
    extract_low, extract_high, extract_all, extract_extract, bit_low, bit_high, bit_ofBool, Nat.reduceSub, Nat.zero_add, BitVec.ofNat_eq_ofNat]
  simp [assigned, encodes, h]
theorem RoundTrip.shfl (g : Guard) (m : ShMode) (w : Width) (d a : VReg) (b : Src) : Statement (.shfl g m w d a b) := by
  intro e h he
  simp [Instr.wf] at h
  cases he
  simp (disch := omega) only [decodeEnc_2C, dec2C, bodyRR_packRR, lentG_lentOf, guard_lent, guardOk_lent, 
    extract_low, extract_high, extract_all, extract_extract, bit_low, bit_high, bit_ofBool, Nat.reduceSub, Nat.zero_add, BitVec.ofNat_eq_ofNat]
  simp [assigned, encodes, h]
theorem RoundTrip.compress (g : Guard) (d a : VReg) (p : PReg) : Statement (.compress g d a p) := by
  intro e h he
  simp [Instr.wf] at h
  cases he
  simp (disch := omega) only [decodeEnc_2D, dec2D, bodyRR_packRR, lentG_lentOf, guard_lent, guardOk_lent, 
    extract_low, extract_high, extract_all, extract_extract, bit_low, bit_high, bit_ofBool, Nat.reduceSub, Nat.zero_add, BitVec.ofNat_eq_ofNat]
  simp [assigned, encodes, h]
theorem RoundTrip.expand (g : Guard) (d a : VReg) (p : PReg) : Statement (.expand g d a p) := by
  intro e h he
  simp [Instr.wf] at h
  cases he
  simp (disch := omega) only [decodeEnc_2D, dec2D, bodyRR_packRR, lentG_lentOf, guard_lent, guardOk_lent, 
    extract_low, extract_high, extract_all, extract_extract, bit_low, bit_high, bit_ofBool, Nat.reduceSub, Nat.zero_add, BitVec.ofNat_eq_ofNat]
  simp [assigned, encodes, h]
theorem RoundTrip.slideup (g : Guard) (d a : VReg) (b : SReg) : Statement (.slideup g d a b) := by
  intro e h he
  simp [Instr.wf] at h
  cases he
  simp (disch := omega) only [decodeEnc_2D, dec2D, bodyRR_packRR, lentG_lentOf, guard_lent, guardOk_lent, 
    extract_low, extract_high, extract_all, extract_extract, bit_low, bit_high, bit_ofBool, Nat.reduceSub, Nat.zero_add, BitVec.ofNat_eq_ofNat]
  simp [assigned, encodes, h]
theorem RoundTrip.slidedn (g : Guard) (d a : VReg) (b : SReg) : Statement (.slidedn g d a b) := by
  intro e h he
  simp [Instr.wf] at h
  cases he
  simp (disch := omega) only [decodeEnc_2D, dec2D, bodyRR_packRR, lentG_lentOf, guard_lent, guardOk_lent, 
    extract_low, extract_high, extract_all, extract_extract, bit_low, bit_high, bit_ofBool, Nat.reduceSub, Nat.zero_add, BitVec.ofNat_eq_ofNat]
  simp [assigned, encodes, h]
theorem RoundTrip.voteAny (g : Guard) (p q : PReg) : Statement (.voteAny g p q) := by
  intro e h he
  simp [Instr.wf] at h
  cases he
  simp (disch := omega) only [decodeEnc_2E, dec2E, bodyRR_packRR, lentG_lentOf, guard_lent, guardOk_lent, 
    extract_low, extract_high, extract_all, extract_extract, bit_low, bit_high, bit_ofBool, Nat.reduceSub, Nat.zero_add, BitVec.ofNat_eq_ofNat]
  simp [assigned, encodes, h]
theorem RoundTrip.voteAll (g : Guard) (p q : PReg) : Statement (.voteAll g p q) := by
  intro e h he
  simp [Instr.wf] at h
  cases he
  simp (disch := omega) only [decodeEnc_2E, dec2E, bodyRR_packRR, lentG_lentOf, guard_lent, guardOk_lent, 
    extract_low, extract_high, extract_all, extract_extract, bit_low, bit_high, bit_ofBool, Nat.reduceSub, Nat.zero_add, BitVec.ofNat_eq_ofNat]
  simp [assigned, encodes, h]
theorem RoundTrip.voteBallot (g : Guard) (d : SReg) (q : PReg) : Statement (.voteBallot g d q) := by
  intro e h he
  simp [Instr.wf] at h
  cases he
  simp (disch := omega) only [decodeEnc_2E, dec2E, bodyRR_packRR, lentG_lentOf, guard_lent, guardOk_lent, 
    extract_low, extract_high, extract_all, extract_extract, bit_low, bit_high, bit_ofBool, Nat.reduceSub, Nat.zero_add, BitVec.ofNat_eq_ofNat]
  simp [assigned, encodes, h]
theorem RoundTrip.reduxAdd (g : Guard) (d : SReg) (a : VReg) : Statement (.reduxAdd g d a) := by
  intro e h he
  simp [Instr.wf] at h
  cases he
  simp (disch := omega) only [decodeEnc_2E, dec2E, bodyRR_packRR, lentG_lentOf, guard_lent, guardOk_lent, 
    extract_low, extract_high, extract_all, extract_extract, bit_low, bit_high, bit_ofBool, Nat.reduceSub, Nat.zero_add, BitVec.ofNat_eq_ofNat]
  simp [assigned, encodes, h]
theorem RoundTrip.reduxMin (g : Guard) (un : Bool) (d : SReg) (a : VReg) : Statement (.reduxMin g un d a) := by
  intro e h he
  simp [Instr.wf] at h
  cases he
  simp (disch := omega) only [decodeEnc_2E, dec2E, bodyRR_packRR, lentG_lentOf, guard_lent, guardOk_lent, 
    extract_low, extract_high, extract_all, extract_extract, bit_low, bit_high, bit_ofBool, Nat.reduceSub, Nat.zero_add, BitVec.ofNat_eq_ofNat]
  simp [assigned, encodes, h]
theorem RoundTrip.reduxMax (g : Guard) (un : Bool) (d : SReg) (a : VReg) : Statement (.reduxMax g un d a) := by
  intro e h he
  simp [Instr.wf] at h
  cases he
  simp (disch := omega) only [decodeEnc_2E, dec2E, bodyRR_packRR, lentG_lentOf, guard_lent, guardOk_lent, 
    extract_low, extract_high, extract_all, extract_extract, bit_low, bit_high, bit_ofBool, Nat.reduceSub, Nat.zero_add, BitVec.ofNat_eq_ofNat]
  simp [assigned, encodes, h]
theorem RoundTrip.reduxAnd (g : Guard) (d : SReg) (a : VReg) : Statement (.reduxAnd g d a) := by
  intro e h he
  simp [Instr.wf] at h
  cases he
  simp (disch := omega) only [decodeEnc_2E, dec2E, bodyRR_packRR, lentG_lentOf, guard_lent, guardOk_lent, 
    extract_low, extract_high, extract_all, extract_extract, bit_low, bit_high, bit_ofBool, Nat.reduceSub, Nat.zero_add, BitVec.ofNat_eq_ofNat]
  simp [assigned, encodes, h]
theorem RoundTrip.reduxOr (g : Guard) (d : SReg) (a : VReg) : Statement (.reduxOr g d a) := by
  intro e h he
  simp [Instr.wf] at h
  cases he
  simp (disch := omega) only [decodeEnc_2E, dec2E, bodyRR_packRR, lentG_lentOf, guard_lent, guardOk_lent, 
    extract_low, extract_high, extract_all, extract_extract, bit_low, bit_high, bit_ofBool, Nat.reduceSub, Nat.zero_add, BitVec.ofNat_eq_ofNat]
  simp [assigned, encodes, h]
theorem RoundTrip.rdsr (d : SReg) (n : SpecReg) : Statement (.rdsr d n) := by
  intro e h he
  simp [Instr.wf] at h
  cases he
  simp (disch := omega) only [decodeEnc_2F, dec2F, bodyRI_packRI, lentG_lentOf, guard_lent, guardOk_lent, 
    extract_low, extract_high, extract_all, extract_extract, bit_low, bit_high, bit_ofBool, Nat.reduceSub, Nat.zero_add, BitVec.ofNat_eq_ofNat]
  simp [assigned, encodes, h]
theorem RoundTrip.wrsr (d : SReg) (a : SReg) (n : SpecReg) : Statement (.wrsr d a n) := by
  intro e h he
  have hd : (n.perCore || sField d == 0) = true := by
    revert h
    cases n <;> simp [Instr.wf, SpecReg.perCore] <;> intro h <;> subst h <;> rfl
  cases he
  simp (disch := omega) only [decodeEnc_2F, dec2F, bodyRI_packRI, extract_low, extract_high, extract_all, Nat.reduceSub,
    BitVec.ofNat_eq_ofNat]
  simp [assigned, encodes]
  intro hp
  simpa [hp] using hd
theorem RoundTrip.csave (d a : SReg) : Statement (.csave d a) := by
  intro e h he
  simp [Instr.wf] at h
  cases he
  simp (disch := omega) only [decodeEnc_2F, dec2F, bodyRI_packRI, lentG_lentOf, guard_lent, guardOk_lent, 
    extract_low, extract_high, extract_all, extract_extract, bit_low, bit_high, bit_ofBool, Nat.reduceSub, Nat.zero_add, BitVec.ofNat_eq_ofNat]
  simp [assigned, encodes, h]
theorem RoundTrip.crestore (d a : SReg) : Statement (.crestore d a) := by
  intro e h he
  simp [Instr.wf] at h
  cases he
  simp (disch := omega) only [decodeEnc_2F, dec2F, bodyRI_packRI, lentG_lentOf, guard_lent, guardOk_lent, 
    extract_low, extract_high, extract_all, extract_extract, bit_low, bit_high, bit_ofBool, Nat.reduceSub, Nat.zero_add, BitVec.ofNat_eq_ofNat]
  simp [assigned, encodes, h]
theorem RoundTrip.corectlStatus (d a : SReg) : Statement (.corectlStatus d a) := by
  intro e h he
  simp [Instr.wf] at h
  cases he
  simp (disch := omega) only [decodeEnc_2F, dec2F, bodyRI_packRI, lentG_lentOf, guard_lent, guardOk_lent, 
    extract_low, extract_high, extract_all, extract_extract, bit_low, bit_high, bit_ofBool, Nat.reduceSub, Nat.zero_add, BitVec.ofNat_eq_ofNat]
  simp [assigned, encodes, h]
theorem RoundTrip.corectlDrain (d a : SReg) : Statement (.corectlDrain d a) := by
  intro e h he
  simp [Instr.wf] at h
  cases he
  simp (disch := omega) only [decodeEnc_2F, dec2F, bodyRI_packRI, lentG_lentOf, guard_lent, guardOk_lent, 
    extract_low, extract_high, extract_all, extract_extract, bit_low, bit_high, bit_ofBool, Nat.reduceSub, Nat.zero_add, BitVec.ofNat_eq_ofNat]
  simp [assigned, encodes, h]
theorem RoundTrip.corectlAdmit (d a : SReg) : Statement (.corectlAdmit d a) := by
  intro e h he
  simp [Instr.wf] at h
  cases he
  simp (disch := omega) only [decodeEnc_2F, dec2F, bodyRI_packRI, lentG_lentOf, guard_lent, guardOk_lent, 
    extract_low, extract_high, extract_all, extract_extract, bit_low, bit_high, bit_ofBool, Nat.reduceSub, Nat.zero_add, BitVec.ofNat_eq_ofNat]
  simp [assigned, encodes, h]
theorem RoundTrip.corectlStop (d a : SReg) : Statement (.corectlStop d a) := by
  intro e h he
  simp [Instr.wf] at h
  cases he
  simp (disch := omega) only [decodeEnc_2F, dec2F, bodyRI_packRI, lentG_lentOf, guard_lent, guardOk_lent, 
    extract_low, extract_high, extract_all, extract_extract, bit_low, bit_high, bit_ofBool, Nat.reduceSub, Nat.zero_add, BitVec.ofNat_eq_ofNat]
  simp [assigned, encodes, h]
theorem RoundTrip.corectlResume (d a : SReg) : Statement (.corectlResume d a) := by
  intro e h he
  simp [Instr.wf] at h
  cases he
  simp (disch := omega) only [decodeEnc_2F, dec2F, bodyRI_packRI, lentG_lentOf, guard_lent, guardOk_lent, 
    extract_low, extract_high, extract_all, extract_extract, bit_low, bit_high, bit_ofBool, Nat.reduceSub, Nat.zero_add, BitVec.ofNat_eq_ofNat]
  simp [assigned, encodes, h]
theorem RoundTrip.scan (d a : SReg) : Statement (.scan d a) := by
  intro e h he
  simp [Instr.wf] at h
  cases he
  simp (disch := omega) only [decodeEnc_2F, dec2F, bodyRI_packRI, lentG_lentOf, guard_lent, guardOk_lent, 
    extract_low, extract_high, extract_all, extract_extract, bit_low, bit_high, bit_ofBool, Nat.reduceSub, Nat.zero_add, BitVec.ofNat_eq_ofNat]
  simp [assigned, encodes, h]
theorem RoundTrip.scanrd (d a : SReg) : Statement (.scanrd d a) := by
  intro e h he
  simp [Instr.wf] at h
  cases he
  simp (disch := omega) only [decodeEnc_2F, dec2F, bodyRI_packRI, lentG_lentOf, guard_lent, guardOk_lent, 
    extract_low, extract_high, extract_all, extract_extract, bit_low, bit_high, bit_ofBool, Nat.reduceSub, Nat.zero_add, BitVec.ofNat_eq_ofNat]
  simp [assigned, encodes, h]
theorem RoundTrip.scanab (a : SReg) : Statement (.scanab a) := by
  intro e h he
  simp [Instr.wf] at h
  cases he
  simp (disch := omega) only [decodeEnc_2F, dec2F, bodyRI_packRI, lentG_lentOf, guard_lent, guardOk_lent, 
    extract_low, extract_high, extract_all, extract_extract, bit_low, bit_high, bit_ofBool, Nat.reduceSub, Nat.zero_add, BitVec.ofNat_eq_ofNat]
  simp [assigned, encodes, h]
theorem RoundTrip.cmapw (d a : SReg) : Statement (.cmapw d a) := by
  intro e h he
  simp [Instr.wf] at h
  cases he
  simp (disch := omega) only [decodeEnc_2F, dec2F, bodyRI_packRI, lentG_lentOf, guard_lent, guardOk_lent, 
    extract_low, extract_high, extract_all, extract_extract, bit_low, bit_high, bit_ofBool, Nat.reduceSub, Nat.zero_add, BitVec.ofNat_eq_ofNat]
  simp [assigned, encodes, h]
theorem RoundTrip.mgnrd (d a : SReg) (w : BitVec 6) : Statement (.mgnrd d a w) := by
  intro e h he
  simp [Instr.wf] at h
  cases he
  simp (disch := omega) only [decodeEnc_2F, dec2F, bodyRI_packRI, lentG_lentOf, guard_lent, guardOk_lent, 
    extract_low, extract_high, extract_all, extract_extract, bit_low, bit_high, bit_ofBool, Nat.reduceSub, Nat.zero_add, BitVec.ofNat_eq_ofNat]
  simp [assigned, encodes, h]
theorem RoundTrip.bra (acc : Bool) (p : PReg) (neg : Bool) (off : BitVec 20) : Statement (.bra acc p neg off) := by
  intro e h he
  simp [Instr.wf] at h
  cases he
  cases neg <;> simp [dec30, encodes, b1] at h ⊢ <;> exact h
theorem RoundTrip.jmp (acc : Bool) (a : SReg) : Statement (.jmp acc a) := by
  intro e h he
  simp [Instr.wf] at h
  cases he
  simp (disch := omega) only [decodeEnc_31, dec31, bodyRR_packRR, lentG_lentOf, guard_lent, guardOk_lent, 
    extract_low, extract_high, extract_all, extract_extract, bit_low, bit_high, bit_ofBool, Nat.reduceSub, Nat.zero_add, BitVec.ofNat_eq_ofNat]
  simp [assigned, encodes, h]
theorem RoundTrip.call (acc : Bool) (d a : SReg) : Statement (.call acc d a) := by
  intro e h he
  simp [Instr.wf] at h
  cases he
  simp (disch := omega) only [decodeEnc_31, dec31, bodyRR_packRR, lentG_lentOf, guard_lent, guardOk_lent, 
    extract_low, extract_high, extract_all, extract_extract, bit_low, bit_high, bit_ofBool, Nat.reduceSub, Nat.zero_add, BitVec.ofNat_eq_ofNat]
  simp [assigned, encodes, h]
theorem RoundTrip.ret (acc : Bool) (a : SReg) : Statement (.ret acc a) := by
  intro e h he
  simp [Instr.wf] at h
  cases he
  simp (disch := omega) only [decodeEnc_31, dec31, bodyRR_packRR, lentG_lentOf, guard_lent, guardOk_lent, 
    extract_low, extract_high, extract_all, extract_extract, bit_low, bit_high, bit_ofBool, Nat.reduceSub, Nat.zero_add, BitVec.ofNat_eq_ofNat]
  simp [assigned, encodes, h]
theorem RoundTrip.brx (acc : Bool) (a : VReg) : Statement (.brx acc a) := by
  intro e h he
  simp [Instr.wf] at h
  cases he
  simp (disch := omega) only [decodeEnc_31, dec31, bodyRR_packRR, lentG_lentOf, guard_lent, guardOk_lent, 
    extract_low, extract_high, extract_all, extract_extract, bit_low, bit_high, bit_ofBool, Nat.reduceSub, Nat.zero_add, BitVec.ofNat_eq_ofNat]
  simp [assigned, encodes, h]
theorem RoundTrip.exit (acc : Bool) : Statement (.exit acc) := by
  intro e h he
  simp [Instr.wf] at h
  cases he
  simp (disch := omega) only [decodeEnc_31, dec31, bodyRR_packRR, lentG_lentOf, guard_lent, guardOk_lent, 
    extract_low, extract_high, extract_all, extract_extract, bit_low, bit_high, bit_ofBool, Nat.reduceSub, Nat.zero_add, BitVec.ofNat_eq_ofNat]
  simp [assigned, encodes, h]
theorem RoundTrip.regang (m : BitVec 16) : Statement (.regang m) := by
  intro e h he
  simp [Instr.wf] at h
  cases he
  simp (disch := omega) only [decodeEnc_32, dec32, bodyRU_packRU, lentG_lentOf, guard_lent, guardOk_lent, 
    extract_low, extract_high, extract_all, extract_extract, bit_low, bit_high, bit_ofBool, Nat.reduceSub, Nat.zero_add, BitVec.ofNat_eq_ofNat]
  simp [assigned, encodes, h]
theorem RoundTrip.cont (g : Guard) (np : BitVec 3) (a : SReg) (b : VReg) : Statement (.cont g np a b) := by
  intro e h he
  simp [Instr.wf] at h
  cases he
  simp (disch := omega) only [decodeEnc_33, dec33, bodyRR_packRR, lentG_lentOf, guard_lent, guardOk_lent, 
    extract_low, extract_high, extract_all, extract_extract, bit_low, bit_high, bit_ofBool, Nat.reduceSub, Nat.zero_add, BitVec.ofNat_eq_ofNat]
  simp [assigned, encodes, h]
theorem RoundTrip.contf (g : Guard) : Statement (.contf g) := by
  intro e h he
  simp [Instr.wf] at h
  cases he
  simp (disch := omega) only [decodeEnc_33, dec33, bodyRR_packRR, lentG_lentOf, guard_lent, guardOk_lent, 
    extract_low, extract_high, extract_all, extract_extract, bit_low, bit_high, bit_ofBool, Nat.reduceSub, Nat.zero_add, BitVec.ofNat_eq_ofNat]
  simp [assigned, encodes, h]
theorem RoundTrip.barInit (b : BitVec 7) (a : SReg) : Statement (.barInit b a) := by
  intro e h he
  simp [Instr.wf] at h
  cases he
  simp (disch := omega) only [decodeEnc_34, dec34, bodyRI_packRI, lentG_lentOf, guard_lent, guardOk_lent, 
    extract_low, extract_high, extract_all, extract_extract, bit_low, bit_high, bit_ofBool, Nat.reduceSub, Nat.zero_add, BitVec.ofNat_eq_ofNat]
  simp [assigned, encodes, h]
theorem RoundTrip.barArrive (b : BitVec 7) : Statement (.barArrive b) := by
  intro e h he
  simp [Instr.wf] at h
  cases he
  simp (disch := omega) only [decodeEnc_34, dec34, bodyRI_packRI, lentG_lentOf, guard_lent, guardOk_lent, 
    extract_low, extract_high, extract_all, extract_extract, bit_low, bit_high, bit_ofBool, Nat.reduceSub, Nat.zero_add, BitVec.ofNat_eq_ofNat]
  simp [assigned, encodes, h]
theorem RoundTrip.barWait (b : BitVec 7) : Statement (.barWait b) := by
  intro e h he
  simp [Instr.wf] at h
  cases he
  simp (disch := omega) only [decodeEnc_34, dec34, bodyRI_packRI, lentG_lentOf, guard_lent, guardOk_lent, 
    extract_low, extract_high, extract_all, extract_extract, bit_low, bit_high, bit_ofBool, Nat.reduceSub, Nat.zero_add, BitVec.ofNat_eq_ofNat]
  simp [assigned, encodes, h]
theorem RoundTrip.barSync (b : BitVec 7) : Statement (.barSync b) := by
  intro e h he
  simp [Instr.wf] at h
  cases he
  simp (disch := omega) only [decodeEnc_34, dec34, bodyRI_packRI, lentG_lentOf, guard_lent, guardOk_lent, 
    extract_low, extract_high, extract_all, extract_extract, bit_low, bit_high, bit_ofBool, Nat.reduceSub, Nat.zero_add, BitVec.ofNat_eq_ofNat]
  simp [assigned, encodes, h]
theorem RoundTrip.locq (g : Guard) (d : SReg) : Statement (.locq g d) := by
  intro e h he
  simp [Instr.wf] at h
  cases he
  simp (disch := omega) only [decodeEnc_35, dec35, bodyRR_packRR, lentG_lentOf, guard_lent, guardOk_lent, 
    extract_low, extract_high, extract_all, extract_extract, bit_low, bit_high, bit_ofBool, Nat.reduceSub, Nat.zero_add, BitVec.ofNat_eq_ofNat]
  simp [assigned, encodes, h]
theorem RoundTrip.locqAddr (g : Guard) (d a : VReg) : Statement (.locqAddr g d a) := by
  intro e h he
  simp [Instr.wf] at h
  cases he
  simp (disch := omega) only [decodeEnc_35, dec35, bodyRR_packRR, lentG_lentOf, guard_lent, guardOk_lent, 
    extract_low, extract_high, extract_all, extract_extract, bit_low, bit_high, bit_ofBool, Nat.reduceSub, Nat.zero_add, BitVec.ofNat_eq_ofNat]
  simp [assigned, encodes, h]
theorem RoundTrip.give (t : TReg) (byReg : Bool) (n : BitVec 6) : Statement (.give t byReg n) := by
  intro e h he
  simp [Instr.wf] at h
  cases he
  simp (disch := omega) only [decodeEnc_36, dec36, bodyT_packT, lentG_lentOf, guard_lent, guardOk_lent, FieldsT.fn4, FieldsT.v, 
    extract_low, extract_high, extract_all, extract_extract, bit_low, bit_high, bit_ofBool, Nat.reduceSub, Nat.zero_add, BitVec.ofNat_eq_ofNat]
  simp [assigned, encodes, h]
theorem RoundTrip.giveSeq (t : TReg) : Statement (.giveSeq t) := by
  intro e h he
  simp [Instr.wf] at h
  cases he
  simp (disch := omega) only [decodeEnc_36, dec36, bodyT_packT, lentG_lentOf, guard_lent, guardOk_lent, FieldsT.fn4, FieldsT.v, 
    extract_low, extract_high, extract_all, extract_extract, bit_low, bit_high, bit_ofBool, Nat.reduceSub, Nat.zero_add, BitVec.ofNat_eq_ofNat]
  simp [assigned, encodes, h]
theorem RoundTrip.take (t : TReg) : Statement (.take t) := by
  intro e h he
  simp [Instr.wf] at h
  cases he
  simp (disch := omega) only [decodeEnc_36, dec36, bodyT_packT, lentG_lentOf, guard_lent, guardOk_lent, FieldsT.fn4, FieldsT.v, 
    extract_low, extract_high, extract_all, extract_extract, bit_low, bit_high, bit_ofBool, Nat.reduceSub, Nat.zero_add, BitVec.ofNat_eq_ofNat]
  simp [assigned, encodes, h]
theorem RoundTrip.seqgo (a : SReg) : Statement (.seqgo a) := by
  intro e h he
  simp [Instr.wf] at h
  cases he
  simp (disch := omega) only [decodeEnc_36, dec36, bodyT_packT, lentG_lentOf, guard_lent, guardOk_lent, FieldsT.fn4, FieldsT.v, 
    extract_low, extract_high, extract_all, extract_extract, bit_low, bit_high, bit_ofBool, Nat.reduceSub, Nat.zero_add, BitVec.ofNat_eq_ofNat]
  simp [assigned, encodes, h]
theorem RoundTrip.setshape (g : Guard) (a : SReg) : Statement (.setshape g a) := by
  intro e h he
  simp [Instr.wf] at h
  cases he
  simp (disch := omega) only [decodeEnc_37, dec37, bodyT_packT, lentG_lentOf, guard_lent, guardOk_lent, FieldsT.fn4, FieldsT.v, 
    extract_low, extract_high, extract_all, extract_extract, bit_low, bit_high, bit_ofBool, Nat.reduceSub, Nat.zero_add, BitVec.ofNat_eq_ofNat]
  simp [assigned, encodes, h]
theorem RoundTrip.tcfg (g : Guard) (t : TReg) : Statement (.tcfg g t) := by
  intro e h he
  simp [Instr.wf] at h
  cases he
  simp (disch := omega) only [decodeEnc_37, dec37, bodyT_packT, lentG_lentOf, guard_lent, guardOk_lent, FieldsT.fn4, FieldsT.v, 
    extract_low, extract_high, extract_all, extract_extract, bit_low, bit_high, bit_ofBool, Nat.reduceSub, Nat.zero_add, BitVec.ofNat_eq_ofNat]
  simp [assigned, encodes, h]
theorem RoundTrip.tfree (g : Guard) (t : TReg) : Statement (.tfree g t) := by
  intro e h he
  simp [Instr.wf] at h
  cases he
  simp (disch := omega) only [decodeEnc_37, dec37, bodyT_packT, lentG_lentOf, guard_lent, guardOk_lent, FieldsT.fn4, FieldsT.v, 
    extract_low, extract_high, extract_all, extract_extract, bit_low, bit_high, bit_ofBool, Nat.reduceSub, Nat.zero_add, BitVec.ofNat_eq_ofNat]
  simp [assigned, encodes, h]
theorem RoundTrip.tzero (g : Guard) (t : TReg) : Statement (.tzero g t) := by
  intro e h he
  simp [Instr.wf] at h
  cases he
  simp (disch := omega) only [decodeEnc_37, dec37, bodyT_packT, lentG_lentOf, guard_lent, guardOk_lent, FieldsT.fn4, FieldsT.v, 
    extract_low, extract_high, extract_all, extract_extract, bit_low, bit_high, bit_ofBool, Nat.reduceSub, Nat.zero_add, BitVec.ofNat_eq_ofNat]
  simp [assigned, encodes, h]
theorem RoundTrip.tadd (g : Guard) (t : TTy) (d : TReg) (a b : TSrc) : Statement (.tadd g t d a b) := by
  intro e h he
  simp [Instr.wf] at h
  cases he
  simp (disch := omega) only [decodeEnc_38, dec38, bodyT_packT, lentG_lentOf, guard_lent, guardOk_lent, FieldsT.fn4, FieldsT.v, 
    extract_low, extract_high, extract_all, extract_extract, bit_low, bit_high, bit_ofBool, Nat.reduceSub, Nat.zero_add, BitVec.ofNat_eq_ofNat]
  simp [assigned, encodes, h]
theorem RoundTrip.tmul (g : Guard) (t : TTy) (d : TReg) (a b : TSrc) : Statement (.tmul g t d a b) := by
  intro e h he
  simp [Instr.wf] at h
  cases he
  simp (disch := omega) only [decodeEnc_38, dec38, bodyT_packT, lentG_lentOf, guard_lent, guardOk_lent, FieldsT.fn4, FieldsT.v, 
    extract_low, extract_high, extract_all, extract_extract, bit_low, bit_high, bit_ofBool, Nat.reduceSub, Nat.zero_add, BitVec.ofNat_eq_ofNat]
  simp [assigned, encodes, h]
theorem RoundTrip.tfma (g : Guard) (t : TTy) (d : TReg) (a b : TSrc) : Statement (.tfma g t d a b) := by
  intro e h he
  simp [Instr.wf] at h
  cases he
  simp (disch := omega) only [decodeEnc_38, dec38, bodyT_packT, lentG_lentOf, guard_lent, guardOk_lent, FieldsT.fn4, FieldsT.v, 
    extract_low, extract_high, extract_all, extract_extract, bit_low, bit_high, bit_ofBool, Nat.reduceSub, Nat.zero_add, BitVec.ofNat_eq_ofNat]
  simp [assigned, encodes, h]
theorem RoundTrip.tmax (g : Guard) (t : TTy) (d : TReg) (a b : TSrc) : Statement (.tmax g t d a b) := by
  intro e h he
  simp [Instr.wf] at h
  cases he
  simp (disch := omega) only [decodeEnc_38, dec38, bodyT_packT, lentG_lentOf, guard_lent, guardOk_lent, FieldsT.fn4, FieldsT.v, 
    extract_low, extract_high, extract_all, extract_extract, bit_low, bit_high, bit_ofBool, Nat.reduceSub, Nat.zero_add, BitVec.ofNat_eq_ofNat]
  simp [assigned, encodes, h]
theorem RoundTrip.tmin (g : Guard) (t : TTy) (d : TReg) (a b : TSrc) : Statement (.tmin g t d a b) := by
  intro e h he
  simp [Instr.wf] at h
  cases he
  simp (disch := omega) only [decodeEnc_38, dec38, bodyT_packT, lentG_lentOf, guard_lent, guardOk_lent, FieldsT.fn4, FieldsT.v, 
    extract_low, extract_high, extract_all, extract_extract, bit_low, bit_high, bit_ofBool, Nat.reduceSub, Nat.zero_add, BitVec.ofNat_eq_ofNat]
  simp [assigned, encodes, h]
theorem RoundTrip.tcvt (g : Guard) (dst : TCvtTy) (src : TTy) (d : TReg) (a : TSrc) : Statement (.tcvt g dst src d a) := by
  intro e h he
  simp [Instr.wf] at h
  cases he
  simp (disch := omega) only [decodeEnc_39, dec39, bodyT_packT, lentG_lentOf, guard_lent, guardOk_lent, FieldsT.fn4, FieldsT.v, 
    extract_low, extract_high, extract_all, extract_extract, bit_low, bit_high, bit_ofBool, Nat.reduceSub, Nat.zero_add, BitVec.ofNat_eq_ofNat]
  simp [assigned, encodes, h]
theorem RoundTrip.tact (g : Guard) (logis : Bool) (d a : TReg) : Statement (.tact g logis d a) := by
  intro e h he
  simp [Instr.wf] at h
  cases he
  have h1 : ((0 : BitVec 4) ++ b1 logis ++ (1 : BitVec 1)).getLsbD 0 = true := by cases logis <;> rfl
  have h2 : ((0 : BitVec 4) ++ b1 logis ++ (1 : BitVec 1)).extractLsb' 4 2 = 0 := by cases logis <;> rfl
  have h3 : (((0 : BitVec 4) ++ b1 logis ++ (1 : BitVec 1)).extractLsb' 1 3).getLsbD 0 = logis := by cases logis <;> rfl
  have h4 : (((0 : BitVec 4) ++ b1 logis ++ (1 : BitVec 1)).extractLsb' 1 3).extractLsb' 1 2 = 0 := by cases logis <;> rfl
  generalize (0 : BitVec 4) ++ b1 logis ++ (1 : BitVec 1) = z at h1 h2 h3 h4 ⊢
  simp only [decodeEnc_39, dec39, bodyT_packT, lentG_lentOf, guard_lent, guardOk_lent, h1, h2, h3, h4, BitVec.ofNat_eq_ofNat]
  simp [assigned, encodes, h, h1, h2, h3, h4]
theorem RoundTrip.rvmul (g : Guard) (d : VReg) (a : Src) (b : SReg) : Statement (.rvmul g d a b) := by
  intro e h he
  simp [Instr.wf] at h
  cases he
  simp (disch := omega) only [decodeEnc_3A, dec3A, bodyRR_packRR, lentG_lentOf, guard_lent, guardOk_lent, 
    extract_low, extract_high, extract_all, extract_extract, bit_low, bit_high, bit_ofBool, Nat.reduceSub, Nat.zero_add, BitVec.ofNat_eq_ofNat]
  simp [assigned, encodes, h]
theorem RoundTrip.unmul (g : Guard) (d : VReg) (a : Src) (b : SReg) : Statement (.unmul g d a b) := by
  intro e h he
  simp [Instr.wf] at h
  cases he
  simp (disch := omega) only [decodeEnc_3A, dec3A, bodyRR_packRR, lentG_lentOf, guard_lent, guardOk_lent, 
    extract_low, extract_high, extract_all, extract_extract, bit_low, bit_high, bit_ofBool, Nat.reduceSub, Nat.zero_add, BitVec.ofNat_eq_ofNat]
  simp [assigned, encodes, h]
theorem RoundTrip.rvshr (g : Guard) (d : VReg) (a : Src) (b : SReg) : Statement (.rvshr g d a b) := by
  intro e h he
  simp [Instr.wf] at h
  cases he
  simp (disch := omega) only [decodeEnc_3A, dec3A, bodyRR_packRR, lentG_lentOf, guard_lent, guardOk_lent, 
    extract_low, extract_high, extract_all, extract_extract, bit_low, bit_high, bit_ofBool, Nat.reduceSub, Nat.zero_add, BitVec.ofNat_eq_ofNat]
  simp [assigned, encodes, h]
theorem RoundTrip.unshr (g : Guard) (d : VReg) (a : Src) (b : SReg) : Statement (.unshr g d a b) := by
  intro e h he
  simp [Instr.wf] at h
  cases he
  simp (disch := omega) only [decodeEnc_3A, dec3A, bodyRR_packRR, lentG_lentOf, guard_lent, guardOk_lent, 
    extract_low, extract_high, extract_all, extract_extract, bit_low, bit_high, bit_ofBool, Nat.reduceSub, Nat.zero_add, BitVec.ofNat_eq_ofNat]
  simp [assigned, encodes, h]
theorem RoundTrip.rvnarBf16 (g : Guard) (d : VReg) (a : Src) : Statement (.rvnarBf16 g d a) := by
  intro e h he
  simp [Instr.wf] at h
  cases he
  simp (disch := omega) only [decodeEnc_3A, dec3A, bodyRR_packRR, lentG_lentOf, guard_lent, guardOk_lent, 
    extract_low, extract_high, extract_all, extract_extract, bit_low, bit_high, bit_ofBool, Nat.reduceSub, Nat.zero_add, BitVec.ofNat_eq_ofNat]
  simp [assigned, encodes, h]
theorem RoundTrip.unnarBf16 (g : Guard) (d : VReg) (a : Src) : Statement (.unnarBf16 g d a) := by
  intro e h he
  simp [Instr.wf] at h
  cases he
  simp (disch := omega) only [decodeEnc_3A, dec3A, bodyRR_packRR, lentG_lentOf, guard_lent, guardOk_lent, 
    extract_low, extract_high, extract_all, extract_extract, bit_low, bit_high, bit_ofBool, Nat.reduceSub, Nat.zero_add, BitVec.ofNat_eq_ofNat]
  simp [assigned, encodes, h]
theorem RoundTrip.rvnarI16 (g : Guard) (d : VReg) (a : Src) : Statement (.rvnarI16 g d a) := by
  intro e h he
  simp [Instr.wf] at h
  cases he
  simp (disch := omega) only [decodeEnc_3A, dec3A, bodyRR_packRR, lentG_lentOf, guard_lent, guardOk_lent, 
    extract_low, extract_high, extract_all, extract_extract, bit_low, bit_high, bit_ofBool, Nat.reduceSub, Nat.zero_add, BitVec.ofNat_eq_ofNat]
  simp [assigned, encodes, h]
theorem RoundTrip.unnarI16 (g : Guard) (d : VReg) (a : Src) : Statement (.unnarI16 g d a) := by
  intro e h he
  simp [Instr.wf] at h
  cases he
  simp (disch := omega) only [decodeEnc_3A, dec3A, bodyRR_packRR, lentG_lentOf, guard_lent, guardOk_lent, 
    extract_low, extract_high, extract_all, extract_extract, bit_low, bit_high, bit_ofBool, Nat.reduceSub, Nat.zero_add, BitVec.ofNat_eq_ofNat]
  simp [assigned, encodes, h]
theorem RoundTrip.rvadd (g : Guard) (d : VReg) (a b : Src) : Statement (.rvadd g d a b) := by
  intro e h he
  simp [Instr.wf] at h
  cases he
  simp (disch := omega) only [decodeEnc_3A, dec3A, bodyRR_packRR, lentG_lentOf, guard_lent, guardOk_lent, 
    extract_low, extract_high, extract_all, extract_extract, bit_low, bit_high, bit_ofBool, Nat.reduceSub, Nat.zero_add, BitVec.ofNat_eq_ofNat]
  simp [assigned, encodes, h]
theorem RoundTrip.unadd (g : Guard) (d : VReg) (a b : Src) : Statement (.unadd g d a b) := by
  intro e h he
  simp [Instr.wf] at h
  cases he
  simp (disch := omega) only [decodeEnc_3A, dec3A, bodyRR_packRR, lentG_lentOf, guard_lent, guardOk_lent, 
    extract_low, extract_high, extract_all, extract_extract, bit_low, bit_high, bit_ofBool, Nat.reduceSub, Nat.zero_add, BitVec.ofNat_eq_ofNat]
  simp [assigned, encodes, h]
theorem RoundTrip.rvmark (m : BitVec 16) : Statement (.rvmark m) := by
  intro e h he
  simp [Instr.wf] at h
  cases he
  simp (disch := omega) only [decodeEnc_3B, dec3B, bodyRU_packRU, lentG_lentOf, guard_lent, guardOk_lent, 
    extract_low, extract_high, extract_all, extract_extract, bit_low, bit_high, bit_ofBool, Nat.reduceSub, Nat.zero_add, BitVec.ofNat_eq_ofNat]
  simp [assigned, encodes, h]
theorem RoundTrip.unmark (m : BitVec 16) : Statement (.unmark m) := by
  intro e h he
  simp [Instr.wf] at h
  cases he
  simp (disch := omega) only [decodeEnc_3B, dec3B, bodyRU_packRU, lentG_lentOf, guard_lent, guardOk_lent, 
    extract_low, extract_high, extract_all, extract_extract, bit_low, bit_high, bit_ofBool, Nat.reduceSub, Nat.zero_add, BitVec.ofNat_eq_ofNat]
  simp [assigned, encodes, h]
theorem RoundTrip.rsdepth (d : SReg) : Statement (.rsdepth d) := by
  intro e h he
  simp [Instr.wf] at h
  cases he
  simp (disch := omega) only [decodeEnc_3B, dec3B, bodyRU_packRU, lentG_lentOf, guard_lent, guardOk_lent, 
    extract_low, extract_high, extract_all, extract_extract, bit_low, bit_high, bit_ofBool, Nat.reduceSub, Nat.zero_add, BitVec.ofNat_eq_ofNat]
  simp [assigned, encodes, h]
theorem RoundTrip.tld (td : TReg) (h : BitVec 4) (n : BitVec 2) : Statement (.tld td h n) := by
  intro e h he
  simp [Instr.wf] at h
  cases he
  simp (disch := omega) only [decodeEnc_3C, dec3C, bodyT_packT, lentG_lentOf, guard_lent, guardOk_lent, FieldsT.fn4, FieldsT.v, 
    extract_low, extract_high, extract_all, extract_extract, bit_low, bit_high, bit_ofBool, Nat.reduceSub, Nat.zero_add, BitVec.ofNat_eq_ofNat]
  simp [assigned, encodes, h]
theorem RoundTrip.tldTr (td : TReg) (h : BitVec 4) (e32 : Bool) (n : BitVec 2) : Statement (.tldTr td h e32 n) := by
  intro e h he
  simp [Instr.wf] at h
  cases he
  simp (disch := omega) only [decodeEnc_3C, dec3C, bodyT_packT, lentG_lentOf, guard_lent, guardOk_lent, FieldsT.fn4, FieldsT.v, 
    extract_low, extract_high, extract_all, extract_extract, bit_low, bit_high, bit_ofBool, Nat.reduceSub, Nat.zero_add, BitVec.ofNat_eq_ofNat]
  simp [assigned, encodes, h]
theorem RoundTrip.tst (h : BitVec 4) (ta : TReg) (n : BitVec 2) : Statement (.tst h ta n) := by
  intro e h he
  simp [Instr.wf] at h
  cases he
  simp (disch := omega) only [decodeEnc_3C, dec3C, bodyT_packT, lentG_lentOf, guard_lent, guardOk_lent, FieldsT.fn4, FieldsT.v, 
    extract_low, extract_high, extract_all, extract_extract, bit_low, bit_high, bit_ofBool, Nat.reduceSub, Nat.zero_add, BitVec.ofNat_eq_ofNat]
  simp [assigned, encodes, h]
theorem RoundTrip.sgather (td : TReg) (h : BitVec 3) : Statement (.sgather td h) := by
  intro e h he
  simp [Instr.wf] at h
  cases he
  simp (disch := omega) only [decodeEnc_3C, dec3C, bodyT_packT, lentG_lentOf, guard_lent, guardOk_lent, FieldsT.fn4, FieldsT.v, 
    extract_low, extract_high, extract_all, extract_extract, bit_low, bit_high, bit_ofBool, Nat.reduceSub, Nat.zero_add, BitVec.ofNat_eq_ofNat]
  simp [assigned, encodes, h]
theorem RoundTrip.mma (ty : MmaTy) (acc co : Bool) (m n : MmaDim) (td : TReg) (a b : MSrc)
    : Statement (.mma ty acc co m n td a b) := by
  intro e h he
  cases he
  simp (disch := omega) only [decodeEnc_3D, dec3D, bodyT_packT, FieldsT.fn4, FieldsT.v, extract_low, extract_high, extract_all,
    Nat.reduceSub, BitVec.ofNat_eq_ofNat, toMmaTy_code, bit_low, bit_high, bit_ofBool, mmaExt_plain, mmaExt_acc, mmaExt_co,
    mmaExt_m, mmaExt_n, mSrcOk_field, toMSrc_field, encodes, Bool.and_self, if_true]
  cases ty <;> rfl
theorem RoundTrip.segh (cyc : BitVec 24) (sig : BitVec 32) : Statement (.segh cyc sig) := by
  intro e h he
  cases he
  simp (disch := omega) only [decodeEnc, decSegh, extract_low, extract_high, extract_all, Nat.reduceSub, cyc_parts, sig_parts]
  simp [encodes]
  rfl
theorem RoundTrip.sloop (n : BitVec 12) : Statement (.sloop n) := by
  intro e h he
  simp [Instr.wf] at h
  cases he
  simp (disch := omega) only [decodeEnc_3E, dec3E, bodyT_packT, lentG_lentOf, guard_lent, guardOk_lent, FieldsT.fn4, FieldsT.v, 
    extract_low, extract_high, extract_all, extract_extract, bit_low, bit_high, bit_ofBool, Nat.reduceSub, Nat.zero_add, BitVec.ofNat_eq_ofNat]
  simp [assigned, encodes, h]
theorem RoundTrip.sloopReg (k : BitVec 5) : Statement (.sloopReg k) := by
  intro e h he
  simp [Instr.wf] at h
  cases he
  simp (disch := omega) only [decodeEnc_3E, dec3E, bodyT_packT, lentG_lentOf, guard_lent, guardOk_lent, FieldsT.fn4, FieldsT.v, 
    extract_low, extract_high, extract_all, extract_extract, bit_low, bit_high, bit_ofBool, Nat.reduceSub, Nat.zero_add, BitVec.ofNat_eq_ofNat]
  simp [assigned, encodes, h]
theorem RoundTrip.saddr (x2048 : Bool) (d a : BitVec 5) (imm : BitVec 6) : Statement (.saddr x2048 d a imm) := by
  intro e h he
  simp [Instr.wf] at h
  cases he
  simp (disch := omega) only [decodeEnc_3E, dec3E, bodyT_packT, lentG_lentOf, guard_lent, guardOk_lent, FieldsT.fn4, FieldsT.v, 
    extract_low, extract_high, extract_all, extract_extract, bit_low, bit_high, bit_ofBool, Nat.reduceSub, Nat.zero_add, BitVec.ofNat_eq_ofNat]
  simp [assigned, encodes, h]
theorem RoundTrip.swaitb (n : BitVec 6) (k : BitVec 5) : Statement (.swaitb n k) := by
  intro e h he
  simp [Instr.wf] at h
  cases he
  simp (disch := omega) only [decodeEnc_3E, dec3E, bodyT_packT, lentG_lentOf, guard_lent, guardOk_lent, FieldsT.fn4, FieldsT.v, 
    extract_low, extract_high, extract_all, extract_extract, bit_low, bit_high, bit_ofBool, Nat.reduceSub, Nat.zero_add, BitVec.ofNat_eq_ofNat]
  simp [assigned, encodes, h]
theorem RoundTrip.sbarArrive (b : BitVec 7) : Statement (.sbarArrive b) := by
  intro e h he
  simp [Instr.wf] at h
  cases he
  simp (disch := omega) only [decodeEnc_3E, dec3E, bodyT_packT, lentG_lentOf, guard_lent, guardOk_lent, FieldsT.fn4, FieldsT.v, 
    extract_low, extract_high, extract_all, extract_extract, bit_low, bit_high, bit_ofBool, Nat.reduceSub, Nat.zero_add, BitVec.ofNat_eq_ofNat]
  simp [assigned, encodes, h]
theorem RoundTrip.sbarSync (b : BitVec 7) : Statement (.sbarSync b) := by
  intro e h he
  simp [Instr.wf] at h
  cases he
  simp (disch := omega) only [decodeEnc_3E, dec3E, bodyT_packT, lentG_lentOf, guard_lent, guardOk_lent, FieldsT.fn4, FieldsT.v, 
    extract_low, extract_high, extract_all, extract_extract, bit_low, bit_high, bit_ofBool, Nat.reduceSub, Nat.zero_add, BitVec.ofNat_eq_ofNat]
  simp [assigned, encodes, h]
theorem RoundTrip.seqGive (t : TReg) (n : BitVec 6) : Statement (.seqGive t n) := by
  intro e h he
  simp [Instr.wf] at h
  cases he
  simp (disch := omega) only [decodeEnc_3E, dec3E, bodyT_packT, lentG_lentOf, guard_lent, guardOk_lent, FieldsT.fn4, FieldsT.v, 
    extract_low, extract_high, extract_all, extract_extract, bit_low, bit_high, bit_ofBool, Nat.reduceSub, Nat.zero_add, BitVec.ofNat_eq_ofNat]
  simp [assigned, encodes, h]
theorem RoundTrip.seqTake (t : TReg) : Statement (.seqTake t) := by
  intro e h he
  simp [Instr.wf] at h
  cases he
  simp (disch := omega) only [decodeEnc_3E, dec3E, bodyT_packT, lentG_lentOf, guard_lent, guardOk_lent, FieldsT.fn4, FieldsT.v, 
    extract_low, extract_high, extract_all, extract_extract, bit_low, bit_high, bit_ofBool, Nat.reduceSub, Nat.zero_add, BitVec.ofNat_eq_ofNat]
  simp [assigned, encodes, h]
theorem RoundTrip.topkStart (core : Nat) : Statement (.topkStart core) := nofun
theorem RoundTrip.qpopComplete (core slot slice : Nat) : Statement (.qpopComplete core slot slice) := nofun
theorem RoundTrip.piccoloLoadIssue (core slot : Nat) : Statement (.piccoloLoadIssue core slot) := nofun
theorem RoundTrip.piccoloBranchEval (core slot : Nat) : Statement (.piccoloBranchEval core slot) := nofun
theorem RoundTrip.fenceWaitComplete (core slot slice : Nat) : Statement (.fenceWaitComplete core slot slice) := nofun
theorem RoundTrip.copyBatchComplete (core slot copy : Nat) (err : Option (BitVec 2))
    : Statement (.copyBatchComplete core slot copy err) := nofun
theorem RoundTrip.csaveComplete (core slot : Nat) : Statement (.csaveComplete core slot) := nofun
theorem RoundTrip.crestoreComplete (core slot : Nat) : Statement (.crestoreComplete core slot) := nofun
theorem RoundTrip.scanabTakeEffect (core : Nat) : Statement (.scanabTakeEffect core) := nofun
theorem RoundTrip.scanClearComplete (core : Nat) : Statement (.scanClearComplete core) := nofun
theorem RoundTrip.contRecordAccept (core slot slice : Nat) : Statement (.contRecordAccept core slot slice) := nofun
theorem RoundTrip.giveTransit (core slot slice : Nat) : Statement (.giveTransit core slot slice) := nofun
theorem RoundTrip.takeComplete (core slot slice : Nat) : Statement (.takeComplete core slot slice) := nofun
theorem RoundTrip.seqgoStart (core slot slice : Nat) : Statement (.seqgoStart core slot slice) := nofun
theorem RoundTrip.mmaCoRendezvous (cluster : Nat) : Statement (.mmaCoRendezvous cluster) := nofun
theorem RoundTrip.swaitbComplete (core : Nat) : Statement (.swaitbComplete core) := nofun
theorem RoundTrip.seqIdle (core : Nat) : Statement (.seqIdle core) := nofun
theorem RoundTrip.longLatencyLanding (core slot id : Nat) : Statement (.longLatencyLanding core slot id) := nofun
theorem RoundTrip.sleepExpiry (core slot slice : Nat) : Statement (.sleepExpiry core slot slice) := nofun
theorem RoundTrip.activeSetHoldExpiry (core slot : Nat) : Statement (.activeSetHoldExpiry core slot) := nofun
theorem RoundTrip.blockedWarpRemoval (core slot : Nat) : Statement (.blockedWarpRemoval core slot) := nofun
theorem RoundTrip.siblingSkidEnd (core slot : Nat) : Statement (.siblingSkidEnd core slot) := nofun
theorem RoundTrip.seqHaltDrainEnd (core : Nat) : Statement (.seqHaltDrainEnd core) := nofun
theorem RoundTrip.trapRecordWrite (team : Nat) : Statement (.trapRecordWrite team) := nofun
theorem RoundTrip.quarantineCarryOut (core : Nat) : Statement (.quarantineCarryOut core) := nofun
theorem RoundTrip.replayWindowStart (core : Nat) : Statement (.replayWindowStart core) := nofun
theorem RoundTrip.pipePatternTestStart (core : Nat) : Statement (.pipePatternTestStart core) := nofun
theorem RoundTrip.warpRollback (core slot : Nat) : Statement (.warpRollback core slot) := nofun
theorem RoundTrip.launchRecordParse (w : Nat) : Statement (.launchRecordParse w) := nofun
theorem RoundTrip.nodeStart (w : Nat) : Statement (.nodeStart w) := nofun
theorem RoundTrip.hostTransferComplete (w k : Nat) (err : Option (BitVec 2)) : Statement (.hostTransferComplete w k err) := nofun
theorem RoundTrip.teamPlace (grid core : Nat) : Statement (.teamPlace grid core) := nofun
theorem RoundTrip.boundaryMoveComplete (core : Nat) : Statement (.boundaryMoveComplete core) := nofun
theorem RoundTrip.spadZeroComplete (core : Nat) : Statement (.spadZeroComplete core) := nofun
theorem RoundTrip.lightPreemptMark (w : Nat) : Statement (.lightPreemptMark w) := nofun
theorem RoundTrip.preemptDeadlineExpiry (w : Nat) : Statement (.preemptDeadlineExpiry w) := nofun
theorem RoundTrip.streamResume (w : Nat) : Statement (.streamResume w) := nofun
theorem RoundTrip.towerFenced (t : Nat) : Statement (.towerFenced t) := nofun
theorem RoundTrip.towerUp (t : Nat) : Statement (.towerUp t) := nofun
theorem RoundTrip.bridgeWakeStart (t b : Nat) : Statement (.bridgeWakeStart t b) := nofun
theorem RoundTrip.bridgeAwake (t b : Nat) : Statement (.bridgeAwake t b) := nofun
theorem RoundTrip.towerDead (t : Nat) : Statement (.towerDead t) := nofun
theorem RoundTrip.pageGrant (page : Nat) : Statement (.pageGrant page) := nofun
theorem RoundTrip.storePerformed (id : Nat) (late : List Nat) : Statement (.storePerformed id late) := nofun
theorem RoundTrip.registerWrite (off : Nat) (v : DWord) : Statement (.registerWrite off v) := nofun
theorem RoundTrip.hostCxlAccess (pa : Nat) (wr : Option (List Byte)) (n : Nat) : Statement (.hostCxlAccess pa wr n) := nofun
theorem RoundTrip.region : Statement (.region) := by
  intro e h he
  simp [Instr.wf] at h
  cases he
  simp (disch := omega) only [decodeEnc_2B, dec2B, bodyRU_packRU, lentG_lentOf, guard_lent, guardOk_lent, 
    extract_low, extract_high, extract_all, extract_extract, bit_low, bit_high, bit_ofBool, Nat.reduceSub, Nat.zero_add, BitVec.ofNat_eq_ofNat]
  simp [assigned, encodes, h]
theorem RoundTrip.rspill : Statement (.rspill) := by
  intro e h he
  simp [Instr.wf] at h
  cases he
  simp (disch := omega) only [decodeEnc_3B, dec3B, bodyRU_packRU, lentG_lentOf, guard_lent, guardOk_lent, 
    extract_low, extract_high, extract_all, extract_extract, bit_low, bit_high, bit_ofBool, Nat.reduceSub, Nat.zero_add, BitVec.ofNat_eq_ofNat]
  simp [assigned, encodes, h]
theorem RoundTrip.rsfill : Statement (.rsfill) := by
  intro e h he
  simp [Instr.wf] at h
  cases he
  simp (disch := omega) only [decodeEnc_3B, dec3B, bodyRU_packRU, lentG_lentOf, guard_lent, guardOk_lent, 
    extract_low, extract_high, extract_all, extract_extract, bit_low, bit_high, bit_ofBool, Nat.reduceSub, Nat.zero_add, BitVec.ofNat_eq_ofNat]
  simp [assigned, encodes, h]
theorem RoundTrip.sege : Statement (.sege) := by
  intro e h he
  simp [Instr.wf] at h
  cases he
  simp (disch := omega) only [decodeEnc_3E, dec3E, bodyT_packT, lentG_lentOf, guard_lent, guardOk_lent, FieldsT.fn4, FieldsT.v, 
    extract_low, extract_high, extract_all, extract_extract, bit_low, bit_high, bit_ofBool, Nat.reduceSub, Nat.zero_add, BitVec.ofNat_eq_ofNat]
  simp [assigned, encodes, h]
theorem RoundTrip.slend : Statement (.slend) := by
  intro e h he
  simp [Instr.wf] at h
  cases he
  simp (disch := omega) only [decodeEnc_3E, dec3E, bodyT_packT, lentG_lentOf, guard_lent, guardOk_lent, FieldsT.fn4, FieldsT.v, 
    extract_low, extract_high, extract_all, extract_extract, bit_low, bit_high, bit_ofBool, Nat.reduceSub, Nat.zero_add, BitVec.ofNat_eq_ofNat]
  simp [assigned, encodes, h]
theorem RoundTrip.shalt : Statement (.shalt) := by
  intro e h he
  simp [Instr.wf] at h
  cases he
  simp (disch := omega) only [decodeEnc_3E, dec3E, bodyT_packT, lentG_lentOf, guard_lent, guardOk_lent, FieldsT.fn4, FieldsT.v, 
    extract_low, extract_high, extract_all, extract_extract, bit_low, bit_high, bit_ofBool, Nat.reduceSub, Nat.zero_add, BitVec.ofNat_eq_ofNat]
  simp [assigned, encodes, h]
theorem RoundTrip.scanPatternsEnd (core : Nat) (sig : DWord) : Statement (.scanPatternsEnd core sig) := nofun
theorem RoundTrip.gatherOverflowReadback : Statement (.gatherOverflowReadback) := nofun
theorem RoundTrip.seqReadDone (core : Nat) : Statement (.seqReadDone core) := nofun
theorem RoundTrip.seqWriteLanding (core : Nat) : Statement (.seqWriteLanding core) := nofun
theorem RoundTrip.shawmReplay (core slot : Nat) (slice : Option Nat) (second : Bool) : Statement (.shawmReplay core slot slice second) := nofun
theorem RoundTrip.escalationSettled (core : Nat) : Statement (.escalationSettled core) := nofun
theorem RoundTrip.selfTestComplete (core : Nat) (r : TestResult) : Statement (.selfTestComplete core r) := nofun
theorem RoundTrip.bankRebuilt (core : Nat) (ua : Bool) (bank : Nat) (pass : Bool) : Statement (.bankRebuilt core ua bank pass) := nofun
theorem RoundTrip.stopWalk (grid : Nat) : Statement (.stopWalk grid) := nofun
theorem RoundTrip.lwinWrite (w : Nat) (v : DWord) : Statement (.lwinWrite w v) := nofun
theorem RoundTrip.tlbinvStart (v : DWord) : Statement (.tlbinvStart v) := nofun
theorem RoundTrip.tlbinvComplete : Statement (.tlbinvComplete) := nofun
theorem RoundTrip.tcmdResume (v : DWord) : Statement (.tcmdResume v) := nofun
theorem RoundTrip.tcmdKill (v : DWord) : Statement (.tcmdKill v) := nofun
theorem RoundTrip.errorRecordWrite : Statement (.errorRecordWrite) := nofun
theorem RoundTrip.towerQuiesce (t : Nat) : Statement (.towerQuiesce t) := nofun
theorem RoundTrip.towerRelease (t : Nat) : Statement (.towerRelease t) := nofun
theorem RoundTrip.towerReset (t : Nat) : Statement (.towerReset t) := nofun
theorem RoundTrip.linkWakeFail (t b : Nat) : Statement (.linkWakeFail t b) := nofun
theorem RoundTrip.powerOnBoot : Statement (.powerOnBoot) := nofun
theorem RoundTrip.attestRequest (v : DWord) : Statement (.attestRequest v) := nofun
theorem RoundTrip.attestReport : Statement (.attestReport) := nofun
theorem RoundTrip.mgncWrite (core : Nat) (v : DWord) : Statement (.mgncWrite core v) := nofun
theorem RoundTrip.qcmdSpare (core : Nat) : Statement (.qcmdSpare core) := nofun
theorem RoundTrip.qcmdWithdraw (core : Nat) : Statement (.qcmdWithdraw core) := nofun
theorem RoundTrip.qcmdRebind (core : Nat) : Statement (.qcmdRebind core) := nofun
theorem RoundTrip.qladdAdd (sel : BitVec 10) : Statement (.qladdAdd sel) := nofun
theorem RoundTrip.qladdRemove (sel : BitVec 10) : Statement (.qladdRemove sel) := nofun
theorem RoundTrip.qladdStored : Statement (.qladdStored) := nofun
theorem RoundTrip.ckptSave (dest : DWord) : Statement (.ckptSave dest) := nofun
theorem RoundTrip.ckptConsistencyPoint : Statement (.ckptConsistencyPoint) := nofun
theorem RoundTrip.ckptCopyComplete (err : Option (BitVec 3)) : Statement (.ckptCopyComplete err) := nofun
theorem RoundTrip.ckptRestore (dest : DWord) : Statement (.ckptRestore dest) := nofun
theorem RoundTrip.linkTrain (k : Nat) : Statement (.linkTrain k) := nofun
theorem RoundTrip.linkDown (k : Nat) : Statement (.linkDown k) := nofun
theorem RoundTrip.pageHandoverRequest (port page : Nat) : Statement (.pageHandoverRequest port page) := nofun
theorem RoundTrip.cntfrzWrite (v : DWord) : Statement (.cntfrzWrite v) := nofun
theorem RoundTrip.hostSnoop (pa : Nat) (inv : Bool) : Statement (.hostSnoop pa inv) := nofun
theorem RoundTrip.peerRequest (port page : Nat) (excl : Bool) : Statement (.peerRequest port page excl) := nofun
theorem RoundTrip.bridgeSleep (t b : Nat) : Statement (.bridgeSleep t b) := nofun
theorem RoundTrip.linkUp (k : Nat) (lanes : BitVec 3) : Statement (.linkUp k lanes) := nofun
theorem RoundTrip.powerManagerClockChange (mhz : Nat) : Statement (.powerManagerClockChange mhz) := nofun
theorem RoundTrip.checkpointRestoreDone (err : Option (BitVec 3)) : Statement (.checkpointRestoreDone err) := nofun
end Sys2Proof.Laws
end

