-- ==== Sys2Proof/Tests/Slice0.lean ====
section
/-! SUPPORT. Tests: ill-formed terms, words written out from the spec's encodings, single steps whose results the spec gives, and for
every statement a state and operands that meet its hypotheses. -/

set_option Elab.async false
set_option maxRecDepth 4096

namespace Sys2Proof.Tests
open Sys2Proof Sys2Proof.Machine

/-! ### One ill-formed term for each check of Instr.wf -/

theorem test_wf_guard : (Instr.add ⟨true, 7⟩ .w32 1 (.v 2) (.v 3)).wf = false := by decide
theorem test_wf_setp_unsigned_eq : (Instr.setp ⟨false, 7⟩ .eq true .w32 1 (.v 2) (.v 3)).wf = false := by decide
theorem test_wf_sel_p7 : (Instr.sel ⟨false, 7⟩ .w32 1 (.v 2) (.v 3) 7).wf = false := by decide
theorem test_wf_cvt_same_type : (Instr.cvt ⟨false, 7⟩ .f32 .f32 1 (.v 2)).wf = false := by decide
theorem test_wf_cvt_packed_scalar : (Instr.cvt ⟨false, 7⟩ .f16x2 .f32 1 (.v 2)).wf = false := by decide
theorem test_wf_tcvt_same_type : (Instr.tcvt ⟨false, 7⟩ .f32 .f32 1 (.t 2)).wf = false := by decide
theorem test_wf_red_exchange : (Instr.red 7 .exchN32 false .dev 2 4).wf = false := by decide
theorem test_wf_red_compare : (Instr.red 7 .casN64 false .dev 2 4).wf = false := by decide
theorem test_wf_marked_load_guard : (Instr.ld true 0 .w32 2 4 0 0).wf = false := by decide
theorem test_wf_marked_load_window : (Instr.ld true 7 .w32 2 4 0 1).wf = false := by decide
theorem test_wf_marked_load_queue : (Instr.ld true 7 .w32 16 4 0 0).wf = false := by decide
theorem test_wf_wrsr_selector : (Instr.wrsr 1 2 .mode).wf = false := by decide
theorem test_wf_bra_never : (Instr.bra false 7 true 5).wf = false := by decide
theorem test_wf_cont_no_payload : (Instr.cont ⟨false, 7⟩ 0 4 2).wf = false := by decide

/-! ### Words written out from the encodings

Format RR (R172): S 31, A 30, OP 29:24, D 23:17, A 16:10, B 9:3, then the minor bits 2:0. -/

/-- Major 0x01, D 1, A 2, B 3, W2 and minor 0 (Table 10.3). -/
theorem test_word_add : decodeTableWord 32 (2 ^ 31 + 0x01 * 2 ^ 24 + 1 * 2 ^ 17 + 2 * 2 ^ 10 + 3 * 2 ^ 3) =
    some (.add ⟨false, 7⟩ .w32 1 (.v 2) (.v 3)) := by decide +kernel
theorem test_word_setp : decodeTableWord 32 0x8702081A = some (.setp ⟨false, 7⟩ .lt false .w32 1 (.v 2) (.v 3)) := by decide +kernel
theorem test_word_movi : decodeTableWord 32 0x8C0A5678 = some (.movi ⟨false, 7⟩ 5 0x5678) := by decide +kernel
theorem test_word_idx : decodeTableWord 32 0x8F040000 = some (.idx ⟨false, 7⟩ 2 .lane) := by decide +kernel
theorem test_word_nop : decodeTableWord 32 0x80000000 = some (.nop ⟨false, 7⟩) := by decide +kernel
theorem test_word_fadd : decodeTableWord 32 0x90020818 = some (.fadd ⟨false, 7⟩ .f32 1 (.v 2) (.v 3)) := by decide +kernel
theorem test_word_cvt : decodeTableWord 32 0x9608158B = some (.cvt ⟨false, 7⟩ .f16 .f32 4 (.v 5)) := by decide +kernel
theorem test_word_tanh : decodeTableWord 32 0x98040C04 = some (.tanh ⟨false, 7⟩ false 2 (.v 3)) := by decide +kernel
theorem test_word_dot4 : decodeTableWord 32 0x99100818 = some (.dot4 ⟨false, 7⟩ 8 (.v 2) (.v 3)) := by decide +kernel
theorem test_word_topk : decodeTableWord 32 0x9B082002 = some (.topk ⟨false, 7⟩ false 4 8 2) := by decide +kernel
theorem test_word_sadd : decodeTableWord 32 0x9C020818 = some (.sadd ⟨false, 7⟩ 1 2 3) := by decide +kernel
theorem test_word_rvmul : decodeTableWord 32 0xBA081430 = some (.rvmul ⟨false, 7⟩ 4 (.v 5) 6) := by decide +kernel
theorem test_word_rvnar_bf16 : decodeTableWord 32 0xBA081404 = some (.rvnarBf16 ⟨false, 7⟩ 4 (.v 5)) := by decide +kernel
theorem test_word_rvmark : decodeTableWord 32 0xBB000007 = some (.rvmark 7) := by decide +kernel
theorem test_word_tld : decodeTableWord 32 0xBC003041 = some (.tld 0 3 1) := by decide +kernel
theorem test_word_tld_tr : decodeTableWord 32 0xBC201045 = some (.tldTr 8 1 false 1) := by decide +kernel
theorem test_word_tst : decodeTableWord 32 0xBC00414A = some (.tst 5 4 0) := by decide +kernel
theorem test_word_sgather : decodeTableWord 32 0xBC08100D = some (.sgather 2 1) := by decide +kernel
theorem test_word_mma : decodeTableWord 32 0xBD100044 = some (.mma .f16 false false .full .full 4 (.t 0) (.t 1)) := by decide +kernel
theorem test_word_sege : decodeTableWord 32 0xBE000004 = some .sege := by decide +kernel
theorem test_word_slend : decodeTableWord 32 0xBE00000C = some .slend := by decide +kernel
theorem test_word_shalt : decodeTableWord 32 0xBE00001C = some .shalt := by decide +kernel
/-- A header lends the next word the byte whose X bits say i64 (R175, R176). -/
theorem test_word_header : decodeTableWord 64 0x01041030BF100000 = some (.add ⟨false, 7⟩ .w64 2 (.v 4) (.v 6)) := by decide +kernel
theorem test_word_ld : decodeTableWord 32 0xA01A1102 = some (.ld false 7 .w32 13 4 16 2) := by decide +kernel
theorem test_word_marked_ld : decodeTableWord 32 0xE0041000 = some (.ld true 7 .w32 2 4 0 0) := by decide +kernel
theorem test_word_ld_strong : decodeTableWord 64 0x201009B4BF070000 = some (.ldStrong 7 true .w64 .dev 8 2 4) := by decide +kernel
theorem test_word_st : decodeTableWord 32 0xA10A1820 = some (.st 7 .w32 5 6 2) := by decide +kernel
theorem test_word_qpop : decodeTableWord 64 0x24120030BF020000 = some (.qpop 7 .w32 9 3 0) := by decide +kernel
theorem test_word_red : decodeTableWord 64 0x27080B60BF030000 = some (.red 7 .addF32 true .dev 4 2) := by decide +kernel
theorem test_word_copy : decodeTableWord 32 0xA8041030 = some (.copy ⟨false, 7⟩ 2 (.v 4) (.v 6)) := by decide +kernel
theorem test_word_trap : decodeTableWord 32 0xAB000005 = some (.trap ⟨false, 7⟩ 5) := by decide +kernel
theorem test_word_shfl : decodeTableWord 64 0x2C081841BF100000 = some (.shfl ⟨false, 7⟩ .up .w64 4 6 (.v 8)) := by decide +kernel
theorem test_word_vote : decodeTableWord 32 0xAE060402 = some (.voteBallot ⟨false, 7⟩ 3 1) := by decide +kernel
theorem test_word_wrsr : decodeTableWord 32 0xAF001440 = some (.wrsr 0 5 .mode) := by decide +kernel
theorem test_word_scanrd : decodeTableWord 32 0xAF041180 = some (.scanrd 2 4) := by decide +kernel
theorem test_word_bra : decodeTableWord 32 0xB0500006 = some (.bra false 2 true 6) := by decide +kernel
theorem test_word_call : decodeTableWord 32 0xB1143001 = some (.call false 10 12) := by decide +kernel
theorem test_word_give : decodeTableWord 64 0x36107000BF800000 = some (.give 4 true 7) := by decide +kernel
theorem test_word_take : decodeTableWord 32 0xB6100001 = some (.take 4) := by decide +kernel
theorem test_word_tmax : decodeTableWord 64 0x38104083BF400000 = some (.tmax ⟨false, 7⟩ .f32 4 (.t 4) (.s 2)) := by decide +kernel
theorem test_word_tcvt : decodeTableWord 32 0xB9204002 = some (.tcvt ⟨false, 7⟩ .f16 .f32 8 (.t 4)) := by decide +kernel
/-- A word of the sequencer's majors in the warp stream (R199). -/
theorem test_word_stream : decodeWord false 0 0xBE000004 = .bad .stream := by decide +kernel

/-! ### The states of the tests: a kernel of one team of one 64-lane warp in slot 0 of core 0, and its word at the cursor -/

/-- The warp. -/
def warp0 : Warp := { newWarp 1 2 0 64 2 0x40000 (BitVec.allOnes 64) 0x100000 0x400000 [] false 0 with inSet := true }
/-- Its team. -/
def team0 : Team := { newTeam 1 0 0 false 0 with zeroing := false }
/-- A state in which `w` stands in slot 0 of core 0 and is at the cursor, its bundle's checks passed. -/
def stateOf (w : Warp) : State :=
  let s := State.reset.placed 0 0 false []
  { s with
    cores := [(0, { Core.init with warps := [(0, w)] })]
    boot := { s.boot with phase := 2 }
    cur := ⟨0, 0, 0xFFFF, 0x40000, 1, false, false, true⟩
    view := some w }
/-- The state with the warp `warp0`. -/
def demo : State := stateOf warp0
/-- The warp with `x`, `y` and `z` in v1, v2 and v3 of every lane. -/
def withRegs (x y z : Word) : Warp :=
  ((warp0.vset 1 (fun _ => x) fun _ => true).vset 2 (fun _ => y) fun _ => true).vset 3 (fun _ => z) fun _ => true
/-- v1 of lane 0 after `i` on v1 = x, v2 = y and v3 = z. -/
def gives (i : Instr) (x y z : Word) : Option Word :=
  match exec i (stateOf (withRegs x y z)) with
  | .next t => t.live?.map fun w => w.vget 1 0
  | _ => none

/-! ### Values that the spec works out -/

/-- Table 10.5. -/
theorem test_shl : gives (.shl .none .w32 1 (.v 2) (.v 3)) 0 0x80000001 1 = some 2 := by decide +kernel
theorem test_shl_clamps : gives (.shl .none .w32 1 (.v 2) (.v 3)) 0 0x80000001 0xFFFFFFFF = some 0 := by decide +kernel
theorem test_sha_clamps : gives (.sha .none .w32 1 (.v 2) (.v 3)) 0 0x80000001 33 = some 0xFFFFFFFF := by decide +kernel
theorem test_rot : gives (.rot .none .w32 1 (.v 2) (.v 3)) 0 0x80000001 33 = some 3 := by decide +kernel
theorem test_mulh_i : gives (.mulhI .none .w32 1 (.v 2) (.v 3)) 0 0xFFFFFFFF 0xFFFFFFFF = some 0 := by decide +kernel
theorem test_mulh_n : gives (.mulhN .none .w32 1 (.v 2) (.v 3)) 0 0xFFFFFFFF 0xFFFFFFFF = some 0xFFFFFFFE := by decide +kernel
theorem test_bfe_n : gives (.bfeN .none .w32 1 (.v 2) (.v 3)) 0 0xDEADBEEF 0x0C08 = some 0xDBE := by decide +kernel
theorem test_bfe_i_clips : gives (.bfeI .none .w32 1 (.v 2) (.v 3)) 0 0xDEADBEEF 0x081C = some 0xFFFFFFFD := by decide +kernel
theorem test_clz : gives (.clz .none .w32 1 (.v 2)) 0 0 0 = some 32 := by decide +kernel
/-- After Table 10.4: MOVHI 0x2468 over 0x5678 leaves 0x12345678. -/
theorem test_movhi : gives (.movhi .none 1 0x2468) 0x5678 0 0 = some 0x12345678 := by decide +kernel
/-- Table 11.6: 300.7, −3.7 and 65,519.99 as FP32. -/
theorem test_cvt_i8 : gives (.cvt .none .i8 .f32 1 (.v 2)) 0 0x4396599A 0 = some 0x7F := by decide +kernel
theorem test_cvt_n32 : gives (.cvt .none .n32 .f32 1 (.v 2)) 0 0xC06CCCCD 0 = some 0 := by decide +kernel
theorem test_cvt_f16 : gives (.cvt .none .f16 .f32 1 (.v 2)) 0 0x477FEFFD 0 = some 0x7BFF := by decide +kernel
theorem test_cvt_f32 : gives (.cvt .none .f32 .i32 1 (.v 2)) 0 16777217 0 = some 0x4B800000 := by decide +kernel
/-- R126: an exact zero sum of unlike signs is +0 to nearest even. -/
theorem test_fadd_zero : gives (.fadd .none .f32 1 (.v 2) (.v 3)) 0 0x3F800000 0xBF800000 = some 0 := by decide +kernel
/-- The check value of R167's function over the digits 1 to 9. -/
theorem test_crc : crcFinal ((List.range 9).foldl (fun c k => crcByte c (BitVec.ofNat 8 (0x31 + k))) crcInit) = 0xE3069283 := by decide +kernel
/-- Table 6.3: RVMUL of 7 with m = 3 and s = 2 gives 5 and pushes 1 with tag 0x11. -/
theorem test_rvmul :
    (match exec (.rvmul .none 1 (.v 2) 6) (stateOf ((withRegs 0 7 0).sset 6 0x200000003)) with
     | .next t => t.live?.map fun w => (w.vget 1 0, w.entry 0 0, w.tag 0, w.depth)
     | _ => none) = some (5, 1, 0x11, 1) := by decide +kernel
/-- Table 6.3: RVSHR of −13 by 3 gives −2 and pushes 3 with tag 0x22. -/
theorem test_rvshr :
    (match exec (.rvshr .none 1 (.v 2) 6) (stateOf ((withRegs 0 0xFFFFFFF3 0).sset 6 3)) with
     | .next t => t.live?.map fun w => (w.vget 1 0, w.entry 0 0, w.tag 0)
     | _ => none) = some (0xFFFFFFFE, 3, 0x22) := by decide +kernel
/-- R46, R408: the trap of a word halts its team, with its cause; on a core that is not the hub's a privileged word takes it. -/
theorem test_privileged_trap :
    (match exec (.scanab 4) { demo with cur := { demo.cur with checked := false } } with
     | .next t => (t.team? 2).map fun tm => (tm.halted, tm.cause.map (·.1.cause))
     | _ => none) = some (true, some .privileged) := by decide +kernel
/-- R340: DRAIN of core 0. -/
theorem test_corectl_drain :
    (match exec (.corectlDrain 2 4) demo with
     | .next t => (t.core 0).drain
     | _ => false) = true := by decide +kernel
/-- A step fetches the packet at the pc and runs its bundle: MOVI v5, 0x5678 placed by withFetchWord (R181, R214). -/
theorem test_step_movi :
    (match step (State.reset.withFetchWord 32 0x8C0A5678) with
     | .next t => (t.warp? 0 0).map fun w => (w.vget 5 0, w.vget 5 63, (w.slice? 0).map (·.pc))
     | _ => none) = some (0x5678, 0x5678, some 0x40004) := by decide +kernel
/-- A step of the sequencer: SHALT arms a halt (R328). -/
theorem test_step_shalt :
    (match step (State.reset.withFetchWord 32 0xBE00001C) with
     | .next t => ((t.core 0).seq.armed, (t.core 0).seq.cycle)
     | _ => (false, 0)) = (true, 1) := by decide +kernel

/-! ### Witnesses: for each statement, a state and operands that meet its hypotheses -/

/-- Every word runs in `demo`, so the hypotheses of every statement that asks only `Runs` are met. -/
theorem witness_runs (i : Instr) : Runs demo warp0 warp0 i := ⟨rfl, rfl, .inl rfl⟩
/-- Words whose own checks pass there: no check is skipped for these. -/
theorem witness_runs_checked :
    let s := { demo with cur := { demo.cur with checked := false } }
    s.view? = some warp0 ∧ s.live? = some warp0 ∧
      wordTrap s warp0 (.add .none .w64 2 (.v 4) (.s 6)) = none ∧ wordTrap s warp0 (.fadd .none .f64 2 (.v 4) (.v 6)) = none ∧
      wordTrap s warp0 (.ld false 7 .w32 2 4 0 1) = none ∧ wordTrap s warp0 (.rmax .none false 4 8 2) = none ∧
      wordTrap s warp0 (.bra false 0 false 5) = none ∧ wordTrap s warp0 (.rvmark 7) = none ∧
      wordTrap s warp0 (.rdsr 3 .cir) = none := by decide +kernel

theorem witness_ExactRounding_sum : (∀ t ∈ [FV.fin false 1 0, FV.fin true 3 (-5)], FV.finite t = true) := by decide
theorem witness_ExactRounding_zero :
    (∀ t ∈ [FV.fin false 1 0, FV.fin true 1 0], FV.finite t = true) ∧ ([FV.fin false 1 0, FV.fin true 1 0].map FV.rat).sum = 0 := by
  refine ⟨by decide, by simp [FV.rat]⟩
theorem witness_ConversionsAndPacks : cvtPair .n4 .f32 = true ∧ cvtPair .f16x2 .bf16x2 = true ∧ cvtPair .f64 .i64 = true := by decide
theorem witness_SpecialFunctions :
    128 ≤ (FV.fin false 1 7).rat ∧ (FV.fin true 151 0).rat ≤ -151 ∧ 19 / 2 ≤ (FV.fin false 19 (-1)).rat ∧ 18 ≤ (FV.fin false 9 1).rat ∧
      (FV.fin true 105 0).rat ≤ -105 := by
  refine ⟨?_, ?_, ?_, ?_, ?_⟩ <;> norm_num [FV.rat]
theorem witness_PredicateSeven :
    warp0.width ≤ 64 ∧ warp0.width % 4 = 0 ∧ demo.cur.slices ≠ 0 ∧
      (∀ j < 16, demo.cur.slices.getLsbD j = true →
        ∃ l < 64, 4 * j ≤ l ∧ l < 4 * j + 4 ∧ l < warp0.width ∧ warp0.active.getLsbD l = true) := by decide +kernel
theorem witness_RecorderWords :
    (∃ x ∈ [0x7FC00000], f32.isNan x = true) ∧ ([0, 0x80000000] ≠ [] ∧ ∀ x ∈ [0, 0x80000000], f32.isNan x = false) ∧
      (f32.isNan 0 || f32.isNan 0x7F800001 || [0].any f32.isNan) = true ∧ (∀ x ∈ [0, 0x80000000], (f32.value x).finite = true) ∧
      (∃ x ∈ [0, 0xFF800000], (f32.value x).finite = false) := by decide +kernel
theorem witness_Topk_start :
    let w := { warp0 with pending := [⟨7, 0xFFFF, 0, 2, 0, [.s 4], .topk false 1 1 false [] [] [], [], false⟩] }
    let s := (stateOf w).modCore 0 fun c => { c with topkQ := [(0, 7)] }
    (s.core 0).topkQ = (0, 7) :: [] ∧ s.warp? 0 0 = some w ∧ (demo.core 0).topkQ = [] := by decide +kernel

/-- The test's load in flight: lane 63 reads `size` bytes at `loc`. -/
def loadAt (size : Nat) (loc : Nat) : Pending := ⟨7, 0xFFFF, 0, 1, 0x8000000000000000, destsV 5 (wordsOf size), .load size true none [(63, loc)], [], false⟩
/-- Loads of one byte at the last byte of a page, and of four words. -/
theorem witness_LoadsLand :
    ∀ x ∈ [(1, 0x4FFFF), (16, 0x50000)],
      let p := loadAt x.1 x.2
      let w := { warp0 with pending := [p] }
      let s := stateOf w
      s.warp? 0 0 = some w ∧ w.pending.find? (fun q => q.id == p.id) = some p ∧
        w.partsOf p (BitVec.allOnes 64) = [(p, BitVec.allOnes 64)] ∧ p.got = [] ∧ p.dests = destsV 5 (wordsOf x.1) ∧
        (∀ q ∈ s.pend, q.op.isRed = false) ∧ w.alive.getLsbD (63 / 4) = true ∧ s.reach 0 x.2 false true ≠ .dead ∧
        s.blocked 0 x.2 false = false ∧ s.poisoned x.2 x.1 = false := by decide +kernel
/-- A load that was performed before: lane 63 gets 9 in v5. -/
theorem witness_LoadsLand_performed :
    let p : Pending := { loadAt 4 0 with op := .load 4 true none [], got := [(5, 63, 9)] }
    let w := { warp0 with pending := [p] }
    (stateOf w).warp? 0 0 = some w ∧ w.pending.find? (fun q => q.id == p.id) = some p ∧
      w.partsOf p (BitVec.allOnes 64) = [(p, BitVec.allOnes 64)] ∧ (p.got.map fun x => (x.1, x.2.1)).Nodup ∧
      (∀ x ∈ p.got, x.2.1 < 64) := by decide +kernel
/-- The test's store of two bytes in flight at level `n`. -/
def storeAt (n : Nat) (op : StoreOp) : PendStore := ⟨7, 0, 0, n, none, [], false, [], 0, op⟩
/-- A store and a reduction that rise: below their site, at it, and to the last level. -/
theorem witness_StoresPerform_rise :
    (∀ n ∈ [0, 1], let p := storeAt n (.bytes 0x50000 [1, 2])
      let s := { demo with pend := [p] }
      s.pend.find? (fun q => q.id == 7) = some p ∧ s.canRise p = true ∧ p.lastRise = false ∧ s.riseBlocked p = false ∧ p.op.isRed = false) ∧
    (∀ n ∈ [0, 2], let p := storeAt n (.red 0x8000000000 .addI32 5)
      let s := { demo with pend := [p] }
      s.pend.find? (fun q => q.id == 7) = some p ∧ s.canRise p = true ∧ p.lastRise = false ∧ s.riseBlocked p = false) ∧
    (storeAt 2 (.red 0x8000000000 .addI32 5)).site = 3 ∧ (storeAt 0 (.red 0x8000000000 .addI32 5)).site ≠ 1 ∧
    atomStored .addI32 0 5 0 = some 5 := by decide +kernel
theorem witness_StoresPerform :
    ∀ p ∈ [storeAt 2 (.bytes 0x50000 [1, 2]), storeAt 3 (.bytes 0x8000000000 [1, 2])],
      let s := { demo with pend := [p] }
      s.pend.find? (fun q => q.id == 7) = some p ∧ s.canRise p = true ∧ p.lastRise = true ∧ s.riseBlocked p = false ∧
        s.reach 0 p.op.range.1 true true ≠ .dead ∧ Memory.wf s.mem = true := by decide +kernel
/-- R106, R107: a store that a release binds at device scope is performed for no other thread before the store it follows is performed. -/
theorem test_release_orders_stores :
    let p : PendStore := ⟨7, 0, 0, 0, none, [], false, [], 0, .bytes 0x50000 [1]⟩
    let q : PendStore := ⟨8, 0, 0, 0, some .dev, [(7, 3)], false, [], 0, .bytes 0x50100 [1]⟩
    ({ demo with pend := [p, q] }).canRise q = false ∧ ({ demo with pend := [q] }).canRise q = true := by decide +kernel

theorem witness_QueuesAndHubAccesses_marked :
    loadMarked (.ld true 7 .w32 2 4 0 0) = true ∧ (loadFetch demo 0 0 0 warp0 warp0.alive (.ld true 7 .w32 2 4 0 0)).isSome = true := by
  decide +kernel
theorem witness_QueuesAndHubAccesses_push : ∃ r : Landed × Bool × State, demo.warp? 0 0 = some warp0 ∧ r = (r.1, false, demo) :=
  ⟨([], false, demo), rfl, rfl⟩
/-- A warp whose gang waits with `wt`. -/
def withWait (wt : Wait) : Warp := { warp0 with slices := warp0.slices.map fun x => { x with waits := [wt], resume := 0x40008 } }
/-- The waits of the statements, each in a state in which the gang at the cursor has it alone. -/
theorem witness_waits :
    ∀ wt ∈ ([.sleep 0, .give 63 none, .give 0 (some 31), .take 0, .seqgo 0x40000, .fence true true .dev 1, .qpop .w64 4 3 0 1,
        .cont 7 0x40000 [(0, []), (63, [])]] : List Wait),
      let s := stateOf (withWait wt)
      s.warp? 0 0 = some (withWait wt) ∧ s.frozen (withWait wt) = false ∧ ((withWait wt).slice? 15).map (·.waits) = some [wt] := by
  decide +kernel
theorem witness_QueuesAndHubAccesses_pop :
    let w := { withWait (.qpop .w64 4 3 0 1) with q := [(3, [List.replicate 64 1, List.replicate 64 2])] }
    (stateOf w).warp? 0 0 = some w ∧ (stateOf w).frozen w = false ∧ Width.regs .w64 ≤ (w.queue 3).length ∧
      (withWait (.qpop .w64 4 3 0 1)).queue 3 = [] := by decide +kernel
/-- A warp of the hub control core with one lane, s4 = `base`. -/
def hubWarp (base : DWord) : Warp := ({ warp0 with active := 1 }).sset 4 base
/-- A state in which it is at the cursor. -/
def hubDemo (base : DWord) : State :=
  { State.reset.placed hubCore 256 false [] with
    cores := [(hubCore, { Core.init with warps := [(0, hubWarp base)] })]
    cur := ⟨hubCore, 0, 0xFFFF, 0x40000, 1, false, false, true⟩
    view := some (hubWarp base) }
/-- The first register of the BAR0 window, and the last, in one lane. -/
theorem witness_QueuesAndHubAccesses_hub_first :
    (hubDemo 0xF000000000).view? = some (hubWarp 0xF000000000) ∧ (hubWarp 0xF000000000).actLanes 0xFFFF ⟨false, 7⟩ = [0] ∧
      hubRegister hubCore (unitStride (hubWarp 0xF000000000) 4 0 8 0) = true := by decide +kernel
theorem witness_QueuesAndHubAccesses_hub_last :
    (hubDemo 0xF000FFFFF8).live? = some (hubWarp 0xF000FFFFF8) ∧ (hubWarp 0xF000FFFFF8).actLanes 0xFFFF ⟨false, 7⟩ = [0] ∧
      hubRegister hubCore (unitStride (hubWarp 0xF000FFFFF8) 4 0 8 0) = true := by decide +kernel

theorem witness_FencesComplete :
    let wt : Wait := .fence true true .dev 1
    ∀ w ∈ [withWait wt, { withWait wt with pending := [loadAt 4 0x50000] }],
      let s := stateOf w
      s.warp? 0 0 = some w ∧ s.frozen w = false ∧ (w.slice? 0).map (·.waits) = some [wt] ∧
        s.partsReady 0 0 (w.partsAll 1) = true ∧ (((s.performAll 0 0 1).pend).map (·.id)).Nodup ∧
        (((s.performAll 0 0 1).released 0 0 .dev).isNone) = false := by decide +kernel
theorem witness_FencesComplete_mark :
    let q := { storeAt 0 .mark with strong := some .dev }
    q.thr = 0 ∧ q.op = .mark ∧ q.strong = some .dev := by decide +kernel
theorem witness_BeamTables : ∃ r, warp0.actLanes demo.cur.slices .none = 0 :: r := ⟨(List.range 63).map (· + 1), by decide +kernel⟩
theorem witness_Atomics_land :
    let p : Pending := ⟨7, 0xFFFF, 0, 1, 1, destsV 5 2, .atom .casN64 .rlx .core [(0, 0x5FFF8, 1, true, 1, 2)], [], false⟩
    let w := { warp0 with pending := [p] }
    let s := stateOf w
    s.warp? 0 0 = some w ∧ w.pending.find? (fun q => q.id == p.id) = some p ∧ p.dests = destsV 5 (atomSize .casN64 / 4) ∧
      w.partsOf p (BitVec.allOnes 64) = [(p, BitVec.allOnes 64)] ∧ p.got = [] ∧ s.pend = [] ∧ w.alive.getLsbD 0 = true ∧
      0x5FFF8 % atomSize .casN64 = 0 ∧ 0x5FFF8 < spadBase ∧ s.blocked 0 0x5FFF8 false = false ∧ s.reach 0 0x5FFF8 false true ≠ .dead ∧
      s.poisoned 0x5FFF8 (atomSize .casN64) = false := by decide +kernel
/-- A copy whose operands touch and do not meet. -/
theorem witness_Copies_complete :
    let j : CopyJob := ⟨7, 1, 0, [(0x50000, 32)], [(0x50020, 32, false)], 0x50000, 0x50020⟩
    let w := { warp0 with jobs := [j] }
    let s := stateOf w
    s.warp? 0 0 = some w ∧ w.jobs.find? (fun x => x.id == j.id) = some j ∧ (∀ x ∈ w.slices, x.waits = []) ∧ (∀ q ∈ s.pend, q.id < s.nextId) ∧
      0x50020 < spadBase ∧ s.blocked 0 0x50000 false = false ∧ s.blocked 0 0x50020 true = false ∧
      s.reach 0 0x50000 false true ≠ .dead ∧ s.poison = [] := by decide +kernel
/-- A seal that must wait: 16 sealed batches and an open one; a seal that goes on: none. -/
theorem witness_Copies_seal :
    let w := { warp0 with nb := 16, jobs := (List.range 17).map fun k => ⟨k, k + 1, 0, [], [], 0, 0⟩ }
    (∀ j ∈ w.jobs, j.batch ≤ w.nb + 1) ∧ w.actsOnce 0xFFFF .none = true ∧ (∃ j ∈ w.jobs, j.batch = w.nb + 1) ∧
      16 ≤ ((w.jobs.map (·.batch)).filter (· ≤ w.nb)).eraseDups.length ∧ warp0.jobs = [] := by decide +kernel
theorem witness_ControlWords_regang :
    (∀ j < 16, (0xFFFF : BitVec 16).getLsbD j = true → demo.cur.slices.getLsbD j = true) ∧
      ¬∀ j < 16, (0xFFFF : BitVec 16).getLsbD j = true → ({ demo.cur with slices := 0xFF }).slices.getLsbD j = true := by decide +kernel
theorem witness_ControlWords_bra :
    warp0.pred 7 0 = !false ∧ warp0.pred 0 0 ≠ !false ∧ (warp0.pset 0 (fun _ => true) fun l => l == 63).pred 0 63 = !false := by decide +kernel
theorem witness_Barriers :
    demo.team? warp0.team = some team0 ∧ demo.teamSize warp0 = 1 ∧
      (∀ y ∈ warp0.slices, ∀ wt ∈ y.waits, wt ≠ .bar 127 true true) ∧ (team0.bar 1 127) = ⟨1, 0, false⟩ ∧
      ({ team0 with bars := [(127, ⟨2, 0, true⟩)] }.bar 1 127).count + 1 < 2 := by decide +kernel
theorem witness_WorkCreationAndLocality_accept :
    let wt : Wait := .cont 7 0x40000 [(0, []), (63, [])]
    let s := stateOf (withWait wt)
    s.warp? 0 0 = some (withWait wt) ∧ ((withWait wt).slice? 15).map (·.waits) = some [wt] ∧ 15 < (withWait wt).nslices ∧
      s.frozen (withWait wt) = false ∧ (∀ y ∈ (withWait wt).slices, y.waits = [wt]) := by decide +kernel
theorem witness_WorkCreationAndLocality_offer :
    (demo.grid? 1).isSome = true ∧ demo.gatherHeld < 16384 ∧ demo.overflowing 1 = false ∧ demo.gather.overflow = [] := by decide +kernel
theorem witness_WorkCreationAndLocality_readback :
    let s := demo.modGrid 1 fun g => { g with lr := { g.lr with ovf := 0x60000, ovfsz := 1 } }
    let s := { s with gather := { s.gather with overflow := [(1, 0)] } }
    s.gather.overflow = [(1, 0)] ∧ s.gatherHeld < 16384 ∧
      (s.grid? 1).map (fun gr => (gr.retired, (s.overflowLoc gr 0).isSome)) = some (false, true) := by decide +kernel
/-- An overflow area of two records, one of them in use. -/
theorem witness_WorkCreationAndLocality_overflow :
    let s := demo.modGrid 1 fun g => { g with lr := { g.lr with ovf := 0x60000, ovfsz := 128 } }
    let s := { s with gather := { s.gather with overflow := [(1, 0)], ovfNext := [(1, 1)] } }
    s.overflowing 1 = true ∧ s.fnmode / 32 % 2 = 0 ∧ s.rootOf 1 = 1 ∧ Machine.sget 0 s.gather.ovfNext 1 = 1 ∧ s.spilledRecords 1 < 128 / 64 ∧
      ((s.grid? 1).bind fun gr => s.overflowLoc gr 1).map (fun loc => s.blocked hubCore loc true) = some false := by decide +kernel
theorem witness_TileHandoff_take :
    (team0.tile 0 63).owner = .free ∧
      ({ team0 with tiles := [(63, ⟨.transitWarp 0, 5⟩)] }.tile (team0.halfOf 0) 63).owner = .transitWarp 0 ∧ demo.wr 0 2 63 = false ∧
      warp0.pending = [] ∧ demo.team? warp0.team = some team0 := by decide +kernel
theorem witness_TileHandoff_seqgo :
    let s := (stateOf (withWait (.seqgo 0x40000))).modSeq 0 fun q => { q with queue := [(0, 15, 0x40000, [])] }
    s.warp? 0 0 = some (withWait (.seqgo 0x40000)) ∧ s.team? 2 = some team0 ∧ (s.core 0).seq.queue = [(0, 15, 0x40000, [])] ∧
      (s.core 0).seq.running = false := by decide +kernel
theorem witness_TileHandoff_release :
    ∀ wt ∈ [Wait.give 63 none, .give 0 (some 31), .seqgo 0x40000],
      let s := stateOf (withWait wt)
      s.canRelease 0 0 .core = true ∧ s.team? (withWait wt).team = some team0 ∧ (((s.performAll 0 0 (BitVec.allOnes 64)).pend).map (·.id)).Nodup := by
  decide +kernel
theorem witness_TileWords : 60 + groupOf (shapeRows warp0.shape) (shapeCols warp0.shape) 64 ≤ 64 ∧ demo.team? warp0.team = some team0 := by
  decide +kernel
/-- A full window, which spills, and an empty one with a chunk to fill from. -/
theorem witness_ReversibleStack :
    let w := { warp0 with depth := 128 }
    let x := { warp0 with depth := 32, spilled := 32 }
    (stateOf w).live? = some w ∧ w.width ≤ 64 ∧ 128 ≤ w.depth - w.spilled ∧
      (stateOf x).view? = some x ∧ x.depth ≤ x.spilled ∧ 0 < x.spilled := by decide +kernel
theorem witness_ReversiblePairsAndMoves :
    let x : Word := 7
    let m : Word := 3
    m.toInt ≠ 0 ∧ -(2 ^ 31) ≤ x.toInt * m.toInt / 2 ^ 2 ∧ x.toInt * m.toInt / 2 ^ 2 < 2 ^ 31 ∧
      { warp0 with depth := 32 }.depth - warp0.spilled = 32 ∧ { warp0 with depth := 128, spilled := 32 }.depth - 32 ≤ 96 := by decide +kernel
/-- R301: the sum and its inverse. -/
theorem witness_ReversibleSums : (5 : Word).toNat = ((0xFFFFFFFF : Word).toNat + (6 : Word).toNat) % 2 ^ 32 := by decide

/-- The checks of the bundle at the cursor have not been made. -/
def unchecked (s : State) : State := { s with cur := { s.cur with checked := false } }
theorem witness_TrapsAreTaken_word :
    let s := unchecked demo
    warpWord (.scanab 4) = true ∧ s.cur.sq = false ∧ s.view? = some warp0 ∧ s.live? = some warp0 ∧ s.cur.checked = false ∧
      wordTrap s warp0 (.scanab 4) = some { cause := .privileged } := by decide +kernel
/-- A state whose sequencer runs for the team, in an open segment. -/
def seqDemo (f : Seq → Seq) : State :=
  let s := (demo.placedSeq false).modSeq 0 f
  { s with cur := { s.cur with sq := true } }
/-- Its sequencer. -/
def seq0 : Seq := ((seqDemo id).core 0).seq
/-- Every word of the sequencer runs in it. -/
theorem witness_sequencer_runs (i : Instr) : SeqRuns (seqDemo id) 2 team0 seq0 i := ⟨rfl, rfl, .inl rfl⟩
theorem witness_TrapsAreTaken_seq :
    let s := unchecked (seqDemo id)
    seqOnly .slend = true ∧ s.seqTeam s.cur.core = some (2, team0) ∧ s.cur.checked = false ∧
      (firstTrap [seqDecodeTrap s 0 2 team0 (s.core 0).seq .slend, seqIssueTrap s 0 team0 (s.core 0).seq .slend]).isSome = true := by
  decide +kernel
theorem witness_PrivilegeAndTrapWords :
    privilegedWord (.scanab 4) = true ∧ demo.cur.core ≠ hubCore ∧ decodeTrap demo warp0 (.scanab 4) = none ∧
      hazard warp0 demo.cur.slices 0 (usesOf (.scanab 4)) = false ∧ warp0.actsOnce demo.cur.slices .none = true ∧
      warp0.actsOnce demo.cur.slices ⟨false, 0⟩ = false ∧
      ((demo.modGrid 1 fun g => { g with lr := { g.lr with debug := true } }).recOf warp0).map (·.debug) = some true := by decide +kernel
theorem witness_CoreControl :
    demo.team? 2 = some team0 ∧ team0.cores.contains 0 = true ∧ team0.halted = false ∧ (∀ x ∈ demo.resident 0, x.1 ≠ 3) ∧
      (∀ x ∈ demo.resident 1, x.1 ≠ 2) := by decide +kernel
/-- A core with a scan. -/
def scanning (x : Scan) (now : Nat) : State := { (demo.modCore 1 fun c => { c with scan := x, drain := true }) with coreNow := now }
theorem witness_ScansAndMaps_scan :
    ((scanning ⟨.running, 10, 0, 0, some 100, 0, false⟩ 90).core 1).scan.abortAt = some 100 ∧
      ((scanning ⟨.running, 10, 0, 0, some 100, 0, false⟩ 90).core 1).scan.phase = .running ∧
      ((scanning ⟨.clearing true, 10, 80, 0, none, 90, false⟩ 2394).core 1).scan.phase = .clearing true ∧
      ((scanning Scan.none 0).core 1).drain = true ∧ (scanning Scan.none 0).resident 1 = [] ∧ ((scanning Scan.none 0).core 1).scanning = false := by
  decide +kernel
/-- CMAPW of logical core 1 to physical core 2: mapped already; of another tower; busy; free. -/
theorem witness_ScansAndMaps_map :
    let idle (s : State) := s.modCore 2 fun c => { c with drain := true }
    (({ demo with boot := { demo.boot with map := [(1, 2)] } }).logical? 2).isSome = true ∧ (demo.logical? 2).isSome = false ∧
      2 / 256 = 1 / 64 ∧ 2 / 256 ≠ 255 / 64 ∧ (demo.core 2).drain = false ∧ ((idle demo).core 2).drain = true ∧ (idle demo).resident 2 = [] ∧
      (idle demo).physical? 1 = none := by decide +kernel

/-- A state with the kernel on core 0, its team `tm` and warp `w`, and on the hub control core a warp that waits with `wt`. -/
def hubState (tm : Team) (w : Warp) (wt : Wait) : State :=
  let s := State.reset.placed hubCore 256 false []
  let s := { s with cores := [(0, { Core.init with warps := [(0, w)] }), (hubCore, { Core.init with warps := [(0, { withWait wt with team := 3 })] })] }
  { s with teams := [(2, tm), (3, { team0 with core := hubCore })], cur := ⟨hubCore, 0, 0xFFFF, 0x40000, 1, false, false, true⟩ }
/-- A halted team, its record written. -/
def halted0 : Team := { team0 with halted := true, cause := some ({ cause := .cstop }, 0, false, 0) }
theorem witness_SaveAndRestore_waits :
    let wt : Wait := .csave 5 0 0x60000 true
    let s := hubState team0 warp0 wt
    let u := hubState { halted0 with recWait := true } warp0 wt
    s.warp? hubCore 0 = some { withWait wt with team := 3 } ∧ s.frozen { withWait wt with team := 3 } = false ∧
      { withWait wt with team := 3 }.hubWait = some wt ∧ s.resident 0 ≠ [] ∧ (∃ x ∈ s.resident 0, x.2.halted = false) ∧
      (∀ x ∈ u.resident 0, x.2.halted = true) ∧ u.saveReady 0 = false ∧ (hubState { team0 with core := 5 } warp0 wt).resident 0 = [] := by
  decide +kernel
/-- A halted team on core 0, of a launch without warps and pool tiles, and a CSAVE that waits for it. -/
def savable : State :=
  let s := hubState halted0 warp0 (.csave 5 0 0x60000 true)
  (s.modGrid 1 fun g => { g with lr := { g.lr with pool := 0, warps := 0 } }).modCore 0 fun c => { c with warps := [] }
/-- The same once what its core has in flight is done. -/
def saved : State := (savable.settleCore 0).getD savable
theorem witness_SaveAndRestore_length : ((saved.areaBody 0).length == 896) = true := by decide +kernel
theorem witness_SaveAndRestore_saves :
    savable.saveReady 0 = true ∧ savable.resident 0 ≠ [] ∧ (savable.settleCore 0).isSome = true ∧
      saved.areaTrap 0x60000 (64 + 896) true = none ∧ saved.areaWaits 0x60000 (64 + 896) true = false ∧
      (saved.areaTrap 0x200000000000000 (64 + 896) true).map (·.waits) = some false ∧ saved.areaWaits 0x200000000000000 (64 + 896) true = false := by
  decide +kernel
theorem witness_SaveAndRestore_restores :
    let s := hubState { team0 with core := 5 } warp0 (.crestore 5 0 0x60000)
    s.resident 0 = [] ∧ s.areaWaits 0x60000 64 false = false ∧ (s.areaTrap 0x200000000000000 64 false).map (·.waits) = some false := by decide +kernel
/-- Four cores of a cluster, each with a team of one grouped grid and a sequencer that waits in an MMA.co of the same words. -/
def meeting : State :=
  let q : Seq := { Seq.idle with running := true, wait := .mmaCo (.mma .f16 false true .full .full 4 (.h 0) (.h 1)) 2 }
  { demo with
    boot := { demo.boot with map := [(0, 0), (1, 1), (2, 2), (3, 3)] }
    cores := [0, 1, 2, 3].map fun k => (k, { Core.init with seq := { q with team := 10 + k } })
    teams := [0, 1, 2, 3].map fun k => (10 + k, { team0 with core := k })
    grids := demo.grids.map fun p => (p.1, { p.2 with lr := { p.2.lr with cogrp := 8 } }) }
theorem witness_SequencerOperations_meeting :
    [0, 1, 2, 3].filterMap meeting.physical? = [0, 1, 2, 3] ∧ (meeting.grid? 1).map (fun g => (g.parent, g.lr.cogrp)) = some (none, 8) ∧
      ([0, 1, 2, 3].all fun k =>
        meeting.seqLive k && meeting.seqGrid k == some 1 && (coKey (meeting.core k).seq (meeting.core k).seq.wait).isSome &&
          coKey (meeting.core k).seq (meeting.core k).seq.wait == coKey (meeting.core 0).seq (meeting.core 0).seq.wait &&
          (meeting.resident k).any fun x => x.2.grid == 1) = true := by decide +kernel
/-- One operation in flight: its last row is due. -/
theorem witness_SequencerReadsAndLandings_reads :
    ∀ kind ∈ [SeqKind.tld 0 0 0 4, .tst 4 0 0 4, .tldTr 0 0 0 true 1, .sgather 0 0 0 0 0],
      let op : SeqOp := ⟨0, 0, kind, 8, readSpan kind - 1, [], 0⟩
      let s := seqDemo fun q => { q with ops := [op], issued := true, cycle := 200 }
      s.seqTeam 0 = some (2, team0) ∧ s.seqRuns 0 = true ∧ (s.core 0).seq.issued = true ∧ (s.core 0).seq.ops = [op] ∧ op.done < readSpan op.kind ∧
        op.c + op.done ≤ (s.core 0).seq.cycle ∧ op.co = 0 ∧ s.pend = [] ∧ (∀ x ∈ s.cores, x.2.latent = []) := by decide +kernel
theorem witness_SequencerReadsAndLandings_lands :
    ∀ row ∈ [LandRow.tile 63 31, .spad 0 0 0 31],
      let l : Landing := ⟨16, 0, row, 0x80000001, List.replicate 32 5⟩
      let s := seqDemo fun q => { q with landings := [l], cycle := 16 }
      s.seqTeam 0 = some (2, team0) ∧ s.seqRuns 0 = true ∧ (s.core 0).seq.landings = [l] ∧ l.at_ ≤ (s.core 0).seq.cycle ∧
        l.words.length = 32 ∧ demo.seqRuns 0 = false := by decide +kernel
theorem witness_IntegerMatrixElements : (List.range (mmaK .i8)).Perm (List.range (mmaK .i8)) ∧ (.i8, true, 8) ∈
    [(MmaTy.i8, true, 8), (.i4, true, 4), (.n4, false, 4)] := ⟨.refl _, by decide⟩
/-- A segment of one word, SEGE alone, whose signature is that of no word or another; and one that has settled. -/
theorem witness_SegmentsAndLoops :
    let g : Segment := ⟨0x40000, 1, crcFinal crcInit, 1, crcInit, false, false⟩
    g.count = g.cyc.toNat ∧ crcFinal g.crc = g.sig ∧ ¬({ g with sig := 0 }.count = g.cyc.toNat ∧ crcFinal g.crc = 0xFFFFFFFF) ∧
      (seqDemo fun q => { q with seg := some g }).cur.checked = true ∧ team0.halted = false := by decide +kernel
theorem witness_SequencerWaits :
    (demo.teamWarp 2 0).map (fun x => (x.1, x.2.1)) = some (0, 0) ∧ (seqDemo id).seqLive 0 = true ∧ seq0.wait = .none ∧
      0 < (seqDemo id).teamCount team0 ∧ (seqDemo id).slotOf 0 2 0 = some 0 ∧ warp0.retired = false ∧
      ((seqDemo fun q => { q with ended := true }).core 0).seq.ended = true ∧ seq0.ops = [] ∧ seq0.landings = [] ∧
      (seqDemo id).teamWarps 2 ≠ [] ∧ demo.seqTeam 0 = none := by decide +kernel
theorem witness_SequencerWaits_halted :
    let s := (seqDemo id).modTeam 2 fun tm => { tm with halted := true }
    (s.seqTeam 0).map (fun x => (x.1, x.2.halted)) = some (2, true) := by decide +kernel

/-- A launch record of the placed kernel (Table 23.2) with SEQ `seq`, entry `entry` and the scalars `mask` to read, in slot 0 of window 0. -/
def recordAt (seq entry mask : Nat) : State :=
  let r : List Nat := [entry, 0, 0x80122, 0x4000000001] ++ List.replicate 4 0 ++ [mask] ++ List.replicate 22 0 ++ [2 ^ 63 + seq * 2 ^ 56]
  let s := { demo with wins := [(0, { Window.init with en := true, base := 1 })], nodes := [] }
  { s with mem := putBytes s.mem (hostLoc 4096) (r.flatMap fun x => bytesOf 8 (BitVec.ofNat 64 x)) }
/-- Its words and its fields. -/
def recordOf (s : State) : List DWord × LaunchRec := (s.slotWords (s.window 0) 0, parseRec (s.slotWords (s.window 0) 0))
theorem witness_Dispatch_parse_legal :
    let s := recordAt 0 0x40000 1
    let x := recordOf s
    (s.window 0).en = true ∧ (s.window 0).stop = false ∧ (recDword x.1 31).getLsbD 63 = true ∧ x.2.seq = (s.window 0).nseq ∧
      x.2.seq < 128 ∧ s.canParse 0 = true ∧ 1 + x.2.live.length ≤ s.freeEntries ∧ recordCode s x.1 x.2 = none ∧ s.tableWaits x.2 = false ∧ (s.tableScalars x.2).isSome = true := by
  decide +kernel
theorem witness_Dispatch_parse_other :
    (recordOf (recordAt 127 0x40000 0)).2.seq = 127 ∧
      (let s := recordAt 0 0x40010 0
       recordCode s (recordOf s).1 (recordOf s).2 = some 4) ∧
      ({ recordAt 0 0x40000 0 with nodes := List.replicate 1024 ⟨0, placedRec false, [], [], none, none, none, false, false, 0⟩ }).freeEntries = 0 ∧
      (let s := recordAt 0 0x40000 1
       ({ s with poison := [0] }).tableScalars (recordOf s).2 = none) := by decide +kernel
/-- A node of window 0 that has parsed and not started, with transfers in the states `xst`. -/
def nodeAt (xst : List (Nat × Nat)) : State :=
  { demo with
    wins := [(0, { Window.init with en := true, pre := true })]
    nodes := [⟨0, { placedRec false with xfers := [(0, 0x62000, 64), (0, 0, 0)] }, [], xst, none, none, none, false, false, 0⟩] }
theorem witness_SequencerOperations_ungrouped :
    let s := { meeting with grids := demo.grids }
    ([0, 1, 2, 3].filterMap s.physical?).filter (coWaiting s) = [0, 1, 2, 3] ∧ s.seqGrid 0 = some 1 ∧
      (s.grid? 1).map (·.lr.cogrp) = some 0 := by decide +kernel
theorem witness_Dispatch_start :
    ∀ xst ∈ [[(0, 0)], [(0, 1)], [(0, 2)], []],
      let s := nodeAt xst
      (s.firstNode 0).map (fun n => (n.grid, n.failed, n.xst)) = some (none, false, xst) ∧ s.ckptDrains = false ∧
        depsMet (s.beforeNode 0) (placedRec false) = true ∧ (s.window 0).susp = none ∧ s.markDue 0 = false ∧ s.firstNode 1 = none ∧
        s.probeSpan 0 0 0x62000 64 0 false = none := by decide +kernel
theorem witness_Dispatch_transfer :
    let s := nodeAt [(0, 1)]
    let u := s.modTower 1 fun t => { t with phase := .dead }
    (s.nodes.find? fun n => n.win == 0 && n.xst.contains (0, 1)).isSome = true ∧ s.probeSpan 0 0 0x62000 64 0 false = none ∧
      ((s.laxRuns 0 0x62000 64).map fun r => (s.blocked hubCore r.1 true, s.reach hubCore r.1 true true)) = [(false, .served)] ∧
      u.probeSpan 0 0 0x62000 64 0 false = none ∧
      ((u.laxRuns 0 0x62000 64).map fun r => (u.blocked hubCore r.1 true, u.reach hubCore r.1 true true)) = [(false, .dead)] := by
  decide +kernel

/-- A grid with one team to place, on a device with one core mapped. -/
def placing : State :=
  let s := State.reset.placed 0 0 false []
  { s with
    boot := { s.boot with phase := 2, map := [(0, 0)] }
    cores := []
    teams := []
    grids := s.grids.map fun p => (p.1, { p.2 with nextTeam := 0 }) }
theorem witness_Placement_place :
    let s := placing.reserve
    (s.grid? 1).map (fun g => ((s.openTeams 1 g).find? fun n => s.placeable 1 g n 0, (s.openTeams 1 g).any fun n => s.placeable 1 g n 1,
        g.parent, g.grouped)) = some (some 0, false, none, false) ∧
      (∀ x ∈ s.waitingGrids, x.1 = 1) ∧
      ∀ x ∈ s.waitingGrids, keyBefore (s.teamKey x) (s.teamKey (1, x.2.1, 0)) = false := by decide +kernel
theorem witness_Placement_moves :
    let s := demo.modCore 0 fun c => { c with moving := some (2, false, 0) }
    let u := demo.modTeam 2 fun tm => { tm with zeroing := true }
    (s.core 0).moving = some (2, false, 0) ∧ (s.core 0).fused = false ∧ (s.writeBack 0 false).isSome = true ∧
      0 + 128 * (2 - (s.core 0).segs) ≤ ({ s with coreNow := 256 }).coreNow ∧ (2 - (s.core 0).segs) ≤ 2 ∧
      s.coreNow < 128 * (2 - (s.core 0).segs) ∧ (demo.core 0).moving = none ∧
      (∀ x ∈ demo.resident 0, x.2.zeroing = false) ∧ ((u.resident 0).find? fun t => t.2.zeroing) = some (2, { team0 with zeroing := true }) ∧
      (∀ k ∈ team0.cores, (u.core k).moving = none) ∧ u.pend = [] := by decide +kernel
/-- Nine warps on core 0: eight in the active set, the ninth ready outside. -/
def crowd (w : Warp) : State :=
  { demo with
    coreNow := 4096
    cores := [(0, { Core.init with warps := (List.range 9).map fun k => (k, if k = 0 then w else { warp0 with num := k, inSet := k < 8 }) })] }
theorem witness_PreemptionAndActiveSet_hold :
    let s := crowd warp0
    let u := s.refillSet 0
    s.warp? 0 0 = some warp0 ∧ warp0.inSet = true ∧ warp0.enteredAt + 4096 ≤ s.coreNow ∧ u.outsideReady 0 ≠ [] ∧
      (∃ x ∈ u.outsideReady 0, x.1 ≠ 0 ∧ x.2.readyAt < s.coreNow) ∧ ((u.core 0).warps.filter fun p => p.2.inSet).length = 8 ∧
      (∀ p ∈ (u.core 0).warps, p.2.yielded = false ∧ u.blockedMember 0 p.1 p.2 = false) ∧
      ((u.core 0).warps.map (·.1)).Pairwise (· < ·) := by decide +kernel
theorem witness_PreemptionAndActiveSet_blocked :
    let w := withWait (.sleep 9999)
    let s := crowd w
    s.warp? 0 0 = some w ∧ w.inSet = true ∧ w.lastIssue + 64 ≤ s.coreNow ∧ s.warpReady 0 0 w = false := by decide +kernel
/-- A started node of class 2, while a kernel of class 0 has waited 4,096 hub cycles for its place. -/
def preempting (mark : Option Nat) : State :=
  let s := placing
  { s with
    hubNow := 4096
    wins := [(0, { Window.init with en := true, pre := true, susp := if mark.isSome then some 2 else none })]
    grids := s.grids ++ [(5, { newGrid ⟨0, { placedRec false with prio := 2, pdl := 1 }, [], [], none, none, none, false, false, 0⟩ [] with nextTeam := 1 })]
    nodes := [⟨0, { placedRec false with prio := 2, pdl := 1 }, [], [], some 0, some 5, mark, false, false, 0⟩,
      ⟨1, placedRec false, [], [], some 0, some 1, none, false, false, 0⟩] }
theorem witness_PreemptionAndActiveSet_mark :
    let s := preempting none
    (s.firstNode 0).map (fun n => (n.grid.isSome, n.mark, n.lr.prio)) = some (true, none, 2) ∧ (s.window 0).pre = true ∧
      (∃ x ∈ s.waitingGrids, x.2.1.lr.prio < 2 ∧ (s.nodeOf x.1).map (·.placedAt) = some 0) ∧
      0 + 4096 ≤ s.hubNow ∧ s.markDue 0 = false ∧ (∃ n ∈ s.nodes, n.win = 0 ∧ s.markable n = true) ∧
      (∀ n ∈ s.nodes, s.markable n = true → n.lr.prio = 2) ∧
      ({ s with wins := [(0, { s.window 0 with lastDone := some (4096, 2) })] }).markDue 0 = true := by decide +kernel
theorem witness_PreemptionAndActiveSet_deadline :
    let s := preempting (some 3072)
    (s.firstNode 0).map (fun n => (n.mark, n.lr.pdl)) = some (some 3072, 1) ∧ 3072 + 1 * 1024 ≤ s.hubNow ∧ (s.window 0).susp = some 2 ∧
      (∃ x ∈ s.waitingGrids, x.2.1.lr.prio < 2) ∧ ({ s with grids := [] }).waitingGrids = [] ∧ (demo.window 0).susp = none := by decide +kernel
/-- A sliced warp, its access slice at the word `w0` and NOPs after it. -/
def ahead (w0 : Word) : State :=
  let s := State.reset.placed 0 0 true (w0 :: List.replicate 7 filler)
  { s with boot := { s.boot with phase := 2 } }
/-- The same, its s4 = `base`. -/
def aheadAt (base : DWord) (w0 : Word) : State := (ahead w0).modWarp 0 0 fun w => w.sset 4 base
/-- A load (A-marked LD.n32 q2, [s4+0]: 0xE0041000) that can be performed, one that faults, one whose memory waits, and a control word
(A-marked JMP s16). -/
theorem witness_AccessSlice :
    let ld : Instr := .ld true 7 .w32 2 4 0 0
    let met (s : State) := (s.warp? 0 0).map fun w => (firstLoad (s.piccoloAll 0 w), (probeTrap s 0 0 w.alive 0x40000 w ld).map (·.waits),
      (s.queueLoad 0 0 w ld).isSome)
    met (aheadAt 0x62000 0xE0041000) = some (some (0x40000, ld), none, true) ∧
      (met (aheadAt 0x200000000000000 0xE0041000)).map (fun x => (x.1, x.2.1)) = some (some (0x40000, ld), some false) ∧
      met ((aheadAt 0x62000 0xE0041000).modTower 1 fun t => { t with phase := .fenced }) = some (some (0x40000, ld), none, false) := by
  decide +kernel
theorem witness_AccessSlice_control :
    let s := ahead 0xF1004000
    (s.warp? 0 0).map (fun w => (s.sliced w, s.frozen w, (s.piccoloAll 0 w).map (·.2))) =
      some (true, false, List.replicate 16 (.control 0x40000 1 (.jmp true 16) 0 [])) := by decide +kernel

/-- The kernel's team halted in a context with a trap queue of 16 records, its warp stopped. -/
def haltedDemo (wait : Bool) (stopped : Bool) : State :=
  let s := stateOf { warp0 with stopped := stopped }
  { s with
    teams := [(2, { halted0 with recWait := wait })]
    ctxs := s.ctxs.map fun p => (p.1, { p.2 with tqlog := 4, tqbase := 2 }) }
theorem witness_HaltsAndCommands_record :
    let s := haltedDemo true true
    s.team? 2 = some { halted0 with recWait := true } ∧ s.haltDone 2 { halted0 with recWait := true } = true ∧ s.pend = [] ∧
      (let c := s.ctx (s.teamCtx halted0)
       (c.tqhead + 1) % 2 ^ c.tqlog ≠ c.tqtail ∧ s.reach 0 (c.queueLoc c.tqhead) true true = .served) ∧
      (haltedDemo true false).haltDone 2 { halted0 with recWait := true } = false := by decide +kernel
/-- TCMD with GO names context 0, window 0, SEQ 0 and team 0, and RESUME or KILL. -/
theorem witness_HaltsAndCommands_tcmd :
    (haltedDemo false true).boot.phase = 2 ∧ (0x8000 : DWord).getLsbD 15 = true ∧ bitsAt 0x8000 8 2 = 0 ∧ bitsAt 0x8100 8 2 = 1 ∧
      (haltedDemo false true).tcmdTeam 0x8000 = some (2, halted0) ∧ (haltedDemo true true).tcmdTeam 0x8100 = some (2, { halted0 with recWait := true }) ∧
      demo.tcmdTeam 0x8000 = none ∧ (haltedDemo false true).tree ((haltedDemo false true).rootOf 1) = [1] := by decide +kernel
theorem witness_HaltsAndCommands_walk :
    demo.grid? 7 = none ∧ (demo.grid? 1).isSome = true ∧ (demo.tree 1).find? (fun g => !demo.gridStopped g) = some 1 ∧
      (∀ g ∈ (haltedDemo false true).tree 1, (haltedDemo false true).gridStopped g = true) ∧ (demo.teams.map (·.1)).Nodup := by decide +kernel

/-- The placed program's first step: the issue of a bundle of one word, which passes its checks and is not held back. -/
def placed0 : State := State.refillSet { State.reset.withFetchWord 32 0x8C0A5678 with agenda := [] } 0
/-- A core whose margin system is `m`. -/
def margin (m : Margin) : State := demo.modMgn 0 fun _ => m
/-- A first replay of a gang's issue and of the sequencer's; the third of one issue; one past RLIM; and the replay of a held core's repeat. -/
theorem witness_ReplaysAndEscalation :
    let x : IssueKey := ⟨0x40000, false, 0, 0xFFFF, false⟩
    placed0.nextIssue 0 0 (some 0) false = some x ∧ (placed0.core 0).replays = [] ∧ Margin.init.settling = false ∧ Margin.init.testing = none ∧
      (0 - Margin.init.origin) / 65536 ≤ Margin.init.window ∧ ((seqDemo id).nextIssue 0 0 none false).isSome = true ∧
      placed0.nextIssue 0 0 (some 0) true = none ∧
      min ({ Margin.init with run := 2, runOf := some x }.run + 1) 15 = 3 ∧
      min ({ Margin.init with win := mgnRlim 0 }.win + 1) 0xFFFF = mgnRlim 0 + 1 ∧ Margin.init.wroteAt 0 = none ∧ demo.mesc = false ∧
      { demo with fnmode := 63 }.mesc = true ∧ mgnLegal 0x1F00 = true := by decide +kernel
/-- A core with a request: a device whose core 0 serves logical core 0 and whose core 1 is a spare. -/
def requested (mesc : Bool) (e : Option Nat) (spare : Bool) (tm : Team) (w : Warp) : State :=
  let s := stateOf w
  { s with
    teams := [(2, tm)]
    fnmode := if mesc then 63 else 0
    boot := { s.boot with map := [(0, 0)] }
    cores := (0, { Core.init with
        warps := [(0, w)], semap := semapIdentity, hasSemap := true, mgn := { Margin.init with qreq := true, reqReady := true, reqEngine := e } }) ::
      (if spare then [(1, { Core.init with semap := semapIdentity, hasSemap := true, drain := true })] else []) }
theorem witness_TestsAndQuarantine_request :
    let s := requested false none false team0 warp0
    (s.core 0).mgn.qreq = true ∧ (s.core 0).mgn.reqReady = true ∧ (s.logical? 0).isSome = true ∧ s.mesc = false ∧
      s.rebindTo 0 = none ∧ s.spareFor 0 = none ∧ (requested false none true team0 warp0).spareFor 0 = some 1 ∧
      ((requested false (some 0) false team0 warp0).rebindTo 0).isSome = true ∧ (requested true none false team0 warp0).mesc = true ∧
      (requested false (some 0) true team0 warp0).coreStopped 0 = false ∧
      (requested false (some 0) true halted0 { warp0 with stopped := true }).coreStopped 0 = true := by decide +kernel
theorem witness_TestsAndQuarantine_test :
    let s := { margin Margin.init with teams := [] }
    s.resident 0 = [] ∧ (s.core 0).scanning = false ∧ (s.core 0).mgn.testing = none ∧
      ((margin { Margin.init with testing := some 2 }).core 0).mgn.testing = some 2 := by decide +kernel
/-- A warp in a region that it can go back to, one without a region, and one with a slice that retired in it. -/
theorem witness_RollbackAndBanks :
    let w := { warp0 with region := some ⟨0x40000, 0, 0, 0xFFFF⟩ }
    let s := (stateOf w).modCore 0 fun c => { c with rollback := [(0, (5, 6), false)] }
    s.warp? 0 0 = some w ∧ (s.core 0).rollback.find? (fun x => x.1 == 0) = some (0, (5, 6), false) ∧ w.trap = none ∧ w.pending = [] ∧
      w.recoverable = true ∧ s.truncateTrap 0 (s.ctxNo w) w 0 = none ∧ truncateChunk w 0 = none ∧
      s.team? w.team = some team0 ∧ team0.halted = false ∧ recordKept s.log 1 = true ∧ warp0.region = none ∧
      { warp0 with region := some ⟨0x40000, 0, 0, 0xFFFE⟩ }.recoverable = false ∧
      (demo.core 0).rollback.find? (fun x => x.1 == 0) = none ∧ demo.log.queue.length + 2 ≤ hubBuffer ∧
      ([⟨true, 3, 34, (0, 0)⟩] : List BankFail).find? (fun b => b.ua == true && b.bank == 3) = some ⟨true, 3, 34, (0, 0)⟩ ∧ 34 ≠ noSpare := by
  decide +kernel
/-- The truncation reads a chunk whose page no table maps. -/
theorem witness_RollbackAndBanks_fault :
    let w := { warp0 with region := some ⟨0x40000, 33, 0, 0xFFFF⟩, depth := 64, spilled := 64, rsb := 0x200000000000000 }
    let s := (stateOf w).modCore 0 fun c => { c with rollback := [(0, (5, 6), true)] }
    w.recoverable = true ∧ (s.truncateTrap 0 (s.ctxNo w) w 33).map (·.waits) = some false := by decide +kernel

theorem witness_ManagementCommands :
    demo.boot.phase = 2 ∧ State.reset.boot.phase ≠ 2 ∧ State.reset.cmd.tlbRun = [] ∧
      (let s := { demo with cmd := { demo.cmd with tlbRun := [0x8100] } }
       s.cmd.tlbRun = 0x8100 :: [] ∧ s.invWarps 0x8100 ≠ [] ∧ (∀ x ∈ s.invWarps 0x8100, s.canRetire x.1 x.2.1 x.2.2 = true) ∧ s.pend = [] ∧
         ∀ x ∈ s.invWarps 0x8100, x.2.2.pending = [] ∧ x.2.2.jobs = []) ∧
      (let s := { demo with log := { demo.log with log2 := 4, base := 1, queue := [mkRecord 5 0x11 0 (0, 0) 0 0 0 0] } }
       s.log.queue = mkRecord 5 0x11 0 (0, 0) 0 0 0 0 :: [] ∧ (s.log.head + 1) % 2 ^ s.log.log2 ≠ s.log.tail) ∧
      selectorOk (BitVec.ofNat 64 (1023 - 128 - 56)) = true := by decide +kernel
/-- Device memory's last byte; a tower that is fenced or dead. -/
theorem witness_HostAccesses :
    let dead := demo.modTower 0 fun t => { t with phase := .dead }
    let fenced := demo.modTower 0 fun t => { t with phase := .fenced }
    demo.boot.phase = 2 ∧ 2 ^ 39 - 1 + [(7 : Byte)].length ≤ 2 ^ 39 ∧ (2 ^ 39 - 1) % 4096 + 1 ≤ 4096 ∧
      demo.reach hubCore (2 ^ 39 - 1) true true = .served ∧
      demo.reach hubCore 0 false true = .served ∧ dead.reach hubCore 0 true true = .dead ∧ fenced.reach hubCore 0 true true = .waits ∧
      (demo.ctx 3).en = false ∧ (demo.ctx 0).en = true ∧ demo.pend = [] := by decide +kernel
theorem witness_Checkpoints :
    demo.ckpt.go = false ∧ demo.boot.phase = 2 ∧ (∀ i < 4, (demo.tower i).phase = .run) ∧
      (∃ i < 4, ((demo.modTower 3 fun t => { t with phase := .fenced }).tower i).phase ≠ .run) ∧
      (let s := { demo with teams := [], nodes := [], ckpt := { demo.ckpt with op := 1, phase := 1 } }
       s.ckpt.op = 1 ∧ s.ckpt.phase = 1 ∧ s.ckptDrained = true ∧ s.noTeams = true ∧ ∀ w < 64, (s.window w).en = false) ∧
      (let s := { demo with ckpt := { demo.ckpt with op := 2, phase := 2, dest := 0 } }
       s.ckpt.op = 2 ∧ s.ckpt.phase = 2 ∧ s.ckpt.dest * 2 ^ 16 + imageBytes ≤ hostLimit ∧ Memory.wf s.mem = true) ∧
      (let s := { demo with ckpt := { demo.ckpt with op := 1, phase := 2, dest := 2 ^ 36 - 1 } }
       s.ckpt.op = 1 ∧ s.ckpt.phase = 2 ∧ (∀ i < 4, (s.tower i).phase ≠ .dead) ∧ hostLimit < s.ckpt.dest * 2 ^ 16 + imageBytes ∧
         ∃ i < 4, ((s.modTower 3 fun t => { t with phase := .dead }).tower i).phase = .dead) ∧
      demo.noTeams = false := by decide +kernel
/-- Port 11 up; a peer's page, asked for and handed over; a page of this device that a peer or the device itself asks for. -/
theorem witness_LinksAndPages :
    let page := (2 ^ 51 + 11 * 2 ^ 47) / 2 ^ 16
    let s := { demo.modPort 11 fun p => { p with en := true, up := true } with
      pageReqs := [⟨11, 5, true, true⟩, ⟨selfPort, 7, true, false⟩], homePages := [(16 * 5 + 11, .m)] }
    demo.boot.phase = 2 ∧ 11 < 12 ∧ (s.port 11).en = true ∧ (s.port 11).up = true ∧ (demo.port 11).up = false ∧ isPeerPage page = true ∧
      portOf (page * 2 ^ 16) = 11 ∧ 2 ^ 23 - 1 < 2 ^ 23 ∧ s.pageReqs.find? (fun r => r.page == 5) = some ⟨11, 5, true, true⟩ ∧
      s.pageReqs.find? (fun r => r.page == 7) = some ⟨selfPort, 7, true, false⟩ ∧
      (∀ r ∈ s.pageReqs, r.page ≠ 6) ∧ isPeerPage 5 = false ∧ isPeerPage 7 = false ∧ (16 * 5 + 11, PageState.m) ∈ s.homePages := by
  decide +kernel
theorem witness_Towers :
    let at_ (ph : TowerPhase) (aw : Nat) := demo.modTower 3 fun t => { t with phase := ph, awake := aw }
    (∀ ph ∈ [TowerPhase.run, .quiescing, .fenced, .resetting, .waking, .dead], ((at_ ph 7).tower 3).phase = ph) ∧
      ((at_ .waking 7).tower 3).awake = 7 ∧ (at_ .run 7).tower 2 = Tower.init ∧
      (7 : Nat).testBit 2 = true ∧ (3 : Nat).testBit 2 = false ∧ (at_ .fenced 7).expired 3 = none ∧
      (∀ y ∈ demo.teams, (demo.grid? y.2.grid).isSome = true) ∧
      (let s := { demo.modTower 1 fun t => { t with wakes := [(2, 0)], timers := [(7, 0)] } with
        hubNow := 1048576, pend := [{ storeAt 2 (.bytes 0x62000 [1]) with agent := 0 }] }
       (s.tower 1).wakes.find? (fun w => w.1 == 2) = some (2, 0) ∧ 0 + 8192 ≤ s.hubNow ∧ s.expired 1 = some (7, 0, 0x62000) ∧
         (s.tower 1).phase ≠ .dead ∧ 0 + 1048576 ≤ s.hubNow) := by decide +kernel
theorem witness_BootAndAttestation_requests :
    (let s := { demo with cmd := { demo.cmd with attRun := some 3 }, boot := { demo.boot with imgHash := List.replicate 48 7 } }
     s.cmd.attRun = some 3 ∧ s.boot.phase = 2 ∧ 3 * 4096 + 512 ≤ hostLimit ∧ s.pend = [] ∧ s.poisoned (hostLoc (3 * 4096) + 16) 48 = false ∧
       s.boot.imgHash.length = 48) ∧
      hostLimit < (2 ^ 40 - 1) * 4096 + 512 ∧ State.reset.boot.phase = 0 ∧
      imageCode State.reset.boot (State.reset.boot.flash.getD 0 []) ≠ 0 := by decide +kernel
/-- A flash image with a body of 8 bytes, signed outside the model (by the published standards, with a program of another language). -/
def image0 : List Byte := beBytes 520 0x49464d4b0100150008000000000000000000000000000000001f000000000000000000000000000000000000000000000000000000000000000000000000000000000000000000000000000000000000000000000000000000000000000000000000000000000000000000000000000000000000000000000000000000000000045431371a28f9641603c0bef7ff6ed52a8e315b83633aa2a8bb0deaa5b7f52e3ca83428ddd6e338b111677946ee971fa7831d81ac7a67f020017ef693e5fa462dfde3254fe4c8b2a90182ab325b63c11cdfab16df55e1d3397746024afd1e64c300000000000000539e9000222601681c88a02e1694709878aed678cf732e00d7570b02eeb6ffde02d8e6e3e1c108626449f5fba22786182e51c8e0395181b2d359f1d3d53b6fabec563c9fa10ad885f17be94beb8a72d5626d6f8ce00d5011f34884d7d7c9cd29000000000000000000000000000000000000000000000000000000000000000000000000000000000000000000000000000000000000000000000000000000000000000000000000000000000000000000000000000000000000000000000000000000000000000000000000000000000000000000000000000000000000000000000000000000000000000000000000000000000000000000000000000000000000000000000000000000000000000000000000000000005a5a5a5a5a5a5a5a
/-- Fuses that name its key. -/
def boot0 : Boot :=
  { Boot.init with
    flash := [image0]
    rootHash := beBytes 48 0x4640473cb368fb0dc9b10bfeb0e037608afe00074b821a63470035fb87540a61d776130e54a7e4b24a26530973c4e384 }
set_option maxRecDepth 10000 in
theorem witness_BootAndAttestation_image : imageCode boot0 (boot0.flash.getD 0 []) = 0 := by decide +kernel
theorem witness_BootAndAttestation_map :
    State.reset.bootMap.isSome = true ∧
      { State.reset with boot := { boot0 with quarantined := List.range 9 } }.bootMap = none := by decide +kernel
/-- SHA-384 of the message "abc", as its standard gives it. -/
theorem test_sha384 : sha384 [0x61, 0x62, 0x63] =
    beBytes 48 0xcb00753f45a35e8bb5a03d699ac65007272c32ab0eded1631a8b605a43ff5bed8086072ba1e7cc2358baeca134c825a7 := by decide +kernel
theorem witness_DecodeOfEncode :
    (Instr.add ⟨true, 0⟩ .w64 126 (.v 0) (.s 63)).wf = true ∧ (encode (.add ⟨true, 0⟩ .w64 126 (.v 0) (.s 63))).isSome = true ∧
      (encode (.segh 0xFFFFFF 0xFFFFFFFF)).isSome = true := by decide +kernel
theorem witness_WordsHaveOneReading : decodeWord true 0 0xBC003041 = .ok (.tld 0 3 1) ∧ wordA 0xBC003041 = false := by decide +kernel
theorem witness_StepsRunInstructions_word :
    (State.reset.withFetchWord 32 0x8C0A5678).agenda = [.issue 0 0 0] ∧
      (placed0.warp? 0 0).map (fun w => (w.slices.map (·.retired), w.gangGoes 0, placed0.slotOpen 0 0 w 0xFFFF, w.pending.isEmpty)) =
        some (List.replicate 16 false, true, true, true) ∧
      (match placed0.fetchWords 0 0 0x40000 with
        | .inr ws => decide (ws.head? = some 0x8C0A5678) && ws.tail.all wordS
        | .inl _ => false) = true := by decide +kernel
theorem witness_StepsRunInstructions_checks :
    let i : Instr := .movi .none 5 0x5678
    (placed0.warp? 0 0).map (fun w => ((decodeTrap placed0 w i).isNone, bundleHazard w 0xFFFF 0 [i],
      (bundleTrap placed0 0 0 0xFFFF 0x40000 w [(0, 0x8C0A5678)] [i]).isNone, (placed0.latentFor 0 0 w 0xFFFF [i]).isNone,
      ({ placed0 with cur := gangCursor 0 0 0xFFFF 0x40000 1 }).wordStalls 0 0 w 0xFFFF 0x40000 i)) =
        some (true, false, true, true, false) := by decide +kernel
theorem witness_StepsRunInstructions_seq :
    let s := State.reset.withFetchWord 32 0xBE00001C
    s.agenda = [.seqCycle 0] ∧ (s.seqTeam 0).map (fun x => (x.1, x.2.halted)) = some (2, false) ∧
      (let q := (s.core 0).seq
       (s.core 0).mgn.settling = false ∧ (s.core 0).mgn.testing = none ∧ (s.latentShared 0 [.shalt]).isNone = true ∧ q.wait = .none ∧
         q.issued = false ∧ q.landings = [] ∧ q.ended = false ∧ q.settling = true ∧ q.coGo = 0) ∧ coWord [.shalt] = none := by decide +kernel
theorem witness_MemoryStaysCanonical : Memory.wf demo.mem = true ∧ Memory.wf State.reset.mem = true := by decide +kernel
/-- An event at the head of the agenda (StepsRunInstructions), and no move left. -/
theorem witness_StepsRunInstructions_event : encode .qladdStored = none ∧ State.reset.agenda = [] := by decide +kernel

end Sys2Proof.Tests
end

section
/-! PROOFS. The host's accesses: what raising the stores in flight leaves, what a write at its home leaves, and which register a write
reaches. -/

namespace Sys2Proof.Machine
open Sys2Proof

/-! ### What raising stores in flight leaves -/

/-- The state without what raising stores in flight works on: memory with its poison and older copies, the beam tables, the stores
themselves, and the counter of free values. -/
def State.sansStores (s : State) : State :=
  { s with mem := [], poison := [], pend := [], stale := [], fills := [], beams := [], fresh := 0 }

/-- Two entries of one store in flight, at two moments of its rise: its number, the kind of its page and its locations are the same. -/
structure PendStore.SameStore (p q : PendStore) : Prop where
  id : q.id = p.id
  si : q.si = p.si
  range : q.op.range = p.op.range

/-- From `s` to `t` stores have risen or were performed: nothing else changed, and none was issued. -/
structure Rises (s t : State) : Prop where
  rest : t.sansStores = s.sansStores
  stores : ∀ p ∈ t.pend, ∃ q ∈ s.pend, p.SameStore q

theorem Rises.of_subset {s t : State} (hr : t.sansStores = s.sansStores) (hp : t.pend ⊆ s.pend) : Rises s t :=
  ⟨hr, fun p h => ⟨p, hp h, ⟨rfl, rfl, rfl⟩⟩⟩
theorem Rises.refl (s : State) : Rises s s := .of_subset rfl (List.Subset.refl _)
theorem Rises.trans {s t u : State} (h : Rises s t) (g : Rises t u) : Rises s u where
  rest := g.rest.trans h.rest
  stores p hp := by
    obtain ⟨q, hq, hpq⟩ := g.stores p hp
    obtain ⟨r, hr, hqr⟩ := h.stores q hq
    exact ⟨r, hr, ⟨hqr.id.trans hpq.id, hqr.si.trans hpq.si, hqr.range.trans hpq.range⟩⟩
/-- The older copies may be any. -/
theorem Rises.with_stale {s t : State} (h : Rises s t) (xs : List Stale) : Rises s { t with stale := xs } := ⟨h.rest, h.stores⟩
theorem Rises.foldl {β : Type} (f : State → β → State) (hf : ∀ s x, Rises s (f s x)) (xs : List β) (s : State) :
    Rises s (xs.foldl f s) := by
  induction xs generalizing s with
  | nil => exact .refl s
  | cons x r ih => exact (hf s x).trans (ih _)

theorem Rises.cores {s t : State} (h : Rises s t) : t.cores = s.cores := (congrArg State.cores h.rest :)
theorem Rises.teams {s t : State} (h : Rises s t) : t.teams = s.teams := (congrArg State.teams h.rest :)
theorem Rises.tlb {s t : State} (h : Rises s t) : t.tlb = s.tlb := (congrArg State.tlb h.rest :)
theorem Rises.nextId {s t : State} (h : Rises s t) : t.nextId = s.nextId := (congrArg State.nextId h.rest :)
theorem Rises.siMapped {s t : State} (h : Rises s t) (loc : Nat) : t.siMapped loc = s.siMapped loc := by
  simp only [State.siMapped, h.tlb]
theorem Rises.roMapped {s t : State} (h : Rises s t) (loc : Nat) : t.roMapped loc = s.roMapped loc := by
  simp only [State.roMapped, h.tlb]

@[simp] theorem State.applyStore_pend (s : State) (op : StoreOp) : (s.applyStore op).pend = s.pend := by
  cases op with
  | red loc op b => simp only [State.applyStore]; split <;> rfl
  | bytes | bitld | bitpitch | bitsw | mark => rfl
@[simp] theorem State.applyStore_sansStores (s : State) (op : StoreOp) : (s.applyStore op).sansStores = s.sansStores := by
  cases op with
  | red loc op b => simp only [State.applyStore]; split <;> rfl
  | bytes | bitld | bitpitch | bitsw | mark => rfl
@[simp] theorem State.fill_pend (s : State) (word loc n : Nat) : (s.fill word loc n).pend = s.pend := by
  simp only [State.fill]; split <;> rfl
@[simp] theorem State.fill_sansStores (s : State) (word loc n : Nat) : (s.fill word loc n).sansStores = s.sansStores := by
  simp only [State.fill]; split <;> rfl
@[simp] theorem State.freeDoms_pend (s : State) (p : PendStore) : (s.freeDoms p).2.pend = s.pend := by
  simp only [State.freeDoms]; split <;> rfl
@[simp] theorem State.freeDoms_sansStores (s : State) (p : PendStore) : (s.freeDoms p).2.sansStores = s.sansStores := by
  simp only [State.freeDoms]; split <;> rfl

theorem State.freeDoms_rises (s : State) (p : PendStore) : Rises s (s.freeDoms p).2 :=
  .of_subset (s.freeDoms_sansStores p) (by rw [State.freeDoms_pend]; exact List.Subset.refl _)
theorem State.dropStale_rises (s : State) (sel : Nat → Bool) (loc n : Nat) : Rises s (s.dropStale sel loc n) where
  rest := rfl
  stores p hp := by
    obtain ⟨q, hq, rfl⟩ := List.mem_map.1 hp
    refine ⟨q, hq, ?_⟩
    split <;> exact ⟨rfl, rfl, rfl⟩

/-- Dropping older copies leaves each store at its level. -/
@[simp] theorem State.dropStale_levelNow (s : State) (sel : Nat → Bool) (loc n id : Nat) :
    (s.dropStale sel loc n).levelNow id = s.levelNow id := by
  have hid : ((fun q : PendStore => q.id == id) ∘ fun p =>
      if p.op.range.1 < loc + n ∧ loc < p.op.range.1 + p.op.range.2 then { p with late := p.late.filter fun d => !sel d } else p) =
      fun q => q.id == id := by
    funext p; simp only [Function.comp]; split <;> rfl
  simp only [State.levelNow, State.dropStale, List.find?_map, hid]
  cases s.pend.find? fun q => q.id == id with
  | none => rfl
  | some p => simp only [Option.map_some]; split <;> rfl

theorem State.performStore_rises (s : State) (p : PendStore) (late : List Nat) : Rises s (s.performStore p late) := by
  have hgone : Rises s { s with pend := s.pend.filter fun q => q.id != p.id } := .of_subset rfl (List.filter_subset_self _)
  have hdone : Rises s (({ s with pend := s.pend.filter fun q => q.id != p.id }.applyStore p.op).fill p.word p.op.range.1 p.op.range.2) :=
    hgone.trans (.of_subset (by simp) (by simp))
  unfold State.performStore
  split
  · exact hgone
  · exact (hdone.trans (State.dropStale_rises _ _ _ _)).with_stale _

@[simp] theorem bytesOf_length (n : Nat) (x : DWord) : (bytesOf n x).length = n := by
  induction n generalizing x with
  | zero => rfl
  | succ n ih => rw [bytesOf, List.length_cons, ih]

/-- The result of a reduction stands at the reduction's locations. -/
theorem State.risen_range (s : State) (p : PendStore) (level : Nat) : (s.risen p level).range = p.op.range := by
  unfold State.risen
  split
  · next loc op b hop =>
    split
    · split
      · simp [StoreOp.range, hop]
      · rfl
    · rfl
  · rfl

theorem State.rise_rises (s : State) (p : PendStore) (late : List Nat) (hp : p ∈ s.pend) : Rises s (s.rise p late) := by
  unfold State.rise
  split
  · exact s.performStore_rises p late
  · refine ⟨rfl, fun x hx => ?_⟩
    rcases List.mem_append.1 hx with hold | hnew
    · exact ⟨x, List.mem_of_mem_filter hold, ⟨rfl, rfl, rfl⟩⟩
    · obtain rfl := List.mem_singleton.1 hnew
      exact ⟨p, hp, ⟨rfl, rfl, (s.risen_range p _).symm⟩⟩

theorem State.lift_rises (fuel : Nat) (s : State) (id level : Nat) : Rises s (State.lift fuel s id level) := by
  induction fuel generalizing s id level with
  | zero => exact .refl s
  | succ fuel ih =>
    simp only [State.lift]
    split
    · exact .refl s
    · next p _ =>
      split
      · exact .refl s
      · have hheld : Rises s ((s.holding p).foldl (fun s c => State.lift fuel s c.1 c.2) s) :=
          .foldl (fun (s : State) (c : Nat × Nat) => State.lift fuel s c.1 c.2) (fun s c => ih s c.1 c.2) _ s
        split
        · exact hheld
        · next q hq =>
          split
          · exact hheld
          · exact (hheld.trans (State.freeDoms_rises _ q)).trans
              ((State.rise_rises _ q _ (by simpa using List.mem_of_find?_eq_some hq)).trans (ih _ _ _))

theorem State.flushTo_rises (s : State) (level : Nat) (sel : PendStore → Bool) : Rises s (s.flushTo level sel) :=
  .foldl (fun (s : State) (p : PendStore) => s.raiseTo p.id level) (fun s p => State.lift_rises s.riseFuel s p.id level) _ s

/-- Without a store in flight there is nothing to raise. -/
theorem State.flushTo_idle (s : State) (level : Nat) (sel : PendStore → Bool) (h : s.pend = []) : s.flushTo level sel = s := by
  simp [State.flushTo, h]

theorem State.bytes_congr {s t : State} (h : s.mem = t.mem) (loc n : Nat) : s.bytes loc n = t.bytes loc n := by
  induction n generalizing loc with
  | zero => rfl
  | succ n ih => rw [State.bytes, State.bytes, State.byte, State.byte, h, ih]
/-- Whether a store in flight meets a range depends on its locations alone. -/
theorem PendStore.meets_eq (p : PendStore) (loc n : Nat) :
    p.meets loc n = (decide (p.op.range.1 < loc + n) && decide (loc < p.op.range.1 + p.op.range.2)) := by
  have htable : (p.op.table.isSome && p.op.table == (StoreOp.bytes loc (List.replicate n 0)).table) = false := by
    cases p.op.table <;> rfl
  have hrange : (StoreOp.bytes loc (List.replicate n 0)).range = (loc, n) := by simp [StoreOp.range]
  simp only [PendStore.meets, StoreOp.overlaps, htable, hrange, Bool.false_or]

/-- Once a flush has succeeded, no entry that it selects by number, page kind and locations is below its level. -/
theorem State.levelNow_of_flushed (s : State) (level : Nat) (sel : PendStore → Bool) (hsel : ∀ p q, p.SameStore q → sel p = sel q)
    (hf : (s.flushed level sel).isSome = true) (p : PendStore) (hp : p ∈ (s.flushTo level sel).pend) (hs : sel p = true) :
    level ≤ (s.flushTo level sel).levelNow p.id := by
  obtain ⟨q, hq, hpq⟩ := (s.flushTo_rises level sel).stores p hp
  have hall : ∀ x ∈ s.pend, sel x = true → level ≤ (s.flushTo level sel).levelNow x.id := by
    simpa [State.flushed, Option.isSome_ite, ← Bool.not_eq_true, ← imp_iff_not_or] using hf
  rw [← hpq.id]
  exact hall q hq (hsel p q hpq ▸ hs)

/-! ### What an access reaches -/

theorem State.reach_sansStores (s : State) (k loc : Nat) (wr uc : Bool) : s.sansStores.reach k loc wr uc = s.reach k loc wr uc := rfl
theorem Rises.reach {s t : State} (h : Rises s t) (k loc : Nat) (wr uc : Bool) : t.reach k loc wr uc = s.reach k loc wr uc := by
  rw [← t.reach_sansStores, h.rest, s.reach_sansStores]

/-- A request is answered with an error just when its home tower is dead or the port to its home is down (R438, R468), whoever makes it. -/
theorem State.reach_eq_dead_iff (s : State) (k loc : Nat) (wr uc : Bool) : s.reach k loc wr uc = .dead ↔
    (loc < devLimit ∧ (s.tower (towerOf loc)).phase = .dead) ∨
      (¬loc < peerBase ∧ loc < hubMemory ∧ (s.port (portOf loc)).up = false) := by
  have hlim : devLimit < peerBase := by decide
  unfold State.reach
  by_cases hdev : loc < devLimit
  · have hpeer : loc < peerBase := by omega
    cases hph : (s.tower (towerOf loc)).phase <;> simp [hdev, hpeer, hph, ite_eq_iff]
  · by_cases hpeer : loc < peerBase
    · simp [hdev, hpeer]
    · by_cases hhub : loc < hubMemory
      · cases hup : (s.port (portOf loc)).up <;> cases uc <;> simp [hdev, hpeer, hhub]
        split <;> simp
      · simp [hdev, hpeer, hhub]

/-! ### A write at its home -/

/-- Performing a store of bytes whose home answers writes them. -/
theorem State.performStore_bytes_mem (s : State) (p : PendStore) (late : List Nat) (loc : Nat) (bs : List Byte)
    (hop : p.op = .bytes loc bs) (h : s.reach 0 loc true true ≠ .dead) : (s.performStore p late).mem = putBytes s.mem loc bs := by
  have hlive : ¬(p.op.table.isNone && s.reach 0 p.op.range.1 true true == .dead) = true := by
    simpa [hop, StoreOp.table, StoreOp.range] using h
  unfold State.performStore
  rw [if_neg hlive]
  show (State.fill _ _ _ _).mem = _
  rw [State.fill_mem, hop]
  rfl

/-- What a write at its home leaves in memory: the stores in flight that it must follow, and then its bytes. -/
theorem State.homeWrite_mem (s : State) (loc : Nat) (si : Bool) (bs : List Byte) (h : s.reach 0 loc true true ≠ .dead) :
    (s.homeWrite loc si bs).mem = putBytes (s.flush fun p => !p.si && p.meets loc bs.length).mem loc bs := by
  simp only [State.homeWrite]
  rw [State.performStore_bytes_mem _ _ _ loc bs rfl, State.freeDoms_mem]
  rw [← State.reach_sansStores, State.freeDoms_sansStores]
  exact ((s.flushTo_rises 4 _).reach 0 loc true true).symm ▸ h
/-- Beside memory, a write at its home only takes a number. -/
theorem State.homeWrite_sansStores (s : State) (loc : Nat) (si : Bool) (bs : List Byte) :
    (s.homeWrite loc si bs).sansStores = { s.sansStores with nextId := s.nextId + 1 } := by
  have hflush := s.flushTo_rises 4 fun p => !p.si && p.meets loc bs.length
  have hid : (s.flush fun p => !p.si && p.meets loc bs.length).nextId = s.nextId := hflush.nextId
  simp only [State.homeWrite]
  rw [(State.performStore_rises _ _ _).rest, State.freeDoms_sansStores, hid]
  exact congrArg (fun x : State => { x with nextId := s.nextId + 1 }) hflush.rest

theorem State.byte_homeWrite_same (s : State) (loc i : Nat) (si : Bool) (bs : List Byte) (h : s.reach 0 loc true true ≠ .dead)
    (hi : i < bs.length) : (s.homeWrite loc si bs).byte (loc + i) = bs.getD i 0 := by
  rw [State.byte, s.homeWrite_mem loc si bs h, sget_putBytes_same _ _ _ _ hi]
theorem State.byte_homeWrite_other (s : State) (loc a : Nat) (si : Bool) (bs : List Byte) (h : s.reach 0 loc true true ≠ .dead)
    (hp : s.pend = []) (ha : a < loc ∨ loc + bs.length ≤ a) : (s.homeWrite loc si bs).byte a = s.byte a := by
  rw [State.byte, s.homeWrite_mem loc si bs h, sget_putBytes_other _ _ _ _ ha, State.flush, s.flushTo_idle 4 _ hp, State.byte]

/-! ### The host's accesses and snoops -/

theorem exec_hostCxlAccess (pa n : Nat) (wr : Option (List Byte)) (s : State) :
    exec (.hostCxlAccess pa wr n) s = execHostCxlAccess pa wr n s := rfl
theorem exec_registerWrite (off : Nat) (v : DWord) (s : State) : exec (.registerWrite off v) s = .next (s.writeReg off v) := rfl
theorem exec_lwinWrite (w : Nat) (v : DWord) (s : State) :
    exec (.lwinWrite w v) s = .next (if w < 64 ∧ s.boot.phase = 2 then s.writeLwin w v else s) := rfl

theorem State.outsideRead_rises (s : State) (loc n : Nat) : Rises s (s.outsideRead loc n) := s.flushTo_rises 4 _

/-- An access beyond the device's memory, across a page, or before READY has no effect. -/
theorem exec_hostCxlAccess_ignored (s : State) (pa n : Nat) (wr : Option (List Byte))
    (h : s.boot.phase ≠ 2 ∨ 2 ^ 39 < pa + (wr.map List.length).getD n ∨ 4096 < pa % 4096 + (wr.map List.length).getD n) :
    exec (.hostCxlAccess pa wr n) s = .next s := by
  cases wr <;> exact congrArg Host.Outcome.next (if_pos h)

section
variable {s : State} {pa n : Nat} (hready : s.boot.phase = 2)
include hready

/-- The host's access goes on: the device is READY, and the access lies in device memory and in one page. -/
theorem hostAccess_fits {m : Nat} (hend : pa + m ≤ 2 ^ 39) (hpage : pa % 4096 + m ≤ 4096) :
    ¬(s.boot.phase ≠ 2 ∨ devLimit < pa + m ∨ 4096 < pa % 4096 + m) := by simp only [devLimit]; omega

theorem exec_hostCxlAccess_write {bs : List Byte} (hend : pa + bs.length ≤ 2 ^ 39) (hpage : pa % 4096 + bs.length ≤ 4096)
    (hreach : s.reach hubCore pa true true = .served) :
    exec (.hostCxlAccess pa (some bs) n) s = .next (s.outsideWrite pa bs) := by
  simp only [exec_hostCxlAccess, execHostCxlAccess]
  rw [if_neg (hostAccess_fits hready hend hpage), Option.isSome_some, hreach]

theorem exec_hostCxlAccess_read (hend : pa + n ≤ 2 ^ 39) (hpage : pa % 4096 + n ≤ 4096)
    (hreach : s.reach hubCore pa false true = .served) :
    exec (.hostCxlAccess pa none n) s =
      .next { s.outsideRead pa n with hostData := ((s.outsideRead pa n).bytes pa n, (s.outsideRead pa n).poisoned pa n) } := by
  simp only [exec_hostCxlAccess, execHostCxlAccess]
  rw [if_neg (hostAccess_fits hready hend hpage), Option.isSome_none, hreach]

variable {wr : Option (List Byte)} (hend : pa + (wr.map List.length).getD n ≤ 2 ^ 39)
  (hpage : pa % 4096 + (wr.map List.length).getD n ≤ 4096)
include hend hpage

theorem exec_hostCxlAccess_dead (hreach : s.reach hubCore pa wr.isSome true = .dead) :
    exec (.hostCxlAccess pa wr n) s = .next { s with hostData := ([], true) } := by
  cases wr <;> exact congrArg Host.Outcome.next ((if_neg (hostAccess_fits hready hend hpage)).trans (by rw [hreach]))

theorem exec_hostCxlAccess_waits (hreach : s.reach hubCore pa wr.isSome true = .waits) :
    exec (.hostCxlAccess pa wr n) s = .next (s.askPage pa wr.isSome true) := by
  cases wr <;> exact congrArg Host.Outcome.next ((if_neg (hostAccess_fits hready hend hpage)).trans (by rw [hreach]))
end

/-- Asking for a page of this device adds a request, if one is needed, and nothing else. -/
theorem State.askPage_device (s : State) (loc : Nat) (wr uc : Bool) (h : loc < peerBase) :
    s.askPage loc wr uc = { s with pageReqs := (s.askPage loc wr uc).pageReqs } := by
  have hpeer : decide (peerBase ≤ loc) = false := by simpa using h
  simp only [State.askPage, hpeer, Bool.false_and, Bool.not_false, if_true]
  split_ifs <;> rfl

/-- The host writes device memory. -/
theorem hostCxlAccess_write_served (s : State) (pa : Nat) (bs : List Byte) (n : Nat) (hready : s.boot.phase = 2)
    (hend : pa + bs.length ≤ 2 ^ 39) (hpage : pa % 4096 + bs.length ≤ 4096) (hreach : s.reach hubCore pa true true = .served) :
    ∃ t, exec (.hostCxlAccess pa (some bs) n) s = .next t ∧ t.cores = s.cores ∧ t.teams = s.teams ∧ t.hostData = s.hostData ∧
      (∀ i < bs.length, t.byte (pa + i) = bs.getD i 0) ∧
      (s.pend = [] → ∀ a, a < pa ∨ pa + bs.length ≤ a → t.byte a = s.byte a) := by
  have hlive : s.reach 0 pa true true ≠ .dead := fun hdead => by
    have := (s.reach_eq_dead_iff hubCore pa true true).2 ((s.reach_eq_dead_iff 0 pa true true).1 hdead)
    simp [hreach] at this
  have hrest := s.homeWrite_sansStores pa (s.siMapped pa) bs
  exact ⟨_, exec_hostCxlAccess_write hready hend hpage hreach, (congrArg State.cores hrest :), (congrArg State.teams hrest :),
    (congrArg State.hostData hrest :), fun i hi => s.byte_homeWrite_same pa i _ bs hlive hi,
    fun hp a ha => s.byte_homeWrite_other pa a _ bs hlive hp ha⟩

/-- The host reads device memory. -/
theorem hostCxlAccess_read_served (s : State) (pa n : Nat) (hready : s.boot.phase = 2) (hend : pa + n ≤ 2 ^ 39)
    (hpage : pa % 4096 + n ≤ 4096) (hreach : s.reach hubCore pa false true = .served) :
    ∃ t, exec (.hostCxlAccess pa none n) s = .next t ∧ t.cores = s.cores ∧ t.teams = s.teams ∧
      t.hostData = (t.bytes pa n, t.poisoned pa n) ∧ (s.pend = [] → SameBytes s t) := by
  have hrises := s.outsideRead_rises pa n
  refine ⟨_, exec_hostCxlAccess_read hready hend hpage hreach, hrises.cores, hrises.teams, ?_, fun hp a => ?_⟩
  · exact Prod.ext (State.bytes_congr (by rfl) pa n) rfl
  · rw [show s.outsideRead pa n = s from s.flushTo_idle 4 _ hp]; rfl

theorem exec_hostSnoop (s : State) (pa : Nat) (inv : Bool) :
    exec (.hostSnoop pa inv) s = .next (
      if inv && !s.siMapped (hostLoc (pa / 64 * 64)) && !s.roMapped (hostLoc (pa / 64 * 64)) then
        (s.outsideRead (hostLoc (pa / 64 * 64)) 64).dropStale (fun _ => true) (hostLoc (pa / 64 * 64)) 64
      else s.outsideRead (hostLoc (pa / 64 * 64)) 64) := by
  rw [← (s.outsideRead_rises _ 64).siMapped, ← (s.outsideRead_rises _ 64).roMapped]
  rfl

/-- A snoop of the host (R118): the older copies of a line that no SI or RO page covers go, and its stores in flight are performed. -/
theorem hostSnoop_line (s : State) (pa : Nat) (inv : Bool) :
    let lo := hostLoc (pa / 64 * 64)
    let line (p : PendStore) : Bool := !p.si && p.meets lo 64
    ∃ t, exec (.hostSnoop pa inv) s = .next t ∧ t.cores = s.cores ∧ t.teams = s.teams ∧ (s.pend = [] → SameBytes s t) ∧
      ((s.flushed 4 line).isSome = true → ∀ p ∈ t.pend, line p = true → 4 ≤ t.levelNow p.id) ∧
      (inv = true → s.siMapped lo = false → s.roMapped lo = false → ∀ x ∈ t.stale, x.loc < lo ∨ lo + 64 ≤ x.loc) := by
  intro lo line
  have hrises : Rises s (s.outsideRead lo 64) := s.outsideRead_rises lo 64
  have hsame : ∀ p q : PendStore, p.SameStore q → line p = line q := fun p q hpq => by
    simp only [line, PendStore.meets_eq, hpq.si, hpq.range]
  have hidle : s.pend = [] → s.outsideRead lo 64 = s := s.flushTo_idle 4 _
  by_cases hdrop : (inv && !s.siMapped lo && !s.roMapped lo) = true
  · refine ⟨_, (exec_hostSnoop s pa inv).trans (congrArg _ (if_pos hdrop)), hrises.cores, hrises.teams, fun hp a => ?_,
      fun hf p hp hl => ?_, fun _ _ _ x hx => ?_⟩
    · rw [hidle hp]; rfl
    · obtain ⟨q, hq, hpq⟩ := (State.dropStale_rises _ _ _ _).stores p hp
      rw [State.dropStale_levelNow, ← hpq.id]
      exact s.levelNow_of_flushed 4 line hsame hf q hq (hsame p q hpq ▸ hl)
    · have hkept := (List.mem_filter.1 hx).2
      simp only [Bool.true_and, Bool.not_and, Bool.or_eq_true, Bool.not_eq_true', decide_eq_false_iff_not] at hkept
      omega
  · refine ⟨_, (exec_hostSnoop s pa inv).trans (congrArg _ (if_neg hdrop)), hrises.cores, hrises.teams, fun hp a => ?_,
      fun hf p hp hl => s.levelNow_of_flushed 4 line hsame hf p hp hl, fun hinv hnosi hnoro => ?_⟩
    · rw [hidle hp]
    · simp [hinv, hnosi, hnoro] at hdrop

/-- What the host writes of its own memory is there at once (R118). -/
theorem State.byte_hostWrite (s : State) (hpa : Nat) (bs : List Byte) (hend : hpa + bs.length ≤ hostLimit)
    (hpage : hpa % 4096 + bs.length ≤ 4096) (i : Nat) (hi : i < bs.length) :
    (s.hostWrite hpa bs).byte (hostLoc hpa + i) = bs.getD i 0 := by
  have hloc : ¬hostLoc hpa < devLimit ∧ hostLoc hpa < peerBase := by
    simp only [hostLoc, hostLimit, devLimit, peerBase] at *; omega
  have hlive : s.reach 0 (hostLoc hpa) true true ≠ .dead := fun hdead => by
    rcases (s.reach_eq_dead_iff ..).1 hdead with ⟨hdev, _⟩ | ⟨hpeer, _⟩
    · exact hloc.1 hdev
    · exact hpeer hloc.2
  rw [State.hostWrite, if_pos ⟨hend, hpage⟩]
  exact s.byte_homeWrite_same (hostLoc hpa) i _ bs hlive hi

/-! ### Registers that the host writes -/

/-- Before READY only ATTCTL takes a write (R439, R442). -/
theorem exec_registerWrite_before_ready (s : State) (off : Nat) (v : DWord) (h : s.boot.phase ≠ 2) (hoff : off ≠ 0x400) :
    exec (.registerWrite off v) s = .next s := by
  rw [exec_registerWrite]
  by_cases hboot : off = 0x80
  · subst hboot; simp [State.writeReg, State.exposed, State.writeLow]
  · simp [State.writeReg, State.exposed, h, hoff, hboot]

section
variable {s : State} (hready : s.boot.phase = 2) (v : DWord)
include hready

/-- A write below offset 0x0600. -/
theorem exec_registerWrite_low {off : Nat} (h : off < 0x600) : exec (.registerWrite off v) s = .next (s.writeLow off v) := by
  rw [exec_registerWrite]
  simp [State.writeReg, State.exposed, hready, h]
/-- A write to the windows' block (Table 23.1): only LWIN takes one. -/
theorem exec_registerWrite_window {w o : Nat} (hw : w < 64) (ho : o < 128) :
    exec (.registerWrite (0x10000 + 128 * w + o) v) s = .next (if o = 0 then s.writeLwin w v else s) := by
  have hw' : (0x10000 + 128 * w + o - 0x10000) / 128 = w := by omega
  have ho' : (0x10000 + 128 * w + o) % 128 = o := by omega
  rw [exec_registerWrite]
  simp only [State.writeReg, State.exposed, hready]
  rw [if_neg (by simp), if_neg (by omega), if_neg (by omega), if_neg (by omega), if_pos (by omega), hw', ho']
/-- A write to the contexts' block (Table 25.1). -/
theorem exec_registerWrite_context {c o : Nat} (hc : c < 256) (ho : o < 64) :
    exec (.registerWrite (0x20000 + 64 * c + o) v) s = .next (s.writeCtx c o v) := by
  have hc' : (0x20000 + 64 * c + o - 0x20000) / 64 = c := by omega
  have ho' : (0x20000 + 64 * c + o) % 64 = o := by omega
  rw [exec_registerWrite]
  simp only [State.writeReg, State.exposed, hready]
  rw [if_neg (by simp), if_neg (by omega), if_neg (by omega), if_neg (by omega), if_neg (by omega), if_pos (by omega), hc', ho']
end

theorem State.ctx_modCtx_other (s : State) (c d : Nat) (f : Context → Context) (h : d ≠ c) : (s.modCtx c f).ctx d = s.ctx d := by
  simp only [State.ctx, State.modCtx, sfind_sinsert_other _ _ _ _ h]

/-- What a map finds once only the keys that `keep` selects are left. -/
theorem sfind_filter_key {α : Type} (keep : Nat → Bool) (m : List (Nat × α)) (k : Nat) :
    sfind (m.filter fun x => keep x.1) k = if keep k then sfind m k else none := by
  induction m with
  | nil => simp [sfind]
  | cons x r ih =>
    obtain ⟨a, v⟩ := x
    by_cases hk : a = k
    · subst hk; cases hkeep : keep a <;> simp [sfind, hkeep, ih]
    · cases hkeep : keep a <;> simp [sfind, hkeep, ih, hk]

/-- A context's creation sets its four tables to their creation state and leaves those of the others (R92). -/
theorem State.beam_createCtx (s : State) (c d k : Nat) (hk : k < 4) :
    (s.createCtx c).beam d k = if d = c then BeamTable.init else s.beam d k := by
  have hd : (4 * d + k) / 4 = d := by omega
  simp only [State.beam, State.createCtx]
  rw [sfind_filter_key (fun a => a / 4 != c), hd]
  by_cases h : d = c <;> simp [h]

/-- A write of CTXD(c) that raises EN creates the context first. -/
theorem State.writeCtx_creates (s : State) (c : Nat) (v : DWord) (hv : v.getLsbD 0 = true) (hen : (s.ctx c).en = false) :
    s.writeCtx c 0 v =
      (s.createCtx c).modCtx c fun x => { x with en := v.getLsbD 0, root := v.toNat / 2 ^ 16 % 2 ^ 36 } := by
  unfold State.writeCtx
  rw [if_pos ⟨rfl, hv, hen⟩]
  rfl
/-- A write of CTXD(c) that does not raise EN, or of another register of the block, stores the fields alone. -/
theorem State.writeCtx_stores (s : State) (c o : Nat) (v : DWord) (h : o = 0 → v.getLsbD 0 = false ∨ (s.ctx c).en = true) :
    s.writeCtx c o v = s.modCtx c fun x => { x with
      en := if o = 0 then v.getLsbD 0 else x.en, root := if o = 0 then v.toNat / 2 ^ 16 % 2 ^ 36 else x.root
      tqlog := if o = 8 then v.toNat % 16 else x.tqlog, tqbase := if o = 8 then v.toNat / 2 ^ 12 % 2 ^ 40 else x.tqbase
      tqtail := if o = 24 then v.toNat % 2 ^ 10 else x.tqtail, msiv := if o = 32 then v.toNat % 2 ^ 11 else x.msiv } := by
  have hkeeps : ¬(o = 0 ∧ v.getLsbD 0 ∧ (s.ctx c).en = false) := fun ⟨ho, hv, hen⟩ =>
    absurd (h ho) (by rw [hv, hen]; decide)
  unfold State.writeCtx
  rw [if_neg hkeeps]
  congr 1
  funext x
  split <;> simp_all [bitsAt]

/-- What a write of CTXD(c) leaves (R401): its context's EN and ROOT, and the tables of a context that it creates (R92). -/
theorem registerWrite_ctxd (s : State) (c : Nat) (v : DWord) (hready : s.boot.phase = 2) (hc : c < 256) :
    ∃ t, exec (.registerWrite (0x20000 + 64 * c) v) s = .next t ∧ t = { s with ctxs := t.ctxs, pend := t.pend, beams := t.beams } ∧
      (∀ d, d ≠ c → t.ctx d = s.ctx d) ∧ t.ctx c = { s.ctx c with en := v.getLsbD 0, root := v.toNat / 2 ^ 16 % 2 ^ 36 } ∧
      ((v.getLsbD 0 = false ∨ (s.ctx c).en = true) → t.pend = s.pend ∧ t.beams = s.beams) ∧
      (v.getLsbD 0 = true → (s.ctx c).en = false → ∀ k < 4, t.beam c k = BeamTable.init ∧ ∀ d, d ≠ c → t.beam d k = s.beam d k) := by
  have hexec := exec_registerWrite_context hready v hc (o := 0) (by decide)
  by_cases hrise : v.getLsbD 0 = true ∧ (s.ctx c).en = false
  · obtain ⟨hv, hen⟩ := hrise
    rw [s.writeCtx_creates c v hv hen] at hexec
    refine ⟨_, hexec, rfl, fun d hd => State.ctx_modCtx_other _ _ _ _ hd, State.ctx_modCtx _ _ _, fun h => ?_,
      fun _ _ k hk => ⟨(s.beam_createCtx c c k hk).trans (if_pos rfl), fun d hd => (s.beam_createCtx c d k hk).trans (if_neg hd)⟩⟩
    exact absurd h (by rw [hv, hen]; decide)
  · have hkeeps : v.getLsbD 0 = false ∨ (s.ctx c).en = true :=
      (not_and_or.1 hrise).imp Bool.eq_false_of_not_eq_true Bool.eq_true_of_not_eq_false
    rw [s.writeCtx_stores c 0 v fun _ => hkeeps] at hexec
    exact ⟨_, hexec, rfl, fun d hd => State.ctx_modCtx_other _ _ _ _ hd, State.ctx_modCtx _ _ _, fun _ => ⟨rfl, rfl⟩,
      fun hv hen => absurd ⟨hv, hen⟩ hrise⟩

/-- A write of another register of a context's block stores its fields; TQHEAD, at 16, takes none (Table 25.1). -/
theorem registerWrite_context_fields (s : State) (c o : Nat) (v : DWord) (hready : s.boot.phase = 2) (hc : c < 256) (ho : o < 64)
    (hpos : o ≠ 0) :
    ∃ t, exec (.registerWrite (0x20000 + 64 * c + o) v) s = .next t ∧ t = { s with ctxs := t.ctxs } ∧
      t.ctx c = { s.ctx c with
        tqlog := if o = 8 then v.toNat % 16 else (s.ctx c).tqlog
        tqbase := if o = 8 then v.toNat / 2 ^ 12 % 2 ^ 40 else (s.ctx c).tqbase
        tqtail := if o = 24 then v.toNat % 2 ^ 10 else (s.ctx c).tqtail
        msiv := if o = 32 then v.toNat % 2 ^ 11 else (s.ctx c).msiv } := by
  have hexec := exec_registerWrite_context hready v hc ho
  rw [s.writeCtx_stores c o v fun h => absurd h hpos] at hexec
  refine ⟨_, hexec, rfl, ?_⟩
  rw [State.ctx_modCtx, if_neg hpos, if_neg hpos]

/-- A write of LWIN(w) is the event of that write, and LWSTAT(w) takes none (Table 23.1). -/
theorem registerWrite_window (s : State) (w : Nat) (v : DWord) (hready : s.boot.phase = 2) (hw : w < 64) :
    exec (.registerWrite (0x10000 + 128 * w) v) s = exec (.lwinWrite w v) s ∧
      exec (.registerWrite (0x10000 + 128 * w + 8) v) s = .next s := by
  refine ⟨?_, exec_registerWrite_window hready v hw (o := 8) (by decide)⟩
  rw [exec_lwinWrite, if_pos ⟨hw, hready⟩]
  exact exec_registerWrite_window hready v hw (o := 0) (by decide)

/-- Settles O49, clause by clause with the lemma of each access: what an access leaves of the device comes from `Rises`, by which raising
the stores in flight changes nothing but memory and these stores; a register's write comes from that of its block. -/
theorem hostAccesses : Obligations.HostAccesses := by
  unfold Obligations.HostAccesses
  refine ⟨fun s pa wr n h => exec_hostCxlAccess_ignored s pa n wr h, hostCxlAccess_write_served, hostCxlAccess_read_served,
    fun s pa wr n hready hend hpage hreach => exec_hostCxlAccess_dead hready hend hpage hreach,
    fun s pa wr n hready hend hpage hreach => ⟨_, exec_hostCxlAccess_waits hready hend hpage hreach, ?_⟩,
    hostSnoop_line, State.byte_hostWrite, exec_registerWrite_before_ready,
    fun s c v hready hc => ⟨registerWrite_ctxd s c v hready hc,
      registerWrite_context_fields s c 8 v hready hc (by decide) (by decide),
      registerWrite_context_fields s c 16 v hready hc (by decide) (by decide),
      registerWrite_context_fields s c 24 v hready hc (by decide) (by decide),
      registerWrite_context_fields s c 32 v hready hc (by decide) (by decide)⟩,
    registerWrite_window,
    fun s v hready => ⟨?_, ?_, exec_registerWrite_low (off := 0x188) hready v (by decide),
      exec_registerWrite_low (off := 0x080) hready v (by decide), exec_registerWrite_low (off := 0x100) hready v (by decide)⟩,
    fun s v hready => ⟨_, exec_registerWrite_low (off := 0x180) hready v (by decide), ?_⟩⟩
  · exact s.askPage_device pa _ true (by simp only [peerBase]; omega)
  · simpa [State.writeLow, bitsAt] using exec_registerWrite_low (off := 0x140) hready v (by decide)
  · simpa [State.writeLow, bitsAt] using exec_registerWrite_low (off := 0x190) hready v (by decide)
  · simp [State.writeLow, bitsAt]

end Sys2Proof.Machine
end

section
/-! PROOFS. The step (O57): what a move of the agenda comes to, of a gang's issue, of a sequencer's cycle and of an event. -/

namespace Sys2Proof.Machine
open Sys2Proof

/-! ### Moves -/

/-- A step makes the first move of the agenda. -/
theorem step_cons {s : State} {mv : Move} {r : List Move} (h : s.agenda = mv :: r) : step s = runMove exec mv { s with agenda := r } := by
  rw [step, stepWith, h]
/-- A move that brings no error of its own and answers `u` leaves what the error log and its writes make of `u`. -/
theorem runMove_next {ex : Instr → State → Out} {mv : Move} {s u : State} (h : makeMove ex mv s = .next u) (hs : mv.strikes = false) :
    runMove ex mv s = .next (s.holdSource (s.dropLatent u)).rest := by
  rw [runMove, h, hs]; rfl

theorem makeMove_issue (ex : Instr → State → Out) (core slot slice : Nat) (s : State) :
    makeMove ex (.issue core slot slice) s = issueGang ex core slot slice s := rfl
theorem makeMove_seqCycle (ex : Instr → State → Out) (k : Nat) (s : State) : makeMove ex (.seqCycle k) s = issueSeq ex k s := rfl
/-- An event other than a rendezvous is its meaning. -/
theorem makeMove_event {ex : Instr → State → Out} {i : Instr} {s u : State} (hi : encode i = none) (hc : ∀ c, i ≠ .mmaCoRendezvous c)
    (h : ex i s = .next u) : makeMove ex (.event i) s = .next u := by
  simp only [makeMove, isEvent, hi, Option.isNone_none, if_true, makeEvent, h]
  split
  · exact absurd rfl (hc _)
  · rfl
/-- A rendezvous is its meaning, and then the bundles of its members issue (R318). -/
theorem makeMove_rendezvous {ex : Instr → State → Out} {c : Nat} {s v : State} (h : ex (.mmaCoRendezvous c) s = .next v) :
    makeMove ex (.event (.mmaCoRendezvous c)) s = issueMet ex (v.cores.map (·.1)) v := by
  simp only [makeMove, makeEvent, h]; rfl

/-! ### A gang's bundle of one word -/

/-- A word that starts a bundle, is no header and has no second word after it is a bundle of one word. -/
theorem cutBundle_single {w0 : Word} {ws : List Word} (hs : wordS w0 = true) (hend : ∀ y, ws.head? = some y → wordS y = true)
    (hh : isHeader w0 = false) : cutBundle false (w0 :: ws) = .words [(0, w0)] 1 := by
  have htl : ws.takeWhile (fun w => !wordS w) = [] := by
    cases ws with
    | nil => rfl
    | cons y r => rw [List.takeWhile_cons_of_neg]; simp [hend y rfl]
  simp [cutBundle, htl, hs, hh]

theorem checkWords_single {s : State} {w : Warp} {w0 : Word} {i : Instr} (hd : decodeWord false 0 w0 = .ok i) (ht : decodeTrap s w i = none) :
    checkWords s w [(0, w0)] = .inr [i] := by
  simp only [checkWords, checkWord, hd, ht]

/-- The fetch of a bundle of one word that decodes and passes its decode checks. -/
theorem fetchBundle_single {s : State} {k : Nat} {w : Warp} {pc : DWord} {w0 : Word} {ws : List Word} {i : Instr}
    (hf : s.fetchWords k (s.ctxNo w) pc = .inr (w0 :: ws)) (hs : wordS w0 = true) (hend : ∀ y, ws.head? = some y → wordS y = true)
    (hh : isHeader w0 = false) (hd : decodeWord false 0 w0 = .ok i) (ht : decodeTrap s w i = none) :
    s.fetchBundle k w pc = .inr ([(0, w0)], [i], 1) := by
  have hstart : w0.getLsbD 31 = true := hs
  simp only [State.fetchBundle, hf, List.headD_cons, hstart, cutBundle_single hs hend hh, checkWords_single hd ht]
  rfl

/-- With no result that must land first, nothing lands. -/
theorem State.landSome_none {s : State} {k slot : Nat} {w : Warp} {sel : Pending → Bool} (hw : s.warp? k slot = some w)
    (h : ∀ p ∈ w.pending, sel p = false) : s.landSome k slot sel = s := by
  have : w.pending.filter sel = [] := List.filter_eq_nil_iff.2 fun p hp => by simp [h p hp]
  simp [State.landSome, hw, this]

/-- A list of one is its parts before, between and after, where no element is in both ends. -/
theorem filter_parts_single {α : Type} (first last : α → Bool) (x : α) (h : (first x && last x) = false) :
    [x].filter first ++ [x].filter (fun y => !first y && !last y) ++ [x].filter last = [x] := by
  cases hf : first x <;> cases hl : last x <;> simp_all
theorem runOrder_single (i : Instr) : runOrder [i] = [i] := by
  refine filter_parts_single _ _ i ?_
  cases i <;> simp [loadMarked, controlWord]

/-- A bundle of one word that passes its checks and is not held back: its word is left to run. -/
theorem checkBundle_single {s : State} {cur : Cursor} {w : Warp} {w0 : Word} {i : Instr} (hw : s.warp? cur.core cur.slot = some w)
    (hz : bundleHazard w cur.slices 0 [i] = false) (hp : ∀ p ∈ w.pending, landsFirst w cur.slices (countedIn [i]) p = false)
    (ht : bundleTrap s cur.core cur.slot cur.slices cur.pc (s.readsAs cur.core cur.slot cur.slices w) [(0, w0)] [i] = none)
    (hl : s.latentFor cur.core cur.slot (s.readsAs cur.core cur.slot cur.slices w) cur.slices [i] = none)
    (hst : { s with cur := cur }.wordStalls cur.core cur.slot (s.readsAs cur.core cur.slot cur.slices w) cur.slices cur.pc i = false) :
    s.checkBundle cur [(0, w0)] [i] = .run [i] (s.openBundle cur [i]) := by
  have hclass : (!classesOk false [(0, w0)] || doubleWrite w.shape [i]) = false := by simp [classesOk, doubleWrite]
  have hnone : (w.pending.any fun p => landsFirst w cur.slices (countedIn [i]) p && !s.landReady cur.core cur.slot w p) = false :=
    List.any_eq_false.2 fun p h => by simp [hp p h]
  simp only [State.checkBundle, hw, hclass, hz, hnone, State.landSome_none hw hp, Option.map_some, ht, hl, hst, List.any_cons, List.any_nil,
    Bool.or_false, Bool.false_eq_true, if_false, runOrder_single]

/-- The issue of a gang whose next bundle `ws` is goes to that bundle's checks. -/
theorem nextBundle_fetched {s : State} {core slot slice : Nat} {w : Warp} {x : Slice} {ws : List (Byte × Word)} {is_ : List Instr} {len : Nat}
    (hw : s.warp? core slot = some w) (hx : w.slice? slice = some x) (hr : x.retired = false) (hg : w.gangGoes x.gang = true)
    (ho : s.slotOpen core slot w (w.gangMask x.gang) = true) (hf : s.fetchBundle core w x.pc = .inr (ws, is_, len)) :
    s.nextBundle core slot slice = s.checkBundle (gangCursor core slot (w.gangMask x.gang) x.pc len) ws is_ := by
  simp [State.nextBundle, hw, hx, hr, hg, ho, hf]

/-- The issue of a gang whose next bundle is one word that decodes, passes its checks and is not held back (R34, R192). -/
theorem nextBundle_single {s : State} {core slot slice : Nat} {w v : Warp} {x : Slice} {m : BitVec 16} {cur : Cursor} {w0 : Word}
    {ws : List Word} {i : Instr} (hm : m = w.gangMask x.gang) (hcur : cur = gangCursor core slot m x.pc 1) (hv : v = s.readsAs core slot m w)
    (hw : s.warp? core slot = some w) (hx : w.slice? slice = some x) (hr : x.retired = false) (hg : w.gangGoes x.gang = true)
    (ho : s.slotOpen core slot w m = true) (hf : s.fetchWords core (s.ctxNo w) x.pc = .inr (w0 :: ws)) (hs : wordS w0 = true)
    (hend : ∀ y, ws.head? = some y → wordS y = true) (hh : isHeader w0 = false) (hd : decodeWord false 0 w0 = .ok i)
    (hdt : decodeTrap s w i = none) (hz : bundleHazard w m 0 [i] = false) (hp : ∀ p ∈ w.pending, landsFirst w m (countedIn [i]) p = false)
    (ht : bundleTrap s core slot m x.pc v [(0, w0)] [i] = none) (hl : s.latentFor core slot v m [i] = none)
    (hst : State.wordStalls { s with cur := cur } core slot v m x.pc i = false) :
    s.nextBundle core slot slice = .run [i] (s.openBundle cur [i]) := by
  subst hcur hv hm
  exact (nextBundle_fetched hw hx hr hg ho (fetchBundle_single hf hs hend hh hd hdt)).trans
    (checkBundle_single (cur := gangCursor core slot (w.gangMask x.gang) x.pc 1) hw hz hp ht hl hst)

theorem runWords_single {ex : Instr → State → Out} {s u : State} {i : Instr} (he : ex i s = .next u) : runWords ex [i] s = .next u := by
  simp only [runWords, he]
/-- The words of a bundle that is left to run run, and then the bundle ends. -/
theorem issueGang_run {ex : Instr → State → Out} {core slot slice : Nat} {s s2 u : State} {is_ : List Instr}
    (hn : (s.refillSet core).nextBundle core slot slice = .run is_ s2) (he : runWords ex is_ s2 = .next u) :
    issueGang ex core slot slice s = .next (u.closeBundle is_) := by
  unfold issueGang
  generalize (s.refillSet core).nextBundle core slot slice = x at *
  subst hn
  dsimp only
  rw [he]

/-- Writing over errors of a core's registers leaves every warp. -/
theorem State.warp?_overwrite (s : State) (k j n : Nat) (w : Warp) (slot : Nat) (m : BitVec 16) (is_ : List Instr) :
    (s.modCore k fun c => c.overwrite w slot m is_).warp? j n = s.warp? j n := by
  by_cases h : j = k
  · subst h; simp [State.warp?, Core.overwrite]
  · rw [State.warp?, State.core_modCore_other _ _ _ _ h, State.warp?]

/-- The state in which a bundle's words run: its cursor, and the warp with its counts gone on. -/
theorem openBundle_warp (s : State) (cur : Cursor) (is_ : List Instr) {w : Warp} (hw : s.warp? cur.core cur.slot = some w) :
    (s.openBundle cur is_).warp? cur.core cur.slot = some (w.issued cur.slices is_ s.coreNow) := by
  have issues : ∀ t : State, t.warp? cur.core cur.slot = some w → t.coreNow = s.coreNow →
      (t.modWarp cur.core cur.slot fun w => w.issued cur.slices is_ t.coreNow).warp? cur.core cur.slot =
        some (w.issued cur.slices is_ s.coreNow) := fun t ht hn => by
    rw [State.modWarp, ht, hn]; exact State.warp?_setWarp ..
  by_cases hl : (s.core cur.core).latent.isEmpty = true
  · simp only [State.openBundle, hw, hl, if_true]
    exact issues s hw rfl
  · simp only [State.openBundle, hw, hl]
    exact issues _ ((s.warp?_overwrite ..).trans hw) rfl

theorem openBundle_cur (s : State) (cur : Cursor) (is_ : List Instr) : (s.openBundle cur is_).cur = { cur with checked := true } := rfl
/-- The words of a bundle read the warp as the bundle found it, or of a repeat as its first attempt did (R182, R448). -/
theorem openBundle_view (s : State) (cur : Cursor) (is_ : List Instr) :
    (s.openBundle cur is_).view =
      ((s.openBundle cur is_).warp? cur.core cur.slot).map ((s.openBundle cur is_).readsAs cur.core cur.slot cur.slices) := rfl

/-! ### A sequencer's cycle -/

/-- With no landing under way, the landings of a cycle leave the sequencer. -/
theorem landDue_seq {s : State} {k : Nat} (h : (s.core k).seq.landings = []) : ((s.landDue k).core k).seq = (s.core k).seq := by
  have hkeep : ∀ (q : Seq) (due : Landing → Bool), q.landings = [] → { q with landings := q.landings.filter due } = q := fun q due hq => by
    rw [hq, List.filter_nil, ← hq]
  unfold State.landDue
  split
  · rfl
  · next tid tm _ =>
    simp only [h, List.filter_nil, List.foldl_nil]
    exact (congrArg Core.seq (State.core_modCore ..)).trans (hkeep _ _ h)

theorem filter_split_single {α : Type} (p : α → Bool) (x : α) : [x].filter (fun y => !p y) ++ [x].filter p = [x] := by
  cases h : p x <;> simp [h]
theorem seqRunOrder_single (i : Instr) : seqRunOrder [i] = [i] := by
  exact filter_split_single _ i

/-- The issue of a cycle whose bundle is one word that passes its checks and waits for nothing: its word is left to run. -/
theorem seqIssue_single {s : State} {k tid len : Nat} {tm : Team} {q : Seq} {raw : List Word} {i : Instr}
    (hq : ((s.landDue k).core k).seq = q) (he : q.ended = false) (hf : (s.landDue k).fetchSeq k tid tm q = .inr (raw, [i], len))
    (hs : seqSettled i = true → q.settling = true) (ht : seqIssueTrap (s.landDue k) k tm q i = none)
    (hl : (s.landDue k).latentShared k [i] = none) (hco : q.coGo = 0 → coWord [i] = none) :
    s.seqIssue k tid tm = .run [i] ((s.landDue k).openSeq k q (raw, [i], len)) := by
  have hsettled : (([i] : List Instr).any seqSettled && !q.settling) = false := by
    cases h : seqSettled i <;> simp_all
  have hmet : (if q.coGo = 0 then coWord [i] else none) = none := by
    split
    · next h => exact hco h
    · rfl
  simp only [State.seqIssue, hq, he, hf, hsettled, List.findSome?_cons, ht, List.findSome?_nil, hl, hmet, Bool.false_eq_true, if_false,
    seqRunOrder_single]

/-- A cycle of a sequencer that runs for a team that is not halted, and neither waits nor has issued, is an issue (R307). -/
theorem nextSeq_issue {s : State} {k tid : Nat} {tm : Team} (hteam : s.seqTeam k = some (tid, tm)) (hh : tm.halted = false)
    (hm : (s.core k).mgn.settling = false) (ht : (s.core k).mgn.testing = none) (hw : (s.core k).seq.wait = .none)
    (hi : (s.core k).seq.issued = false) : s.nextSeq k = s.seqIssue k tid tm := by
  simp [State.nextSeq, hteam, hh, hm, ht, hw, hi]

theorem issueSeq_run {ex : Instr → State → Out} {k : Nat} {s s2 u : State} {is_ : List Instr} (hn : s.nextSeq k = .run is_ s2)
    (he : runWords ex is_ s2 = .next u) : issueSeq ex k s = .next (u.closeSeq is_) := by
  simp only [issueSeq, hn, he]

/-- Settles O57: an event is its meaning; a gang's issue and a sequencer's cycle come to their one word by the lemmas of their fetch and
checks, and to the end of the bundle or of the cycle. -/
theorem stepsRunInstructions : Obligations.StepsRunInstructions := by
  unfold Obligations.StepsRunInstructions
  refine ⟨fun s h => ?_, fun s i r u h hi hc he => ?_, fun s c r v u h he hm => ?_, ?_, ?_⟩
  · rw [step, stepWith, h]
  · rw [step_cons h, runMove_next (makeMove_event hi hc he) rfl]
  · rw [step_cons h, runMove_next ((makeMove_rendezvous he).trans hm) rfl]
  · intro s core slot slice r w x w0 ws i u h s1 m cur v hw hx hr hg ho hf hs hend hh hd hdt hz hp ht hl hst s2
    have hbundle : s1.nextBundle core slot slice = .run [i] s2 :=
      nextBundle_single rfl rfl rfl hw hx hr hg ho hf hs hend hh hd hdt hz hp ht hl hst
    refine ⟨openBundle_cur .., openBundle_view .., openBundle_warp s1 cur [i] hw, fun he => ?_⟩
    have hmove : makeMove exec (.issue core slot slice) { s with agenda := r } = .next (u.closeBundle [i]) :=
      (makeMove_issue ..).trans (issueGang_run hbundle (runWords_single he))
    rw [step_cons h, runMove_next hmove rfl]
  · intro s k r tid tm q raw i len u h hteam hq hhalt hm htest hwait hissued hland hended s1 hf hs ht hl hco s2
    subst hq
    have hseq : (s1.core k).seq = (s.core k).seq := landDue_seq (s := { s with agenda := r }) hland
    have hissue : State.nextSeq { s with agenda := r } k = .run [i] s2 :=
      (nextSeq_issue (s := { s with agenda := r }) hteam hhalt hm htest hwait hissued).trans (seqIssue_single hseq hended hf hs ht hl hco)
    refine ⟨rfl, fun he => ?_⟩
    have hmove : makeMove exec (.seqCycle k) { s with agenda := r } = .next (u.closeSeq [i]) :=
      (makeMove_seqCycle ..).trans (issueSeq_run hissue (runWords_single he))
    rw [step_cons h, runMove_next hmove rfl]

end Sys2Proof.Machine
end

section
/-! PROOFS. Traps (O29): every word's meaning checks it first, and what taking a trap leaves of the device. -/

namespace Sys2Proof.Machine
open Sys2Proof

/-! ### Every word checks first (R192) -/

/-- A word of the warp stream that fails a check takes its trap: each arm of `exec` for such a word comes down to `word`. -/
theorem exec_traps {i : Instr} {s : State} {w : Warp} {t : Trap} (hi : warpWord i = true) (hs : s.cur.sq = false) (h : Traps s w i t) :
    exec i s = .next (takeTrap t (trapSide i s)) := by
  cases i <;> cases hi
  case nop g => exact (if_neg (by rw [hs]; decide)).trans (word_traps h fun _ s => s)
  case' reduxMin g un d a => cases un
  case' reduxMax g un d a => cases un
  all_goals
    conv_lhs => whnf
    simp only [h.view, h.unchecked, h.trap, Bool.false_eq_true, if_false]

/-- A word of the sequencer stream that fails a check takes its trap: each arm of `exec` for such a word comes down to `seqWord`. -/
theorem exec_seqTraps {i : Instr} {s : State} {tid : Nat} {tm : Team} {t : Trap} (hi : seqOnly i = true)
    (hteam : s.seqTeam s.cur.core = some (tid, tm)) (hc : s.cur.checked = false)
    (ht : firstTrap [seqDecodeTrap s s.cur.core tid tm (s.core s.cur.core).seq i, seqIssueTrap s s.cur.core tm (s.core s.cur.core).seq i] =
      some t) : exec i s = .next (seqTrap s.cur.core (s.core s.cur.core).seq.pc t s) := by
  cases i <;> cases hi
  all_goals
    conv_lhs => whnf
    simp only [hteam, hc, ht, Bool.false_eq_true, if_false]

/-! ### Changing warps -/

theorem State.warp?_setWarp_eq (s : State) (k n j i : Nat) (w : Warp) :
    (s.setWarp k n w).warp? j i = if j = k ∧ i = n then some w else s.warp? j i := by
  split
  · next h => obtain ⟨rfl, rfl⟩ := h; exact State.warp?_setWarp ..
  · next h => exact State.warp?_setWarp_other _ _ _ _ _ _ (not_and_or.1 h)
/-- What changing the warp of a slot leaves at each slot. -/
theorem State.warp?_modWarp_eq (s : State) (k n j i : Nat) (f : Warp → Warp) :
    (s.modWarp k n f).warp? j i = if j = k ∧ i = n then (s.warp? j i).map f else s.warp? j i := by
  unfold State.modWarp
  cases hw : s.warp? k n with
  | none => split <;> simp_all
  | some w =>
    rw [State.warp?_setWarp_eq]
    split <;> simp_all
/-- Of each core, changing a warp changes its warps alone. -/
theorem State.modWarp_seq (s : State) (k n j : Nat) (f : Warp → Warp) : ((s.modWarp k n f).core j).seq = (s.core j).seq := by
  unfold State.modWarp
  split
  · by_cases h : j = k
    · subst h; rw [State.setWarp, State.core_modCore]
    · rw [State.setWarp, State.core_modCore_other _ _ _ _ h]
  · rfl

theorem Option.Rel.exists_of_some {α β : Type} {R : α → β → Prop} {x : α} {o : Option β} (h : Option.Rel R (some x) o) :
    ∃ y, o = some y ∧ R x y := by
  cases h with
  | some hxy => exact ⟨_, rfl, hxy⟩

/-- From `s` to `t` the cores have changed, and of them only warps, each to one that `R` allows. -/
structure WarpsStep (R : Warp → Warp → Prop) (s t : State) : Prop where
  rest : t = { s with cores := t.cores }
  seq : ∀ k, (t.core k).seq = (s.core k).seq
  warps : ∀ k n, Option.Rel R (s.warp? k n) (t.warp? k n)

section
variable {R : Warp → Warp → Prop}

theorem WarpsStep.refl (hR : ∀ w, R w w) (s : State) : WarpsStep R s s where
  rest := rfl
  seq _ := rfl
  warps k n := by
    cases s.warp? k n
    · exact .none
    · exact .some (hR _)
theorem WarpsStep.trans (hR : ∀ x y z, R x y → R y z → R x z) {s t u : State} (h : WarpsStep R s t) (g : WarpsStep R t u) :
    WarpsStep R s u where
  rest := by rw [g.rest, h.rest]
  seq k := (g.seq k).trans (h.seq k)
  warps k n := by
    have hst := h.warps k n
    have htu := g.warps k n
    revert hst htu
    cases s.warp? k n <;> cases t.warp? k n <;> cases u.warp? k n <;> rintro (_ | _) (_ | _)
    · exact .none
    · next hxy hyz => exact .some (hR _ _ _ hxy hyz)
theorem WarpsStep.modWarp (hR : ∀ w, R w w) (s : State) (k n : Nat) (f : Warp → Warp) (hf : ∀ w, R w (f w)) :
    WarpsStep R s (s.modWarp k n f) where
  rest := by unfold State.modWarp; split <;> rfl
  seq j := s.modWarp_seq k n j f
  warps j i := by
    rw [State.warp?_modWarp_eq]
    split
    · cases s.warp? j i
      · exact .none
      · exact .some (hf _)
    · exact (WarpsStep.refl hR s).warps j i
theorem WarpsStep.foldl {β : Type} (hr : ∀ w, R w w) (ht : ∀ x y z, R x y → R y z → R x z) (f : State → β → State)
    (hf : ∀ s x, WarpsStep R s (f s x)) (xs : List β) (s : State) : WarpsStep R s (xs.foldl f s) := by
  induction xs generalizing s with
  | nil => exact .refl hr s
  | cons x r ih => exact WarpsStep.trans ht (hf s x) (ih _)
end

/-! ### The skid of a halted team (R45) -/

/-- A warp that skids changes its count of skid alone, and one that has stopped nothing. -/
def Skids (x y : Warp) : Prop := y = { x with skid := y.skid } ∧ (x.stopped = true → y = x)

theorem Skids.refl (x : Warp) : Skids x x := ⟨rfl, fun _ => rfl⟩
theorem Skids.trans (x y z : Warp) (h : Skids x y) (g : Skids y z) : Skids x z := by
  obtain ⟨hrest, hstop⟩ := h
  obtain ⟨grest, gstop⟩ := g
  refine ⟨by rw [grest, hrest], fun hx => ?_⟩
  have hyx := hstop hx
  exact (gstop (hyx ▸ hx)).trans hyx
theorem startSkid_step (s : State) (tid : Nat) : WarpsStep Skids s (startSkid s tid) := by
  refine .foldl Skids.refl Skids.trans _ (fun s x => .modWarp Skids.refl s _ _ _ fun w => ?_) _ s
  split
  · exact Skids.refl w
  · next h => exact ⟨rfl, fun hs => absurd hs h⟩
/-- The siblings begin their skid, if the trap is the first of their team. -/
theorem ifSkid_step (b : Bool) (s : State) (tid : Nat) : WarpsStep Skids s (if b then startSkid s tid else s) := by
  cases b
  · exact .refl Skids.refl s
  · exact startSkid_step s tid

/-! ### The trap of a warp's word -/

/-- Slices that a REGANG's trap lets go on stay at their pcs (R24). -/
theorem regangRelease_pc (i : Instr) (m : BitVec 16) (pc : DWord) (w : Warp) (j : Nat) :
    ((regangRelease i m pc w).slice? j).map (·.pc) = (w.slice? j).map (·.pc) := by
  unfold regangRelease
  split
  · split
    · simp only [Warp.slice?, List.getElem?_map, Option.map_map]
      congr 1
      funext x
      simp only [Function.comp_apply]
      split
      · split <;> rfl
      · rfl
    · rfl
  · rfl
theorem regangRelease_rest (i : Instr) (m : BitVec 16) (pc : DWord) (w : Warp) :
    regangRelease i m pc w = { w with slices := (regangRelease i m pc w).slices } := by
  unfold regangRelease
  split
  · split <;> rfl
  · rfl
/-- What else happens when a word's trap is taken: of its warp, slices may end their waits where they stand, and a held fault goes. -/
theorem trapSide_of_live {s : State} {v : Warp} (i : Instr) (h : s.live? = some v) :
    ∃ v1, trapSide i s = s.setWarp s.cur.core s.cur.slot v1 ∧ v1 = { v with slices := v1.slices, picc := v1.picc } ∧
      ∀ j, (v1.slice? j).map (·.pc) = (v.slice? j).map (·.pc) := by
  have hrest := regangRelease_rest i s.cur.slices s.cur.pc v
  refine ⟨_, s.modLive_of_live v _ h, ?_, fun j => ?_⟩
  · split <;> rw [hrest]
  · rw [← regangRelease_pc i s.cur.slices s.cur.pc v j]
    split <;> rfl

/-- The state in which a warp `w` has taken a trap and its team has halted, before its siblings begin their skid. -/
def trappedState (s : State) (k slot : Nat) (m : BitVec 16) (pc : DWord) (t : Trap) (w : Warp) : State :=
  let n := nextSeq (sget 0 s.seqs (haltSource k))
  ({ s with seqs := sput 0 s.seqs (haltSource k) n }.setWarp k slot
    { w with trap := some ⟨t, pc, n, m.toNat, s.cur.len⟩, stopped := true }).modTeam w.team (haltTeam t pc false w.num (0, 0) s.coreNow)
theorem trappedState_warp? (s : State) (k slot j i : Nat) (m : BitVec 16) (pc : DWord) (t : Trap) (w : Warp) :
    (trappedState s k slot m pc t w).warp? j i = if j = k ∧ i = slot then
      some { w with trap := some ⟨t, pc, nextSeq (sget 0 s.seqs (haltSource k)), m.toNat, s.cur.len⟩, stopped := true } else s.warp? j i :=
  State.warp?_setWarp_eq { s with seqs := sput 0 s.seqs (haltSource k) (nextSeq (sget 0 s.seqs (haltSource k))) } k slot j i _
theorem trappedState_team? (s : State) (k slot : Nat) (m : BitVec 16) (pc : DWord) (t : Trap) (w : Warp) :
    (trappedState s k slot m pc t w).team? w.team = (s.team? w.team).map (haltTeam t pc false w.num (0, 0) s.coreNow) :=
  State.team?_modTeam ..
theorem trappedState_team?_other (s : State) (k slot u : Nat) (m : BitVec 16) (pc : DWord) (t : Trap) (w : Warp) (h : u ≠ w.team) :
    (trappedState s k slot m pc t w).team? u = s.team? u :=
  State.team?_modTeam_other _ _ _ _ h
theorem warpTrap_step {s : State} {k slot : Nat} {w : Warp} (m : BitVec 16) (pc : DWord) (t : Trap) (h : s.warp? k slot = some w) :
    WarpsStep Skids (trappedState s k slot m pc t w) (s.warpTrap k slot m pc t) := by
  have hkept : { s with seqs := sput 0 s.seqs (haltSource k) (nextSeq (sget 0 s.seqs (haltSource k))) }.warp? k slot = some w := h
  simp only [State.warpTrap, h, State.takeSeq, State.modWarp, hkept]
  exact ifSkid_step _ _ _

/-- What a trap leaves once its warp's team has halted: it is `TrapTaken`. -/
theorem trapTaken_of_step {s t : State} {v v1 : Warp} {tr : Trap} 
    (hv : v1 = { v with slices := v1.slices, picc := v1.picc }) (hpc : ∀ j, (v1.slice? j).map (·.pc) = (v.slice? j).map (·.pc))
    (ht : WarpsStep Skids
      (trappedState (s.setWarp s.cur.core s.cur.slot v1) s.cur.core s.cur.slot s.cur.slices s.cur.pc tr v1) t) :
    TrapTaken s { t with cur := { s.cur with moved := true } } v tr := by
  obtain ⟨hrest, -, hwarps⟩ := ht
  have hteam : v1.team = v.team := by rw [hv]
  have hnum : v1.num = v.num := by rw [hv]
  have hteams : ∀ u, t.team? u = (trappedState (s.setWarp s.cur.core s.cur.slot v1) s.cur.core s.cur.slot s.cur.slices s.cur.pc tr v1).team? u :=
    fun u => by rw [hrest]; rfl
  refine ⟨fun a => ?_, rfl, fun x => ?_, fun tm htm => ?_, fun u hu => ?_, ?_, fun k m x hx hne => ?_⟩
  · exact congrArg (sget 0 · a) (congrArg State.mem hrest :)
  · have hseqs := congrArg State.seqs hrest
    exact (congrArg (sget 0 · x) hseqs).trans (sget_sput ..)
  · rw [← hteam, ← hnum]
    have htm' : (s.setWarp s.cur.core s.cur.slot v1).team? v1.team = some tm := hteam ▸ htm
    exact (hteams _).trans ((trappedState_team? ..).trans (by rw [htm']; rfl))
  · exact (hteams u).trans (trappedState_team?_other _ _ _ _ _ _ _ _ (hteam ▸ hu))
  · have hown := hwarps s.cur.core s.cur.slot
    rw [trappedState_warp?, if_pos ⟨rfl, rfl⟩] at hown
    obtain ⟨v', hv', -, hstopped⟩ := Option.Rel.exists_of_some hown
    rw [hstopped rfl] at hv'
    exact ⟨_, hv', rfl, rfl, by rw [hv], hpc⟩
  · have hother := hwarps k m
    rw [trappedState_warp?, if_neg (not_and_or.2 hne), State.warp?_setWarp_other _ _ _ _ _ _ hne, hx] at hother
    obtain ⟨x', hx', hskid, -⟩ := Option.Rel.exists_of_some hother
    exact ⟨x', hx', hskid⟩

/-- A word's trap that waits for nothing is taken. -/
theorem takeTrap_taken {s : State} {v : Warp} {tr : Trap} (i : Instr) (hv : s.live? = some v) (hw : tr.waits = false) :
    TrapTaken s (takeTrap tr (trapSide i s)) v tr := by
  obtain ⟨v1, hside, hrest, hpc⟩ := trapSide_of_live i hv
  have hstep := warpTrap_step s.cur.slices s.cur.pc tr (State.warp?_setWarp s s.cur.core s.cur.slot v1)
  rw [hside, takeTrap, hw, if_neg Bool.false_ne_true]
  exact trapTaken_of_step hrest hpc hstep

/-! ### The trap of a sequencer's word -/

theorem State.modSeq_seq (s : State) (k : Nat) (f : Seq → Seq) : ((s.modSeq k f).core k).seq = f (s.core k).seq := by
  rw [State.modSeq, State.core_modCore]

/-- The state in which a core's sequencer has stopped with a trap and its team has halted, before the team's warps begin their skid. -/
def seqTrappedState (s : State) (k : Nat) (pc : DWord) (t : Trap) : State :=
  (s.modSeq k fun q => { q with wait := .stopped }).modTeam (s.core k).seq.team (haltTeam t pc true (s.core k).seq.half (0, 0) s.coreNow)
theorem seqTrap_step (s : State) (k : Nat) (pc : DWord) (t : Trap) :
    ∃ u, seqTrap k pc t s = { u with cur := { u.cur with moved := true } } ∧ WarpsStep Skids (seqTrappedState s k pc t) u :=
  ⟨_, rfl, ifSkid_step _ (seqTrappedState s k pc t) _⟩

/-- Settles O29: a word checks first, and a check that fails is a trap taken. -/
theorem trapsAreTaken : Obligations.TrapsAreTaken := by
  unfold Obligations.TrapsAreTaken
  refine ⟨fun s w v i tr hi hs h hv => ⟨_, exec_traps hi hs h, takeTrap_taken i hv h.stops⟩,
    fun s i tid tm tr hi hteam hc ht => ⟨_, exec_seqTraps hi hteam hc ht, ?_⟩⟩
  obtain ⟨u, hu, hrest, hseq, -⟩ := seqTrap_step s s.cur.core (s.core s.cur.core).seq.pc tr
  have hteams : ∀ n, u.team? n = (seqTrappedState s s.cur.core (s.core s.cur.core).seq.pc tr).team? n := fun n => by rw [hrest]; rfl
  rw [hu]
  refine ⟨fun a => congrArg (sget 0 · a) (congrArg State.mem hrest :), by rw [hrest]; rfl, fun tm htm => ?_,
    (hseq s.cur.core).trans ?_⟩
  · have hmod : (s.modSeq s.cur.core fun q => { q with wait := .stopped }).team? (s.core s.cur.core).seq.team = some tm := htm
    exact (hteams _).trans ((State.team?_modTeam ..).trans (by rw [hmod]; rfl))
  · exact s.modSeq_seq s.cur.core fun q => { q with wait := .stopped }

end Sys2Proof.Machine
end

section
/-! PROOFS. What leaves the halts of teams and the commands for them alone (for O44): performing accesses, copies, retiring warps and
settling grids take teams away and change them, but no team is new, none changes its grid, its halt or its cause, and TCMD's commands
stay as they are. -/

namespace Sys2Proof.Machine
open Sys2Proof

/-- From `s` to `t` teams may have gone and changed, but none is new, and none has changed its grid, whether it is halted or why;
the commands are as they were. -/
structure Calm (s t : State) : Prop where
  cmd : t.cmd = s.cmd
  halts : ∀ tid x, t.team? tid = some x → ∃ y, s.team? tid = some y ∧ x.halted = y.halted ∧ x.cause = y.cause
  grids : ∀ x ∈ t.teams, ∃ y ∈ s.teams, y.1 = x.1 ∧ y.2.grid = x.2.grid

theorem Calm.of_same {s t : State} (hc : t.cmd = s.cmd) (ht : t.teams = s.teams) : Calm s t where
  cmd := hc
  halts tid x h := ⟨x, by rw [← h, State.team?, State.team?, ht], rfl, rfl⟩
  grids x h := ⟨x, ht ▸ h, rfl, rfl⟩
theorem Calm.refl (s : State) : Calm s s := .of_same rfl rfl
theorem Calm.trans {s t u : State} (h : Calm s t) (g : Calm t u) : Calm s u where
  cmd := g.cmd.trans h.cmd
  halts tid x hx := by
    obtain ⟨y, hy, hh, hc⟩ := g.halts tid x hx
    obtain ⟨z, hz, hh', hc'⟩ := h.halts tid y hy
    exact ⟨z, hz, hh.trans hh', hc.trans hc'⟩
  grids x hx := by
    obtain ⟨y, hy, hid, hg⟩ := g.grids x hx
    obtain ⟨z, hz, hid', hg'⟩ := h.grids y hy
    exact ⟨z, hz, hid'.trans hid, hg'.trans hg⟩
/-- What follows a calm change without touching teams and commands is calm. -/
theorem Calm.then_same {s t u : State} (h : Calm s t) (hc : u.cmd = t.cmd) (ht : u.teams = t.teams) : Calm s u := h.trans (.of_same hc ht)
theorem Calm.foldl {β : Type} (f : State → β → State) (hf : ∀ s x, Calm s (f s x)) (xs : List β) (s : State) : Calm s (xs.foldl f s) := by
  induction xs generalizing s with
  | nil => exact .refl s
  | cons x r ih => exact (hf s x).trans (ih _)
theorem Calm.of_cores {s t : State} (h : t = { s with cores := t.cores }) : Calm s t := .of_same (by rw [h]) (by rw [h])
theorem Rises.calm {s t : State} (h : Rises s t) : Calm s t := .of_same (congrArg State.cmd h.rest :) h.teams

theorem Calm.modWarp (s : State) (k n : Nat) (f : Warp → Warp) : Calm s (s.modWarp k n f) :=
  .of_same (State.modWarp_cmd ..) (State.modWarp_teams ..)

theorem mem_smodify {α : Type} {m : List (Nat × α)} {k : Nat} {f : α → α} {x : Nat × α} (h : x ∈ smodify m k f) :
    ∃ y ∈ m, y.1 = x.1 ∧ (x.2 = y.2 ∨ x.2 = f y.2) := by
  induction m with
  | nil => cases h
  | cons p r ih =>
    obtain ⟨a, v⟩ := p
    simp only [smodify] at h
    split at h
    · rcases List.mem_cons.1 h with rfl | hr
      · exact ⟨_, List.mem_cons_self, rfl, .inr rfl⟩
      · exact ⟨x, List.mem_cons_of_mem _ hr, rfl, .inl rfl⟩
    · rcases List.mem_cons.1 h with rfl | hr
      · exact ⟨_, List.mem_cons_self, rfl, .inl rfl⟩
      · obtain ⟨y, hy, he⟩ := ih hr
        exact ⟨y, List.mem_cons_of_mem _ hy, he⟩
/-- A change of a team that keeps its grid, its halt and its cause. -/
theorem Calm.modTeam (s : State) (tid : Nat) (f : Team → Team) (hf : ∀ tm, (f tm).halted = tm.halted ∧ (f tm).cause = tm.cause ∧
    (f tm).grid = tm.grid) : Calm s (s.modTeam tid f) where
  cmd := rfl
  halts u x h := by
    by_cases hu : u = tid
    · subst hu
      rw [State.team?_modTeam] at h
      obtain ⟨y, hy, rfl⟩ := Option.map_eq_some_iff.1 h
      exact ⟨y, hy, (hf y).1, (hf y).2.1⟩
    · rw [State.team?_modTeam_other _ _ _ _ hu] at h
      exact ⟨x, h, rfl, rfl⟩
  grids x h := by
    obtain ⟨y, hy, hid, hx⟩ := mem_smodify h
    refine ⟨y, hy, hid, ?_⟩
    rcases hx with hx | hx
    · rw [hx]
    · rw [hx, (hf y.2).2.2]

theorem mem_of_sdrop {α : Type} {m : List (Nat × α)} {k : Nat} {x : Nat × α} (h : x ∈ sdrop m k) : x ∈ m ∧ x.1 ≠ k := by
  induction m with
  | nil => cases h
  | cons p r ih =>
    obtain ⟨a, v⟩ := p
    simp only [sdrop] at h
    split at h
    · exact ⟨List.mem_cons_of_mem _ (ih h).1, (ih h).2⟩
    · next hne =>
      rcases List.mem_cons.1 h with rfl | hr
      · exact ⟨List.mem_cons_self, hne⟩
      · exact ⟨List.mem_cons_of_mem _ (ih hr).1, (ih hr).2⟩
theorem sfind_sdrop {α : Type} (m : List (Nat × α)) (k j : Nat) : sfind (sdrop m k) j = if j = k then none else sfind m j := by
  induction m with
  | nil => simp [sdrop, sfind]
  | cons p r ih =>
    obtain ⟨a, v⟩ := p
    by_cases ha : a = k <;> by_cases hj : a = j <;> simp_all [sdrop, sfind]

/-! ### Accesses -/

theorem State.storePart_calm (s : State) (word agent thr level : Nat) (strong : Option Scope) (rel si : Bool) (op : StoreOp) :
    Calm s (s.storePart word agent thr level strong rel si op) := .of_same rfl rfl
theorem State.storeRuns_calm (s : State) (word agent thr level : Nat) (rs : List (Nat × Nat × Bool)) (bs : List Byte) :
    Calm s (s.storeRuns word agent thr level rs bs) := by
  induction rs generalizing s bs with
  | nil => exact .refl s
  | cons r rs ih => exact (s.storePart_calm ..).trans (ih _ _)
theorem State.answer_calm (s : State) (k loc n : Nat) (bs : List Byte) : Calm s (s.answer k loc n bs).2.2 := by
  unfold State.answer
  split <;> exact .of_same rfl rfl
theorem State.readLoc_calm (s : State) (a loc n : Nat) : Calm s (s.readLoc a loc n).2.2 := s.answer_calm ..
theorem State.readBytes_calm (s : State) (a : Nat) (ls : List Nat) : Calm s (s.readBytes a ls).2.2 := by
  induction ls generalizing s with
  | nil => exact .refl s
  | cons l r ih => exact (s.readLoc_calm a l 1).trans (ih _)
theorem State.readRuns_calm (s : State) (a : Nat) (rs : List (Nat × Nat)) : Calm s (s.readRuns a rs).2.2 := by
  induction rs generalizing s with
  | nil => exact .refl s
  | cons x r ih => exact (s.readLoc_calm a x.1 x.2).trans (ih _)
theorem State.readLanes_calm (s : State) (k slot size : Nat) (sx : Bool) (ds : List Dest) (xs : List (Nat × Nat)) :
    Calm s (s.readLanes k slot size sx ds xs).2.2 := by
  induction xs generalizing s with
  | nil => exact .refl s
  | cons x r ih => exact (s.readLoc_calm _ x.2 size).trans (ih _)
theorem State.readFields_calm (s : State) (a : Nat) (pat : DWord) (ds : List Dest) (xs : List (Nat × List Nat)) :
    Calm s (s.readFields a pat ds xs).2.2 := by
  induction xs generalizing s with
  | nil => exact .refl s
  | cons x r ih => exact (s.readBytes_calm a x.2).trans (ih _)
theorem State.acquireAt_calm (s : State) (k : Nat) (sc : Scope) : Calm s (s.acquireAt k sc) := by
  unfold State.acquireAt
  split <;> exact .of_same rfl rfl
theorem State.raiseTo_calm (s : State) (id level : Nat) : Calm s (s.raiseTo id level) := (s.lift_rises s.riseFuel id level).calm
theorem State.flushTo_calm (s : State) (level : Nat) (sel : PendStore → Bool) : Calm s (s.flushTo level sel) := (s.flushTo_rises level sel).calm
theorem State.settleReds_calm (s : State) (a : Nat) (rs : List (Nat × Nat)) : Calm s (s.settleReds a rs) := s.flushTo_calm ..
theorem State.settleFor_calm (s : State) (a thr loc n : Nat) (sc : Scope) (rel : Bool) (site : Nat) :
    Calm s (s.settleFor a thr loc n sc rel site) :=
  ((Calm.foldl _ (fun s _ => s.raiseTo_calm ..) _ s).trans (State.settleReds_calm ..)).trans (State.flushTo_calm ..)
theorem State.atomRead_calm (s : State) (a loc n site : Nat) : Calm s (s.atomRead a loc n site).2.2 := s.answer_calm ..
theorem State.atomLane_calm (s : State) (k slot lane : Nat) (op : AtomOp) (sc : Scope) (rel : Bool) (loc site : Nat) (lax : Bool)
    (b nw : DWord) : Calm s (s.atomLane k slot lane op sc rel loc site lax b nw).2.2 := by
  have hread := (s.settleFor_calm (agentOf k slot) (threadOf k slot lane) loc (atomSize op) sc rel site).trans
    (State.atomRead_calm _ (agentOf k slot) loc (atomSize op) site)
  simp only [State.atomLane]
  split
  · split
    · exact hread
    · exact hread.then_same rfl rfl
  · refine Calm.trans ?_ (State.raiseTo_calm ..)
    split
    · exact hread.then_same rfl rfl
    · exact hread.then_same rfl rfl
theorem State.atomLanes_calm (s : State) (k slot : Nat) (op : AtomOp) (sc : Scope) (rel : Bool) (ds : List Dest)
    (xs : List (Nat × Nat × Nat × Bool × DWord × DWord)) : Calm s (s.atomLanes k slot op sc rel ds xs).2.2 := by
  induction xs generalizing s with
  | nil => exact .refl s
  | cons x r ih => exact (s.atomLane_calm ..).trans (ih _)
theorem State.runTopk_calm (s : State) (k slot : Nat) (bf : Bool) (n c : Nat) (row : List (Nat × Nat)) (val idx : List (Nat × Nat × Bool)) :
    Calm s (s.runTopk k slot bf n c row val idx).2 :=
  (((s.settleReds_calm ..).trans (State.readRuns_calm ..)).trans (State.storeRuns_calm ..)).trans (State.storeRuns_calm ..)
theorem State.performOp_calm (s : State) (k slot : Nat) (ds : List Dest) (op : LandOp) : Calm s (s.performOp k slot ds op).2.2 := by
  cases op with
  | values | scalar => exact .refl s
  | load size sx acq lanes =>
    have hread := (s.settleReds_calm (agentOf k slot) (LandOp.load size sx acq lanes).ranges).trans
      (State.readLanes_calm _ k slot size sx ds lanes)
    cases acq with
    | none => exact hread
    | some sc => exact hread.trans (State.acquireAt_calm ..)
  | bfx pat lanes => exact (s.settleReds_calm ..).trans (State.readFields_calm ..)
  | atom aop ord sc lanes =>
    have hatom := s.atomLanes_calm k slot aop sc (ord == .rel || ord == .ar) ds lanes
    simp only [State.performOp]
    split
    · exact hatom.trans (State.acquireAt_calm ..)
    · exact hatom
  | topk bf n c st row val idx => exact s.runTopk_calm ..
theorem State.consumed_calm (s : State) (tid : Nat) (p : Bool) : Calm s (s.consumed tid p) := by
  cases p
  · exact .refl s
  · exact .modTeam s tid consume fun _ => ⟨rfl, rfl, rfl⟩
theorem State.performPart_calm (s : State) (k slot : Nat) (x : Part) : Calm s (s.performPart k slot x) := by
  unfold State.performPart
  split
  · exact .refl s
  · split
    · exact .refl s
    · next p _ =>
      refine Calm.trans (Calm.trans ?_ (Calm.modWarp ..)) (State.consumed_calm ..)
      have hop := s.performOp_calm k slot p.dests (p.op.restrict x.2 true)
      split
      · exact hop.then_same rfl rfl
      · exact hop
theorem State.performParts_calm (s : State) (k slot : Nat) (ps : List Part) : Calm s (s.performParts k slot ps) :=
  .foldl _ (fun s _ => s.performPart_calm ..) ps s
theorem State.land_calm (s : State) (k slot id : Nat) : Calm s (s.land k slot id) := by
  unfold State.land
  split
  · exact .refl s
  · split
    · exact .refl s
    · exact (s.performParts_calm ..).trans (Calm.modWarp ..)
theorem State.landSome_calm (s : State) (k slot : Nat) (sel : Pending → Bool) : Calm s (s.landSome k slot sel) := by
  unfold State.landSome
  split
  · exact .refl s
  · exact .foldl _ (fun s _ => s.land_calm ..) _ s

/-! ### Copies -/

theorem State.report_calm (s : State) (r : ErrRecord) : Calm s (s.report r).2 := by
  simp only [State.report, apply_ite Prod.snd]
  split <;> exact .of_same rfl rfl
theorem State.copyRecord_calm (s : State) (k tid code : Nat) (j : CopyJob) : Calm s (s.copyRecord k tid code j) := s.report_calm _
/-- A copy's stores join those in flight, and marks of poison come with them. -/
theorem State.copied_calm (s : State) (word a thr : Nat) (dst : List (Nat × Nat × Bool)) (out : List Byte) (sel : PendStore → Bool)
    (xs : List Nat) : Calm s (((s.storeRuns word a thr 1 dst out).flush sel).markPoison xs) :=
  ((s.storeRuns_calm ..).trans (State.flushTo_calm ..)).then_same rfl rfl
theorem State.runCopy_calm (s : State) (k tid : Nat) (j : CopyJob) (err : Option (BitVec 2)) : Calm s (s.runCopy k tid j err) := by
  unfold State.runCopy
  extract_lets _ _ _ _ _ _ _ _ _ _ s1 s2 s3
  have hcopied : Calm s s3 := (Calm.of_same rfl rfl : Calm s s1).trans (State.copied_calm ..)
  split
  · exact hcopied.trans (State.copyRecord_calm ..)
  · exact hcopied
theorem State.endCopy_calm (s : State) (k slot id : Nat) (err : Option (BitVec 2)) : Calm s (s.endCopy k slot id err) := by
  unfold State.endCopy
  split
  · exact .refl s
  · split
    · exact .refl s
    · split
      · exact (Calm.modWarp ..).trans (State.runCopy_calm ..)
      · exact .refl s
theorem State.endCopies_calm (s : State) (k slot : Nat) : Calm s (s.endCopies k slot) := by
  unfold State.endCopies
  split
  · exact .refl s
  · exact .foldl _ (fun s _ => s.endCopy_calm ..) _ s

/-! ### The active set and retirement -/

theorem State.enterNext_calm (s : State) (k : Nat) : Calm s (s.enterNext k) := by
  unfold State.enterNext
  split
  · exact .refl s
  · extract_lets ms
    split
    · exact Calm.modWarp ..
    · split
      · exact (Calm.modWarp ..).trans (Calm.modWarp ..)
      · exact .refl s
theorem State.refillSet_calm (s : State) (k : Nat) : Calm s (s.refillSet k) :=
  (Calm.of_same rfl rfl : Calm s (s.noteReady k)).trans (Calm.foldl _ (fun s _ => s.enterNext_calm k) _ _)
theorem State.retireWarp_calm (s : State) (k slot : Nat) : Calm s (s.retireWarp k slot) := by
  unfold State.retireWarp
  split
  · exact .refl s
  · next w _ =>
    extract_lets done orphaned freed
    have hdone : Calm s done := ((s.landSome_calm k slot fun _ => true).trans (State.endCopies_calm ..)).trans (State.flushTo_calm ..)
    have horphaned : Calm s orphaned := hdone.then_same rfl rfl
    have hfreed : Calm s freed := horphaned.trans (.modTeam _ _ _ fun _ => ⟨rfl, rfl, rfl⟩)
    exact (hfreed.then_same (u := freed.modCore k _) rfl rfl).trans (State.refillSet_calm ..)
theorem State.sweepTeam_calm (s : State) (tid : Nat) : Calm s (s.sweepTeam tid) := .foldl _ (fun s _ => s.retireWarp_calm ..) _ s

/-! ### Grids -/

theorem State.teamWaits_calm (s : State) (g : Nat) : Calm s (s.teamWaits g) := by
  unfold State.teamWaits
  extract_lets
  split <;> exact .of_same rfl rfl
theorem State.launchGroup_calm (s : State) (x : Group) : Calm s (s.launchGroup x) := by
  have hwaits := s.teamWaits_calm x.grid
  unfold State.launchGroup
  extract_lets u
  split
  · exact hwaits
  · split <;> exact hwaits.then_same rfl rfl
theorem State.closeGroups_calm (s : State) (g : Nat) : Calm s (s.closeGroups g) :=
  (Calm.of_same rfl rfl : Calm s { s with gather := { s.gather with groups := s.gather.groups.filter fun x => x.grid != g } }).trans
    (.foldl _ State.launchGroup_calm _ _)
theorem State.closeAt_calm (s : State) (g : Nat) : Calm s (s.closeAt g) := by
  unfold State.closeAt
  extract_lets _ u
  have hnumber : Calm s u := .of_same rfl rfl
  split
  · exact hnumber.then_same rfl rfl
  · exact hnumber.trans (State.closeGroups_calm ..)
theorem State.settleGrid_calm (s : State) (g : Nat) : Calm s (s.settleGrid g) := by
  unfold State.settleGrid
  split
  · exact .refl s
  · split
    · extract_lets u
      have hretired : Calm s u := .of_same rfl rfl
      split
      · exact hretired
      · exact hretired.trans (State.closeGroups_calm ..)
    · exact .refl s
theorem State.flushed_calm {s t : State} {level : Nat} {sel : PendStore → Bool} (h : s.flushed level sel = some t) : Calm s t := by
  unfold State.flushed at h
  extract_lets ids u at h
  split at h
  · exact Option.some.inj h ▸ s.flushTo_calm level sel
  · cases h
theorem State.complete_calm (s : State) (lr : LaunchRec) (win status : Nat) (psn rbk : Bool) (n : Nat) :
    Calm s (s.complete lr win status psn rbk n) := .of_same rfl rfl
theorem State.completeRoot_calm (s : State) (g : Nat) : Calm s (s.completeRoot g) := by
  unfold State.completeRoot
  extract_lets all done
  split
  · exact .refl s
  · split
    · exact .refl s
    · split
      · exact .refl s
      · next u hu =>
        have hflushed := State.flushed_calm hu
        extract_lets clean reported noted bounded
        have hreported : Calm s reported := by
          unfold reported
          split
          · exact (hflushed.then_same (u := clean) rfl rfl).trans (State.complete_calm ..)
          · exact hflushed.then_same rfl rfl
        have hnoted : Calm s noted := by
          unfold noted
          split
          · exact hreported.then_same rfl rfl
          · exact hreported
        exact hnoted.then_same rfl rfl
theorem State.settle_calm (s : State) : Calm s s.settle :=
  (Calm.foldl _ State.settleGrid_calm _ s).trans (.foldl _ State.completeRoot_calm _ _)
theorem sdrop_of_sfind_none {α : Type} {m : List (Nat × α)} {k : Nat} (h : sfind m k = none) : sdrop m k = m := by
  induction m with
  | nil => rfl
  | cons p r ih =>
    obtain ⟨a, v⟩ := p
    by_cases ha : a = k
    · simp [sfind, ha] at h
    · simp only [sfind, ha, if_false] at h
      simp [sdrop, ha, ih h]
/-- What is left of the teams when one is gone. -/
theorem State.dropTeam_teams (s : State) (tid : Nat) : (s.dropTeam tid).teams = sdrop s.teams tid := by
  unfold State.dropTeam
  split
  · next h => exact (sdrop_of_sfind_none h).symm
  · rfl
theorem State.dropTeam_calm (s : State) (tid : Nat) : Calm s (s.dropTeam tid) where
  cmd := by unfold State.dropTeam; split <;> rfl
  halts u x h := by
    rw [State.team?, State.dropTeam_teams, sfind_sdrop] at h
    split at h
    · cases h
    · exact ⟨x, h, rfl, rfl⟩
  grids x h := ⟨x, (mem_of_sdrop (s.dropTeam_teams tid ▸ h)).1, rfl, rfl⟩
theorem State.endTeam_calm (s : State) (tid : Nat) : Calm s (s.endTeam tid) := by
  unfold State.endTeam
  split
  · exact .refl s
  · split
    · exact (s.dropTeam_calm tid).trans (State.settle_calm _)
    · exact .refl s

/-! ### Waits that end at a restart -/

theorem State.onWait_calm (s : State) (k slot j : Nat) (f : Warp → Wait → Option State) (hf : ∀ w wt t, f w wt = some t → Calm s t) :
    Calm s (s.onWait k slot j f) := by
  unfold State.onWait
  split
  · exact .refl s
  · next w _ =>
    split
    · next t ht =>
      obtain ⟨wt, -, hwt⟩ := List.exists_of_findSome?_eq_some ht
      obtain ⟨u, hu, rfl⟩ := Option.map_eq_some_iff.1 hwt
      exact (hf w wt u hu).trans (Calm.modWarp ..)
    · exact .refl s
theorem State.wakeBatches_calm (s : State) (k slot : Nat) : Calm s (s.wakeBatches k slot) := by
  unfold State.wakeBatches
  split
  · exact .refl s
  · split
    · exact .refl s
    · refine .foldl _ (fun s j => s.onWait_calm _ _ _ _ fun w wt t ht => ?_) _ s
      split at ht
      · split at ht
        · exact Option.some.inj ht ▸ .refl s
        · cases ht
      · cases ht
theorem State.wakeConts_calm (s : State) (k slot : Nat) : Calm s (s.wakeConts k slot) := by
  unfold State.wakeConts
  split
  · exact .refl s
  · refine .foldl _ (fun s j => s.onWait_calm _ _ _ _ fun w wt t ht => ?_) _ s
    split at ht
    · exact Option.some.inj ht ▸ .refl s
    · split at ht
      · cases ht
      · exact Option.some.inj ht ▸ s.closeAt_calm _
    · cases ht
theorem State.wakeWarp_calm (s : State) (k slot : Nat) : Calm s (s.wakeWarp k slot) :=
  ((Calm.modWarp ..).trans (State.wakeBatches_calm ..)).trans (State.wakeConts_calm ..)
theorem State.wakeBar_calm (s : State) (tid b : Nat) : Calm s (s.wakeBar tid b) := by
  unfold State.wakeBar
  split
  · exact .refl s
  · split
    · exact .refl s
    · extract_lets phase u
      have hwarps : Calm s u := by
        refine .foldl _ (fun s x => .foldl _ (fun s j => s.onWait_calm _ _ _ _ fun w wt t ht => ?_) _ s) _ s
        split at ht
        · split at ht
          · exact Option.some.inj ht ▸ (Calm.modWarp ..).trans (State.acquireAt_calm ..)
          · cases ht
        · cases ht
      refine hwarps.trans (.foldl _ (fun s k => ?_) _ u)
      extract_lets q
      split
      · split
        · exact (Calm.of_same rfl rfl : Calm s (s.modSeq k _)).trans (Calm.modTeam _ _ _ fun _ => ⟨rfl, rfl, rfl⟩)
        · exact .refl s
      · exact .refl s
theorem State.finishHalt_calm (s : State) (tid : Nat) : Calm s (s.finishHalt tid) := by
  unfold State.finishHalt
  split
  · exact .refl s
  · refine (Calm.foldl _ (fun s _ => Calm.modWarp ..) _ s).trans (.foldl _ (fun s k => ?_) _ _)
    split <;> exact .of_same rfl rfl

end Sys2Proof.Machine
end

section
/-! PROOFS. Halted teams, the commands for them, and the stop walk (O44). -/

namespace Sys2Proof.Machine
open Sys2Proof

/-! ### TCMD (R409) -/

theorem State.drainSeq_calm (s : State) (k : Nat) : Calm s (s.drainSeq k) := .of_same rfl rfl
theorem State.resumeSeq_calm (s : State) (k : Nat) : Calm s (s.resumeSeq k) := .of_same rfl rfl
/-- A restarted team, if it is still there, is halted no more (R409); no command comes or goes. -/
theorem State.resumeTeam_restarts (s : State) (tid : Nat) : (s.resumeTeam tid).cmd = s.cmd ∧
    ∀ x, (s.resumeTeam tid).team? tid = some x → x.halted = false ∧ x.cause = none := by
  unfold State.resumeTeam
  split
  · next hnone => exact ⟨rfl, fun x hx => by rw [hnone] at hx; cases hx⟩
  · next tm _ =>
    extract_lets finished all unstopped restarted woken running turned swept
    have hwoken : Calm restarted woken := .foldl _ (fun s _ => s.wakeWarp_calm ..) _ _
    have hrunning : Calm woken running := .foldl _ (fun s k => by split; exacts [s.resumeSeq_calm k, .refl s]) _ _
    have hturned : Calm running turned := .foldl _ (fun s b => s.wakeBar_calm tid b) _ _
    have hswept : Calm turned swept := turned.sweepTeam_calm tid
    have hlater : Calm restarted ((tm.cores.foldl (fun s k => s.refillSet k) swept).endTeam tid) :=
      (((hwoken.trans hrunning).trans hturned).trans hswept).trans
        ((Calm.foldl _ (fun s k => s.refillSet_calm k) _ _).trans (State.endTeam_calm _ tid))
    refine ⟨hlater.cmd.trans (s.finishHalt_calm tid).cmd, fun x hx => ?_⟩
    obtain ⟨y, hy, hhalted, hcause⟩ := hlater.halts tid x hx
    rw [State.team?_modTeam] at hy
    obtain ⟨z, -, rfl⟩ := Option.map_eq_some_iff.1 hy
    exact ⟨hhalted, hcause⟩

theorem State.modGrid_calm (s : State) (g : Nat) (f : Grid → Grid) : Calm s (s.modGrid g f) := .of_same rfl rfl
theorem State.dropRecords_calm (s : State) (gs : List Nat) : Calm s (s.dropRecords gs) :=
  (Calm.foldl _ (fun s g => s.modGrid_calm g _) gs s).then_same rfl rfl
theorem State.stopSeqs_calm (s : State) (tids : List Nat) : Calm s (s.stopSeqs tids) :=
  .foldl _ (fun s k => by split; exacts [.of_same rfl rfl, .refl s]) _ s
/-- Of the teams there were, those of a list are gone. -/
theorem State.foldl_dropTeam_teams (s : State) (tids : List Nat) :
    ∀ x ∈ (tids.foldl State.dropTeam s).teams, x ∈ s.teams ∧ x.1 ∉ tids := by
  induction tids generalizing s with
  | nil => exact fun x hx => ⟨hx, List.not_mem_nil⟩
  | cons tid r ih =>
    intro x hx
    obtain ⟨hdropped, hrest⟩ := ih (s.dropTeam tid) x hx
    obtain ⟨hmem, hne⟩ := mem_of_sdrop (s.dropTeam_teams tid ▸ hdropped)
    exact ⟨hmem, fun h => (List.mem_cons.1 h).elim hne hrest⟩
/-- KILL leaves no team of the launch's grids (R409); no command comes or goes. -/
theorem State.killTeams_ends (s : State) (gs : List Nat) : (s.killTeams gs).cmd = s.cmd ∧ ∀ x ∈ (s.killTeams gs).teams, x.2.grid ∉ gs := by
  unfold State.killTeams
  extract_lets tids stopped retired
  have hretired : Calm s retired := (s.stopSeqs_calm tids).trans
    (.foldl _ (fun s t => .foldl _ (fun s x => s.retireWarp_calm ..) _ s) tids _)
  refine ⟨(Calm.foldl _ State.dropTeam_calm tids retired).cmd.trans hretired.cmd, fun x hx hgs => ?_⟩
  obtain ⟨hmem, htid⟩ := State.foldl_dropTeam_teams _ _ x hx
  obtain ⟨y, hy, hid, hgrid⟩ := hretired.grids x hmem
  exact htid (List.mem_map.2 ⟨y, List.mem_filter.2 ⟨hy, by simpa [hgrid] using hgs⟩, hid⟩)
/-- KILL carried out (R409). -/
theorem State.kill_ends (s : State) (gs : List Nat) : (((s.dropRecords gs).killTeams gs).settle).cmd = s.cmd ∧
    ∀ x ∈ (((s.dropRecords gs).killTeams gs).settle).teams, x.2.grid ∉ gs := by
  obtain ⟨hcmd, hgone⟩ := (s.dropRecords gs).killTeams_ends gs
  have hsettled := ((s.dropRecords gs).killTeams gs).settle_calm
  refine ⟨(hsettled.cmd.trans hcmd).trans (s.dropRecords_calm gs).cmd, fun x hx => ?_⟩
  obtain ⟨y, hy, -, hgrid⟩ := hsettled.grids x hx
  exact hgrid ▸ hgone y hy

/-- The lineage of a grid is a matter of the grids alone. -/
theorem State.lineage_of_grids {s t : State} (h : t.grids = s.grids) (n g : Nat) : t.lineage n g = s.lineage n g := by
  induction n generalizing g with
  | zero => rfl
  | succ n ih => simp only [State.lineage, State.grid?, h, ih]
theorem State.rootOf_of_grids {s t : State} (h : t.grids = s.grids) (g : Nat) : t.rootOf g = s.rootOf g := by
  rw [State.rootOf, State.rootOf, State.ancestors, State.ancestors, h, State.lineage_of_grids h]
theorem State.tree_of_grids {s t : State} (h : t.grids = s.grids) (g : Nat) : t.tree g = s.tree g := by
  simp only [State.tree, State.ancestors, h, State.lineage_of_grids h]
/-- Writing TCMD does not change which team a value names. -/
theorem State.putTcmd_tcmdTeam (s : State) (v : DWord) : (s.putTcmd v).tcmdTeam v = s.tcmdTeam v := rfl
/-- A TCMD carried out when no halted team is the one it names. -/
theorem State.carryTcmd_of_none {s : State} {v : DWord} (h : s.tcmdTeam v = none) : s.carryTcmd v = some s := by
  rw [State.carryTcmd, h]
/-- RESUME: it waits for the team's record, and else restarts the team (R407, R409). -/
theorem State.carryTcmd_resume {s : State} {v : DWord} {tid : Nat} {tm : Team} (h : s.tcmdTeam v = some (tid, tm)) (hop : bitsAt v 8 2 = 0) :
    s.carryTcmd v = if tm.recWait then none else some (s.resumeTeam tid) := by
  rw [State.carryTcmd, h]
  exact if_pos hop
/-- KILL: it waits for the records of the launch, and else ends it (R407, R409). -/
theorem State.carryTcmd_kill {s : State} {v : DWord} {tid : Nat} {tm : Team} (h : s.tcmdTeam v = some (tid, tm)) (hop : bitsAt v 8 2 ≠ 0) :
    s.carryTcmd v = if s.teams.any fun t => (s.tree (s.rootOf tm.grid)).contains t.2.grid && t.2.recWait then none
      else some (((s.dropRecords (s.tree (s.rootOf tm.grid))).killTeams (s.tree (s.rootOf tm.grid))).settle) := by
  rw [State.carryTcmd, h]
  exact if_neg hop
/-- A write of TCMD with GO that is carried out at once. -/
theorem State.startTcmd_carried {s t : State} {v : DWord} (h : (s.putTcmd v).carryTcmd v = some t) : s.startTcmd v = t := by
  simp only [State.startTcmd, h]
/-- A write of TCMD with GO that waits. -/
theorem State.startTcmd_waits {s : State} {v : DWord} (h : (s.putTcmd v).carryTcmd v = none) :
    s.startTcmd v = { s with cmd := { (s.putTcmd v).cmd with tcmdRun := s.cmd.tcmdRun ++ [v] } } := by
  simp only [State.startTcmd, h]
  rfl

/-- TCMD RESUME. -/
theorem exec_tcmdResume {s : State} {v : DWord} (hphase : s.boot.phase = 2) (hgo : v.getLsbD 15 = true) (hop : bitsAt v 8 2 = 0) :
    exec (.tcmdResume v) s = .next (s.startTcmd v) := by
  show execTcmdResume v s = _
  simp [execTcmdResume, hphase, hgo, hop]
/-- TCMD KILL. -/
theorem exec_tcmdKill {s : State} {v : DWord} (hphase : s.boot.phase = 2) (hgo : v.getLsbD 15 = true) (hop : bitsAt v 8 2 = 1) :
    exec (.tcmdKill v) s = .next (s.startTcmd v) := by
  show execTcmdKill v s = _
  simp [execTcmdKill, hphase, hgo, hop]

/-! ### The stop walk (R413, R414) -/

/-- What a stop in a cycle does to a team: it halts, if it has not halted, for the request that it answers. -/
def cstopped (now : Nat) (p : Nat × Nat) (tm : Team) : Team :=
  if tm.halted then tm
  else { tm with halted := true, cause := some ({ cause := .cstop }, 0, false, 0), pair := p, recWait := true, haltAt := now }
theorem cstopped_idem (now : Nat) (p : Nat × Nat) (tm : Team) : cstopped now p (cstopped now p tm) = cstopped now p tm := by
  cases h : tm.halted <;> simp [cstopped, h]
theorem haltTeam_cstop {tm : Team} (h : tm.halted = false) (now : Nat) (p : Nat × Nat) :
    haltTeam { cause := .cstop } 0 false 0 p now tm = cstopped now p tm := by
  simp [haltTeam, Team.newCause, cstopped, h]
/-- A stop of a team changes it, and the skids of its warps, alone. -/
theorem State.cstop_rest (s : State) (tid : Nat) (p : Nat × Nat) :
    s.cstop tid false p = { s with teams := (s.cstop tid false p).teams, cores := (s.cstop tid false p).cores } := by
  unfold State.cstop
  split
  · rfl
  · split
    · rfl
    · dsimp only
      rw [(startSkid_step _ tid).rest]
      rfl
theorem State.cstop_team? (s : State) (tid u : Nat) (p : Nat × Nat) :
    (s.cstop tid false p).team? u = if u = tid then (s.team? u).map (cstopped s.coreNow p) else s.team? u := by
  unfold State.cstop
  split
  · next hnone =>
    split
    · next h => rw [h, hnone]; rfl
    · rfl
  · next tm htm =>
    split
    · next hhalted =>
      split
      · next h => simp [h, htm, cstopped, hhalted]
      · rfl
    · next hhalted =>
      dsimp only
      rw [(startSkid_step _ tid).rest]
      show State.team? (s.modTeam tid _) u = _
      split
      · next h =>
        rw [h, State.team?_modTeam, htm, Option.map_some, Option.map_some, haltTeam_cstop (by simpa using hhalted)]
      · next h => exact State.team?_modTeam_other _ _ _ _ h
theorem State.only_teams_cores_trans {s t u : State} {ts us : List (Nat × Team)} {tc uc : List (Nat × Core)}
    (h : t = { s with teams := ts, cores := tc }) (g : u = { t with teams := us, cores := uc }) :
    u = { s with teams := us, cores := uc } := by
  subst h; exact g
/-- Stops of teams change those teams, and the skids of their warps, alone. -/
theorem State.foldl_cstop (p : Nat × Nat) (xs : List (Nat × Team)) (s : State) :
    let t := xs.foldl (fun s x => s.cstop x.1 false p) s
    t = { s with teams := t.teams, cores := t.cores } ∧
      ∀ u, t.team? u = if u ∈ xs.map (·.1) then (s.team? u).map (cstopped s.coreNow p) else s.team? u := by
  induction xs generalizing s with
  | nil => exact ⟨rfl, fun u => rfl⟩
  | cons x r ih =>
    have hrest := s.cstop_rest x.1 p
    have hnow : (s.cstop x.1 false p).coreNow = s.coreNow := by rw [hrest]
    obtain ⟨hrest', hteams⟩ := ih (s.cstop x.1 false p)
    refine ⟨State.only_teams_cores_trans hrest hrest', fun u => (hteams u).trans ?_⟩
    have hidem : cstopped s.coreNow p ∘ cstopped s.coreNow p = cstopped s.coreNow p := funext (cstopped_idem _ _)
    rw [hnow, State.cstop_team?, List.map_cons]
    by_cases hx : u = x.1
    · by_cases hr : u ∈ r.map (·.1)
      · rw [if_pos hr, if_pos hx, if_pos (List.mem_cons_of_mem _ hr), Option.map_map, hidem]
      · rw [if_neg hr, if_pos hx, if_pos (List.mem_cons.2 (.inl hx))]
    · by_cases hr : u ∈ r.map (·.1)
      · rw [if_pos hr, if_neg hx, if_pos (List.mem_cons_of_mem _ hr)]
      · rw [if_neg hr, if_neg hx, if_neg (by simp only [List.mem_cons, hx, hr, or_self, not_false_eq_true])]

theorem mem_of_sfind {α : Type} {m : List (Nat × α)} {k : Nat} {v : α} (h : sfind m k = some v) : (k, v) ∈ m := by
  induction m with
  | nil => cases h
  | cons p r ih =>
    obtain ⟨a, w⟩ := p
    simp only [sfind] at h
    split at h
    · next hak => subst hak; obtain rfl := Option.some.inj h; exact List.mem_cons_self
    · exact List.mem_cons_of_mem _ (ih h)
theorem eq_of_mem_of_nodup_keys {α : Type} {m : List (Nat × α)} (hm : (m.map (·.1)).Nodup) {x y : Nat × α} (hx : x ∈ m) (hy : y ∈ m)
    (h : x.1 = y.1) : x = y := List.inj_on_of_nodup_map hm hx hy h
/-- Which teams a stop of a grid halts, where no number stands twice. -/
theorem State.mem_gridTeams_keys {s : State} (hnodup : (s.teams.map (·.1)).Nodup) (g tid : Nat) (tm : Team) (h : s.team? tid = some tm) :
    tid ∈ (s.gridTeams g).map (·.1) ↔ tm.grid = g := by
  have hmem : (tid, tm) ∈ s.teams := mem_of_sfind h
  constructor
  · intro hkey
    obtain ⟨x, hx, hid⟩ := List.mem_map.1 hkey
    obtain ⟨hxm, hxg⟩ := List.mem_filter.1 hx
    obtain rfl := eq_of_mem_of_nodup_keys hnodup hxm hmem hid
    exact beq_iff_eq.1 hxg
  · exact fun hg => List.mem_map.2 ⟨(tid, tm), List.mem_filter.2 ⟨hmem, beq_iff_eq.2 hg⟩, rfl⟩

/-- What a stop walk leaves of the grids it asked to stop: they are its tree's, and those asked before. -/
def State.askStop (s : State) (grid : Nat) : State :=
  { s with stopGrids := s.stopGrids ++ (s.tree grid).filter fun g => !s.stopGrids.contains g }
theorem State.askStop_mem (s : State) (grid : Nat) : ∀ g ∈ s.tree grid, g ∈ (s.askStop grid).stopGrids := by
  intro g hg
  by_cases h : g ∈ s.stopGrids
  · exact List.mem_append_left _ h
  · exact List.mem_append_right _ (List.mem_filter.2 ⟨hg, by simpa using h⟩)
theorem exec_stopWalk_stopped {s : State} {grid : Nat} {gr : Grid} (hgr : s.grid? grid = some gr)
    (h : (s.tree grid).find? (fun g => !s.gridStopped g) = none) : exec (.stopWalk grid) s = .next (s.askStop grid) := by
  show execStopWalk grid s = _
  have h' : (s.tree grid).find? (fun g => !(s.askStop grid).gridStopped g) = none := h
  simp only [execStopWalk, hgr]
  exact congrArg Host.Outcome.next (by rw [← State.askStop]; rw [h'])
theorem exec_stopWalk_stops {s : State} {grid g : Nat} {gr : Grid} (hgr : s.grid? grid = some gr)
    (h : (s.tree grid).find? (fun g => !s.gridStopped g) = some g) :
    exec (.stopWalk grid) s = .next ((s.gridTeams g).foldl (fun t x => t.cstop x.1 false (s.stopPair (s.tree grid))) (s.askStop grid)) := by
  show execStopWalk grid s = _
  have h' : (s.tree grid).find? (fun g => !(s.askStop grid).gridStopped g) = some g := h
  simp only [execStopWalk, hgr]
  exact congrArg Host.Outcome.next (by rw [← State.askStop]; rw [h']; rfl)

/-! ### The trap record (R407, R408) -/

/-- The bytes of a team's record under a number. -/
def State.recordBytes (s : State) (tid : Nat) (tm : Team) : List Byte :=
  (s.trapRecord tid tm (Machine.nextSeq (Machine.sget 0 s.seqs (haltSource tm.core)))).flatMap (bytesOf 8)
/-- The state once the bytes of a team's record stand in the queue. -/
def State.recorded (s : State) (tid : Nat) (tm : Team) : State :=
  (s.takeSeq (haltSource tm.core)).2.homeWrite ((s.ctx (s.teamCtx tm)).queueLoc (s.ctx (s.teamCtx tm)).tqhead) false (s.recordBytes tid tm)
/-- A team's record waits no more: the head of the context's queue has moved on, and the vector is raised. -/
def State.queued (s : State) (tid cn msiv : Nat) : State :=
  ((s.modTeam tid fun t => { t with recWait := false }).modCtx cn fun c => { c with tqhead := (c.tqhead + 1) % 2 ^ c.tqlog }).raise msiv
section
variable (s : State) (tid cn msiv : Nat)

theorem State.queued_team? : (s.queued tid cn msiv).team? tid = (s.team? tid).map fun t => { t with recWait := false } :=
  State.team?_modTeam ..
theorem State.queued_ctx : (s.queued tid cn msiv).ctx cn = { s.ctx cn with tqhead := ((s.ctx cn).tqhead + 1) % 2 ^ (s.ctx cn).tqlog } :=
  State.ctx_modCtx (s.modTeam tid fun t => { t with recWait := false }) cn fun c => { c with tqhead := (c.tqhead + 1) % 2 ^ c.tqlog }
theorem State.queued_msi : (s.queued tid cn msiv).msi = s.msi ++ [msiv] := rfl
theorem State.queued_fields : (s.queued tid cn msiv).cores = s.cores ∧ (s.queued tid cn msiv).seqs = s.seqs ∧
    (s.queued tid cn msiv).cmd = s.cmd := ⟨rfl, rfl, rfl⟩
theorem State.queued_byte (a : Nat) : (s.queued tid cn msiv).byte a = s.byte a := rfl
end
section
variable {s : State} {tid : Nat} {tm : Team}

theorem State.writeTrapRecord_full (h : (s.ctx (s.teamCtx tm)).queueFull = true ∨ s.boot.phase ≠ 2) : s.writeTrapRecord tid tm = s := by
  have hstop : (s.boot.phase != 2 || (s.ctx (s.teamCtx tm)).queueFull ||
      s.reach tm.core ((s.ctx (s.teamCtx tm)).queueLoc (s.ctx (s.teamCtx tm)).tqhead) true true == .waits) = true := by
    rcases h with h | h <;> simp [h]
  rw [State.writeTrapRecord]
  exact if_pos hstop
theorem State.writeTrapRecord_served (hroom : (s.ctx (s.teamCtx tm)).queueFull = false) (hphase : s.boot.phase = 2)
    (hreach : s.reach tm.core ((s.ctx (s.teamCtx tm)).queueLoc (s.ctx (s.teamCtx tm)).tqhead) true true = .served) (hpend : s.pend = []) :
    s.writeTrapRecord tid tm = (s.recorded tid tm).queued tid (s.teamCtx tm) (s.ctx (s.teamCtx tm)).msiv := by
  have hflushed : ∀ sel, s.flushed 4 sel = some s := fun sel => by
    simp [State.flushed, hpend, s.flushTo_idle 4 sel hpend]
  have hgo : ¬(s.boot.phase != 2 || (s.ctx (s.teamCtx tm)).queueFull ||
      s.reach tm.core ((s.ctx (s.teamCtx tm)).queueLoc (s.ctx (s.teamCtx tm)).tqhead) true true == .waits) = true := by
    simp [hphase, hroom, hreach]
  have hlive : ((s.takeSeq (haltSource tm.core)).2.reach tm.core
      ((s.ctx (s.teamCtx tm)).queueLoc (s.ctx (s.teamCtx tm)).tqhead) true true == .dead) = false := by
    show (s.reach tm.core _ true true == .dead) = false
    rw [hreach]; rfl
  rw [State.writeTrapRecord]
  refine (if_neg hgo).trans ?_
  rw [hflushed]
  dsimp only
  rw [hlive]
  rfl
end
/-- What does not hold memory or stores in flight is read off the rest of a state. -/
theorem State.fields_of_sansStores {t x : State} (h : t.sansStores = x) : t.teams = x.teams ∧ t.cores = x.cores ∧ t.ctxs = x.ctxs ∧
    t.msi = x.msi ∧ t.cmd = x.cmd ∧ t.seqs = x.seqs := by
  subst h
  exact ⟨rfl, rfl, rfl, rfl, rfl, rfl⟩
/-- Beside memory, a record takes a number of its source. -/
theorem State.recorded_fields (s : State) (tid : Nat) (tm : Team) : (s.recorded tid tm).teams = s.teams ∧
    (s.recorded tid tm).cores = s.cores ∧ (s.recorded tid tm).ctxs = s.ctxs ∧ (s.recorded tid tm).msi = s.msi ∧
    (s.recorded tid tm).cmd = s.cmd ∧
    (s.recorded tid tm).seqs =
      Machine.sput 0 s.seqs (haltSource tm.core) (Machine.nextSeq (Machine.sget 0 s.seqs (haltSource tm.core))) :=
  State.fields_of_sansStores (State.homeWrite_sansStores ..)

/-! ### The obligation -/

theorem haltsAndCommands_skid (s : State) (core slot : Nat) (w : Warp) (hw : s.warp? core slot = some w) :
    ((∀ tm, s.team? w.team = some tm → tm.halted = false) → exec (.siblingSkidEnd core slot) s = .next s) ∧
    (∀ tm, s.team? w.team = some tm → tm.halted = true →
      exec (.siblingSkidEnd core slot) s = .next (s.setWarp core slot { w with stopped := true })) := by
  show (_ → execSiblingSkidEnd core slot s = _) ∧ ∀ tm, _ → _ → execSiblingSkidEnd core slot s = _
  simp only [execSiblingSkidEnd, hw, State.modWarp]
  refine ⟨fun hruns => ?_, fun tm htm hhalted => by simp only [htm, hhalted, if_true]⟩
  cases htm : s.team? w.team with
  | none => rfl
  | some tm => simp only [hruns tm htm, Bool.false_eq_true, if_false]

theorem haltsAndCommands_tcmdResume (s : State) (v : DWord) (hphase : s.boot.phase = 2) (hgo : v.getLsbD 15 = true)
    (hop : bitsAt v 8 2 = 0) :
    (s.tcmdTeam v = none → ∃ t, exec (.tcmdResume v) s = .next t ∧ t = { s with cmd := t.cmd } ∧ t.cmd.tcmdRun = s.cmd.tcmdRun) ∧
    (∀ tid tm, s.tcmdTeam v = some (tid, tm) → tm.recWait = true → ∃ t, exec (.tcmdResume v) s = .next t ∧ t = { s with cmd := t.cmd } ∧
      t.cmd.tcmdRun = s.cmd.tcmdRun ++ [v]) ∧
    (∀ tid tm, s.tcmdTeam v = some (tid, tm) → tm.recWait = false → s.team? tid = some tm → ∃ t, exec (.tcmdResume v) s = .next t ∧
      t.cmd.tcmdRun = s.cmd.tcmdRun ∧ ∀ x, t.team? tid = some x → x.halted = false ∧ x.cause = none) := by
  rw [exec_tcmdResume hphase hgo hop]
  refine ⟨fun hnone => ?_, fun tid tm hteam hwait => ?_, fun tid tm hteam hwait _ => ?_⟩
  · exact ⟨_, congrArg Host.Outcome.next (State.startTcmd_carried (State.carryTcmd_of_none hnone)), rfl, rfl⟩
  · have hwaits : (s.putTcmd v).carryTcmd v = none :=
      (State.carryTcmd_resume (s := s.putTcmd v) hteam hop).trans (if_pos hwait)
    exact ⟨_, congrArg Host.Outcome.next (State.startTcmd_waits hwaits), rfl, rfl⟩
  · have hcarried : (s.putTcmd v).carryTcmd v = some ((s.putTcmd v).resumeTeam tid) :=
      (State.carryTcmd_resume (s := s.putTcmd v) hteam hop).trans (if_neg (by simp [hwait]))
    obtain ⟨hcmd, hrestarts⟩ := (s.putTcmd v).resumeTeam_restarts tid
    exact ⟨_, congrArg Host.Outcome.next (State.startTcmd_carried hcarried), by rw [hcmd]; rfl, hrestarts⟩

theorem haltsAndCommands_tcmdKill (s : State) (v : DWord) (hphase : s.boot.phase = 2) (hgo : v.getLsbD 15 = true)
    (hop : bitsAt v 8 2 = 1) :
    (s.tcmdTeam v = none → ∃ t, exec (.tcmdKill v) s = .next t ∧ t = { s with cmd := t.cmd } ∧ t.cmd.tcmdRun = s.cmd.tcmdRun) ∧
    (∀ tid tm, s.tcmdTeam v = some (tid, tm) →
      let gs := s.tree (s.rootOf tm.grid)
      ((∃ x ∈ s.teams, x.2.grid ∈ gs ∧ x.2.recWait = true) → ∃ t, exec (.tcmdKill v) s = .next t ∧ t = { s with cmd := t.cmd } ∧
        t.cmd.tcmdRun = s.cmd.tcmdRun ++ [v]) ∧
      ((∀ x ∈ s.teams, x.2.grid ∈ gs → x.2.recWait = false) → ∃ t, exec (.tcmdKill v) s = .next t ∧ t.cmd.tcmdRun = s.cmd.tcmdRun ∧
        ∀ x ∈ t.teams, x.2.grid ∉ gs)) := by
  rw [exec_tcmdKill hphase hgo hop]
  refine ⟨fun hnone => ?_, fun tid tm hteam => ?_⟩
  · exact ⟨_, congrArg Host.Outcome.next (State.startTcmd_carried (State.carryTcmd_of_none hnone)), rfl, rfl⟩
  · intro gs
    have htree : (s.putTcmd v).tree ((s.putTcmd v).rootOf tm.grid) = gs := by
      rw [State.rootOf_of_grids (t := s.putTcmd v) (s := s) rfl, State.tree_of_grids (t := s.putTcmd v) (s := s) rfl]
    have hcarry := State.carryTcmd_kill (s := s.putTcmd v) hteam (by omega)
    rw [htree] at hcarry
    refine ⟨fun ⟨x, hx, hg, hwait⟩ => ?_, fun hwritten => ?_⟩
    · have hwaits : (s.putTcmd v).carryTcmd v = none :=
        hcarry.trans (if_pos (List.any_eq_true.2 ⟨x, hx, by simpa using ⟨hg, hwait⟩⟩))
      exact ⟨_, congrArg Host.Outcome.next (State.startTcmd_waits hwaits), rfl, rfl⟩
    · have hcarried := hcarry.trans (if_neg fun hany => by
        obtain ⟨x, hx, hwait⟩ := List.any_eq_true.1 hany
        obtain ⟨hg, hw⟩ := (Bool.and_eq_true _ _).mp hwait
        rw [hwritten x hx (List.contains_iff_mem.1 hg)] at hw
        cases hw)
      obtain ⟨hcmd, hgone⟩ := (s.putTcmd v).kill_ends gs
      exact ⟨_, congrArg Host.Outcome.next (State.startTcmd_carried hcarried), by rw [hcmd]; rfl, hgone⟩

theorem haltsAndCommands_record (s : State) (team : Nat) (tm : Team) (htm : s.team? team = some tm) :
    let cn := s.teamCtx tm
    let c := s.ctx cn
    let n := nextSeq (Machine.sget 0 s.seqs (haltSource tm.core))
    (tm.halted = false ∨ tm.recWait = false ∨ s.haltDone team tm = false → exec (.trapRecordWrite team) s = .next s) ∧
    (tm.halted = true → tm.recWait = true → s.haltDone team tm = true → (c.tqhead + 1) % 2 ^ c.tqlog = c.tqtail ∨ s.boot.phase ≠ 2 →
      exec (.trapRecordWrite team) s = .next s.runTcmds) ∧
    (tm.halted = true → tm.recWait = true → s.haltDone team tm = true → (c.tqhead + 1) % 2 ^ c.tqlog ≠ c.tqtail →
      s.boot.phase = 2 → s.reach tm.core (c.queueLoc c.tqhead) true true = .served → s.pend = [] →
      ∃ t : State, exec (.trapRecordWrite team) s = .next t.runTcmds ∧
        t.team? team = some { tm with recWait := false } ∧ t.ctx cn = { c with tqhead := (c.tqhead + 1) % 2 ^ c.tqlog } ∧
        t.msi = s.msi ++ [c.msiv] ∧ t.cores = s.cores ∧ Machine.sget 0 t.seqs (haltSource tm.core) = n ∧ t.cmd = s.cmd ∧
        let bs := (s.trapRecord team tm n).flatMap (bytesOf 8)
        (∀ a, a < c.queueLoc c.tqhead ∨ c.queueLoc c.tqhead + bs.length ≤ a → t.byte a = s.byte a) ∧
        ∀ i < bs.length, t.byte (c.queueLoc c.tqhead + i) = bs.getD i 0) := by
  intro cn c n
  have hexec : exec (.trapRecordWrite team) s =
      .next (if tm.halted && tm.recWait && s.haltDone team tm then (s.writeTrapRecord team tm).runTcmds else s) := by
    show execTrapRecordWrite team s = _
    rw [execTrapRecordWrite, htm]
  have hready : tm.halted = true → tm.recWait = true → s.haltDone team tm = true →
      exec (.trapRecordWrite team) s = .next (s.writeTrapRecord team tm).runTcmds := fun h1 h2 h3 =>
    hexec.trans (congrArg Host.Outcome.next (if_pos (by rw [h1, h2, h3]; rfl)))
  refine ⟨fun hnot => ?_, fun h1 h2 h3 hfull => ?_, fun h1 h2 h3 hroom hphase hreach hpend => ?_⟩
  · exact hexec.trans (congrArg Host.Outcome.next (if_neg (by rcases hnot with h | h | h <;> simp [h])))
  · rw [hready h1 h2 h3, State.writeTrapRecord_full (hfull.imp_left fun h => beq_iff_eq.2 h)]
  · obtain ⟨hteams, hcores, hctxs, hmsi, hcmd, hseqs⟩ := s.recorded_fields team tm
    have hlive : (s.takeSeq (haltSource tm.core)).2.reach 0 (c.queueLoc c.tqhead) true true ≠ .dead := fun hdead => by
      have := (s.reach_eq_dead_iff tm.core _ true true).2 ((s.reach_eq_dead_iff 0 _ true true).1 hdead)
      rw [hreach] at this
      cases this
    have hteam : (s.recorded team tm).team? team = some tm := by rw [State.team?, hteams]; exact htm
    have hctx : (s.recorded team tm).ctx cn = c := by rw [State.ctx, hctxs]; rfl
    have hwritten := State.writeTrapRecord_served (tid := team) (beq_eq_false_iff_ne.2 hroom) hphase hreach hpend
    obtain ⟨qcores, qseqs, qcmd⟩ := (s.recorded team tm).queued_fields team cn c.msiv
    refine ⟨(s.recorded team tm).queued team cn c.msiv, by rw [hready h1 h2 h3, hwritten], ?_, ?_, ?_, qcores.trans hcores, ?_,
      qcmd.trans hcmd, fun a ha => ?_, fun i hi => ?_⟩
    · rw [State.queued_team?, hteam, Option.map_some]
    · rw [State.queued_ctx, hctx]
    · rw [State.queued_msi, hmsi]
    · rw [qseqs, hseqs, sget_sput, if_pos rfl]
    · rw [State.queued_byte]
      exact State.byte_homeWrite_other _ _ a _ _ hlive hpend ha
    · rw [State.queued_byte]
      exact State.byte_homeWrite_same _ _ i _ _ hlive hi

theorem haltsAndCommands_stopWalk (s : State) (grid : Nat) (gr : Grid) (hgr : s.grid? grid = some gr) :
    ∃ t, exec (.stopWalk grid) s = .next t ∧ SameBytes s t ∧ (∀ g ∈ s.tree grid, g ∈ t.stopGrids) ∧
      ((∀ g ∈ s.tree grid, s.gridStopped g = true) → t = { s with stopGrids := t.stopGrids }) ∧
      ∀ g, (s.tree grid).find? (fun g => !s.gridStopped g) = some g → (s.teams.map (·.1)).Nodup → ∀ tid tm, s.team? tid = some tm →
        t.team? tid = some (if tm.grid = g ∧ tm.halted = false then
          { tm with halted := true, cause := some ({ cause := .cstop }, 0, false, 0), pair := s.stopPair (s.tree grid), recWait := true
                    haltAt := s.coreNow } else tm) := by
  cases hfind : (s.tree grid).find? (fun g => !s.gridStopped g) with
  | none =>
    exact ⟨_, exec_stopWalk_stopped hgr hfind, fun a => rfl, s.askStop_mem grid, fun _ => rfl, fun g hg => by cases hg⟩
  | some g =>
    obtain ⟨hrest, hteams⟩ := State.foldl_cstop (s.stopPair (s.tree grid)) (s.gridTeams g) (s.askStop grid)
    refine ⟨_, exec_stopWalk_stops hgr hfind, fun a => congrArg (sget 0 · a) (congrArg State.mem hrest :), fun x hx => ?_, fun hall => ?_,
      fun g' hg' hnodup tid tm htm => ?_⟩
    · rw [(congrArg State.stopGrids hrest :)]; exact s.askStop_mem grid x hx
    · have hg := List.find?_some hfind
      rw [hall g (List.mem_of_find?_eq_some hfind)] at hg
      cases hg
    · obtain rfl := Option.some.inj hg'
      have htm' : (s.askStop grid).team? tid = some tm := htm
      rw [hteams tid, htm', Option.map_some]
      simp only [State.mem_gridTeams_keys hnodup g tid tm htm, cstopped]
      by_cases hg : tm.grid = g <;> cases hh : tm.halted <;> simp [hg, State.askStop]

/-- Settles O44, clause by clause: a sibling's stop, the record, the two commands and the stop walk. -/
theorem haltsAndCommands : Obligations.HaltsAndCommands := by
  unfold Obligations.HaltsAndCommands
  refine ⟨haltsAndCommands_skid, haltsAndCommands_record, haltsAndCommands_tcmdResume, haltsAndCommands_tcmdKill, fun s grid hnone => ?_,
    haltsAndCommands_stopWalk⟩
  show execStopWalk grid s = _
  rw [execStopWalk, hnone]

end Sys2Proof.Machine
end

section
/-! PROOFS. Predicate p7 (O11): it reads as ones, a write to it is lost, and a branch on it takes every slice of the gang. -/

namespace Sys2Proof.Machine
open Sys2Proof

/-! ### Masks of slices -/

/-- A slice is in a mask built from a list of numbers when its number is in the list. -/
theorem getLsbD_foldl_slices (js : List Nat) (x : BitVec 16) {i : Nat} (hi : i < 16) :
    (js.foldl (fun x j => x ||| BitVec.ofNat 16 (2 ^ j)) x).getLsbD i = (x.getLsbD i || decide (i ∈ js)) := by
  induction js generalizing x with
  | nil => simp
  | cons j r ih =>
    have hbit : (BitVec.ofNat 16 (2 ^ j)).getLsbD i = decide (i = j) := by
      rw [BitVec.getLsbD_ofNat, Nat.testBit_two_pow, decide_eq_true hi, Bool.true_and, decide_eq_decide]
      exact eq_comm
    rw [List.foldl_cons, ih, BitVec.getLsbD_or, hbit, Bool.or_assoc, ← Bool.decide_or]
    simp only [List.mem_cons]
/-- A slice of a warp after a change of the slices of a mask. -/
theorem getElem?_mapSlices (f : Slice → Slice) (m : BitVec 16) (xs : List Slice) (n j : Nat) :
    (mapSlices f m xs n)[j]? = (xs[j]?).map fun x => if m.getLsbD (n + j) then f x else x := by
  induction xs generalizing n j with
  | nil => rfl
  | cons x r ih =>
    cases j with
    | zero => rfl
    | succ j => rw [mapSlices, List.getElem?_cons_succ, List.getElem?_cons_succ, ih, Nat.add_right_comm, Nat.add_assoc]
theorem Warp.slice?_modSlices (w : Warp) (m : BitVec 16) (f : Slice → Slice) (j : Nat) :
    (w.modSlices m f).slice? j = (w.slice? j).map fun x => if m.getLsbD j then f x else x := by
  rw [Warp.slice?, Warp.modSlices, getElem?_mapSlices, Nat.zero_add, Warp.slice?]

/-! ### Branches -/

/-- The target of a BRA is 4 · off bytes from its bundle (R272). -/
theorem braTarget_eq (pc : DWord) (off : BitVec 20) : braTarget pc off = pc + BitVec.ofInt 64 (4 * off.toInt) := by
  rw [braTarget, BitVec.shiftLeft_eq_mul_twoPow, Int.mul_comm, BitVec.ofInt_mul]
  rfl
/-- A slice with an active lane takes a branch on p7 (R49, R22). -/
theorem takesBranch_seven {w : Warp} {j l : Nat} (hlo : 4 * j ≤ l) (hhi : l < 4 * j + 4) (hw : l < w.width)
    (ha : w.active.getLsbD l = true) : takesBranch w 7 false j = true := by
  refine List.any_eq_true.2 ⟨l - 4 * j, List.mem_range.2 (by omega), ?_⟩
  rw [Nat.add_sub_cancel' hlo, ha, decide_eq_true hw]
  rfl
/-- A branch on p7 is taken by the whole gang, where each of its slices has an active lane. -/
theorem takenMask_seven {w : Warp} {m : BitVec 16} (hw : w.width % 4 = 0)
    (hm : ∀ j < 16, m.getLsbD j = true → ∃ l, 4 * j ≤ l ∧ l < 4 * j + 4 ∧ l < w.width ∧ w.active.getLsbD l = true) :
    takenMask w m 7 false = m := by
  refine BitVec.eq_of_getLsbD_eq fun j hj => ?_
  rw [takenMask, getLsbD_foldl_slices _ _ hj]
  cases hbit : m.getLsbD j with
  | false => simp [hbit]
  | true =>
    obtain ⟨l, hlo, hhi, hl, ha⟩ := hm j hj hbit
    have hslice : j < w.nslices := by rw [Warp.nslices]; omega
    have hmem : j ∈ (List.range w.nslices).filter fun j => m.getLsbD j && takesBranch w 7 false j :=
      List.mem_filter.2 ⟨List.mem_range.2 hslice, by rw [hbit, takesBranch_seven hlo hhi hl ha]; rfl⟩
    rw [decide_eq_true hmem, Bool.or_true]
/-- A BRA that the whole gang takes is a jump. -/
theorem exec_bra_taken {s : State} {w v : Warp} {acc neg : Bool} {p : PReg} {off : BitVec 20} (h : Runs s w v (.bra acc p neg off))
    (hm : s.cur.slices ≠ 0) (htaken : takenMask w s.cur.slices p neg = s.cur.slices) :
    exec (.bra acc p neg off) s = .next (s.jump (braTarget s.cur.pc off)) := by
  show execBra acc p neg off s = _
  rw [execBra, word_runs h]
  dsimp only
  rw [htaken, if_neg hm, if_pos rfl]
/-- A jump moves the slices of the gang and nothing else. -/
theorem State.jump_transfers {s : State} {v : Warp} (pc : DWord) (h : s.live? = some v) :
    Transfers s (s.jump pc) v (v.modSlices s.cur.slices (Slice.goTo pc)) 0 := by
  rw [State.jump, State.modLive_of_live _ _ _ h]
  exact ⟨fun a => rfl, rfl, rfl⟩

/-- Settles O11: p7 reads 1, a comparison's write to it leaves the warp, and a branch on it is a jump of the gang. -/
theorem predicateSeven : Obligations.PredicateSeven := by
  unfold Obligations.PredicateSeven
  refine ⟨Warp.pred_seven, fun s w v g c un wd a b h => ?_, fun s w v acc off h _ hw hm hlanes => ?_⟩
  · have he : exec (.setp g c un wd 7 a b) s = onWarp (.setp g c un wd 7 a b) s fun w m v =>
        v.pset 7 (fun l => icond c un wd (w.srcW wd a l) (w.srcW wd b l)) (w.acts m g) := rfl
    exact becomes_of_onWarp he h (Warp.pset_seven ..)
  · refine ⟨_, _, exec_bra_taken h hm (takenMask_seven hw hlanes), State.jump_transfers _ h.live, rfl, fun j => ?_⟩
    rw [Warp.slice?_modSlices, braTarget_eq]

end Sys2Proof.Machine
end

section
/-! PROOFS. Rollback of warps and rebuilt banks (O47). -/

namespace Sys2Proof.Machine
open Sys2Proof

/-! ### Reports (R421, R422) -/

/-- A record with the number that its source takes next. -/
def State.numbered (s : State) (r : ErrRecord) : ErrRecord := { r with sseq := (s.takeSeq r.src).1 }
/-- A report changes the log and the number of its source alone. -/
theorem State.report_rest (s : State) (r : ErrRecord) :
    (s.report r).2 = { s with seqs := (s.report r).2.seqs, log := (s.report r).2.log } := by
  simp only [State.report, apply_ite Prod.snd]
  split <;> rfl
theorem State.report_queue {s : State} {r : ErrRecord} (h : recordKept s.log r.sev = true) :
    (s.report r).2.log.queue = s.log.queue ++ [s.numbered r] := by
  have hkept : (recordKept s.log r.sev || s.log.waits (s.numbered r)) = true := by rw [h]; rfl
  exact (congrArg (fun x : (Nat × Nat) × State => x.2.log.queue) (if_pos hkept) :)
theorem State.core_report (s : State) (r : ErrRecord) (k : Nat) : (s.report r).2.core k = s.core k := by
  rw [State.report_rest]; rfl
theorem State.warp?_report (s : State) (r : ErrRecord) (k slot : Nat) : (s.report r).2.warp? k slot = s.warp? k slot := by
  rw [State.warp?, State.core_report]; rfl
theorem State.team?_report (s : State) (r : ErrRecord) (tid : Nat) : (s.report r).2.team? tid = s.team? tid := by
  rw [State.report_rest]; rfl
/-- A grave record is kept, whatever waits (R422). -/
theorem recordKept_grave (lg : ErrLog) {sev : Nat} (h : 2 ≤ sev) : recordKept lg sev = true := by
  rw [recordKept, decide_eq_true h, Bool.or_true]
theorem recordKept_room {lg : ErrLog} (h : lg.queue.length < hubBuffer) (sev : Nat) : recordKept lg sev = true := by
  rw [recordKept, decide_eq_true h, Bool.true_or]

/-! ### Reads of memory -/

theorem State.readLoc_rises (s : State) (a loc n : Nat) : Rises s (s.readLoc a loc n).2.2 := by
  unfold State.readLoc State.answer
  split
  · exact .of_subset rfl (List.Subset.refl _)
  · exact .refl s
theorem State.readRuns_rises (s : State) (a : Nat) (rs : List (Nat × Nat)) : Rises s (s.readRuns a rs).2.2 := by
  induction rs generalizing s with
  | nil => exact .refl s
  | cons x r ih => exact (s.readLoc_rises a x.1 x.2).trans (ih _)
/-- A read of virtual memory executes the agent's reductions there, and changes nothing else of the device. -/
theorem State.readVirt_rises (s : State) (k slot c va n : Nat) : Rises s (s.readVirt k slot c va n).2.2 :=
  (s.flushTo_rises 1 _).trans (State.readRuns_rises _ _ _)

/-! ### What a stop leaves of cores -/

theorem State.rollback_modWarp (s : State) (k n j : Nat) (f : Warp → Warp) :
    ((s.modWarp k n f).core j).rollback = (s.core j).rollback := by
  unfold State.modWarp
  split
  · by_cases h : j = k
    · subst h; rw [State.setWarp, State.core_modCore]
    · rw [State.setWarp, State.core_modCore_other _ _ _ _ h]
  · rfl
theorem rollback_startSkid (s : State) (tid k : Nat) : ((startSkid s tid).core k).rollback = (s.core k).rollback := by
  unfold startSkid
  generalize s.teamWarps tid = xs
  induction xs generalizing s with
  | nil => rfl
  | cons x r ih => exact (ih _).trans (State.rollback_modWarp ..)
theorem State.rollback_cstop (s : State) (tid k : Nat) (seqr : Bool) (p : Nat × Nat) :
    ((s.cstop tid seqr p).core k).rollback = (s.core k).rollback := by
  unfold State.cstop
  split
  · rfl
  · split
    · rfl
    · exact rollback_startSkid ..
/-- A stop leaves a warp that has stopped as it is. -/
theorem State.warp?_cstop_stopped {s : State} {k slot : Nat} {w : Warp} (tid : Nat) (seqr : Bool) (p : Nat × Nat)
    (hw : s.warp? k slot = some w) (hstop : w.stopped = true) : (s.cstop tid seqr p).warp? k slot = some w := by
  unfold State.cstop
  split
  · exact hw
  · split
    · exact hw
    · have hstep := (startSkid_step (s.modTeam tid (haltTeam { cause := .cstop } 0 seqr 0 p s.coreNow)) tid).warps k slot
      rw [show State.warp? (s.modTeam tid _) k slot = some w from hw] at hstep
      obtain ⟨w', hw', -, hsame⟩ := Option.Rel.exists_of_some hstep
      exact hw'.trans (congrArg some (hsame hstop))

/-! ### A warp at its region's entry (R426) -/

/-- A truncation changes the stack alone. -/
theorem Warp.truncate_rest (w : Warp) (d0 : Nat) (bs : List Byte) :
    w.truncate d0 bs = { w with
      depth := d0, tags := (w.truncate d0 bs).tags, serp := (w.truncate d0 bs).serp
      spilled := (w.truncate d0 bs).spilled, rsp := (w.truncate d0 bs).rsp } := by
  unfold Warp.truncate
  split
  · dsimp only
    split <;> rfl
  · rfl
theorem Warp.slice?_rolledBack (w : Warp) (r : Region) (j : Nat) :
    (w.rolledBack r).slice? j = (w.slice? j).map (Slice.restart r.pc) := List.getElem?_map ..

/-- What a rollback leaves of a warp's registers, queues, stack and slices. -/
theorem Warp.rolledBack_truncate (w : Warp) (r : Region) (bs : List Byte) :
    let x := (w.truncate r.d0 bs).rolledBack r
    x.depth = r.d0 ∧ x.q = [] ∧ x.v = w.v ∧ x.s = w.s ∧ x.p = w.p ∧ x.region = w.region ∧ x.nb = w.nb ∧ x.stopped = w.stopped ∧
      ∀ j, x.slice? j = (w.slice? j).map (Slice.restart r.pc) := by
  intro x
  have hslices (j : Nat) : x.slice? j = (w.slice? j).map (Slice.restart r.pc) := by
    rw [Warp.slice?_rolledBack, Warp.truncate_rest]; rfl
  have hx : x = (w.truncate r.d0 bs).rolledBack r := rfl
  rw [Warp.truncate_rest] at hx
  rw [hx] at hslices ⊢
  exact ⟨rfl, rfl, rfl, rfl, rfl, rfl, rfl, rfl, hslices⟩

/-- Where the chunk that a truncation to `d0` reads begins (R156). -/
def truncateAddr (w : Warp) (d0 : Nat) : Nat := ((truncateChunk w d0).map (chunkAddr w)).getD 0
/-- The bytes that a truncation to `d0` reads: a chunk or none. -/
def truncateSize (w : Warp) (d0 : Nat) : Nat := if (truncateChunk w d0).isSome then chunkSize w else 0
/-- The device once a warp stands at its region's entry, its stack truncated with the bytes read, and its team is marked; the record is
not written yet. -/
def State.restartWarp (s : State) (k slot : Nat) (w : Warp) (r : Region) (bs : List Byte) (psn : Bool) : State :=
  (((s.setWarp k slot ((w.truncate r.d0 bs).rolledBack r)).endRollback k slot).consumed w.team psn).modTeam w.team markRbk
/-- The record of a warp's rollback. -/
def State.rollbackRecord (s : State) (k : Nat) (w : Warp) (r : Region) (pair : Nat × Nat) : ErrRecord :=
  { mkRecord (checkerSource k) 0x15 1 pair r.pc (BitVec.ofNat 64 w.num) (BitVec.ofNat 64 r.d0) (BitVec.ofNat 64 r.nb) with
    launch := (s.team? w.team).bind s.launchOf }
/-- Where the host assists, the warp stops at its REGION and its team halts (R432). -/
def State.stopAtRegion (s : State) (k slot tid : Nat) (host : Bool) (p : Nat × Nat) : State :=
  if host then (s.modWarp k slot fun w => { w with stopped := true, skid := 0 }).cstop tid false p else s

section
variable (s : State) (k slot : Nat) (w : Warp) (r : Region) (bs : List Byte) (psn : Bool)

theorem State.restartWarp_core : (s.restartWarp k slot w r bs psn).core k =
    { s.core k with
      warps := sinsert (s.core k).warps slot ((w.truncate r.d0 bs).rolledBack r)
      rollback := (s.core k).rollback.filter fun x => x.1 != slot
      replays := (s.core k).replays.filter fun x => x.slot != slot } := by
  have hcores : (s.restartWarp k slot w r bs psn).cores =
      ((s.setWarp k slot ((w.truncate r.d0 bs).rolledBack r)).endRollback k slot).cores := by cases psn <;> rfl
  rw [State.core, hcores, ← State.core, State.endRollback, State.core_modCore, State.setWarp, State.core_modCore]
theorem State.restartWarp_warp? : (s.restartWarp k slot w r bs psn).warp? k slot = some ((w.truncate r.d0 bs).rolledBack r) := by
  rw [State.warp?, State.restartWarp_core]
  exact sfind_sinsert_same ..
theorem State.restartWarp_team? :
    (s.restartWarp k slot w r bs psn).team? w.team = (s.team? w.team).map fun tm => markRbk (if psn then consume tm else tm) := by
  rw [State.restartWarp, State.team?_modTeam]
  cases psn
  · rfl
  · rw [State.consumed, if_pos rfl, State.team?_modTeam, Option.map_map]
    rfl
theorem State.restartWarp_rollback : ∀ x ∈ ((s.restartWarp k slot w r bs psn).core k).rollback, x.1 ≠ slot := by
  rw [State.restartWarp_core]
  exact fun x hx => bne_iff_ne.1 (List.mem_filter.1 hx).2
theorem State.restartWarp_frame : (s.restartWarp k slot w r bs psn).mem = s.mem ∧ (s.restartWarp k slot w r bs psn).log = s.log := by
  cases psn <;> exact ⟨rfl, rfl⟩
end

section
variable {s : State} {k slot tid : Nat} {w : Warp} {tm : Team} (host : Bool) (p : Nat × Nat)

theorem State.stopAtRegion_frame :
    (s.stopAtRegion k slot tid host p).mem = s.mem ∧ (s.stopAtRegion k slot tid host p).log = s.log := by
  cases host
  · exact ⟨rfl, rfl⟩
  · rw [State.stopAtRegion, if_pos rfl, State.cstop_rest]
    exact ⟨State.modWarp_mem .., State.modWarp_log ..⟩
theorem State.stopAtRegion_rollback : ((s.stopAtRegion k slot tid host p).core k).rollback = (s.core k).rollback := by
  cases host
  · rfl
  · exact (State.rollback_cstop ..).trans (State.rollback_modWarp ..)
theorem State.stopAtRegion_warp? (hw : s.warp? k slot = some w) : (s.stopAtRegion k slot tid host p).warp? k slot =
    some (if host then { w with stopped := true, skid := 0 } else w) := by
  cases host
  · exact hw
  · refine State.warp?_cstop_stopped tid false p ?_ rfl
    rw [State.warp?_modWarp_eq, if_pos ⟨rfl, rfl⟩, hw]
    rfl
theorem State.stopAtRegion_team? (htm : s.team? tid = some tm) : (s.stopAtRegion k slot tid host p).team? tid =
    some (if host then cstopped s.coreNow p tm else tm) := by
  cases host
  · exact htm
  · have hwarp : (s.modWarp k slot fun w => { w with stopped := true, skid := 0 }).team? tid = some tm := by
      rw [State.team?, State.modWarp_teams]; exact htm
    refine (State.cstop_team? ..).trans ?_
    rw [if_pos rfl, hwarp, State.modWarp_coreNow]
    rfl
end

/-- A rollback to a region whose truncation neither faults nor waits restarts the warp, reports it, and stops it where the host
assists. -/
theorem State.rollWarp_restarts {s : State} {k slot : Nat} {w : Warp} {r : Region} (pair : Nat × Nat) (host : Bool)
    (hfault : s.truncateTrap k (s.ctxNo w) w r.d0 = none)
    (hserved : ∀ x ∈ s.runs (s.ctxNo w) (truncateAddr w r.d0) (truncateSize w r.d0), s.blocked k x.1 false = false) :
    let rd := s.readVirt k slot (s.ctxNo w) (truncateAddr w r.d0) (truncateSize w r.d0)
    let u := rd.2.2.restartWarp k slot w r rd.1 rd.2.1
    let x := u.report (u.rollbackRecord k w r pair)
    s.rollWarp k slot w r pair host = x.2.stopAtRegion k slot w.team host x.1 := by
  have hgo : ¬((s.runs (s.ctxNo w) (truncateAddr w r.d0) (truncateSize w r.d0)).any fun x => s.blocked k x.1 false) = true := by
    rw [List.any_eq_true]
    rintro ⟨x, hx, hblocked⟩
    rw [hserved x hx] at hblocked
    cases hblocked
  intro rd u x
  rw [State.rollWarp]
  simp only [hfault]
  exact if_neg hgo

/-! ### The event -/

/-- A slot that has nothing to roll back stays as it is. -/
theorem exec_warpRollback_idle {s : State} {core slot : Nat} (hnone : (s.core core).rollback.find? (fun x => x.1 == slot) = none) :
    exec (.warpRollback core slot) s = .next s := by
  show execWarpRollback core slot s = _
  rw [execWarpRollback, hnone]
  cases s.warp? core slot <;> rfl
/-- A warp that has trapped does not roll back. -/
theorem exec_warpRollback_trapped {s : State} {core slot : Nat} {w : Warp} {x : Nat × (Nat × Nat) × Bool} (hw : s.warp? core slot = some w)
    (hroll : (s.core core).rollback.find? (fun x => x.1 == slot) = some x) (htrap : w.trap.isSome = true) :
    exec (.warpRollback core slot) s = .next s := by
  show execWarpRollback core slot s = _
  rw [execWarpRollback, hw, hroll]
  exact congrArg Host.Outcome.next (if_pos (by rw [htrap, Bool.or_true]))

/-- What becomes of a warp that is to roll back, once its results have landed: it goes back to its region, or recovery is refused. -/
def State.rollOrRefuse (s : State) (core slot : Nat) (w : Warp) (pair : Nat × Nat) (host : Bool) : State :=
  match if w.recoverable then w.region else none with
  | some r => s.rollWarp core slot w r pair host
  | none => (s.endRollback core slot).refuseRecovery (checkerSource core) w.team false w.num w.headPc pair

section
variable {s : State} {core slot : Nat} {w : Warp} {pair : Nat × Nat} {host : Bool} (hw : s.warp? core slot = some w)
  (hroll : (s.core core).rollback.find? (fun x => x.1 == slot) = some (slot, pair, host)) (htrap : w.trap = none) (hpend : w.pending = [])
include hw hroll htrap hpend

theorem exec_warpRollback_landed : exec (.warpRollback core slot) s = .next (s.rollOrRefuse core slot w pair host) := by
  have hready : ¬(!s.allReady core slot w || w.trap.isSome) = true := by
    rw [State.allReady, hpend, htrap]; exact Bool.false_ne_true
  have hlanded : s.landSome core slot (fun _ => true) = s := State.landSome_none hw (by rw [hpend]; exact fun _ h => nomatch h)
  show execWarpRollback core slot s = _
  rw [execWarpRollback, hw, hroll]
  dsimp only
  rw [if_neg hready, hlanded, hw]
  rfl
theorem exec_warpRollback_region {r : Region} (hregion : w.region = some r) (hrec : w.recoverable = true) :
    exec (.warpRollback core slot) s = .next (s.rollWarp core slot w r pair host) := by
  rw [exec_warpRollback_landed hw hroll htrap hpend, State.rollOrRefuse, if_pos hrec, hregion]
theorem exec_warpRollback_refused (hno : w.region = none ∨ w.recoverable = false) : exec (.warpRollback core slot) s =
    .next ((s.endRollback core slot).refuseRecovery (checkerSource core) w.team false w.num w.headPc pair) := by
  have hnone : (if w.recoverable then w.region else none) = none := by
    rcases hno with h | h
    · rw [h, ite_self]
    · rw [h]; rfl
  rw [exec_warpRollback_landed hw hroll htrap hpend, State.rollOrRefuse, hnone]
end

theorem cstopped_cir (now : Nat) (p : Nat × Nat) (tm : Team) : (cstopped now p tm).cir = tm.cir := by
  unfold cstopped; split <;> rfl
/-- What a rollback's mark leaves of a team, which has perhaps consumed poison. -/
theorem markRbk_fields (psn : Bool) (tm : Team) :
    let x := markRbk (if psn then consume tm else tm)
    x.halted = tm.halted ∧ x.cause = tm.cause ∧ x.cir = (if psn then consume tm else tm).cir ||| 2 := by
  cases psn <;> exact ⟨rfl, rfl, rfl⟩

/-- A warp rolls back to its region (R426), and halts its team there where the host assists (R432). -/
theorem warpRollback_restarts {s : State} {core slot : Nat} {w : Warp} {pair : Nat × Nat} {host : Bool} {r : Region} {tm : Team}
    (hw : s.warp? core slot = some w)
    (hroll : (s.core core).rollback.find? (fun x => x.1 == slot) = some (slot, pair, host)) (htrap : w.trap = none)
    (hpend : w.pending = []) (hregion : w.region = some r) (hrec : w.recoverable = true) (htm : s.team? w.team = some tm)
    (hfault : s.truncateTrap core (s.ctxNo w) w r.d0 = none)
    (hserved : ∀ x ∈ s.runs (s.ctxNo w) (truncateAddr w r.d0) (truncateSize w r.d0), s.blocked core x.1 false = false)
    (hrun : tm.halted = false) :
    let rd := s.readVirt core slot (s.ctxNo w) (truncateAddr w r.d0) (truncateSize w r.d0)
    ∃ t w' tm', exec (.warpRollback core slot) s = .next t ∧ SameBytes rd.2.2 t ∧ t.warp? core slot = some w' ∧ t.team? w.team = some tm' ∧
      tm'.cir = (if rd.2.1 then consume tm else tm).cir ||| 2 ∧ (∀ x ∈ (t.core core).rollback, x.1 ≠ slot) ∧
      w'.depth = r.d0 ∧ w'.q = [] ∧ w'.v = w.v ∧ w'.s = w.s ∧ w'.p = w.p ∧ w'.region = some r ∧ w'.nb = w.nb ∧
      (∀ j x, w.slice? j = some x → w'.slice? j = some (if x.retired then x else
        { x with pc := r.pc, gang := 0, waits := [], resume := r.pc, count := 0 })) ∧
      (recordKept s.log 1 = true → ∃ e ∈ t.log.queue, e.event = 0x15 ∧ e.pair = pair ∧ e.addr = r.pc ∧ e.d1 = BitVec.ofNat 64 r.d0) ∧
      (tm'.halted, tm'.cause.map (·.1.cause)) = (if host then (true, some .cstop) else (false, tm.cause.map (·.1.cause))) ∧
      w'.stopped = (host || w.stopped) := by
  intro rd
  let u := rd.2.2.restartWarp core slot w r rd.1 rd.2.1
  let e := u.rollbackRecord core w r pair
  have hexec : exec (.warpRollback core slot) s = .next ((u.report e).2.stopAtRegion core slot w.team host (u.report e).1) :=
    (exec_warpRollback_region hw hroll htrap hpend hregion hrec).trans
      (congrArg Host.Outcome.next (State.rollWarp_restarts pair host hfault hserved))
  have hrises : Rises s rd.2.2 := s.readVirt_rises ..
  obtain ⟨humem, hulog⟩ : u.mem = rd.2.2.mem ∧ u.log = rd.2.2.log := State.restartWarp_frame ..
  have hlog : rd.2.2.log = s.log := (congrArg State.log hrises.rest :)
  have huwarp : u.warp? core slot = some ((w.truncate r.d0 rd.1).rolledBack r) := State.restartWarp_warp? ..
  have huteam : u.team? w.team = some (markRbk (if rd.2.1 then consume tm else tm)) := by
    rw [State.restartWarp_team?, State.team?, hrises.teams, ← State.team?, htm]
    rfl
  have huends : ∀ x ∈ (u.core core).rollback, x.1 ≠ slot := rd.2.2.restartWarp_rollback core slot w r rd.1 rd.2.1
  obtain ⟨hsev, he⟩ : e.sev = 1 ∧ e.event = 0x15 ∧ e.pair = pair ∧ e.addr = r.pc ∧ e.d1 = BitVec.ofNat 64 r.d0 :=
    ⟨rfl, rfl, rfl, rfl, rfl⟩
  obtain ⟨hdepth, hq, hv, hs, hp, hreg, hnb, hstopped, hslices⟩ := w.rolledBack_truncate r rd.1
  obtain ⟨hhalted, hcause, hcir⟩ := markRbk_fields rd.2.1 tm
  clear_value e u
  obtain ⟨hmem, hqueue⟩ := State.stopAtRegion_frame (s := (u.report e).2) (k := core) (slot := slot) (tid := w.team) host (u.report e).1
  refine ⟨_, _, _, hexec, fun a => ?_, State.stopAtRegion_warp? host _ ((State.warp?_report ..).trans huwarp),
    State.stopAtRegion_team? host _ ((State.team?_report ..).trans huteam), ?_, ?_, ?_⟩
  · exact congrArg (sget 0 · a) ((hmem.trans (congrArg State.mem (u.report_rest e) :)).trans humem)
  · rw [← hcir]
    cases host
    exacts [rfl, cstopped_cir ..]
  · rw [State.stopAtRegion_rollback, State.core_report]
    exact huends
  · have hrestarted (j : Nat) (x : Slice) (hx : w.slice? j = some x) :
        ((w.truncate r.d0 rd.1).rolledBack r).slice? j = some (x.restart r.pc) := by rw [hslices, hx]; rfl
    have hreported (hkept : recordKept s.log 1 = true) : u.numbered e ∈ (u.report e).2.log.queue := by
      rw [State.report_queue (by rw [hsev, hulog, hlog, hkept])]
      exact List.mem_append_right _ List.mem_cons_self
    rw [← hqueue] at hreported
    generalize (w.truncate r.d0 rd.1).rolledBack r = x at *
    generalize markRbk (if rd.2.1 then consume tm else tm) = tm' at *
    cases host with
    | false =>
      exact ⟨hdepth, hq, hv, hs, hp, hreg.trans hregion, hnb, hrestarted, fun h => ⟨_, hreported h, he⟩,
        by simp [hhalted, hrun, hcause], hstopped⟩
    | true =>
      exact ⟨hdepth, hq, hv, hs, hp, hreg.trans hregion, hnb, hrestarted, fun h => ⟨_, hreported h, he⟩,
        by simp [cstopped, hhalted, hrun], rfl⟩

/-- Recovery is refused: the record is written, and the team halts (R428). -/
theorem refuseRecovery_halts {s : State} {tid : Nat} {tm : Team} (src num : Nat) (pc : DWord) (pair : Nat × Nat)
    (htm : s.team? tid = some tm) (hrun : tm.halted = false) :
    let t := s.refuseRecovery src tid false num pc pair
    t.mem = s.mem ∧ (t.team? tid).map (fun x => (x.halted, x.recWait, x.cause.map (·.1.cause))) = some (true, true, some .cstop) ∧
      ∃ e ∈ t.log.queue, e.event = 0x16 ∧ e.sev = 3 ∧ e.pair = pair := by
  intro t
  let e : ErrRecord := { mkRecord src 0x16 3 pair pc (BitVec.ofNat 64 num) 0 0 with launch := s.launchOf tm }
  have ht : t = (s.report e).2.cstop tid false (s.report e).1 := by
    show s.refuseRecovery src tid false num pc pair = _
    simp only [State.refuseRecovery, htm]
    rfl
  have hrest := (s.report e).2.cstop_rest tid (s.report e).1
  rw [← ht] at hrest
  have hqueue : t.log.queue = s.log.queue ++ [s.numbered e] := by
    rw [hrest]; exact State.report_queue (recordKept_grave _ (show 2 ≤ 3 by decide))
  refine ⟨?_, ?_, s.numbered e, ?_, rfl, rfl, rfl⟩
  · rw [hrest, State.report_rest]
  · rw [ht, State.cstop_team?, if_pos rfl, State.team?_report, htm]
    simp [cstopped, hrun]
  · rw [hqueue]; exact List.mem_append_right _ List.mem_cons_self

/-! ### Banks (R70) -/

/-- The record of a bank that stands in a spare. -/
def bankRecord (core : Nat) (ua : Bool) (bank : Nat) (b : BankFail) : ErrRecord :=
  mkRecord (checkerSource core) 0x11 0 b.pair 0 (BitVec.ofNat 64 (ua.toNat + bank % 64 * 2 ^ 8 + b.spare % 64 * 2 ^ 16)) 0 0
/-- The record of the march test of a bank that a spare replaced. -/
def bankTest (core : Nat) (ua : Bool) (bank : Nat) (pass : Bool) (p : Nat × Nat) : ErrRecord :=
  { mkRecord (checkerSource core) 0x38 (if pass then 0 else 2) p 0 (testDetail 1 pass none ua bank false) 0 0 with
    cls := if pass then 1 else 2 }
/-- The core once a bank's contents stand in a spare and the bank has been tested. -/
def Core.bankRebuilt (c : Core) (ua : Bool) (bank : Nat) (pass : Bool) (b : BankFail) : Core :=
  { c with banks := c.banks.filter (· != b), spares := if pass then c.spares ++ [(ua, bank)] else c.spares }
section
variable {s : State} {core bank : Nat} {ua : Bool} (pass : Bool) {b : BankFail}
  (hb : (s.core core).banks.find? (fun b => b.ua == ua && b.bank == bank) = some b)
include hb

theorem exec_bankRebuilt_noSpare (hspare : b.spare = noSpare) : exec (.bankRebuilt core ua bank pass) s = .next s := by
  show execBankRebuilt core ua bank pass s = _
  rw [execBankRebuilt, hb]
  exact congrArg Host.Outcome.next (if_pos hspare)
/-- A bank with a spare, while no quarantine is requested: both records are written, and the bank is a spare if its test passed. -/
theorem exec_bankRebuilt_tested (hspare : b.spare ≠ noSpare) (hq : (s.core core).mgn.qreq = false) :
    let x := s.report (bankRecord core ua bank b)
    exec (.bankRebuilt core ua bank pass) s =
      .next ((x.2.report (bankTest core ua bank pass x.1)).2.modCore core fun c => c.bankRebuilt ua bank pass b) := by
  intro x
  show execBankRebuilt core ua bank pass s = _
  simp only [execBankRebuilt, hb, if_neg hspare, State.core_report, hq, Bool.not_false, Bool.and_true, if_true]
  rfl
/-- What a rebuilt bank leaves, its test passed or failed (R70). -/
theorem bankRebuilt_tested (hspare : b.spare ≠ noSpare) (hq : (s.core core).mgn.qreq = false) :
    ∃ t, exec (.bankRebuilt core ua bank pass) s = .next t ∧ SameBytes s t ∧ t.teams = s.teams ∧
      t.core core = (s.core core).bankRebuilt ua bank pass b ∧ (∀ k, k ≠ core → t.core k = s.core k) ∧
      (s.log.queue.length + 2 ≤ hubBuffer → ∃ e1 e2, t.log.queue = s.log.queue ++ [e1, e2] ∧ e1.event = 0x11 ∧ e1.pair = b.pair ∧
        e2.event = 0x38 ∧ e2.cls = if pass then 1 else 2) := by
  let x := s.report (bankRecord core ua bank b)
  let y := x.2.report (bankTest core ua bank pass x.1)
  have hy : y.2 = { s with seqs := y.2.seqs, log := y.2.log } := by
    show (x.2.report _).2 = _
    rw [State.report_rest, State.report_rest]
  refine ⟨_, exec_bankRebuilt_tested pass hb hspare hq, fun a => congrArg (sget 0 · a) (congrArg State.mem hy :), (congrArg State.teams hy :),
    ?_, fun k hk => ?_, fun hroom => ?_⟩
  · rw [State.core_modCore, State.core_report, State.core_report]
  · rw [State.core_modCore_other _ _ _ _ hk, State.core_report, State.core_report]
  · have hx : x.2.log.queue = s.log.queue ++ [s.numbered (bankRecord core ua bank b)] :=
      State.report_queue (recordKept_room (by omega) _)
    have hroom2 : x.2.log.queue.length < hubBuffer := by rw [hx, List.length_append, List.length_singleton]; omega
    refine ⟨s.numbered (bankRecord core ua bank b), x.2.numbered (bankTest core ua bank pass x.1), ?_, rfl, rfl, rfl, rfl⟩
    refine (State.report_queue (r := bankTest core ua bank pass x.1) (recordKept_room hroom2 _)).trans ?_
    rw [hx, List.append_assoc]
    rfl
end

/-- Settles O47, clause by clause: the warp's rollback, its refusal and the banks, each by the lemma of its case. -/
theorem rollbackAndBanks : Obligations.RollbackAndBanks := by
  unfold Obligations.RollbackAndBanks
  refine ⟨fun s core slot hnone => ?_, fun s core slot w x hw hroll htrap => ?_,
    fun s core slot w pair host r tm hw hroll htrap hpend hregion hrec htm => ⟨fun tr hfault hwaits => ?_,
      fun hfault hserved hrun => warpRollback_restarts hw hroll htrap hpend hregion hrec htm hfault hserved hrun⟩,
    fun s core slot w pair host tm hw hroll htrap hpend hno htm hrun => ?_, fun s core ua bank pass hnone => ?_,
    fun s core ua bank pass b hb => ⟨exec_bankRebuilt_noSpare pass hb, bankRebuilt_tested pass hb⟩⟩
  · exact exec_warpRollback_idle hnone
  · exact exec_warpRollback_trapped hw hroll htrap
  · rw [exec_warpRollback_region hw hroll htrap hpend hregion hrec, State.rollWarp]
    simp only [hfault, hwaits, Bool.false_eq_true, if_false]
  · obtain ⟨hmem, hhalts, hreported⟩ := refuseRecovery_halts (s := s.endRollback core slot) (checkerSource core) w.num w.headPc pair htm hrun
    exact ⟨_, exec_warpRollback_refused hw hroll htrap hpend hno, fun a => congrArg (sget 0 · a) hmem, hhalts, hreported⟩
  · show execBankRebuilt core ua bank pass s = _
    rw [execBankRebuilt, hnone]

end Sys2Proof.Machine
end

section
/-! PROOFS. Beam tables (O18): the two banks of a table after each store, and the three words that store to one. -/

namespace Sys2Proof.Machine
open Sys2Proof

/-! ### Entries of a bank (R92) -/

/-- The entry written reads as its value, and the others as before: the stored difference takes the entry's own number away again. -/
theorem beamEntry_putBeamEntry (m : List (Nat × Half)) (i j : Nat) (v : Half) :
    beamEntry (putBeamEntry m i v) j = if i = j then v else beamEntry m j := by
  rw [beamEntry, putBeamEntry, sget_sput]
  by_cases h : i = j
  · subst h
    rw [if_pos rfl, if_pos rfl, BitVec.sub_add_cancel]
  · rw [if_neg fun e => h e.symm, if_neg h, beamEntry]
/-- A bank after entries were written to it, in order. -/
def putBeamEntries (m es : List (Nat × Half)) : List (Nat × Half) := es.foldl (fun m e => putBeamEntry m e.1 e.2) m
/-- Of the entries written, the last with its number counts. -/
theorem beamEntry_putBeamEntries (es m : List (Nat × Half)) (j : Nat) :
    beamEntry (putBeamEntries m es) j = ((es.reverse.find? fun e => e.1 == j).map (·.2)).getD (beamEntry m j) := by
  induction es generalizing m with
  | nil => rfl
  | cons e r ih =>
    have hcons : putBeamEntries m (e :: r) = putBeamEntries (putBeamEntry m e.1 e.2) r := rfl
    rw [hcons, ih, beamEntry_putBeamEntry, List.reverse_cons, List.find?_append]
    cases r.reverse.find? fun e => e.1 == j with
    | some x => rfl
    | none => by_cases h : e.1 = j <;> simp [h]

/-! ### The banks of a table (R94) -/

/-- A BITLD's entries all go to the bank that is the shadow bank before it. -/
theorem BeamTable.putEntries_eq (es : List (Nat × Half)) (b : BeamTable) :
    b.putEntries es =
      if b.act then { b with bank0 := putBeamEntries b.bank0 es } else { b with bank1 := putBeamEntries b.bank1 es } := by
  induction es generalizing b with
  | nil => exact (ite_self b).symm
  | cons e r ih =>
    have hcons : b.putEntries (e :: r) = (b.putEntries [e]).putEntries r := rfl
    obtain ⟨bank0, pitch0, bank1, pitch1, act⟩ := b
    rw [hcons, ih]
    cases act <;> rfl
theorem BeamTable.active_putEntries (b : BeamTable) (es : List (Nat × Half)) : (b.putEntries es).active = b.active := by
  obtain ⟨bank0, pitch0, bank1, pitch1, act⟩ := b
  rw [BeamTable.putEntries_eq]
  cases act <;> rfl
theorem BeamTable.shadow_putEntries (b : BeamTable) (es : List (Nat × Half)) :
    (b.putEntries es).shadow = (putBeamEntries b.shadow.1 es, b.shadow.2) := by
  obtain ⟨bank0, pitch0, bank1, pitch1, act⟩ := b
  rw [BeamTable.putEntries_eq]
  cases act <;> rfl
theorem BeamTable.store_bitpitch (b : BeamTable) (c t : Nat) (x : Word) :
    (b.store (.bitpitch c t x)).active = b.active ∧ (b.store (.bitpitch c t x)).shadow = (b.shadow.1, x) := by
  obtain ⟨bank0, pitch0, bank1, pitch1, act⟩ := b
  cases act <;> exact ⟨rfl, rfl⟩
theorem BeamTable.store_bitsw (b : BeamTable) (c t : Nat) :
    (b.store (.bitsw c t)).active = b.shadow ∧ (b.store (.bitsw c t)).shadow = b.active := by
  obtain ⟨bank0, pitch0, bank1, pitch1, act⟩ := b
  cases act <;> exact ⟨rfl, rfl⟩

/-! ### The words (R262) -/

/-- A store to a table joins the stores in flight as one, at the end. -/
theorem State.beamStore_stored (s : State) (lanes : List Nat) (op : StoreOp) : BeamStored s (s.beamStore lanes op) lanes op := rfl
/-- The state in which the warp at the cursor, `v`, has lost its region entry (R365). -/
def State.regionEnded (s : State) (v : Warp) : State := s.setWarp s.cur.core s.cur.slot { v with region := none }
theorem State.modLive_endRegion {s : State} {v : Warp} (h : s.live? = some v) : s.modLive Warp.endRegion = s.regionEnded v :=
  State.modLive_of_live s v _ h

section
variable {s : State} {w v : Warp} {acc : Bool} {g : Guard} {tb : BitVec 2} {a b : Src}

theorem exec_bitld_idle (h : Runs s w v (.bitld acc g tb a b)) (hl : w.actLanes s.cur.slices g = []) :
    exec (.bitld acc g tb a b) s = .next (s.regionEnded v) := by
  show execBitld acc g tb a b s = _
  rw [execBitld, word_runs h, State.modLive_endRegion h.live, hl]
  rfl
theorem exec_bitld_acts (h : Runs s w v (.bitld acc g tb a b)) (hl : w.actLanes s.cur.slices g ≠ []) :
    exec (.bitld acc g tb a b) s = .next
      (((s.regionEnded v).settleAccess (beamAccess (w.actLanes s.cur.slices g))).beamStore (w.actLanes s.cur.slices g)
        (.bitld (s.ctxNo w) tb.toNat (laneMask (w.actLanes s.cur.slices g))
          ((w.actLanes s.cur.slices g).map fun l => ((w.src32 a l).toNat, BitVec.ofNat 16 (w.src32 b l).toNat)))) := by
  have hne : ¬(w.actLanes s.cur.slices g).isEmpty = true := fun e => hl (List.isEmpty_iff.1 e)
  show execBitld acc g tb a b s = _
  rw [execBitld, word_runs h, State.modLive_endRegion h.live, if_neg hne]
  rfl
end

/-- A word that makes one store to a table for its lowest acting lane: the shape that BITLD.pitch and BITSW share. -/
def lowestLaneStore (i : Instr) (g : Guard) (op : Nat → Warp → Nat → StoreOp) (s : State) : Out :=
  word i s fun w s =>
    let s := s.modLive Warp.endRegion
    match w.actLanes s.cur.slices g with
    | [] => s
    | l :: _ => (s.settleAccess (beamAccess [l])).beamStore [l] (op (s.ctxNo w) w l)
theorem exec_bitldPitch_eq (acc : Bool) (g : Guard) (tb : BitVec 2) (b : Src) (s : State) :
    exec (.bitldPitch acc g tb b) s =
      lowestLaneStore (.bitldPitch acc g tb b) g (fun c w l => .bitpitch c tb.toNat (w.src32 b l)) s := rfl
theorem exec_bitsw_eq (acc : Bool) (g : Guard) (tb : BitVec 2) (s : State) :
    exec (.bitsw acc g tb) s = lowestLaneStore (.bitsw acc g tb) g (fun c _ _ => .bitsw c tb.toNat) s := rfl

section
variable {s : State} {w v : Warp} {i : Instr} {g : Guard}

theorem lowestLaneStore_idle (op : Nat → Warp → Nat → StoreOp) (h : Runs s w v i) (hl : w.actLanes s.cur.slices g = []) :
    lowestLaneStore i g op s = .next (s.regionEnded v) := by
  rw [lowestLaneStore, word_runs h, State.modLive_endRegion h.live]
  dsimp only
  rw [show w.actLanes (s.regionEnded v).cur.slices g = [] from hl]
theorem lowestLaneStore_acts (op : Nat → Warp → Nat → StoreOp) {l : Nat} {r : List Nat} (h : Runs s w v i)
    (hl : w.actLanes s.cur.slices g = l :: r) :
    lowestLaneStore i g op s = .next
      (((s.regionEnded v).settleAccess (beamAccess [l])).beamStore [l] (op (s.ctxNo w) w l)) := by
  rw [lowestLaneStore, word_runs h, State.modLive_endRegion h.live]
  dsimp only
  rw [show w.actLanes (s.regionEnded v).cur.slices g = l :: r from hl]
  rfl
end

/-- Settles O18, word by word, each by whether a lane acts, and store by store for the two banks. -/
theorem beamTables : Obligations.BeamTables := by
  unfold Obligations.BeamTables
  refine ⟨fun s w v acc g tb a b h => ?_, fun s w v acc g tb b h => ?_, fun s w v acc g tb h => ?_, fun b c tb m es => ?_,
    fun b c tb x => b.store_bitpitch c tb x, fun b c tb => b.store_bitsw c tb⟩
  · by_cases hl : w.actLanes s.cur.slices g = []
    · exact ⟨_, exec_bitld_idle h hl, (if_pos hl).mpr rfl⟩
    · exact ⟨_, exec_bitld_acts h hl, (if_neg hl).mpr (State.beamStore_stored ..)⟩
  · cases hl : w.actLanes s.cur.slices g with
    | nil => exact ⟨_, (exec_bitldPitch_eq ..).trans (lowestLaneStore_idle _ h hl), rfl⟩
    | cons l r => exact ⟨_, (exec_bitldPitch_eq ..).trans (lowestLaneStore_acts _ h hl), State.beamStore_stored ..⟩
  · cases hl : w.actLanes s.cur.slices g with
    | nil => exact ⟨_, (exec_bitsw_eq ..).trans (lowestLaneStore_idle _ h hl), rfl⟩
    | cons l r => exact ⟨_, (exec_bitsw_eq ..).trans (lowestLaneStore_acts _ h hl), State.beamStore_stored ..⟩
  · have hs : (b.store (.bitld c tb m es)).shadow = (putBeamEntries b.shadow.1 es, b.shadow.2) := b.shadow_putEntries es
    refine ⟨b.active_putEntries es, by rw [hs], fun j => ?_⟩
    rw [hs, beamEntry_putBeamEntries]
    cases es.reverse.find? fun e => e.1 == j <;> rfl

end Sys2Proof.Machine
end

section
/-! PROOFS. Balan Link (O51): what a port's going down leaves, how this device writes a page back and gives it up, and whom a grant leaves
with a page. -/

namespace Sys2Proof.Machine
open Sys2Proof

/-! ### Ports (R467, R468) -/

theorem exec_linkTrain (k : Nat) (s : State) :
    exec (.linkTrain k) s = .next (if k < 12 ∧ s.boot.phase = 2 then s.writeLnkctl k 1 else s) := rfl
theorem exec_linkUp (k : Nat) (lanes : BitVec 3) (s : State) :
    exec (.linkUp k lanes) s = .next (
      if k < 12 ∧ (s.port k).en = true then s.modPort k fun x => { x with up := true, lanes := lanes.toNat } else s) := rfl
theorem exec_linkDown (k : Nat) (s : State) : exec (.linkDown k) s = .next (if (s.port k).up then s.portDown k else s) := rfl

theorem State.port_modPort_other (s : State) (k j : Nat) (f : Port → Port) (h : j ≠ k) : (s.modPort k f).port j = s.port j := by
  simp only [State.port, State.modPort, sfind_sinsert_other _ _ _ _ h]

/-- A write of LNKCTL with EN 1 enables the port, and takes none down. -/
theorem State.writeLnkctl_enable (s : State) (k : Nat) : s.writeLnkctl k 1 = s.modPort k fun x => { x with en := true } := rfl

/-- A page of 64 KiB is 2048 sectors. -/
theorem mem_poisonPage {page x : Nat} {ps : List Nat} : x ∈ poisonPage page ps ↔ x ∈ ps ∨ x / 2048 = page := by
  have hsector : (∃ i < 2048, 2048 * page + i = x) ↔ x / 2048 = page :=
    ⟨fun ⟨i, hi, hx⟩ => by omega, fun hx => ⟨x % 2048, by omega, by omega⟩⟩
  by_cases hx : x ∈ ps <;> simp [poisonPage, hx, hsector]

/-- The poison that the loss of one holder of a page leaves (R468). -/
def poisonIfModified (ps : List Nat) (p : Nat × PageState) : List Nat :=
  if p.2 == PageState.m then poisonPage (p.1 / 16) ps else ps
theorem mem_poisonIfModified {x : Nat} {ps : List Nat} {p : Nat × PageState} :
    x ∈ poisonIfModified ps p ↔ x ∈ ps ∨ (p.2 = .m ∧ x / 2048 = p.1 / 16) := by
  unfold poisonIfModified
  by_cases hm : p.2 = PageState.m
  · simp [hm, mem_poisonPage]
  · simp [hm]
theorem mem_foldl_poisonIfModified {x : Nat} {ps : List Nat} {held : List (Nat × PageState)} :
    x ∈ held.foldl poisonIfModified ps ↔ x ∈ ps ∨ ∃ p ∈ held, p.2 = .m ∧ x / 2048 = p.1 / 16 := by
  induction held generalizing ps with
  | nil => simp
  | cons p r ih => simp only [List.foldl_cons, ih, mem_poisonIfModified, or_assoc, List.exists_mem_cons_iff]

theorem State.portDown_poison (s : State) (k : Nat) :
    (s.portDown k).poison = (s.homePages.filter fun p => p.1 % 16 == k && p.2 != .i).foldl poisonIfModified s.poison := rfl
/-- Every sector of a page that the lost peer held M is poisoned (R468). -/
theorem State.mem_poison_portDown (s : State) (k page x : Nat) (h : (16 * page + k, PageState.m) ∈ s.homePages) (hk : k < 16)
    (hlo : 2048 * page ≤ x) (hhi : x < 2048 * page + 2048) : x ∈ (s.portDown k).poison := by
  have hkey : (16 * page + k) % 16 = k := by omega
  have hheld : (16 * page + k, PageState.m) ∈ s.homePages.filter fun p => p.1 % 16 == k && p.2 != .i :=
    List.mem_filter.2 ⟨h, by simp [hkey]⟩
  have hsector : x / 2048 = (16 * page + k) / 16 := by omega
  rw [s.portDown_poison, mem_foldl_poisonIfModified]
  exact .inr ⟨_, hheld, rfl, hsector⟩

/-- A port that goes down keeps its number of revoked hand-overs and its EN; its state and lanes are gone. -/
theorem State.portDown_port (s : State) (k : Nat) :
    (s.portDown k).port k = { s.port k with up := false, lanes := 0, drop := ((s.portDown k).port k).drop } := by
  have hport : (s.portDown k).port k = { s.port k with
      up := false, lanes := 0
      drop := min ((s.port k).drop + (s.homePages.filter fun p => p.1 % 16 == k && p.2 != .i).length) 0xFFFF } :=
    s.port_modPort k fun x => { x with up := false, lanes := 0, drop := min (x.drop + _) 0xFFFF }
  rw [hport]
/-- No page homed here is left to the lost peer, in any state. -/
theorem State.ne_of_mem_homePages_portDown {s : State} {k : Nat} {p : Nat × PageState} (h : p ∈ (s.portDown k).homePages) :
    p.1 % 16 ≠ k := by simpa using (List.mem_filter.1 h).2
/-- No page of the lost peer is left to this device. -/
theorem State.ne_of_mem_peerPages_portDown {s : State} {k : Nat} {p : Nat × PageState} (h : p ∈ (s.portDown k).peerPages) :
    portOf (p.1 * 2 ^ 16) ≠ k := by simpa using (List.mem_filter.1 h).2
/-- No request of the lost peer, or for a page of it, is left. -/
theorem State.ne_of_mem_pageReqs_portDown {s : State} {k : Nat} {r : PageReq} (h : r ∈ (s.portDown k).pageReqs) :
    r.port ≠ k ∧ (isPeerPage r.page = true → portOf (r.page * 2 ^ 16) ≠ k) := by
  simpa [imp_iff_not_or] using (List.mem_filter.1 h).2

/-! ### Writing a page back (R120) -/

theorem exec_pageHandoverRequest (port page : Nat) (s : State) :
    exec (.pageHandoverRequest port page) s = execPageHandoverRequest port page s := rfl

/-- Is a store in flight one to a page? -/
def PendStore.onPage (page : Nat) (p : PendStore) : Bool := devPage p.op.range.1 == page
theorem PendStore.SameStore.onPage {p q : PendStore} (h : p.SameStore q) (page : Nat) : p.onPage page = q.onPage page := by
  rw [PendStore.onPage, PendStore.onPage, h.range]

/-- The state once this device has written its lines of a page back, as far as memory lets it, and dropped them. -/
def State.writePageBack (s : State) (page : Nat) : State := (s.flush (PendStore.onPage page)).dropPage page

theorem State.writePageBack_rises (s : State) (page : Nat) : Rises s (s.writePageBack page) :=
  (s.flushTo_rises 4 _).trans (State.dropStale_rises _ _ _ _)
theorem State.writePageBack_sameBytes (s : State) (page : Nat) (h : s.pend = []) : SameBytes s (s.writePageBack page) := fun a => by
  rw [State.writePageBack, State.flush, s.flushTo_idle 4 _ h]
  rfl
/-- Stores to the page that memory does not hold back are performed. -/
theorem State.levelNow_writePageBack (s : State) (page : Nat) (hf : (s.flushed 4 (PendStore.onPage page)).isSome = true) (p : PendStore)
    (hp : p ∈ (s.writePageBack page).pend) (hon : p.onPage page = true) : 4 ≤ (s.writePageBack page).levelNow p.id := by
  obtain ⟨q, hq, hpq⟩ := (State.dropStale_rises _ _ _ _).stores p hp
  rw [State.writePageBack, State.dropPage, State.dropStale_levelNow, ← hpq.id]
  exact s.levelNow_of_flushed 4 _ (fun _ _ h => h.onPage page) hf q hq (hpq.onPage page ▸ hon)
/-- No L1 keeps an older copy of a byte of the page. -/
theorem State.devPage_ne_of_mem_stale_writePageBack {s : State} {page : Nat} {x : Stale} (h : x ∈ (s.writePageBack page).stale) :
    devPage x.loc ≠ page := by
  have hkept := (List.mem_filter.1 h).2
  simp only [Bool.true_and, Bool.not_and, Bool.or_eq_true, Bool.not_eq_true', decide_eq_false_iff_not] at hkept
  simp only [devPage]
  omega

/-- A hand-over of a peer's page, which this device gives up once it has written it back. -/
theorem exec_pageHandoverRequest_gives {s : State} {port page : Nat} (hpage : isPeerPage page = true)
    (hport : portOf (page * 2 ^ 16) = port) (hup : (s.port port).up = true) :
    exec (.pageHandoverRequest port page) s =
      .next { s.writePageBack page with peerPages := sdrop (s.writePageBack page).peerPages page } :=
  congrArg Host.Outcome.next (if_pos ⟨hpage, hport, hup⟩)

/-! ### Requests and grants (R119, R120) -/

theorem exec_peerRequest (port page : Nat) (excl : Bool) (s : State) :
    exec (.peerRequest port page excl) s = .next (
      if port < 12 ∧ page < 2 ^ 23 ∧ (s.port port).up = true then { s with pageReqs := s.pageReqs ++ [⟨port, page, excl, true⟩] }
      else s) := rfl
theorem exec_pageGrant (page : Nat) (s : State) : exec (.pageGrant page) s = execPageGrant page s := rfl

/-- The state in which a request lets its requester hold the page. -/
def PageReq.state (r : PageReq) : PageState := if r.excl then .m else .s
/-- The state once the holders that a request revokes have given the page up and the request is taken. -/
def State.granting (s : State) (r : PageReq) : State :=
  { s with pageReqs := s.pageReqs.erase r, homePages := revoked r s.homePages }

/-- Who else still holds the page shares it, with a request that shares it too (Table 4.7). -/
theorem shared_of_mem_revoked {r : PageReq} {hs : List (Nat × PageState)} {p : Nat × PageState} (h : p ∈ revoked r hs)
    (hpage : p.1 / 16 = r.page) (hport : p.1 % 16 ≠ r.port) : r.excl = false ∧ p.2 ≠ .m := by
  simpa [hpage, hport] using (List.mem_filter.1 h).2
theorem mem_sinsert {α : Type} {m : List (Nat × α)} {k : Nat} {v : α} {x : Nat × α} (h : x ∈ sinsert m k v) : x = (k, v) ∨ x ∈ m := by
  induction m with
  | nil => exact .inl (List.mem_singleton.1 h)
  | cons p r ih =>
    obtain ⟨a, w⟩ := p
    simp only [sinsert] at h
    split_ifs at h
    · exact List.mem_cons.1 h
    · exact (List.mem_cons.1 h).imp_right (List.mem_cons_of_mem _)
    · rcases List.mem_cons.1 h with rfl | hr
      · exact .inr List.mem_cons_self
      · exact (ih hr).imp_right (List.mem_cons_of_mem _)

theorem State.flushed_eq (s : State) (level : Nat) (sel : PendStore → Bool) :
    s.flushed level sel = if (s.flushed level sel).isSome then some (s.flushTo level sel) else none := by
  unfold State.flushed
  extract_lets
  split <;> rfl
/-- Nothing holds a flush back when no store is in flight. -/
theorem State.flushed_idle (s : State) (level : Nat) (sel : PendStore → Bool) (h : s.pend = []) : (s.flushed level sel).isSome = true := by
  simp [State.flushed, h]

/-- A grant without a request for the page has no effect. -/
theorem exec_pageGrant_unasked {s : State} {page : Nat} (h : ∀ r ∈ s.pageReqs, r.page ≠ page) : exec (.pageGrant page) s = .next s := by
  have hnone : s.pageReqs.find? (fun r => r.page == page) = none := by simpa using h
  rw [exec_pageGrant, execPageGrant, hnone]

section
variable {s : State} {page : Nat} {r : PageReq} (hfind : s.pageReqs.find? (fun r => r.page == page) = some r)
include hfind

/-- A peer grants this device one of its pages. -/
theorem exec_pageGrant_peer (hpeer : isPeerPage page = true) :
    exec (.pageGrant page) s =
      .next { s with pageReqs := s.pageReqs.erase r, peerPages := sinsert s.peerPages page r.state } := by
  rw [exec_pageGrant, execPageGrant, hfind]
  exact congrArg Host.Outcome.next (if_pos hpeer)
/-- This device takes back a page of its own. -/
theorem exec_pageGrant_self (hhome : isPeerPage page = false) (hself : r.port = selfPort) :
    exec (.pageGrant page) s = .next (s.granting r) := by
  rw [exec_pageGrant, execPageGrant, hfind]
  exact congrArg Host.Outcome.next ((if_neg (by simp [hhome])).trans (if_pos hself))
/-- A peer gets a page homed here once this device's stores to it are performed, and not before. -/
theorem exec_pageGrant_port (hhome : isPeerPage page = false) (hport : r.port ≠ selfPort) :
    exec (.pageGrant page) s = .next (
      if ((s.granting r).flushed 4 (PendStore.onPage page)).isSome then
        { (s.granting r).writePageBack page with homePages := sinsert (revoked r s.homePages) (16 * page + r.port) r.state }
      else s) := by
  have hpages : ((s.granting r).flushTo 4 (PendStore.onPage page)).homePages = revoked r s.homePages :=
    (congrArg State.homePages ((s.granting r).flushTo_rises 4 _).rest :)
  rw [exec_pageGrant, execPageGrant, hfind, ← hpages]
  refine congrArg Host.Outcome.next ((if_neg (by simp [hhome])).trans ((if_neg hport).trans ?_))
  change (match (s.granting r).flushed 4 (PendStore.onPage page) with
    | none => s
    | some t => { t.dropPage page with homePages := sinsert t.homePages (16 * page + r.port) r.state }) = _
  rw [State.flushed_eq]
  cases ((s.granting r).flushed 4 (PendStore.onPage page)).isSome with
  | false => rfl
  | true => rfl

/-- Whoever keeps a page beside its requester shares it, and the requester asked to share it. -/
theorem shared_of_mem_granted {p : Nat × PageState}
    (hp : p ∈ revoked r s.homePages ∨ p ∈ sinsert (revoked r s.homePages) (16 * page + r.port) r.state)
    (hpage : p.1 / 16 = page) (hother : p.1 % 16 ≠ r.port) (hport : r.port < 16) : r.excl = false ∧ p.2 ≠ .m := by
  have hr : r.page = page := by simpa using List.find?_some hfind
  have hold : p ∈ revoked r s.homePages := by
    refine hp.elim id fun h => (mem_sinsert h).resolve_left fun he => hother ?_
    rw [he]
    omega
  exact shared_of_mem_revoked hold (hpage.trans hr.symm) hother

/-- What the grant of a page homed here to a peer leaves, once memory has let this device write its lines back. -/
theorem pageGrant_port (hhome : isPeerPage page = false) (hport : r.port < 12) :
    ∃ t, exec (.pageGrant page) s = .next t ∧
      (t = s ∨ (t.pageReqs = s.pageReqs.erase r ∧ t.cores = s.cores ∧ t.heldBy page r.port = r.state ∧
        (∀ p ∈ t.homePages, p.1 / 16 = page → p.1 % 16 ≠ r.port → r.excl = false ∧ p.2 ≠ .m) ∧
        (∀ p ∈ t.pend, p.onPage page = true → 4 ≤ t.levelNow p.id) ∧ ∀ x ∈ t.stale, devPage x.loc ≠ page)) ∧
      (s.pend = [] → t.pageReqs = s.pageReqs.erase r ∧ SameBytes s t) := by
  have hother : r.port ≠ selfPort := by simp only [selfPort]; omega
  have hrises := (s.granting r).writePageBack_rises page
  have hreqs : ((s.granting r).writePageBack page).pageReqs = s.pageReqs.erase r := (congrArg State.pageReqs hrises.rest :)
  refine ⟨_, exec_pageGrant_port hfind hhome hother, ?_⟩
  by_cases hf : ((s.granting r).flushed 4 (PendStore.onPage page)).isSome = true
  · rw [if_pos hf]
    refine ⟨.inr ⟨hreqs, hrises.cores, ?_, fun p hp hpage ho => shared_of_mem_granted hfind (.inr hp) hpage ho (by omega),
      (s.granting r).levelNow_writePageBack page hf, fun x => State.devPage_ne_of_mem_stale_writePageBack⟩,
      fun hidle => ⟨hreqs, (s.granting r).writePageBack_sameBytes page hidle⟩⟩
    simp [State.heldBy]
  · rw [if_neg hf]
    exact ⟨.inl rfl, fun hidle => absurd ((s.granting r).flushed_idle 4 _ hidle) hf⟩
end

/-- Settles O51, event by event: a port's events by what they leave of the port, the hand-over and the grant by what writing a page back
leaves. -/
theorem linksAndPages : Obligations.LinksAndPages := by
  unfold Obligations.LinksAndPages
  refine ⟨fun s k h => ?_, fun s k hk hready => ?_, fun s k lanes h => ?_, fun s k lanes hk hen => ?_, fun s k h => ?_,
    fun s k hup => ?_, fun s port page h => ?_, fun s port page hpage hport hup => ?_, fun s port page excl h => ?_,
    fun s port page excl hport hpage hup => ?_, fun s page h => exec_pageGrant_unasked h,
    fun s page r hfind => ⟨fun hpeer => ?_, fun hhome hself => ?_, fun hhome hport => pageGrant_port hfind hhome hport⟩⟩
  · rw [exec_linkTrain, if_neg h]
  · rw [exec_linkTrain, if_pos ⟨hk, hready⟩, s.writeLnkctl_enable]
    exact ⟨_, rfl, rfl, s.port_modPort k _, fun j hj => s.port_modPort_other k j _ hj⟩
  · rw [exec_linkUp, if_neg h]
  · rw [exec_linkUp, if_pos ⟨hk, hen⟩]
    exact ⟨_, rfl, rfl, s.port_modPort k _, fun j hj => s.port_modPort_other k j _ hj⟩
  · rw [exec_linkDown, h]; rfl
  · rw [exec_linkDown, if_pos hup]
    exact ⟨_, rfl, fun _ => rfl, rfl, rfl, s.portDown_port k, fun _ => State.ne_of_mem_homePages_portDown,
      fun _ => State.ne_of_mem_peerPages_portDown, fun _ => State.ne_of_mem_pageReqs_portDown,
      fun page h hk x hlo hhi => s.mem_poison_portDown k page x h hk hlo hhi⟩
  · exact congrArg Host.Outcome.next (if_neg h)
  · refine ⟨_, exec_pageHandoverRequest_gives hpage hport hup, ?_, (s.writePageBack_rises page).cores, s.writePageBack_sameBytes page,
      s.levelNow_writePageBack page, fun x => State.devPage_ne_of_mem_stale_writePageBack⟩
    simp [State.peerPage, sfind_sdrop]
  · rw [exec_peerRequest, if_neg h]
  · rw [exec_peerRequest, if_pos ⟨hport, hpage, hup⟩]
  · refine ⟨_, exec_pageGrant_peer hfind hpeer, rfl, ?_⟩
    simp [State.peerPage, PageReq.state]
  · exact ⟨_, exec_pageGrant_self hfind hhome hself, rfl,
      fun p hp hpage ho => shared_of_mem_granted hfind (.inl hp) hpage ho (by simp [hself, selfPort])⟩

end Sys2Proof.Machine
end

section
/-! PROOFS. Integer elements of the matrix array (O37): each is one sum, of which only the low 32 bits are kept. -/

namespace Sys2Proof.Machine
open Sys2Proof

/-- Adding terms one after another adds their sum. -/
theorem foldl_add_eq_add_sum {α : Type} (f : α → Int) (xs : List α) (c : Int) :
    xs.foldl (fun t x => t + f x) c = c + (xs.map f).sum := by
  induction xs generalizing c with
  | nil => simp
  | cons x r ih => rw [List.foldl_cons, ih, List.map_cons, List.sum_cons, Int.add_assoc]

/-- An element's two's complement reading is that of a word of its width. -/
theorem sext_eq_toInt {n : Nat} (hn : 0 < n) (x : Nat) : sext n x = (BitVec.ofNat n x).toInt := by
  have hpow : 2 ^ n = 2 * 2 ^ (n - 1) := by rw [← pow_succ', Nat.sub_add_cancel hn]
  rw [BitVec.toInt_eq_toNat_cond, BitVec.toNat_ofNat, sext]
  push_cast
  exact if_congr (by omega) rfl rfl

/-- A number of 32 bits read as signed is balanced about 0. -/
theorem toInt_ofNat32 (x : Nat) : (BitVec.ofNat 32 x).toInt = Int.bmod x (2 ^ 32) := BitVec.toInt_ofNat x

/-- The bits of an element lie below the power of its width. -/
theorem elemBits_lt {bits : Nat} (hbits : bits ≠ 64) (cols row col : Nat) (rd : Nat → Nat → Nat → Word) :
    elemBits bits cols row col rd < 2 ^ bits := by
  simp only [elemBits, if_neg hbits]
  exact Nat.mod_lt _ (Nat.two_pow_pos bits)

/-- The value of an element's bits in an integer type of the array (Table 15.6). -/
def mmaInt (signed : Bool) (bits x : Nat) : Int := if signed then (BitVec.ofNat bits x).toInt else (x : Int) % 2 ^ bits

/-- An element of an integer type before it is cut to 32 bits. -/
def mmaIntSum (ty : MmaTy) (signed : Bool) (bits : Nat) (acc : Bool) (n : Nat) (d : List (Nat × Word)) (i j : Nat) : Int :=
  (if acc then (elemBits 32 n i j (readData d 2) : Int) else 0) + ((List.range (mmaK ty)).map fun k =>
    mmaInt signed bits (elemBits bits (mmaK ty) i k (readData d 0)) * mmaInt signed bits (elemBits bits n k j (readData d 1))).sum

section
variable {ty : MmaTy} {signed : Bool} {bits : Nat} (h : (ty, signed, bits) ∈ [(MmaTy.i8, true, 8), (.i4, true, 4), (.n4, false, 4)])
include h

theorem mmaElement_int (acc : Bool) (n : Nat) (d : List (Nat × Word)) (i j : Nat) :
    mmaElement ty acc n d i j = (mmaIntSum ty signed bits acc n d i j % 2 ^ 32).toNat := by
  have hsigned {b : Nat} (hb : 0 < b) : sext b = mmaInt true b := funext fun x => sext_eq_toInt hb x
  have hunsigned (cols row col x : Nat) : ((elemBits 4 cols row col (readData d x) : Nat) : Int) =
      mmaInt false 4 (elemBits 4 cols row col (readData d x)) := by
    have hlt := elemBits_lt (bits := 4) (by decide) cols row col (readData d x)
    rw [mmaInt, if_neg (by decide)]
    omega
  simp only [List.mem_cons, Prod.mk.injEq, List.not_mem_nil, or_false] at h
  rcases h with ⟨rfl, rfl, rfl⟩ | ⟨rfl, rfl, rfl⟩ | ⟨rfl, rfl, rfl⟩
  · simp only [mmaElement, mmaBits, mmaAccBits, hsigned (b := 8) (by decide), foldl_add_eq_add_sum, mmaIntSum]
  · simp only [mmaElement, mmaBits, mmaAccBits, hsigned (b := 4) (by decide), foldl_add_eq_add_sum, mmaIntSum]
  · simp only [mmaElement, mmaBits, mmaAccBits, hunsigned, foldl_add_eq_add_sum, mmaIntSum]

/-- As a signed word, an element is its sum, balanced about 0. -/
theorem toInt_mmaElement_int (acc : Bool) (n : Nat) (d : List (Nat × Word)) (i j : Nat) :
    (BitVec.ofNat 32 (mmaElement ty acc n d i j)).toInt = Int.bmod (mmaIntSum ty signed bits acc n d i j) (2 ^ 32) := by
  rw [mmaElement_int h, toInt_ofNat32, Int.toNat_of_nonneg (Int.emod_nonneg _ (by decide))]
  exact Int.emod_bmod _ (2 ^ 32)
end

/-- Settles O37: the element is the sum in ascending order cut to 32 bits, and a sum has the same value in every order. -/
theorem integerMatrixElements : Obligations.IntegerMatrixElements := by
  unfold Obligations.IntegerMatrixElements
  refine ⟨fun ty signed bits h acc n d i j ks hks => ?_, by decide⟩
  rw [toInt_mmaElement_int h, (hks.map _).sum_eq]
  cases acc with
  | true => simp only [mmaIntSum, mmaInt, if_true, toInt_ofNat32, Int.bmod_add_bmod]
  | false => simp only [mmaIntSum, mmaInt, Bool.false_eq_true, if_false]

end Sys2Proof.Machine
end

section
/-! PROOFS. Exact values and their one rounding (O5): sums and products as rationals, the four rounding modes, and DOT4 and DOT8. -/

namespace Sys2Proof.Machine
open Sys2Proof

/-! ### Sums and products as rationals (R126) -/

theorem minExp_le_start (ts : List FV) (e : Int) : minExp ts e ≤ e := by
  induction ts generalizing e with
  | nil => exact le_rfl
  | cons t r ih =>
    cases t with
    | fin neg m g => exact (ih _).trans (min_le_right g e)
    | nan | inf => exact ih e

/-- No finite term has an exponent below the least. -/
theorem minExp_le_of_mem {ts : List FV} {neg : Bool} {m : Nat} {g : Int} (h : FV.fin neg m g ∈ ts) (e : Int) : minExp ts e ≤ g := by
  induction ts generalizing e with
  | nil => cases h
  | cons t r ih =>
    rcases List.mem_cons.1 h with rfl | hr
    · exact (minExp_le_start r _).trans (min_le_left g e)
    · cases t with
      | fin neg m g => exact ih hr _
      | nan | inf => exact ih hr e

theorem two_zpow_toNat {lo e : Int} (h : lo ≤ e) : (2 : Rat) ^ (e - lo).toNat * 2 ^ lo = 2 ^ e := by
  rw [← zpow_natCast, ← zpow_add₀ two_ne_zero, Int.toNat_of_nonneg (Int.sub_nonneg_of_le h), sub_add_cancel]

/-- A finite value counts its units of 2^lo. -/
theorem FV.scaled_mul_unit (neg : Bool) (m : Nat) {lo e : Int} (h : lo ≤ e) :
    ((FV.fin neg m e).scaled lo : Rat) * 2 ^ lo = (FV.fin neg m e).rat := by
  have hm : (m : Rat) * 2 ^ (e - lo).toNat * 2 ^ lo = m * 2 ^ e := by rw [mul_assoc, two_zpow_toNat h]
  cases neg <;> simp [FV.scaled, FV.rat, hm]

theorem sumScaled_mul_unit {ts : List FV} {lo : Int} (hf : ∀ t ∈ ts, t.finite = true)
    (hlo : ∀ neg m e, FV.fin neg m e ∈ ts → lo ≤ e) : (sumScaled lo ts : Rat) * 2 ^ lo = (ts.map FV.rat).sum := by
  induction ts with
  | nil => simp [sumScaled]
  | cons t r ih =>
    obtain ⟨ht, hr⟩ := List.forall_mem_cons.1 hf
    have hrest := ih hr fun neg m e h => hlo neg m e (List.mem_cons_of_mem _ h)
    cases t with
    | nan | inf => cases ht
    | fin neg m e =>
      rw [sumScaled, Int.cast_add, add_mul, FV.scaled_mul_unit neg m (hlo neg m e List.mem_cons_self), hrest, List.map_cons, List.sum_cons]

theorem FV.rat_ofInt (x e : Int) : (FV.ofInt x e).rat = x * 2 ^ e := by
  rcases lt_or_ge x 0 with h | h
  · simp [FV.ofInt, FV.rat, h, abs_of_neg h]
  · simp [FV.ofInt, FV.rat, not_lt.2 h, abs_of_nonneg h]

/-- The sign of an exact zero sum (R126). -/
def zeroSign (rm : Rm) (ts : List FV) : Bool :=
  if ts.all (FV.isZero true) then true else if ts.all (FV.isZero false) then false else rm == .rdn

/-- A sum of finite terms is the sum of their units, and a zero with its sign without any. -/
theorem sumExact_of_finite (rm : Rm) {ts : List FV} (hf : ∀ t ∈ ts, t.finite = true) :
    sumExact rm ts = if sumScaled (minExp ts 0) ts = 0 then .fin (zeroSign rm ts) 0 0
      else FV.ofInt (sumScaled (minExp ts 0) ts) (minExp ts 0) := by
  have hnan : ts.any FV.isNan = false := by
    rw [List.any_eq_false]
    intro t ht
    cases t with
    | nan => cases hf _ ht
    | inf | fin => exact Bool.false_ne_true
  have hinf (neg : Bool) : ts.any (FV.isInf neg) = false := by
    rw [List.any_eq_false]
    intro t ht
    cases t with
    | inf => cases hf _ ht
    | nan | fin => exact Bool.false_ne_true
  simp only [sumExact, hnan, hinf, Bool.false_and, Bool.or_false, Bool.false_eq_true, if_false, zeroSign]
  split
  · split
    · rfl
    · split <;> rfl
  · rfl

section
variable (rm : Rm) {ts : List FV} (hf : ∀ t ∈ ts, FV.finite t = true)
include hf

theorem sumScaled_minExp : (sumScaled (minExp ts 0) ts : Rat) * 2 ^ minExp ts 0 = (ts.map FV.rat).sum :=
  sumScaled_mul_unit hf fun _ _ _ h => minExp_le_of_mem h 0

theorem sumExact_exact : (sumExact rm ts).finite = true ∧ (sumExact rm ts).rat = (ts.map FV.rat).sum := by
  rw [sumExact_of_finite rm hf, ← sumScaled_minExp hf]
  split
  · next h => exact ⟨rfl, by simp [h, FV.rat]⟩
  · exact ⟨rfl, FV.rat_ofInt _ _⟩

theorem sumExact_isZero (h0 : (ts.map FV.rat).sum = 0) : (sumExact rm ts).isZero (zeroSign rm ts) = true := by
  have hunits : sumScaled (minExp ts 0) ts = 0 := by
    rw [← sumScaled_minExp hf] at h0
    exact_mod_cast (mul_eq_zero.1 h0).resolve_right (zpow_ne_zero _ two_ne_zero)
  rw [sumExact_of_finite rm hf, if_pos hunits]
  simp [FV.isZero]
end

theorem FV.mul_exact {x y : FV} (hx : x.finite = true) (hy : y.finite = true) :
    (x.mul y).finite = true ∧ (x.mul y).rat = x.rat * y.rat := by
  cases x with
  | nan | inf => cases hx
  | fin a m e =>
    cases y with
    | nan | inf => cases hy
    | fin b n g =>
      refine ⟨rfl, ?_⟩
      rw [FV.mul]
      simp only [FV.rat, zpow_add₀ (two_ne_zero (α := Rat)), Nat.cast_mul]
      cases a <;> cases b <;> simp <;> ring

/-! ### Rounding to an integer (R127) -/

/-- What is rounded is a whole part `q` and a rest of `r` in `den`; the mode decides whether the rest counts as one. -/
theorem roundInt_parts (m : Nat) (sh : Int) : ∃ q r den : Nat, r < den ∧ (m : Rat) * 2 ^ sh = q + r / den ∧
    ∀ rm neg, roundInt rm neg m sh false = q + if roundsUp rm neg q r den false then 1 else 0 := by
  rcases le_or_gt 0 sh with h | h
  · refine ⟨m * 2 ^ sh.toNat, 0, 1, one_pos, ?_, fun rm neg => by rw [roundInt, if_pos h]⟩
    rw [← two_zpow_toNat h]
    simp
  · have hden : 0 < 2 ^ (-sh).toNat := Nat.two_pow_pos _
    refine ⟨m / 2 ^ (-sh).toNat, m % 2 ^ (-sh).toNat, 2 ^ (-sh).toNat, Nat.mod_lt _ hden, ?_,
      fun rm neg => by rw [roundInt, if_neg (not_le.2 h)]⟩
    have hunit : (2 : Rat) ^ sh = 1 / (2 ^ (-sh).toNat : Nat) := by
      have := two_zpow_toNat (lo := sh) h.le
      rw [zero_sub, zpow_zero] at this
      rw [eq_div_iff (by positivity), mul_comm]
      exact_mod_cast this
    have hsplit : ((m / 2 ^ (-sh).toNat : Nat) : Rat) * (2 ^ (-sh).toNat : Nat) + (m % 2 ^ (-sh).toNat : Nat) = m := by
      exact_mod_cast Nat.div_add_mod' m _
    rw [hunit, mul_one_div, ← hsplit, add_div, mul_div_cancel_right₀ _ (by positivity)]

/-- Only a rest above zero counts as one. -/
theorem pos_of_roundsUp {rm : Rm} {neg : Bool} {q r den : Nat} (h : r < den) (hup : roundsUp rm neg q r den false = true) : 0 < r := by
  cases rm <;> simp [roundsUp] at hup <;> omega

section
variable (rm : Rm) (neg : Bool) (m : Nat) (sh : Int)

theorem roundInt_near : |(roundInt rm neg m sh false : Rat) - m * 2 ^ sh| < 1 := by
  obtain ⟨q, r, den, hr, hx, hn⟩ := roundInt_parts m sh
  have hlt : (r : Rat) / den < 1 := (div_lt_one (by exact_mod_cast Nat.zero_lt_of_lt hr)).2 (by exact_mod_cast hr)
  rw [hx, hn, abs_lt]
  cases hup : roundsUp rm neg q r den false with
  | false =>
    have hpos : (0 : Rat) ≤ r / den := by positivity
    push_cast
    constructor <;> linarith
  | true =>
    have hr0 := pos_of_roundsUp hr hup
    have hpos : (0 : Rat) < r / den := div_pos (by exact_mod_cast hr0) (by exact_mod_cast Nat.zero_lt_of_lt hr)
    rw [if_pos rfl]
    push_cast
    constructor <;> linarith

/-- RTZ, and the mode directed towards zero from the number's side, do not pass it. -/
theorem roundInt_le (h : rm = .rtz ∨ rm = .rup ∧ neg = true ∨ rm = .rdn ∧ neg = false) :
    (roundInt rm neg m sh false : Rat) ≤ m * 2 ^ sh := by
  obtain ⟨q, r, den, -, hx, hn⟩ := roundInt_parts m sh
  have hup : roundsUp rm neg q r den false = false := by
    rcases h with rfl | ⟨rfl, rfl⟩ | ⟨rfl, rfl⟩ <;> rfl
  have hpos : (0 : Rat) ≤ r / den := by positivity
  rw [hx, hn, hup]
  push_cast
  linarith

/-- The mode directed away from zero on the number's side is not below it. -/
theorem le_roundInt (h : rm = .rup ∧ neg = false ∨ rm = .rdn ∧ neg = true) : (m : Rat) * 2 ^ sh ≤ roundInt rm neg m sh false := by
  obtain ⟨q, r, den, hr, hx, hn⟩ := roundInt_parts m sh
  have hup : roundsUp rm neg q r den false = (r != 0) := by
    rcases h with ⟨rfl, rfl⟩ | ⟨rfl, rfl⟩ <;> simp [roundsUp]
  rw [hx, hn, hup]
  rcases Nat.eq_zero_or_pos r with rfl | hr0
  · simp
  · have hlt : (r : Rat) / den < 1 := (div_lt_one (by exact_mod_cast hr0.trans hr)).2 (by exact_mod_cast hr)
    rw [if_pos (by simpa using hr0.ne')]
    push_cast
    linarith

/-- RNE is within one half, and even at a tie. -/
theorem roundInt_rne : |(roundInt .rne neg m sh false : Rat) - m * 2 ^ sh| ≤ 1 / 2 ∧
    (|(roundInt .rne neg m sh false : Rat) - m * 2 ^ sh| = 1 / 2 → 2 ∣ roundInt .rne neg m sh false) := by
  obtain ⟨q, r, den, hr, hx, hn⟩ := roundInt_parts m sh
  have hden : (0 : Rat) < den := by exact_mod_cast Nat.zero_lt_of_lt hr
  have hpos : (0 : Rat) ≤ r / den := by positivity
  have hlt : (r : Rat) / den < 1 := (div_lt_one hden).2 (by exact_mod_cast hr)
  rw [hx, hn]
  rcases lt_trichotomy (2 * r) den with h | h | h
  · have hhalf : (r : Rat) / den < 1 / 2 := by rw [div_lt_div_iff₀ hden two_pos]; exact_mod_cast by omega
    have hup : roundsUp .rne neg q r den false = false := by simp [roundsUp, h.le, h.ne]
    rw [hup, if_neg Bool.false_ne_true, Nat.add_zero, sub_add_cancel_left, abs_neg, abs_of_nonneg hpos]
    exact ⟨hhalf.le, fun he => absurd he hhalf.ne⟩
  · have hhalf : (r : Rat) / den = 1 / 2 := by rw [div_eq_div_iff hden.ne' two_ne_zero]; exact_mod_cast by omega
    have hup : roundsUp .rne neg q r den false = (q % 2 == 1) := by simp [roundsUp, h]
    have hgap (b : Bool) : |((q + if b then 1 else 0 : Nat) : Rat) - (q + 1 / 2)| = 1 / 2 := by
      cases b <;> norm_num [abs_of_pos, abs_of_neg, add_sub_add_left_eq_sub]
    rw [hup, hhalf, hgap]
    refine ⟨le_rfl, fun _ => ?_⟩
    rcases Nat.mod_two_eq_zero_or_one q with h2 | h2 <;> simp [h2] <;> omega
  · have hhalf : 1 / 2 < (r : Rat) / den := by rw [div_lt_div_iff₀ two_pos hden]; exact_mod_cast by omega
    have hup : roundsUp .rne neg q r den false = true := by simp [roundsUp, h]
    have hgap : |((q + 1 : Nat) : Rat) - (q + r / den)| = 1 - r / den := by
      rw [abs_of_nonneg] <;> push_cast <;> linarith
    rw [hup, if_pos rfl, hgap]
    exact ⟨by linarith, fun he => by linarith⟩
end

/-- A signed number's sign. -/
def signOf (neg : Bool) : Rat := if neg then -1 else 1
theorem abs_signOf_mul (neg : Bool) (x : Rat) : |signOf neg * x| = |x| := by
  cases neg <;> simp [signOf]
theorem FV.rat_fin (neg : Bool) (m : Nat) (e : Int) : (FV.fin neg m e).rat = signOf neg * (m * 2 ^ e) := mul_assoc ..

/-- The rounded number beside the number itself, signs included, in each mode. -/
theorem roundInt_modes (rm : Rm) (neg : Bool) (m : Nat) (sh : Int) :
    let x : Rat := (FV.fin neg m sh).rat
    let n : Rat := signOf neg * (roundInt rm neg m sh false : Nat)
    |n - x| < 1 ∧ (rm = .rtz → |n| ≤ |x|) ∧ (rm = .rup → x ≤ n) ∧ (rm = .rdn → n ≤ x) ∧
      (rm = .rne → |n - x| ≤ 1 / 2 ∧ (|n - x| = 1 / 2 → 2 ∣ roundInt rm neg m sh false)) := by
  intro x n
  have hx : x = signOf neg * (m * 2 ^ sh) := FV.rat_fin neg m sh
  have hdist : |n - x| = |(roundInt rm neg m sh false : Rat) - m * 2 ^ sh| := by rw [hx, ← mul_sub, abs_signOf_mul]
  refine ⟨hdist.trans_lt (roundInt_near rm neg m sh), fun hrm => ?_, fun hrm => ?_, fun hrm => ?_, fun hrm => ?_⟩
  · rw [hx, abs_signOf_mul, abs_signOf_mul, abs_of_nonneg (by positivity), abs_of_nonneg (by positivity)]
    exact roundInt_le rm neg m sh (.inl hrm)
  · cases neg with
    | false => simpa [hx, n, signOf] using le_roundInt rm false m sh (.inl ⟨hrm, rfl⟩)
    | true => simpa [hx, n, signOf] using roundInt_le rm true m sh (.inr (.inl ⟨hrm, rfl⟩))
  · cases neg with
    | false => simpa [hx, n, signOf] using roundInt_le rm false m sh (.inr (.inr ⟨hrm, rfl⟩))
    | true => simpa [hx, n, signOf] using le_roundInt rm true m sh (.inr ⟨hrm, rfl⟩)
  · subst hrm
    obtain ⟨hhalf, htie⟩ := roundInt_rne neg m sh
    exact ⟨hdist.trans_le hhalf, fun h => htie (hdist.symm.trans h)⟩

/-! ### Results of FP32 (R128, R129) -/

theorem f32_overflow_lt (rm : Rm) (neg : Bool) : f32.overflow rm neg < 2 ^ 31 := by
  cases rm <;> cases neg <;> decide

theorem f32_signBit_le (neg : Bool) : f32.signBit neg ≤ 2 ^ 31 := by
  cases neg <;> decide

/-- A rounded value is an encoding of 32 bits. -/
theorem f32_round_lt (rm : Rm) (x : FV) : f32.round rm x < 2 ^ 32 := by
  cases x with
  | nan => exact (by decide : f32.nan < 2 ^ 32)
  | inf neg =>
    have hinf : f32.infBits < 2 ^ 31 := by decide
    have := f32_signBit_le neg
    rw [Fmt.round]
    omega
  | fin neg m e =>
    have hmax : f32.maxBits < 2 ^ 31 := by decide
    have hsign := f32_signBit_le neg
    have hover := f32_overflow_lt rm neg
    simp only [Fmt.round, Fmt.roundMag]
    split
    · omega
    · split <;> omega

theorem f32_write_lt (md : FpMode) (x : FV) : f32.write md x < 2 ^ 32 := by
  have hround := f32_round_lt md.rm x
  have hsign := f32_signBit_le (f32.sign (f32.round md.rm x))
  rw [Fmt.write, Fmt.flush]
  split <;> omega

/-! ### Dot products (R232, R135) -/

/-- Element `k` of `bits` bits of a word. -/
def dotElement (bits : Nat) (x : Word) (k : Nat) : Nat := x.toNat / 2 ^ (bits * k) % 2 ^ bits

/-- The result of a dot product of `n` elements of `bits` bits with the addend `c`. -/
def DotResult (md : FpMode) (fa fb n bits : Nat) (x y c z : Word) : Prop :=
  if (dotInt fa 0).isSome ∧ (dotInt fb 0).isSome then
    (z.toNat : Int) = (c.toInt + ((List.range n).map fun k =>
      (dotInt fa (dotElement bits x k)).getD 0 * (dotInt fb (dotElement bits y k)).getD 0).sum) % 2 ^ 32
  else
    z.toNat = f32.write md (sumExact md.rm (f32.read md c.toNat ::
      (List.range n).map fun k => dotProduct fa fb (dotElement bits x k) (dotElement bits y k)))

theorem dotBits_result (md : FpMode) (fa fb n bits : Nat) (x y c : Word) :
    DotResult md fa fb n bits x y c (dotBits md fa fb n bits x y c) := by
  unfold DotResult dotBits
  split
  · next h =>
    obtain ⟨⟨a, ha⟩, b, hb⟩ := h.imp Option.isSome_iff_exists.1 Option.isSome_iff_exists.1
    simp only [ha, hb, foldl_add_eq_add_sum, BitVec.toNat_ofInt]
    exact Int.toNat_of_nonneg (Int.emod_nonneg _ (by decide))
  · next h =>
    split
    · next ha hb => exact absurd ⟨by rw [ha]; rfl, by rw [hb]; rfl⟩ h
    · rw [BitVec.toNat_ofNat, dotF, Nat.mod_eq_of_lt (f32_write_lt md _)]
      rfl

/-- A dot product word writes each lane's result. -/
theorem dotWord_becomes {s : State} {w v : Warp} {i : Instr} {g : Guard} {n bits : Nat} {d : VReg} {a b : Src}
    (he : exec i s = dotWord i g n bits d a b s) (h : Runs s w v i) :
    WarpBecomes i s fun v' => VectorWrite v v' d.toNat 1 (w.acts s.cur.slices g) fun l =>
      DotResult (modeOf w s.cur.slices) (fmtA (fmtOf w s.cur.slices)) (fmtB (fmtOf w s.cur.slices)) n bits (w.src32 a l) (w.src32 b l)
        (w.vget d.toNat l) (v'.vget d.toNat l) :=
  becomes_of_onWarp he h (vectorWrite_vset _ _ _ _ _ fun _ _ _ hz => hz ▸ dotBits_result ..)

/-- Settles O5: sums and products by their units, the four modes by what each makes of the rest below the whole part, and the dot
products by the two kinds of their element formats. -/
theorem exactRounding : Obligations.ExactRounding := by
  unfold Obligations.ExactRounding
  refine ⟨⟨fun rm ts hf => sumExact_exact rm hf, fun x y hx hy => FV.mul_exact hx hy, fun rm ts hf h0 => sumExact_isZero rm hf h0⟩,
    roundInt_modes, fun p hp s w v g d a b h => ?_⟩
  rcases List.mem_pair.1 hp with rfl | rfl
  · exact dotWord_becomes rfl h
  · exact dotWord_becomes rfl h

end Sys2Proof.Machine
end

section
/-! PROOFS. TOPK (O13): its ranking is an order of keys that insertion sorts by, and its issue puts it last in its core's queue. -/

namespace Sys2Proof.Machine
open Sys2Proof

/-! ### The order of the ranking (R143) -/

/-- The place of a value among the rationals with both infinities. -/
def FV.place : FV → WithBot (WithTop Rat)
  | .nan => ⊥
  | .inf neg => if neg then ⊥ else ⊤
  | .fin neg m e => ((FV.fin neg m e).rat : WithTop Rat)

theorem FV.lt_eq_place {x y : FV} (hx : x.isNan = false) (hy : y.isNan = false) : x.lt y = decide (x.place < y.place) := by
  have hbot (q : Rat) : (⊥ : WithBot (WithTop Rat)) < ((q : WithTop Rat) : WithBot (WithTop Rat)) := WithBot.bot_lt_coe _
  have htop (q : Rat) : ((q : WithTop Rat) : WithBot (WithTop Rat)) < ⊤ := WithBot.coe_lt_coe.2 (WithTop.coe_lt_top q)
  cases x with
  | nan => cases hx
  | inf a =>
    cases y with
    | nan => cases hy
    | inf b => cases a <;> cases b <;> simp [FV.lt, FV.place]
    | fin b n g => cases a <;> simp [FV.lt, FV.place, hbot]
  | fin a m e =>
    cases y with
    | nan => cases hy
    | inf b => cases b <;> simp [FV.lt, FV.place, htop]
    | fin b n g =>
      have hunit : (0 : Rat) < 2 ^ min e g := zpow_pos two_pos _
      refine decide_eq_decide.2 ?_
      rw [FV.place, FV.place, WithBot.coe_lt_coe, WithTop.coe_lt_coe, ← FV.scaled_mul_unit a m (min_le_left e g),
        ← FV.scaled_mul_unit b n (min_le_right e g), mul_lt_mul_iff_left₀ hunit, Int.cast_lt]

/-- An element with its index as the ranking sees it: numbers before NaNs, the larger first, and then the lower index. -/
def rankKey (f : Fmt) (a : Nat × Nat) : Bool ×ₗ (WithBot (WithTop Rat))ᵒᵈ ×ₗ Nat :=
  toLex (f.isNan a.1, toLex (.toDual (f.value a.1).place, a.2))

theorem Fmt.isNan_value (f : Fmt) (x : Nat) : (f.value x).isNan = f.isNan x := by
  rw [Fmt.value]
  split
  · next h => exact h.symm
  · next h =>
    rw [Bool.not_eq_true] at h
    rw [h]
    split
    · rfl
    · split <;> rfl

theorem Fmt.place_of_isNan {f : Fmt} {x : Nat} (h : f.isNan x = true) : (f.value x).place = ⊥ := by
  rw [Fmt.value, if_pos h, FV.place]

theorem ranksBefore_iff_key (f : Fmt) (a b : Nat × Nat) : ranksBefore f a b = true ↔ rankKey f a < rankKey f b := by
  simp only [ranksBefore, rankKey, Prod.Lex.toLex_lt_toLex, OrderDual.toDual_lt_toDual, OrderDual.toDual_inj]
  cases ha : f.isNan a.1 with
  | true =>
    cases hb : f.isNan b.1 with
    | true => simp [Fmt.place_of_isNan ha, Fmt.place_of_isNan hb]
    | false => simp
  | false =>
    cases hb : f.isNan b.1 with
    | true => simp
    | false =>
      have hva := (f.isNan_value a.1).trans ha
      have hvb := (f.isNan_value b.1).trans hb
      rw [FV.lt_eq_place hva hvb, FV.lt_eq_place hvb hva]
      rcases lt_trichotomy (f.value a.1).place (f.value b.1).place with h | h | h
      · simp [h, h.not_gt, h.ne]
      · simp [h]
      · simp [h]

/-- Does an element rank before another, in the words of R143? -/
def Precedes (f : Fmt) (a b : Nat × Nat) : Prop :=
  if f.isNan a.1 then f.isNan b.1 = true ∧ a.2 < b.2
  else f.isNan b.1 = true ∨ (f.value b.1).lt (f.value a.1) = true ∨ ((f.value a.1).lt (f.value b.1) = false ∧ a.2 < b.2)
theorem ranksBefore_iff (f : Fmt) (a b : Nat × Nat) : ranksBefore f a b = true ↔ Precedes f a b := by
  unfold ranksBefore Precedes
  cases f.isNan a.1 <;> cases f.isNan b.1 <;> simp

theorem ranksBefore_trans {f : Fmt} {a b c : Nat × Nat} (h : ranksBefore f a b = true) (g : ranksBefore f b c = true) :
    ranksBefore f a c = true := by
  rw [ranksBefore_iff_key] at *
  exact h.trans g
/-- Of two elements at two places of a row, one ranks before the other. -/
theorem ranksBefore_of_not {f : Fmt} {a b : Nat × Nat} (hne : a.2 ≠ b.2) (h : ¬ranksBefore f a b = true) : ranksBefore f b a = true := by
  rw [ranksBefore_iff_key] at *
  exact lt_of_le_of_ne (not_lt.1 h) fun he => hne (congrArg (fun k => (ofLex (ofLex k).2).2) he).symm

/-! ### The ranked row -/

theorem rankInsert_perm (f : Fmt) (x : Nat × Nat) (l : List (Nat × Nat)) : (rankInsert f x l).Perm (x :: l) := by
  induction l with
  | nil => exact .refl _
  | cons y r ih =>
    rw [rankInsert]
    split
    · exact .refl _
    · exact (ih.cons y).trans (.swap x y r)

theorem rankInsert_pairwise {f : Fmt} {x : Nat × Nat} {l : List (Nat × Nat)} (hl : l.Pairwise (ranksBefore f · ·))
    (hx : ∀ y ∈ l, y.2 ≠ x.2) : (rankInsert f x l).Pairwise (ranksBefore f · ·) := by
  induction l with
  | nil => exact List.pairwise_singleton _ _
  | cons y r ih =>
    obtain ⟨hy, hr⟩ := List.pairwise_cons.1 hl
    obtain ⟨hxy, hxr⟩ := List.forall_mem_cons.1 hx
    rw [rankInsert]
    split
    · next h => exact List.pairwise_cons.2 ⟨List.forall_mem_cons.2 ⟨h, fun z hz => ranksBefore_trans h (hy z hz)⟩, hl⟩
    · next h =>
      refine List.pairwise_cons.2 ⟨fun z hz => ?_, ih hr hxr⟩
      rcases List.mem_cons.1 ((rankInsert_perm f x r).mem_iff.1 hz) with rfl | hz
      · exact ranksBefore_of_not hxy.symm h
      · exact hy z hz

/-- What was cut off before an insertion is cut off after it. -/
theorem take_rankInsert_take (f : Fmt) (x : Nat × Nat) (l : List (Nat × Nat)) (k : Nat) :
    (rankInsert f x (l.take k)).take k = (rankInsert f x l).take k := by
  induction l generalizing k with
  | nil => simp
  | cons y r ih =>
    cases k with
    | zero => rfl
    | succ k =>
      rw [List.take_succ_cons, rankInsert, rankInsert]
      split
      · have hcut : (y :: r.take k).take k = (y :: r).take k := by rw [← List.take_succ_cons, List.take_take, min_eq_left (Nat.le_succ k)]
        rw [List.take_succ_cons, List.take_succ_cons, hcut]
      · rw [List.take_succ_cons, List.take_succ_cons, ih]

/-- Elements inserted into a ranked list, one after another. -/
def rankAll (f : Fmt) (acc xs : List (Nat × Nat)) : List (Nat × Nat) := xs.foldl (fun acc x => rankInsert f x acc) acc

theorem rankRow_eq_take (f : Fmt) (xs : List Nat) (k : Nat) : rankRow f xs k = (rankAll f [] xs.zipIdx).take k := by
  have hcut (ys acc : List (Nat × Nat)) :
      ys.foldl (fun acc x => (rankInsert f x acc).take k) (acc.take k) = (rankAll f acc ys).take k := by
    induction ys generalizing acc with
    | nil => rfl
    | cons y r ih => rw [List.foldl_cons, take_rankInsert_take, ih]; rfl
  rw [rankRow, ← hcut, List.take_nil]

theorem rankAll_perm (f : Fmt) (acc xs : List (Nat × Nat)) : (rankAll f acc xs).Perm (acc ++ xs) := by
  induction xs generalizing acc with
  | nil => simp [rankAll]
  | cons x r ih => exact (ih _).trans (((rankInsert_perm f x acc).append_right r).trans List.perm_middle.symm)

theorem rankAll_pairwise {f : Fmt} {acc xs : List (Nat × Nat)} (hacc : acc.Pairwise (ranksBefore f · ·))
    (hidx : ((acc ++ xs).map (·.2)).Nodup) : (rankAll f acc xs).Pairwise (ranksBefore f · ·) := by
  induction xs generalizing acc with
  | nil => exact hacc
  | cons x r ih =>
    have hperm : (rankInsert f x acc ++ r).Perm (acc ++ x :: r) :=
      ((rankInsert_perm f x acc).append_right r).trans List.perm_middle.symm
    refine ih (rankInsert_pairwise hacc fun y hy he => ?_) ((hperm.map _).nodup_iff.2 hidx)
    rw [List.map_append, List.nodup_append] at hidx
    exact hidx.2.2 _ (List.mem_map_of_mem hy) _ (List.mem_map_of_mem List.mem_cons_self) he

section
variable (f : Fmt) (xs : List Nat)

theorem mem_rankAll {p : Nat × Nat} : p ∈ rankAll f [] xs.zipIdx ↔ xs[p.2]? = some p.1 := by
  rw [(rankAll_perm f [] _).mem_iff, List.nil_append, List.mem_zipIdx_iff_getElem?]

theorem rankAll_row_pairwise : (rankAll f [] xs.zipIdx).Pairwise (ranksBefore f · ·) :=
  rankAll_pairwise .nil (by rw [List.nil_append, show (xs.zipIdx.map (·.2)) = _ from List.zipIdx_map_snd 0 xs]; exact List.nodup_range')

/-- The places of a row: the first `k` of its ranked elements. -/
theorem rankRow_places (k : Nat) : (rankRow f xs k).length = min k xs.length ∧ (∀ p ∈ rankRow f xs k, xs[p.2]? = some p.1) ∧
    (rankRow f xs k).Pairwise (Precedes f) ∧
      ∀ i x, xs[i]? = some x → (x, i) ∉ rankRow f xs k → ∀ p ∈ rankRow f xs k, Precedes f p (x, i) := by
  have hsorted : ((rankAll f [] xs.zipIdx).take k ++ (rankAll f [] xs.zipIdx).drop k).Pairwise (Precedes f) := by
    rw [List.take_append_drop]
    exact (rankAll_row_pairwise f xs).imp (ranksBefore_iff f _ _).1
  obtain ⟨hfirst, -, hrest⟩ := List.pairwise_append.1 hsorted
  rw [rankRow_eq_take]
  refine ⟨?_, fun p hp => (mem_rankAll f xs).1 (List.mem_of_mem_take hp), hfirst, fun i x hx hout p hp => hrest p hp (x, i) ?_⟩
  · rw [List.length_take, (rankAll_perm f [] _).length_eq, List.nil_append, List.length_zipIdx]
  · have hin : (x, i) ∈ rankAll f [] xs.zipIdx := (mem_rankAll f xs).2 hx
    rw [← List.take_append_drop k (rankAll f [] xs.zipIdx)] at hin
    exact (List.mem_append.1 hin).resolve_left hout
end

/-! ### Issue (R237, R238) -/

theorem sinsert_sinsert {α : Type} (m : List (Nat × α)) (k : Nat) (u v : α) : sinsert (sinsert m k u) k v = sinsert m k v := by
  induction m with
  | nil => simp [sinsert]
  | cons c r ih =>
    obtain ⟨a, x⟩ := c
    rw [sinsert, sinsert]
    split
    · simp [sinsert]
    · next hlt =>
      split
      · simp [sinsert]
      · next hne => rw [sinsert, if_neg hlt, if_neg hne, ih]

theorem State.modCore_modCore (s : State) (k : Nat) (f g : Core → Core) : (s.modCore k f).modCore k g = s.modCore k fun c => g (f c) := by
  rw [State.modCore, State.core_modCore]
  exact congrArg (fun cs => { s with cores := cs }) (sinsert_sinsert ..)

/-- Asking for a page changes the requests for pages alone. -/
theorem State.askPage_rest (s : State) (loc : Nat) (wr uc : Bool) :
    ∃ us rs, s.askPage loc wr uc = { s with ucPages := us, pageReqs := rs } := by
  unfold State.askPage
  extract_lets page peer need port used
  have hused : ∃ us, used = { s with ucPages := us } := by
    unfold used
    split
    · exact ⟨_, rfl⟩
    · split
      · exact ⟨_, rfl⟩
      · split
        · exact ⟨_, rfl⟩
        · exact ⟨_, rfl⟩
  obtain ⟨us, hus⟩ := hused
  rw [hus]
  split
  · exact ⟨_, _, rfl⟩
  · exact ⟨_, _, rfl⟩
theorem State.askSpan_rest (s : State) (c va n : Nat) (wr : Bool) :
    ∃ us rs, s.askSpan c va n wr = { s with ucPages := us, pageReqs := rs } := by
  rw [State.askSpan]
  generalize s.pieces c va n = xs
  induction xs generalizing s with
  | nil => exact ⟨_, _, rfl⟩
  | cons x r ih =>
    obtain ⟨us, rs, hx⟩ := s.askPage_rest x.1 wr (x.2.2.treat == 2)
    rw [List.foldl_cons, hx]
    exact ih _
@[simp] theorem State.askSpan_cur (s : State) (c va n : Nat) (wr : Bool) : (s.askSpan c va n wr).cur = s.cur := by
  obtain ⟨us, rs, h⟩ := s.askSpan_rest c va n wr
  rw [h]
@[simp] theorem State.askSpan_live? (s : State) (c va n : Nat) (wr : Bool) : (s.askSpan c va n wr).live? = s.live? := by
  obtain ⟨us, rs, h⟩ := s.askSpan_rest c va n wr
  rw [h]
  rfl

/-- A long-latency word that issues goes in flight. -/
theorem State.addPending_flies {s : State} {v : Warp} (hlive : s.live? = some v) (ds : List Dest) (la : BitVec 4) (lanes : List Nat)
    (op : LandOp) : Flies s (s.addPending ds la.toNat lanes op) ds la lanes op := by
  have hnew : ({ s with nextId := s.nextId + 1 } : State).live? = some v := hlive
  refine ⟨fun _ => ?_, v, _, hlive, State.modLive_of_live _ v _ hnew⟩
  rw [State.byte, State.addPending]
  simp [State.newId, State.byte]

section
variable {f : Core → Core} (hf : ∀ c ws, f { c with warps := ws } = { f c with warps := ws })
include hf

/-- A change of a core that leaves its warps may be made before a warp of it is put back. -/
theorem State.modCore_setWarp (s : State) (k slot : Nat) (w : Warp) :
    (s.setWarp k slot w).modCore k f = (s.modCore k f).setWarp k slot w := by
  have hcomm : (fun c => f { c with warps := sinsert c.warps slot w }) = fun c => { f c with warps := sinsert (f c).warps slot w } := by
    funext c
    have hwarps : (f c).warps = c.warps := by
      have h := congrArg Core.warps (hf c c.warps)
      exact h
    rw [hwarps]
    exact hf c _
  rw [State.setWarp, State.setWarp, State.modCore_modCore, State.modCore_modCore, hcomm]

/-- Nor does it matter that the change comes before a word goes in flight. -/
theorem Flies.modCore {s t : State} {ds : List Dest} {la : BitVec 4} {lanes : List Nat} {op : LandOp} (h : Flies s t ds la lanes op) :
    Flies (s.modCore s.cur.core f) (t.modCore s.cur.core f) ds la lanes op := by
  obtain ⟨hbytes, v, n, hlive, ht⟩ := h
  refine ⟨hbytes, v, n, ?_, ?_⟩
  · have hwarps := congrArg Core.warps (hf (s.core s.cur.core) (s.core s.cur.core).warps)
    rw [← hlive, State.live?, State.warp?, State.modCore_cur, State.core_modCore]
    exact congrArg (sfind · s.cur.slot) hwarps
  · rw [ht]
    exact State.modCore_setWarp hf _ _ _ _
end

/-- A queued TOPK is in flight and last in its core's queue; the first of the queue begins at once. -/
theorem queueTopk_flies {s : State} {v : Warp} (hlive : s.live? = some v) (d : SReg) (la : BitVec 4) (bf : Bool) (n c : Nat)
    (row : List (Nat × Nat)) (val idx : List (Nat × Nat × Bool)) :
    let q := (s.core s.cur.core).topkQ
    Flies (s.modCore s.cur.core fun cr => { cr with topkQ := q ++ [(s.cur.slot, s.nextId)] })
      (queueTopk d la.toNat bf n c row val idx s) [.s d.toNat] la [] (.topk bf n c q.isEmpty row val idx) := by
  intro q
  have hcur : (s.addPending [.s d.toNat] la.toNat [] (.topk bf n c q.isEmpty row val idx)).cur = s.cur := State.modLive_cur ..
  rw [queueTopk, hcur]
  exact (State.addPending_flies hlive _ la _ _).modCore (fun _ _ => rfl)

section
variable {s : State} {w v : Warp} {g : Guard} {bf : Bool} {d a : SReg} {la : BitVec 4} (h : Runs s w v (.topk g bf d a la))
include h

theorem exec_topk_idle (hacts : w.actsOnce s.cur.slices g = false) : exec (.topk g bf d a la) s = .next s := by
  refine (word_runs h _).trans ?_
  rw [hacts]
  rfl

theorem exec_topk_queues (hacts : w.actsOnce s.cur.slices g = true) :
    ∃ t, exec (.topk g bf d a la) s = .next t ∧
      let c := s.ctxNo w
      let x := topkDesc w a
      let sz := if bf then 2 else 4
      let k := min x.k x.n
      let s1 := ((s.askSpan c x.row.toNat (x.n * sz) false).askSpan c x.val.toNat (k * sz) true).askSpan c x.idx.toNat (4 * k) true
      let q := (s1.core s.cur.core).topkQ
      Flies (s1.modCore s.cur.core fun cr => { cr with topkQ := q ++ [(s.cur.slot, s1.nextId)] }) t [.s d.toNat] la []
        (.topk bf x.n k q.isEmpty (s1.runs c x.row.toNat (x.n * sz)) (s1.laxRuns c x.val.toNat (k * sz))
          (s1.laxRuns c x.idx.toNat (4 * k))) := by
  refine ⟨_, word_runs h _, ?_⟩
  rw [hacts, if_pos rfl]
  intro c x sz k s1 q
  have hlive : s1.live? = some v := by simpa [s1] using h.live
  have hcur : s1.cur = s.cur := by simp [s1]
  have hqueued := queueTopk_flies hlive d la bf x.n k (s1.runs c x.row.toNat (x.n * sz)) (s1.laxRuns c x.val.toNat (k * sz))
    (s1.laxRuns c x.idx.toNat (4 * k))
  rw [hcur] at hqueued
  exact hqueued
end

/-! ### The start of a queued TOPK (R238) -/

/-- The pending word `id`, if it is a TOPK, as it stands once its reads have begun. -/
def Pending.started (id : Nat) (p : Pending) : Pending :=
  if p.id = id then
    match p.op with
    | .topk bf n c _ row val idx => { p with op := .topk bf n c true row val idx }
    | _ => p
  else p

theorem exec_topkStart_idle {core : Nat} {s : State} (h : (s.core core).topkQ = []) : exec (.topkStart core) s = .next s := by
  show Host.Outcome.next _ = _
  rw [h]

theorem exec_topkStart_first {core slot id : Nat} {s : State} {r : List (Nat × Nat)} (h : (s.core core).topkQ = (slot, id) :: r) :
    exec (.topkStart core) s = .next (s.modWarp core slot fun w => { w with pending := w.pending.map (Pending.started id) }) := by
  show Host.Outcome.next _ = _
  rw [h]
  rfl

theorem topkStart_begins (core : Nat) (s : State) : ∃ t, exec (.topkStart core) s = .next t ∧ SameBytes s t ∧
    (((s.core core).topkQ = [] → t = s) ∧
      ∀ slot id r w, (s.core core).topkQ = (slot, id) :: r → s.warp? core slot = some w →
        ∃ w', t = s.setWarp core slot w' ∧ w' = { w with pending := w'.pending } ∧
          ∀ p ∈ w.pending, p.id = id → ∀ bf n c st row val idx, p.op = .topk bf n c st row val idx →
            { p with op := .topk bf n c true row val idx } ∈ w'.pending) := by
  cases hq : (s.core core).topkQ with
  | nil => exact ⟨s, exec_topkStart_idle hq, fun _ => rfl, fun _ => rfl, fun _ _ _ _ h => absurd h.symm (List.cons_ne_nil _ _)⟩
  | cons x r =>
    obtain ⟨slot, id⟩ := x
    refine ⟨_, exec_topkStart_first hq, fun a => by rw [State.byte, State.modWarp_mem, State.byte],
      fun h => absurd h (List.cons_ne_nil _ _), ?_⟩
    rintro _ _ _ w ⟨⟩ hw
    refine ⟨{ w with pending := w.pending.map (Pending.started id) }, by rw [State.modWarp, hw], rfl,
      fun p hp hid bf n c st row val idx hop => List.mem_map.2 ⟨p, hp, ?_⟩⟩
    rw [Pending.started, if_pos hid, hop]

/-- Settles O13: the ranking by the order of its keys, the issue by the queue it joins, and the start by the word it finds first. -/
theorem topk : Obligations.Topk := by
  unfold Obligations.Topk
  refine ⟨fun f xs k _ => rankRow_places f xs k, fun s w v g bf d a la h => ?_, topkStart_begins⟩
  cases hacts : w.actsOnce s.cur.slices g with
  | false => exact ⟨s, exec_topk_idle h hacts, rfl⟩
  | true =>
    obtain ⟨t, hexec, hflies⟩ := exec_topk_queues h hacts
    exact ⟨t, hexec, _, rfl, hflies⟩

end Sys2Proof.Machine
end

section
/-! PROOFS. A store in flight that is performed (O15): a reduction takes what stands at its home without the stores of its own number. -/

namespace Sys2Proof.Machine
open Sys2Proof

/-! ### The last rise -/

/-- Nothing holds a store back before its last rise: it is performed. -/
theorem exec_storePerformed_last {s : State} {id : Nat} {p : PendStore} (late : List Nat)
    (hfind : s.pend.find? (fun q => q.id == id) = some p) (hcan : s.canRise p = true) (hlast : p.lastRise = true)
    (hfree : s.riseBlocked p = false) : exec (.storePerformed id late) s = .next (s.performStore p late) := by
  show execStorePerformed id late s = _
  simp [execStorePerformed, hfind, hcan, hfree, State.rise, hlast]

/-- Performing a reduction whose home answers writes its result there. What it finds are the bytes at its home once every store of its
number has left those in flight. -/
theorem State.performStore_red_mem (s : State) (p : PendStore) (late : List Nat) {loc : Nat} {o : AtomOp} {b x : DWord}
    (hop : p.op = .red loc o b) (h : s.reach 0 loc true true ≠ .dead)
    (hx : atomStored o (ofBytes ({ s with pend := s.pend.filter fun q => q.id != p.id }.atHome loc (atomSize o))) b 0 = some x) :
    (s.performStore p late).mem = putBytes s.mem loc (bytesOf (atomSize o) x) := by
  have hlive : ¬(p.op.table.isNone && s.reach 0 p.op.range.1 true true == .dead) = true := by
    simpa [hop, StoreOp.table, StoreOp.range] using h
  have happly : ({ s with pend := s.pend.filter fun q => q.id != p.id }.applyStore p.op).mem =
      putBytes s.mem loc (bytesOf (atomSize o) x) := by
    simp only [hop, State.applyStore, hx, State.write]
  unfold State.performStore
  rw [if_neg hlive]
  show (State.fill _ _ _ _).mem = _
  rw [State.fill_mem, happly]

/-! ### Two stores in flight of one number -/

/-- A reduction of host memory at .sys, which adds 5 at its home. -/
def addFive : PendStore := ⟨7, 0, 0, 3, some .sys, [], false, [], 7, .red devLimit .addI32 5⟩
/-- A store of 1 to the same location, which the whole device sees, under the number of `addFive`. -/
def storeOne : PendStore := ⟨7, 0, 0, 3, none, [], false, [], 7, .bytes devLimit [1]⟩
/-- The device at reset but for these two stores in flight. -/
def sharedNumber : State := { State.reset with pend := [addFive, storeOne] }

theorem sharedNumber_find : sharedNumber.pend.find? (fun q => q.id == 7) = some addFive := by decide
theorem sharedNumber_canRise : sharedNumber.canRise addFive = true := by decide
theorem sharedNumber_riseBlocked : sharedNumber.riseBlocked addFive = false := by decide
theorem sharedNumber_reach : sharedNumber.reach 0 devLimit true true ≠ .dead := by decide

/-- What stands at the home of `addFive` is 1, so its result would be 6. -/
theorem sharedNumber_result : atomStored .addI32 (ofBytes (sharedNumber.atHome devLimit (atomSize .addI32))) 5 0 = some 6 := by decide
/-- It is performed over 0, as `storeOne` is dropped with it. -/
theorem sharedNumber_stored : atomStored .addI32
    (ofBytes ({ sharedNumber with pend := sharedNumber.pend.filter fun q => q.id != addFive.id }.atHome devLimit (atomSize .addI32)))
    5 0 = some 5 := by decide

/-- The lowest byte that the device is left with. -/
theorem sharedNumber_byte : (sharedNumber.performStore addFive []).byte devLimit = 5 := by
  rw [State.byte, State.performStore_red_mem _ _ _ rfl sharedNumber_reach sharedNumber_stored]
  decide

/-- Refutes O15: the clause of a performed reduction does not ask that stores in flight have numbers of their own. `addFive` is performed
where `storeOne` has its number: its home holds 1, the clause asks for 6, and memory takes 5, since performing a store drops all of its
number before the reduction reads. -/
theorem not_accessesLand : ¬ Obligations.AccessesLand := by
  unfold Obligations.AccessesLand
  rintro ⟨-, -, -, hperform⟩
  obtain ⟨t, hexec, -, hbytes, -⟩ := hperform sharedNumber 7 [] addFive devLimit (bytesOf (atomSize .addI32) 6) sharedNumber_find
    (.inr ⟨.addI32, 5, 6, rfl, sharedNumber_result, rfl⟩) sharedNumber_canRise rfl sharedNumber_riseBlocked sharedNumber_reach rfl
  have ht : sharedNumber.performStore addFive [] = t := Host.Outcome.next.inj
    ((exec_storePerformed_last [] sharedNumber_find sharedNumber_canRise rfl sharedNumber_riseBlocked).symm.trans hexec)
  have hsix : t.byte devLimit = 6 := hbytes 0 6 (by decide)
  rw [← ht, sharedNumber_byte] at hsix
  exact absurd hsix (by decide)

end Sys2Proof.Machine
end

section
/-! PROOFS. Integer arithmetic (O1): the values of sums, products and their high halves, and of the lesser and greater, at any width. -/

namespace Sys2Proof.Machine
open Sys2Proof

/-! ### Values modulo the width (R205) -/

/-- The value of an integer cut to `n` bits. -/
theorem natCast_toNat_ofInt {n : Nat} (i : Int) : ((BitVec.ofInt n i).toNat : Int) = i % 2 ^ n := by
  rw [BitVec.toNat_ofInt, Int.toNat_of_nonneg (Int.emod_nonneg _ (by positivity)), Nat.cast_pow, Nat.cast_ofNat]
theorem ofInt_natCast_toNat {n : Nat} (x : BitVec n) : BitVec.ofInt n x.toNat = x := by
  rw [BitVec.ofInt_natCast, BitVec.ofNat_toNat, BitVec.setWidth_eq]
theorem ofInt_sub_eq {n : Nat} (i j : Int) : BitVec.ofInt n (i - j) = BitVec.ofInt n i - BitVec.ofInt n j := by
  rw [Int.sub_eq_add_neg, BitVec.ofInt_add, BitVec.ofInt_neg, BitVec.sub_eq_add_neg]

theorem natCast_toNat_sub {n : Nat} (x y : BitVec n) : ((x - y).toNat : Int) = ((x.toNat : Int) - y.toNat) % 2 ^ n := by
  rw [← natCast_toNat_ofInt, ofInt_sub_eq, ofInt_natCast_toNat, ofInt_natCast_toNat]
theorem natCast_toNat_neg {n : Nat} (x : BitVec n) : ((0 - x).toNat : Int) = (0 - (x.toNat : Int)) % 2 ^ n := by
  rw [natCast_toNat_sub, BitVec.ofNat_eq_ofNat, BitVec.toNat_zero, Nat.cast_zero]
/-- The low bits of a product and of an added one are those of the exact values. -/
theorem toNat_add_mul {n : Nat} (d x y : BitVec n) : (d + x * y).toNat = (d.toNat + x.toNat * y.toNat) % 2 ^ n := by
  rw [BitVec.toNat_add, BitVec.toNat_mul, Nat.add_mod_mod]
theorem natCast_toNat_absW {n : Nat} (x : BitVec n) :
    ((absW n x).toNat : Int) = (if x.toInt < 0 then 0 - x.toInt else x.toInt) % 2 ^ n := by
  have hneg : x.slt 0 = true ↔ x.toInt < 0 := by
    rw [BitVec.slt_iff_toInt_lt, BitVec.ofNat_eq_ofNat, BitVec.toInt_zero]
  rw [← natCast_toNat_ofInt, absW]
  by_cases hx : x.toInt < 0
  · rw [if_pos hx, if_pos (hneg.2 hx), ofInt_sub_eq, BitVec.ofInt_toInt]
    rfl
  · rw [if_neg hx, if_neg (hneg.not.2 hx), BitVec.ofInt_toInt]

/-! ### High halves -/

/-- The high half of a signed product fits its width. -/
theorem toInt_mulHighI {n : Nat} (hn : 2 ≤ n) (x y : BitVec n) : (mulHighI n x y).toInt = x.toInt * y.toInt / 2 ^ n := by
  have hlow : -(2 : Int) ^ (n - 2) * 2 ^ n ≤ x.toInt * y.toInt := by
    have h := BitVec.le_toInt_mul_toInt (x := x) (y := y)
    rwa [show n * 2 - 2 = (n - 2) + n by omega, pow_add, ← neg_mul] at h
  have hhigh : x.toInt * y.toInt ≤ (2 : Int) ^ (n - 2) * 2 ^ n := by
    have h := BitVec.toInt_mul_toInt_le (x := x) (y := y)
    rwa [show n * 2 - 2 = (n - 2) + n by omega, pow_add] at h
  have hpos : (0 : Int) < 2 ^ n := by positivity
  have hhalf : (2 : Int) ^ (n - 1) = 2 * 2 ^ (n - 2) := by rw [← pow_succ', show n - 2 + 1 = n - 1 by omega]
  have hunit : (0 : Int) < 2 ^ (n - 2) := by positivity
  have hge := (Int.le_ediv_iff_mul_le hpos).2 hlow
  have hle := (Int.ediv_le_ediv hpos hhigh).trans_eq (Int.mul_ediv_cancel _ hpos.ne')
  exact BitVec.toInt_ofInt_eq_self (by omega) (by omega) (by omega)
theorem toNat_mulHighN {n : Nat} (x y : BitVec n) : (mulHighN n x y).toNat = x.toNat * y.toNat / 2 ^ n := by
  rw [mulHighN, BitVec.toNat_ofNat, Nat.mod_eq_of_lt]
  exact Nat.div_lt_of_lt_mul (Nat.mul_lt_mul'' x.isLt y.isLt)

/-! ### The lesser and the greater -/

theorem toInt_ite_slt_min {n : Nat} (x y : BitVec n) : (if x.slt y then x else y).toInt = min x.toInt y.toInt := by
  rw [apply_ite BitVec.toInt, if_congr BitVec.slt_iff_toInt_lt rfl rfl, min_def_lt]
theorem toInt_ite_slt_max {n : Nat} (x y : BitVec n) : (if x.slt y then y else x).toInt = max x.toInt y.toInt := by
  rw [apply_ite BitVec.toInt, if_congr BitVec.slt_iff_toInt_lt rfl rfl, max_def_lt]
theorem toNat_ite_ult_min {n : Nat} (x y : BitVec n) : (if x.ult y then x else y).toNat = min x.toNat y.toNat := by
  rw [apply_ite BitVec.toNat, if_congr BitVec.ult_iff_toNat_lt rfl rfl, min_def_lt]
theorem toNat_ite_ult_max {n : Nat} (x y : BitVec n) : (if x.ult y then y else x).toNat = max x.toNat y.toNat := by
  rw [apply_ite BitVec.toNat, if_congr BitVec.ult_iff_toNat_lt rfl rfl, max_def_lt]

/-- Settles O1: each word is one operation on the values of its sources at either width. -/
theorem integerArithmetic : Obligations.IntegerArithmetic := by
  unfold Obligations.IntegerArithmetic
  refine ⟨?add, ?sub, ?neg, ?abs, ?mul, ?mulhI, ?mulhN, ?mad, ?minI, ?maxI, ?minN, ?maxN⟩
  case add => exact twoSources_of_int2 (fun _ _ _ _ _ _ => rfl) fun _ _ x y => BitVec.toNat_add x y
  case sub => exact twoSources_of_int2 (fun _ _ _ _ _ _ => rfl) fun _ _ x y => natCast_toNat_sub x y
  case neg => exact oneSource_of_int1 (fun _ _ _ _ _ => rfl) fun _ _ x => natCast_toNat_neg x
  case abs => exact oneSource_of_int1 (fun _ _ _ _ _ => rfl) fun _ _ x => natCast_toNat_absW x
  case mul => exact twoSources_of_int2 (fun _ _ _ _ _ _ => rfl) fun _ _ x y => BitVec.toNat_mul x y
  case mulhI => exact twoSources_of_int2 (fun _ _ _ _ _ _ => rfl) fun n hn x y => toInt_mulHighI (by omega) x y
  case mulhN => exact twoSources_of_int2 (fun _ _ _ _ _ _ => rfl) fun _ _ x y => toNat_mulHighN x y
  case mad => exact threeSources_of_int3 (fun _ _ _ _ _ _ => rfl) fun _ _ d x y => toNat_add_mul d x y
  case minI => exact twoSources_of_int2 (fun _ _ _ _ _ _ => rfl) fun _ _ x y => toInt_ite_slt_min x y
  case maxI => exact twoSources_of_int2 (fun _ _ _ _ _ _ => rfl) fun _ _ x y => toInt_ite_slt_max x y
  case minN => exact twoSources_of_int2 (fun _ _ _ _ _ _ => rfl) fun _ _ x y => toNat_ite_ult_min x y
  case maxN => exact twoSources_of_int2 (fun _ _ _ _ _ _ => rfl) fun _ _ x y => toNat_ite_ult_max x y

end Sys2Proof.Machine
end

section
/-! PROOFS. Bit words (O2): shifts by a count clamped at the width, rotation, bit counts, and fields clipped at the top bit. -/

namespace Sys2Proof.Machine
open Sys2Proof

/-! ### Shifts and rotation (R209) -/

theorem toNat_shiftL {n : Nat} (x : BitVec n) (c : Nat) : (shiftL x c).toNat = if c < n then x.toNat * 2 ^ c % 2 ^ n else 0 := by
  rw [shiftL, BitVec.toNat_shiftLeft, Nat.shiftLeft_eq]
  split
  · next hc => rw [min_eq_left hc.le]
  · next hc => rw [min_eq_right (not_lt.1 hc), Nat.mul_mod_left]
theorem toNat_shiftR {n : Nat} (x : BitVec n) (c : Nat) : (shiftR x c).toNat = if c < n then x.toNat / 2 ^ c else 0 := by
  rw [shiftR, BitVec.toNat_ushiftRight, Nat.shiftRight_eq_div_pow]
  split
  · next hc => rw [min_eq_left hc.le]
  · next hc => rw [min_eq_right (not_lt.1 hc), Nat.div_eq_of_lt x.isLt]
/-- An arithmetic shift by the whole width leaves the sign. -/
theorem toInt_shiftA {n : Nat} (x : BitVec n) (c : Nat) :
    (shiftA x c).toInt = if c < n then x.toInt / 2 ^ c else if x.toInt < 0 then -1 else 0 := by
  have hlow := x.le_two_mul_toInt
  have hhigh := x.two_mul_toInt_lt
  have hpow (k : Nat) : ((2 ^ k : Nat) : Int) = 2 ^ k := by push_cast; rfl
  rw [shiftA, BitVec.toInt_sshiftRight, Int.shiftRight_eq_div_pow, hpow]
  split
  · next hc => rw [min_eq_left hc.le]
  · next hc =>
    rw [min_eq_right (not_lt.1 hc)]
    split
    · next hneg => exact Int.ediv_eq_neg_one_of_neg_of_le hneg (by omega)
    · next hpos => exact Int.ediv_eq_zero_of_lt (by omega) (by omega)

/-- Bit `j` comes to stand `c` places higher, around the width. -/
theorem getLsbD_rotL {n : Nat} (x : BitVec n) (c : Nat) {j : Nat} (hj : j < n) :
    (rotL x c).getLsbD ((j + c % n) % n) = x.getLsbD j := by
  have hc : c % n < n := Nat.mod_lt _ (by omega)
  rw [rotL, BitVec.getLsbD_rotateLeft_of_le hc]
  rcases lt_or_ge (j + c % n) n with h | h
  · rw [Nat.mod_eq_of_lt h, decide_eq_false (by omega), cond_false, decide_eq_true h, Bool.true_and, Nat.add_sub_cancel]
  · rw [Nat.mod_eq_sub_mod h, Nat.mod_eq_of_lt (by omega), decide_eq_true (by omega), cond_true]
    congr 1
    omega

/-! ### Bit counts (R210) -/

theorem countLead_le {n : Nat} (x : BitVec n) (k : Nat) : countLead x k ≤ k := by
  induction k with
  | zero => exact le_rfl
  | succ k ih => rw [countLead]; split <;> omega
/-- The bits counted from the top are zeros. -/
theorem getLsbD_of_countLead_le {n : Nat} (x : BitVec n) {k j : Nat} (hj : j < k) (h : k - countLead x k ≤ j) :
    x.getLsbD j = false := by
  induction k with
  | zero => omega
  | succ k ih =>
    rw [countLead] at h
    split at h
    · omega
    · next hbit =>
      rcases Nat.lt_succ_iff_lt_or_eq.1 hj with hlt | rfl
      · exact ih hlt (by omega)
      · exact Bool.eq_false_iff.2 hbit
/-- The bit below those counted is a one. -/
theorem getLsbD_countLead {n : Nat} (x : BitVec n) {k : Nat} (h : countLead x k < k) : x.getLsbD (k - 1 - countLead x k) = true := by
  induction k with
  | zero => omega
  | succ k ih =>
    rw [countLead] at h ⊢
    split at h
    · next hbit => rw [if_pos hbit]; exact hbit
    · next hbit =>
      rw [if_neg hbit, show k + 1 - 1 - (1 + countLead x k) = k - 1 - countLead x k by omega]
      exact ih (by omega)
theorem toNat_leadZeros {n : Nat} (x : BitVec n) : (leadZeros x).toNat = countLead x n := by
  rw [leadZeros, BitVec.toNat_ofNat, Nat.mod_eq_of_lt ((countLead_le x n).trans_lt Nat.lt_two_pow_self)]

theorem countOnes_eq_length {n : Nat} (x : BitVec n) (k : Nat) :
    countOnes x k = ((List.range k).filter fun j => x.getLsbD j).length := by
  induction k with
  | zero => rfl
  | succ k ih =>
    rw [countOnes, ih, List.range_succ, List.filter_append, List.length_append, List.filter_singleton]
    cases x.getLsbD k <;> rfl
theorem toNat_onesOf {n : Nat} (x : BitVec n) : (onesOf x).toNat = ((List.range n).filter fun j => x.getLsbD j).length := by
  have hle : countOnes x n ≤ n := by
    rw [countOnes_eq_length]
    exact (List.length_filter_le ..).trans_eq List.length_range
  rw [onesOf, BitVec.toNat_ofNat, Nat.mod_eq_of_lt (hle.trans_lt Nat.lt_two_pow_self), countOnes_eq_length]

/-! ### Bit fields (R210) -/

theorem fieldLen_le {n : Nat} (b : BitVec n) : fieldLen b ≤ n := by
  rw [fieldLen]
  split <;> omega
theorem toNat_bitFieldN {n : Nat} (x b : BitVec n) : (bitFieldN n x b).toNat = x.toNat / 2 ^ fieldPos b % 2 ^ fieldLen b := by
  rw [bitFieldN, BitVec.toNat_ofNat, Nat.mod_eq_of_lt]
  exact ((Nat.mod_le ..).trans (Nat.div_le_self ..)).trans_lt x.isLt
/-- The two's complement reading of `l` bits fits any width from `l` on. -/
theorem toInt_ofInt_sext {n l : Nat} (hl : l ≤ n) (x : Nat) : (BitVec.ofInt n (sext l x)).toInt = sext l x := by
  rcases Nat.eq_zero_or_pos l with rfl | hpos
  · simp [sext, Nat.mod_one]
  · have hpow : (2 : Int) ^ (l - 1) ≤ 2 ^ (n - 1) := pow_le_pow_right₀ (by decide) (by omega)
    have hlow := (BitVec.ofNat l x).le_toInt
    have hhigh := (BitVec.ofNat l x).toInt_lt
    rw [sext_eq_toInt hpos]
    exact BitVec.toInt_ofInt_eq_self (by omega) (by omega) (by omega)
theorem sext_eq_ite (l x : Nat) :
    sext l x = if l = 0 then 0 else
      if ((x % 2 ^ l : Nat) : Int) < 2 ^ (l - 1) then ((x % 2 ^ l : Nat) : Int) else ((x % 2 ^ l : Nat) : Int) - 2 ^ l := by
  rcases Nat.eq_zero_or_pos l with rfl | hpos
  · simp [sext, Nat.mod_one]
  · rw [if_neg hpos.ne', sext]
    refine if_congr ?_ rfl rfl
    rw [← Int.ofNat_lt]
    push_cast
    rfl
/-- The bits of a field of ones at a place. -/
theorem getLsbD_fieldMask {n : Nat} (pos len : Nat) {j : Nat} (hj : j < n) :
    (BitVec.ofNat n ((2 ^ len - 1) * 2 ^ pos)).getLsbD j = decide (pos ≤ j ∧ j < pos + len) := by
  rw [BitVec.getLsbD_ofNat, decide_eq_true hj, Bool.true_and, Nat.testBit_mul_two_pow, Nat.testBit_two_pow_sub_one, Bool.decide_and]
  by_cases h : pos ≤ j
  · rw [decide_eq_true h, Bool.true_and, Bool.true_and, decide_eq_decide]
    omega
  · rw [decide_eq_false h, Bool.false_and, Bool.false_and]
theorem getLsbD_bitFieldInsert {n : Nat} (d x b : BitVec n) {j : Nat} (hj : j < n) : (bitFieldInsert n d x b).getLsbD j =
    if fieldPos b ≤ j ∧ j < fieldPos b + fieldLen b then x.getLsbD (j - fieldPos b) else d.getLsbD j := by
  rw [bitFieldInsert, BitVec.getLsbD_or, BitVec.getLsbD_and, BitVec.getLsbD_and, BitVec.getLsbD_not, getLsbD_fieldMask _ _ hj]
  split
  · next h =>
    rw [decide_eq_true h, Bool.not_true, Bool.and_false, Bool.and_false, Bool.false_or, Bool.and_true, BitVec.getLsbD_ofNat,
      Nat.testBit_mul_two_pow, decide_eq_true hj, decide_eq_true h.1]
    rfl
  · next h => rw [decide_eq_false h, Bool.and_false, Bool.or_false, decide_eq_true hj, Bool.not_false, Bool.and_true, Bool.and_true]

/-- Settles O2: the logical words bit by bit, shifts by what clamping makes of the count, and fields by their place after clipping. -/
theorem bitWords : Obligations.BitWords := by
  unfold Obligations.BitWords
  refine ⟨⟨?and, ?or, ?xor, ?andn, ?not, ?mov⟩, ⟨?shl, ?shr, ?sha, ?rot⟩, ?clz, ?popc, ?brev, ?bfeN, ?bfeI, ?bfi⟩
  case and => exact twoSources_of_int2 (fun _ _ _ _ _ _ => rfl) fun _ _ _ _ _ _ => BitVec.getLsbD_and
  case or => exact twoSources_of_int2 (fun _ _ _ _ _ _ => rfl) fun _ _ _ _ _ _ => BitVec.getLsbD_or
  case xor => exact twoSources_of_int2 (fun _ _ _ _ _ _ => rfl) fun _ _ _ _ _ _ => BitVec.getLsbD_xor
  case andn =>
    refine twoSources_of_int2 (fun _ _ _ _ _ _ => rfl) fun _ _ x y j hj => ?_
    rw [BitVec.getLsbD_and, BitVec.getLsbD_not, decide_eq_true hj, Bool.true_and]
  case not =>
    refine oneSource_of_int1 (fun _ _ _ _ _ => rfl) fun _ _ x j hj => ?_
    rw [BitVec.getLsbD_not, decide_eq_true hj, Bool.true_and]
  case mov => exact oneSource_of_int1 (fun _ _ _ _ _ => rfl) fun _ _ _ => rfl
  case shl => exact twoSources_of_int2 (fun _ _ _ _ _ _ => rfl) fun _ _ x c => toNat_shiftL x c.toNat
  case shr => exact twoSources_of_int2 (fun _ _ _ _ _ _ => rfl) fun _ _ x c => toNat_shiftR x c.toNat
  case sha => exact twoSources_of_int2 (fun _ _ _ _ _ _ => rfl) fun _ _ x c => toInt_shiftA x c.toNat
  case rot => exact twoSources_of_int2 (fun _ _ _ _ _ _ => rfl) fun _ _ x c _ hj => getLsbD_rotL x c.toNat hj
  case clz =>
    refine oneSource_of_int1 (fun _ _ _ _ _ => rfl) fun n _ x => ?_
    rw [toNat_leadZeros]
    exact ⟨countLead_le x n, fun _ => getLsbD_of_countLead_le x, getLsbD_countLead x⟩
  case popc => exact oneSource_of_int1 (fun _ _ _ _ _ => rfl) fun _ _ x => toNat_onesOf x
  case brev =>
    refine oneSource_of_int1 (fun _ _ _ _ _ => rfl) fun n _ x j hj => ?_
    rw [BitVec.getLsbD_reverse, BitVec.getMsbD, decide_eq_true hj, Bool.true_and]
  case bfeN => exact twoSources_of_int2 (fun _ _ _ _ _ _ => rfl) fun _ _ x b => toNat_bitFieldN x b
  case bfeI =>
    exact twoSources_of_int2 (fun _ _ _ _ _ _ => rfl) fun _ _ x b => (toInt_ofInt_sext (fieldLen_le b) _).trans (sext_eq_ite _ _)
  case bfi => exact threeSources_of_int3 (fun _ _ _ _ _ _ => rfl) fun _ _ d x b _ hj => getLsbD_bitFieldInsert d x b hj

end Sys2Proof.Machine
end

section
/-! PROOFS. Comparisons, selections, immediates and indices (O3): what a word that writes one register or pair leaves, and the values. -/

namespace Sys2Proof.Machine
open Sys2Proof

/-! ### Words that write a register or a pair -/

@[simp] theorem loWord_atWidth1 (f : (n : Nat) → BitVec n → BitVec n) (x : DWord) : loWord (atWidth1 .w32 f x) = f 32 (loWord x) :=
  loWord_zeroExtend _
/-- A 32-bit word of one source and an immediate. -/
theorem writesWord_of_int1 {i : Instr} {g : Guard} {d : VReg} {a : Src} {R : State → Warp → Nat → Word → Prop}
    {f : (n : Nat) → BitVec n → BitVec n} (he : ∀ s, exec i s = int1 i g .w32 d a f s)
    (hR : ∀ s w l, R s w l (f 32 (w.src32 a l))) : WritesWord i g d R :=
  writesWord_of_lane he fun s w l => by
    rw [loWord_atWidth1, Warp.loWord_srcW]
    exact hR s w l

section
variable {s : State} {w v : Warp} {i : Instr} {g : Guard} {d : VReg} {f : Warp → Nat → DWord}

/-- A word of 32 bits leaves its value in each lane in which it acts. -/
theorem laneWord_becomes_word (he : exec i s = laneWord i g .w32 d s f) (h : Runs s w v i) {P : Warp → Nat → Prop}
    (hP : ∀ v' l, w.acts s.cur.slices g l = true → Warp.vget v' d.toNat l = loWord (f w l) → P v' l) :
    WarpBecomes i s fun v' => VectorWrite v v' d.toNat 1 (w.acts s.cur.slices g) (P v') :=
  becomes_of_onWarp he h (vectorWrite_vset _ _ _ _ _ fun l _ => hP _ l)
/-- A word of 64 bits leaves its value in the pair of each lane in which it acts. -/
theorem laneWord_becomes_pair (he : exec i s = laneWord i g .w64 d s f) (h : Runs s w v i) {P : Warp → Nat → Prop}
    (hP : ∀ v' l, w.acts s.cur.slices g l = true → Warp.vpair v' d.toNat l = f w l → P v' l) :
    WarpBecomes i s fun v' => VectorWrite v v' d.toNat 2 (w.acts s.cur.slices g) (P v') :=
  becomes_of_onWarp he h (vectorWrite_vsetW _ .w64 _ _ _ _ fun l _ => hP _ l)
end

/-- A write of a predicate with a function that has the same values. -/
theorem predResult_pset_congr (v : Warp) (p : PReg) {f f' : Nat → Bool} (on : Nat → Bool) (hf : ∀ l, f l = f' l) :
    PredResult v (v.pset p f on) p on f' := by
  cases (funext hf : f = f')
  exact predResult_pset ..
/-- A word that writes bits of a predicate leaves there what its comparison comes to. -/
theorem predWord_becomes {s : State} {w v : Warp} {i : Instr} {g : Guard} {p : PReg} {f : Warp → Nat → Bool} {f' : Nat → Bool}
    (he : exec i s = predWord i g p s f) (h : Runs s w v i) (hf : ∀ l, f w l = f' l) : WarpBecomes i s fun v' =>
      PredResult v v' p (w.acts s.cur.slices g) f' :=
  becomes_of_onWarp he h (predResult_pset_congr _ _ _ hf)

/-! ### Comparisons and selections (R206, R207) -/

/-- "Less" of two integers, unsigned or signed as encoded. -/
def intLess {n : Nat} (un : Bool) (x y : BitVec n) : Bool := if un then x.ult y else x.slt y
theorem intLess_eq_decide {n : Nat} (un : Bool) (x y : BitVec n) : intLess un x y =
    decide ((if un then (x.toNat : Int) else x.toInt) < if un then (y.toNat : Int) else y.toInt) := by
  cases un
  · rfl
  · exact decide_eq_decide.2 Int.ofNat_lt.symm
/-- "At most" is that the other is not less. -/
theorem not_intLess_eq_decide {n : Nat} (un : Bool) (x y : BitVec n) : (!intLess un y x) =
    decide ((if un then (x.toNat : Int) else x.toInt) ≤ if un then (y.toNat : Int) else y.toInt) := by
  rw [intLess_eq_decide, ← decide_not]
  exact decide_eq_decide.2 not_lt
theorem intCompares_eq {n : Nat} (c : ICond) (un : Bool) (x y : BitVec n) : intCompares c un x y =
    match c with
    | .eq => x == y
    | .ne => !(x == y)
    | .lt => intLess un x y
    | .le => !intLess un y x
    | .gt => intLess un y x
    | .ge => !intLess un x y := by
  cases c
  case eq => rfl
  case ne => rfl
  case lt => exact (intLess_eq_decide un x y).symm
  case le => exact (not_intLess_eq_decide un x y).symm
  case gt => exact (intLess_eq_decide un y x).symm
  case ge => exact (not_intLess_eq_decide un y x).symm
/-- SETP compares the low words of its sources. -/
theorem icond_word (c : ICond) (un : Bool) (x y : DWord) : icond c un .w32 x y = intCompares c un (loWord x) (loWord y) := by
  rw [intCompares_eq]
  cases un <;> cases c <;> rfl
theorem icond_pair (c : ICond) (un : Bool) (x y : DWord) : icond c un .w64 x y = intCompares c un x y := by
  rw [intCompares_eq]
  cases un <;> cases c <;> rfl
/-- One of two sources is the source that is selected. -/
theorem Warp.ite_srcW (w : Warp) (wd : Width) (c : Bool) (a b : Src) (l : Nat) :
    (if c then w.srcW wd a l else w.srcW wd b l) = w.srcW wd (if c then a else b) l := by cases c <;> rfl

/-! ### Immediates and the scaled address (R211 to R214) -/

theorem ofInt_toInt_signExtend {k n : Nat} (x : BitVec k) : BitVec.ofInt n x.toInt = x.signExtend n := rfl
theorem natCast_toNat_add_signExtend {k n : Nat} (x : BitVec n) (y : BitVec k) :
    ((x + y.signExtend n).toNat : Int) = ((x.toNat : Int) + y.toInt) % 2 ^ n := by
  rw [← natCast_toNat_ofInt, BitVec.ofInt_add, ofInt_natCast_toNat, ofInt_toInt_signExtend]
/-- A signed index is scaled before it is added. -/
theorem natCast_toNat_add_scaled {k n : Nat} (x : BitVec n) (y : BitVec k) (sh : Nat) :
    ((x + y.signExtend n <<< sh).toNat : Int) = ((x.toNat : Int) + y.toInt * 2 ^ sh) % 2 ^ n := by
  have hpow : BitVec.ofInt n (2 ^ sh) = BitVec.twoPow n sh := by
    rw [← BitVec.toNat_inj, BitVec.toNat_twoPow, ← Nat.cast_ofNat, ← Nat.cast_pow, BitVec.ofInt_natCast, BitVec.toNat_ofNat]
  rw [← natCast_toNat_ofInt, BitVec.ofInt_add, BitVec.ofInt_mul, ofInt_natCast_toNat, ofInt_toInt_signExtend, hpow,
    BitVec.shiftLeft_eq_mul_twoPow]
/-- The bits of a byte that is extended by its sign. -/
theorem getLsbD_signExtend_byte {n : Nat} (x : BitVec 8) {j : Nat} (hj : j < n) : (x.signExtend n).getLsbD j = x.getLsbD (min j 7) := by
  rw [BitVec.getLsbD_signExtend, decide_eq_true hj, Bool.true_and]
  split
  · next h => rw [min_eq_left (by omega)]
  · next h => rw [min_eq_right (by omega), BitVec.msb_eq_getLsbD_last]
/-- MOVHI keeps the low 15 bits of its destination (R213). -/
theorem toNat_movhi (imm : BitVec 17) (x : Word) :
    (((imm.zeroExtend 32) <<< 15) ||| (x &&& 0x7FFF)).toNat = imm.toNat * 2 ^ 15 + x.toNat % 2 ^ 15 := by
  have himm := imm.isLt
  have hlow : (x &&& 0x7FFF).toNat = x.toNat % 2 ^ 15 := (BitVec.toNat_and ..).trans (Nat.and_two_pow_sub_one_eq_mod _ 15)
  have hhigh : (imm.zeroExtend 32 <<< 15).toNat = imm.toNat <<< 15 := by
    rw [BitVec.toNat_shiftLeft, BitVec.zeroExtend, BitVec.toNat_setWidth, Nat.shiftLeft_eq, Nat.mod_eq_of_lt (by omega),
      Nat.mod_eq_of_lt (by omega), Nat.shiftLeft_eq]
  rw [BitVec.toNat_or, hlow, hhigh, ← Nat.shiftLeft_add_eq_or_of_lt (Nat.mod_lt _ (by decide)), Nat.shiftLeft_eq]

/-! ### Indices of a lane (R215) -/

theorem idxValue_eq_laneIndex (s : State) (w : Warp) (e : IdxSel) (l : Nat) : idxValue s w e l = laneIndex s w l e := by
  cases e
  case team => simp only [idxValue, laneIndex]; cases s.team? w.team <;> rfl
  case nteams => simp only [idxValue, laneIndex]; cases s.grid? w.grid <;> rfl
  case nwarps => simp only [idxValue, laneIndex, State.teamSize]; cases s.grid? w.grid <;> rfl
  all_goals rfl
theorem toNat_loWord (x : DWord) : (loWord x).toNat = x.toNat % 2 ^ 32 := by
  rw [loWord, BitVec.extractLsb'_toNat, Nat.shiftRight_zero]

/-- Settles O3: SETP by its two widths, the immediate forms as words of one source, and SEL and LEA by the lane's value at each width. -/
theorem compareSelectAndAddress : Obligations.CompareSelectAndAddress := by
  unfold Obligations.CompareSelectAndAddress
  refine ⟨⟨?setp, ?sel⟩, ?addi, ?andi, ?ori, ?xori, ?shli, ?shri, ?shai, ?movi, ?movhi, ?lea, ?idx⟩
  case setp =>
    intro g c un wd p a b s w v h
    cases wd with
    | w32 =>
      refine predWord_becomes rfl h fun l => ?_
      rw [icond_word, Warp.loWord_srcW, Warp.loWord_srcW]
    | w64 => exact predWord_becomes rfl h fun l => icond_pair ..
  case sel =>
    intro s w v g wd d a b p h
    cases wd with
    | w32 => exact laneWord_becomes_word rfl h fun v' l _ hz => by rw [hz, Warp.ite_srcW, Warp.loWord_srcW]
    | w64 => exact laneWord_becomes_pair rfl h fun v' l _ hz => hz.trans (Warp.ite_srcW ..)
  case addi => exact fun g d a imm => writesWord_of_int1 (fun _ => rfl) fun _ _ _ => natCast_toNat_add_signExtend ..
  case andi =>
    refine fun g d a imm => writesWord_of_int1 (fun _ => rfl) fun _ _ _ j hj => ?_
    rw [BitVec.getLsbD_and, getLsbD_signExtend_byte _ hj]
  case ori =>
    refine fun g d a imm => writesWord_of_int1 (fun _ => rfl) fun _ _ _ j hj => ?_
    rw [BitVec.getLsbD_or, getLsbD_signExtend_byte _ hj]
  case xori =>
    refine fun g d a imm => writesWord_of_int1 (fun _ => rfl) fun _ _ _ j hj => ?_
    rw [BitVec.getLsbD_xor, getLsbD_signExtend_byte _ hj]
  case shli => exact fun c => oneSource_of_int1 (fun _ _ _ _ _ => rfl) fun _ _ x => toNat_shiftL x c.toNat
  case shri => exact fun c => oneSource_of_int1 (fun _ _ _ _ _ => rfl) fun _ _ x => toNat_shiftR x c.toNat
  case shai => exact fun c => oneSource_of_int1 (fun _ _ _ _ _ => rfl) fun _ _ x => toInt_shiftA x c.toNat
  case movi =>
    refine fun g d imm => writesWord_of_lane (fun _ => rfl) fun _ _ _ => ?_
    rw [loWord_zeroExtend, BitVec.toInt_signExtend_of_le (by decide)]
  case movhi =>
    refine fun g d imm => writesWord_of_lane (fun _ => rfl) fun _ _ _ => ?_
    rw [loWord_zeroExtend, toNat_movhi]
  case lea =>
    intro s w v g wd d a b sh h
    cases wd with
    | w32 =>
      refine laneWord_becomes_word rfl h fun v' l _ hz => ?_
      rw [hz, loWord_atWidth1, Warp.loWord_srcW, natCast_toNat_add_scaled]
    | w64 =>
      refine laneWord_becomes_pair rfl h fun v' l _ hz => ?_
      rw [hz]
      exact natCast_toNat_add_scaled ..
  case idx =>
    refine fun g d e => writesWord_of_lane (fun _ => rfl) fun s w l => ?_
    rw [toNat_loWord, BitVec.toNat_ofNat, idxValue_eq_laneIndex]
    omega

end Sys2Proof.Machine
end

section
/-! PROOFS. Scalar words (O9): the operations at 64 bits, and SSETP, which writes the predicate's bits of the whole gang. -/

namespace Sys2Proof.Machine
open Sys2Proof

/-- SLEA adds its source times a power of two (R217). -/
theorem toNat_add_shiftLeft {n : Nat} (x y : BitVec n) (sh : Nat) : (x + y <<< sh).toNat = (x.toNat + y.toNat * 2 ^ sh) % 2 ^ n := by
  rw [BitVec.toNat_add, BitVec.toNat_shiftLeft, Nat.shiftLeft_eq, Nat.add_mod_mod]

/-- SSETP compares with its immediate extended by its sign (R217). -/
theorem scond_signExtend (c : SCond) (x : DWord) (imm : BitVec 5) : scond c x (imm.signExtend 64) =
    match c with
    | .eq => decide (x.toInt = imm.toInt)
    | .ne => decide (x.toInt ≠ imm.toInt)
    | .lt => decide (x.toInt < imm.toInt)
    | .le => decide (x.toInt ≤ imm.toInt)
    | .gt => decide (imm.toInt < x.toInt)
    | .ge => decide (imm.toInt ≤ x.toInt)
    | .ltu => decide ((x.toNat : Int) < imm.toInt % 2 ^ 64)
    | .geu => decide (imm.toInt % 2 ^ 64 ≤ (x.toNat : Int)) := by
  have hint : (imm.signExtend 64).toInt = imm.toInt := BitVec.toInt_signExtend_of_le (by decide)
  have hnat : ((imm.signExtend 64).toNat : Int) = imm.toInt % 2 ^ 64 := natCast_toNat_ofInt _
  have heq : (x == imm.signExtend 64) = decide (x.toInt = imm.toInt) := by
    rw [← hint, beq_eq_decide]
    exact decide_eq_decide.2 BitVec.toInt_inj.symm
  cases c
  case eq => exact heq
  case ne => exact (congrArg (!·) heq).trans decide_not.symm
  case lt => rw [← hint]; rfl
  case le => rw [← hint]; rfl
  case gt => rw [← hint]; rfl
  case ge => rw [← hint]; rfl
  case ltu => rw [← hnat]; exact decide_eq_decide.2 Int.ofNat_lt.symm
  case geu => rw [← hnat]; exact decide_eq_decide.2 Int.ofNat_le.symm

/-- A word that executes once and writes a predicate in lanes of its gang. -/
theorem predResult_once (v : Warp) (p : PReg) {f f' : Nat → Bool} (on : Nat → Bool) (once : Bool) (hf : ∀ l, f l = f' l) :
    PredResult v (if once then v.pset p f on else v) p (fun l => once && on l) f' := by
  cases once
  case false => exact ⟨rfl, fun _ _ ho => absurd ho Bool.false_ne_true, fun _ _ _ => rfl, fun _ _ _ _ => rfl⟩
  case true => exact predResult_pset_congr _ _ _ hf

/-- Settles O9: each word is one operation on scalar values, and SSETP's comparison is that with the extended immediate. -/
theorem scalarWords : Obligations.ScalarWords := by
  unfold Obligations.ScalarWords
  refine ⟨⟨?sadd, ?ssub, ?smul, ?sand, ?sor, ?sxor, ?sshl, ?sshr⟩, ?saddi, ?smovi, ?slea, ?ssetp⟩
  case sadd => exact fun _ _ _ _ => writesScalar_of_scalar (fun _ => rfl) fun _ _ => BitVec.toNat_add ..
  case ssub => exact fun _ _ _ _ => writesScalar_of_scalar (fun _ => rfl) fun _ _ => natCast_toNat_sub ..
  case smul => exact fun _ _ _ _ => writesScalar_of_scalar (fun _ => rfl) fun _ _ => BitVec.toNat_mul ..
  case sand => exact fun _ _ _ _ => writesScalar_of_scalar (fun _ => rfl) fun _ _ _ _ => BitVec.getLsbD_and
  case sor => exact fun _ _ _ _ => writesScalar_of_scalar (fun _ => rfl) fun _ _ _ _ => BitVec.getLsbD_or
  case sxor => exact fun _ _ _ _ => writesScalar_of_scalar (fun _ => rfl) fun _ _ _ _ => BitVec.getLsbD_xor
  case sshl => exact fun _ _ _ _ => writesScalar_of_scalar (fun _ => rfl) fun _ _ => toNat_shiftL ..
  case sshr =>
    intro g ar d a b
    cases ar
    case false => exact writesScalar_of_scalar (fun _ => rfl) fun _ _ => toNat_shiftR ..
    case true => exact writesScalar_of_scalar (fun _ => rfl) fun _ _ => toInt_shiftA ..
  case saddi => exact fun _ _ _ _ => writesScalar_of_scalar (fun _ => rfl) fun _ _ => natCast_toNat_add_signExtend ..
  case smovi => exact fun _ _ _ => writesScalar_of_scalar (fun _ => rfl) fun _ _ => BitVec.toInt_signExtend_of_le (by decide)
  case slea => exact fun _ _ _ _ => writesScalar_of_scalar (fun _ => rfl) fun _ _ => toNat_add_shiftLeft ..
  case ssetp =>
    intro s w v g c p a imm h
    exact becomes_of_onWarp (show execSsetp g c p a imm s = _ from rfl) h
      (predResult_once _ _ _ _ fun _ => scond_signExtend ..)

end Sys2Proof.Machine
end

section
/-! PROOFS. Lane words (O10): transfers between lanes, votes, and reductions, each of which is a fold over the contributing lanes. -/

namespace Sys2Proof.Machine
open Sys2Proof

/-! ### Values from other lanes (R266, R267) -/

/-- Counting down around `n` lanes. -/
theorem add_sub_mod_eq_emod {n l : Nat} (hl : l < n) (k : Nat) : (l + (n - k % n)) % n = (((l : Int) - k) % n).toNat := by
  have hk : k % n ≤ n := (Nat.mod_lt k (by omega)).le
  have hcast : (((l + (n - k % n)) % n : Nat) : Int) = ((l : Int) - k) % n := by
    rw [Int.natCast_emod, Int.natCast_add, Int.natCast_sub hk, Int.natCast_emod, ← Int.add_sub_assoc, Int.sub_emod, Int.emod_emod,
      Int.add_emod_right, ← Int.sub_emod]
  rw [← hcast, Int.toNat_natCast]
/-- The source lane of SHFL in a lane of the warp (R266). -/
theorem shflLane_eq {n l : Nat} (hl : l < n) (m : ShMode) (k : Nat) : shflLane m n l k =
    match m with
    | .idx => k % n
    | .up => (((l : Int) - k) % n).toNat
    | .down => (l + k) % n
    | .xor => (l ^^^ k) % n := by
  cases m
  case up => exact add_sub_mod_eq_emod hl k
  all_goals rfl
theorem Warp.lt_width_of_acts {w : Warp} {m : BitVec 16} {g : Guard} {l : Nat} (h : w.acts m g l = true) : l < w.width := by
  simp only [Warp.acts, Warp.inGang, Bool.and_eq_true, decide_eq_true_eq] at h
  obtain ⟨⟨⟨hl, -⟩, -⟩, -⟩ := h
  exact hl

/-- A lane of COMPRESS has a source when there are more set lanes (R267). -/
theorem isSome_rankedLane (w : Warp) (p : PReg) (l : Nat) :
    (rankedLane w p l).isSome = decide (l < ((List.range w.width).filter (w.pred p)).length) := by
  rw [rankedLane, Bool.eq_iff_iff, decide_eq_true_iff, Option.isSome_iff_ne_none, Ne, List.getElem?_eq_none_iff, not_le]

/-! ### Votes (R269) -/

theorem Warp.any_actLanes (w : Warp) (m : BitVec 16) (g : Guard) (q : Nat → Bool) :
    (w.actLanes m g).any q = decide (∃ l < w.width, w.acts m g l = true ∧ q l = true) := by
  rw [Bool.eq_iff_iff, decide_eq_true_iff, List.any_eq_true]
  simp only [Warp.actLanes, List.mem_filter, List.mem_range, and_assoc]
theorem Warp.all_actLanes (w : Warp) (m : BitVec 16) (g : Guard) (q : Nat → Bool) :
    (w.actLanes m g).all q = decide (∀ l < w.width, w.acts m g l = true → q l = true) := by
  rw [Bool.eq_iff_iff, decide_eq_true_iff, List.all_eq_true]
  simp only [Warp.actLanes, List.mem_filter, List.mem_range, and_imp]

/-- Setting the bits of a list leaves a bit set when it was or when its number is in the list. -/
theorem getLsbD_foldl_setBits {n : Nat} (ls : List Nat) (x : BitVec n) {l : Nat} (hl : l < n) :
    (ls.foldl (fun m i => m ||| BitVec.ofNat n (2 ^ i)) x).getLsbD l = (x.getLsbD l || decide (l ∈ ls)) := by
  induction ls generalizing x with
  | nil => rw [List.foldl_nil, decide_eq_false List.not_mem_nil, Bool.or_false]
  | cons i r ih =>
    have hbit : (BitVec.ofNat n (2 ^ i)).getLsbD l = decide (l = i) := by
      rw [BitVec.getLsbD_ofNat, Nat.testBit_two_pow, decide_eq_true hl, Bool.true_and, decide_eq_decide]
      exact eq_comm
    rw [List.foldl_cons, ih, BitVec.getLsbD_or, hbit, Bool.or_assoc, ← Bool.decide_or]
    simp only [List.mem_cons]
theorem getLsbD_laneMask (ls : List Nat) {l : Nat} (hl : l < 64) : (laneMask ls).getLsbD l = decide (l ∈ ls) := by
  rw [laneMask, getLsbD_foldl_setBits ls _ hl, BitVec.ofNat_eq_ofNat, BitVec.getLsbD_zero, Bool.false_or]
/-- A ballot has the bits of the contributing lanes whose predicate is set. -/
theorem getLsbD_ballot (w : Warp) (m : BitVec 16) (g : Guard) (q : Nat → Bool) {l : Nat} (hl : l < 64) :
    (laneMask ((w.actLanes m g).filter q)).getLsbD l = (w.acts m g l && q l) := by
  rw [getLsbD_laneMask _ hl, Bool.eq_iff_iff, decide_eq_true_iff, List.mem_filter, Warp.actLanes, List.mem_filter, List.mem_range,
    Bool.and_eq_true]
  exact and_congr_left' (and_iff_right_of_imp Warp.lt_width_of_acts)

/-! ### Reductions (R270) -/

/-- A reading of words that takes one operation to another takes a reduction to the other's. -/
theorem map_reduction {α : Type} (φ : Word → α) {f : Word → Word → Word} {f' : α → α → α}
    (hf : ∀ x y, φ (f x y) = f' (φ x) (φ y)) (one : Word) (xs : List Word) : φ (xs.foldl f one) = (xs.map φ).foldl f' (φ one) := by
  rw [List.foldl_map]
  exact (List.foldl_hom φ fun x y => (hf x y).symm).symm
theorem toNat_foldl_add (xs : List Word) (one : Word) :
    (xs.foldl (· + ·) one).toNat = (one.toNat + (xs.map BitVec.toNat).sum) % 2 ^ 32 := by
  induction xs generalizing one with
  | nil => exact (Nat.mod_eq_of_lt one.isLt).symm
  | cons x r ih => rw [List.foldl_cons, ih, BitVec.toNat_add, Nat.mod_add_mod, List.map_cons, List.sum_cons, Nat.add_assoc]
theorem getLsbD_foldl_and (xs : List Word) (one : Word) (j : Nat) :
    (xs.foldl (· &&& ·) one).getLsbD j = (one.getLsbD j && xs.all fun x => x.getLsbD j) := by
  induction xs generalizing one with
  | nil => exact (Bool.and_true _).symm
  | cons x r ih => rw [List.foldl_cons, ih, BitVec.getLsbD_and, Bool.and_assoc, List.all_cons]
theorem getLsbD_foldl_or (xs : List Word) (one : Word) (j : Nat) :
    (xs.foldl (· ||| ·) one).getLsbD j = (one.getLsbD j || xs.any fun x => x.getLsbD j) := by
  induction xs generalizing one with
  | nil => exact (Bool.or_false _).symm
  | cons x r ih => rw [List.foldl_cons, ih, BitVec.getLsbD_or, Bool.or_assoc, List.any_cons]

theorem toNat_zeroExtend_dword (x : Word) : (x.zeroExtend 64).toNat = x.toNat := by
  rw [BitVec.zeroExtend, BitVec.toNat_setWidth, Nat.mod_eq_of_lt (by omega)]
theorem getLsbD_zeroExtend_dword (x : Word) {j : Nat} (hj : j < 32) : (x.zeroExtend 64).getLsbD j = x.getLsbD j := by
  rw [BitVec.zeroExtend, BitVec.getLsbD_setWidth, decide_eq_true (by omega), Bool.true_and]

theorem toNat_reduxAdd (xs : List Word) : ((xs.foldl (· + ·) 0).zeroExtend 64).toNat = (xs.map BitVec.toNat).sum % 2 ^ 32 := by
  rw [toNat_zeroExtend_dword, toNat_foldl_add, BitVec.ofNat_eq_ofNat, BitVec.toNat_zero, Nat.zero_add]
theorem toNat_reduxMin (xs : List Word) : ((xs.foldl (fun x y : Word => if y.ult x then y else x) 0xFFFFFFFF).zeroExtend 64).toNat =
    (xs.map BitVec.toNat).foldl min 0xFFFFFFFF :=
  (toNat_zeroExtend_dword _).trans (map_reduction BitVec.toNat (fun x y => (toNat_ite_ult_min y x).trans (min_comm ..)) _ xs)
theorem toInt_reduxMin (xs : List Word) : ((xs.foldl (fun x y : Word => if y.slt x then y else x) 0x7FFFFFFF).signExtend 64).toInt =
    (xs.map BitVec.toInt).foldl min 0x7FFFFFFF :=
  (BitVec.toInt_signExtend_of_le (by decide)).trans
    (map_reduction BitVec.toInt (fun x y => (toInt_ite_slt_min y x).trans (min_comm ..)) _ xs)
theorem toNat_reduxMax (xs : List Word) : ((xs.foldl (fun x y : Word => if x.ult y then y else x) 0).zeroExtend 64).toNat =
    (xs.map BitVec.toNat).foldl max 0 :=
  (toNat_zeroExtend_dword _).trans (map_reduction BitVec.toNat toNat_ite_ult_max _ xs)
theorem toInt_reduxMax (xs : List Word) : ((xs.foldl (fun x y : Word => if x.slt y then y else x) 0x80000000).signExtend 64).toInt =
    (xs.map BitVec.toInt).foldl max (-0x80000000) :=
  (BitVec.toInt_signExtend_of_le (by decide)).trans (map_reduction BitVec.toInt toInt_ite_slt_max _ xs)
/-- An extended word is below 2^32, and its low bits are the word's. -/
theorem zeroExtend_dword_bits (x : Word) {b : Nat → Bool} (hb : ∀ j < 32, x.getLsbD j = b j) :
    (x.zeroExtend 64).toNat < 2 ^ 32 ∧ ∀ j < 32, (x.zeroExtend 64).getLsbD j = b j :=
  ⟨(toNat_zeroExtend_dword x).trans_lt x.isLt, fun j hj => (getLsbD_zeroExtend_dword x hj).trans (hb j hj)⟩
theorem reduxAnd_bits (xs : List Word) : let z : DWord := (xs.foldl (· &&& ·) 0xFFFFFFFF).zeroExtend 64
    z.toNat < 2 ^ 32 ∧ ∀ j < 32, z.getLsbD j = xs.all fun x => x.getLsbD j := by
  refine zeroExtend_dword_bits _ fun j hj => ?_
  have hone : (0xFFFFFFFF : Word).getLsbD j = true := (BitVec.getLsbD_allOnes (v := 32)).trans (decide_eq_true hj)
  rw [getLsbD_foldl_and, hone, Bool.true_and]
theorem reduxOr_bits (xs : List Word) : let z : DWord := (xs.foldl (· ||| ·) 0).zeroExtend 64
    z.toNat < 2 ^ 32 ∧ ∀ j < 32, z.getLsbD j = xs.any fun x => x.getLsbD j := by
  refine zeroExtend_dword_bits _ fun j _ => ?_
  rw [getLsbD_foldl_or, BitVec.ofNat_eq_ofNat, BitVec.getLsbD_zero, Bool.false_or]

/-- A reduction writes its scalar register whatever its guard. -/
theorem reduxWord_becomes {s : State} {w v : Warp} {i : Instr} {g : Guard} {d : SReg} {a : VReg} {one : Word}
    {f : Word → Word → Word} {ext : Word → DWord} (he : exec i s = reduxWord i g d a one f ext s) (h : Runs s w v i)
    (R : List Word → DWord → Prop) (hR : ∀ xs : List Word, R xs (ext (xs.foldl f one))) : WarpBecomes i s fun v' =>
      ScalarWrite v v' d true (R ((w.actLanes s.cur.slices g).map (w.vget a.toNat)) (v'.sget d)) := by
  refine becomes_of_onWarp he h (scalarWrite_sset _ _ _ true _ fun _ => ?_)
  rw [Warp.sget_sset]
  exact hR _
/-- Each reduction of the table writes the result the table gives (Table 13.2). -/
theorem reductions_become {s : State} {w v : Warp} {d : SReg} {p : (Guard → SReg → VReg → Instr) × (List Word → DWord → Prop)}
    (hp : p ∈ reductions) {g : Guard} {a : VReg} (h : Runs s w v (p.1 g d a)) : WarpBecomes (p.1 g d a) s fun v' =>
      ScalarWrite v v' d true (p.2 ((w.actLanes s.cur.slices g).map (w.vget a.toNat)) (v'.sget d)) := by
  simp only [reductions, List.mem_cons, List.not_mem_nil, or_false] at hp
  rcases hp with rfl | rfl | rfl | rfl | rfl | rfl | rfl
  · exact reduxWord_becomes rfl h _ toNat_reduxAdd
  · exact reduxWord_becomes rfl h _ toNat_reduxMin
  · exact reduxWord_becomes rfl h _ toInt_reduxMin
  · exact reduxWord_becomes rfl h _ toNat_reduxMax
  · exact reduxWord_becomes rfl h _ toInt_reduxMax
  · exact reduxWord_becomes rfl h _ reduxAnd_bits
  · exact reduxWord_becomes rfl h _ reduxOr_bits

/-- Settles O10: transfers write the lanes that have a source, votes and reductions go over the contributing lanes. -/
theorem laneWords : Obligations.LaneWords := by
  unfold Obligations.LaneWords
  refine ⟨⟨?readlane, ?writelane, ?bcast⟩, ⟨?shfl, ?compress, ?expand, ?slideup, ?slidedn⟩, ?any, ?all, ?ballot, ?redux⟩
  case readlane => exact fun _ _ _ _ => writesScalar_of_scalar (fun _ => rfl) fun _ _ => toNat_zeroExtend_dword _
  case writelane =>
    intro s w v g d a b h
    exact becomes_of_onWarp (show execWritelane g d a b s = _ from rfl) h
      (vectorWrite_vset _ _ _ _ _ fun _ _ _ hz => (congrArg BitVec.toNat hz).trans (toNat_loWord _))
  case bcast => exact fun _ _ _ _ => writesWord_of_lane (fun _ => rfl) fun _ _ _ => loWord_zeroExtend _
  case shfl =>
    intro s w v g m wd d a b h
    cases wd with
    | w32 =>
      refine laneWord_becomes_word rfl h fun v' l hl hz => ?_
      rw [hz, Warp.loWord_srcW, shflLane_eq (Warp.lt_width_of_acts hl)]
      rfl
    | w64 =>
      refine laneWord_becomes_pair rfl h fun v' l hl hz => ?_
      rw [hz, shflLane_eq (Warp.lt_width_of_acts hl)]
      rfl
  case compress =>
    intro s w v g d a p h
    have hon : (fun l => w.acts s.cur.slices g l && decide (l < ((List.range w.width).filter (w.pred p)).length)) =
        fun l => w.acts s.cur.slices g l && (rankedLane w p l).isSome := funext fun l => by rw [isSome_rankedLane]
    dsimp only
    rw [hon]
    refine becomes_of_onWarp (show execCompress g d a p s = _ from rfl) h (vectorWrite_vset _ _ _ _ _ fun l _ ho hz => ?_)
    obtain ⟨j, hj⟩ := Option.isSome_iff_exists.1 (Bool.and_eq_true_iff.1 ho).2
    rw [hj] at hz
    exact ⟨j, hj, hz⟩
  case expand =>
    exact fun s w v g d a p h =>
      becomes_of_onWarp (show execExpand g d a p s = _ from rfl) h (vectorWrite_vset _ _ _ _ _ fun _ _ _ hz => hz)
  case slideup =>
    exact fun s w v g d a b h =>
      becomes_of_onWarp (show execSlideup g d a b s = _ from rfl) h (vectorWrite_vset _ _ _ _ _ fun _ _ _ hz => hz)
  case slidedn =>
    exact fun s w v g d a b h =>
      becomes_of_onWarp (show execSlidedn g d a b s = _ from rfl) h (vectorWrite_vset _ _ _ _ _ fun _ _ _ hz => hz)
  case any =>
    exact fun s w v g p q h =>
      becomes_of_onWarp (show execVoteAny g p q s = _ from rfl) h (predResult_pset_congr _ _ _ fun _ => w.any_actLanes ..)
  case all =>
    exact fun s w v g p q h =>
      becomes_of_onWarp (show execVoteAll g p q s = _ from rfl) h (predResult_pset_congr _ _ _ fun _ => w.all_actLanes ..)
  case ballot =>
    intro s w v g d q h
    refine becomes_of_onWarp (show execVoteBallot g d q s = _ from rfl) h (scalarWrite_sset _ _ _ true _ fun _ l hl => ?_)
    rw [Warp.sget_sset, getLsbD_ballot _ _ _ _ hl]
  case redux => exact fun s w v d p hp g a h => reductions_become hp h

end Sys2Proof.Machine
end

section
/-! PROOFS. Floating arithmetic (O4): a rounded result fits its format, and a floating word does one operation on each element. -/

namespace Sys2Proof.Machine
open Sys2Proof

/-! ### Results fit their format (R122, R124) -/

/-- The weight of a format's sign bit, below which its magnitudes stand. -/
def Fmt.signWeight (f : Fmt) : Nat := 2 ^ (f.ebits + f.mbits)
theorem Fmt.two_pow_width (f : Fmt) : 2 ^ f.width = 2 * f.signWeight := by
  rw [Fmt.width, Fmt.signWeight, Nat.add_assoc, Nat.pow_add, Nat.pow_one]

/-- A format's NaN, infinity and largest finite magnitude leave its sign bit clear. -/
structure Fmt.MagsFit (f : Fmt) : Prop where
  nan : f.nan < f.signWeight
  inf : f.infBits < f.signWeight
  max : f.maxBits < f.signWeight
theorem f32_magsFit : f32.MagsFit := ⟨by decide, by decide, by decide⟩
theorem f16_magsFit : f16.MagsFit := ⟨by decide, by decide, by decide⟩
theorem FTy_fmt_magsFit (t : FTy) : (FTy_fmt t).MagsFit := by
  cases t
  case f32 => exact f32_magsFit
  case f64 => exact ⟨by decide, by decide, by decide⟩
  case f16x2 => exact f16_magsFit
  case bf16x2 => exact ⟨by decide, by decide, by decide⟩

theorem Fmt.signBit_le (f : Fmt) (neg : Bool) : f.signBit neg ≤ f.signWeight := by
  cases neg
  case false => exact Nat.zero_le _
  case true => exact le_rfl

section
variable {f : Fmt} (hf : f.MagsFit)
include hf

theorem Fmt.overflow_lt (rm : Rm) (neg : Bool) : f.overflow rm neg < f.signWeight := by
  unfold Fmt.overflow
  split
  case h_4 => exact hf.inf
  all_goals exact hf.max
/-- A rounded magnitude leaves the sign bit to the sign. -/
theorem Fmt.roundMag_lt (rm : Rm) (neg : Bool) (m : Nat) (e : Int) (sticky : Bool) :
    f.roundMag rm neg m e sticky < f.signBit neg + f.signWeight := by
  have hmax := hf.max
  have hover := Fmt.overflow_lt hf rm neg
  simp only [Fmt.roundMag]
  split
  · omega
  · split <;> omega
theorem Fmt.roundMag_lt_width (rm : Rm) (neg : Bool) (m : Nat) (e : Int) (sticky : Bool) :
    f.roundMag rm neg m e sticky < 2 ^ f.width := by
  have hmag := Fmt.roundMag_lt hf rm neg m e sticky
  have hsign := f.signBit_le neg
  rw [Fmt.two_pow_width]
  omega
theorem Fmt.round_lt (rm : Rm) (x : FV) : f.round rm x < 2 ^ f.width := by
  cases x with
  | nan => exact hf.nan.trans_le (by rw [Fmt.two_pow_width]; omega)
  | inf neg =>
    have hinf := hf.inf
    have hsign := f.signBit_le neg
    rw [Fmt.round, Fmt.two_pow_width]
    omega
  | fin neg m e => exact Fmt.roundMag_lt_width hf ..
end

theorem Fmt.flush_lt (f : Fmt) (on : Bool) {x : Nat} (hx : x < 2 ^ f.width) : f.flush on x < 2 ^ f.width := by
  have hsign := f.signBit_le (f.sign x)
  have hweight : 0 < f.signWeight := Nat.two_pow_pos _
  rw [Fmt.flush]
  split
  · rw [Fmt.two_pow_width]
    omega
  · exact hx
theorem Fmt.write_lt {f : Fmt} (hf : f.MagsFit) (md : FpMode) (x : FV) : f.write md x < 2 ^ f.width :=
  f.flush_lt _ (Fmt.round_lt hf _ x)

/-! ### Words of a floating type (R123, R220) -/

/-- A source of 32 bits has zeros above. -/
def FitsType (t : FTy) (x : DWord) : Prop := t = .f32 → x.toNat < 2 ^ 32
theorem srcT_fits (t : FTy) (a : Src) (w : Warp) (l : Nat) : FitsType t (srcT t a w l) := by
  rintro rfl
  exact (toNat_zeroExtend_dword _).trans_lt (BitVec.isLt _)
theorem noSrc_fits (t : FTy) (w : Warp) (l : Nat) : FitsType t (noSrc w l) := fun _ => Nat.two_pow_pos 32

/-- An operation's result on elements of a format is an element of it and meets a relation. -/
def ElementMeets (f : Fmt) (F : Nat → Nat → Nat → Nat) (R : Nat → Nat → Nat → Nat → Prop) : Prop :=
  ∀ x y c, x < 2 ^ f.width → y < 2 ^ f.width → c < 2 ^ f.width → F x y c < 2 ^ f.width ∧ R x y c (F x y c)

/-- What is read of a register of 32 bits into which a result was written. -/
theorem toNat_loWord_ofNat {n : Nat} (hn : n < 2 ^ 32) : (loWord (BitVec.ofNat 64 n)).toNat = n := by
  rw [toNat_loWord, BitVec.toNat_ofNat]
  omega
theorem toNat_word_result {x : Word} {n : Nat} (hx : x = loWord (BitVec.ofNat 64 n)) (hn : n < 2 ^ 32) : (x.zeroExtend 64).toNat = n := by
  rw [toNat_zeroExtend_dword, hx, toNat_loWord_ofNat hn]

/-- A result of two elements has each in its half. -/
theorem packed_halves {z lo hi : Nat} (hlo : lo < 2 ^ 16) (hhi : hi < 2 ^ 16) (hz : z = lo + 2 ^ 16 * hi) :
    z % 2 ^ 16 = lo ∧ z / 2 ^ 16 % 2 ^ 16 = hi := by omega

/-- A word that writes what an operation makes of each element is a floating word of a relation that the operation meets. -/
theorem floatWord_of_fpWord {i : Instr} {g : Guard} {t : FTy} {d : VReg} {a b c : Warp → Nat → DWord}
    {F : FpMode → Fmt → Nat → Nat → Nat → Nat} {R : FpMode → Fmt → Nat → Nat → Nat → Nat → Prop}
    (he : ∀ s, exec i s = fpWord i g t d s fun w md l => perElem t (F md) (a w l) (b w l) (c w l))
    (ha : ∀ w l, FitsType t (a w l)) (hb : ∀ w l, FitsType t (b w l)) (hc : ∀ w l, FitsType t (c w l))
    (hF : ∀ md, ElementMeets (FTy_fmt t) (F md (FTy_fmt t)) (R md (FTy_fmt t))) : FloatWord i g t d a b c R := by
  intro s w v h
  have hregs : t.regs = (FTy_width t).regs := by cases t <;> rfl
  rw [hregs]
  refine becomes_of_onWarp (he s) h (vectorWrite_vsetW _ _ _ _ _ _ fun l _ _ hz => ?_)
  have hmeets := hF (modeOf w s.cur.slices)
  have hhalf (x : Nat) : x % 2 ^ 16 < 2 ^ 16 := Nat.mod_lt _ (Nat.two_pow_pos 16)
  cases t with
  | f32 =>
    obtain ⟨hfit, hR⟩ := hmeets _ _ _ (ha w l rfl) (hb w l rfl) (hc w l rfl)
    show R _ f32 (_ % 2 ^ 32) (_ % 2 ^ 32) (_ % 2 ^ 32) (((Warp.vget _ _ l).zeroExtend 64).toNat % 2 ^ 32)
    rw [toNat_word_result hz hfit, Nat.mod_eq_of_lt (ha w l rfl), Nat.mod_eq_of_lt (hb w l rfl),
      Nat.mod_eq_of_lt (hc w l rfl), Nat.mod_eq_of_lt (b := 2 ^ 32) hfit]
    exact hR
  | f64 =>
    obtain ⟨hfit, hR⟩ := hmeets _ _ _ (a w l).isLt (b w l).isLt (c w l).isLt
    have hval := (congrArg BitVec.toNat hz).trans ((BitVec.toNat_ofNat _ _).trans (Nat.mod_eq_of_lt hfit))
    exact (congrArg _ hval).mpr hR
  | f16x2 | bf16x2 =>
    obtain ⟨hlo, hRlo⟩ := hmeets _ _ _ (hhalf (a w l).toNat) (hhalf (b w l).toNat) (hhalf (c w l).toNat)
    obtain ⟨hhi, hRhi⟩ := hmeets _ _ _ (hhalf ((a w l).toNat / 2 ^ 16)) (hhalf ((b w l).toNat / 2 ^ 16))
      (hhalf ((c w l).toNat / 2 ^ 16))
    obtain ⟨hzlo, hzhi⟩ := packed_halves hlo hhi (toNat_word_result hz (by
      rw [show (2 : Nat) ^ (FTy_fmt _).width = 2 ^ 16 from rfl] at hlo hhi
      omega))
    exact ⟨(congrArg _ hzlo).mpr hRlo, (congrArg _ hzhi).mpr hRhi⟩

section
variable {i : Instr} {g : Guard} {t : FTy} {d : VReg} {a b : Src} {R : FpMode → Fmt → Nat → Nat → Nat → Nat → Prop}

theorem floatWord_of_fp1 {f : FpMode → Fmt → Nat → Nat} (he : ∀ s, exec i s = fp1 i g t d a f s)
    (hfit : ∀ md x, x < 2 ^ (FTy_fmt t).width → f md (FTy_fmt t) x < 2 ^ (FTy_fmt t).width)
    (hR : ∀ md x y c, x < 2 ^ (FTy_fmt t).width → R md (FTy_fmt t) x y c (f md (FTy_fmt t) x)) :
    FloatWord i g t d (srcT t a) noSrc noSrc R :=
  floatWord_of_fpWord he (srcT_fits t a) (noSrc_fits t) (noSrc_fits t) fun md x y c hx _ _ => ⟨hfit md x hx, hR md x y c hx⟩
theorem floatWord_of_fp2 {f : FpMode → Fmt → Nat → Nat → Nat} (he : ∀ s, exec i s = fp2 i g t d a b f s)
    (hfit : ∀ md x y, x < 2 ^ (FTy_fmt t).width → y < 2 ^ (FTy_fmt t).width → f md (FTy_fmt t) x y < 2 ^ (FTy_fmt t).width)
    (hR : ∀ md x y c, R md (FTy_fmt t) x y c (f md (FTy_fmt t) x y)) : FloatWord i g t d (srcT t a) (srcT t b) noSrc R :=
  floatWord_of_fpWord he (srcT_fits t a) (srcT_fits t b) (noSrc_fits t) fun md x y c hx hy _ => ⟨hfit md x y hx hy, hR md x y c⟩
theorem floatWord_of_fp3 {c : Src} {f : FpMode → Fmt → Nat → Nat → Nat → Nat} (he : ∀ s, exec i s = fp3 i g t d a b c f s)
    (hfit : ∀ md x y z, f md (FTy_fmt t) x y z < 2 ^ (FTy_fmt t).width)
    (hR : ∀ md x y z, R md (FTy_fmt t) x y z (f md (FTy_fmt t) x y z)) : FloatWord i g t d (srcT t a) (srcT t b) (srcT t c) R :=
  floatWord_of_fpWord he (srcT_fits t a) (srcT_fits t b) (srcT_fits t c) fun md x y z _ _ _ => ⟨hfit md x y z, hR md x y z⟩
end

/-- Settles O4: each word writes one rounded result for each element, and a rounded result fits its element. -/
theorem floatArithmetic : Obligations.FloatArithmetic := by
  unfold Obligations.FloatArithmetic
  have hfit (t : FTy) (md : FpMode) (x : FV) : (FTy_fmt t).write md x < 2 ^ (FTy_fmt t).width := Fmt.write_lt (FTy_fmt_magsFit t) md x
  refine ⟨?fadd, ?fsub, ?fmul, ?ffma, ?fma3⟩
  case fadd =>
    exact fun g t d a b => floatWord_of_fp2 (f := fun md fm => fm.add md) (fun _ => rfl) (fun md _ _ _ _ => hfit t md _) fun _ _ _ _ => rfl
  case fsub =>
    exact fun g t d a b => floatWord_of_fp2 (f := fun md fm => fm.sub md) (fun _ => rfl) (fun md _ _ _ _ => hfit t md _) fun _ _ _ _ => rfl
  case fmul =>
    exact fun g t d a b => floatWord_of_fp2 (f := fun md fm => fm.mul md) (fun _ => rfl) (fun md _ _ _ _ => hfit t md _) fun _ _ _ _ => rfl
  case ffma =>
    exact fun g t d a b => floatWord_of_fp3 (f := fun md fm => fm.fma md) (fun _ => rfl) (fun md _ _ _ => hfit t md _) fun _ _ _ _ => rfl
  case fma3 =>
    exact fun t d a b c => floatWord_of_fp3 (f := fun md fm => fm.fma md) (fun _ => rfl) (fun md _ _ _ => hfit t md _) fun _ _ _ _ => rfl

end Sys2Proof.Machine
end

section
/-! PROOFS. Minima, roundings, comparisons and classes (O6): the sign bit by its weight, "at most" as "not above", the class by value. -/

namespace Sys2Proof.Machine
open Sys2Proof

/-! ### The lesser, the greater and the sign bit (R224) -/

/-- A NaN, or one of two flushed elements that is chosen, flushed again. -/
theorem Fmt.flush_chosen_lt {f : Fmt} (hf : f.MagsFit) (md : FpMode) {x y : Nat} (hx : x < 2 ^ f.width) (hy : y < 2 ^ f.width)
    (nan second : Bool) :
    f.flush md.fout (if nan then f.nan else if second then f.flush md.fin y else f.flush md.fin x) < 2 ^ f.width := by
  refine f.flush_lt _ ?_
  split
  · exact Fmt.round_lt hf .rne .nan
  · split
    · exact f.flush_lt _ hy
    · exact f.flush_lt _ hx

section
variable (f : Fmt)

theorem Fmt.signWeight_eq : f.signWeight = 2 ^ (f.width - 1) := by
  rw [Fmt.signWeight, Fmt.width, Nat.add_assoc, Nat.add_sub_cancel_left]
theorem Fmt.abs_eq (x : Nat) : f.abs x = x % 2 ^ (f.width - 1) := by
  rw [← Fmt.signWeight_eq]
  rfl
theorem Fmt.abs_lt {x : Nat} (hx : x < 2 ^ f.width) : f.abs x < 2 ^ f.width := (Nat.mod_le ..).trans_lt hx

/-- An encoding's sign is set when the encoding reaches the weight of its sign bit. -/
theorem Fmt.sign_eq_decide {x : Nat} (hx : x < 2 ^ f.width) : f.sign x = decide (f.signWeight ≤ x) := by
  have hpos : 0 < f.signWeight := Nat.two_pow_pos _
  rw [Fmt.two_pow_width] at hx
  rw [Fmt.sign, ← Fmt.signWeight, beq_eq_decide, decide_eq_decide]
  have hdiv : x / f.signWeight < 2 := Nat.div_lt_of_lt_mul (by omega)
  rw [Nat.mod_eq_of_lt hdiv, ← Nat.one_le_div_iff hpos]
  omega
/-- Inverting the sign bit adds its weight or takes it away. -/
theorem Fmt.negate_eq {x : Nat} (hx : x < 2 ^ f.width) :
    f.negate x = if x < 2 ^ (f.width - 1) then x + 2 ^ (f.width - 1) else x - 2 ^ (f.width - 1) := by
  have hparts : f.negate x = x % f.signWeight + if f.signWeight ≤ x then 0 else f.signWeight := by
    rw [Fmt.negate, Fmt.sign_eq_decide f hx]
    by_cases h : f.signWeight ≤ x
    · rw [decide_eq_true h, if_pos h]
      rfl
    · rw [decide_eq_false h, if_neg h]
      rfl
  rw [hparts, ← Fmt.signWeight_eq]
  rw [Fmt.two_pow_width] at hx
  by_cases h : x < f.signWeight
  · rw [if_pos h, if_neg (not_le.2 h), Nat.mod_eq_of_lt h]
  · rw [if_neg h, if_pos (not_lt.1 h), Nat.mod_eq_sub_mod (not_lt.1 h), Nat.mod_eq_of_lt (by omega), Nat.add_zero]
theorem Fmt.negate_lt {x : Nat} (hx : x < 2 ^ f.width) : f.negate x < 2 ^ f.width := by
  have hwidth := f.two_pow_width
  rw [Fmt.negate_eq f hx, ← Fmt.signWeight_eq]
  split <;> omega
end

/-! ### Comparisons (R225) -/

/-- Of two numbers, the one that is not above the other is below it or equal to it. -/
theorem FV.not_lt_eq {x y : FV} (hx : x.isNan = false) (hy : y.isNan = false) : (!y.lt x) = (x.lt y || x.eq y) := by
  rw [FV.eq, hx, hy, FV.lt_eq_place hx hy, FV.lt_eq_place hy hx]
  rcases lt_trichotomy x.place y.place with h | h | h
  · simp [h, h.not_gt]
  · simp [h]
  · simp [h, h.not_gt]
/-- FSETP's conditions in terms of "less" and "equal". -/
theorem fcond_eq (c : FCond) (x y : FV) : fcond c x y =
    match c with
    | .eq => !(x.isNan || y.isNan) && x.eq y
    | .ne => x.isNan || y.isNan || !x.eq y
    | .lt => !(x.isNan || y.isNan) && x.lt y
    | .le => !(x.isNan || y.isNan) && (x.lt y || x.eq y)
    | .gt => !(x.isNan || y.isNan) && y.lt x
    | .ge => !(x.isNan || y.isNan) && (y.lt x || x.eq y)
    | .ord => !(x.isNan || y.isNan)
    | .unord => x.isNan || y.isNan := by
  have hsymm : x.eq y = y.eq x := by
    rw [FV.eq, FV.eq]
    cases x.isNan <;> cases y.isNan <;> cases x.lt y <;> cases y.lt x <;> rfl
  have hle : (!(x.isNan || y.isNan) && !y.lt x) = (!(x.isNan || y.isNan) && (x.lt y || x.eq y)) := by
    cases hx : x.isNan
    case true => rfl
    case false =>
      cases hy : y.isNan
      case true => rfl
      case false => rw [FV.not_lt_eq hx hy]
  have hge : (!(x.isNan || y.isNan) && !x.lt y) = (!(x.isNan || y.isNan) && (y.lt x || x.eq y)) := by
    cases hx : x.isNan
    case true => rfl
    case false =>
      cases hy : y.isNan
      case true => rfl
      case false => rw [FV.not_lt_eq hy hx, hsymm]
  cases c
  case le => exact hle
  case ge => exact hge
  all_goals rfl

/-! ### Classes (R226) -/

/-- The class bit of a value of a format: a number below the least normal one is a zero or a subnormal. -/
def Fmt.classBit (f : Fmt) : FV → Nat
  | .inf true => 1
  | .inf false => 128
  | .fin true 0 _ => 8
  | .fin false 0 _ => 16
  | .fin neg m _ => if m < 2 ^ f.mbits then (if neg then 4 else 32) else (if neg then 2 else 64)
  | .nan => 256

/-- Of a number that is not zero, the significand's size tells the class. -/
theorem Fmt.classBit_fin (f : Fmt) (neg : Bool) {m : Nat} (hm : m ≠ 0) (e : Int) :
    f.classBit (.fin neg m e) = if m < 2 ^ f.mbits then (if neg then 4 else 32) else (if neg then 2 else 64) := by
  obtain ⟨k, rfl⟩ := Nat.exists_eq_succ_of_ne_zero hm
  cases neg <;> rfl
theorem Fmt.fclass_eq (f : Fmt) (x : Nat) : f.fclass x = if f.isNan x then 256 else f.classBit (f.value x) := by
  have hfrac : f.frac x < 2 ^ f.mbits := Nat.mod_lt _ (Nat.two_pow_pos _)
  rw [Fmt.fclass]
  refine if_ctx_congr Iff.rfl (fun _ => rfl) fun hnan => ?_
  rw [Fmt.value, if_neg hnan]
  split
  · cases f.sign x <;> rfl
  · by_cases hexpo : f.expo x = 0
    · rw [if_pos hexpo, if_neg (not_not.2 hexpo)]
      by_cases hzero : f.frac x = 0
      · rw [hzero]
        cases f.sign x <;> rfl
      · rw [if_pos hzero, Fmt.classBit_fin f _ hzero, if_pos hfrac]
        rfl
    · rw [if_pos hexpo, if_neg hexpo, Fmt.classBit_fin f _ (by omega), if_neg (Nat.le_add_right (2 ^ f.mbits) (f.frac x)).not_gt]
      rfl
theorem Fmt.fclass_le (f : Fmt) (x : Nat) : f.fclass x ≤ 256 := by
  simp only [Fmt.fclass]
  split_ifs <;> decide

/-- The word of class bits, by the elements' own. -/
theorem toNat_fclassWord (t : FTy) (x : DWord) : (loWord (perElem t (fun fm x _ _ => fm.fclass x) x 0 0)).toNat =
    if FTy_packed t then (FTy_fmt t).fclass (x.toNat % 2 ^ 16) + 2 ^ 16 * (FTy_fmt t).fclass (x.toNat / 2 ^ 16 % 2 ^ 16)
    else (FTy_fmt t).fclass x.toNat := by
  have hlow := (FTy_fmt t).fclass_le (x.toNat % 2 ^ 16)
  have hhigh := (FTy_fmt t).fclass_le (x.toNat / 2 ^ 16 % 2 ^ 16)
  have hone := (FTy_fmt t).fclass_le x.toNat
  rw [perElem]
  split
  · exact toNat_loWord_ofNat (by omega)
  · exact toNat_loWord_ofNat (by omega)

/-- Settles O6: each word's result fits its elements, FSETP's conditions go by "less" and "equal", and FCLASS by the value. -/
theorem floatSelectRoundCompare : Obligations.FloatSelectRoundCompare := by
  unfold Obligations.FloatSelectRoundCompare
  refine ⟨⟨?fmin, ?fmax, ?fabs, ?fneg, ?frnd⟩, ?fsetp, ?fclass⟩
  case fmin =>
    exact fun g t d a b => floatWord_of_fp2 (f := fun md fm => fm.min md) (fun _ => rfl)
      (fun md _ _ hx hy => Fmt.flush_chosen_lt (FTy_fmt_magsFit t) md hx hy _ _) fun _ _ _ _ => rfl
  case fmax =>
    exact fun g t d a b => floatWord_of_fp2 (f := fun md fm => fm.max md) (fun _ => rfl)
      (fun md _ _ hx hy => Fmt.flush_chosen_lt (FTy_fmt_magsFit t) md hx hy _ _) fun _ _ _ _ => rfl
  case fabs =>
    exact fun g t d a => floatWord_of_fp1 (f := fun _ fm => fm.abs) (fun _ => rfl) (fun _ _ hx => Fmt.abs_lt _ hx)
      fun _ x _ _ _ => Fmt.abs_eq _ x
  case fneg =>
    exact fun g t d a => floatWord_of_fp1 (f := fun _ fm => fm.negate) (fun _ => rfl) (fun _ _ hx => Fmt.negate_lt _ hx)
      fun _ _ _ _ hx => Fmt.negate_eq _ hx
  case frnd =>
    exact fun g rm t d a => floatWord_of_fp1 (f := fun md fm => fm.frnd md (frndMode rm md)) (fun _ => rfl)
      (fun _ _ _ => Fmt.flush_lt _ _ (Fmt.round_lt (FTy_fmt_magsFit t) _ _)) fun _ _ _ _ _ => rfl
  case fsetp =>
    intro s w v g c wd p a b h
    refine becomes_of_onWarp (show execFsetp g c wd p a b s = _ from rfl) h (predResult_pset_congr _ _ _ fun l => ?_)
    exact fcond_eq ..
  case fclass =>
    refine fun g t d a => writesWord_of_lane (fun _ => rfl) fun _ w l => ?_
    have hbits := toNat_fclassWord t (srcT t a w l)
    rw [Fmt.fclass_eq, Fmt.fclass_eq, Fmt.fclass_eq] at hbits
    cases t <;> exact hbits

end Sys2Proof.Machine
end

section
/-! PROOFS. Conversions and packing (O7): a converted value by the kinds of its two types, and packed fields bit by bit. -/

namespace Sys2Proof.Machine
open Sys2Proof

/-! ### Values of integer types (R228, R229) -/

/-- The least and the greatest value of an integer type of `n` bits, signed or not. -/
def intLeast (n : Nat) (sg : Bool) : Int := if sg then -2 ^ (n - 1) else 0
def intMost (n : Nat) (sg : Bool) : Int := if sg then 2 ^ (n - 1) - 1 else 2 ^ n - 1
/-- The integer in the low bits of a source. -/
def intLow (n : Nat) (sg : Bool) (x : Nat) : Int :=
  if sg && decide (2 ^ (n - 1) ≤ x % 2 ^ n) then ((x % 2 ^ n : Nat) : Int) - 2 ^ n else (x % 2 ^ n : Nat)

theorem intRange_eq (n : Nat) (sg : Bool) : intRange (n, sg) = (intLeast n sg, intMost n sg) := by
  cases sg <;> rfl
theorem intLeast_le_intMost (n : Nat) (sg : Bool) : intLeast n sg ≤ intMost n sg := by
  have hhalf : (0 : Int) < 2 ^ (n - 1) := by positivity
  have hall : (0 : Int) < 2 ^ n := by positivity
  cases sg <;> simp only [intLeast, intMost, if_true, Bool.false_eq_true, if_false] <;> omega
/-- An integer source is the two's complement reading of its low bits, or the plain one. -/
theorem intRead_eq (n : Nat) (sg : Bool) (x : Nat) : intRead (n, sg) x = intLow n sg x := by
  cases sg
  case false => rfl
  case true =>
    rw [intRead, intLow, if_pos rfl, sext, Bool.true_and]
    by_cases h : 2 ^ (n - 1) ≤ x % 2 ^ n
    · rw [if_neg (not_lt.2 h), decide_eq_true h, if_pos rfl]
      push_cast
      rfl
    · rw [if_pos (not_le.1 h), decide_eq_false h, if_neg Bool.false_ne_true]
      push_cast
      rfl
theorem clampInt_eq {lo hi : Int} (h : lo ≤ hi) (x : Int) : clampInt lo hi x = max lo (min hi x) := by
  rw [clampInt]
  split_ifs <;> omega

/-! ### Converted operands (R228, R229) -/

/-- The value of the low bits of a source of a floating type. -/
def floatLow (md : FpMode) (ts : CvtTy) (x : Nat) : FV := (CvtTy_fmt ts).read md (x % 2 ^ (CvtTy_fmt ts).width)

theorem CvtTy_packed_eq (t : CvtTy) : CvtTy_packed t = t.isPacked := by
  cases t <;> rfl
/-- Neither of the packed types is an integer type. -/
theorem CvtTy.isPacked_of_int? {t : CvtTy} {p : Nat × Bool} (h : t.int? = some p) : t.isPacked = false := by
  cases t
  case f16x2 | bf16x2 => cases h
  all_goals rfl
theorem CvtTy_fmt_width_of_packed {t : CvtTy} (h : t.isPacked = true) : (CvtTy_fmt t).width = 16 := by
  cases t
  case f16x2 | bf16x2 => rfl
  all_goals cases h

section
variable (md : FpMode) {td ts : CvtTy} (x : DWord)

/-- A type that is not packed is converted as one value. -/
theorem cvtBits_of_not_packed (h : td.isPacked = false) : cvtBits md td ts x = BitVec.ofInt 64 (cvtValue md td ts x.toNat) := by
  rw [cvtBits, CvtTy_packed_eq, h]
  rfl
theorem cvtBits_int_int {n k : Nat} {sg tg : Bool} (hd : td.int? = some (n, sg)) (hs : ts.int? = some (k, tg)) :
    cvtBits md td ts x = BitVec.ofInt 64 (max (intLeast n sg) (min (intMost n sg) (intLow k tg x.toNat))) := by
  rw [cvtBits_of_not_packed md x (CvtTy.isPacked_of_int? hd), cvtValue, hd, hs]
  dsimp only
  rw [intRange_eq, intRead_eq, clampInt_eq (intLeast_le_intMost n sg)]
theorem cvtBits_int_float {n : Nat} {sg : Bool} (hd : td.int? = some (n, sg)) (hs : ts.int? = none) :
    cvtBits md td ts x = BitVec.ofInt 64 ((floatLow md ts x.toNat).toInt md.rm (intLeast n sg) (intMost n sg)) := by
  rw [cvtBits_of_not_packed md x (CvtTy.isPacked_of_int? hd), cvtValue, hd, hs]
  dsimp only
  rw [intRange_eq]
  rfl
theorem cvtBits_float_int {k : Nat} {tg : Bool} (hp : td.isPacked = ts.isPacked) (hd : td.int? = none) (hs : ts.int? = some (k, tg)) :
    cvtBits md td ts x = BitVec.ofInt 64 ((CvtTy_fmt td).write md (FV.ofInt (intLow k tg x.toNat) 0) : Nat) := by
  rw [cvtBits_of_not_packed md x (hp.trans (CvtTy.isPacked_of_int? hs)), cvtValue, hd, hs]
  dsimp only
  rw [intRead_eq]
theorem cvtValue_float_float (hd : td.int? = none) (hs : ts.int? = none) (y : Nat) :
    cvtValue md td ts y = ((CvtTy_fmt td).write md (floatLow md ts y) : Nat) := by
  rw [cvtValue, hd, hs]
  rfl
/-- Two packed elements are converted one by one. -/
theorem cvtBits_packed (hp : td.isPacked = ts.isPacked) (hd : td.int? = none) (hs : ts.int? = none) (h : td.isPacked = true) :
    cvtBits md td ts x = BitVec.ofInt 64 (((CvtTy_fmt td).write md (floatLow md ts x.toNat) +
      2 ^ 16 * (CvtTy_fmt td).write md (floatLow md ts (x.toNat / 2 ^ 16)) : Nat)) := by
  have hlow (y : Nat) : floatLow md ts (y % 2 ^ 16) = floatLow md ts y := by
    rw [floatLow, floatLow, CvtTy_fmt_width_of_packed (hp.symm.trans h), Nat.mod_mod]
  rw [cvtBits, CvtTy_packed_eq, if_pos h, cvtValue_float_float md hd hs, cvtValue_float_float md hd hs, hlow, hlow]
  push_cast
  rfl
end

theorem loWord_ofInt (z : Int) : loWord (BitVec.ofInt 64 z) = BitVec.ofInt 32 z := by
  rw [← BitVec.toNat_inj, toNat_loWord, BitVec.toNat_ofInt, BitVec.toNat_ofInt]
  omega

/-- A register or pair, as a conversion type has it, holds an integer. -/
def Warp.HoldsInt (v : Warp) (t : CvtTy) (d l : Nat) (z : Int) : Prop :=
  if t.regs = 2 then v.vpair d l = BitVec.ofInt 64 z else v.vget d l = BitVec.ofInt 32 z
/-- What a register or pair holds after a write of its width. -/
theorem Warp.holdsInt_of_written {v : Warp} {t : CvtTy} {d l : Nat} {x : DWord} {z : Int} (hx : x = BitVec.ofInt 64 z)
    (hv : match CvtTy_width t with
      | .w32 => v.vget d l = loWord x
      | .w64 => v.vpair d l = x) : v.HoldsInt t d l z := by
  subst hx
  rw [CvtTy_width] at hv
  rw [Warp.HoldsInt]
  by_cases h : t.regs = 2
  · rw [if_pos h] at hv ⊢
    exact hv
  · rw [if_neg h] at hv ⊢
    exact hv.trans (loWord_ofInt z)
/-- CVT leaves in each lane the integer that its converted operand stands for. -/
theorem cvt_becomes {s : State} {w v : Warp} {g : Guard} {td ts : CvtTy} {d : VReg} {a : Src} (h : Runs s w v (.cvt g td ts d a))
    {P : Warp → Nat → Prop} (hP : ∀ v' l,
      (∀ z, cvtBits (modeOf w s.cur.slices) td ts (w.srcW (CvtTy_width ts) a l) = BitVec.ofInt 64 z →
        Warp.HoldsInt v' td d.toNat l z) → P v' l) :
    WarpBecomes (.cvt g td ts d a) s fun v' => VectorWrite v v' d.toNat td.regs (w.acts s.cur.slices g) (P v') := by
  have hregs : td.regs = (CvtTy_width td).regs := by cases td <;> rfl
  rw [hregs]
  exact becomes_of_onWarp (show execCvt g td ts d a s = _ from rfl) h
    (vectorWrite_vsetW _ _ _ _ _ _ fun l _ _ hv => hP _ l fun _ hz => Warp.holdsInt_of_written hz hv)

/-! ### Packed fields (R230) -/

theorem extractLsb'_eq_of_bits {m n : Nat} {x : BitVec m} {y : BitVec n} {i j len : Nat}
    (h : ∀ k < len, x.getLsbD (i + k) = y.getLsbD (j + k)) : x.extractLsb' i len = y.extractLsb' j len := by
  refine BitVec.eq_of_getLsbD_eq fun k hk => ?_
  rw [BitVec.getLsbD_extractLsb', BitVec.getLsbD_extractLsb', h k hk]
/-- The low bits of a word. -/
theorem getLsbD_and_ones (x : Word) (k : Nat) {j : Nat} (hj : j < 32) :
    (x &&& BitVec.ofNat 32 (2 ^ k - 1)).getLsbD j = (decide (j < k) && x.getLsbD j) := by
  rw [BitVec.getLsbD_and, BitVec.getLsbD_ofNat, Nat.testBit_two_pow_sub_one, decide_eq_true hj, Bool.true_and, Bool.and_comm]

/-- Two fields of `k` bits above the upper bits of a word. -/
def packTop (k : Nat) (d a b : Word) : Word :=
  (d >>> (2 * k)) ||| ((a &&& BitVec.ofNat 32 (2 ^ k - 1)) <<< (32 - 2 * k)) ||| ((b &&& BitVec.ofNat 32 (2 ^ k - 1)) <<< (32 - k))

theorem getLsbD_packTop {k j : Nat} (hk : 2 * k ≤ 32) (hj : j < 32) (d a b : Word) : (packTop k d a b).getLsbD j =
    if j < 32 - 2 * k then d.getLsbD (2 * k + j) else if j < 32 - k then a.getLsbD (j - (32 - 2 * k)) else b.getLsbD (j - (32 - k)) := by
  rw [packTop, BitVec.getLsbD_or, BitVec.getLsbD_or, BitVec.getLsbD_ushiftRight, BitVec.getLsbD_shiftLeft, BitVec.getLsbD_shiftLeft,
    getLsbD_and_ones _ _ (by omega), getLsbD_and_ones _ _ (by omega), decide_eq_true hj]
  split
  · next h => simp [h, show j < 32 - k by omega]
  · next h =>
    rw [BitVec.getLsbD_of_ge d _ (by omega)]
    split
    · next h' => simp [h, h', show j - (32 - 2 * k) < k by omega]
    · next h' => simp [h, h', show ¬ j - (32 - 2 * k) < k by omega, show j - (32 - k) < k by omega]
theorem packTop_fields {k : Nat} (hk : 2 * k ≤ 32) (d a b : Word) :
    (packTop k d a b).extractLsb' 0 (32 - 2 * k) = d.extractLsb' (2 * k) (32 - 2 * k) ∧
      (packTop k d a b).extractLsb' (32 - 2 * k) k = a.extractLsb' 0 k ∧ (packTop k d a b).extractLsb' (32 - k) k = b.extractLsb' 0 k := by
  refine ⟨extractLsb'_eq_of_bits fun j hj => ?_, extractLsb'_eq_of_bits fun j hj => ?_, extractLsb'_eq_of_bits fun j hj => ?_⟩
  · rw [getLsbD_packTop hk (by omega), if_pos (by omega), Nat.zero_add]
  · rw [getLsbD_packTop hk (by omega), if_neg (by omega), if_pos (by omega), Nat.add_sub_cancel_left, Nat.zero_add]
  · rw [getLsbD_packTop hk (by omega), if_neg (by omega), if_neg (by omega), Nat.add_sub_cancel_left, Nat.zero_add]
/-- Two fields of 16 bits fill the word. -/
theorem packBits_halves (a b : Word) :
    ((b <<< 16) ||| (a &&& 0xFFFF)).extractLsb' 0 16 = a.extractLsb' 0 16 ∧
      ((b <<< 16) ||| (a &&& 0xFFFF)).extractLsb' 16 16 = b.extractLsb' 0 16 := by
  have hbits {j : Nat} (hj : j < 32) : ((b <<< 16) ||| (a &&& 0xFFFF)).getLsbD j = if j < 16 then a.getLsbD j else b.getLsbD (j - 16) := by
    rw [BitVec.getLsbD_or, BitVec.getLsbD_shiftLeft, decide_eq_true hj, show (0xFFFF : Word) = BitVec.ofNat 32 (2 ^ 16 - 1) from rfl,
      getLsbD_and_ones _ _ hj]
    split
    · next h => simp [h]
    · next h => simp [h]
  refine ⟨extractLsb'_eq_of_bits fun j hj => ?_, extractLsb'_eq_of_bits fun j hj => ?_⟩
  · rw [hbits (by omega), if_pos (by omega)]
  · rw [hbits (by omega), if_neg (by omega), Nat.add_sub_cancel_left, Nat.zero_add]

/-- Settles O7: a conversion by the kinds of its types, and PACK's fields by the width of its elements. -/
theorem conversionsAndPacks : Obligations.ConversionsAndPacks := by
  unfold Obligations.ConversionsAndPacks
  refine ⟨fun s w v g td ts d a hpair h => ?_, fun g t d a b => writesWord_of_lane (fun _ => rfl) fun s w l => ?_⟩
  · have hp : td.isPacked = ts.isPacked := beq_iff_eq.1 (Bool.and_eq_true_iff.1 hpair).2
    refine cvt_becomes h fun v' l hholds => ?_
    rcases hd : td.int? with _ | ⟨n, sg⟩ <;> rcases hs : ts.int? with _ | ⟨k, tg⟩
    · dsimp only
      split
      · next hpacked => exact hholds _ (cvtBits_packed _ _ hp hd hs hpacked)
      · next hpacked =>
        refine hholds _ ?_
        rw [cvtBits_of_not_packed _ _ (Bool.eq_false_iff.2 hpacked), cvtValue_float_float _ hd hs]
        rfl
    · exact hholds _ (cvtBits_float_int _ _ hp hd hs)
    · exact hholds _ (cvtBits_int_float _ _ hd hs)
    · exact hholds _ (cvtBits_int_int _ _ hd hs)
  · rw [loWord_zeroExtend]
    cases t with
    | f16x2 | bf16x2 => exact packBits_halves ..
    | i8 | n8 | f8e4 | f8e5 => exact packTop_fields (k := 8) (by decide) ..
    | i4 | n4 | f4e2 => exact packTop_fields (k := 4) (by decide) ..

end Sys2Proof.Machine
end

section
/-! PROOFS. Row words (O12): how they issue, the greatest of a row by an order with −0 below +0, and the signs of RSUMEXP and RMEANVAR. -/

namespace Sys2Proof.Machine
open Sys2Proof

/-! ### Issue (R234) -/

theorem getElem?_destsV (d n j : Nat) : (destsV d n)[j]? = if j < n then some (.v (d + j)) else none := by
  rw [destsV, regsFrom, List.map_map, List.getElem?_map]
  split
  · next h => rw [List.getElem?_range h]; rfl
  · next h => rw [List.getElem?_eq_none (by simpa using h)]; rfl
/-- The values for the `n` registers from `d` in a lane: the first `n` words, each for its own register. -/
theorem mem_groupValues_destsV {d n l r k : Nat} {ws : List Word} {x : Word} :
    (r, k, x) ∈ groupValues (destsV d n) l ws ↔ k = l ∧ ∃ j < n, r = d + j ∧ ws[j]? = some x := by
  rw [groupValues, List.mem_filterMap]
  constructor
  · rintro ⟨⟨e, y⟩, hmem, hval⟩
    obtain ⟨j, hj⟩ := List.mem_iff_getElem?.1 hmem
    obtain ⟨he, hy⟩ := List.getElem?_zip_eq_some.1 hj
    rw [getElem?_destsV] at he
    split at he
    · next hlt =>
      cases he
      cases hval
      exact ⟨rfl, j, hlt, rfl, hy⟩
    · cases he
  · rintro ⟨rfl, j, hlt, rfl, hx⟩
    exact ⟨(.v (d + j), x), List.mem_iff_getElem?.2 ⟨j, List.getElem?_zip_eq_some.2 ⟨by rw [getElem?_destsV, if_pos hlt], hx⟩⟩, rfl⟩

section
variable {i : Instr} {g : Guard} {bf : Bool} {d a : VReg} {la : BitVec 4} {n : Nat}

/-- A row word puts the results of its acting lanes in flight. -/
theorem recorderWord_of_recWord {f : Warp → List Nat → List Nat → Nat → List Nat}
    (he : ∀ s, exec i s = recWord i g d la n s fun w lanes l => f w (recRow w bf a lanes) lanes l) :
    RecorderWord i g bf d a la n f := by
  intro s w v h
  refine ⟨_, (he s).trans (word_runs h _), ?_⟩
  intro lanes
  by_cases hl : lanes = []
  · rw [if_pos hl, if_pos (List.isEmpty_iff.2 hl)]
  · rw [if_neg hl, if_neg (List.isEmpty_iff.not.2 hl)]
    refine ⟨_, State.addPending_flies h.live _ la lanes _, fun r l x => ?_⟩
    simp only [List.mem_flatMap, mem_groupValues_destsV, List.getElem?_map]
    constructor
    · rintro ⟨l', hmem, rfl, hx⟩
      exact ⟨hmem, hx⟩
    · exact fun ⟨hmem, hx⟩ => ⟨l, hmem, rfl, hx⟩
end

/-! ### The greatest of a row (R139) -/

/-- The place of a value in the order of R139: as a rational or an infinity, with +0 above −0. -/
def FV.rank (x : FV) : WithBot (WithTop Rat) ×ₗ Bool := toLex (x.place, x.isZero false)

/-- Zeros, of either sign, stand at the place of zero. -/
theorem FV.place_eq_zero_iff {x : FV} (hx : x.isNan = false) :
    x.place = ((0 : Rat) : WithTop Rat) ↔ x.isZero true = true ∨ x.isZero false = true := by
  cases x with
  | nan => cases hx
  | inf a =>
    refine iff_of_false ?_ (by rintro (h | h) <;> cases h)
    cases a
    · exact (WithBot.coe_lt_coe.2 (WithTop.coe_lt_top (0 : Rat))).ne'
    · exact WithBot.bot_ne_coe
  | fin a m e =>
    have hunit : (2 : Rat) ^ e ≠ 0 := zpow_ne_zero _ two_ne_zero
    cases a <;> simp [FV.place, FV.isZero, FV.rat, hunit]
/-- A zero has one sign. -/
theorem FV.isZero_false_of_isZero_true {x : FV} (h : x.isZero true = true) : x.isZero false = false := by
  cases x with
  | nan | inf => cases h
  | fin a m e =>
    obtain ⟨-, ha⟩ := Bool.and_eq_true_iff.1 h
    rw [FV.isZero, beq_iff_eq.1 ha]
    exact Bool.and_false _
theorem FV.below_iff_rank {x y : FV} (hx : x.isNan = false) (hy : y.isNan = false) : x.below y = true ↔ x.rank < y.rank := by
  rw [FV.below, Bool.or_eq_true, FV.lt_eq_place hx hy, decide_eq_true_iff, Bool.and_eq_true, FV.rank, FV.rank,
    Prod.Lex.toLex_lt_toLex, Bool.lt_iff]
  refine or_congr_right ⟨fun ⟨hneg, hpos⟩ => ?_, fun ⟨hplace, hneg, hpos⟩ => ⟨?_, hpos⟩⟩
  · have hplace := ((FV.place_eq_zero_iff hx).2 (.inl hneg)).trans ((FV.place_eq_zero_iff hy).2 (.inr hpos)).symm
    exact ⟨hplace, FV.isZero_false_of_isZero_true hneg, hpos⟩
  · have hzero := (FV.place_eq_zero_iff hx).1 (hplace.trans ((FV.place_eq_zero_iff hy).2 (.inr hpos)))
    exact hzero.resolve_right (Bool.eq_false_iff.1 hneg)

theorem f32_max_plain (x y : Nat) : f32.max .plain x y =
    if f32.isNan x || f32.isNan y then f32.nan else if (f32.value x).below (f32.value y) then y else x := rfl

/-- The greatest so far is NaN from the first NaN on. -/
theorem foldl_max_nan (xs : List Nat) : xs.foldl (f32.max .plain) f32.nan = f32.nan := by
  induction xs with
  | nil => rfl
  | cons x r ih => exact ih
theorem foldl_max_of_nan_mem {xs : List Nat} (h : ∃ x ∈ xs, f32.isNan x = true) (y : Nat) : xs.foldl (f32.max .plain) y = f32.nan := by
  induction xs generalizing y with
  | nil => simp at h
  | cons x r ih =>
    rw [List.foldl_cons]
    by_cases hx : f32.isNan x = true
    · rw [f32_max_plain, hx, Bool.or_true, if_pos rfl, foldl_max_nan]
    · obtain ⟨z, hz, hn⟩ := h
      rcases List.mem_cons.1 hz with rfl | hr
      · exact absurd hn hx
      · exact ih ⟨z, hr, hn⟩ _
theorem recMax_of_nan_mem {xs : List Nat} (h : ∃ x ∈ xs, f32.isNan x = true) : recMax xs = f32.nan := by
  obtain ⟨z, hz, hn⟩ := h
  cases xs with
  | nil => cases hz
  | cons x r =>
    rw [recMax]
    rcases List.mem_cons.1 hz with rfl | hr
    · rw [if_pos hn, foldl_max_nan]
    · exact foldl_max_of_nan_mem ⟨z, hr, hn⟩ _

/-- Without a NaN the greatest so far is an element at whose rank or below all others stand. -/
theorem foldl_max_greatest {xs : List Nat} {y : Nat} (hy : f32.isNan y = false) (h : ∀ x ∈ xs, f32.isNan x = false) :
    xs.foldl (f32.max .plain) y ∈ y :: xs ∧ ∀ x ∈ y :: xs, (f32.value x).rank ≤ (f32.value (xs.foldl (f32.max .plain) y)).rank := by
  induction xs generalizing y with
  | nil => simp
  | cons x r ih =>
    obtain ⟨hx, hr⟩ := List.forall_mem_cons.1 h
    have hbelow := FV.below_iff_rank ((f32.isNan_value y).trans hy) ((f32.isNan_value x).trans hx)
    rw [List.foldl_cons, f32_max_plain, hy, hx, Bool.or_false, if_neg Bool.false_ne_true]
    split
    · next hlt =>
      obtain ⟨hmem, hall⟩ := ih hx hr
      exact ⟨List.mem_cons_of_mem _ hmem, List.forall_mem_cons.2 ⟨(hbelow.1 hlt).le.trans (hall x List.mem_cons_self), hall⟩⟩
    · next hge =>
      obtain ⟨hmem, hall⟩ := ih hy hr
      obtain ⟨hself, hrest⟩ := List.forall_mem_cons.1 hall
      refine ⟨?_, List.forall_mem_cons.2 ⟨hself, List.forall_mem_cons.2 ⟨(not_lt.1 (hbelow.not.1 hge)).trans hself, hrest⟩⟩⟩
      rcases List.mem_cons.1 hmem with heq | hin
      · rw [heq]
        exact List.mem_cons_self
      · exact List.mem_cons_of_mem _ (List.mem_cons_of_mem _ hin)
theorem recMax_greatest {xs : List Nat} (hne : xs ≠ []) (h : ∀ x ∈ xs, f32.isNan x = false) :
    recMax xs ∈ xs ∧ ∀ x ∈ xs, (f32.value (recMax xs)).below (f32.value x) = false := by
  cases xs with
  | nil => exact absurd rfl hne
  | cons y r =>
    obtain ⟨hy, hr⟩ := List.forall_mem_cons.1 h
    obtain ⟨hmem, hall⟩ := foldl_max_greatest hy hr
    have hmax : recMax (y :: r) = r.foldl (f32.max .plain) y := by rw [recMax, hy]; rfl
    rw [hmax]
    refine ⟨hmem, fun x hx => ?_⟩
    rw [Bool.eq_false_iff, Ne, FV.below_iff_rank ((f32.isNan_value _).trans (h _ hmem)) ((f32.isNan_value x).trans (h x hx))]
    exact (hall x hx).not_gt

/-! ### RSUMEXP (R140) -/

theorem recSumExp_of_nan {m s : Nat} {xs : List Nat} (h : (f32.isNan m || f32.isNan s || xs.any f32.isNan) = true) :
    recSumExp m s xs = (f32.nan, f32.nan) := by
  rw [recSumExp, if_pos h]

/-- −infinity in FP32. -/
def f32NegInf : Nat := 0xFF800000

/-- The greatest of a row of −infinity alone. -/
theorem recMax_replicate_negInf (n : Nat) : recMax (List.replicate (n + 1) f32NegInf) = f32NegInf := by
  have hfold (k : Nat) : (List.replicate k f32NegInf).foldl (f32.max .plain) f32NegInf = f32NegInf := by
    induction k with
    | zero => rfl
    | succ k ih => exact ih
  exact hfold n
theorem Fmt.round_of_isZero (f : Fmt) (rm : Rm) {x : FV} {neg : Bool} (h : x.isZero neg = true) : f.round rm x = f.signBit neg := by
  cases x with
  | nan | inf => cases h
  | fin a m e =>
    obtain ⟨hm, ha⟩ := Bool.and_eq_true_iff.1 h
    rw [beq_iff_eq.1 hm, beq_iff_eq.1 ha]
    rfl
/-- The sum of positive zeros is +0. -/
theorem recSum_replicate_zero (n : Nat) : recSum (List.replicate (n + 1) 0) = 0 := by
  rw [recSum, List.map_replicate]
  have hfin : ∀ t ∈ List.replicate (n + 1) (f32.value 0), t.finite = true := fun t ht => by
    rw [List.eq_of_mem_replicate ht]
    rfl
  have hsum : ((List.replicate (n + 1) (f32.value 0)).map FV.rat).sum = 0 := by
    have hzero : (f32.value 0).rat = 0 := by simp [show f32.value 0 = .fin false 0 (-149) from rfl, FV.rat]
    rw [List.map_replicate, List.sum_replicate, hzero, smul_zero]
  have hsign : zeroSign .rne (List.replicate (n + 1) (f32.value 0)) = false := by
    rw [zeroSign, List.replicate_succ, List.all_cons, show (f32.value 0).isZero true = false from rfl, Bool.false_and,
      if_neg Bool.false_ne_true]
    split <;> rfl
  have hround := f32.round_of_isZero .rne (sumExact_isZero .rne hfin hsum)
  rwa [hsign] at hround
/-- A block of −infinity alone leaves a fresh pair as it was. -/
theorem expBlock_negInf (n : Nat) : expBlock f32NegInf 0 (List.replicate (n + 1) f32NegInf) = (f32NegInf, 0) := by
  have hterm : expTerm f32NegInf f32NegInf = 0 := rfl
  have hmax : f32.max .plain f32NegInf f32NegInf = f32NegInf := rfl
  rw [expBlock, recMax_replicate_negInf, hmax, List.map_replicate, hterm, recSum_replicate_zero]
  rfl
theorem expBlocks_negInf (fuel n : Nat) : expBlocks fuel f32NegInf 0 (List.replicate n f32NegInf) = (f32NegInf, 0) := by
  induction fuel generalizing n with
  | zero => rfl
  | succ fuel ih =>
    cases n with
    | zero => rfl
    | succ n =>
      have hblock : expBlock f32NegInf 0 ((List.replicate (n + 1) f32NegInf).take 32) = (f32NegInf, 0) := by
        rw [List.take_replicate, show min 32 (n + 1) = min 31 n + 1 by omega, expBlock_negInf]
      rw [List.replicate_succ, expBlocks, ← List.replicate_succ, hblock, List.drop_replicate]
      · exact ih _
      · exact List.cons_ne_nil _ _
theorem recSumExp_negInf (n : Nat) : recSumExp 0xFF800000 0 (List.replicate n 0xFF800000) = (0xFF800000, 0) := by
  have hany : (List.replicate n f32NegInf).any f32.isNan = false := by
    rw [List.any_eq_false]
    intro x hx
    rw [List.eq_of_mem_replicate hx]
    decide
  have hnan : (f32.isNan f32NegInf || f32.isNan 0 || (List.replicate n f32NegInf).any f32.isNan) = false := by rw [hany]; rfl
  exact (if_neg (Bool.eq_false_iff.1 hnan)).trans (expBlocks_negInf _ n)

/-! ### RMEANVAR (R141) -/

/-- Is a value not negative, a zero's sign included? -/
def FV.Unsigned : FV → Prop
  | .nan => True
  | .inf neg => neg = false
  | .fin neg _ _ => neg = false

theorem FV.mul_self_unsigned (x : FV) : (x.mul x).Unsigned := by
  cases x with
  | nan => trivial
  | inf a => exact bne_self_eq_false a
  | fin a m e => exact bne_self_eq_false a
theorem FV.scaled_nonneg {x : FV} (hx : x.Unsigned) (lo : Int) : 0 ≤ x.scaled lo := by
  cases x with
  | nan | inf => exact le_rfl
  | fin a m e =>
    cases hx
    exact mul_nonneg (Int.natCast_nonneg m) (by positivity)
theorem sumScaled_nonneg {ts : List FV} (h : ∀ t ∈ ts, t.Unsigned) (lo : Int) : 0 ≤ sumScaled lo ts := by
  induction ts with
  | nil => exact le_rfl
  | cons t r ih =>
    obtain ⟨ht, hr⟩ := List.forall_mem_cons.1 h
    exact add_nonneg (FV.scaled_nonneg ht lo) (ih hr)
theorem FV.not_isInf_true {x : FV} (hx : x.Unsigned) : ¬ x.isInf true = true := by
  cases x with
  | nan | fin => exact Bool.false_ne_true
  | inf a =>
    cases hx
    exact Bool.false_ne_true
theorem FV.not_isZero_true {x : FV} (hx : x.Unsigned) : ¬ x.isZero true = true := by
  cases x with
  | nan | inf => exact Bool.false_ne_true
  | fin a m e =>
    cases hx
    exact Bool.eq_false_iff.1 (Bool.and_false _)
/-- A sum of terms without a sign has none: not even a zero's, for a term is left that is no −0. -/
theorem sumExact_unsigned {ts : List FV} (hne : ts ≠ []) (h : ∀ t ∈ ts, t.Unsigned) : (sumExact .rne ts).Unsigned := by
  have hinf : ts.any (FV.isInf true) = false := List.any_eq_false.2 fun t ht => FV.not_isInf_true (h t ht)
  have hzero : ts.all (FV.isZero true) = false := by
    obtain ⟨t, ht⟩ := List.exists_mem_of_ne_nil ts hne
    exact List.all_eq_false.2 ⟨t, ht, FV.not_isZero_true (h t ht)⟩
  have hsum : decide (sumScaled (minExp ts 0) ts < 0) = false := decide_eq_false (not_lt.2 (sumScaled_nonneg h _))
  simp only [sumExact, hinf, hzero, Bool.false_and, Bool.or_false, Bool.false_eq_true, if_false]
  split
  · trivial
  · split
    · rfl
    · split
      · split <;> rfl
      · exact hsum
theorem divRound_lt_of_unsigned {x : FV} (hx : x.Unsigned) (n : Nat) : divRound x n < 2 ^ 31 := by
  cases x with
  | nan => exact (by decide : f32.nan < 2 ^ 31)
  | inf a =>
    cases hx
    exact (by decide : f32.signBit false + f32.infBits < 2 ^ 31)
  | fin a m e =>
    cases hx
    exact Fmt.roundMag_lt f32_magsFit .rne false ..
/-- The variance, a mean of squares or NaN, has no sign. -/
theorem recMeanVar_lt {xs : List Nat} (hne : xs ≠ []) : (recMeanVar xs).2 < 2 ^ 31 := by
  rw [recMeanVar]
  split
  · exact (by decide : f32.nan < 2 ^ 31)
  · refine divRound_lt_of_unsigned (sumExact_unsigned (by simpa using hne) fun t ht => ?_) _
    obtain ⟨d, -, rfl⟩ := List.mem_map.1 ht
    exact d.mul_self_unsigned
theorem FV.special_of_not_finite {x : FV} (h : x.finite = false) : (x.isNan || x.isInf true || x.isInf false) = true := by
  cases x with
  | nan => rfl
  | inf a => cases a <;> rfl
  | fin => cases h
theorem recMeanVar_of_not_finite {xs : List Nat} (h : ∃ x ∈ xs, (f32.value x).finite = false) : (recMeanVar xs).2 = f32.nan := by
  obtain ⟨x, hx, hfin⟩ := h
  rw [recMeanVar, if_pos (List.any_eq_true.2 ⟨_, List.mem_map_of_mem hx, FV.special_of_not_finite hfin⟩)]

/-- Settles O12: the words issue in one way, and their results by the order of the row and the signs of its squares. -/
theorem recorderWords : Obligations.RecorderWords := by
  unfold Obligations.RecorderWords
  refine ⟨⟨?rmax, ?rsum, ?rsumexp, ?rmeanvar, ?rnorm⟩, fun _ => recMax_of_nan_mem, fun _ => recMax_greatest,
    fun _ _ _ => recSumExp_of_nan, recSumExp_negInf, fun _ hne _ => recMeanVar_lt hne, fun _ => recMeanVar_of_not_finite⟩
  case rmax => exact fun g bf d a la => recorderWord_of_recWord fun _ => rfl
  case rsum => exact fun g bf d a la => recorderWord_of_recWord fun _ => rfl
  case rsumexp => exact fun g bf d a la => recorderWord_of_recWord fun _ => rfl
  case rmeanvar => exact fun g bf d a la => recorderWord_of_recWord fun _ => rfl
  case rnorm => exact fun g d a la => recorderWord_of_recWord fun _ => rfl

end Sys2Proof.Machine
end

section
/-! PROOFS. Special functions (O8): their words, their special inputs, and their limits by the size of what is rounded. -/

namespace Sys2Proof.Machine
open Sys2Proof

/-! ### Results are encodings of FP32 (R136) -/

theorem f32_roundMag_lt (rm : Rm) (neg : Bool) (m : Nat) (e : Int) (sticky : Bool) : f32.roundMag rm neg m e sticky < 2 ^ 32 :=
  Fmt.roundMag_lt_width f32_magsFit rm neg m e sticky
theorem f32_nan_lt : f32.nan < 2 ^ 32 := by decide
theorem f32_infBits_lt : f32.infBits < 2 ^ 32 := by decide
theorem f32_signBit_lt (neg : Bool) : f32.signBit neg < 2 ^ 32 := by
  cases neg <;> decide
theorem f32_infinity_lt (neg : Bool) : f32.signBit neg + f32.infBits < 2 ^ 32 := by
  cases neg <;> decide

theorem exp2V_lt (x : FV) : exp2V x < 2 ^ 32 := by
  cases x with
  | nan => exact f32_nan_lt
  | inf neg => cases neg <;> decide
  | fin neg m e =>
    simp only [exp2V]
    split_ifs
    · decide
    · exact f32_infBits_lt
    · exact f32_round_lt ..
    · exact f32_round_lt ..
    · exact f32_roundMag_lt ..
theorem log2V_lt (x : FV) : log2V x < 2 ^ 32 := by
  cases x with
  | nan => exact f32_nan_lt
  | inf neg => cases neg <;> decide
  | fin neg m e =>
    simp only [log2V]
    split_ifs
    · exact f32_infinity_lt true
    · exact f32_nan_lt
    · exact f32_round_lt ..
    · exact f32_roundMag_lt ..
theorem rcpV_lt (x : FV) : rcpV x < 2 ^ 32 := by
  cases x with
  | nan => exact f32_nan_lt
  | inf neg => exact f32_signBit_lt neg
  | fin neg m e =>
    rw [rcpV]
    split
    · exact f32_infinity_lt neg
    · exact f32_roundMag_lt ..
theorem rsqrtV_lt (x : FV) : rsqrtV x < 2 ^ 32 := by
  cases x with
  | nan => exact f32_nan_lt
  | inf neg => cases neg <;> decide
  | fin neg m e =>
    simp only [rsqrtV]
    split
    · exact f32_infinity_lt neg
    · split
      · exact f32_nan_lt
      · exact f32_roundMag_lt ..
theorem tanhV_lt (x : FV) : tanhV x < 2 ^ 32 := by
  cases x with
  | nan => exact f32_nan_lt
  | inf neg => exact f32_round_lt .rne (.fin neg 1 0)
  | fin neg m e =>
    simp only [tanhV]
    split
    · exact f32_round_lt ..
    · split
      · exact f32_round_lt ..
      · exact f32_roundMag_lt ..
theorem logisV_lt (x : FV) : logisV x < 2 ^ 32 := by
  cases x with
  | nan => exact f32_nan_lt
  | inf neg => cases neg <;> decide
  | fin neg m e =>
    simp only [logisV]
    split
    · exact f32_round_lt ..
    · split
      · decide
      · split
        · exact f32_round_lt ..
        · exact f32_roundMag_lt ..

/-! ### The words (R231) -/

/-- A special word leaves its function's flushed result in each lane, or that result rounded once more to FP16. -/
theorem specialWord_becomes {s : State} {w v : Warp} {i : Instr} {g : Guard} {h : Bool} {d : VReg} {a : Src} {f : FV → Nat}
    (he : exec i s = specialWord i g h d a f s) (hf : ∀ x, f x < 2 ^ 32) (hr : Runs s w v i) : WarpBecomes i s fun v' =>
      VectorWrite v v' d.toNat 1 (w.acts s.cur.slices g) fun l =>
        let md := modeOf w s.cur.slices
        let r := f32.flush md.fout (f (f32.read md (w.src32 a l).toNat))
        (v'.vget d.toNat l).toNat = if h then f16.round .rne (f32.value r) else r := by
  refine becomes_of_onWarp (he.trans (show _ = fpWord i g .f32 d s _ from rfl)) hr
    (vectorWrite_vsetW _ (FTy_width .f32) _ _ _ _ fun l _ _ hz => ?_)
  rw [hz]
  refine toNat_loWord_ofNat ?_
  split
  · exact (Fmt.round_lt f16_magsFit _ _).trans (by decide)
  · exact f32.flush_lt _ (hf _)

/-! ### Limits of EXP2 (Table 5.4) -/

/-- The rounding of a magnitude whose last place is 2^q. -/
theorem f32_roundMag_eq (rm : Rm) (neg : Bool) {m : Nat} {e q : Int} {sticky : Bool} (hpos : m ≠ 0 ∨ sticky = true)
    (hq : max (e + Nat.log2 m - 23) (-149) = q) : f32.roundMag rm neg m e sticky =
      let mag := (q + 149).toNat * 2 ^ 23 + roundInt rm neg m (e - q) sticky
      f32.signBit neg + if mag ≤ f32.maxBits then mag else f32.overflow rm neg := by
  have hsome : (decide (m = 0) && !sticky) = false := by
    rcases hpos with h | h <;> simp [h]
  have hfield : q + (f32.mbits : Int) + (f32.bias : Int) - 1 = q + 149 := by
    change q + 23 + 127 - 1 = q + 149
    omega
  subst hq
  rw [Fmt.roundMag, if_neg (Bool.eq_false_iff.1 hsome)]
  dsimp only
  rw [← hfield]
  rfl

/-- A significand brought to 24 bits has its top bit. -/
theorem le_roundInt_of_log2 (rm : Rm) (neg : Bool) {m : Nat} (sticky : Bool) (hm : m ≠ 0) :
    2 ^ 23 ≤ roundInt rm neg m (23 - Nat.log2 m) sticky := by
  have hlow : 2 ^ Nat.log2 m ≤ m := Nat.log2_self_le hm
  rw [roundInt]
  split
  · next h =>
    refine le_trans ?_ (Nat.le_add_right _ _)
    calc 2 ^ 23 = 2 ^ Nat.log2 m * 2 ^ (23 - (Nat.log2 m : Int)).toNat := by rw [← Nat.pow_add]; congr 1; omega
      _ ≤ m * 2 ^ (23 - (Nat.log2 m : Int)).toNat := Nat.mul_le_mul_right _ hlow
  · next h =>
    refine le_trans ((Nat.le_div_iff_mul_le (Nat.two_pow_pos _)).2 ?_) (Nat.le_add_right _ _)
    rw [← Nat.pow_add, show 23 + (-(23 - (Nat.log2 m : Int))).toNat = Nat.log2 m by omega]
    exact hlow
/-- What is below one half of the last place goes away. -/
theorem roundInt_rne_eq_zero (neg : Bool) {m : Nat} {sh : Int} (sticky : Bool) (hsh : sh < 0) (hm : 2 * m < 2 ^ (-sh).toNat) :
    roundInt .rne neg m sh sticky = 0 := by
  rw [roundInt, if_neg (not_le.2 hsh)]
  dsimp only
  generalize 2 ^ (-sh).toNat = den at hm
  have hup : roundsUp .rne neg (m / den) (m % den) den sticky = false := by
    rw [roundsUp, Nat.mod_eq_of_lt (by omega), decide_eq_false (by omega), beq_eq_false_iff_ne.2 (by omega)]
    rfl
  rw [hup, Nat.div_eq_of_lt (by omega)]
  rfl

/-- A magnitude of 2^128 or more overflows. -/
theorem f32_roundMag_overflow {m : Nat} {e : Int} (sticky : Bool) (hm : m ≠ 0) (h : 128 ≤ e + Nat.log2 m) :
    f32.roundMag .rne false m e sticky = f32.infBits := by
  have hbits := le_roundInt_of_log2 .rne false sticky hm
  have hmax : f32.maxBits < 255 * 2 ^ 23 := by decide
  rw [f32_roundMag_eq .rne false (.inl hm) (max_eq_left (by omega))]
  dsimp only
  rw [show e - (e + Nat.log2 m - 23) = 23 - (Nat.log2 m : Int) by omega, if_neg (by omega)]
  rfl
/-- A magnitude below 2^-150, half the least one, is rounded to zero. -/
theorem f32_roundMag_underflow {m k : Nat} {e : Int} (sticky : Bool) (hm : m < 2 ^ k) (h : e + k ≤ -150) :
    f32.roundMag .rne false m e sticky = 0 := by
  by_cases hpos : m ≠ 0 ∨ sticky = true
  · have hlog : Nat.log2 m ≤ k := by
      rcases eq_or_ne m 0 with rfl | hne
      · exact Nat.zero_le k
      · exact ((Nat.log2_lt hne).2 hm).le
    have hhalf : 2 * m < 2 ^ (-(e - -149)).toNat :=
      calc 2 * m < 2 ^ (k + 1) := by rw [pow_succ']; omega
        _ ≤ 2 ^ (-(e - -149)).toNat := Nat.pow_le_pow_right two_pos (by omega)
    rw [f32_roundMag_eq .rne false hpos (max_eq_right (by omega)), roundInt_rne_eq_zero false sticky (by omega) hhalf]
    rfl
  · obtain ⟨hzero, hrest⟩ := not_or.1 hpos
    rw [not_not.1 hzero, Bool.eq_false_iff.2 hrest]
    rfl

theorem spOne_pos : 0 < spOne := Nat.two_pow_pos _
theorem spOne_le_expFrac (r : Nat) : spOne ≤ expFrac r := by
  rw [expFrac, expTerms]
  exact Nat.le_add_right _ _
theorem expTerms_mono {r r' t t' : Nat} (hr : r ≤ r') (ht : t ≤ t') (fuel j : Nat) : expTerms r fuel j t ≤ expTerms r' fuel j t' := by
  induction fuel generalizing j t t' with
  | zero => exact le_rfl
  | succ fuel ih =>
    exact Nat.add_le_add ht (ih (Nat.div_le_div_right (Nat.div_le_div_right (Nat.mul_le_mul ht hr))) _)
theorem expFrac_ln2_lt : expFrac ln2 < 2 * spOne := by decide +kernel
/-- A power of two between whole ones is below the next. -/
theorem expFrac_lt {r : Nat} (hr : r ≤ ln2) : expFrac r < 2 * spOne := (expTerms_mono hr le_rfl _ _).trans_lt expFrac_ln2_lt

/-- EXP2 of a number of moderate size rounds a magnitude from 2^n up to 2^(n+1), where n is the number's whole part. -/
theorem exp2V_rounds {neg : Bool} {m : Nat} {e : Int} (hm : m ≠ 0) (hsize : magAtLeast m e 8 = false) :
    ∃ y k sticky, 2 ^ k ≤ y ∧ y < 2 * 2 ^ k ∧
      exp2V (.fin neg m e) = f32.roundMag .rne false y (fixedOf neg m e / (spOne : Int) - (k : Nat)) sticky := by
  rw [exp2V, hsize, if_neg Bool.false_ne_true, if_neg hm]
  split
  · exact ⟨1, 0, false, le_rfl, by decide, by rw [Nat.cast_zero, sub_zero]; rfl⟩
  · have hone : 2 ^ spBits = spOne := spOne.eq_1.symm
    have hpart : (fixedOf neg m e % (spOne : Int)).toNat ≤ spOne := by
      have := Int.emod_lt_of_pos (fixedOf neg m e) (Int.natCast_pos.2 spOne_pos)
      omega
    have hfrac := expFrac_lt (Nat.div_le_of_le_mul (Nat.mul_le_mul_right ln2 hpart))
    rw [← hone] at hfrac
    exact ⟨_, spBits, true, hone.trans_le (spOne_le_expFrac _), hfrac, rfl⟩

theorem cast_spOne : ((spOne : Nat) : Rat) = 2 ^ (spBits : Int) := by
  rw [spOne, Nat.cast_pow, Nat.cast_ofNat, zpow_natCast]
/-- A number of at least `k` has at least `k` units of 1. -/
theorem mul_spOne_le_fixedOf {k m : Nat} {e : Int} (h : (k : Rat) ≤ m * 2 ^ e) : (k * spOne : Int) ≤ fixedOf false m e := by
  have hunits : (k : Rat) * spOne ≤ m * 2 ^ (e + spBits) := by
    rw [cast_spOne, zpow_add₀ two_ne_zero, ← mul_assoc]
    exact mul_le_mul_of_nonneg_right h (by positivity)
  rw [fixedOf, if_neg Bool.false_ne_true]
  split
  · next hs =>
    have hpow : (2 : Rat) ^ (e + spBits) = 2 ^ (e + spBits).toNat := by rw [← zpow_natCast, Int.toNat_of_nonneg hs]
    rw [hpow] at hunits
    exact_mod_cast hunits
  · next hs =>
    have hpow : (2 : Rat) ^ (e + spBits) * 2 ^ (-(e + spBits)).toNat = 1 := by
      rw [← zpow_natCast, Int.toNat_of_nonneg (by omega), ← zpow_add₀ two_ne_zero, add_neg_cancel, zpow_zero]
    have hwhole : (k : Rat) * spOne * 2 ^ (-(e + spBits)).toNat ≤ m := by
      refine (mul_le_mul_of_nonneg_right hunits (by positivity)).trans_eq ?_
      rw [mul_assoc, hpow, mul_one]
    refine (Int.le_ediv_iff_mul_le (by positivity)).2 ?_
    exact_mod_cast hwhole

theorem exp2V_of_ge {neg : Bool} {m : Nat} {e : Int} (h : 128 ≤ (FV.fin neg m e).rat) : exp2V (.fin neg m e) = 0x7F800000 := by
  rw [FV.rat_fin] at h
  have hmag : (0 : Rat) ≤ m * 2 ^ e := by positivity
  cases neg with
  | true =>
    rw [signOf, if_pos rfl] at h
    linarith
  | false =>
    rw [signOf, if_neg Bool.false_ne_true, one_mul] at h
    have hm : m ≠ 0 := by
      rintro rfl
      norm_num at h
    cases hsize : magAtLeast m e 8 with
    | true => rw [exp2V, if_pos hsize]; rfl
    | false =>
      obtain ⟨y, k, sticky, hlow, -, hexp⟩ := exp2V_rounds (neg := false) hm hsize
      have hwhole : 128 ≤ fixedOf false m e / (spOne : Int) :=
        (Int.le_ediv_iff_mul_le (Int.natCast_pos.2 spOne_pos)).2 (mul_spOne_le_fixedOf (k := 128) (by exact_mod_cast h))
      have hy : y ≠ 0 := (Nat.two_pow_pos k |>.trans_le hlow).ne'
      have hlog : k ≤ Nat.log2 y := (Nat.le_log2 hy).2 hlow
      rw [hexp, f32_roundMag_overflow sticky hy (by omega)]
      rfl
theorem exp2V_of_le {neg : Bool} {m : Nat} {e : Int} (h : (FV.fin neg m e).rat ≤ -151) : exp2V (.fin neg m e) = 0 := by
  rw [FV.rat_fin] at h
  have hmag : (0 : Rat) ≤ m * 2 ^ e := by positivity
  cases neg with
  | false =>
    rw [signOf, if_neg Bool.false_ne_true] at h
    linarith
  | true =>
    rw [signOf, if_pos rfl] at h
    have hm : m ≠ 0 := by
      rintro rfl
      norm_num at h
    cases hsize : magAtLeast m e 8 with
    | true => rw [exp2V, if_pos hsize]; rfl
    | false =>
      obtain ⟨y, k, sticky, -, hhigh, hexp⟩ := exp2V_rounds (neg := true) hm hsize
      have hwhole : fixedOf true m e / (spOne : Int) ≤ -151 := by
        have hunits := mul_spOne_le_fixedOf (k := 151) (m := m) (e := e) (by push_cast; linarith)
        have hopp : fixedOf true m e = -fixedOf false m e := rfl
        refine Int.ediv_le_of_le_mul (Int.natCast_pos.2 spOne_pos) ?_
        push_cast at hunits
        linarith
      rw [hexp, f32_roundMag_underflow (k := k + 1) sticky (by rw [pow_succ']; exact hhigh) (by push_cast; omega)]

/-! ### Limits of TANH and LOGIS (R137) -/

theorem FV.lt_fin (a b : Bool) (m n : Nat) (e g : Int) :
    (FV.fin a m e).lt (.fin b n g) = decide ((FV.fin a m e).rat < (FV.fin b n g).rat) := by
  rw [FV.lt_eq_place rfl rfl]
  exact decide_eq_decide.2 (by rw [FV.place, FV.place, WithBot.coe_lt_coe, WithTop.coe_lt_coe])

theorem tanhV_of_ge (neg : Bool) {m : Nat} {e : Int} (h : 19 / 2 ≤ (FV.fin false m e).rat) :
    tanhV (.fin neg m e) = f32.round .rne (.fin neg 1 0) := by
  have hsmall : (FV.fin false m e).lt (.fin false 1 (-12)) = false := by
    rw [FV.lt_fin, decide_eq_false_iff_not, not_lt]
    exact le_trans (by norm_num [FV.rat]) h
  have hlarge : (FV.fin false m e).lt (.fin false 19 (-1)) = false := by
    rw [FV.lt_fin, decide_eq_false_iff_not, not_lt]
    exact le_trans (by norm_num [FV.rat]) h
  rw [tanhV, hsmall, hlarge, if_neg Bool.false_ne_true, Bool.not_false, if_pos rfl]
/-- TANH of a zero is that zero. -/
theorem tanhV_zero (neg : Bool) (e : Int) : tanhV (.fin neg 0 e) = f32.signBit neg := by
  have hsmall : (FV.fin false 0 e).lt (.fin false 1 (-12)) = true := by
    rw [FV.lt_fin, decide_eq_true_iff]
    norm_num [FV.rat]
  have hself : tanhV (.fin neg 0 e) = f32.round .rne (.fin neg 0 e) := by rw [tanhV, if_pos hsmall]
  rw [hself, f32.round_of_isZero .rne (neg := neg) (by rw [FV.isZero, beq_self_eq_true, beq_self_eq_true]; rfl)]
theorem logisV_of_ge {neg : Bool} {m : Nat} {e : Int} (h : 18 ≤ (FV.fin neg m e).rat) : logisV (.fin neg m e) = 0x3F800000 := by
  cases neg with
  | true =>
    rw [FV.rat_fin, signOf, if_pos rfl] at h
    have hmag : (0 : Rat) ≤ m * 2 ^ e := by positivity
    linarith
  | false =>
    have hlarge : (FV.fin false m e).lt (.fin false 18 0) = false := by
      rw [FV.lt_fin, decide_eq_false_iff_not, not_lt]
      exact le_trans (by norm_num [FV.rat]) h
    rw [logisV, hlarge, if_pos (by decide)]
    rfl
theorem logisV_of_le {neg : Bool} {m : Nat} {e : Int} (h : (FV.fin neg m e).rat ≤ -105) : logisV (.fin neg m e) = 0 := by
  have hmag : (0 : Rat) ≤ m * 2 ^ e := by positivity
  cases neg with
  | false =>
    rw [FV.rat_fin, signOf, if_neg Bool.false_ne_true] at h
    linarith
  | true =>
    have hlarge : (FV.fin false m e).lt (.fin false 105 0) = false := by
      rw [FV.lt_fin, decide_eq_false_iff_not, not_lt, FV.rat_fin false m e, signOf, if_neg Bool.false_ne_true, one_mul]
      rw [FV.rat_fin, signOf, if_pos rfl] at h
      norm_num [FV.rat]
      linarith
    rw [logisV, hlarge, Bool.not_true, Bool.false_and, if_neg Bool.false_ne_true, if_pos (by decide)]

/-- Settles O8: the words by their functions' results, which fit FP32; the limits by the size of what is rounded. -/
theorem specialFunctions : Obligations.SpecialFunctions := by
  unfold Obligations.SpecialFunctions
  refine ⟨fun p hp s w v g h d a hr => ?words, ?inputs, fun _ _ _ => exp2V_of_ge, fun _ _ _ => exp2V_of_le,
    fun _ _ h => ⟨tanhV_of_ge false h, tanhV_of_ge true h⟩, fun _ _ _ => logisV_of_ge, fun _ _ _ => logisV_of_le⟩
  case words =>
    simp only [List.mem_cons, List.not_mem_nil, or_false] at hp
    rcases hp with rfl | rfl | rfl | rfl | rfl | rfl
    · exact specialWord_becomes rfl exp2V_lt hr
    · exact specialWord_becomes rfl log2V_lt hr
    · exact specialWord_becomes rfl rcpV_lt hr
    · exact specialWord_becomes rfl rsqrtV_lt hr
    · exact specialWord_becomes rfl tanhV_lt hr
    · exact specialWord_becomes rfl logisV_lt hr
  case inputs =>
    refine ⟨?nan, ⟨rfl, rfl⟩, fun _ _ => rfl, ?log2Neg, ⟨rfl, rfl⟩, fun _ => ⟨rfl, rfl⟩, ⟨rfl, rfl⟩, fun _ => ⟨rfl, rfl⟩,
      ?rsqrtNeg, ⟨rfl, rfl⟩, fun e => ⟨tanhV_zero false e, tanhV_zero true e⟩, ⟨rfl, rfl⟩, rfl, rfl⟩
    case nan =>
      intro f hf
      simp only [List.mem_cons, List.not_mem_nil, or_false] at hf
      rcases hf with rfl | rfl | rfl | rfl | rfl | rfl <;> rfl
    case log2Neg => exact fun m e hm => by rw [log2V, if_neg hm.ne', if_pos rfl]; rfl
    case rsqrtNeg => exact fun m e hm => by rw [rsqrtV, if_neg hm.ne', if_pos rfl]; rfl

end Sys2Proof.Machine
end

section
/-! PROOFS. The access slice (O43): what stops it, the first load that one meets, and the control words that are evaluated ahead. -/

namespace Sys2Proof.Machine
open Sys2Proof

/-! ### Where the access slices stand -/

/-- The access slice of one slice goes on to a place; the others stay where they are. -/
def movePast (as_ : List (Nat × DWord × Nat)) (p : Nat × DWord × Nat) : List (Nat × DWord × Nat) :=
  as_.map fun e => if e.1 = p.1 then p else e

theorem foldl_movePast_keeps {ps : List (Nat × DWord × Nat)} {p : Nat × DWord × Nat} (hother : ∀ q ∈ ps, q.1 ≠ p.1)
    (as_ : List (Nat × DWord × Nat)) (has : ∀ e ∈ as_, e.1 = p.1 → e = p) : ∀ e ∈ ps.foldl movePast as_, e.1 = p.1 → e = p := by
  induction ps generalizing as_ with
  | nil => exact has
  | cons q r ih =>
    obtain ⟨hq, hr⟩ := List.forall_mem_cons.1 hother
    refine ih hr _ fun e he hslice => ?_
    obtain ⟨x, hx, rfl⟩ := List.mem_map.1 he
    split at hslice
    · exact absurd hslice hq
    · next hne => rw [if_neg hne]; exact has x hx hslice
/-- Of the places that access slices of different slices go to, each is where its slice's one stands in the end. -/
theorem foldl_movePast_stands {ps : List (Nat × DWord × Nat)} (hslices : (ps.map (·.1)).Nodup) {p : Nat × DWord × Nat} (hp : p ∈ ps)
    (as_ : List (Nat × DWord × Nat)) : ∀ e ∈ ps.foldl movePast as_, e.1 = p.1 → e = p := by
  induction ps generalizing as_ with
  | nil => cases hp
  | cons q r ih =>
    obtain ⟨hq, hr⟩ := List.nodup_cons.1 hslices
    rcases List.mem_cons.1 hp with rfl | hp
    · refine foldl_movePast_keeps (ps := r) (fun x hx hslice => hq (List.mem_map.2 ⟨x, hx, hslice⟩)) (movePast as_ p)
        fun e he hslice => ?_
      obtain ⟨x, -, rfl⟩ := List.mem_map.1 he
      split at hslice
      · next heq => rw [if_pos heq]
      · next hne => exact absurd hslice hne
    · exact ih hr hp _

/-- What is picked of what the access slices meet, each with its slice, names no slice twice. -/
theorem filterMap_slices_nodup {α β : Type} {rs : List (Nat × α)} (h : (rs.map (·.1)).Nodup) (f : Nat × α → Option (Nat × β))
    (hf : ∀ r m, f r = some m → m.1 = r.1) : ((rs.filterMap f).map (·.1)).Nodup := by
  have hsub : ((rs.filterMap f).map (·.1)).Sublist (rs.map (·.1)) := by
    clear h
    induction rs with
    | nil => exact .slnil
    | cons r rs ih =>
      rw [List.filterMap_cons]
      cases hr : f r with
      | none => exact ih.cons _
      | some m => rw [List.map_cons, List.map_cons, hf r m hr]; exact ih.cons_cons _
  exact hsub.nodup h

theorem State.piccoloAll_slices_nodup (s : State) (k : Nat) (w : Warp) : ((s.piccoloAll k w).map (·.1)).Nodup := by
  unfold State.piccoloAll
  split
  · exact List.nodup_nil
  · rw [List.map_map]
    exact (List.map_id (maskSlices w.alive)).symm ▸ List.nodup_range.filter _

/-- Without access slicing, in a halt, and with a fault held, the access slices meet nothing. -/
theorem State.piccoloAll_stopped {s : State} {w : Warp} (k : Nat)
    (h : s.sliced w = false ∨ s.frozen w = true ∨ w.picc.held.isSome = true) : s.piccoloAll k w = [] := by
  rw [State.piccoloAll, if_pos]
  rcases h with h | h | h <;> simp [h]

/-! ### Loads performed ahead (R250, R251) -/

/-- Access slices that go past words move in `at_` and `passed` alone. -/
theorem Piccolo.foldl_goPast (pc : DWord) (ms : List (Nat × Nat × List DWord)) (x : Piccolo) :
    ∃ ps, ms.foldl (fun x a => x.goPast a.1 pc a.2.1 a.2.2) x =
      { x with at_ := (ms.map fun a => (a.1, pc, a.2.1 + 1)).foldl movePast x.at_, passed := ps } := by
  induction ms generalizing x with
  | nil => exact ⟨_, rfl⟩
  | cons a r ih =>
    obtain ⟨ps, hps⟩ := ih (x.goPast a.1 pc a.2.1 a.2.2)
    exact ⟨ps, hps⟩
theorem Piccolo.performed_rest (x : Piccolo) (alive m : BitVec 16) (pc : DWord) :
    ∃ ps, x.performed alive m pc = { x with passed := ps } := by
  unfold Piccolo.performed
  split
  · exact ⟨_, rfl⟩
  · exact ⟨_, rfl⟩
/-- A load performed ahead moves in `at_` the access slices that stand at it, and beside them `passed` alone. -/
theorem Piccolo.loaded_rest (x : Piccolo) (alive : BitVec 16) (pc : DWord) (ms : List (Nat × Nat × List DWord)) :
    ∃ ps, x.loaded alive pc ms = { x with at_ := (ms.map fun a => (a.1, pc, a.2.1 + 1)).foldl movePast x.at_, passed := ps } := by
  obtain ⟨qs, hgone⟩ := Piccolo.foldl_goPast pc ms x
  obtain ⟨ps, hdone⟩ := Piccolo.performed_rest (ms.foldl (fun x a => x.goPast a.1 pc a.2.1 a.2.2) x) alive
    (ms.foldl (fun m a => m ||| BitVec.ofNat 16 (2 ^ a.1)) 0) pc
  exact ⟨ps, by rw [Piccolo.loaded, hdone, hgone]⟩

theorem mem_atLoad {rs : List (Nat × Ahead)} {j pos : Nat} {pc : DWord} {i : Instr} {used : List DWord}
    (h : (j, Ahead.load pc i pos used) ∈ rs) : (j, pos, used) ∈ atLoad pc rs :=
  List.mem_filterMap.2 ⟨_, h, if_pos rfl⟩
theorem atLoad_slices_nodup {rs : List (Nat × Ahead)} (h : (rs.map (·.1)).Nodup) (pc : DWord) : ((atLoad pc rs).map (·.1)).Nodup := by
  refine filterMap_slices_nodup h _ fun r m hm => ?_
  split at hm
  · split at hm
    · exact (Option.some.inj hm) ▸ rfl
    · cases hm
  · cases hm

section
variable {s : State} {core slot : Nat} {w : Warp} (hw : s.warp? core slot = some w)
include hw

theorem exec_piccoloLoadIssue_idle (h : firstLoad (s.piccoloAll core w) = none) : exec (.piccoloLoadIssue core slot) s = .next s := by
  show execPiccoloLoadIssue core slot s = _
  simp only [execPiccoloLoadIssue, hw, h]

variable {pc : DWord} {i : Instr} (hfirst : firstLoad (s.piccoloAll core w) = some (pc, i))
include hfirst

theorem exec_piccoloLoadIssue_held {tr : Trap} (htr : probeTrap s core slot w.alive pc w i = some tr) (hstop : tr.waits = false) :
    exec (.piccoloLoadIssue core slot) s = .next (s.setWarp core slot { w with picc := { w.picc with held := some (pc, tr) } }) := by
  show execPiccoloLoadIssue core slot s = _
  simp only [execPiccoloLoadIssue, State.modWarp, hw, hfirst, htr, hstop, Bool.false_eq_true, if_false]
theorem exec_piccoloLoadIssue_waits (hprobe : probeTrap s core slot w.alive pc w i = none) (hload : s.queueLoad core slot w i = none) :
    exec (.piccoloLoadIssue core slot) s = .next (s.askQueue core slot w i) := by
  show execPiccoloLoadIssue core slot s = _
  simp only [execPiccoloLoadIssue, hw, hfirst, hprobe, hload]
theorem exec_piccoloLoadIssue_performs {u : State} (hprobe : probeTrap s core slot w.alive pc w i = none)
    (hload : s.queueLoad core slot w i = some u) :
    exec (.piccoloLoadIssue core slot) s = .next
      (u.modWarp core slot fun v => { v with picc := v.picc.loaded v.alive pc (atLoad pc (s.piccoloAll core w)) }) := by
  show execPiccoloLoadIssue core slot s = _
  simp only [execPiccoloLoadIssue, hw, hfirst, hprobe, hload]
end

/-! ### Control words evaluated ahead (R276) -/

/-- Does an access slice stand at a control word? -/
def Ahead.isControl : Ahead → Bool
  | .control .. => true
  | _ => false
/-- The control word that the access slice of a slice stands at, with the slice and its place. -/
def metControl (r : Nat × Ahead) : Option (Nat × DWord × Instr × Nat) :=
  match r.2 with
  | .control pc _ i pos _ => some (r.1, pc, i, pos)
  | _ => none
theorem metControl_slice {r : Nat × Ahead} {m : Nat × DWord × Instr × Nat} (h : metControl r = some m) : m.1 = r.1 := by
  unfold metControl at h
  split at h
  · exact Option.some.inj h ▸ rfl
  · cases h
theorem length_filter_isControl (rs : List (Nat × Ahead)) : (rs.filter fun r => r.2.isControl).length = (rs.filterMap metControl).length := by
  induction rs with
  | nil => rfl
  | cons r rs ih =>
    obtain ⟨j, a⟩ := r
    cases a with
    | control pc len i pos used => exact congrArg (· + 1) ih
    | load | stop => exact ih

/-- Evaluating what the access slices meet moves those that stand at control words past them and records their outcomes, in order. -/
theorem foldl_evaluated (w : Warp) (rs : List (Nat × Ahead)) (x : Piccolo) :
    ∃ ps, (rs.filter fun r => r.2.isControl).foldl (Piccolo.evaluated w) x =
      { x with
        at_ := ((rs.filterMap metControl).map fun m => (m.1, m.2.1, m.2.2.2 + 1)).foldl movePast x.at_
        passed := ps
        outcomes := x.outcomes ++ (rs.filterMap metControl).map fun m => (m.1, takesControl w m.1 m.2.2.1) } := by
  induction rs generalizing x with
  | nil => exact ⟨x.passed, by simp⟩
  | cons r rs ih =>
    obtain ⟨j, a⟩ := r
    cases a with
    | control pc len i pos used =>
      obtain ⟨ps, hps⟩ := ih (Piccolo.evaluated w x (j, .control pc len i pos used))
      have hrest : x.outcomes ++ (j, takesControl w j i) :: ((rs.filterMap metControl).map fun m => (m.1, takesControl w m.1 m.2.2.1)) =
          (x.outcomes ++ [(j, takesControl w j i)]) ++ (rs.filterMap metControl).map fun m => (m.1, takesControl w m.1 m.2.2.1) := by simp
      refine ⟨ps, hps.trans ?_⟩
      show _ = ({ x with at_ := _, passed := ps, outcomes := x.outcomes ++ (j, takesControl w j i) :: _ } : Piccolo)
      rw [hrest]
      rfl
    | load | stop => exact ih x

section
variable {s : State} {core slot : Nat} {w : Warp} (hw : s.warp? core slot = some w)
include hw

theorem exec_piccoloBranchEval_eq (hroom : w.picc.outcomes.length + ((s.piccoloAll core w).filterMap metControl).length ≤ 256) :
    exec (.piccoloBranchEval core slot) s = .next (
      if (s.piccoloAll core w).filterMap metControl = [] then s
      else s.setWarp core slot
        { w with picc := ((s.piccoloAll core w).filter fun r => r.2.isControl).foldl (Piccolo.evaluated w) w.picc }) := by
  have hlen := length_filter_isControl (s.piccoloAll core w)
  have hall : ((s.piccoloAll core w).filter fun r => r.2.isControl).take (256 - w.picc.outcomes.length) =
      (s.piccoloAll core w).filter fun r => r.2.isControl := List.take_of_length_le (by omega)
  have hempty : ((s.piccoloAll core w).filter fun r => r.2.isControl).isEmpty = true ↔ (s.piccoloAll core w).filterMap metControl = [] := by
    rw [List.isEmpty_iff, ← List.length_eq_zero_iff, hlen, List.length_eq_zero_iff]
  show execPiccoloBranchEval core slot s = _
  rw [execPiccoloBranchEval, hw]
  change Host.Outcome.next (if (((s.piccoloAll core w).filter fun r => r.2.isControl).take _).isEmpty then s else
    s.modWarp core slot fun v => { v with picc := (((s.piccoloAll core w).filter fun r => r.2.isControl).take _).foldl _ v.picc }) = _
  rw [hall, if_congr hempty rfl rfl, State.modWarp, hw]
theorem exec_piccoloBranchEval_idle (h : s.piccoloAll core w = []) : exec (.piccoloBranchEval core slot) s = .next s := by
  show execPiccoloBranchEval core slot s = _
  rw [execPiccoloBranchEval, hw]
  dsimp only
  rw [h, List.filter_nil, List.take_nil]
  rfl
end

/-- Settles O43: nothing is met where the access slices stop; a load by what its probe and its queue allow; and the control words by what
evaluating them leaves of where the access slices stand. -/
theorem accessSlice : Obligations.AccessSlice := by
  unfold Obligations.AccessSlice
  refine ⟨fun s core slot w hw hstop => ?_, fun s core slot w pc i hw hfirst => ⟨fun tr htr hwaits => ?_,
    exec_piccoloLoadIssue_waits hw hfirst, fun u v hprobe hload hv => ?_⟩, fun s core slot w hw => ?_⟩
  · have hnone := s.piccoloAll_stopped core hstop
    exact ⟨exec_piccoloLoadIssue_idle hw (by rw [hnone]; rfl), exec_piccoloBranchEval_idle hw hnone⟩
  · exact ⟨_, exec_piccoloLoadIssue_held hw hfirst htr hwaits, fun _ => rfl, rfl⟩
  · obtain ⟨ps, hloaded⟩ := v.picc.loaded_rest v.alive pc (atLoad pc (s.piccoloAll core w))
    refine ⟨_, { v with picc := v.picc.loaded v.alive pc (atLoad pc (s.piccoloAll core w)) },
      exec_piccoloLoadIssue_performs hw hfirst hprobe hload, fun a => ?_, by rw [State.modWarp, hv], by rw [hloaded], ?_⟩
    · rw [State.byte, State.modWarp_mem, State.byte]
    · intro j i' pos used hmet e he hslice
      rw [hloaded] at he
      have hnodup := atLoad_slices_nodup (s.piccoloAll_slices_nodup core w) pc
      refine foldl_movePast_stands (p := (j, pc, pos + 1)) ?_ (List.mem_map.2 ⟨_, mem_atLoad hmet, rfl⟩) _ e he hslice
      rwa [List.map_map]
  · intro met hroom
    change w.picc.outcomes.length + ((s.piccoloAll core w).filterMap metControl).length ≤ 256 at hroom
    refine ⟨_, exec_piccoloBranchEval_eq hw hroom, fun a => ?_, fun hnil => if_pos hnil, fun hne => ?_⟩
    · split <;> rfl
    · obtain ⟨ps, heval⟩ := foldl_evaluated w (s.piccoloAll core w) w.picc
      refine ⟨_, if_neg hne, by rw [heval], by rw [heval]; rfl, fun x hx e he hslice => ?_⟩
      rw [heval] at he
      have hnodup := filterMap_slices_nodup (s.piccoloAll_slices_nodup core w) metControl fun _ _ => metControl_slice
      refine foldl_movePast_stands (p := (x.1, x.2.1, x.2.2.2 + 1)) ?_ (List.mem_map.2 ⟨x, hx, rfl⟩) _ e he hslice
      rwa [List.map_map]

end Sys2Proof.Machine
end

section
/-! PROOFS. What performing accesses leaves (for O14, O17 and O20): stores rise and are issued, and of the cores only what warps have in
flight changes, with the queue of TOPKs. -/

namespace Sys2Proof.Machine
open Sys2Proof

/-! ### Accesses of memory -/

/-- From `s` to `t` memory was accessed: stores have risen or were issued, and nothing else has changed. -/
structure Accessed (s t : State) : Prop where
  rest : t.sansStores = { s.sansStores with nextId := t.nextId }
  numbers : s.nextId ≤ t.nextId

theorem Accessed.trans {s t u : State} (h : Accessed s t) (g : Accessed t u) : Accessed s u where
  rest := by rw [g.rest, h.rest]
  numbers := h.numbers.trans g.numbers
theorem Rises.accessed {s t : State} (h : Rises s t) : Accessed s t where
  rest := by rw [h.rest, h.nextId]; rfl
  numbers := h.nextId.ge
theorem Accessed.refl (s : State) : Accessed s s := (Rises.refl s).accessed
theorem Accessed.cores {s t : State} (h : Accessed s t) : t.cores = s.cores := (congrArg State.cores h.rest :)
theorem Accessed.foldl {β : Type} (f : State → β → State) (hf : ∀ s x, Accessed s (f s x)) (xs : List β) (s : State) :
    Accessed s (xs.foldl f s) := by
  induction xs generalizing s with
  | nil => exact .refl s
  | cons x r ih => exact (hf s x).trans (ih _)

theorem State.storePart_accessed (s : State) (word agent thr level : Nat) (strong : Option Scope) (rel si : Bool) (op : StoreOp) :
    Accessed s (s.storePart word agent thr level strong rel si op) := ⟨rfl, Nat.le_succ _⟩
theorem State.storeRuns_accessed (s : State) (word agent thr level : Nat) (rs : List (Nat × Nat × Bool)) (bs : List Byte) :
    Accessed s (s.storeRuns word agent thr level rs bs) := by
  induction rs generalizing s bs with
  | nil => exact .refl s
  | cons r rs ih => exact (s.storePart_accessed ..).trans (ih _ _)
theorem State.answer_rises (s : State) (k loc n : Nat) (bs : List Byte) : Rises s (s.answer k loc n bs).2.2 := by
  unfold State.answer
  split
  · exact .of_subset rfl (List.Subset.refl _)
  · exact .refl s
theorem State.atomRead_rises (s : State) (a loc n site : Nat) : Rises s (s.atomRead a loc n site).2.2 := s.answer_rises ..
theorem State.readBytes_rises (s : State) (a : Nat) (ls : List Nat) : Rises s (s.readBytes a ls).2.2 := by
  induction ls generalizing s with
  | nil => exact .refl s
  | cons l r ih => exact (s.readLoc_rises a l 1).trans (ih _)
theorem State.readLanes_rises (s : State) (k slot size : Nat) (sx : Bool) (ds : List Dest) (xs : List (Nat × Nat)) :
    Rises s (s.readLanes k slot size sx ds xs).2.2 := by
  induction xs generalizing s with
  | nil => exact .refl s
  | cons x r ih => exact (s.readLoc_rises _ x.2 size).trans (ih _)
theorem State.readFields_rises (s : State) (a : Nat) (pat : DWord) (ds : List Dest) (xs : List (Nat × List Nat)) :
    Rises s (s.readFields a pat ds xs).2.2 := by
  induction xs generalizing s with
  | nil => exact .refl s
  | cons x r ih => exact (s.readBytes_rises a x.2).trans (ih _)
theorem State.acquireAt_rises (s : State) (k : Nat) (sc : Scope) : Rises s (s.acquireAt k sc) := by
  unfold State.acquireAt
  split
  · refine ⟨rfl, fun p hp => ?_⟩
    obtain ⟨q, hq, rfl⟩ := List.mem_map.1 hp
    refine ⟨q, hq, ?_⟩
    split <;> exact ⟨rfl, rfl, rfl⟩
  · exact .refl s
theorem State.raiseTo_rises (s : State) (id level : Nat) : Rises s (s.raiseTo id level) := s.lift_rises s.riseFuel id level
theorem State.settleReds_rises (s : State) (a : Nat) (rs : List (Nat × Nat)) : Rises s (s.settleReds a rs) := s.flushTo_rises ..
theorem State.settleFor_rises (s : State) (a thr loc n : Nat) (sc : Scope) (rel : Bool) (site : Nat) :
    Rises s (s.settleFor a thr loc n sc rel site) :=
  ((Rises.foldl _ (fun s _ => s.raiseTo_rises ..) _ s).trans (State.settleReds_rises ..)).trans (State.flushTo_rises ..)
theorem State.atomLane_accessed (s : State) (k slot lane : Nat) (op : AtomOp) (sc : Scope) (rel : Bool) (loc site : Nat) (lax : Bool)
    (b nw : DWord) : Accessed s (s.atomLane k slot lane op sc rel loc site lax b nw).2.2 := by
  have hread := (s.settleFor_rises (agentOf k slot) (threadOf k slot lane) loc (atomSize op) sc rel site).trans
    (State.atomRead_rises _ (agentOf k slot) loc (atomSize op) site)
  have hdrop {u : State} (hu : Rises s u) : Rises s (if site ≤ 2 then u else u.dropStale (· == u.domOf k) loc (atomSize op)) := by
    split
    · exact hu
    · exact hu.trans (State.dropStale_rises ..)
  simp only [State.atomLane]
  split
  · exact (hdrop hread).accessed
  · exact ((hdrop hread).accessed.trans (State.storePart_accessed ..)).trans (State.raiseTo_rises ..).accessed
theorem State.atomLanes_accessed (s : State) (k slot : Nat) (op : AtomOp) (sc : Scope) (rel : Bool) (ds : List Dest)
    (xs : List (Nat × Nat × Nat × Bool × DWord × DWord)) : Accessed s (s.atomLanes k slot op sc rel ds xs).2.2 := by
  induction xs generalizing s with
  | nil => exact .refl s
  | cons x r ih => exact (s.atomLane_accessed ..).trans (ih _)
theorem State.runTopk_accessed (s : State) (k slot : Nat) (bf : Bool) (n c : Nat) (row : List (Nat × Nat))
    (val idx : List (Nat × Nat × Bool)) : Accessed s (s.runTopk k slot bf n c row val idx).2 :=
  (((s.settleReds_rises ..).trans (State.readRuns_rises ..)).accessed.trans (State.storeRuns_accessed ..)).trans
    (State.storeRuns_accessed ..)
theorem State.performOp_accessed (s : State) (k slot : Nat) (ds : List Dest) (op : LandOp) : Accessed s (s.performOp k slot ds op).2.2 := by
  cases op with
  | values | scalar => exact .refl s
  | load size sx acq lanes =>
    have hread := (s.settleReds_rises (agentOf k slot) (LandOp.load size sx acq lanes).ranges).trans
      (State.readLanes_rises _ k slot size sx ds lanes)
    cases acq with
    | none => exact hread.accessed
    | some sc => exact (hread.trans (State.acquireAt_rises ..)).accessed
  | bfx pat lanes => exact ((s.settleReds_rises ..).trans (State.readFields_rises ..)).accessed
  | atom aop ord sc lanes =>
    have hatom := s.atomLanes_accessed k slot aop sc (ord == .rel || ord == .ar) ds lanes
    simp only [State.performOp]
    split
    · exact hatom.trans (State.acquireAt_rises ..).accessed
    · exact hatom
  | topk bf n c st row val idx => exact s.runTopk_accessed ..

/-! ### Words in flight that perform their accesses -/

/-- From `s` to `t` words in flight have performed accesses: beside memory, the stores in flight and the teams' counts of poison, only
what warps have in flight has changed, with the queue of TOPKs. -/
structure Performs (s t : State) : Prop where
  rest : t.sansStores = { s.sansStores with nextId := t.nextId, cores := t.cores, teams := t.teams }
  numbers : s.nextId ≤ t.nextId
  fused : ∀ k, (t.core k).fused = (s.core k).fused
  warps : ∀ k n w, s.warp? k n = some w → ∃ w', t.warp? k n = some w' ∧ w' = { w with pending := w'.pending }

theorem Performs.trans {s t u : State} (h : Performs s t) (g : Performs t u) : Performs s u where
  rest := by rw [g.rest, h.rest]
  numbers := h.numbers.trans g.numbers
  fused k := (g.fused k).trans (h.fused k)
  warps k n w hw := by
    obtain ⟨x, hx, hwx⟩ := h.warps k n w hw
    obtain ⟨y, hy, hxy⟩ := g.warps k n x hx
    exact ⟨y, hy, by rw [hxy, hwx]⟩
theorem Accessed.performs {s t : State} (h : Accessed s t) : Performs s t := by
  have hcores := h.cores
  have hteams : t.teams = s.teams := (congrArg State.teams h.rest :)
  have hcore (k : Nat) : t.core k = s.core k := by rw [State.core, hcores, State.core]
  refine ⟨?_, h.numbers, fun k => by rw [hcore], fun k n w hw => ⟨w, ?_, rfl⟩⟩
  · rw [h.rest, hcores, hteams]; rfl
  · rw [State.warp?, hcore]; exact hw
theorem Performs.refl (s : State) : Performs s s := (Accessed.refl s).performs

section
variable {s t : State} (h : Performs s t)
include h
theorem Performs.cur : t.cur = s.cur := (congrArg State.cur h.rest :)
theorem Performs.grids : t.grids = s.grids := (congrArg State.grids h.rest :)
theorem Performs.boot : t.boot = s.boot := (congrArg State.boot h.rest :)
theorem Performs.live? {v : Warp} (hv : s.live? = some v) : ∃ v', t.live? = some v' ∧ v' = { v with pending := v'.pending } := by
  rw [State.live?, h.cur]
  exact h.warps _ _ v hv
theorem Performs.ctxNo (w : Warp) : t.ctxNo w = s.ctxNo w := by
  simp only [State.ctxNo, State.recOf, State.grid?, h.grids]
theorem Performs.domOf (k : Nat) : t.domOf k = s.domOf k := by
  simp only [State.domOf, h.fused, State.cluster?, State.logical?, h.boot]
theorem Performs.wider (k : Nat) (sc : Scope) : t.wider k sc = s.wider k sc := by
  cases sc <;> simp only [State.wider, h.fused]
end

theorem Performs.modCore (s : State) (k : Nat) (f : Core → Core) (hwarps : ∀ c, (f c).warps = c.warps) (hfused : ∀ c, (f c).fused = c.fused) :
    Performs s (s.modCore k f) := by
  have hcore (j : Nat) : (s.modCore k f).core j = if j = k then f (s.core j) else s.core j := by
    split
    · next h => rw [h, State.core_modCore]
    · next h => exact State.core_modCore_other _ _ _ _ h
  refine ⟨rfl, le_rfl, fun j => ?_, fun j n w hw => ⟨w, ?_, rfl⟩⟩
  · rw [hcore]; split
    · exact hfused _
    · rfl
  · rw [State.warp?, hcore]; split
    · rw [hwarps]; exact hw
    · exact hw
theorem State.modWarp_fused (s : State) (k n j : Nat) (f : Warp → Warp) : ((s.modWarp k n f).core j).fused = (s.core j).fused := by
  unfold State.modWarp
  split
  · by_cases h : j = k
    · subst h; rw [State.setWarp, State.core_modCore]
    · rw [State.setWarp, State.core_modCore_other _ _ _ _ h]
  · rfl
/-- A change of what a warp has in flight. -/
theorem Performs.modWarp (s : State) (k n : Nat) (f : Warp → Warp) (hf : ∀ w, f w = { w with pending := (f w).pending }) :
    Performs s (s.modWarp k n f) where
  rest := by unfold State.modWarp; split <;> rfl
  numbers := (State.modWarp_nextId ..).ge
  fused j := s.modWarp_fused k n j f
  warps j i w hw := by
    rw [State.warp?_modWarp_eq, hw]
    split
    · exact ⟨f w, rfl, hf w⟩
    · exact ⟨w, rfl, rfl⟩
theorem Performs.consumed (s : State) (tid : Nat) (p : Bool) : Performs s (s.consumed tid p) := by
  cases p
  · exact .refl s
  · exact ⟨rfl, le_rfl, fun _ => rfl, fun _ _ w hw => ⟨w, hw, rfl⟩⟩

/-- A part of a word in flight as it stands once the part's accesses are performed. -/
def Pending.performedPart (id : Nat) (m : BitVec 64) (vs : Landed) (q : Bool) (r : Pending) : Pending :=
  if r.id = id then { r with op := r.op.performed m, got := r.got ++ vs, psn := r.psn || q } else r
/-- Performing a part is accessing memory, taking a TOPK off its queue, and noting it in the warp. -/
theorem State.performPart_steps (s : State) (k slot : Nat) (x : Part) :
    s.performPart k slot x = s ∧ (∀ w, s.warp? k slot = some w → ∀ r ∈ w.pending, r.id ≠ x.1.id) ∨
      ∃ u vs q tid psn, Performs s u ∧ (u.warp? k slot = s.warp? k slot) ∧ s.performPart k slot x =
        (u.modWarp k slot fun w => { w with pending := w.pending.map (Pending.performedPart x.1.id x.2 vs q) }).consumed tid psn := by
  unfold State.performPart
  cases hw : s.warp? k slot with
  | none => exact .inl ⟨rfl, fun _ h => nomatch h⟩
  | some w =>
    dsimp only
    cases hp : w.pending.find? fun p => p.id == x.1.id with
    | none =>
      refine .inl ⟨rfl, fun y hy r hr hid => ?_⟩
      obtain rfl := Option.some.inj hy
      simpa [hid] using List.find?_eq_none.1 hp r hr
    | some p =>
      have hid : p.id = x.1.id := by simpa using List.find?_some hp
      have hacc := s.performOp_accessed k slot p.dests (p.op.restrict x.2 true)
      have hsame : (s.performOp k slot p.dests (p.op.restrict x.2 true)).2.2.warp? k slot = some w := by
        rw [State.warp?, State.core, hacc.cores]; exact hw
      dsimp only
      rw [← hid]
      split
      · refine .inr ⟨_, _, _, _, _, hacc.performs.trans
          (.modCore _ k (fun c => { c with topkQ := c.topkQ.filter fun y => y.2 != p.id }) (fun _ => rfl) fun _ => rfl), ?_, rfl⟩
        rw [State.warp?, State.core_modCore]
        exact hsame
      · exact .inr ⟨_, _, _, _, _, hacc.performs, hsame, rfl⟩
theorem State.performPart_performs (s : State) (k slot : Nat) (x : Part) : Performs s (s.performPart k slot x) := by
  obtain ⟨h, -⟩ | ⟨u, vs, q, tid, psn, hu, -, h⟩ := s.performPart_steps k slot x
  · rw [h]; exact .refl s
  · rw [h]; exact (hu.trans (.modWarp _ _ _ _ fun _ => rfl)).trans (.consumed ..)
theorem State.performParts_performs (s : State) (k slot : Nat) (ps : List Part) : Performs s (s.performParts k slot ps) := by
  induction ps generalizing s with
  | nil => exact .refl s
  | cons x r ih => exact (s.performPart_performs k slot x).trans (ih _)
theorem State.settleAt_performs (s : State) (k slot : Nat) (a : Access) : Performs s (s.settleAt k slot a) := by
  unfold State.settleAt
  split
  · exact .refl s
  · exact s.performParts_performs ..
theorem State.settleAccess_performs (s : State) (a : Access) : Performs s (s.settleAccess a) := s.settleAt_performs ..

/-! ### An access of nothing -/

theorem rangesMeet_nil (xs : List (Nat × Nat)) : rangesMeet xs [] = false := by simp [rangesMeet]
/-- Nothing must come before an access of no lane and no location. -/
theorem forcedLanes_of_empty {a : Access} (hr : a.ranges = []) (hl : a.lanes = 0) (op : LandOp) : forcedLanes a op = 0 := by
  have hclosure {op : LandOp} (h : (op.restrict 0#64 true).ranges = []) (ls : List Nat) :
      ls.foldl (fun m l => let above := m &&& ~~~(BitVec.ofNat 64 (2 ^ (l + 1) - 1))
        if rangesMeet (op.restrict (oneLane l) true).ranges (op.restrict above true).ranges then m ||| oneLane l else m) 0 = 0 := by
    induction ls with
    | nil => rfl
    | cons l r ih => simpa [h, rangesMeet_nil] using ih
  have hmask : op.lanes.filter (fun l => rangesMeet (op.restrict (oneLane l) true).ranges a.ranges ||
      (a.lanes.getLsbD l && (a.rel || op.acquires || strongOrder a.strong op))) = [] := by
    simp [hr, hl, rangesMeet_nil]
  cases op with
  | values | scalar => rfl
  | topk bf n c st row val idx => simp [forcedLanes, hr, hl, rangesMeet_nil]
  | load | bfx | atom =>
    simp only [forcedLanes, hmask, LandOp.closure]
    exact hclosure (by simp [LandOp.restrict, LandOp.ranges]) _
theorem forcedParts_of_empty {a : Access} (hr : a.ranges = []) (hl : a.lanes = 0) (ps : List Pending) : forcedParts [a] ps = [] := by
  induction ps with
  | nil => rfl
  | cons p r ih => simp [forcedParts, forcedLanes_of_empty hr hl, ih]
theorem State.settleAccess_empty (s : State) {a : Access} (hr : a.ranges = []) (hl : a.lanes = 0) : s.settleAccess a = s := by
  rw [State.settleAccess, State.settleAt]
  split
  · rfl
  · rw [Warp.partsFor, forcedParts_of_empty hr hl]; rfl

/-! ### Pages asked for -/

theorem State.askAll_rest (s : State) (wr : Bool) (xs : List LaneAccess) :
    ∃ us rs, s.askAll wr xs = { s with ucPages := us, pageReqs := rs } := by
  unfold State.askAll
  induction xs generalizing s with
  | nil => exact ⟨_, _, rfl⟩
  | cons x r ih =>
    obtain ⟨us, rs, hx⟩ := s.askPage_rest x.2.1 wr (x.2.2.treat == 2)
    rw [List.foldl_cons, hx]
    exact ih _

end Sys2Proof.Machine
end

section
/-! PROOFS. Loads and stores at their issue (O14): the word in flight that each load leaves, and the stores of the lanes, in order. -/

namespace Sys2Proof.Machine
open Sys2Proof

/-! ### A load's word in flight -/

/-- Lanes make one mask in any order and number. -/
theorem laneMask_congr {ls ks : List Nat} (h : ∀ l, l ∈ ls ↔ l ∈ ks) : laneMask ls = laneMask ks := by
  refine BitVec.eq_of_getLsbD_eq fun l hl => ?_
  rw [getLsbD_laneMask ls hl, getLsbD_laneMask ks hl, decide_eq_decide]
  exact h l
theorem Flies.of_lanes {s t : State} {ds : List Dest} {la : BitVec 4} {ls ks : List Nat} {op : LandOp} (h : Flies s t ds la ls op)
    (hl : ∀ l, l ∈ ls ↔ l ∈ ks) : Flies s t ds la ks op := by
  obtain ⟨hbytes, v, n, hlive, ht⟩ := h
  exact ⟨hbytes, v, n, hlive, laneMask_congr hl ▸ ht⟩

section
variable {s t : State} {ds : List Dest} {la : BitVec 4} {ls : List Nat} {op : LandOp} (h : Flies s t ds la ls op)
include h
theorem Flies.nextId : t.nextId = s.nextId + 1 := by
  obtain ⟨-, v, n, -, rfl⟩ := h
  rfl
theorem Flies.live? : ∃ v, t.live? = some v := by
  obtain ⟨-, v, n, -, rfl⟩ := h
  exact ⟨_, State.warp?_setWarp ..⟩
end

@[simp] theorem State.askAll_cur (s : State) (wr : Bool) (xs : List LaneAccess) : (s.askAll wr xs).cur = s.cur := by
  obtain ⟨us, rs, h⟩ := s.askAll_rest wr xs
  rw [h]
@[simp] theorem State.askAll_nextId (s : State) (wr : Bool) (xs : List LaneAccess) : (s.askAll wr xs).nextId = s.nextId := by
  obtain ⟨us, rs, h⟩ := s.askAll_rest wr xs
  rw [h]
@[simp] theorem State.askAll_live? (s : State) (wr : Bool) (xs : List LaneAccess) : (s.askAll wr xs).live? = s.live? := by
  obtain ⟨us, rs, h⟩ := s.askAll_rest wr xs
  rw [h]
  rfl

/-- Once what must come before it is performed and its pages are asked for, a load is in flight. -/
theorem State.addPending_settled {s : State} {v : Warp} (hlive : s.live? = some v) (a : Access) (wr : Bool) (xs : List LaneAccess)
    (ds : List Dest) (la : BitVec 4) (lanes : List Nat) (op : LandOp) :
    Flies ((s.settleAccess a).askAll wr xs) (((s.settleAccess a).askAll wr xs).addPending ds la.toNat lanes op) ds la lanes op := by
  obtain ⟨v', hv', -⟩ := (s.settleAccess_performs a).live? hlive
  exact State.addPending_flies ((State.askAll_live? ..).trans hv') ..

section
variable {s : State} {w v : Warp} {i : Instr} (hlive : s.live? = some v) {d : VReg} {n : Nat} {la : BitVec 4}
include hlive

theorem State.issueLoad_loads {acq : Option Scope} {size : Nat} {sx : Bool} {xs : List LaneAccess}
    (hfetch : loadFetch s s.cur.core s.cur.slot (s.ctxNo w) w s.cur.slices i = some (d, n, la, acq, .bytes size sx xs)) :
    Loads s (s.issueLoad w i) d n la acq size sx xs := by
  have hlanes : ((Fetch.bytes size sx xs).op acq).lanes = xs.map (·.1) := by simp [Fetch.op, LandOp.lanes, laneLocs]
  rw [State.issueLoad, hfetch]
  simp only [hlanes, List.isEmpty_iff, List.map_eq_nil_iff, Loads]
  by_cases hxs : xs = []
  · rw [if_pos hxs, if_pos hxs]; rfl
  · rw [if_neg hxs, if_neg hxs]
    exact State.addPending_settled hlive ..
theorem State.issueLoad_fields {pat : DWord} {fs : List (Nat × List Nat)} {as_ : List LaneAccess}
    (hfetch : loadFetch s s.cur.core s.cur.slot (s.ctxNo w) w s.cur.slices i = some (d, n, la, none, .fields pat fs as_)) :
    let s1 := (s.settleAccess (Fetch.fields pat fs as_).access).askAll false as_
    if fs = [] then s.issueLoad w i = s1 else Flies s1 (s.issueLoad w i) (destsV d.toNat n) la (fs.map (·.1)) (.bfx pat fs) := by
  have hlanes : ((Fetch.fields pat fs as_).op none).lanes = fs.map (·.1) := rfl
  rw [State.issueLoad, hfetch]
  simp only [hlanes, List.isEmpty_iff, List.map_eq_nil_iff]
  by_cases hfs : fs = []
  · rw [if_pos hfs, if_pos hfs]; rfl
  · rw [if_neg hfs, if_neg hfs]
    exact State.addPending_settled hlive ..
end

/-- A load into registers issues. -/
theorem loadWord_issues {s : State} {w v : Warp} {i : Instr} (h : Runs s w v i) (hi : loadMarked i = false) :
    loadWord i s = .next (s.issueLoad w i) := by
  rw [loadWord, word_runs h, hi]
  rfl

/-- Without an offset the lanes' addresses begin at the base. -/
theorem laneAddr_base (w : Warp) (base : SReg) (n : Nat) : laneAddr (w.sget base) 0 n = unitStride w base 0 n := by
  funext l
  simp [laneAddr, unitStride]

/-! ### Loads of registers of the hub (R456) -/

section
variable {s : State} {w : Warp} {m : BitVec 16} {gp : PReg} {d : VReg} {addr : Nat → DWord} {k : Nat}

theorem mem_hubValues {r l : Nat} {x : Word} : (r, l, x) ∈ hubValues s k w m gp d addr ↔
    l ∈ (w.actLanes m ⟨false, gp⟩).filter (fun l => hubRegister k (addr l)) ∧
      ((r = d.toNat ∧ x = loWord (s.readReg ((addr l).toNat - hbar))) ∨
        (r = d.toNat + 1 ∧ x = hiWord (s.readReg ((addr l).toNat - hbar)))) := by
  rw [hubValues, List.mem_flatMap]
  constructor
  · rintro ⟨l', hl', hmem⟩
    rcases List.mem_cons.1 hmem with h | h
    · obtain ⟨rfl, rfl, rfl⟩ := Prod.mk.injEq .. ▸ h
      exact ⟨hl', .inl ⟨rfl, rfl⟩⟩
    · obtain ⟨rfl, rfl, rfl⟩ := List.mem_singleton.1 h
      exact ⟨hl', .inr ⟨rfl, rfl⟩⟩
  · rintro ⟨hl, ⟨rfl, rfl⟩ | ⟨rfl, rfl⟩⟩
    · exact ⟨l, hl, List.mem_cons_self⟩
    · exact ⟨l, hl, List.mem_cons_of_mem _ List.mem_cons_self⟩
theorem mem_hubValues_lanes {l : Nat} : l ∈ (hubValues s k w m gp d addr).map (·.2.1) ↔
    l ∈ (w.actLanes m ⟨false, gp⟩).filter (fun l => hubRegister k (addr l)) := by
  constructor
  · intro h
    obtain ⟨⟨r, l', x⟩, hmem, rfl⟩ := List.mem_map.1 h
    exact (mem_hubValues.1 hmem).1
  · exact fun h => List.mem_map.2 ⟨(d.toNat, l, _), mem_hubValues.2 ⟨h, .inl ⟨rfl, rfl⟩⟩, rfl⟩
theorem hubValues_eq_nil : hubValues s k w m gp d addr = [] ↔ (w.actLanes m ⟨false, gp⟩).filter (fun l => hubRegister k (addr l)) = [] := by
  rw [← List.map_eq_nil_iff (f := fun x : Nat × Nat × Word => x.2.1), List.eq_nil_iff_forall_not_mem, List.eq_nil_iff_forall_not_mem]
  exact forall_congr' fun l => not_congr mem_hubValues_lanes
end

theorem eq_loWord_iff {x : Word} {y : DWord} : x = loWord y ↔ x.toNat = y.toNat % 2 ^ 32 := by
  rw [← BitVec.toNat_inj]
  simp [loWord]
theorem eq_hiWord_iff {x : Word} {y : DWord} : x = hiWord y ↔ x.toNat = y.toNat / 2 ^ 32 := by
  rw [← BitVec.toNat_inj]
  have := y.isLt
  simp [hiWord, Nat.shiftRight_eq_div_pow]
  omega

section
variable {s : State} {w v : Warp}

/-- A plain load into registers: what it reads of memory is in flight, and then what it reads of the hub's registers. -/
theorem exec_ld_issues {gp : PReg} {sz : LdSize} {d : VReg} {base : SReg} {off : BitVec 6} {la : BitVec 4}
    (h : Runs s w v (.ld false gp sz d base off la)) :
    let vs := hubValues s s.cur.core w s.cur.slices gp d (unitStride w base off sz.bytes)
    let t1 := s.issueLoad w (.ld false gp sz d base off la)
    exec (.ld false gp sz d base off la) s =
      .next (if vs = [] then t1 else t1.addPending (destsV d.toNat 2) la.toNat (vs.map (·.2.1)).eraseDups (.values vs)) := by
  intro vs t1
  show execLd false gp sz d base off la s = _
  rw [execLd, word_runs h]
  simp only [Bool.false_eq_true, if_false, ← List.isEmpty_iff]
  rfl

theorem Loads.live? {t : State} {d : VReg} {n : Nat} {la : BitVec 4} {acq : Option Scope} {size : Nat} {sx : Bool} {xs : List LaneAccess}
    (hlive : s.live? = some v) (h : Loads s t d n la acq size sx xs) : ∃ v', t.live? = some v' := by
  obtain ⟨v', hv', -⟩ := (s.settleAccess_performs (Fetch.bytes size sx xs).access).live? hlive
  simp only [Loads] at h
  split at h
  · exact ⟨v', by rw [h, State.askAll_live?, hv']⟩
  · exact h.live?

theorem accessesIssue_ld {gp : PReg} {sz : LdSize} {d : VReg} {base : SReg} {off : BitVec 6} {la : BitVec 4}
    (h : Runs s w v (.ld false gp sz d base off la)) :
    let lanes := w.actLanes s.cur.slices ⟨false, gp⟩
    let reg (l : Nat) : Bool := hubRegister s.cur.core (unitStride w base off sz.bytes l)
    sz = .w64 ∨ (∀ l ∈ lanes, reg l = false) →
    ∃ t t1, exec (.ld false gp sz d base off la) s = .next t ∧
      Loads s t1 d sz.regs la none sz.bytes sz.signed
        (s.laneAccess (s.ctxNo w) (unitStride w base off sz.bytes) (lanes.filter fun l => !reg l)) ∧
      if lanes.filter reg = [] then t = t1
      else ∃ vs, Flies t1 t (destsV d.toNat 2) la (lanes.filter reg) (.values vs) ∧ ∀ r l x, (r, l, x) ∈ vs ↔ l ∈ lanes.filter reg ∧
        let y := s.readReg ((unitStride w base off 8 l).toNat - 0xF000000000)
        ((r = d.toNat ∧ x.toNat = y.toNat % 2 ^ 32) ∨ (r = d.toNat + 1 ∧ x.toNat = y.toNat / 2 ^ 32)) := by
  intro lanes reg hsize
  have hloads : Loads s (s.issueLoad w (.ld false gp sz d base off la)) d sz.regs la none sz.bytes sz.signed
      (s.laneAccess (s.ctxNo w) (unitStride w base off sz.bytes) (lanes.filter fun l => !reg l)) := State.issueLoad_loads h.live rfl
  obtain ⟨v', hv'⟩ := hloads.live? h.live
  refine ⟨_, _, exec_ld_issues h, hloads, ?_⟩
  by_cases hnone : lanes.filter reg = []
  · rw [if_pos hnone, if_pos (hubValues_eq_nil.2 hnone)]
  · rw [if_neg hnone, if_neg (fun hvs => hnone (hubValues_eq_nil.1 hvs))]
    refine ⟨_, (State.addPending_flies hv' ..).of_lanes fun l => ?_, fun r l x => ?_⟩
    · rw [List.mem_eraseDups]
      exact mem_hubValues_lanes
    · have hwide : sz = .w64 := hsize.resolve_right fun hall => hnone (List.filter_eq_nil_iff.2 fun l hl => by simp [hall l hl])
      subst hwide
      rw [mem_hubValues, eq_loWord_iff, eq_hiWord_iff]
      rfl

/-- With pending bits a scratchpad load that acts in some lane is performed as it issues (R85). -/
theorem accessesIssue_lds {gp : PReg} {sz : LdSize} {d : VReg} {base : SReg} {off : BitVec 6} {la : BitVec 4}
    (h : Runs s w v (.lds false gp sz d base off la)) :
    let xs := s.laneSpad s.cur.core w.grid (unitStride w base off sz.bytes) (w.actLanes s.cur.slices ⟨false, gp⟩)
    ∃ t t1, exec (.lds false gp sz d base off la) s = .next t ∧ Loads s t1 d sz.regs la none sz.bytes sz.signed xs ∧
      t = if xs ≠ [] ∧ (∃ g, s.grid? w.grid = some g ∧ g.lr.spdbg = true) then t1.readNow s.cur.core s.cur.slot (t1.nextId - 1)
        else t1 := by
  intro xs
  have hloads : Loads s (s.issueLoad w (.lds false gp sz d base off la)) d sz.regs la none sz.bytes sz.signed xs :=
    State.issueLoad_loads h.live rfl
  have hexec : exec (.lds false gp sz d base off la) s = .next (
      let t := s.issueLoad w (.lds false gp sz d base off la)
      if s.spadDebug w && decide (s.nextId < t.nextId) then t.readNow s.cur.core s.cur.slot (t.nextId - 1) else t) := by
    show execLds false gp sz d base off la s = _
    rw [execLds, word_runs h]
    rfl
  refine ⟨_, _, hexec, hloads, ?_⟩
  have hdebug : s.spadDebug w = true ↔ ∃ g, s.grid? w.grid = some g ∧ g.lr.spdbg = true := by
    unfold State.spadDebug
    cases s.grid? w.grid <;> simp
  have hnew : s.nextId < (s.issueLoad w (.lds false gp sz d base off la)).nextId ↔ xs ≠ [] := by
    by_cases hxs : xs = []
    · rw [Loads, if_pos hxs] at hloads
      rw [hloads, State.askAll_nextId, hxs, State.settleAccess_empty _ rfl rfl]
      simp
    · rw [Loads, if_neg hxs] at hloads
      rw [hloads.nextId, State.askAll_nextId]
      exact iff_of_true (Nat.lt_succ_of_le (s.settleAccess_performs _).numbers) hxs
  refine if_congr ?_ rfl rfl
  rw [Bool.and_eq_true, decide_eq_true_eq, hdebug, hnew, and_comm]
end

/-! ### Stores -/

/-- The bytes of a group as its registers hold them. -/
theorem groupBytes_eq (w : Warp) (r l : Nat) {n : Nat} (hn : n ∈ [1, 2, 4, 8, 16]) : groupBytes w r n l = groupStored w r n l := by
  have hbytes (x : Word) : bytesOf 4 (x.zeroExtend 64) =
      [x.extractLsb' 0 8, x.extractLsb' 8 8, x.extractLsb' 16 8, x.extractLsb' 24 8] := by
    have hbyte (k : Nat) (hk : k + 8 ≤ 32) : ((x.zeroExtend 64) >>> k).extractLsb' 0 8 = x.extractLsb' k 8 := by
      apply BitVec.eq_of_getLsbD_eq
      intro i hi
      simp [hi, show k + i < 64 by omega]
    simp only [bytesOf, ← BitVec.shiftRight_add, Nat.reduceAdd]
    rw [hbyte 8 (by omega), hbyte 16 (by omega), hbyte 24 (by omega)]
    exact congrArg (· :: _) (hbyte 0 (by omega))
  simp only [List.mem_cons, List.not_mem_nil, or_false] at hn
  rcases hn with rfl | rfl | rfl | rfl | rfl <;>
    simp [groupBytes, groupStored, wordsOf, List.range_succ, hbytes]

theorem mem_orders {s : State} {a thr : Nat} {strong : Option Scope} {rel : Bool} {c : Nat × Nat} :
    c ∈ s.orders a thr strong rel ↔ c.2 ≠ 0 ∧ ∃ q ∈ s.pend, c = (q.id, s.binds a thr strong rel q) := by
  rw [State.orders, List.mem_filter, List.mem_map, and_comm, bne_iff_ne]
  simp only [eq_comm]

section
variable (w : Warp) (r size word : Nat) (strong : Option Scope) (rel : Bool)

/-- The store of a lane, as part of a store word, that issues next. -/
def State.laneStore (s : State) (x : LaneAccess) : PendStore :=
  ⟨s.nextId, agentOf s.cur.core s.cur.slot, threadOf s.cur.core s.cur.slot x.1, 0, strong,
    s.orders (agentOf s.cur.core s.cur.slot) (threadOf s.cur.core s.cur.slot x.1) strong rel, x.2.2.lax, [], word,
    .bytes x.2.1 (groupBytes w r size x.1)⟩
/-- The state once one store has issued. -/
def State.issued (s : State) (p : PendStore) : State := { s with pend := s.pend ++ [p], nextId := s.nextId + 1 }
/-- To what a new store of a thread is bound by another does not depend on which stores have issued. -/
theorem State.binds_issued (s : State) (p : PendStore) (a thr : Nat) (q : PendStore) :
    (s.issued p).binds a thr strong rel q = s.binds a thr strong rel q := rfl

/-- The stores of the lanes of a word, each issued after those before it. -/
def State.laneStores (s : State) : List LaneAccess → List PendStore
  | [] => []
  | x :: xs => s.laneStore w r size word strong rel x :: (s.issued (s.laneStore w r size word strong rel x)).laneStores xs

theorem State.length_laneStores (s : State) (xs : List LaneAccess) :
    (s.laneStores w r size word strong rel xs).length = xs.length := by
  induction xs generalizing s with
  | nil => rfl
  | cons x xs ih => exact congrArg (· + 1) (ih _)
theorem State.foldl_laneStore (s : State) (xs : List LaneAccess) :
    xs.foldl (fun s x => s.issued (s.laneStore w r size word strong rel x)) s =
      { s with pend := s.pend ++ s.laneStores w r size word strong rel xs, nextId := s.nextId + xs.length } := by
  induction xs generalizing s with
  | nil => rw [State.laneStores, List.append_nil]; rfl
  | cons x xs ih =>
    rw [List.foldl_cons, ih, State.laneStores, List.length_cons, ← Nat.add_assoc, Nat.add_right_comm]
    show ({ s with pend := (s.pend ++ [_]) ++ _, nextId := _ } : State) = _
    rw [List.append_assoc]
    rfl

/-- Each lane's store has the next number, and is bound by the stores in flight before the word and by the lanes' before it. -/
theorem State.getElem?_laneStores {s : State} {xs : List LaneAccess} {k : Nat} {x : LaneAccess} {p : PendStore} (hx : xs[k]? = some x)
    (hp : (s.laneStores w r size word strong rel xs)[k]? = some p) :
    p = { s.laneStore w r size word strong rel x with id := s.nextId + k, after := p.after } ∧
      ∀ c, c ∈ p.after ↔ c.2 ≠ 0 ∧ ((∃ q ∈ s.pend, c = (q.id, s.binds (agentOf s.cur.core s.cur.slot) p.thr strong rel q)) ∨
        ∃ j q, j < k ∧ (s.laneStores w r size word strong rel xs)[j]? = some q ∧
          c = (q.id, s.binds (agentOf s.cur.core s.cur.slot) p.thr strong rel q)) := by
  induction xs generalizing s k with
  | nil => cases hx
  | cons y ys ih =>
    cases k with
    | zero =>
      obtain rfl := Option.some.inj hx
      obtain rfl := Option.some.inj hp
      exact ⟨rfl, fun c => mem_orders.trans (and_congr_right fun _ => ⟨.inl, fun h => h.elim id fun ⟨_, _, h, _⟩ => absurd h (Nat.not_lt_zero _)⟩)⟩
    | succ k =>
      obtain ⟨hfields, hafter⟩ := ih (s := s.issued (s.laneStore w r size word strong rel y)) hx hp
      refine ⟨hfields.trans ?_, fun c => (hafter c).trans (and_congr_right fun _ => ?_)⟩
      · rw [Nat.add_comm k 1, ← Nat.add_assoc]
        rfl
      · simp only [State.binds_issued]
        show ((∃ q ∈ s.pend ++ [s.laneStore w r size word strong rel y], _) ∨ _) ↔ _
        constructor
        · rintro (⟨q, hq, hc⟩ | ⟨j, q, hj, hq, hc⟩)
          · rcases List.mem_append.1 hq with hq | hq
            · exact .inl ⟨q, hq, hc⟩
            · exact .inr ⟨0, q, Nat.succ_pos k, congrArg some (List.mem_singleton.1 hq).symm, hc⟩
          · exact .inr ⟨j + 1, q, Nat.succ_lt_succ hj, hq, hc⟩
        · rintro (⟨q, hq, hc⟩ | ⟨j, q, hj, hq, hc⟩)
          · exact .inl ⟨q, List.mem_append_left _ hq, hc⟩
          · cases j with
            | zero => exact .inl ⟨q, List.mem_append_right _ (List.mem_singleton.2 (Option.some.inj hq).symm), hc⟩
            | succ j => exact .inr ⟨j, q, Nat.lt_of_succ_lt_succ hj, hq, hc⟩
end

theorem State.issueStore_stores {s : State} {w : Warp} {i : Instr} {d : VReg} {size : Nat} {strong : Option Scope} {rel : Bool}
    {xs : List LaneAccess} (hacc : storeAccess s s.cur.core (s.ctxNo w) w s.cur.slices i = some (d, size, strong, rel, xs))
    (hsize : size ∈ [1, 2, 4, 8, 16]) : Stores s (s.issueStore w i) strong rel d size w xs := by
  rw [State.issueStore, hacc]
  simp only [Stores, List.isEmpty_iff]
  by_cases hxs : xs = []
  · rw [if_pos hxs, if_pos hxs]
  · rw [if_neg hxs, if_neg hxs]
    let s1 := s.settleAccess { ranges := rangesOf size xs, lanes := lanesOf xs, strong := strong, rel := rel }
    have hcur : s1.cur = s.cur := (s.settleAccess_performs _).cur
    refine ⟨_, s1.laneStores w d.toNat size s1.nextId strong rel xs, rfl, fun a => ?_,
      s1.foldl_laneStore w d.toNat size s1.nextId strong rel xs, s1.length_laneStores .., fun k x p hx hp => ?_⟩
    · obtain ⟨us, rs, hask⟩ := (s1.storeLanes w d.toNat size strong rel xs).askAll_rest true xs
      have hfold : s1.storeLanes w d.toNat size strong rel xs = _ := s1.foldl_laneStore w d.toNat size s1.nextId strong rel xs
      rw [hask, hfold]
      rfl
    · obtain ⟨hfields, hafter⟩ := State.getElem?_laneStores w d.toNat size s1.nextId strong rel hx hp
      rw [hcur] at hafter
      refine ⟨by rw [hfields], by rw [hfields]; rfl, by rw [hfields]; rfl, ?_, ?_, by rw [hfields]; rfl, by rw [hfields]; rfl,
        by rw [hfields]; rfl, ?_, hafter⟩
      · rw [hfields, ← hcur]; rfl
      · rw [hfields, ← hcur]; rfl
      · rw [hfields, ← groupBytes_eq w d.toNat x.1 hsize]; rfl

theorem StSize_bytes_mem (sz : StSize) : sz.bytes ∈ [1, 2, 4, 8, 16] := by cases sz <;> decide
theorem Width_bytes_mem (wd : Width) : 4 * wd.regs ∈ [1, 2, 4, 8, 16] := by cases wd <;> decide

section
variable {s : State} {w v : Warp}

theorem exec_st_issues {gp : PReg} {sz : StSize} {d : VReg} {base : SReg} {off : BitVec 6} (h : Runs s w v (.st gp sz d base off)) :
    exec (.st gp sz d base off) s = .next (
      ((w.actLanes s.cur.slices ⟨false, gp⟩).filter fun l => hubRegister s.cur.core (unitStride w base off sz.bytes l)).foldl
        (fun u l => u.writeReg ((unitStride w base off sz.bytes l).toNat - 0xF000000000) (w.vpair d.toNat l))
        (s.issueStore w (.st gp sz d base off))) := by
  show execSt gp sz d base off s = _
  rw [execSt, word_runs h]
  rfl
end

/-- Settles O14: each load by what its fetch says that it reads, and each store by the stores of its lanes. -/
theorem accessesIssue : Obligations.AccessesIssue := by
  unfold Obligations.AccessesIssue
  refine ⟨⟨fun gp sz d base off la s w v h => accessesIssue_ld h, fun gp acq wd sc d base la s w v h => ?_,
    fun gp sz d base off la s w v h => accessesIssue_lds h, fun gp wd d base la s w v h => ?_, fun gp k d base la s w v h => ?_⟩,
    fun gp sz d base off s w v h => ⟨_, State.issueStore_stores rfl (StSize_bytes_mem sz), exec_st_issues h⟩,
    fun gp rel wd sc d base s w v h => ?_, fun gp sz d base off s w v h => ?_⟩
  · refine ⟨_, loadWord_issues h rfl, State.issueLoad_loads h.live ?_⟩
    rw [← laneAddr_base]; rfl
  · refine ⟨_, loadWord_issues h rfl, State.issueLoad_loads h.live ?_⟩
    rw [← laneAddr_base]; rfl
  · refine ⟨_, loadWord_issues h rfl, State.issueLoad_fields h.live ?_⟩
    rw [← laneAddr_base]; rfl
  · refine ⟨_, word_runs h fun v s => s.issueStore v (.stStrong gp rel wd sc d base), State.issueStore_stores ?_ (Width_bytes_mem wd)⟩
    rw [← laneAddr_base]; rfl
  · exact ⟨_, word_runs h fun w s => s.issueStore w (.sts gp sz d base off), State.issueStore_stores rfl (StSize_bytes_mem sz)⟩

end Sys2Proof.Machine
end

section
/-! PROOFS. Fences (O17): what performing the accesses of some lanes leaves in flight, what a release raises and a mark binds, and what an
acquire drops. -/

namespace Sys2Proof.Machine
open Sys2Proof

/-! ### The accesses of some lanes are performed (R107) -/

theorem getLsbD_foldl_or_map {α : Type} (f : α → BitVec 64) (xs : List α) (m : BitVec 64) (l : Nat) :
    (xs.foldl (fun m a => m ||| f a) m).getLsbD l = (m.getLsbD l || xs.any fun a => (f a).getLsbD l) := by
  induction xs generalizing m with
  | nil => simp
  | cons a r ih => rw [List.foldl_cons, ih, BitVec.getLsbD_or, List.any_cons, Bool.or_assoc]

/-- The lanes that go first are added to a mask; none is taken away. -/
theorem LandOp.closure_of_mem (op : LandOp) {m : BitVec 64} {l : Nat} (h : m.getLsbD l = true) : (op.closure m).getLsbD l = true := by
  unfold LandOp.closure
  generalize op.lanes.reverse = ls
  induction ls generalizing m with
  | nil => exact h
  | cons j r ih =>
    refine ih ?_
    dsimp only
    split
    · rw [BitVec.getLsbD_or, h, Bool.true_or]
    · exact h
/-- Of a word in flight whose part is performed, the lanes of the part have nothing left to access. -/
theorem LandOp.lanes_performed {op : LandOp} {m : BitVec 64} {l : Nat} (h : l ∈ (op.performed m).lanes) :
    l ∈ op.lanes ∧ m.getLsbD l = false := by
  cases op with
  | load | bfx | atom =>
    obtain ⟨x, hx, rfl⟩ := List.mem_map.1 h
    obtain ⟨hmem, hout⟩ := List.mem_filter.1 hx
    exact ⟨List.mem_map_of_mem hmem, by simpa using hout⟩
  | values | scalar | topk => cases h
/-- What a release of some lanes must follow includes all that they have in flight. -/
theorem forcedLanes_of_release {lanes : BitVec 64} {op : LandOp} {l : Nat} (hl : l ∈ op.lanes) (hin : lanes.getLsbD l = true) :
    (forcedLanes { lanes := lanes, rel := true } op).getLsbD l = true := by
  have hl64 : l < 64 := BitVec.lt_of_getLsbD hin
  have hmask : (laneMask (op.lanes.filter fun l => rangesMeet (op.restrict (oneLane l) true).ranges [] ||
      (lanes.getLsbD l && (true || op.acquires || strongOrder none op)))).getLsbD l = true := by
    rw [getLsbD_laneMask _ hl64, decide_eq_true_eq, List.mem_filter]
    exact ⟨hl, by simp [hin]⟩
  cases op with
  | load | bfx | atom => exact LandOp.closure_of_mem _ hmask
  | values | scalar | topk => cases hl

/-- What must precede one of some accesses is among the parts that must precede them. -/
theorem mem_forcedParts {as_ : List Access} {a : Access} {ps : List Pending} {p : Pending} {l : Nat} (ha : a ∈ as_) (hp : p ∈ ps)
    (hl : (forcedLanes a p.op).getLsbD l = true) : ∃ x ∈ forcedParts as_ ps, x.1 = p ∧ x.2.getLsbD l = true := by
  induction ps generalizing as_ with
  | nil => cases hp
  | cons q r ih =>
    simp only [forcedParts]
    rcases List.mem_cons.1 hp with rfl | hp
    · have hin : (as_.foldl (fun m a => m ||| forcedLanes a p.op) 0).getLsbD l = true := by
        rw [getLsbD_foldl_or_map, List.any_eq_true.2 ⟨a, ha, hl⟩, Bool.or_true]
      have hne : as_.foldl (fun m a => m ||| forcedLanes a p.op) 0 ≠ 0 := fun h0 => by
        rw [h0] at hin
        simp at hin
      rw [if_neg hne]
      exact ⟨_, List.mem_append_right _ (List.mem_singleton_self _), rfl, hin⟩
    · split
      · exact ih ha hp
      · obtain ⟨x, hx, hxp⟩ := ih (List.mem_cons_of_mem _ ha) hp
        exact ⟨x, List.mem_append_left _ hx, hxp⟩

section
variable {s : State} {k slot : Nat} {w : Warp} (hw : s.warp? k slot = some w)
include hw

theorem State.performPart_pending (x : Part) : ∃ w', (s.performPart k slot x).warp? k slot = some w' ∧
    ∀ p ∈ w'.pending, ∃ q ∈ w.pending, p.id = q.id ∧
      ∀ l ∈ p.op.lanes, l ∈ q.op.lanes ∧ (q.id = x.1.id → x.2.getLsbD l = false) := by
  obtain ⟨h, hnone⟩ | ⟨u, vs, b, tid, psn, -, hu, h⟩ := s.performPart_steps k slot x
  · exact ⟨w, by rw [h]; exact hw, fun p hp => ⟨p, hp, rfl, fun l hl => ⟨hl, fun hid => absurd hid (hnone w hw p hp)⟩⟩⟩
  · refine ⟨{ w with pending := w.pending.map (Pending.performedPart x.1.id x.2 vs b) }, ?_, fun p hp => ?_⟩
    · have hcores (s : State) (tid : Nat) (b : Bool) : (s.consumed tid b).cores = s.cores := by cases b <;> rfl
      rw [h, State.warp?, State.core, hcores]
      show (u.modWarp k slot _).warp? k slot = _
      rw [State.warp?_modWarp_eq, hu, hw]
      exact if_pos ⟨rfl, rfl⟩
    · obtain ⟨q, hq, rfl⟩ := List.mem_map.1 hp
      refine ⟨q, hq, ?_, fun l hl => ?_⟩
      · unfold Pending.performedPart; split <;> rfl
      · unfold Pending.performedPart at hl
        split at hl
        · exact ⟨(LandOp.lanes_performed hl).1, fun _ => (LandOp.lanes_performed hl).2⟩
        · next hid => exact ⟨hl, fun h => absurd h hid⟩
theorem State.performParts_pending (ps : List Part) : ∃ w', (s.performParts k slot ps).warp? k slot = some w' ∧
    ∀ p ∈ w'.pending, ∃ q ∈ w.pending, p.id = q.id ∧
      ∀ l ∈ p.op.lanes, l ∈ q.op.lanes ∧ ∀ x ∈ ps, q.id = x.1.id → x.2.getLsbD l = false := by
  induction ps generalizing s w with
  | nil => exact ⟨w, hw, fun p hp => ⟨p, hp, rfl, fun l hl => ⟨hl, fun x hx => nomatch hx⟩⟩⟩
  | cons x r ih =>
    obtain ⟨w1, hw1, hfirst⟩ := State.performPart_pending hw x
    obtain ⟨w2, hw2, hrest⟩ := ih hw1
    refine ⟨w2, hw2, fun p hp => ?_⟩
    obtain ⟨q, hq, hpq, hlq⟩ := hrest p hp
    obtain ⟨o, ho, hqo, hlo⟩ := hfirst q hq
    refine ⟨o, ho, hpq.trans hqo, fun l hl => ?_⟩
    obtain ⟨hq', hr⟩ := hlq l hl
    obtain ⟨ho', hx⟩ := hlo l hq'
    exact ⟨ho', List.forall_mem_cons.2 ⟨hx, hqo ▸ hr⟩⟩
/-- Once everything that some lanes have in flight is performed, they have nothing left to access. -/
theorem State.performAll_pending (lanes : BitVec 64) : ∃ w', (s.performAll k slot lanes).warp? k slot = some w' ∧
    w' = { w with pending := w'.pending } ∧ ∀ p ∈ w'.pending, ∀ l ∈ p.op.lanes, lanes.getLsbD l = false := by
  have hperform : s.performAll k slot lanes = s.performParts k slot (w.partsAll lanes) := by
    rw [State.performAll, State.settleAt, hw]; rfl
  obtain ⟨w', hw', hpend⟩ := State.performParts_pending hw (w.partsAll lanes)
  obtain ⟨w'', hw'', hrest⟩ := (s.performParts_performs k slot (w.partsAll lanes)).warps k slot w hw
  obtain rfl := Option.some.inj (hw'.symm.trans hw'')
  rw [hperform]
  refine ⟨w', hw', hrest, fun p hp l hl => ?_⟩
  obtain ⟨q, hq, -, hlanes⟩ := hpend p hp
  obtain ⟨hlq, hdone⟩ := hlanes l hl
  by_contra hin
  rw [Bool.not_eq_false] at hin
  obtain ⟨x, hx, rfl, hxl⟩ := mem_forcedParts (List.mem_singleton_self _) (List.mem_reverse.2 hq) (forcedLanes_of_release hlq hin)
  exact absurd hxl (Bool.not_eq_true _ ▸ hdone x hx rfl)
end

/-! ### What a release raises (R107, R114) -/

/-- The numbers of the stores in flight. -/
def State.pendIds (s : State) : List Nat := s.pend.map (·.id)

theorem State.dropStale_pendIds (s : State) (sel : Nat → Bool) (loc n : Nat) : (s.dropStale sel loc n).pendIds = s.pendIds := by
  simp only [State.pendIds, State.dropStale, List.map_map]
  refine List.map_congr_left fun p _ => ?_
  rw [Function.comp]
  split <;> rfl
theorem State.performStore_pendIds_nodup (s : State) (p : PendStore) (late : List Nat) (h : s.pendIds.Nodup) :
    (s.performStore p late).pendIds.Nodup := by
  have hgone : ({ s with pend := s.pend.filter fun q => q.id != p.id } : State).pendIds.Nodup :=
    h.sublist ((List.filter_sublist).map _)
  unfold State.performStore
  split
  · exact hgone
  · show (State.dropStale _ _ _ _).pendIds.Nodup
    rw [State.dropStale_pendIds, State.pendIds, State.fill_pend, State.applyStore_pend]
    exact hgone
theorem State.rise_pendIds_nodup (s : State) (p : PendStore) (late : List Nat) (h : s.pendIds.Nodup) : (s.rise p late).pendIds.Nodup := by
  unfold State.rise
  split
  · exact s.performStore_pendIds_nodup p late h
  · have hgone : ((s.pend.filter fun q => q.id != p.id).map (·.id)).Nodup := h.sublist ((List.filter_sublist).map _)
    simp only [State.pendIds, List.map_append]
    refine hgone.append (List.nodup_singleton _) fun id hid hp => ?_
    obtain ⟨q, hq, rfl⟩ := List.mem_map.1 hid
    exact absurd (List.mem_singleton.1 hp) (by simpa using (List.mem_filter.1 hq).2)
theorem State.foldl_pendIds_nodup {α : Type} {f : State → α → State} (hf : ∀ s a, s.pendIds.Nodup → (f s a).pendIds.Nodup) (xs : List α)
    {s : State} (h : s.pendIds.Nodup) : (xs.foldl f s).pendIds.Nodup := by
  induction xs generalizing s with
  | nil => exact h
  | cons a r ih => exact ih (hf s a h)
theorem State.lift_pendIds_nodup (fuel : Nat) (s : State) (id level : Nat) (h : s.pendIds.Nodup) :
    (State.lift fuel s id level).pendIds.Nodup := by
  induction fuel generalizing s id level with
  | zero => exact h
  | succ fuel ih =>
    simp only [State.lift]
    split
    · exact h
    · next p _ =>
      split
      · exact h
      · have hheld : ((s.holding p).foldl (fun s c => State.lift fuel s c.1 c.2) s).pendIds.Nodup :=
          State.foldl_pendIds_nodup (fun s c h => ih s c.1 c.2 h) _ h
        split
        · exact hheld
        · next q _ =>
          split
          · exact hheld
          · refine ih _ _ _ (State.rise_pendIds_nodup _ _ _ ?_)
            rw [State.pendIds, State.freeDoms_pend]
            exact hheld
theorem State.flushTo_pendIds_nodup (s : State) (level : Nat) (sel : PendStore → Bool) (h : s.pendIds.Nodup) :
    (s.flushTo level sel).pendIds.Nodup :=
  State.foldl_pendIds_nodup (fun s _ h => s.lift_pendIds_nodup _ _ _ h) _ h

theorem State.levelNow_le {s : State} (h : s.pendIds.Nodup) {p : PendStore} (hp : p ∈ s.pend) : s.levelNow p.id ≤ p.level := by
  unfold State.levelNow
  cases hfind : s.pend.find? fun q => q.id == p.id with
  | none => exact absurd (List.find?_eq_none.1 hfind p hp) (by simp)
  | some q =>
    have hid : q.id = p.id := by simpa using List.find?_some hfind
    obtain rfl := List.inj_on_of_nodup_map h (List.mem_of_find?_eq_some hfind) hp hid
    dsimp only
    split
    · exact Nat.zero_le _
    · exact le_rfl
/-- A flush that succeeds leaves whatever it selected at its level at least. -/
theorem State.level_of_flushed {s t : State} {level : Nat} {sel : PendStore → Bool} (h : s.pendIds.Nodup) (hf : s.flushed level sel = some t)
    {q p : PendStore} (hq : q ∈ s.pend) (hs : sel q = true) (hp : p ∈ t.pend) (hid : p.id = q.id) : level ≤ p.level := by
  simp only [State.flushed, Option.ite_none_right_eq_some, Option.some.injEq, List.all_map, List.all_eq_true, Function.comp_apply,
    decide_eq_true_eq] at hf
  obtain ⟨hall, rfl⟩ := hf
  have hlevel := hall q (List.mem_filter.2 ⟨hq, hs⟩)
  rw [← hid] at hlevel
  exact hlevel.trans (State.levelNow_le (s.flushTo_pendIds_nodup level sel h) hp)
theorem State.flushed_rises {s t : State} {level : Nat} {sel : PendStore → Bool} (hf : s.flushed level sel = some t) : Rises s t := by
  simp only [State.flushed, Option.ite_none_right_eq_some, Option.some.injEq] at hf
  obtain ⟨-, rfl⟩ := hf
  exact s.flushTo_rises level sel
/-- A release that succeeds has raised what its warp saw to the level of its scope. -/
theorem State.released_raises {s t : State} {k slot : Nat} {sc : Scope} (h : s.pendIds.Nodup) (hr : s.released k slot sc = some t) :
    Rises s t ∧ ∀ q ∈ s.pend, s.sees (agentOf k slot) q = true → ∀ p ∈ t.pend, p.id = q.id → scopeLevel sc ≤ p.level := by
  cases sc with
  | warp => exact ⟨Option.some.inj hr ▸ .refl s, fun _ _ _ _ _ _ => Nat.zero_le _⟩
  | core | clus | dev | sys =>
    exact ⟨State.flushed_rises hr, fun q hq hs p hp hid => State.level_of_flushed h hr hq hs hp hid⟩

/-! ### The mark of a release (R108) -/

/-- A mark binds each later store of its thread at the level of its scope. -/
theorem State.scopeLevel_le_binds (s : State) (a thr : Nat) (strong : Option Scope) (rel : Bool) (q : PendStore) (sc : Scope)
    (hthr : q.thr = thr) (hop : q.op = .mark) (hsc : q.strong = some sc) : scopeLevel sc ≤ s.binds a thr strong rel q := by
  simp [State.binds, PendStore.ofThread, hthr, hop, hsc]
/-- The mark of a lane in a state: in flight for its thread alone, and bound at the level of its scope by what the warp sees. -/
def IsMark (s : State) (k slot : Nat) (sc : Scope) (l : Nat) (p : PendStore) : Prop :=
  p.op = .mark ∧ p.agent = agentOf k slot ∧ p.thr = threadOf k slot l ∧ p.level = 0 ∧ p.strong = some sc ∧
    ∀ q ∈ s.pend, s.sees (agentOf k slot) q = true → 0 < scopeLevel sc → ∃ n, scopeLevel sc ≤ n ∧ (q.id, n) ∈ p.after
theorem State.foldl_marks (s : State) (k slot : Nat) (sc : Scope) (ls : List Nat) :
    ∃ ms n, ls.foldl (fun s l => s.store (agentOf k slot) (threadOf k slot l) 0 (some sc) true false .mark) s =
      { s with pend := s.pend ++ ms, nextId := n } ∧ ∀ l ∈ ls, ∃ p ∈ ms, IsMark s k slot sc l p := by
  induction ls generalizing s with
  | nil => exact ⟨[], s.nextId, by simp, fun l hl => nomatch hl⟩
  | cons l r ih =>
    obtain ⟨ms, n, hfold, hms⟩ := ih (s.store (agentOf k slot) (threadOf k slot l) 0 (some sc) true false .mark)
    refine ⟨⟨s.nextId, agentOf k slot, threadOf k slot l, 0, some sc, s.orders (agentOf k slot) (threadOf k slot l) (some sc) true, false, [],
      s.nextId, .mark⟩ :: ms, n, ?_, List.forall_mem_cons.2 ⟨⟨_, List.mem_cons_self, rfl, rfl, rfl, rfl, rfl, fun q hq hsee hpos => ?_⟩,
      fun j hj => ?_⟩⟩
    · rw [List.foldl_cons, hfold]
      show ({ s with pend := (s.pend ++ [_]) ++ ms, nextId := n } : State) = _
      rw [List.append_assoc]
      rfl
    · have hlevel : scopeLevel sc ≤ s.binds (agentOf k slot) (threadOf k slot l) (some sc) true q := by simp [State.binds, hsee]
      exact ⟨_, hlevel, mem_orders.2 ⟨(hpos.trans_le hlevel).ne', q, hq, rfl⟩⟩
    · obtain ⟨p, hp, hop, hagent, hthr, hlevel, hstrong, hafter⟩ := hms j hj
      exact ⟨p, List.mem_cons_of_mem _ hp, hop, hagent, hthr, hlevel, hstrong, fun q hq => hafter q (List.mem_append_left _ hq)⟩
theorem State.markFence_marks (s : State) (k slot : Nat) (sc : Scope) (lanes : BitVec 64) :
    ∃ ms n, s.markFence k slot sc lanes = { s with pend := s.pend ++ ms, nextId := n } ∧
      ∀ l < 64, lanes.getLsbD l = true → ∃ p ∈ ms, IsMark s k slot sc l p := by
  obtain ⟨ms, n, hfold, hms⟩ := s.foldl_marks k slot sc ((List.range 64).filter lanes.getLsbD)
  exact ⟨ms, n, hfold, fun l hl hin => hms l (List.mem_filter.2 ⟨List.mem_range.2 hl, hin⟩)⟩

/-! ### What an acquire drops (R89, R118) -/

/-- After an acquire at a scope wider than the domain, it keeps no older copy but of RO lines, and below .sys of host and peer memory. -/
theorem State.stale_acquireAt {s : State} {k : Nat} {sc : Scope} (hwide : s.wider k sc = true) {y : Stale}
    (hy : y ∈ (s.acquireAt k sc).stale) (hdom : y.dom = s.domOf k) : y.ro = true ∨ (0x8000000000 ≤ y.loc ∧ sc ≠ .sys) := by
  rw [State.acquireAt, if_pos hwide] at hy
  have hkept := (List.mem_filter.1 hy).2
  simp only [hdom, BEq.rfl, Bool.true_and, Bool.not_and, Bool.not_not, Bool.or_eq_true, Bool.not_eq_true', Bool.or_eq_false_iff,
    beq_eq_false_iff_ne] at hkept
  exact hkept.imp_right fun h => ⟨Nat.not_lt.1 (of_decide_eq_false h.1), h.2⟩
/-- An acquire changes no level of a store in flight. -/
theorem State.level_acquireAt {s : State} {k : Nat} {sc : Scope} {p : PendStore} (hp : p ∈ (s.acquireAt k sc).pend) :
    ∃ q ∈ s.pend, q.id = p.id ∧ q.level = p.level := by
  unfold State.acquireAt at hp
  split at hp
  · obtain ⟨q, hq, rfl⟩ := List.mem_map.1 hp
    refine ⟨q, hq, ?_⟩
    split <;> exact ⟨rfl, rfl⟩
  · exact ⟨p, hp, rfl, rfl⟩

/-! ### The end of a fence's wait (R108, R114) -/

/-- The one wait of a slice ends when what it waits for is met. -/
theorem State.onWait_single {s : State} {core slot slice : Nat} {w : Warp} {wt : Wait} (h : WaitsAt s core slot slice w wt)
    (f : Warp → Wait → Option State) :
    s.onWait core slot slice f = ((f w wt).map fun t => t.endWait core slot slice wt).getD s := by
  obtain ⟨x, hx, hwaits⟩ := h.waits
  have hof : s.waitsOf core slot slice = [wt] := by simp [State.waitsOf, h.warp, hx, hwaits, h.runs]
  rw [State.onWait, h.warp]
  dsimp only
  rw [hof, List.findSome?_singleton]
  cases f w wt <;> rfl

/-- What a fence leaves, once its lanes' accesses are performed: a FENCE.ar has released, a FENCE.rel has left its marks, and an acquire is
seen; none while a release is held back. -/
def State.fenced (s : State) (core slot : Nat) (acq rel : Bool) (sc : Scope) (lanes : BitVec 64) : Option State :=
  (if rel && acq then s.released core slot sc else some (if rel then s.markFence core slot sc lanes else s)).map fun t =>
    if acq then t.acquireAt core sc else t
theorem State.fenced_eq_none {s : State} {core slot : Nat} {acq rel : Bool} {sc : Scope} {lanes : BitVec 64} :
    s.fenced core slot acq rel sc lanes = none ↔ (rel && acq && (s.released core slot sc).isNone) = true := by
  rw [State.fenced, Option.map_eq_none_iff]
  cases rel <;> cases acq <;> simp
theorem exec_fenceWaitComplete_fence {s : State} {core slot slice : Nat} {w : Warp} {acq rel : Bool} {sc : Scope} {lanes : BitVec 64}
    (h : WaitsAt s core slot slice w (.fence acq rel sc lanes)) : exec (.fenceWaitComplete core slot slice) s = .next (
      if s.partsReady core slot (w.partsAll lanes) then
        (((s.performAll core slot lanes).fenced core slot acq rel sc lanes).map fun t =>
          t.endWait core slot slice (.fence acq rel sc lanes)).getD s
      else s) := by
  show execFenceWaitComplete core slot slice s = _
  rw [execFenceWaitComplete, State.onWait_single h]
  dsimp only
  rw [State.performedAll]
  split
  · rfl
  · rfl

section
variable {s t : State} {core slot : Nat} {acq rel : Bool} {sc : Scope} {lanes : BitVec 64}
  (hf : s.fenced core slot acq rel sc lanes = some t)
include hf

/-- What a fence does before it acquires leaves the warps and the clocks. -/
theorem State.fenced_acquires (h : s.pendIds.Nodup) : ∃ u, Accessed s u ∧ t = if acq then u.acquireAt core sc else u := by
  obtain ⟨u, hu, rfl⟩ := Option.map_eq_some_iff.1 hf
  refine ⟨u, ?_, rfl⟩
  split at hu
  · exact (State.released_raises h hu).1.accessed
  · obtain rfl := Option.some.inj hu
    split
    · exact .foldl _ (fun s l => s.storePart_accessed ..) _ s
    · exact .refl s
theorem State.fenced_accessed (h : s.pendIds.Nodup) : Accessed s t := by
  obtain ⟨u, hu, rfl⟩ := State.fenced_acquires hf h
  split
  · exact hu.trans (State.acquireAt_rises ..).accessed
  · exact hu
theorem State.fenced_released (h : s.pendIds.Nodup) (hrel : rel = true) (hacq : acq = true) :
    ∀ q ∈ s.pend, s.sees (agentOf core slot) q = true → ∀ p ∈ t.pend, p.id = q.id → scopeLevel sc ≤ p.level := by
  subst hrel hacq
  obtain ⟨u, hu, rfl⟩ := Option.map_eq_some_iff.1 hf
  intro q hq hsee p hp hid
  obtain ⟨p', hp', hid', hlevel⟩ := State.level_acquireAt hp
  exact hlevel ▸ (State.released_raises h hu).2 q hq hsee p' hp' (hid'.trans hid)
theorem State.fenced_marks (hrel : rel = true) (hacq : acq = false) :
    (∀ q ∈ s.pend, q ∈ t.pend) ∧ ∀ l < 64, lanes.getLsbD l = true → ∃ p ∈ t.pend, IsMark s core slot sc l p := by
  subst hrel hacq
  obtain rfl : s.markFence core slot sc lanes = t := Option.some.inj hf
  obtain ⟨ms, n, hmarks, hms⟩ := s.markFence_marks core slot sc lanes
  rw [hmarks]
  refine ⟨fun q hq => List.mem_append_left _ hq, fun l hl hin => ?_⟩
  obtain ⟨p, hp, hmark⟩ := hms l hl hin
  exact ⟨p, List.mem_append_right _ hp, hmark⟩
theorem State.fenced_acquired (h : s.pendIds.Nodup) (hacq : acq = true) (hwide : s.wider core sc = true) :
    ∀ y ∈ t.stale, y.dom = s.domOf core → y.ro = true ∨ (0x8000000000 ≤ y.loc ∧ sc ≠ .sys) := by
  subst hacq
  obtain ⟨u, hu, rfl⟩ := State.fenced_acquires hf h
  have hsame : Performs s u := hu.performs
  intro y hy hdom
  exact State.stale_acquireAt ((hsame.wider core sc).trans hwide) hy (hdom.trans (hsame.domOf core).symm)
end

/-- The slice whose one wait ends goes on after its bundle. -/
theorem Warp.slice?_endWait {w : Warp} {j : Nat} {x : Slice} {wt : Wait} (now : Nat) (hx : w.slice? j = some x) (hwaits : x.waits = [wt]) :
    (w.endWait j wt now).slice? j = some { x with waits := [], pc := x.resume, retired := x.retired || x.leaving } := by
  have hready (v old : Warp) : (Warp.readyFrom v old now).slices = v.slices := by
    unfold Warp.readyFrom
    split <;> rfl
  have hend : x.endWait wt = { x with waits := [], pc := x.resume, retired := x.retired || x.leaving } := by
    simp [Slice.endWait, hwaits]
  rw [Warp.endWait, hx]
  dsimp only
  rw [Warp.slice?, hready]
  simp only [List.getElem?_map]
  rw [show w.slices[j]? = some x from hx, Option.map_some, if_pos rfl, hend]
theorem Warp.endWait_pending (w : Warp) (j : Nat) (wt : Wait) (now : Nat) : (w.endWait j wt now).pending = w.pending := by
  unfold Warp.endWait
  split
  · unfold Warp.readyFrom
    split <;> rfl
  · rfl

/-- What a fence's wait leaves when it ends. -/
theorem fenceWaitComplete_ends {s : State} {core slot slice : Nat} {w : Warp} {x : Slice} {acq rel : Bool} {sc : Scope} {lanes : BitVec 64}
    (hw : s.warp? core slot = some w) (hfrozen : s.frozen w = false) (hx : w.slice? slice = some x)
    (hwaits : x.waits = [.fence acq rel sc lanes]) :
    let s1 := s.performAll core slot lanes
    (s1.pend.map (·.id)).Nodup → ∃ t, exec (.fenceWaitComplete core slot slice) s = .next t ∧
      if s.partsReady core slot (w.partsAll lanes) = false ∨ (rel && acq && (s1.released core slot sc).isNone) = true then t = s
      else
        (∃ w' y, t.warp? core slot = some w' ∧ w'.slice? slice = some y ∧ y.waits = [] ∧ y.pc = x.resume ∧
          ∀ p ∈ w'.pending, ∀ l ∈ p.op.lanes, lanes.getLsbD l = false) ∧
        (rel = true → acq = true → ∀ q ∈ s1.pend, s1.sees (agentOf core slot) q = true → ∀ p ∈ t.pend, p.id = q.id → scopeLevel sc ≤ p.level) ∧
        (rel = true → acq = false → (∀ q ∈ s1.pend, q ∈ t.pend) ∧ ∀ l < 64, lanes.getLsbD l = true → ∃ p ∈ t.pend, IsMark s1 core slot sc l p) ∧
        (acq = true → s.wider core sc = true → ∀ y ∈ t.stale, y.dom = s.domOf core →
          y.ro = true ∨ (0x8000000000 ≤ y.loc ∧ sc ≠ .sys)) := by
  intro s1 hnodup
  refine ⟨_, exec_fenceWaitComplete_fence ⟨hw, hfrozen, x, hx, hwaits⟩, ?_⟩
  cases hready : s.partsReady core slot (w.partsAll lanes) with
  | false => rw [if_pos (.inl rfl)]; rfl
  | true =>
    cases hfenced : s1.fenced core slot acq rel sc lanes with
    | none => rw [if_pos (.inr (State.fenced_eq_none.1 hfenced)), if_pos rfl]; rfl
    | some u =>
      have hheld : ¬(true = false ∨ (rel && acq && (s1.released core slot sc).isNone) = true) := by
        rintro (h | h)
        · cases h
        · exact nomatch hfenced.symm.trans (State.fenced_eq_none.2 h)
      rw [if_neg hheld, if_pos rfl]
      have hs1 : Performs s s1 := s.settleAt_performs ..
      have hacc := State.fenced_accessed hfenced hnodup
      obtain ⟨w1, hw1, hrest, hdone⟩ := State.performAll_pending hw lanes
      have hu : u.warp? core slot = some w1 := by rw [State.warp?, State.core, hacc.cores]; exact hw1
      have hx1 : w1.slice? slice = some x := by rw [hrest]; exact hx
      refine ⟨⟨w1.endWait slice (.fence acq rel sc lanes) u.coreNow, _, ?_, Warp.slice?_endWait _ hx1 hwaits, rfl, rfl, ?_⟩, ?_⟩
      · show (State.endWait u core slot slice _).warp? core slot = _
        rw [State.endWait, State.warp?_modWarp_eq, hu]
        exact if_pos ⟨rfl, rfl⟩
      · rw [Warp.endWait_pending]
        exact hdone
      · have hpend : (State.endWait u core slot slice (.fence acq rel sc lanes)).pend = u.pend := State.modWarp_pend ..
        have hstale : (State.endWait u core slot slice (.fence acq rel sc lanes)).stale = u.stale := State.modWarp_stale ..
        show (_ → _ → ∀ q ∈ s1.pend, _ → ∀ p ∈ (State.endWait u core slot slice _).pend, _) ∧
          (_ → _ → (∀ q ∈ s1.pend, q ∈ (State.endWait u core slot slice _).pend) ∧
            ∀ l < 64, _ → ∃ p ∈ (State.endWait u core slot slice _).pend, _) ∧
          (_ → _ → ∀ y ∈ (State.endWait u core slot slice _).stale, _)
        rw [hpend, hstale]
        refine ⟨State.fenced_released hfenced hnodup, State.fenced_marks hfenced, fun hacq hwide y hy hdom => ?_⟩
        exact State.fenced_acquired hfenced hnodup hacq ((hs1.wider core sc).trans hwide) y hy (hdom.trans (hs1.domOf core).symm)

/-! ### The words (R254) -/

theorem State.wait_waits {s : State} {v : Warp} (wt : Wait) (h : s.live? = some v) : Waits s (s.wait wt) v wt := by
  have hwait : s.wait wt = { s.setWarp s.cur.core s.cur.slot (v.beginWait s.cur.slices wt s.nextPc) with cur := { s.cur with moved := true } } := by
    rw [State.wait, State.modLive_of_live s v _ h]
  exact ⟨hwait ▸ fun _ => rfl, hwait⟩
/-- A fence of acting lanes waits. -/
theorem fenceWord_waits {s : State} {w v : Warp} {i : Instr} {g : Guard} {acq rel : Bool} {sc : Scope} (h : Runs s w v i) :
    ∃ t, fenceWord i g acq rel sc s = .next t ∧
      if w.actLanes s.cur.slices g = [] then t = s else Waits s t v (.fence acq rel sc (laneMask (w.actLanes s.cur.slices g))) := by
  refine ⟨_, word_runs h _, ?_⟩
  simp only [List.isEmpty_iff]
  by_cases hl : w.actLanes s.cur.slices g = []
  · rw [if_pos hl, if_pos hl]
  · rw [if_neg hl, if_neg hl]
    exact State.wait_waits _ h.live

/-- Settles O17: the fences wait as one word does, a mark binds by its scope, and the end of a wait by what each kind of fence leaves. -/
theorem fences : Obligations.Fences := by
  unfold Obligations.Fences
  refine ⟨⟨fun s w v g sc h => fenceWord_waits h, fun s w v g sc h => fenceWord_waits h, fun s w v g sc h => fenceWord_waits h,
    fun s w v g h => ⟨_, word_runs h _, ?_⟩⟩, State.scopeLevel_le_binds,
    fun s core slot slice w x acq rel sc lanes hw hfrozen hx hwaits => fenceWaitComplete_ends hw hfrozen hx hwaits⟩
  split
  · exact State.wait_waits _ h.live
  · rfl

end Sys2Proof.Machine
end

section
/-! PROOFS. Copies (O20): what placing them leaves, what a copy of one run writes when it completes, and the words of their batches. -/

namespace Sys2Proof.Machine
open Sys2Proof

/-! ### Placing copies (R259, R115) -/

/-- From `s` to `t` the device may have asked for pages; the rest is as it was. -/
def Asks (s t : State) : Prop := ∃ us rs, t = { s with ucPages := us, pageReqs := rs }
theorem Asks.trans {s t u : State} (h : Asks s t) (g : Asks t u) : Asks s u := by
  obtain ⟨us, rs, rfl⟩ := h
  obtain ⟨vs, qs, rfl⟩ := g
  exact ⟨vs, qs, rfl⟩
theorem Asks.foldl {α : Type} {f : State → α → State} (hf : ∀ s x, Asks s (f s x)) (xs : List α) (s : State) : Asks s (xs.foldl f s) := by
  induction xs generalizing s with
  | nil => exact ⟨_, _, rfl⟩
  | cons x r ih => exact (hf s x).trans (ih _)
theorem State.askCopy_asks (s : State) (c : Nat) (a : DWord) (len rows pitch : Nat) (wr : Bool) : Asks s (s.askCopy c a len rows pitch wr) := by
  unfold State.askCopy
  split
  · exact ⟨_, _, rfl⟩
  · exact .foldl (fun s r => s.askSpan_rest ..) _ s
theorem State.askCopies_asks (s : State) (c : Nat) (w : Warp) (d : VReg) (a : Src) (geo : Warp → Nat → CopyGeom) (lanes : List Nat) :
    Asks s (s.askCopies c w d a geo lanes) :=
  .foldl (fun s _ => (s.askCopy_asks ..).trans (State.askCopy_asks ..)) lanes s
theorem Asks.leaves {s t : State} (h : Asks s t) : t.nextId = s.nextId ∧ t.cur = s.cur ∧ t.live? = s.live? ∧ ∀ w, t.ctxNo w = s.ctxNo w := by
  obtain ⟨us, rs, rfl⟩ := h
  exact ⟨rfl, rfl, rfl, fun _ => rfl⟩
/-- What comes before a copy leaves the cursor, the context and, but for what it has in flight, the warp. -/
theorem State.beforeCopies_leaves {s : State} {v : Warp} (hv : s.live? = some v) (w : Warp) (d : VReg) (a : Src) (geo : Warp → Nat → CopyGeom)
    (lanes : List Nat) :
    let s1 := s.beforeCopies w d a geo lanes
    s1.cur = s.cur ∧ (∀ u, s1.ctxNo u = s.ctxNo u) ∧ ∃ v1, s1.live? = some v1 := by
  have hsettle := (s.settleAccess_performs { ranges := copyWords (s.laneCopies w d a geo lanes), lanes := laneMask lanes, rel := true }).trans
    (State.flushTo_rises _ 1 (PendStore.beforeCopy s.cur.core s.cur.slot (laneMask lanes))).accessed.performs
  obtain ⟨-, hcur, hlive, hctx⟩ := (State.askCopies_asks _ (s.ctxNo w) w d a geo lanes).leaves
  obtain ⟨v1, hv1, -⟩ := hsettle.live? hv
  exact ⟨hcur.trans hsettle.cur, fun u => (hctx u).trans (hsettle.ctxNo u), v1, hlive.trans hv1⟩

/-- The state that places the copies of some lanes. -/
def State.placeCopies (s : State) (w : Warp) (d : VReg) (a : Src) (geo : Warp → Nat → CopyGeom) (lanes : List Nat) : State :=
  let s1 := s.beforeCopies w d a geo lanes
  let jobs := s1.laneCopies w d a geo lanes
  { s1.modLive (fun v => { v with jobs := v.jobs ++ jobs }) with nextId := s1.nextId + jobs.length }
theorem State.laneCopies_length (s : State) (w : Warp) (d : VReg) (a : Src) (geo : Warp → Nat → CopyGeom) (lanes : List Nat) :
    (s.laneCopies w d a geo lanes).length = lanes.length := by simp [State.laneCopies]
theorem State.getElem?_laneCopies {s : State} {w : Warp} {d : VReg} {a : Src} {geo : Warp → Nat → CopyGeom} {lanes : List Nat}
    {k l : Nat} {j : CopyJob} (hl : lanes[k]? = some l) (hj : (s.laneCopies w d a geo lanes)[k]? = some j) :
    j = s.copyJob s.cur.core (s.ctxNo w) w.grid w l (w.vpair d.toNat l) (w.src64 a l) (geo w l) (s.nextId + k) := by
  simp only [State.laneCopies, List.getElem?_map, List.getElem?_zipIdx, hl, Option.map_some, Option.some.injEq] at hj
  rw [← hj, Nat.zero_add]
theorem State.placeCopies_places {s : State} {v : Warp} (hv : s.live? = some v) (w : Warp) (d : VReg) (a : Src)
    (geo : Warp → Nat → CopyGeom) (lanes : List Nat) :
    let s1 := s.beforeCopies w d a geo lanes
    let t := s.placeCopies w d a geo lanes
    SameBytes s1 t ∧ ∃ v1 js, s1.live? = some v1 ∧
      t = { s1.setWarp s.cur.core s.cur.slot { v1 with jobs := v1.jobs ++ js } with nextId := s1.nextId + lanes.length } ∧
      js.length = lanes.length ∧ ∀ k l j, lanes[k]? = some l → js[k]? = some j →
        j.id = s1.nextId + k ∧ j.batch = w.nb + 1 ∧ j.lane = l ∧ j.dst0 = w.vpair d.toNat l ∧ j.src0 = w.src64 a l ∧
        j.dst = s1.copyRuns s.cur.core (s.ctxNo w) w.grid (w.vpair d.toNat l) (geo w l).len (geo w l).rows (geo w l).dpitch ∧
        j.src = (s1.copyRuns s.cur.core (s.ctxNo w) w.grid (w.src64 a l) (geo w l).len (geo w l).rows (geo w l).spitch).map
          fun x => (x.1, x.2.1) := by
  intro s1 t
  obtain ⟨hcur, hctx, v1, hv1⟩ := State.beforeCopies_leaves hv w d a geo lanes
  have ht : t = { s1.setWarp s.cur.core s.cur.slot { v1 with jobs := v1.jobs ++ s1.laneCopies w d a geo lanes } with
      nextId := s1.nextId + lanes.length } := by
    show ({ s1.modLive (fun v => { v with jobs := v.jobs ++ s1.laneCopies w d a geo lanes }) with
      nextId := s1.nextId + (s1.laneCopies w d a geo lanes).length } : State) = _
    rw [State.modLive_of_live s1 v1 _ hv1, hcur, State.laneCopies_length]
  refine ⟨ht ▸ fun _ => rfl, v1, _, hv1, ht, s1.laneCopies_length w d a geo lanes, fun k l j hl hj => ?_⟩
  obtain rfl := State.getElem?_laneCopies hl hj
  rw [hcur, hctx]
  exact ⟨rfl, rfl, rfl, rfl, rfl, rfl, rfl⟩
/-- A COPY waits for its lanes to fit, and places their copies. -/
theorem copyWord_runs {s : State} {w v : Warp} {i : Instr} {g : Guard} {d : VReg} {a : Src} {geo : Warp → Nat → CopyGeom}
    (h : Runs s w v i) (hwaits : copyWaits w s.cur.slices i = decide (256 < w.jobs.length + (w.actLanes s.cur.slices g).length)) :
    let lanes := w.actLanes s.cur.slices g
    copyWord i g d a geo s = .next (
      if 256 < w.jobs.length + lanes.length then { s with cur := { s.cur with moved := true } }
      else if lanes = [] then s else s.placeCopies w d a (fun _ l => geo w l) lanes) := by
  refine (word_runs h _).trans ?_
  simp only [hwaits, decide_eq_true_eq, List.isEmpty_iff]
  rfl

/-- Of a word that waits, does nothing or has its effect, what each outcome is. -/
theorem copyOutcome_cases {c e P : Prop} [Decidable c] [Decidable e] {t moved s u : State} (ht : t = if c then moved else if e then s else u)
    (hP : t = u → P) : if c then t = moved else if e then t = s else P := by
  split
  · next hc => rw [ht, if_pos hc]
  · next hc =>
    split
    · next he => rw [ht, if_neg hc, if_pos he]
    · next he => exact hP (by rw [ht, if_neg hc, if_neg he])

/-! ### A copy completes (R115, R259) -/

/-- No byte of a copy whose sides are apart is copied after it was written. -/
theorem copiedBytes_apart {dst src : List Nat} {bs : List Byte} (hd : dst.length = bs.length) (hs : src.length = bs.length)
    (h : ∀ x ∈ src, x ∉ dst) (free : Nat) : copiedBytes dst src bs free = bs := by
  have hold (p : (Nat × Nat × Byte) × Nat) (hp : p ∈ (dst.zip (src.zip bs)).zipIdx) :
      overlapByte (dst.zip (src.zip bs)) p.1.2.2 p.1.2.1 (free + p.2) = p.1.2.2 := by
    have hin : p.1 ∈ dst.zip (src.zip bs) := by
      have hmap := List.mem_map_of_mem (f := Prod.fst) hp
      rwa [List.zipIdx_map_fst] at hmap
    have hsrc : p.1.2.1 ∈ src := (List.of_mem_zip (List.of_mem_zip hin).2).1
    have hnone : (dst.zip (src.zip bs)).find? (fun q => q.1 == p.1.2.1) = none :=
      List.find?_eq_none.2 fun q hq heq => h _ hsrc (by rw [← eq_of_beq heq]; exact (List.of_mem_zip hq).1)
    rw [overlapByte, hnone]
  rw [copiedBytes, List.map_congr_left hold]
  calc (dst.zip (src.zip bs)).zipIdx.map (fun p => p.1.2.2)
      = (((dst.zip (src.zip bs)).zipIdx.map Prod.fst).map Prod.snd).map Prod.snd := by simp only [List.map_map]; rfl
    _ = bs := by
      rw [List.zipIdx_map_fst, List.map_snd_zip (by simp [hd, hs]), List.map_snd_zip (by simp [hs])]
/-- Bytes of which none is lost are stored as they were read. -/
theorem map_zip_replicate_false {f : (Byte × Bool) × Nat → Byte} (hf : ∀ x, x.1.2 = false → f x = x.1.1) (bs : List Byte) :
    ((bs.zip (List.replicate bs.length false)).zipIdx.map f) = bs := by
  have hkept (x : (Byte × Bool) × Nat) (hx : x ∈ (bs.zip (List.replicate bs.length false)).zipIdx) : f x = x.1.1 := by
    have hin := List.mem_map_of_mem (f := Prod.fst) hx
    rw [List.zipIdx_map_fst] at hin
    exact hf x (List.eq_of_mem_replicate (List.of_mem_zip hin).2)
  rw [List.map_congr_left hkept]
  calc (bs.zip (List.replicate bs.length false)).zipIdx.map (fun x => x.1.1)
      = (((bs.zip (List.replicate bs.length false)).zipIdx.map Prod.fst).map Prod.fst) := by simp only [List.map_map]; rfl
    _ = bs := by rw [List.zipIdx_map_fst, List.map_fst_zip (by simp)]

theorem overlay_length (lo : Nat) (bs : List Byte) (op : StoreOp) : (overlay lo bs op).length = bs.length := by
  cases op <;> simp [overlay, overlayBytes]
@[simp] theorem State.seen_length (s : State) (a loc n : Nat) : (s.seen a loc n).length = n := by
  have hview (ps : List PendStore) (bs : List Byte) : (ps.foldl (fun bs p => overlay loc bs p.op) bs).length = bs.length := by
    induction ps generalizing bs with
    | nil => rfl
    | cons p r ih => rw [List.foldl_cons, ih, overlay_length]
  simp [State.seen, hview]
theorem State.domOf_modWarp (s : State) (k slot : Nat) (f : Warp → Warp) : (s.modWarp k slot f).domOf = s.domOf := by
  funext j
  simp only [State.domOf, State.modWarp_fused, State.cluster?, State.logical?, State.modWarp_boot]
/-- What an agent reads rests on no warp. -/
theorem State.seen_modWarp (s : State) (k slot : Nat) (f : Warp → Warp) (a loc n : Nat) :
    (s.modWarp k slot f).seen a loc n = s.seen a loc n := by
  have hsees (p : PendStore) : (s.modWarp k slot f).sees a p = s.sees a p := by
    simp only [State.sees, State.domOf_modWarp, State.shares, State.oneCluster, State.cluster?, State.logical?, State.modWarp_boot]
  simp only [State.seen, State.viewOf, State.levelView, hsees, State.modWarp_pend, State.domOf_modWarp, State.held, State.modWarp_stale,
    State.byte, State.modWarp_mem]
theorem State.reach_modWarp (s : State) (k slot : Nat) (f : Warp → Warp) (j loc : Nat) (wr uc : Bool) :
    (s.modWarp k slot f).reach j loc wr uc = s.reach j loc wr uc := by
  unfold State.modWarp
  split <;> rfl
theorem State.flushTo_of_none {s : State} {sel : PendStore → Bool} (h : ∀ p ∈ s.pend, sel p = false) (level : Nat) :
    s.flushTo level sel = s := by
  rw [State.flushTo, List.filter_eq_nil_iff.2 fun p hp => by simp [h p hp]]
  rfl

/-- A flush that selects neither an older store nor the newest one leaves both. -/
theorem State.flush_storePart {s : State} {word agent thr level : Nat} {strong : Option Scope} {rel si : Bool} {op : StoreOp}
    {sel : PendStore → Bool} (hold : ∀ p ∈ s.pend, sel p = false) (hnew : ∀ p, p.op = op → sel p = false) :
    (s.storePart word agent thr level strong rel si op).flush sel = s.storePart word agent thr level strong rel si op :=
  State.flushTo_of_none (fun p hp => (List.mem_append.1 hp).elim (hold p) fun hp => hnew p (by rw [List.mem_singleton.1 hp])) 4
theorem mem_runLocs_single {loc n x : Nat} : x ∈ runLocs [(loc, n)] ↔ loc ≤ x ∧ x < loc + n := by
  simp only [runLocs, List.flatMap_cons, List.flatMap_nil, List.append_nil, List.mem_map, List.mem_range]
  exact ⟨fun ⟨i, hi, h⟩ => by omega, fun h => ⟨x - loc, by omega, by omega⟩⟩
theorem length_runLocs_single (loc n : Nat) : (runLocs [(loc, n)]).length = n := by simp [runLocs]

section
variable {s : State} {k tid src dst n : Nat} {si : Bool} {j : CopyJob} (hsrc : j.src = [(src, n)]) (hdst : j.dst = [(dst, n, si)])
  (hapart : src + n ≤ dst ∨ dst + n ≤ src) (hspad : dst < spadBase) (hids : ∀ q ∈ s.pend, q.id < s.nextId)
  (hreach : s.reach k src false true ≠ .dead) (hpoison : ∀ a, src ≤ a → a < src + n → s.poisoned a 1 = false)
include hsrc hdst hapart hspad hids hreach hpoison

/-- A copy of one run to another apart from it issues one plain store of the source's bytes. -/
theorem State.runCopy_single : ∃ f, s.runCopy k tid j none = ({ s with fresh := f } : State).storePart s.nextId (engineOf k)
    (64 * engineOf k) 1 none false si (.bytes dst (s.seen (engineOf k) src n)) := by
  have hdead : s.deadRuns k [(src, n)] false = [false] := by
    simp [State.deadRuns, beq_eq_false_iff_ne.2 hreach]
  have hclean : poisonedBytes s (runLocs [(dst, n)]) (runLocs [(src, n)]) (List.replicate n false) = [] := by
    rw [poisonedBytes, List.map_eq_nil_iff, List.filter_eq_nil_iff]
    intro p hp
    obtain ⟨hloc, hlost⟩ := List.of_mem_zip (List.of_mem_zip hp).2
    obtain ⟨hlo, hhi⟩ := mem_runLocs_single.1 hloc
    simp [List.eq_of_mem_replicate hlost, hpoison _ hlo hhi]
  have hcopied (free : Nat) :
      copiedBytes (runLocs [(dst, n)]) (runLocs [(src, n)]) (s.seen (engineOf k) src n) free = s.seen (engineOf k) src n := by
    refine copiedBytes_apart ?_ ?_ (fun x hx hx' => ?_) free
    · rw [length_runLocs_single, State.seen_length]
    · rw [length_runLocs_single, State.seen_length]
    · have hx := mem_runLocs_single.1 hx
      have hx' := mem_runLocs_single.1 hx'
      omega
  have hkept {f : (Byte × Bool) × Nat → Byte} (hf : ∀ x, x.1.2 = false → f x = x.1.1) :
      ((s.seen (engineOf k) src n).zip (List.replicate n false)).zipIdx.map f = s.seen (engineOf k) src n := by
    have h := map_zip_replicate_false hf (s.seen (engineOf k) src n)
    rwa [State.seen_length] at h
  refine ⟨s.fresh + 1 + n, ?_⟩
  rw [State.runCopy, hsrc, hdst]
  simp only [bareRuns, List.map_cons, List.map_nil, List.flatMap_cons, List.flatMap_nil, List.append_nil, Option.isSome_none, hdead,
    List.zip_cons_cons, List.zip_nil_right, hclean, hcopied, length_runLocs_single, List.length_singleton, State.storeRuns]
  rw [hkept fun x hx => by simp [hx], List.take_of_length_le (State.seen_length ..).le, State.flush_storePart
    (fun p hp => by simp [hids p hp]) (fun p hp => by simp [hp, StoreOp.range, hspad])]
  rfl
end

/-- Nothing waits for a batch where no slice waits. -/
theorem State.wakeBatches_idle {s : State} {k slot : Nat} {w : Warp} (hw : s.warp? k slot = some w) (hwaits : ∀ x ∈ w.slices, x.waits = []) :
    s.wakeBatches k slot = s := by
  have hnone (j : Nat) : s.waitsOf k slot j = [] := by
    rw [State.waitsOf, hw]
    dsimp only
    split
    · next x hx => rw [hwaits x (List.mem_of_getElem? hx)]; rfl
    · rfl
  have hkeeps (js : List Nat) (f : State → Warp → Wait → Option State) : js.foldl (fun s j => s.onWait k slot j (f s)) s = s := by
    induction js with
    | nil => rfl
    | cons j r ih =>
      have hone : s.onWait k slot j (f s) = s := by rw [State.onWait, hw, hnone]; rfl
      rw [List.foldl_cons, hone, ih]
  rw [State.wakeBatches, hw]
  dsimp only
  split
  · rfl
  · exact hkeeps _ fun s w wt => match wt with
      | .waitb n => if w.batchDone n then some s else none
      | _ => none

/-- A copy of a warp, which it has no more. -/
def Warp.dropCopy (w : Warp) (id : Nat) : Warp := { w with jobs := w.jobs.filter fun x => x.id != id }
theorem State.endCopy_served {s : State} {k slot : Nat} {w : Warp} {j : CopyJob} (hw : s.warp? k slot = some w)
    (hj : w.jobs.find? (fun x => x.id == j.id) = some j) (hserved : s.copyServed k j = true) (err : Option (BitVec 2)) :
    s.endCopy k slot j.id err = (s.modWarp k slot fun w => w.dropCopy j.id).runCopy k w.team j err := by
  rw [State.endCopy, hw]
  dsimp only
  rw [hj]
  exact if_pos hserved

section
variable {s : State} {core slot src dst n : Nat} {w : Warp} {si : Bool} {j : CopyJob} (hw : s.warp? core slot = some w)
  (hj : w.jobs.find? (fun x => x.id == j.id) = some j) (hwaits : ∀ x ∈ w.slices, x.waits = []) (hsrc : j.src = [(src, n)])
  (hdst : j.dst = [(dst, n, si)]) (hapart : src + n ≤ dst ∨ dst + n ≤ src) (hspad : dst < spadBase)
  (hids : ∀ q ∈ s.pend, q.id < s.nextId) (hread : s.blocked core src false = false) (hwrite : s.blocked core dst true = false)
  (hreach : s.reach core src false true ≠ .dead) (hpoison : ∀ a, src ≤ a → a < src + n → s.poisoned a 1 = false)
include hw hj hsrc hdst hapart hspad hids hread hwrite hreach hpoison

theorem State.endCopy_single :
    SameBytes s (s.endCopy core slot j.id none) ∧ (s.endCopy core slot j.id none).warp? core slot = some (w.dropCopy j.id) ∧
      ∃ p, (s.endCopy core slot j.id none).pend = s.pend ++ [p] ∧ p.agent = engineOf core ∧ p.level = 1 ∧ p.strong = none ∧
        p.op = .bytes dst (s.seen (engineOf core) src n) := by
  have hserved : s.copyServed core j = true := by simp [State.copyServed, hsrc, hdst, hread, hwrite]
  obtain ⟨f, hrun⟩ := State.runCopy_single (s := s.modWarp core slot fun w => w.dropCopy j.id) (tid := w.team) hsrc hdst hapart hspad
    (by simpa using hids) (by rw [State.reach_modWarp]; exact hreach) (by simpa only [State.poisoned, State.modWarp_poison] using hpoison)
  rw [State.endCopy_served hw hj hserved, hrun]
  refine ⟨fun a => ?_, ?_, _, congrArg (· ++ [_]) (State.modWarp_pend ..), rfl, rfl, rfl, ?_⟩
  · show sget 0 (s.modWarp core slot _).mem a = s.byte a
    rw [State.modWarp_mem, State.byte]
  · show (s.modWarp core slot _).warp? core slot = _
    rw [State.warp?_modWarp_eq, hw]
    exact if_pos ⟨rfl, rfl⟩
  · rw [State.seen_modWarp]
include hwaits
/-- A copy of one run to another apart from it completes. -/
theorem copyBatchComplete_single : ∃ t, exec (.copyBatchComplete core slot j.id none) s = .next t ∧ SameBytes s t ∧
    t.warp? core slot = some (w.dropCopy j.id) ∧
    ∃ p, t.pend = s.pend ++ [p] ∧ p.agent = engineOf core ∧ p.level = 1 ∧ p.strong = none ∧
      p.op = .bytes dst (s.seen (engineOf core) src n) := by
  have hend := State.endCopy_single hw hj hsrc hdst hapart hspad hids hread hwrite hreach hpoison
  refine ⟨_, rfl, ?_⟩
  rw [State.wakeBatches_idle hend.2.1 hwaits]
  exact hend
end

/-! ### Batches (R261, R116) -/

theorem Warp.batchDone_eq_false {w : Warp} {n : Nat} : w.batchDone n = false ↔ ∃ j ∈ w.jobs, j.batch ≤ n := by
  simp [Warp.batchDone]
theorem Warp.batchEmpty_eq_false {w : Warp} (h : ∀ j ∈ w.jobs, j.batch ≤ w.nb + 1) : w.batchEmpty = false ↔ ∃ j ∈ w.jobs, j.batch = w.nb + 1 := by
  simp only [Warp.batchEmpty, List.all_eq_false, decide_eq_true_eq]
  exact exists_congr fun j => and_congr_right fun hj => by have := h j hj; omega
/-- A SEAL waits while it would leave 17 sealed batches, and else gives the open batch its number. -/
theorem exec_seal_runs {s : State} {w v : Warp} {g : Guard} {d : SReg} (h : Runs s w v (.seal g d)) : exec (.seal g d) s = .next (
    if copyWaits w s.cur.slices (.seal g d) then { s with cur := { s.cur with moved := true } }
    else s.setWarp s.cur.core s.cur.slot (if w.actsOnce s.cur.slices g then
      { v with region := none, nb := w.nb + 1 }.sset d (BitVec.ofNat 64 (w.nb + 1)) else { v with region := none })) := by
  show execSeal g d s = _
  rw [execSeal, word_runs h]
  dsimp only
  rw [State.modLive_of_live _ v _ h.live]
  rfl
theorem copyWaits_seal {w : Warp} {m : BitVec 16} {g : Guard} {d : SReg} (h : ∀ j ∈ w.jobs, j.batch ≤ w.nb + 1) :
    copyWaits w m (.seal g d) = true ↔ w.actsOnce m g = true ∧ (∃ j ∈ w.jobs, j.batch = w.nb + 1) ∧
      16 ≤ ((w.jobs.map (·.batch)).filter (· ≤ w.nb)).eraseDups.length := by
  rw [← Warp.batchEmpty_eq_false h]
  simp only [copyWaits, Bool.and_eq_true, Bool.not_eq_true', decide_eq_true_eq, and_assoc]
  rfl
theorem exec_waitb_runs {s : State} {w v : Warp} {g : Guard} {a : SReg} (h : Runs s w v (.waitb g a)) :
    ∃ t, exec (.waitb g a) s = .next t ∧
      if w.actsOnce s.cur.slices g = true ∧ ∃ j ∈ w.jobs, j.batch ≤ (w.sget a).toNat then Waits s t v (.waitb (w.sget a).toNat)
      else t = s := by
  refine ⟨_, word_runs h _, ?_⟩
  simp only [Bool.and_eq_true, Bool.not_eq_true', Warp.batchDone_eq_false]
  split
  · exact State.wait_waits _ h.live
  · rfl

/-- Settles O20: a COPY by what it places once what comes before it is performed, a copy of one run by the one store it issues, and the
batch words by the numbers of the copies that are not complete. -/
theorem copies : Obligations.Copies := by
  unfold Obligations.Copies
  refine ⟨fun s w v g d a => ⟨fun b h => ?_, fun b h => ?_⟩,
    fun s core slot w j src dst n si hw hj hwaits hsrc hdst hapart hspad hids hread hwrite hreach hpoison =>
      copyBatchComplete_single hw hj hwaits hsrc hdst hapart hspad hids hread hwrite hreach hpoison, ?_, fun s w v g a => exec_waitb_runs,
    fun g d a => writesScalar_of_scalar (fun _ => rfl) fun s w => ?_⟩
  · obtain ⟨t, he, ht⟩ : ∃ t, exec (.copy g d a b) s = .next t ∧ t = _ := ⟨_, copyWord_runs h rfl, rfl⟩
    exact ⟨t, he, copyOutcome_cases ht fun hp => hp ▸ State.placeCopies_places h.live w d a (fun _ l => copyGeom1 (w.src32 b l)) _⟩
  · obtain ⟨t, he, ht⟩ : ∃ t, exec (.copy2d g d a b) s = .next t ∧ t = _ := ⟨_, copyWord_runs h rfl, rfl⟩
    exact ⟨t, he, copyOutcome_cases ht fun hp => hp ▸ State.placeCopies_places h.live w d a (fun _ l => copyGeom2 (w.src64 b l)) _⟩
  · intro s w v g d h waits hnew
    have hwaits : copyWaits w s.cur.slices (.seal g d) = true ↔ waits := copyWaits_seal hnew
    exact ⟨_, exec_seal_runs h, fun hw => if_pos (hwaits.2 hw), fun hw => if_neg fun hc => hw (hwaits.1 hc)⟩
  · by_cases hdone : ∃ j ∈ w.jobs, j.batch ≤ (w.sget a).toNat
    · rw [if_pos hdone, Warp.batchDone_eq_false.2 hdone]
      rfl
    · rw [if_neg hdone, if_pos (by simpa using mt Warp.batchDone_eq_false.1 hdone)]

end Sys2Proof.Machine
end

section
/-! PROOFS. Atomics (O19): a slot that its core does not have. -/

namespace Sys2Proof.Machine
open Sys2Proof

/-- A word in flight that may not land yet stays in flight. -/
theorem exec_longLatencyLanding_waits {s : State} {core slot : Nat} {w : Warp} {p : Pending} (hw : s.warp? core slot = some w)
    (hp : w.pending.find? (fun q => q.id == p.id) = some p) (hready : s.landReady core slot w p = false) :
    exec (.longLatencyLanding core slot p.id) s = .next s := by
  show execLongLatencyLanding core slot p.id s = _
  rw [execLongLatencyLanding, hw]
  dsimp only
  rw [hp]
  dsimp only
  rw [hready, if_neg Bool.false_ne_true]

/-- An atomic of lane 0 at location 0 of tower 0's memory, which executes in its core's own copy. -/
def addOwn : Pending := ⟨7, 0xFFFF, 0, 1, 1, destsV 5 1, .atom .addI32 .rlx .dev [(0, 0, 1, true, 5, 0)], [], false⟩
/-- The warp that has it in flight. -/
def addOwnWarp : Warp :=
  { newWarp 1 2 0 64 2 0x40000 (BitVec.allOnes 64) 0x100000 0x400000 [] false 0 with pending := [addOwn] }
/-- The device at reset, but that this warp stands in slot 64 of the last core of tower 0 and the bridges of tower 0 sleep. -/
def pastSlots : State :=
  { State.reset with
    cores := [(255, { Core.init with warps := [(64, addOwnWarp)] })]
    towers := [(0, { Tower.init with awake := 0 })] }

theorem pastSlots_warp : pastSlots.warp? 255 64 = some addOwnWarp := by rfl
theorem addOwn_find : addOwnWarp.pending.find? (fun q => q.id == addOwn.id) = some addOwn := by decide
theorem addOwn_parts : addOwnWarp.partsOf addOwn (BitVec.allOnes 64) = [(addOwn, BitVec.allOnes 64)] := by decide +kernel
theorem addOwn_alive : addOwnWarp.alive.getLsbD (0 / 4) = true := by decide +kernel
/-- Its own core reaches the location. -/
theorem pastSlots_served : pastSlots.reach 255 0 false true = .served ∧ pastSlots.blocked 255 0 false = false := by decide +kernel
/-- The agent of slot 64 is the one of the next core's slot 0, and that core, of tower 1, does not reach it. -/
theorem pastSlots_agent : agentCore (agentOf 255 64) = 256 ∧ pastSlots.blocked 256 0 false = true := by decide +kernel
theorem pastSlots_waits : pastSlots.landReady 255 64 addOwnWarp addOwn = false := by
  obtain ⟨hagent, hblocked⟩ := pastSlots_agent
  have hlanes : addOwn.op.restrict (BitVec.allOnes 64) true = addOwn.op := by decide
  rw [State.landReady, addOwn_parts, State.partsReady, List.all_cons, hlanes]
  simp [State.opReady, addOwn, State.atomReady, hagent, hblocked]

/-- Refutes O19: the clause of an atomic that lands does not ask that the slot is one of its core's, below 64. In `pastSlots` the warp
stands in slot 64 of core 255, whose agent is the one of core 256; the clause asks that core 255 reaches the location, the model that core
256 does, and the bridges between them sleep. So the atomic stays in flight, and the clause asks that it is gone. -/
theorem not_atomics : ¬ Obligations.Atomics := by
  unfold Obligations.Atomics
  rintro ⟨-, -, hland⟩
  obtain ⟨hreach, hblocked⟩ := pastSlots_served
  obtain ⟨t, w', hexec, hwarp, -, hrest, -⟩ := hland pastSlots 255 64 addOwnWarp addOwn .addI32 .dev 5 0 0 5 0 pastSlots_warp addOwn_find
    addOwn_parts rfl rfl rfl rfl (by decide) addOwn_alive rfl (by decide) hblocked (by rw [hreach]; decide) rfl
  have ht : pastSlots = t := Host.Outcome.next.inj ((exec_longLatencyLanding_waits pastSlots_warp addOwn_find pastSlots_waits).symm.trans hexec)
  have hsame : addOwnWarp = w' := Option.some.inj (pastSlots_warp.symm.trans (ht ▸ hwarp))
  have hgone : addOwnWarp.pending = addOwnWarp.pending.filter fun q => q.id != addOwn.id := by
    rw [← hsame] at hrest
    exact congrArg Warp.pending hrest
  exact absurd hgone (by decide)

end Sys2Proof.Machine
end

section
/-! PROOFS. Control words (O21): transfers by what each slice of the gang becomes, the slices that take a branch by their active lanes,
the gangs of a BRX by the first slice with each target, and a REGANG by what landing leaves of the slices. -/

namespace Sys2Proof.Machine
open Sys2Proof

/-! ### Idling (R284) -/

/-- What the end of a wait leaves of a slice, by the waits it has (R35). -/
theorem Slice.endWait_eq (wt : Wait) (x : Slice) : x.endWait wt =
    if wt ∉ x.waits then x
    else if x.waits = [wt] then { x with waits := [], pc := x.resume, retired := x.retired || x.leaving }
    else { x with waits := x.waits.erase wt } := by
  by_cases hin : wt ∈ x.waits
  · have hlast : (x.waits.erase wt).isEmpty = true ↔ x.waits = [wt] := by
      have hne : x.waits ≠ [] := List.ne_nil_of_mem hin
      rw [List.isEmpty_iff, List.erase_eq_nil_iff]
      simp [hne]
    rw [Slice.endWait, if_pos (List.contains_iff_mem.2 hin), if_neg (not_not.2 hin)]
    simp only [hlast]
  · rw [Slice.endWait, if_neg (mt List.contains_iff_mem.1 hin), if_pos hin]
theorem Warp.readyFrom_slices (w old : Warp) (now : Nat) : (w.readyFrom old now).slices = w.slices := by
  unfold Warp.readyFrom
  split <;> rfl
/-- The wait of a gang ends in its slices and in no other. -/
theorem Warp.slice?_endWait_gang {w : Warp} {i j : Nat} {x y : Slice} (wt : Wait) (now : Nat) (hx : w.slice? j = some x)
    (hy : w.slice? i = some y) : (w.endWait i wt now).slice? j = some (if x.gang = y.gang then x.endWait wt else x) := by
  rw [Warp.endWait, hy]
  dsimp only
  rw [Warp.slice?, Warp.readyFrom_slices, List.getElem?_map, show w.slices[j]? = some x from hx, Option.map_some]
theorem State.endWait_ends {s : State} {core slot slice : Nat} {w : Warp} (wt : Wait) (hw : s.warp? core slot = some w) :
    WaitEnds s (s.endWait core slot slice wt) core slot slice w wt := by
  have hend : s.endWait core slot slice wt = s.setWarp core slot (w.endWait slice wt s.coreNow) := by
    rw [State.endWait, State.modWarp, hw]
  refine ⟨hend ▸ fun _ => rfl, hend, fun j x y hx hy => ?_⟩
  rw [Warp.slice?_endWait_gang wt s.coreNow hx hy, Slice.endWait_eq]
  by_cases hgang : x.gang = y.gang <;> by_cases hin : wt ∈ x.waits <;> simp [hgang, hin]
theorem exec_sleep_runs {s : State} {w v : Warp} {g : Guard} {n : BitVec 17} (h : Runs s w v (.sleep g n)) :
    exec (.sleep g n) s = .next (if w.actsOnce s.cur.slices g = true ∧ n.toNat ≠ 0 then
      s.wait (.sleep (s.cyclesAt s.cur.core + n.toNat)) else s) := by
  have hzero : n.toNat ≠ 0 ↔ n ≠ 0 := BitVec.toNat_ne_iff_ne (y := 0)
  show execSleep g n s = _
  rw [execSleep, word_runs h]
  simp only [Bool.and_eq_true, bne_iff_ne, hzero]
theorem exec_sleepExpiry_runs {s : State} {core slot slice till : Nat} {w : Warp} (h : WaitsAt s core slot slice w (.sleep till)) :
    exec (.sleepExpiry core slot slice) s = .next (if till ≤ s.cyclesAt core then s.endWait core slot slice (.sleep till) else s) := by
  show execSleepExpiry core slot slice s = _
  rw [execSleepExpiry, State.onWait_single h]
  dsimp only
  split <;> rfl

/-! ### Transfers of control (R23, R273) -/

@[simp] theorem Slice.goTo_goTo (a b : DWord) (x : Slice) : (x.goTo a).goTo b = x.goTo b := by
  by_cases h : x.waiting = true
  · rw [show x.goTo a = { x with resume := a } from if_pos h]
    exact (if_pos h).trans (if_pos h).symm
  · rw [show x.goTo a = { x with pc := a } from if_neg h]
    exact (if_neg h).trans (if_neg h).symm
@[simp] theorem Slice.goTo_gang (a : DWord) (x : Slice) : (x.goTo a).gang = x.gang := by
  unfold Slice.goTo
  split <;> rfl

/-- Of two warps put into one slot the second stays. -/
theorem State.setWarp_setWarp (s : State) (k n : Nat) (u w : Warp) : (s.setWarp k n u).setWarp k n w = s.setWarp k n w := by
  rw [State.setWarp, State.setWarp, State.modCore_modCore]
  simp only [sinsert_sinsert]
  rfl
/-- A transfer after its warp's slices and scalar registers were changed is a transfer of both. -/
theorem Transfers.of_setWarp {s t : State} {u v v' : Warp} {n : Nat} (h : Transfers (s.setWarp s.cur.core s.cur.slot u) t u v' n)
    (hu : u = { v with slices := u.slices, s := u.s }) : Transfers s t v v' n := by
  obtain ⟨hbytes, hrest, ht⟩ := h
  refine ⟨hbytes, by rw [hrest, hu], ?_⟩
  rw [ht]
  exact congrArg (fun x : State => { x with nextId := s.nextId + n, cur := { s.cur with moved := true } }) (s.setWarp_setWarp ..)
/-- A transfer after which some slices of its warp become a new gang. -/
theorem Transfers.then_newGang {s t : State} {v v1 : Warp} {n : Nat} (h : Transfers s t v v1 n) {f : Warp → Warp}
    (hf : f v1 = { v1 with slices := (f v1).slices }) : Transfers s (t.newId.2.modLive f) v (f v1) (n + 1) := by
  obtain ⟨-, hrest, rfl⟩ := h
  have hlive : ({ s.setWarp s.cur.core s.cur.slot v1 with
      nextId := s.nextId + n + 1, cur := { s.cur with moved := true } } : State).live? = some v1 := s.live?_setWarp v1
  refine ⟨fun a => congrArg (sget 0 · a) (State.modLive_mem ..), by rw [hf, hrest], (State.modLive_of_live _ v1 f hlive).trans ?_⟩
  exact congrArg (fun x : State => { x with nextId := s.nextId + n + 1, cur := { s.cur with moved := true } }) (s.setWarp_setWarp ..)
/-- The slices of a gang that jumps go to the target. -/
theorem gangSlices_modSlices (s : State) (v : Warp) (f : Slice → Slice) : GangSlices s v (v.modSlices s.cur.slices f) fun _ => f :=
  v.slice?_modSlices _ f
/-- A word whose effect is a jump of its gang. -/
theorem jumpWord_transfers {s : State} {w v : Warp} {i : Instr} {pc : Warp → DWord} (h : Runs s w v i)
    (he : exec i s = word i s fun w s => s.jump (pc w)) :
    ∃ t v', exec i s = .next t ∧ Transfers s t v v' 0 ∧ v'.s = v.s ∧ GangSlices s v v' fun _ x => x.goTo (pc w) :=
  ⟨_, _, he.trans (word_runs h _), State.jump_transfers _ h.live, rfl, gangSlices_modSlices _ _ _⟩
/-- CALL writes its link, and its gang jumps (R273). -/
theorem exec_call_transfers {s : State} {w v : Warp} {acc : Bool} {d a : SReg} (h : Runs s w v (.call acc d a)) :
    ∃ t, exec (.call acc d a) s = .next t ∧ Transfers s t v ((v.sset d s.nextPc).modSlices s.cur.slices (Slice.goTo (w.sget a))) 0 := by
  rw [show exec (.call acc d a) s = execCall acc d a s from rfl, execCall, word_runs h]
  refine ⟨_, rfl, ?_⟩
  rw [State.modLive_of_live _ v _ h.live]
  exact .of_setWarp (State.jump_transfers _ (s.live?_setWarp _)) rfl

/-! ### Branches (R272, R22) -/

/-- A slice takes a branch when the predicate, negated or not, holds in one of its active lanes (R22). -/
theorem takesBranch_iff {w : Warp} {p : PReg} {neg : Bool} {j : Nat} : takesBranch w p neg j = true ↔
    ∃ l, 4 * j ≤ l ∧ l < 4 * j + 4 ∧ l < w.width ∧ w.active.getLsbD l = true ∧ w.pred p l = !neg := by
  simp only [takesBranch, List.any_eq_true, List.mem_range, Bool.and_eq_true, decide_eq_true_eq, bne_iff_ne, Bool.eq_not, ne_eq]
  constructor
  · rintro ⟨l, hl, ⟨hactive, hwidth⟩, hpred⟩
    exact ⟨4 * j + l, by omega, by omega, hwidth, hactive, hpred⟩
  · rintro ⟨l, hlo, hhi, hwidth, hactive, hpred⟩
    rw [← Nat.add_sub_cancel' hlo] at hwidth hactive hpred
    exact ⟨l - 4 * j, by omega, ⟨hactive, hwidth⟩, hpred⟩
theorem getLsbD_takenMask {w : Warp} {m : BitVec 16} {p : PReg} {neg : Bool} {j : Nat} :
    (takenMask w m p neg).getLsbD j = true ↔ j < w.nslices ∧ m.getLsbD j = true ∧ takesBranch w p neg j = true := by
  by_cases hj : j < 16
  · rw [takenMask, getLsbD_foldl_slices _ _ hj]
    simp
  · rw [BitVec.getLsbD_of_ge _ _ (by omega), BitVec.getLsbD_of_ge _ _ (by omega)]
    simp
/-- The slices that take a branch are those of the gang whose predicate holds in one of their active lanes. -/
theorem getLsbD_takenMask_iff {w : Warp} (hw : w.width % 4 = 0) {m : BitVec 16} {p : PReg} {neg : Bool} {j : Nat} :
    (takenMask w m p neg).getLsbD j = true ↔ m.getLsbD j = true ∧
      ∃ l, 4 * j ≤ l ∧ l < 4 * j + 4 ∧ l < w.width ∧ w.active.getLsbD l = true ∧ w.pred p l = !neg := by
  rw [getLsbD_takenMask, takesBranch_iff]
  refine and_iff_right_of_imp fun ⟨_, l, hlo, _, hl, _⟩ => ?_
  rw [Warp.nslices]
  omega
theorem getLsbD_of_takenMask {w : Warp} {m : BitVec 16} {p : PReg} {neg : Bool} {j : Nat} (h : (takenMask w m p neg).getLsbD j = true) :
    m.getLsbD j = true := (getLsbD_takenMask.1 h).2.1

section
variable {s : State} {w v : Warp} {acc neg : Bool} {p : PReg} {off : BitVec 20} (h : Runs s w v (.bra acc p neg off))
include h

theorem exec_bra_idle (hnone : takenMask w s.cur.slices p neg = 0) : exec (.bra acc p neg off) s = .next s := by
  show execBra acc p neg off s = _
  rw [execBra, word_runs h]
  dsimp only
  rw [if_pos hnone]
/-- A BRA that some slices take and some do not divides the gang. -/
theorem exec_bra_splits (hsome : takenMask w s.cur.slices p neg ≠ 0) (hall : takenMask w s.cur.slices p neg ≠ s.cur.slices) :
    ∃ t, exec (.bra acc p neg off) s = .next t ∧
      Transfers s t v ((v.modSlices s.cur.slices (Slice.goTo s.nextPc)).splitTo (takenMask w s.cur.slices p neg) s.nextId
        (braTarget s.cur.pc off)) 1 := by
  rw [show exec (.bra acc p neg off) s = execBra acc p neg off s from rfl, execBra, word_runs h]
  refine ⟨_, rfl, ?_⟩
  dsimp only
  rw [if_neg hsome, if_neg hall]
  have hid : (s.jump s.nextPc).newId.1 = s.nextId := State.modLive_nextId ..
  rw [← hid]
  exact (State.jump_transfers s.nextPc h.live).then_newGang (f := fun v => v.splitTo _ _ _) rfl
/-- A BRA that some slices take: they go to the target, as a gang of their own when the others of the gang go on. -/
theorem exec_bra_transfers (hsome : takenMask w s.cur.slices p neg ≠ 0) :
    ∃ t v' n, exec (.bra acc p neg off) s = .next t ∧ Transfers s t v v' n ∧
      (n = 0 ↔ takenMask w s.cur.slices p neg = s.cur.slices) ∧
      ∀ j x, v.slice? j = some x → v'.slice? j = some (
        if (takenMask w s.cur.slices p neg).getLsbD j then
          { x.goTo (braTarget s.cur.pc off) with gang := if n = 0 then x.gang else s.nextId }
        else if s.cur.slices.getLsbD j then x.goTo s.nextPc else x) := by
  by_cases hall : takenMask w s.cur.slices p neg = s.cur.slices
  · refine ⟨_, _, 0, exec_bra_taken h (hall ▸ hsome) hall, State.jump_transfers _ h.live, iff_of_true rfl hall, fun j x hx => ?_⟩
    rw [Warp.slice?_modSlices, hx, hall, Option.map_some]
    split
    · rw [if_pos rfl, ← Slice.goTo_gang (braTarget s.cur.pc off) x]
    · rfl
  · obtain ⟨t, he, ht⟩ := exec_bra_splits h hsome hall
    refine ⟨t, _, 1, he, ht, iff_of_false Nat.one_ne_zero hall, fun j x hx => ?_⟩
    have htaken : (takenMask w s.cur.slices p neg).getLsbD j = true → s.cur.slices.getLsbD j = true := getLsbD_of_takenMask
    rw [Warp.splitTo, Warp.slice?_modSlices, Warp.slice?_modSlices, hx, Option.map_some, Option.map_some, if_neg Nat.one_ne_zero]
    split
    · next hj => rw [if_pos (htaken hj), Slice.goTo_goTo]
    · rfl
end

/-! ### Branches through registers (R274) -/

theorem mem_maskSlices {m : BitVec 16} {j : Nat} : j ∈ maskSlices m ↔ m.getLsbD j = true := by
  rw [maskSlices, List.mem_filter, List.mem_range]
  exact and_iff_right_of_imp BitVec.lt_of_getLsbD
theorem maskSlices_nodup (m : BitVec 16) : (maskSlices m).Nodup := List.nodup_range.filter _

/-- The first slice of a gang whose target is that of slice `j`: it numbers the gang that goes there. -/
def brxFirst (w : Warp) (a : VReg) (m : BitVec 16) (j : Nat) : Nat :=
  ((maskSlices m).find? fun i => brxTarget w a i == brxTarget w a j).getD j
theorem brxFirst_found {w : Warp} {a : VReg} {m : BitVec 16} {j : Nat} (hj : m.getLsbD j = true) :
    brxFirst w a m j < 16 ∧ brxTarget w a (brxFirst w a m j) = brxTarget w a j := by
  cases hfind : (maskSlices m).find? fun i => brxTarget w a i == brxTarget w a j with
  | none => exact absurd (List.find?_eq_none.1 hfind j (mem_maskSlices.2 hj)) (by simp)
  | some i =>
    rw [brxFirst, hfind, Option.getD_some]
    exact ⟨BitVec.lt_of_getLsbD (mem_maskSlices.1 (List.mem_of_find?_eq_some hfind)), by simpa using List.find?_some hfind⟩
/-- Slices of one target go into one gang, and of two targets into two. -/
theorem brxFirst_inj {w : Warp} {a : VReg} {m : BitVec 16} {i j : Nat} (hi : m.getLsbD i = true) (hj : m.getLsbD j = true) :
    brxFirst w a m i = brxFirst w a m j ↔ brxTarget w a i = brxTarget w a j := by
  constructor
  · intro h
    rw [← (brxFirst_found hi).2, h, (brxFirst_found hj).2]
  · intro h
    have hfind : ((maskSlices m).find? fun k => brxTarget w a k == brxTarget w a j).isSome = true :=
      List.find?_isSome.2 ⟨j, mem_maskSlices.2 hj, beq_self_eq_true _⟩
    obtain ⟨k, hk⟩ := Option.isSome_iff_exists.1 hfind
    rw [brxFirst, brxFirst, h, hk, Option.getD_some, Option.getD_some]

theorem getLsbD_oneSlice {i : Nat} (hi : i < 16) (j : Nat) : (BitVec.ofNat 16 (2 ^ i)).getLsbD j = decide (j = i) := by
  rw [BitVec.getLsbD_ofNat, Nat.testBit_two_pow, ← Bool.decide_and, decide_eq_decide]
  omega
/-- Each slice of a list goes to its own target, in its own gang. -/
def Warp.splitEach (v : Warp) (js : List Nat) (gang : Nat → Nat) (target : Nat → DWord) : Warp :=
  js.foldl (fun v j => v.splitTo (BitVec.ofNat 16 (2 ^ j)) (gang j) (target j)) v
theorem Warp.splitEach_rest (v : Warp) (js : List Nat) (gang : Nat → Nat) (target : Nat → DWord) :
    v.splitEach js gang target = { v with slices := (v.splitEach js gang target).slices } := by
  induction js generalizing v with
  | nil => rfl
  | cons i r ih => exact ih (v.splitTo (BitVec.ofNat 16 (2 ^ i)) (gang i) (target i))
theorem Warp.slice?_splitEach (v : Warp) {js : List Nat} (gang : Nat → Nat) (target : Nat → DWord) (hnodup : js.Nodup)
    (hlt : ∀ i ∈ js, i < 16) (j : Nat) :
    (v.splitEach js gang target).slice? j =
      (v.slice? j).map fun x => if j ∈ js then { x.goTo (target j) with gang := gang j } else x := by
  induction js generalizing v with
  | nil => simp [splitEach]
  | cons i r ih =>
    obtain ⟨hout, hr⟩ := List.nodup_cons.1 hnodup
    have hstep : v.splitEach (i :: r) gang target =
        (v.splitTo (BitVec.ofNat 16 (2 ^ i)) (gang i) (target i)).splitEach r gang target := rfl
    rw [hstep, ih _ hr fun k hk => hlt k (List.mem_cons_of_mem _ hk), Warp.splitTo, Warp.slice?_modSlices, Option.map_map]
    congr 1
    funext x
    simp only [Function.comp_apply, getLsbD_oneSlice (hlt i List.mem_cons_self), decide_eq_true_eq, List.mem_cons]
    by_cases hj : j = i
    · subst hj
      rw [if_neg hout, if_pos rfl, if_pos (.inl rfl)]
    · simp only [hj, if_false, false_or]
theorem exec_brx_transfers {s : State} {w v : Warp} {acc : Bool} {a : VReg} (h : Runs s w v (.brx acc a)) :
    ∃ t, exec (.brx acc a) s = .next t ∧ Transfers s t v
      (v.splitEach (maskSlices s.cur.slices) (fun j => s.nextId + brxFirst w a s.cur.slices j) (brxTarget w a)) 16 := by
  rw [show exec (.brx acc a) s = execBrx acc a s from rfl, execBrx, word_runs h]
  refine ⟨_, rfl, ?_⟩
  dsimp only
  rw [State.modLive_of_live _ v _ h.live]
  exact ⟨fun _ => rfl, by rw [Warp.splitEach_rest], rfl⟩

/-! ### EXIT (R275, R27) -/

/-- What EXIT makes of a slice. -/
def Slice.exits (x : Slice) : Slice := if x.waiting then { x with leaving := true } else { x with retired := true }
theorem Slice.exits_eq (x : Slice) : x.exits = if x.waits = [] then { x with retired := true } else { x with leaving := true } := by
  rw [Slice.exits, Slice.waiting]
  cases x.waits <;> rfl
theorem Warp.retired_eq_false {w : Warp} : w.retired = false ↔ ∃ x ∈ w.slices, x.retired = false := by
  simp [Warp.retired]
/-- A warp that EXIT leaves no slice ends, once what it has in flight could end. -/
theorem exec_exit_runs {s : State} {w v : Warp} {acc : Bool} (h : Runs s w v (.exit acc)) :
    let v' := v.modSlices s.cur.slices Slice.exits
    let u := { s.setWarp s.cur.core s.cur.slot v' with cur := { s.cur with moved := true } }
    exec (.exit acc) s = .next (if ∃ x ∈ v'.slices, x.retired = false then u
      else if u.canRetire s.cur.core s.cur.slot v' then u.endWarp s.cur.core s.cur.slot w.team else u) := by
  intro v' u
  have hlive : u.live? = some v' := s.live?_setWarp v'
  rw [show exec (.exit acc) s = execExit acc s from rfl, execExit, word_runs h]
  dsimp only
  rw [State.modLive_of_live _ v _ h.live]
  show Host.Outcome.next (match u.live? with
    | some x => if x.retired && u.canRetire s.cur.core s.cur.slot x then u.endWarp s.cur.core s.cur.slot w.team else u
    | none => u) = _
  rw [hlive]
  dsimp only
  by_cases hgoes : ∃ x ∈ v'.slices, x.retired = false
  · rw [if_pos hgoes, Warp.retired_eq_false.2 hgoes]
    rfl
  · have hret : v'.retired = true := by simpa using mt Warp.retired_eq_false.1 hgoes
    rw [if_neg hgoes, hret, Bool.true_and]

/-! ### Landing leaves the slices (R188) -/

theorem foldl_slices {β : Type} {f : Warp → β → Warp} (hf : ∀ w x, (f w x).slices = w.slices) (xs : List β) (w : Warp) :
    (xs.foldl f w).slices = w.slices :=
  xs.foldlRecOn (motive := fun v => v.slices = w.slices) f rfl fun v h x _ => (hf v x).trans h
theorem Warp.putLanded_slices (w : Warp) (vs : Landed) : (w.putLanded vs).slices = w.slices :=
  foldl_slices (fun w x => by split <;> rfl) vs w
theorem Warp.landResult_slices (w : Warp) (p : Pending) : (w.landResult p).slices = w.slices := by
  unfold Warp.landResult
  extract_lets w0 w1
  have hlanded : w1.slices = w.slices := Warp.putLanded_slices ..
  cases p.op with
  | scalar x =>
    dsimp only
    split
    · exact hlanded
    · exact (foldl_slices (fun w d => by cases d <;> rfl) _ w1).trans hlanded
  | values | load | bfx | atom | topk => exact hlanded

/-- From `s` to `t` the cursor stands, and every warp has its slices as before. -/
structure KeepsSlices (s t : State) : Prop where
  cur : t.cur = s.cur
  warps : ∀ k n w, s.warp? k n = some w → ∃ w', t.warp? k n = some w' ∧ w'.slices = w.slices

theorem KeepsSlices.refl (s : State) : KeepsSlices s s := ⟨rfl, fun _ _ w hw => ⟨w, hw, rfl⟩⟩
theorem KeepsSlices.trans {s t u : State} (h : KeepsSlices s t) (g : KeepsSlices t u) : KeepsSlices s u where
  cur := g.cur.trans h.cur
  warps k n w hw := by
    obtain ⟨x, hx, hwx⟩ := h.warps k n w hw
    obtain ⟨y, hy, hxy⟩ := g.warps k n x hx
    exact ⟨y, hy, hxy.trans hwx⟩
theorem Performs.keepsSlices {s t : State} (h : Performs s t) : KeepsSlices s t where
  cur := h.cur
  warps k n w hw := by
    obtain ⟨x, hx, hwx⟩ := h.warps k n w hw
    exact ⟨x, hx, by rw [hwx]⟩
theorem KeepsSlices.modWarp (s : State) (k n : Nat) (f : Warp → Warp) (hf : ∀ w, (f w).slices = w.slices) :
    KeepsSlices s (s.modWarp k n f) where
  cur := State.modWarp_cur ..
  warps j i w hw := by
    rw [State.warp?_modWarp_eq, hw]
    split
    · exact ⟨f w, rfl, hf w⟩
    · exact ⟨w, rfl, rfl⟩
theorem State.land_keepsSlices (s : State) (k slot id : Nat) : KeepsSlices s (s.land k slot id) := by
  unfold State.land
  split
  · exact .refl s
  · split
    · exact .refl s
    · refine (s.performParts_performs ..).keepsSlices.trans (.modWarp _ _ _ _ fun w => ?_)
      split
      · exact w.landResult_slices _
      · rfl
theorem State.landSome_keepsSlices (s : State) (k slot : Nat) (sel : Pending → Bool) : KeepsSlices s (s.landSome k slot sel) := by
  unfold State.landSome
  split
  · exact .refl s
  · next w hw =>
    clear hw
    generalize w.pending.filter sel = ps
    induction ps generalizing s with
    | nil => exact .refl s
    | cons p r ih => exact (s.land_keepsSlices k slot p.id).trans (ih _)

/-! ### REGANG (R24, R277) -/

/-- A REGANG is complete when each slice that it names is in the gang, or waits at the same REGANG. -/
theorem regangComplete_iff {w : Warp} {m mask : BitVec 16} {pc : DWord} : regangComplete w m mask pc = true ↔
    ∀ j < 16, mask.getLsbD j = true → m.getLsbD j = true ∨ ∃ x, w.slice? j = some x ∧ x.regang? = some mask ∧ x.pc = pc := by
  simp only [regangComplete, List.all_eq_true, mem_maskSlices, Bool.or_eq_true]
  refine forall_congr' fun j => ⟨fun h _ hj => (h hj).imp_right fun hw => ?_,
    fun h hj => (h (BitVec.lt_of_getLsbD hj) hj).imp_right fun hw => ?_⟩
  · cases hx : w.slice? j with
    | none => rw [hx] at hw; cases hw
    | some x => rw [hx] at hw; exact ⟨x, rfl, by simpa using hw⟩
  · obtain ⟨x, hx, hregang, hpc⟩ := hw
    rw [hx]
    simp [hregang, hpc]

/-- What a complete REGANG makes of a slice that it names. -/
def Slice.rejoins (mask : BitVec 16) (gang : Nat) (next : DWord) (x : Slice) : Slice :=
  let y := { x with waits := x.waits.erase (.regang mask), gang := gang, count := 0, resume := next }
  if y.waiting then y else { y with pc := next }
theorem Slice.rejoins_eq (mask : BitVec 16) (gang : Nat) (next : DWord) (x : Slice) : x.rejoins mask gang next =
    { x with waits := x.waits.erase (.regang mask), gang := gang, count := 0, resume := next
             pc := if x.waits.erase (.regang mask) = [] then next else x.pc } := by
  dsimp only [Slice.rejoins, Slice.waiting]
  cases x.waits.erase (.regang mask) <;> rfl
/-- A REGANG that is complete, once the results of the slices that it names have landed: they become one gang after its bundle. -/
def State.rejoin (s : State) (mask : BitVec 16) : State :=
  let u := s.newId.2.modLive fun v => v.modSlices mask (Slice.rejoins mask s.nextId s.nextPc)
  { u with cur := { u.cur with moved := true } }
theorem State.rejoin_transfers {s : State} {v : Warp} (mask : BitVec 16) (h : s.live? = some v) :
    Transfers s (s.rejoin mask) v (v.modSlices mask (Slice.rejoins mask s.nextId s.nextPc)) 1 := by
  have hlive : s.newId.2.live? = some v := h
  rw [State.rejoin, State.modLive_of_live _ v _ hlive]
  exact ⟨fun _ => rfl, rfl, rfl⟩
theorem exec_regang_runs {s : State} {w v : Warp} {mask : BitVec 16} (h : Runs s w v (.regang mask)) : exec (.regang mask) s = .next (
    if regangComplete v s.cur.slices mask s.cur.pc then
      (s.landSome s.cur.core s.cur.slot fun p => (p.slices &&& mask) != 0).rejoin mask
    else s.wait (.regang mask)) := by
  show execRegang mask s = _
  rw [execRegang, word_runs h]
  dsimp only
  rw [h.live]
  rfl

/-! ### The clauses of the words -/

/-- BRA by the slices that take it, each by an active lane in which its predicate holds. -/
theorem bra_transfers {s : State} {w v : Warp} {acc neg : Bool} {p : PReg} {off : BitVec 20} (h : Runs s w v (.bra acc p neg off))
    (hw : w.width % 4 = 0) :
    let takes (j : Nat) : Prop := s.cur.slices.getLsbD j = true ∧
      ∃ l, 4 * j ≤ l ∧ l < 4 * j + 4 ∧ l < w.width ∧ w.active.getLsbD l = true ∧ w.pred p l = !neg
    ∃ t, exec (.bra acc p neg off) s = .next t ∧
      ((∀ j, ¬takes j) → t = s) ∧
      ((∃ j, takes j) → ∃ v' n, Transfers s t v v' n ∧
        (∀ j x, v.slice? j = some x → s.cur.slices.getLsbD j = false → v'.slice? j = some x) ∧
        (∀ j x, v.slice? j = some x → takes j → v'.slice? j = some { x.goTo (s.cur.pc + BitVec.ofInt 64 (4 * off.toInt)) with
          gang := if n = 0 then x.gang else s.nextId }) ∧
        (∀ j x, v.slice? j = some x → s.cur.slices.getLsbD j = true → ¬takes j → v'.slice? j = some (x.goTo s.nextPc)) ∧
        (n = 0 ↔ ∀ j, s.cur.slices.getLsbD j = true → takes j)) := by
  intro takes
  have htaken (j : Nat) : (takenMask w s.cur.slices p neg).getLsbD j = true ↔ takes j := getLsbD_takenMask_iff hw
  by_cases hnone : takenMask w s.cur.slices p neg = 0
  · refine ⟨s, exec_bra_idle h hnone, fun _ => rfl, fun ⟨j, hj⟩ => ?_⟩
    rw [← htaken, hnone] at hj
    simp at hj
  · obtain ⟨t, v', n, he, ht, hall, hslices⟩ := exec_bra_transfers h hnone
    refine ⟨t, he, fun hno => ?_, fun _ => ⟨v', n, ht, fun j x hx hout => ?_, fun j x hx hj => ?_, fun j x hx hin hj => ?_, ?_⟩⟩
    · exact absurd (BitVec.eq_of_getLsbD_eq fun j _ => by simpa using mt (htaken j).1 (hno j)) hnone
    · have hj : ¬(takenMask w s.cur.slices p neg).getLsbD j = true := fun hj => by
        rw [getLsbD_of_takenMask hj] at hout
        cases hout
      rw [hslices j x hx, if_neg hj, hout, if_neg Bool.false_ne_true]
    · rw [hslices j x hx, if_pos ((htaken j).2 hj), braTarget_eq]
    · rw [hslices j x hx, if_neg (mt (htaken j).1 hj), if_pos hin]
    · rw [hall]
      constructor
      · intro heq j hj
        rw [← htaken, heq, hj]
      · intro hevery
        exact BitVec.eq_of_getLsbD_eq fun j _ => Bool.eq_iff_iff.2 ⟨getLsbD_of_takenMask, fun hj => (htaken j).2 (hevery j hj)⟩
/-- BRX by the target of each slice: two slices are in one gang when they have one target. -/
theorem brx_transfers {s : State} {w v : Warp} {acc : Bool} {a : VReg} (h : Runs s w v (.brx acc a)) :
    ∃ t v', exec (.brx acc a) s = .next t ∧ Transfers s t v v' 16 ∧ v'.s = v.s ∧ ∃ gang : Nat → Nat,
      GangSlices s v v' (fun j x => { x.goTo (brxTarget w a j) with gang := gang j }) ∧
      ∀ i j, s.cur.slices.getLsbD i = true → s.cur.slices.getLsbD j = true →
        s.nextId ≤ gang i ∧ gang i < s.nextId + 16 ∧ (gang i = gang j ↔ brxTarget w a i = brxTarget w a j) := by
  obtain ⟨t, he, ht⟩ := exec_brx_transfers h
  refine ⟨t, _, he, ht, by rw [Warp.splitEach_rest], fun j => s.nextId + brxFirst w a s.cur.slices j, fun j => ?_,
    fun i j hi hj => ⟨Nat.le_add_right .., ?_, ?_⟩⟩
  · rw [Warp.slice?_splitEach v _ _ (maskSlices_nodup _) fun i hi => BitVec.lt_of_getLsbD (mem_maskSlices.1 hi)]
    simp only [mem_maskSlices]
  · exact Nat.add_lt_add_left (brxFirst_found hi).1 _
  · rw [Nat.add_left_cancel_iff, brxFirst_inj hi hj]
/-- A complete REGANG by what it makes of each slice, whose results have landed before. -/
theorem regang_transfers {s : State} {v : Warp} (mask : BitVec 16) (h : s.live? = some v) :
    let s1 := s.landSome s.cur.core s.cur.slot fun p => (p.slices &&& mask) != 0
    ∃ v1 v', s1.live? = some v1 ∧ Transfers s1 (s1.rejoin mask) v1 v' 1 ∧ v1.slices = v.slices ∧
      ∀ j x, v.slice? j = some x → v'.slice? j = some (if mask.getLsbD j then
        { x with waits := x.waits.erase (.regang mask), gang := s1.nextId, count := 0, resume := s.nextPc
                 pc := if x.waits.erase (.regang mask) = [] then s.nextPc else x.pc } else x) := by
  intro s1
  have hkeeps : KeepsSlices s s1 := s.landSome_keepsSlices ..
  have hnext : s1.nextPc = s.nextPc := by rw [State.nextPc, hkeeps.cur, State.nextPc]
  obtain ⟨v1, hv1, hslices⟩ := hkeeps.warps _ _ v h
  have hlive : s1.live? = some v1 := by rw [State.live?, hkeeps.cur, hv1]
  refine ⟨v1, _, hlive, State.rejoin_transfers mask hlive, hslices, fun j x hx => ?_⟩
  have hx1 : v1.slice? j = some x := by rw [Warp.slice?, hslices]; exact hx
  rw [Warp.slice?_modSlices, hx1, Option.map_some, Slice.rejoins_eq, hnext]

/-- Settles O21: a transfer by what each slice of the gang becomes, EXIT by the slices that it leaves, and a REGANG by whether the slices
that it names are all here. -/
theorem controlWords : Obligations.ControlWords := by
  unfold Obligations.ControlWords
  refine ⟨⟨fun s g hsq => ?_, fun s w v g h => ?_, fun s w v g h => ?_, fun s w v g n h => ⟨_, exec_sleep_runs h, ?_⟩,
      fun s core slot slice w till h => ⟨_, exec_sleepExpiry_runs h, ?_⟩⟩,
    ⟨fun s w v acc p neg off h _ hw => bra_transfers h hw, fun s w v acc a h => jumpWord_transfers h rfl,
      fun s w v acc a h => jumpWord_transfers h rfl, fun s w v acc d a h => ?_, fun s w v acc a h => brx_transfers h⟩,
    fun s w v acc h => ⟨_, _, exec_exit_runs h, rfl, ?_, rfl⟩, fun s w v mask h => ?_⟩
  · exact if_pos (α := Out) hsq
  · show execNop g s = _
    rw [execNop, word_runs h, ite_self]
  · show execYield g s = _
    rw [execYield, word_runs h, State.modLive_of_live _ v _ h.live]
  · split
    · exact State.wait_waits _ h.live
    · rfl
  · show if till ≤ s.cyclesAt core then _ else _
    split
    · exact State.endWait_ends _ h.warp
    · rfl
  · obtain ⟨t, he, ht⟩ := exec_call_transfers h
    exact ⟨t, _, he, ht, Warp.sget_sset .., fun r hr => Warp.sget_sset_other _ _ _ _ hr, gangSlices_modSlices _ _ _⟩
  · simp only [← Slice.exits_eq]
    exact gangSlices_modSlices _ _ _
  · intro here
    have hiff : regangComplete v s.cur.slices mask s.cur.pc = true ↔ here := regangComplete_iff
    refine ⟨_, exec_regang_runs h, fun hout => ?_, fun hhere => ?_⟩
    · rw [if_neg (mt hiff.1 hout)]
      exact State.wait_waits _ h.live
    · rw [if_pos (hiff.2 hhere)]
      exact regang_transfers mask h.live

end Sys2Proof.Machine
end
